-- ==== Sys2Proof/Word.lean ====
section
/-!
DEFINITION. Sys2Proof/Word.lean: the widths of R5 and of the register fields of R47, as names for bit vectors.
-/

namespace Sys2Proof

/-- A byte (R5). -/
abbrev Byte := BitVec 8
/-- A double, the width of a scalar register (R5, R28). -/
abbrev W64 := BitVec 64
/-- A handle image (R29), and a mask entry (R141). -/
abbrev W256 := BitVec 256
/-- A scalar register field, s0 to s63 (R47). -/
abbrev Sreg := BitVec 6
/-- A handle field, h0 to h31 (R47). -/
abbrev Hreg := BitVec 5
/-- A glaze slot field, g0 to g63 (R47). -/
abbrev Gslot := BitVec 6

end Sys2Proof
end

