-- ==== Sys2Proof/Syntax.lean ====
section
/-!
DEFINITION. Sys2Proof/Syntax.lean: every instruction of the opcode map (R56 to R59, with the token bits of R44) and
every event of the opcode table, one constructor each, with the small types their operands are drawn from.
An instruction carries its token bits first and then the fields its encoding table names; an event carries the
core, engine, die, partition or other agent it concerns.
-/

namespace Sys2Proof

/-- The token bits of a first word (R24): take from the previous and the next engine's queue, signal them. -/
structure Tok where
  wp : Bool := false
  wn : Bool := false
  sp : Bool := false
  sn : Bool := false
  deriving DecidableEq, Repr

/-- The computation types of format V (R52). -/
inductive VTy where | f32 | f16 | b16 | i32 | i16 | i8 | n32 | n8
  deriving DecidableEq, Repr

/-- The repeat counts of format V (R53). -/
inductive Rep where | x1 | x4 | x16 | xend
  deriving DecidableEq, Repr

/-- The condition codes (R54). -/
inductive Cond where | eq | ne | lt | le | gt | ge | ltn | len | gtn | gen | any | all
  deriving DecidableEq, Repr

/-- The rounding modes (R55). -/
inductive RMode where | rne | rtz | rdn | rup | rna
  deriving DecidableEq, Repr

/-- The operand types of bank operations (R293). -/
inductive BTy where | d | w | f
  deriving DecidableEq, Repr

/-- The activations of MEPI and RELAX (R215, R234). -/
inductive Act where | identity | relu | tanh | clamp | reluclamp
  deriving DecidableEq, Repr

/-- The three engines that hold a queue (R19, R20). -/
inductive Eng where | ld | ex | st
  deriving DecidableEq, Repr

/-- The four instruction streams (R23). -/
inductive Strm where | fe | ld | ex | st
  deriving DecidableEq, Repr

/-- The eight token queues (R23), each named from its source to its destination. -/
inductive Dir where | feLd | ldEx | exSt | stFe | ldFe | exLd | stEx | feSt
  deriving DecidableEq, Repr

/-- The causes of a stop (R245). -/
inductive Cause where
  | illegal | priv | align | handle | mask | accBusy | earlyRead | layout | bankIdem
  | page | perm | table | format | memUe | arithCheck | snapFull
  | nonconv | relaxShape | chainLimit | specSide | specDefer | pwrOver | pwrBreach | record | trap | brk
  deriving DecidableEq, Repr

/-- A raised cause with the stream that raised it and the contents of FF.ADDR and FF.INFO (R245, R251, R252). -/
structure Stop where
  cause : Cause
  src   : Strm
  addr  : W64
  info  : W64
  deriving DecidableEq, Repr

/-- The three mailboxes of the Ikilith die (R404). -/
inductive MbInst where | host | runtime | mgmt
  deriving DecidableEq, Repr

/-- A register that an outside write names: a special register of a core, a window register of an application core
(R398), or a register of a mailbox (R404). -/
inductive RegTarget where
  | sr (c n : Nat)
  | ac (core off : Nat)
  | mb (m : MbInst) (off : Nat)
  deriving DecidableEq, Repr

/-- A block-scaled block: its scale and its mantissas (R83, R416). -/
structure BkBlock where
  scale : Nat
  m     : List Int
  deriving DecidableEq, Repr

/-- What a link transfer carries (R416): a tile's bytes, or a partial of narrow or wide blocks. -/
inductive LinkBody where
  | plain (bs : List Byte)
  | part (wide : Bool) (blocks : List BkBlock)
  deriving DecidableEq, Repr

/-- A link transfer under way (R408 to R413): its route word, the turns it has made, the slot of its next hop, the
sender's partition (64 or more: one of another package) and link tenant, the port by which it entered the package it is in,
its contents, the beats resent on its last hop, and whether a beat failed past resending. -/
structure LinkXfer where
  route  : W64
  hop    : Nat
  slot   : Nat
  part   : Nat
  tenant : Nat
  entry  : Nat
  body   : LinkBody
  resent : Nat
  bad    : Bool
  deriving DecidableEq, Repr

/-- A collective record (R425). -/
structure CollRec where
  offer : Bool
  rank  : Nat
  grp   : Nat
  k     : Nat
  val   : Nat
  deriving DecidableEq, Repr

/-- A collective record on its way (R410, R425): the route word to the next member, the turns it has made and the port by which it
entered the package it is in. -/
structure CollHop where
  route : W64
  hop   : Nat
  entry : Nat
  r     : CollRec
  deriving DecidableEq, Repr

/-- The protected storage arrays whose words can fail (R419). -/
inductive ProtArr where
  | scratchpad (c : Nat) | spill (c : Nat) | handle (c : Nat) | queue (c : Nat) | tokens (c : Nat) | tile (k t : Nat)
  | memory | glaze (k stack : Nat) | fetch
  deriving DecidableEq, Repr

/-- One protected 64-bit word of an array, by its number in the array (R419, R420). -/
structure ProtWord where
  arr : ProtArr
  idx : Nat
  deriving DecidableEq, Repr

/-- Every instruction of a control core and every event of the package, one constructor for each row of the opcode
table. -/
inductive Instr where
  | add (t : Tok) (d : Sreg) (a : Sreg) (b : Sreg)
  | sub (t : Tok) (d : Sreg) (a : Sreg) (b : Sreg)
  | and (t : Tok) (d : Sreg) (a : Sreg) (b : Sreg)
  | or (t : Tok) (d : Sreg) (a : Sreg) (b : Sreg)
  | xor (t : Tok) (d : Sreg) (a : Sreg) (b : Sreg)
  | shl (t : Tok) (d : Sreg) (a : Sreg) (b : Sreg)
  | shr (t : Tok) (d : Sreg) (a : Sreg) (b : Sreg)
  | sra (t : Tok) (d : Sreg) (a : Sreg) (b : Sreg)
  | slt (t : Tok) (d : Sreg) (a : Sreg) (b : Sreg)
  | sltn (t : Tok) (d : Sreg) (a : Sreg) (b : Sreg)
  | seq (t : Tok) (d : Sreg) (a : Sreg) (b : Sreg)
  | sel (t : Tok) (d : Sreg) (a : Sreg) (b : Sreg)
  | min (t : Tok) (d : Sreg) (a : Sreg) (b : Sreg)
  | max (t : Tok) (d : Sreg) (a : Sreg) (b : Sreg)
  | minn (t : Tok) (d : Sreg) (a : Sreg) (b : Sreg)
  | maxn (t : Tok) (d : Sreg) (a : Sreg) (b : Sreg)
  | mul (t : Tok) (d : Sreg) (a : Sreg) (b : Sreg)
  | mulh (t : Tok) (d : Sreg) (a : Sreg) (b : Sreg)
  | mulhn (t : Tok) (d : Sreg) (a : Sreg) (b : Sreg)
  | div (t : Tok) (d : Sreg) (a : Sreg) (b : Sreg)
  | divn (t : Tok) (d : Sreg) (a : Sreg) (b : Sreg)
  | rem (t : Tok) (d : Sreg) (a : Sreg) (b : Sreg)
  | remn (t : Tok) (d : Sreg) (a : Sreg) (b : Sreg)
  | clz (t : Tok) (d : Sreg) (a : Sreg)
  | ctz (t : Tok) (d : Sreg) (a : Sreg)
  | popc (t : Tok) (d : Sreg) (a : Sreg)
  | addi (t : Tok) (d : Sreg) (a : Sreg) (imm : BitVec 8)
  | andi (t : Tok) (d : Sreg) (a : Sreg) (imm : BitVec 8)
  | ori (t : Tok) (d : Sreg) (a : Sreg) (imm : BitVec 8)
  | xori (t : Tok) (d : Sreg) (a : Sreg) (imm : BitVec 8)
  | shli (t : Tok) (d : Sreg) (a : Sreg) (imm : BitVec 6)
  | shri (t : Tok) (d : Sreg) (a : Sreg) (imm : BitVec 6)
  | srai (t : Tok) (d : Sreg) (a : Sreg) (imm : BitVec 6)
  | slti (t : Tok) (d : Sreg) (a : Sreg) (imm : BitVec 8)
  | movi (t : Tok) (d : Sreg) (hi : BitVec 14) (lo : BitVec 28)
  | movhi (t : Tok) (d : Sreg) (hi : BitVec 14) (lo : BitVec 8)
  | j (t : Tok) (off : BitVec 20)
  | jl (t : Tok) (off : BitVec 20)
  | jr (t : Tok) (a : Sreg)
  | bz (t : Tok) (a : Sreg) (off : BitVec 13)
  | bnz (t : Tok) (a : Sreg) (off : BitVec 13)
  | bltz (t : Tok) (a : Sreg) (off : BitVec 13)
  | bgez (t : Tok) (a : Sreg) (off : BitVec 13)
  | loop (t : Tok) (a : Sreg) (rot : Bool) (off : BitVec 13)
  | spill (t : Tok) (d : Sreg) (slot : BitVec 9)
  | fill (t : Tok) (d : Sreg) (slot : BitVec 9)
  | lds (t : Tok) (d : Sreg) (a : Sreg) (imm : BitVec 8)
  | sts (t : Tok) (d : Sreg) (a : Sreg) (imm : BitVec 8)
  | hset (t : Tok) (hd : Hreg) (a : Sreg) (f : BitVec 5)
  | hget (t : Tok) (hd : Hreg) (a : Sreg) (f : BitVec 5)
  | hmov (t : Tok) (hd : Hreg) (ha : Hreg)
  | hld (t : Tok) (hd : Hreg) (a : Sreg) (off : BitVec 8)
  | hldSpill (t : Tok) (hd : Hreg) (slot4 : BitVec 7)
  | hst (t : Tok) (hd : Hreg) (a : Sreg) (off : BitVec 8)
  | hstSpill (t : Tok) (hd : Hreg) (slot4 : BitVec 7)
  | hadv (t : Tok) (hd : Hreg) (a : Sreg) (dim : BitVec 3)
  | movsr (t : Tok) (d : Sreg) (n : BitVec 14)
  | movrs (t : Tok) (d : Sreg) (n : BitVec 14)
  | region (t : Tok) (n : Bool)
  | waita (t : Tok) (d : Sreg) (a : Sreg) (v : Sreg) (u : Sreg) (cond : Cond)
  | poll (t : Tok) (d : Sreg)
  | abort (t : Tok) (lvl : BitVec 2)
  | phase (t : Tok) (d : Sreg)
  | done (t : Tok)
  | launch (t : Tok) (d : Sreg) (a : Sreg)
  | cancel (t : Tok) (d : Sreg) (a : Sreg) (lvl : BitVec 2)
  | trap (t : Tok) (n : BitVec 14)
  | brk (t : Tok)
  | eret (t : Tok)
  | nop (t : Tok)
  | halt (t : Tok)
  | pwrDecl (t : Tok) (d : Sreg) (len : BitVec 14) (onset : BitVec 14) (int : BitVec 4)
  | pwrAcq (t : Tok) (a : Sreg)
  | pwrRel (t : Tok) (a : Sreg)
  | specBegin (t : Tok) (hc : Hreg) (hg : Hreg) (wm1 : BitVec 3) (off : BitVec 28)
  | specGo (t : Tok)
  | specCommit (t : Tok)
  | specAbort (t : Tok)
  | tlbi (t : Tok) (a : Sreg) (b : Sreg) (scope : BitVec 2)
  | vadd (t : Tok) (hd : Hreg) (ha : Hreg) (hb : Hreg) (ty : VTy) (rp : Rep)
  | vsub (t : Tok) (hd : Hreg) (ha : Hreg) (hb : Hreg) (ty : VTy) (rp : Rep)
  | vmul (t : Tok) (hd : Hreg) (ha : Hreg) (hb : Hreg) (ty : VTy) (rp : Rep)
  | vfma (t : Tok) (hd : Hreg) (ha : Hreg) (hb : Hreg) (ty : VTy) (rp : Rep)
  | vdiv (t : Tok) (hd : Hreg) (ha : Hreg) (hb : Hreg) (ty : VTy) (rp : Rep)
  | vmin (t : Tok) (hd : Hreg) (ha : Hreg) (hb : Hreg) (ty : VTy) (rp : Rep)
  | vmax (t : Tok) (hd : Hreg) (ha : Hreg) (hb : Hreg) (ty : VTy) (rp : Rep)
  | vabs (t : Tok) (hd : Hreg) (ha : Hreg) (ty : VTy) (rp : Rep)
  | vneg (t : Tok) (hd : Hreg) (ha : Hreg) (ty : VTy) (rp : Rep)
  | vand (t : Tok) (hd : Hreg) (ha : Hreg) (hb : Hreg) (ty : VTy) (rp : Rep)
  | vor (t : Tok) (hd : Hreg) (ha : Hreg) (hb : Hreg) (ty : VTy) (rp : Rep)
  | vxor (t : Tok) (hd : Hreg) (ha : Hreg) (hb : Hreg) (ty : VTy) (rp : Rep)
  | vshl (t : Tok) (hd : Hreg) (ha : Hreg) (hb : Hreg) (ty : VTy) (rp : Rep)
  | vshr (t : Tok) (hd : Hreg) (ha : Hreg) (hb : Hreg) (ty : VTy) (rp : Rep)
  | vsra (t : Tok) (hd : Hreg) (ha : Hreg) (hb : Hreg) (ty : VTy) (rp : Rep)
  | vcmp (t : Tok) (un : Bool) (cond : Cond) (ha : Hreg) (hb : Hreg) (ty : VTy) (rp : Rep)
  | vsel (t : Tok) (hd : Hreg) (ha : Hreg) (hb : Hreg) (ty : VTy) (rp : Rep)
  | vmov (t : Tok) (hd : Hreg) (ha : Hreg) (ty : VTy) (rp : Rep)
  | vcvt (t : Tok) (hd : Hreg) (ha : Hreg) (sat : Bool) (mode : RMode) (ty : VTy) (rp : Rep)
  | vqnt (t : Tok) (hd : Hreg) (ha : Hreg) (hb : Hreg) (ty : VTy) (rp : Rep)
  | vdqnt (t : Tok) (hd : Hreg) (ha : Hreg) (hb : Hreg) (ty : VTy) (rp : Rep)
  | vlog2 (t : Tok) (hd : Hreg) (ha : Hreg) (ty : VTy) (rp : Rep)
  | vexp2 (t : Tok) (hd : Hreg) (ha : Hreg) (ty : VTy) (rp : Rep)
  | vrcp (t : Tok) (hd : Hreg) (ha : Hreg) (ty : VTy) (rp : Rep)
  | vrsq (t : Tok) (hd : Hreg) (ha : Hreg) (ty : VTy) (rp : Rep)
  | vsqrt (t : Tok) (hd : Hreg) (ha : Hreg) (ty : VTy) (rp : Rep)
  | vtanh (t : Tok) (hd : Hreg) (ha : Hreg) (ty : VTy) (rp : Rep)
  | vclass (t : Tok) (ha : Hreg) (set : BitVec 5) (ty : VTy) (rp : Rep)
  | vredSum (t : Tok) (ha : Hreg) (ty : VTy) (rp : Rep)
  | vredMax (t : Tok) (hd : Hreg) (ha : Hreg) (ty : VTy) (rp : Rep)
  | vredMin (t : Tok) (hd : Hreg) (ha : Hreg) (ty : VTy) (rp : Rep)
  | vredMaxi (t : Tok) (hd : Hreg) (rp : Rep)
  | vxrd (t : Tok) (hd : Hreg) (ty : VTy) (rp : Rep)
  | vscan (t : Tok) (hd : Hreg) (ha : Hreg) (ty : VTy) (rp : Rep)
  | vperm (t : Tok) (hd : Hreg) (ha : Hreg) (hb : Hreg) (ty : VTy) (rp : Rep)
  | vbcast (t : Tok) (hd : Hreg) (a : Sreg) (ty : VTy) (rp : Rep)
  | viota (t : Tok) (hd : Hreg) (ty : VTy) (rp : Rep)
  | vrng (t : Tok) (hd : Hreg) (ha : Hreg) (hb : Hreg) (rp : Rep)
  | vexpmax (t : Tok) (hd : Hreg) (ha : Hreg) (ty : VTy) (rp : Rep)
  | vmaxi (t : Tok) (ha : Hreg) (rp : Rep)
  | mpush (t : Tok)
  | minv (t : Tok)
  | mpop (t : Tok)
  | mset (t : Tok) (d : Sreg) (fl : Bool) (q : BitVec 2)
  | mget (t : Tok)
  | vskip (t : Tok) (n : BitVec 12)
  | mlease (t : Tok)
  | mrel (t : Tok)
  | mancScan (t : Tok) (ha : Hreg)
  | mancLoad (t : Tok) (ha : Hreg)
  | mancColumn (t : Tok) (g : Gslot) (ha : Hreg) (q : BitVec 6)
  | mclr (t : Tok) (acc : BitVec 1)
  | mma (t : Tok) (acc : BitVec 1) (g : Gslot) (ha : Hreg) (q : BitVec 8) (sm : Sreg) (sn : Sreg) (sk : Sreg)
  | mepi (t : Tok) (acc : BitVec 1) (hd : Hreg) (act : Act) (bias : Option Hreg) (sm : Sreg) (sn : Sreg) (scale : Option Sreg) (clr : Bool)
  | mtopk (t : Tok) (acc : BitVec 1) (hd : Hreg) (emit : Bool) (new : Bool) (k : BitVec 3) (hx : Hreg) (sm : Sreg) (sn : Sreg) (base : Sreg)
  | rdacc (t : Tok) (acc : BitVec 1) (hd : Hreg) (sm : Sreg) (sn : Sreg)
  | mstatTile (t : Tok) (acc : BitVec 1) (hd : Hreg) (which : BitVec 2)
  | mstatRowanc (t : Tok) (hd : Hreg)
  | mstatDesc (t : Tok) (g : Gslot) (hd : Hreg)
  | mstatColanc (t : Tok) (g : Gslot) (hd : Hreg) (q : BitVec 5)
  | relax (t : Tok) (acc : BitVec 1) (g : Gslot) (hr : Hreg) (f : Act) (hz : Hreg) (hu : Hreg) (der : Option Hreg) (cnt : Option Hreg) (warm : Bool)
  | relaxB (t : Tok) (acc : BitVec 1) (hr : Hreg) (hz : Hreg) (hu : Hreg) (hd : Hreg) (cnt : Option Hreg) (g : Gslot) (warm : Bool)
  | rdahr (t : Tok) (hd : Hreg)
  | wrahr (t : Tok) (ha : Hreg)
  | accept (t : Tok) (hc : Hreg) (hg : Hreg) (mode : BitVec 2) (e : Sreg)
  | ldT (t : Tok) (h : Hreg) (a : Sreg) (b : Sreg) (fa : Sreg) (fv : Sreg)
  | ldX (t : Tok) (h : Hreg) (a : Sreg) (b : Sreg) (hx : Hreg) (fa : Sreg) (fv : Sreg)
  | ldGr (t : Tok) (h : Hreg) (a : Sreg) (b : Sreg) (hx : Hreg) (fa : Sreg) (fv : Sreg)
  | ldG (t : Tok) (h : Hreg) (a : Sreg) (b : Sreg) (e : Sreg) (fa : Sreg) (fv : Sreg) (g : Gslot)
  | ldGt (t : Tok) (h : Hreg) (a : Sreg) (b : Sreg) (e : Sreg) (fa : Sreg) (fv : Sreg) (g : Gslot)
  | ldSp (t : Tok) (h : Hreg) (a : Sreg) (fa : Sreg) (fv : Sreg)
  | ldNet (t : Tok) (h : Hreg) (a : Sreg) (b : Sreg) (e : Sreg) (fa : Sreg) (fv : Sreg)
  | pref (t : Tok) (a : Sreg) (b : Sreg)
  | linkRecv (t : Tok) (h : Hreg) (a : Sreg) (b : Sreg) (fa : Sreg) (fv : Sreg)
  | stT (t : Tok) (h : Hreg) (a : Sreg) (b : Sreg) (fa : Sreg) (fv : Sreg)
  | stPart (t : Tok) (h : Hreg) (a : Sreg) (b : Sreg) (fa : Sreg) (fv : Sreg)
  | stX (t : Tok) (h : Hreg) (a : Sreg) (b : Sreg) (hx : Hreg) (fa : Sreg) (fv : Sreg)
  | stApp (t : Tok) (h : Hreg) (a : Sreg) (fa : Sreg) (fv : Sreg)
  | stAppQuery (t : Tok) (a : Sreg) (d : Sreg)
  | stRmt (t : Tok) (h : Hreg) (a : Sreg) (e : Sreg) (fa : Sreg) (fv : Sreg)
  | stMc (t : Tok) (h : Hreg) (a : Sreg) (b : Sreg) (e : Sreg) (fa : Sreg) (fv : Sreg) (die : BitVec 2)
  | stNet (t : Tok) (h : Hreg) (a : Sreg) (b : Sreg) (e : Sreg) (fa : Sreg) (fv : Sreg)
  | linkSend (t : Tok) (h : Hreg) (a : Sreg) (b : Sreg) (fa : Sreg) (fv : Sreg)
  | linkRed (t : Tok) (h : Hreg) (a : Sreg) (b : Sreg) (fa : Sreg) (fv : Sreg) (rq : Bool) (inn : Bool)
  | migr (t : Tok) (a : Sreg) (b : Sreg) (fa : Sreg) (fv : Sreg)
  | badd (t : Tok) (a : Sreg) (b : Sreg) (fa : Sreg) (fv : Sreg) (ty : BTy)
  | baddStream (t : Tok) (h : Hreg) (a : Sreg) (fa : Sreg) (fv : Sreg) (ty : BTy)
  | band (t : Tok) (a : Sreg) (b : Sreg) (fa : Sreg) (fv : Sreg) (ty : BTy)
  | bandStream (t : Tok) (h : Hreg) (a : Sreg) (fa : Sreg) (fv : Sreg) (ty : BTy)
  | bor (t : Tok) (a : Sreg) (b : Sreg) (fa : Sreg) (fv : Sreg) (ty : BTy)
  | borStream (t : Tok) (h : Hreg) (a : Sreg) (fa : Sreg) (fv : Sreg) (ty : BTy)
  | bxor (t : Tok) (a : Sreg) (b : Sreg) (fa : Sreg) (fv : Sreg) (ty : BTy)
  | bxorStream (t : Tok) (h : Hreg) (a : Sreg) (fa : Sreg) (fv : Sreg) (ty : BTy)
  | bmin (t : Tok) (a : Sreg) (b : Sreg) (fa : Sreg) (fv : Sreg) (ty : BTy)
  | bminStream (t : Tok) (h : Hreg) (a : Sreg) (fa : Sreg) (fv : Sreg) (ty : BTy)
  | bmax (t : Tok) (a : Sreg) (b : Sreg) (fa : Sreg) (fv : Sreg) (ty : BTy)
  | bmaxStream (t : Tok) (h : Hreg) (a : Sreg) (fa : Sreg) (fv : Sreg) (ty : BTy)
  | bminn (t : Tok) (a : Sreg) (b : Sreg) (fa : Sreg) (fv : Sreg) (ty : BTy)
  | bminnStream (t : Tok) (h : Hreg) (a : Sreg) (fa : Sreg) (fv : Sreg) (ty : BTy)
  | bmaxn (t : Tok) (a : Sreg) (b : Sreg) (fa : Sreg) (fv : Sreg) (ty : BTy)
  | bmaxnStream (t : Tok) (h : Hreg) (a : Sreg) (fa : Sreg) (fv : Sreg) (ty : BTy)
  | bfmin (t : Tok) (a : Sreg) (b : Sreg) (fa : Sreg) (fv : Sreg)
  | bfminStream (t : Tok) (h : Hreg) (a : Sreg) (fa : Sreg) (fv : Sreg)
  | bfmax (t : Tok) (a : Sreg) (b : Sreg) (fa : Sreg) (fv : Sreg)
  | bfmaxStream (t : Tok) (h : Hreg) (a : Sreg) (fa : Sreg) (fv : Sreg)
  | bmaxi (t : Tok) (a : Sreg) (b : Sreg) (fa : Sreg) (fv : Sreg)
  | bmaxiStream (t : Tok) (h : Hreg) (a : Sreg) (b : Sreg) (fa : Sreg) (fv : Sreg)
  | bxadd (t : Tok) (a : Sreg) (b : Sreg) (fa : Sreg) (fv : Sreg)
  | bxaddStream (t : Tok) (h : Hreg) (a : Sreg) (fa : Sreg) (fv : Sreg)
  | bxrd (t : Tok) (a : Sreg) (e : Sreg) (fa : Sreg) (fv : Sreg) (clr : Bool)
  | bxrdStream (t : Tok) (h : Hreg) (a : Sreg) (fa : Sreg) (fv : Sreg) (clr : Bool)
  | bfaa (t : Tok) (a : Sreg) (b : Sreg) (e : Sreg) (fa : Sreg) (fv : Sreg) (ty : BTy)
  | bfaaStream (t : Tok) (h : Hreg) (a : Sreg) (fa : Sreg) (fv : Sreg) (ty : BTy)
  | bcas (t : Tok) (a : Sreg) (b : Sreg) (e : Sreg) (fa : Sreg) (fv : Sreg) (ty : BTy)
  | bld (t : Tok) (a : Sreg) (e : Sreg) (fa : Sreg) (fv : Sreg) (ty : BTy)
  | bldStream (t : Tok) (h : Hreg) (a : Sreg) (fa : Sreg) (fv : Sreg) (ty : BTy)
  | bst (t : Tok) (a : Sreg) (b : Sreg) (fa : Sreg) (fv : Sreg) (ty : BTy)
  | bstStream (t : Tok) (h : Hreg) (a : Sreg) (fa : Sreg) (fv : Sreg) (ty : BTy)
  | bhist (t : Tok) (a : Sreg) (b : Sreg) (fa : Sreg) (fv : Sreg)
  | bhistStream (t : Tok) (h : Hreg) (a : Sreg) (b : Sreg) (fa : Sreg) (fv : Sreg) (sh : BitVec 5)
  | bpfx (t : Tok) (a : Sreg) (b : Sreg) (e : Sreg) (fa : Sreg) (fv : Sreg)
  | baxpy (t : Tok) (a : Sreg) (b : Sreg) (e : Sreg) (fa : Sreg) (fv : Sreg) (ty : BTy)
  | baxpyStream (t : Tok) (h : Hreg) (a : Sreg) (e : Sreg) (fa : Sreg) (fv : Sreg) (ty : BTy)
  -- events that the package comes to by itself
  | waitaWake (c : Nat)
  | decodeFault (c : Nat)
  | instrComplete (c : Nat) (e : Eng)
  | signalLatchDrain (c : Nat) (dir : Dir)
  | leaseGrant (k : Nat)
  | bankPerform (bank : Nat)
  | remoteDeliver (src : Nat) (dst : Nat)
  | dispatch (p : Nat)
  | countRead (p : Nat) (q : Nat)
  | unitEnd (c : Nat)
  | phaseClosing (p : Nat)
  | phaseClose (p : Nat)
  | clusterWake (k : Nat)
  | slotBoundary (die : Nat)
  | declAdmit (c : Nat)
  | declActivate (c : Nat)
  | declLapse (c : Nat) (serial : Nat)
  | undeclThrottleEnd (k : Nat)
  | sagHoldEnd (die : Nat)
  | collOffer (c : Nat) (serial : Nat)
  | collMissing (c : Nat) (serial : Nat)
  | packageReset
  | linkSlotBoundary
  -- the other events
  | relaxIteration (c : Nat)
  | tableWalk (c : Nat) (va : W64)
  | load (c : Nat) (e : Eng)
  | land (c : Nat) (e : Eng)
  | copyComplete (c : Nat) (e : Eng)
  | bankSend (c : Nat)
  | tlbiMark (c : Nat) (e : Eng)
  | migrMove (c : Nat)
  | coreStop (c : Nat) (x : Stop)
  | pkRelease (p : Nat) (seq : Nat)
  | pkFail (p : Nat) (seq : Nat)
  | preemptAbort (c : Nat)
  | partitionSwap (p : Nat)
  | swapContext (p : Nat) (tenant : Nat)
  | jobStart (p : Nat) (job : W64)
  | phaseAdv (p : Nat)
  | registerWrite (r : RegTarget) (v : W64)
  | enrLoRead (c : Nat) (d : Sreg)
  | clusterGate (k : Nat)
  | sagEvent (die : Nat)
  | thermalRead (readings : List Nat)
  | energyUpdate (uj : Nat)
  | collRecord (x : CollHop) (port : Nat)
  | report (m : MbInst)
  | meas (m : MbInst)
  | ident (m : MbInst)
  | rwrite (m : MbInst)
  | rboot (m : MbInst)
  | smbSetPointer (v : BitVec 16)
  | smbBlockWrite (bs : List Byte)
  | smbBlockRead (n : Nat)
  | smbCommand (v : BitVec 32)
  | smbStatus
  | dmaWrite (port : Nat) (rid : BitVec 16) (va : W64) (bs : List Byte)
  | dmaRead (port : Nat) (rid : BitVec 16) (va : W64) (n : Nat)
  | cardDeliver (port : Nat) (rid : BitVec 16) (desc : W64) (tag : BitVec 32) (bs : List Byte)
  | portTransmit (port : Nat) (rid : BitVec 16) (desc : W64)
  | hqStage (q : Nat) (off : Nat) (bs : List Byte)
  | hqPost (q : Nat) (v : W64)
  | hqTxc (q : Nat)
  | acLoad (ac : Nat) (va : W64) (n : Nat)
  | acStore (ac : Nat) (va : W64) (bs : List Byte)
  | acTlbi (ac : Nat)
  | bpBadd (ac : Nat) (ty : BitVec 2)
  | bpBand (ac : Nat) (ty : BitVec 2)
  | bpBor (ac : Nat) (ty : BitVec 2)
  | bpBxor (ac : Nat) (ty : BitVec 2)
  | bpBmin (ac : Nat) (ty : BitVec 2)
  | bpBmax (ac : Nat) (ty : BitVec 2)
  | bpBminn (ac : Nat) (ty : BitVec 2)
  | bpBmaxn (ac : Nat) (ty : BitVec 2)
  | bpBfmin (ac : Nat) (ty : BitVec 2)
  | bpBfmax (ac : Nat) (ty : BitVec 2)
  | bpBmaxi (ac : Nat) (ty : BitVec 2)
  | bpBxadd (ac : Nat) (ty : BitVec 2)
  | bpBxrd (ac : Nat) (ty : BitVec 2) (clr : Bool)
  | bpBfaa (ac : Nat) (ty : BitVec 2)
  | bpBcas (ac : Nat) (ty : BitVec 2)
  | bpBld (ac : Nat) (ty : BitVec 2)
  | bpBst (ac : Nat) (ty : BitVec 2)
  | bpBhist (ac : Nat) (ty : BitVec 2)
  | bpBpfx (ac : Nat) (ty : BitVec 2)
  | bpBaxpy (ac : Nat) (ty : BitVec 2)
  | lpLaunch (ac : Nat)
  | caRead (ac : Nat)
  | caWrite (ac : Nat)
  | srRead (ac : Nat)
  | srWrite (ac : Nat)
  | linkSendSlot (c : Nat)
  | linkHop (x : LinkXfer) (port : Nat)
  | linkArrive (x : LinkXfer) (port : Nat)
  | linkRedCombine (c : Nat)
  | scrub (w : ProtWord)
  | storedBitFailure (w : ProtWord) (correctable : Bool)
  | partitionCreation (p : Nat) (k : Nat) (dbg : Bool)
  | coreReset (c : Nat)
  deriving DecidableEq, Repr

end Sys2Proof
end

