-- ==== Sys2Proof/WellFormed.lean ====
section
/-!
DEFINITION. Sys2Proof/WellFormed.lean: which field values an instruction's entry assigns (R60); every other value is an
encoding that decoding refuses. Register fields, slots and small codes are well formed by their types.
-/

namespace Sys2Proof

/-- F32, F16 and B16 are the floating computation types (R52). -/
def VTy.isFloat : VTy → Bool
  | .f32 => true | .f16 => true | .b16 => true | _ => false

/-- The signed integer computation types (R52). -/
def VTy.isSigned : VTy → Bool
  | .i32 => true | .i16 => true | .i8 => true | _ => false

/-- Codes 0110 to 1011, which a floating VCMP refuses (R54). -/
def Cond.isIntOnly : Cond → Bool
  | .ltn => true | .len => true | .gtn => true | .gen => true | .any => true | .all => true | _ => false

/-- Rows of the table that are events and have no encoding. -/
def Instr.isEvent : Instr → Bool
  | .waitaWake _ => true
  | .relaxIteration _ => true
  | .decodeFault _ => true
  | .instrComplete _ _ => true
  | .signalLatchDrain _ _ => true
  | .leaseGrant _ => true
  | .tableWalk _ _ => true
  | .load _ _ => true
  | .land _ _ => true
  | .copyComplete _ _ => true
  | .bankSend _ => true
  | .bankPerform _ => true
  | .remoteDeliver _ _ => true
  | .tlbiMark _ _ => true
  | .migrMove _ => true
  | .coreStop _ _ => true
  | .pkRelease _ _ => true
  | .pkFail _ _ => true
  | .preemptAbort _ => true
  | .partitionSwap _ => true
  | .swapContext _ _ => true
  | .dispatch _ => true
  | .countRead _ _ => true
  | .unitEnd _ => true
  | .phaseClosing _ => true
  | .phaseClose _ => true
  | .jobStart _ _ => true
  | .phaseAdv _ => true
  | .registerWrite _ _ => true
  | .enrLoRead _ _ => true
  | .clusterGate _ => true
  | .clusterWake _ => true
  | .slotBoundary _ => true
  | .declAdmit _ => true
  | .declActivate _ => true
  | .declLapse _ _ => true
  | .undeclThrottleEnd _ => true
  | .sagEvent _ => true
  | .sagHoldEnd _ => true
  | .thermalRead _ => true
  | .energyUpdate _ => true
  | .collOffer _ _ => true
  | .collMissing _ _ => true
  | .collRecord _ _ => true
  | .packageReset => true
  | .report _ => true
  | .meas _ => true
  | .ident _ => true
  | .rwrite _ => true
  | .rboot _ => true
  | .smbSetPointer _ => true
  | .smbBlockWrite _ => true
  | .smbBlockRead _ => true
  | .smbCommand _ => true
  | .smbStatus => true
  | .dmaWrite _ _ _ _ => true
  | .dmaRead _ _ _ _ => true
  | .cardDeliver _ _ _ _ _ => true
  | .portTransmit _ _ _ => true
  | .hqStage _ _ _ => true
  | .hqPost _ _ => true
  | .hqTxc _ => true
  | .acLoad _ _ _ => true
  | .acStore _ _ _ => true
  | .acTlbi _ => true
  | .bpBadd _ _ => true
  | .bpBand _ _ => true
  | .bpBor _ _ => true
  | .bpBxor _ _ => true
  | .bpBmin _ _ => true
  | .bpBmax _ _ => true
  | .bpBminn _ _ => true
  | .bpBmaxn _ _ => true
  | .bpBfmin _ _ => true
  | .bpBfmax _ _ => true
  | .bpBmaxi _ _ => true
  | .bpBxadd _ _ => true
  | .bpBxrd _ _ _ => true
  | .bpBfaa _ _ => true
  | .bpBcas _ _ => true
  | .bpBld _ _ => true
  | .bpBst _ _ => true
  | .bpBhist _ _ => true
  | .bpBpfx _ _ => true
  | .bpBaxpy _ _ => true
  | .lpLaunch _ => true
  | .caRead _ => true
  | .caWrite _ => true
  | .srRead _ => true
  | .srWrite _ => true
  | .linkSendSlot _ => true
  | .linkHop _ _ => true
  | .linkArrive _ _ => true
  | .linkRedCombine _ => true
  | .scrub _ => true
  | .linkSlotBoundary => true
  | .storedBitFailure _ _ => true
  | .partitionCreation _ _ _ => true
  | .coreReset _ => true
  | _ => false

/-- Every field holds a value that the instruction's entry assigns (R48, R52 to R55, R60). -/
def Instr.wf : Instr → Bool
  | .loop _ a _ _ => a != 0
  | .hset _ _ _ f => f.toNat <= 24
  | .hget _ _ _ f => f.toNat <= 24
  | .hadv _ _ _ dim => dim.toNat <= 4
  | .cancel _ d _ lvl => lvl == 0 || d == 0
  | .pwrDecl _ _ len _ int => int != 0 && len != 0
  | .specBegin _ _ _ wm1 _ => wm1 != 0
  | .tlbi _ _ _ scope => scope != 3
  | .vdiv _ _ _ _ ty _ => ty.isFloat
  | .vand _ _ _ _ ty _ => !ty.isFloat
  | .vor _ _ _ _ ty _ => !ty.isFloat
  | .vxor _ _ _ _ ty _ => !ty.isFloat
  | .vshl _ _ _ _ ty _ => !ty.isFloat
  | .vshr _ _ _ _ ty _ => !ty.isFloat
  | .vsra _ _ _ _ ty _ => ty.isSigned
  | .vcmp _ un cond _ _ ty _ => if ty.isFloat then !cond.isIntOnly else !un
  | .vqnt _ _ _ _ ty _ => ty.isFloat
  | .vdqnt _ _ _ _ ty _ => ty.isFloat
  | .vlog2 _ _ _ ty _ => ty.isFloat
  | .vexp2 _ _ _ ty _ => ty.isFloat
  | .vrcp _ _ _ ty _ => ty.isFloat
  | .vrsq _ _ _ ty _ => ty.isFloat
  | .vsqrt _ _ _ ty _ => ty.isFloat
  | .vtanh _ _ _ ty _ => ty.isFloat
  | .vclass _ _ _ ty _ => ty.isFloat
  | .vredMaxi _ _ rp => rp != .xend
  | .vxrd _ _ _ rp => rp != .xend
  | .vbcast _ _ _ _ rp => rp != .xend
  | .viota _ _ _ rp => rp != .xend
  | .vexpmax _ _ _ ty _ => ty.isFloat
  | .mset _ _ fl q => !fl || q == 0
  | .vskip _ n => n != 0
  | .mstatTile _ _ _ which => which != 3
  | .relax _ _ _ _ f _ _ _ _ _ => f != .relu
  | .accept _ _ _ mode e => mode != 3 && (mode == 2 || e == 0)
  | .badd _ _ _ _ _ ty => ty != .f
  | .baddStream _ _ _ _ _ ty => ty != .f
  | .band _ _ _ _ _ ty => ty != .f
  | .bandStream _ _ _ _ _ ty => ty != .f
  | .bor _ _ _ _ _ ty => ty != .f
  | .borStream _ _ _ _ _ ty => ty != .f
  | .bxor _ _ _ _ _ ty => ty != .f
  | .bxorStream _ _ _ _ _ ty => ty != .f
  | .bmin _ _ _ _ _ ty => ty != .f
  | .bminStream _ _ _ _ _ ty => ty != .f
  | .bmax _ _ _ _ _ ty => ty != .f
  | .bmaxStream _ _ _ _ _ ty => ty != .f
  | .bminn _ _ _ _ _ ty => ty != .f
  | .bminnStream _ _ _ _ _ ty => ty != .f
  | .bmaxn _ _ _ _ _ ty => ty != .f
  | .bmaxnStream _ _ _ _ _ ty => ty != .f
  | .bfaa _ _ _ _ _ _ ty => ty != .f
  | .bfaaStream _ _ _ _ _ ty => ty != .f
  | .bcas _ _ _ _ _ _ ty => ty != .f
  | .bld _ _ _ _ _ ty => ty != .f
  | .bldStream _ _ _ _ _ ty => ty != .f
  | .bst _ _ _ _ _ ty => ty != .f
  | .bstStream _ _ _ _ _ ty => ty != .f
  | .baxpy _ _ _ _ _ _ ty => ty != .f
  | .baxpyStream _ _ _ _ _ _ ty => ty != .f
  | _ => true

end Sys2Proof
end

