-- ==== Sys2Proof/Decode.lean ====
section
/-!
DEFINITION. Sys2Proof/Decode.lean: instruction words (R44 to R63). An instruction's words are written by `encode` from
the formats of R47 and R50 and the opcode map of R56 to R59; `decode` reads the fields of the format that Q and OP select
and accepts a word only when every field holds an assigned value and every reserved bit is 0 (R48, R60), that is, when
the words of the instruction read are the words given.
-/

namespace Sys2Proof

/-- One bit. -/
def bit (b : Bool) : BitVec 1 := BitVec.ofBool b
/-- The field of n bits that begins at bit lo. -/
def fld {w : Nat} (lo n : Nat) (x : BitVec w) : BitVec n := x.extractLsb' lo n
/-- A field that is present when its flag bit is 1. -/
def opt {n : Nat} (f : BitVec 1) (v : BitVec n) : Option (BitVec n) := if f = 1 then some v else none
/-- No token bit. -/
def default4 : Tok := ⟨false, false, false, false⟩

/-- ty codes (R52). -/
def VTy.bits : VTy → BitVec 3
  | .f32 => 0 | .f16 => 1 | .b16 => 2 | .i32 => 3 | .i16 => 4 | .i8 => 5 | .n32 => 6 | .n8 => 7
/-- ty codes (R52). -/
def VTy.ofBits (b : BitVec 3) : VTy :=
  match b.toNat with
  | 0 => .f32 | 1 => .f16 | 2 => .b16 | 3 => .i32 | 4 => .i16 | 5 => .i8 | 6 => .n32 | _ => .n8
/-- rp codes (R53). -/
def Rep.bits : Rep → BitVec 2
  | .x1 => 0 | .x4 => 1 | .x16 => 2 | .xend => 3
/-- rp codes (R53). -/
def Rep.ofBits (b : BitVec 2) : Rep :=
  match b.toNat with
  | 0 => .x1 | 1 => .x4 | 2 => .x16 | _ => .xend
/-- Condition codes (R54). -/
def Cond.bits : Cond → BitVec 4
  | .eq => 0 | .ne => 1 | .lt => 2 | .le => 3 | .gt => 4 | .ge => 5 | .ltn => 6 | .len => 7
  | .gtn => 8 | .gen => 9 | .any => 10 | .all => 11
/-- Condition codes (R54); a reserved code reads as `all`, whose own code differs, so `decode` refuses it. -/
def Cond.ofBits (b : BitVec 4) : Cond :=
  match b.toNat with
  | 0 => .eq | 1 => .ne | 2 => .lt | 3 => .le | 4 => .gt | 5 => .ge | 6 => .ltn | 7 => .len
  | 8 => .gtn | 9 => .gen | 10 => .any | _ => .all
/-- Rounding mode codes (R55). -/
def RMode.bits : RMode → BitVec 3
  | .rne => 0 | .rtz => 1 | .rdn => 2 | .rup => 3 | .rna => 4
/-- Rounding mode codes (R55); a reserved code is refused by `decode`. -/
def RMode.ofBits (b : BitVec 3) : RMode :=
  match b.toNat with
  | 0 => .rne | 1 => .rtz | 2 => .rdn | 3 => .rup | _ => .rna
/-- Bank operand type codes (R293). -/
def BTy.bits : BTy → BitVec 2
  | .d => 0 | .w => 1 | .f => 2
/-- Bank operand type codes (R293); code 3 is refused by `decode`. -/
def BTy.ofBits (b : BitVec 2) : BTy :=
  match b.toNat with
  | 0 => .d | 1 => .w | _ => .f
/-- ACT codes (R215). -/
def Act.bits : Act → BitVec 3
  | .identity => 0 | .relu => 1 | .tanh => 2 | .clamp => 3 | .reluclamp => 4
/-- ACT codes (R215); codes 5 to 7 are refused by `decode`. -/
def Act.ofBits (b : BitVec 3) : Act :=
  match b.toNat with
  | 0 => .identity | 1 => .relu | 2 => .tanh | 3 => .clamp | _ => .reluclamp


/-- The body of the first word, as the format of (Q, OP) lays it out (R47). -/
def encBody : Instr → BitVec 20
  | .add _ d a b => d ++ a ++ b ++ 0#2
  | .sub _ d a b => d ++ a ++ b ++ 1#2
  | .and _ d a b => d ++ a ++ b ++ 2#2
  | .or _ d a b => d ++ a ++ b ++ 3#2
  | .xor _ d a b => d ++ a ++ b ++ 0#2
  | .shl _ d a b => d ++ a ++ b ++ 1#2
  | .shr _ d a b => d ++ a ++ b ++ 2#2
  | .sra _ d a b => d ++ a ++ b ++ 3#2
  | .slt _ d a b => d ++ a ++ b ++ 0#2
  | .sltn _ d a b => d ++ a ++ b ++ 1#2
  | .seq _ d a b => d ++ a ++ b ++ 2#2
  | .sel _ d a b => d ++ a ++ b ++ 3#2
  | .min _ d a b => d ++ a ++ b ++ 0#2
  | .max _ d a b => d ++ a ++ b ++ 1#2
  | .minn _ d a b => d ++ a ++ b ++ 2#2
  | .maxn _ d a b => d ++ a ++ b ++ 3#2
  | .mul _ d a b => d ++ a ++ b ++ 0#2
  | .mulh _ d a b => d ++ a ++ b ++ 1#2
  | .mulhn _ d a b => d ++ a ++ b ++ 2#2
  | .div _ d a b => d ++ a ++ b ++ 0#2
  | .divn _ d a b => d ++ a ++ b ++ 1#2
  | .rem _ d a b => d ++ a ++ b ++ 2#2
  | .remn _ d a b => d ++ a ++ b ++ 3#2
  | .clz _ d a => d ++ a ++ 0#6 ++ 0#2
  | .ctz _ d a => d ++ a ++ 0#6 ++ 1#2
  | .popc _ d a => d ++ a ++ 0#6 ++ 2#2
  | .addi _ d a imm => d ++ a ++ imm
  | .andi _ d a imm => d ++ a ++ imm
  | .ori _ d a imm => d ++ a ++ imm
  | .xori _ d a imm => d ++ a ++ imm
  | .shli _ d a imm => d ++ a ++ 0#2 ++ imm
  | .shri _ d a imm => d ++ a ++ 0#2 ++ imm
  | .srai _ d a imm => d ++ a ++ 0#2 ++ imm
  | .slti _ d a imm => d ++ a ++ imm
  | .movi _ d hi _ => d ++ hi
  | .movhi _ d hi _ => d ++ hi
  | .j _ off => off
  | .jl _ off => off
  | .jr _ a => 0#6 ++ a ++ 0#8
  | .bz _ a off => a ++ 0#1 ++ off
  | .bnz _ a off => a ++ 0#1 ++ off
  | .bltz _ a off => a ++ 0#1 ++ off
  | .bgez _ a off => a ++ 0#1 ++ off
  | .loop _ a rot off => a ++ (bit rot) ++ off
  | .spill _ d slot => d ++ 0#5 ++ slot
  | .fill _ d slot => d ++ 0#5 ++ slot
  | .lds _ d a imm => d ++ a ++ imm
  | .sts _ d a imm => d ++ a ++ imm
  | .hset _ hd s f => hd ++ s ++ 0#4 ++ f
  | .hget _ hd s f => hd ++ s ++ 0#4 ++ f
  | .hmov _ hd ha => hd ++ ha ++ 0#10
  | .hld _ hd s off => hd ++ s ++ 0#1 ++ off
  | .hldSpill _ hd slot4 => hd ++ 0#6 ++ 1#1 ++ 0#1 ++ slot4
  | .hst _ hd s off => hd ++ s ++ 0#1 ++ off
  | .hstSpill _ hd slot4 => hd ++ 0#6 ++ 1#1 ++ 0#1 ++ slot4
  | .hadv _ hd s dim => hd ++ s ++ 0#6 ++ dim
  | .movsr _ d n => d ++ n
  | .movrs _ d n => d ++ n
  | .region _ n => 0#6 ++ 0#13 ++ (bit n)
  | .waita _ d a _ _ _ => d ++ a ++ 0#8
  | .poll _ d => d ++ 0#14
  | .abort _ lvl => 0#6 ++ 0#12 ++ lvl
  | .phase _ d => d ++ 0#14
  | .done _ => 0#20
  | .launch _ d a => d ++ a ++ 0#8
  | .cancel _ d a lvl => d ++ a ++ 0#6 ++ lvl
  | .trap _ n => 0#6 ++ n
  | .brk _ => 0#20
  | .eret _ => 0#20
  | .nop _ => 0#20
  | .halt _ => 0#20
  | .pwrDecl _ d len _ _ => d ++ len
  | .pwrAcq _ a => 0#6 ++ a ++ 0#8
  | .pwrRel _ a => 0#6 ++ a ++ 0#8
  | .specBegin _ hc hg wm1 _ => hc ++ hg ++ wm1 ++ 0#7
  | .specGo _ => 0#20
  | .specCommit _ => 0#20
  | .specAbort _ => 0#20
  | .tlbi _ a b scope => 0#6 ++ a ++ b ++ scope
  | .vadd _ hd ha hb ty rp => hd ++ ha ++ hb ++ ty.bits ++ rp.bits
  | .vsub _ hd ha hb ty rp => hd ++ ha ++ hb ++ ty.bits ++ rp.bits
  | .vmul _ hd ha hb ty rp => hd ++ ha ++ hb ++ ty.bits ++ rp.bits
  | .vfma _ hd ha hb ty rp => hd ++ ha ++ hb ++ ty.bits ++ rp.bits
  | .vdiv _ hd ha hb ty rp => hd ++ ha ++ hb ++ ty.bits ++ rp.bits
  | .vmin _ hd ha hb ty rp => hd ++ ha ++ hb ++ ty.bits ++ rp.bits
  | .vmax _ hd ha hb ty rp => hd ++ ha ++ hb ++ ty.bits ++ rp.bits
  | .vabs _ hd ha ty rp => hd ++ ha ++ 0#5 ++ ty.bits ++ rp.bits
  | .vneg _ hd ha ty rp => hd ++ ha ++ 0#5 ++ ty.bits ++ rp.bits
  | .vand _ hd ha hb ty rp => hd ++ ha ++ hb ++ ty.bits ++ rp.bits
  | .vor _ hd ha hb ty rp => hd ++ ha ++ hb ++ ty.bits ++ rp.bits
  | .vxor _ hd ha hb ty rp => hd ++ ha ++ hb ++ ty.bits ++ rp.bits
  | .vshl _ hd ha hb ty rp => hd ++ ha ++ hb ++ ty.bits ++ rp.bits
  | .vshr _ hd ha hb ty rp => hd ++ ha ++ hb ++ ty.bits ++ rp.bits
  | .vsra _ hd ha hb ty rp => hd ++ ha ++ hb ++ ty.bits ++ rp.bits
  | .vcmp _ un cond ha hb ty rp => (bit un) ++ cond.bits ++ ha ++ hb ++ ty.bits ++ rp.bits
  | .vsel _ hd ha hb ty rp => hd ++ ha ++ hb ++ ty.bits ++ rp.bits
  | .vmov _ hd ha ty rp => hd ++ ha ++ 0#5 ++ ty.bits ++ rp.bits
  | .vcvt _ hd ha sat mode ty rp => hd ++ ha ++ 0#1 ++ (bit sat) ++ mode.bits ++ ty.bits ++ rp.bits
  | .vqnt _ hd ha hb ty rp => hd ++ ha ++ hb ++ ty.bits ++ rp.bits
  | .vdqnt _ hd ha hb ty rp => hd ++ ha ++ hb ++ ty.bits ++ rp.bits
  | .vlog2 _ hd ha ty rp => hd ++ ha ++ 0#5 ++ ty.bits ++ rp.bits
  | .vexp2 _ hd ha ty rp => hd ++ ha ++ 0#5 ++ ty.bits ++ rp.bits
  | .vrcp _ hd ha ty rp => hd ++ ha ++ 0#5 ++ ty.bits ++ rp.bits
  | .vrsq _ hd ha ty rp => hd ++ ha ++ 0#5 ++ ty.bits ++ rp.bits
  | .vsqrt _ hd ha ty rp => hd ++ ha ++ 0#5 ++ ty.bits ++ rp.bits
  | .vtanh _ hd ha ty rp => hd ++ ha ++ 0#5 ++ ty.bits ++ rp.bits
  | .vclass _ ha set ty rp => 0#5 ++ ha ++ set ++ ty.bits ++ rp.bits
  | .vredSum _ ha ty rp => 0#5 ++ ha ++ 0#5 ++ ty.bits ++ rp.bits
  | .vredMax _ hd ha ty rp => hd ++ ha ++ 1#5 ++ ty.bits ++ rp.bits
  | .vredMin _ hd ha ty rp => hd ++ ha ++ 2#5 ++ ty.bits ++ rp.bits
  | .vredMaxi _ hd rp => hd ++ 0#5 ++ 3#5 ++ 6#3 ++ rp.bits
  | .vxrd _ hd ty rp => hd ++ 0#10 ++ ty.bits ++ rp.bits
  | .vscan _ hd ha ty rp => hd ++ ha ++ 0#5 ++ ty.bits ++ rp.bits
  | .vperm _ hd ha hb ty rp => hd ++ ha ++ hb ++ ty.bits ++ rp.bits
  | .vbcast _ hd s ty rp => hd ++ s ++ 0#4 ++ ty.bits ++ rp.bits
  | .viota _ hd ty rp => hd ++ 0#10 ++ ty.bits ++ rp.bits
  | .vrng _ hd ha hb rp => hd ++ ha ++ hb ++ 0#3 ++ rp.bits
  | .vexpmax _ hd ha ty rp => hd ++ ha ++ 0#5 ++ ty.bits ++ rp.bits
  | .vmaxi _ ha rp => 0#5 ++ ha ++ 0#5 ++ 0#3 ++ rp.bits
  | .mpush _ => 0#20
  | .minv _ => 0#20
  | .mpop _ => 0#20
  | .mset _ d fl q => d ++ 0#11 ++ (bit fl) ++ q
  | .mget _ => 0#20
  | .vskip _ n => 0#6 ++ 0#2 ++ n
  | .mlease _ => 0#20
  | .mrel _ => 0#20
  | .mancScan _ ha => 0#7 ++ ha ++ 0#6 ++ 0#2
  | .mancLoad _ ha => 0#7 ++ ha ++ 0#6 ++ 1#2
  | .mancColumn _ g ha q => 0#1 ++ g ++ ha ++ q ++ 2#2
  | .mclr _ acc => acc ++ 0#19
  | .mma _ acc g ha q _ _ _ => acc ++ g ++ ha ++ q
  | .mepi _ acc hd act bias _ _ scale _ => acc ++ 0#6 ++ hd ++ 0#3 ++ (bit scale.isSome) ++ (bit bias.isSome) ++ act.bits
  | .mtopk _ acc hd emit new k _ _ _ _ => acc ++ 0#6 ++ hd ++ 0#3 ++ (bit emit) ++ (bit new) ++ k
  | .rdacc _ acc hd _ _ => acc ++ 0#6 ++ hd ++ 0#8
  | .mstatTile _ acc hd which => acc ++ 0#6 ++ hd ++ 0#5 ++ 0#1 ++ which
  | .mstatRowanc _ hd => 0#7 ++ hd ++ 0#5 ++ 3#3
  | .mstatDesc _ g hd => 0#1 ++ g ++ hd ++ 0#5 ++ 4#3
  | .mstatColanc _ g hd q => 0#1 ++ g ++ hd ++ q ++ 5#3
  | .relax _ acc g hr f _ _ der cnt _ => acc ++ g ++ hr ++ 0#3 ++ (bit cnt.isSome) ++ (bit der.isSome) ++ f.bits
  | .relaxB _ acc hr _ _ _ cnt _ _ => acc ++ 0#6 ++ hr ++ 0#3 ++ (bit cnt.isSome) ++ 0#4
  | .rdahr _ hd => hd ++ 0#15
  | .wrahr _ ha => 0#5 ++ ha ++ 0#10
  | .accept _ hc hg mode _ => 0#5 ++ hc ++ hg ++ 0#3 ++ mode
  | .ldT _ h a b _ _ => h ++ a ++ b ++ 0#3
  | .ldX _ h a b _ _ _ => h ++ a ++ b ++ 0#3
  | .ldGr _ h a b _ _ _ => h ++ a ++ b ++ 0#3
  | .ldG _ h a b _ _ _ _ => h ++ a ++ b ++ 0#3
  | .ldGt _ h a b _ _ _ _ => h ++ a ++ b ++ 0#3
  | .ldSp _ h a _ _ => h ++ a ++ 0#6 ++ 0#3
  | .ldNet _ h a b _ _ _ => h ++ a ++ b ++ 0#3
  | .pref _ a b => 0#5 ++ a ++ b ++ 0#3
  | .linkRecv _ h a b _ _ => h ++ a ++ b ++ 0#3
  | .stT _ h a b _ _ => h ++ a ++ b ++ 0#3
  | .stPart _ h a b _ _ => h ++ a ++ b ++ 0#3
  | .stX _ h a b _ _ _ => h ++ a ++ b ++ 0#3
  | .stApp _ h a _ _ => h ++ a ++ 0#6 ++ 0#2 ++ 0#1
  | .stAppQuery _ a d => 0#5 ++ a ++ d ++ 0#2 ++ 1#1
  | .stRmt _ h a _ _ _ => h ++ a ++ 0#6 ++ 0#3
  | .stMc _ h a b _ _ _ _ => h ++ a ++ b ++ 0#3
  | .stNet _ h a b _ _ _ => h ++ a ++ b ++ 0#3
  | .linkSend _ h a b _ _ => h ++ a ++ b ++ 0#3
  | .linkRed _ h a b _ _ _ _ => h ++ a ++ b ++ 0#3
  | .migr _ a b _ _ => 0#5 ++ a ++ b ++ 0#3
  | .badd _ a b _ _ _ => 0#5 ++ a ++ b ++ 0#2 ++ 0#1
  | .baddStream _ h a _ _ _ => h ++ a ++ 0#6 ++ 0#2 ++ 1#1
  | .band _ a b _ _ _ => 0#5 ++ a ++ b ++ 0#2 ++ 0#1
  | .bandStream _ h a _ _ _ => h ++ a ++ 0#6 ++ 0#2 ++ 1#1
  | .bor _ a b _ _ _ => 0#5 ++ a ++ b ++ 0#2 ++ 0#1
  | .borStream _ h a _ _ _ => h ++ a ++ 0#6 ++ 0#2 ++ 1#1
  | .bxor _ a b _ _ _ => 0#5 ++ a ++ b ++ 0#2 ++ 0#1
  | .bxorStream _ h a _ _ _ => h ++ a ++ 0#6 ++ 0#2 ++ 1#1
  | .bmin _ a b _ _ _ => 0#5 ++ a ++ b ++ 0#2 ++ 0#1
  | .bminStream _ h a _ _ _ => h ++ a ++ 0#6 ++ 0#2 ++ 1#1
  | .bmax _ a b _ _ _ => 0#5 ++ a ++ b ++ 0#2 ++ 0#1
  | .bmaxStream _ h a _ _ _ => h ++ a ++ 0#6 ++ 0#2 ++ 1#1
  | .bminn _ a b _ _ _ => 0#5 ++ a ++ b ++ 0#2 ++ 0#1
  | .bminnStream _ h a _ _ _ => h ++ a ++ 0#6 ++ 0#2 ++ 1#1
  | .bmaxn _ a b _ _ _ => 0#5 ++ a ++ b ++ 0#2 ++ 0#1
  | .bmaxnStream _ h a _ _ _ => h ++ a ++ 0#6 ++ 0#2 ++ 1#1
  | .bfmin _ a b _ _ => 0#5 ++ a ++ b ++ 0#2 ++ 0#1
  | .bfminStream _ h a _ _ => h ++ a ++ 0#6 ++ 0#2 ++ 1#1
  | .bfmax _ a b _ _ => 0#5 ++ a ++ b ++ 0#2 ++ 0#1
  | .bfmaxStream _ h a _ _ => h ++ a ++ 0#6 ++ 0#2 ++ 1#1
  | .bmaxi _ a b _ _ => 0#5 ++ a ++ b ++ 0#2 ++ 0#1
  | .bmaxiStream _ h a b _ _ => h ++ a ++ b ++ 0#2 ++ 1#1
  | .bxadd _ a b _ _ => 0#5 ++ a ++ b ++ 0#2 ++ 0#1
  | .bxaddStream _ h a _ _ => h ++ a ++ 0#6 ++ 0#2 ++ 1#1
  | .bxrd _ a _ _ _ _ => 0#5 ++ a ++ 0#6 ++ 0#2 ++ 0#1
  | .bxrdStream _ h a _ _ _ => h ++ a ++ 0#6 ++ 0#2 ++ 1#1
  | .bfaa _ a b _ _ _ _ => 0#5 ++ a ++ b ++ 0#2 ++ 0#1
  | .bfaaStream _ h a _ _ _ => h ++ a ++ 0#6 ++ 0#2 ++ 1#1
  | .bcas _ a b _ _ _ _ => 0#5 ++ a ++ b ++ 0#2 ++ 0#1
  | .bld _ a _ _ _ _ => 0#5 ++ a ++ 0#6 ++ 0#2 ++ 0#1
  | .bldStream _ h a _ _ _ => h ++ a ++ 0#6 ++ 0#2 ++ 1#1
  | .bst _ a b _ _ _ => 0#5 ++ a ++ b ++ 0#2 ++ 0#1
  | .bstStream _ h a _ _ _ => h ++ a ++ 0#6 ++ 0#2 ++ 1#1
  | .bhist _ a b _ _ => 0#5 ++ a ++ b ++ 0#2 ++ 0#1
  | .bhistStream _ h a b _ _ _ => h ++ a ++ b ++ 0#2 ++ 1#1
  | .bpfx _ a b _ _ _ => 0#5 ++ a ++ b ++ 0#2 ++ 0#1
  | .baxpy _ a b _ _ _ _ => 0#5 ++ a ++ b ++ 0#2 ++ 0#1
  | .baxpyStream _ h a _ _ _ _ => h ++ a ++ 0#6 ++ 0#2 ++ 1#1
  | _ => 0

/-- Q and OP of an instruction as one number, Q × 64 + OP (R56 to R59). -/
def opOf : Instr → BitVec 8
  | .add _ _ _ _ => 0x00#8
  | .sub _ _ _ _ => 0x00#8
  | .and _ _ _ _ => 0x00#8
  | .or _ _ _ _ => 0x00#8
  | .xor _ _ _ _ => 0x01#8
  | .shl _ _ _ _ => 0x01#8
  | .shr _ _ _ _ => 0x01#8
  | .sra _ _ _ _ => 0x01#8
  | .slt _ _ _ _ => 0x02#8
  | .sltn _ _ _ _ => 0x02#8
  | .seq _ _ _ _ => 0x02#8
  | .sel _ _ _ _ => 0x02#8
  | .min _ _ _ _ => 0x03#8
  | .max _ _ _ _ => 0x03#8
  | .minn _ _ _ _ => 0x03#8
  | .maxn _ _ _ _ => 0x03#8
  | .mul _ _ _ _ => 0x04#8
  | .mulh _ _ _ _ => 0x04#8
  | .mulhn _ _ _ _ => 0x04#8
  | .div _ _ _ _ => 0x05#8
  | .divn _ _ _ _ => 0x05#8
  | .rem _ _ _ _ => 0x05#8
  | .remn _ _ _ _ => 0x05#8
  | .clz _ _ _ => 0x06#8
  | .ctz _ _ _ => 0x06#8
  | .popc _ _ _ => 0x06#8
  | .addi _ _ _ _ => 0x08#8
  | .andi _ _ _ _ => 0x09#8
  | .ori _ _ _ _ => 0x0A#8
  | .xori _ _ _ _ => 0x0B#8
  | .shli _ _ _ _ => 0x0C#8
  | .shri _ _ _ _ => 0x0D#8
  | .srai _ _ _ _ => 0x0E#8
  | .slti _ _ _ _ => 0x0F#8
  | .movi _ _ _ _ => 0x10#8
  | .movhi _ _ _ _ => 0x11#8
  | .j _ _ => 0x12#8
  | .jl _ _ => 0x13#8
  | .jr _ _ => 0x14#8
  | .bz _ _ _ => 0x15#8
  | .bnz _ _ _ => 0x16#8
  | .bltz _ _ _ => 0x17#8
  | .bgez _ _ _ => 0x18#8
  | .loop _ _ _ _ => 0x19#8
  | .spill _ _ _ => 0x1A#8
  | .fill _ _ _ => 0x1B#8
  | .lds _ _ _ _ => 0x1C#8
  | .sts _ _ _ _ => 0x1D#8
  | .hset _ _ _ _ => 0x1E#8
  | .hget _ _ _ _ => 0x1F#8
  | .hmov _ _ _ => 0x20#8
  | .hld _ _ _ _ => 0x21#8
  | .hldSpill _ _ _ => 0x21#8
  | .hst _ _ _ _ => 0x22#8
  | .hstSpill _ _ _ => 0x22#8
  | .hadv _ _ _ _ => 0x23#8
  | .movsr _ _ _ => 0x24#8
  | .movrs _ _ _ => 0x25#8
  | .region _ _ => 0x26#8
  | .waita _ _ _ _ _ _ => 0x27#8
  | .poll _ _ => 0x28#8
  | .abort _ _ => 0x29#8
  | .phase _ _ => 0x2A#8
  | .done _ => 0x2B#8
  | .launch _ _ _ => 0x2C#8
  | .cancel _ _ _ _ => 0x2D#8
  | .trap _ _ => 0x2E#8
  | .brk _ => 0x2F#8
  | .eret _ => 0x30#8
  | .nop _ => 0x31#8
  | .halt _ => 0x32#8
  | .pwrDecl _ _ _ _ _ => 0x33#8
  | .pwrAcq _ _ => 0x34#8
  | .pwrRel _ _ => 0x35#8
  | .specBegin _ _ _ _ _ => 0x36#8
  | .specGo _ => 0x37#8
  | .specCommit _ => 0x38#8
  | .specAbort _ => 0x39#8
  | .tlbi _ _ _ _ => 0x3A#8
  | .vadd _ _ _ _ _ _ => 0x80#8
  | .vsub _ _ _ _ _ _ => 0x81#8
  | .vmul _ _ _ _ _ _ => 0x82#8
  | .vfma _ _ _ _ _ _ => 0x83#8
  | .vdiv _ _ _ _ _ _ => 0x84#8
  | .vmin _ _ _ _ _ _ => 0x85#8
  | .vmax _ _ _ _ _ _ => 0x86#8
  | .vabs _ _ _ _ _ => 0x87#8
  | .vneg _ _ _ _ _ => 0x88#8
  | .vand _ _ _ _ _ _ => 0x89#8
  | .vor _ _ _ _ _ _ => 0x8A#8
  | .vxor _ _ _ _ _ _ => 0x8B#8
  | .vshl _ _ _ _ _ _ => 0x8C#8
  | .vshr _ _ _ _ _ _ => 0x8D#8
  | .vsra _ _ _ _ _ _ => 0x8E#8
  | .vcmp _ _ _ _ _ _ _ => 0x8F#8
  | .vsel _ _ _ _ _ _ => 0x90#8
  | .vmov _ _ _ _ _ => 0x91#8
  | .vcvt _ _ _ _ _ _ _ => 0x92#8
  | .vqnt _ _ _ _ _ _ => 0x93#8
  | .vdqnt _ _ _ _ _ _ => 0x94#8
  | .vlog2 _ _ _ _ _ => 0x95#8
  | .vexp2 _ _ _ _ _ => 0x96#8
  | .vrcp _ _ _ _ _ => 0x97#8
  | .vrsq _ _ _ _ _ => 0x98#8
  | .vsqrt _ _ _ _ _ => 0x99#8
  | .vtanh _ _ _ _ _ => 0x9A#8
  | .vclass _ _ _ _ _ => 0x9B#8
  | .vredSum _ _ _ _ => 0x9C#8
  | .vredMax _ _ _ _ _ => 0x9C#8
  | .vredMin _ _ _ _ _ => 0x9C#8
  | .vredMaxi _ _ _ => 0x9C#8
  | .vxrd _ _ _ _ => 0x9D#8
  | .vscan _ _ _ _ _ => 0x9E#8
  | .vperm _ _ _ _ _ _ => 0x9F#8
  | .vbcast _ _ _ _ _ => 0xA0#8
  | .viota _ _ _ _ => 0xA1#8
  | .vrng _ _ _ _ _ => 0xA2#8
  | .vexpmax _ _ _ _ _ => 0xA3#8
  | .vmaxi _ _ _ => 0xA4#8
  | .mpush _ => 0xA6#8
  | .minv _ => 0xA7#8
  | .mpop _ => 0xA8#8
  | .mset _ _ _ _ => 0xA9#8
  | .mget _ => 0xAA#8
  | .vskip _ _ => 0xAB#8
  | .mlease _ => 0xAC#8
  | .mrel _ => 0xAD#8
  | .mancScan _ _ => 0xAE#8
  | .mancLoad _ _ => 0xAE#8
  | .mancColumn _ _ _ _ => 0xAE#8
  | .mclr _ _ => 0xAF#8
  | .mma _ _ _ _ _ _ _ _ => 0xB0#8
  | .mepi _ _ _ _ _ _ _ _ _ => 0xB1#8
  | .mtopk _ _ _ _ _ _ _ _ _ _ => 0xB2#8
  | .rdacc _ _ _ _ _ => 0xB3#8
  | .mstatTile _ _ _ _ => 0xB4#8
  | .mstatRowanc _ _ => 0xB4#8
  | .mstatDesc _ _ _ => 0xB4#8
  | .mstatColanc _ _ _ _ => 0xB4#8
  | .relax _ _ _ _ _ _ _ _ _ _ => 0xB5#8
  | .relaxB _ _ _ _ _ _ _ _ _ => 0xB6#8
  | .rdahr _ _ => 0xB7#8
  | .wrahr _ _ => 0xB8#8
  | .accept _ _ _ _ _ => 0xB9#8
  | .ldT _ _ _ _ _ _ => 0x40#8
  | .ldX _ _ _ _ _ _ _ => 0x41#8
  | .ldGr _ _ _ _ _ _ _ => 0x42#8
  | .ldG _ _ _ _ _ _ _ _ => 0x43#8
  | .ldGt _ _ _ _ _ _ _ _ => 0x44#8
  | .ldSp _ _ _ _ _ => 0x45#8
  | .ldNet _ _ _ _ _ _ _ => 0x46#8
  | .pref _ _ _ => 0x47#8
  | .linkRecv _ _ _ _ _ _ => 0x48#8
  | .stT _ _ _ _ _ _ => 0xC0#8
  | .stPart _ _ _ _ _ _ => 0xC1#8
  | .stX _ _ _ _ _ _ _ => 0xC2#8
  | .stApp _ _ _ _ _ => 0xC3#8
  | .stAppQuery _ _ _ => 0xC3#8
  | .stRmt _ _ _ _ _ _ => 0xC4#8
  | .stMc _ _ _ _ _ _ _ _ => 0xC5#8
  | .stNet _ _ _ _ _ _ _ => 0xC6#8
  | .linkSend _ _ _ _ _ _ => 0xC7#8
  | .linkRed _ _ _ _ _ _ _ _ => 0xC8#8
  | .migr _ _ _ _ _ => 0xC9#8
  | .badd _ _ _ _ _ _ => 0xD0#8
  | .baddStream _ _ _ _ _ _ => 0xD0#8
  | .band _ _ _ _ _ _ => 0xD1#8
  | .bandStream _ _ _ _ _ _ => 0xD1#8
  | .bor _ _ _ _ _ _ => 0xD2#8
  | .borStream _ _ _ _ _ _ => 0xD2#8
  | .bxor _ _ _ _ _ _ => 0xD3#8
  | .bxorStream _ _ _ _ _ _ => 0xD3#8
  | .bmin _ _ _ _ _ _ => 0xD4#8
  | .bminStream _ _ _ _ _ _ => 0xD4#8
  | .bmax _ _ _ _ _ _ => 0xD5#8
  | .bmaxStream _ _ _ _ _ _ => 0xD5#8
  | .bminn _ _ _ _ _ _ => 0xD6#8
  | .bminnStream _ _ _ _ _ _ => 0xD6#8
  | .bmaxn _ _ _ _ _ _ => 0xD7#8
  | .bmaxnStream _ _ _ _ _ _ => 0xD7#8
  | .bfmin _ _ _ _ _ => 0xD8#8
  | .bfminStream _ _ _ _ _ => 0xD8#8
  | .bfmax _ _ _ _ _ => 0xD9#8
  | .bfmaxStream _ _ _ _ _ => 0xD9#8
  | .bmaxi _ _ _ _ _ => 0xDA#8
  | .bmaxiStream _ _ _ _ _ _ => 0xDA#8
  | .bxadd _ _ _ _ _ => 0xDB#8
  | .bxaddStream _ _ _ _ _ => 0xDB#8
  | .bxrd _ _ _ _ _ _ => 0xDC#8
  | .bxrdStream _ _ _ _ _ _ => 0xDC#8
  | .bfaa _ _ _ _ _ _ _ => 0xDD#8
  | .bfaaStream _ _ _ _ _ _ => 0xDD#8
  | .bcas _ _ _ _ _ _ _ => 0xDE#8
  | .bld _ _ _ _ _ _ => 0xDF#8
  | .bldStream _ _ _ _ _ _ => 0xDF#8
  | .bst _ _ _ _ _ _ => 0xE0#8
  | .bstStream _ _ _ _ _ _ => 0xE0#8
  | .bhist _ _ _ _ _ => 0xE1#8
  | .bhistStream _ _ _ _ _ _ _ => 0xE1#8
  | .bpfx _ _ _ _ _ _ => 0xE2#8
  | .baxpy _ _ _ _ _ _ _ => 0xE3#8
  | .baxpyStream _ _ _ _ _ _ _ => 0xE3#8
  | _ => 0x3F#8

/-- The token bits of an instruction. -/
def tokOf : Instr → Tok
  | .add t _ _ _ => t
  | .sub t _ _ _ => t
  | .and t _ _ _ => t
  | .or t _ _ _ => t
  | .xor t _ _ _ => t
  | .shl t _ _ _ => t
  | .shr t _ _ _ => t
  | .sra t _ _ _ => t
  | .slt t _ _ _ => t
  | .sltn t _ _ _ => t
  | .seq t _ _ _ => t
  | .sel t _ _ _ => t
  | .min t _ _ _ => t
  | .max t _ _ _ => t
  | .minn t _ _ _ => t
  | .maxn t _ _ _ => t
  | .mul t _ _ _ => t
  | .mulh t _ _ _ => t
  | .mulhn t _ _ _ => t
  | .div t _ _ _ => t
  | .divn t _ _ _ => t
  | .rem t _ _ _ => t
  | .remn t _ _ _ => t
  | .clz t _ _ => t
  | .ctz t _ _ => t
  | .popc t _ _ => t
  | .addi t _ _ _ => t
  | .andi t _ _ _ => t
  | .ori t _ _ _ => t
  | .xori t _ _ _ => t
  | .shli t _ _ _ => t
  | .shri t _ _ _ => t
  | .srai t _ _ _ => t
  | .slti t _ _ _ => t
  | .movi t _ _ _ => t
  | .movhi t _ _ _ => t
  | .j t _ => t
  | .jl t _ => t
  | .jr t _ => t
  | .bz t _ _ => t
  | .bnz t _ _ => t
  | .bltz t _ _ => t
  | .bgez t _ _ => t
  | .loop t _ _ _ => t
  | .spill t _ _ => t
  | .fill t _ _ => t
  | .lds t _ _ _ => t
  | .sts t _ _ _ => t
  | .hset t _ _ _ => t
  | .hget t _ _ _ => t
  | .hmov t _ _ => t
  | .hld t _ _ _ => t
  | .hldSpill t _ _ => t
  | .hst t _ _ _ => t
  | .hstSpill t _ _ => t
  | .hadv t _ _ _ => t
  | .movsr t _ _ => t
  | .movrs t _ _ => t
  | .region t _ => t
  | .waita t _ _ _ _ _ => t
  | .poll t _ => t
  | .abort t _ => t
  | .phase t _ => t
  | .done t => t
  | .launch t _ _ => t
  | .cancel t _ _ _ => t
  | .trap t _ => t
  | .brk t => t
  | .eret t => t
  | .nop t => t
  | .halt t => t
  | .pwrDecl t _ _ _ _ => t
  | .pwrAcq t _ => t
  | .pwrRel t _ => t
  | .specBegin t _ _ _ _ => t
  | .specGo t => t
  | .specCommit t => t
  | .specAbort t => t
  | .tlbi t _ _ _ => t
  | .vadd t _ _ _ _ _ => t
  | .vsub t _ _ _ _ _ => t
  | .vmul t _ _ _ _ _ => t
  | .vfma t _ _ _ _ _ => t
  | .vdiv t _ _ _ _ _ => t
  | .vmin t _ _ _ _ _ => t
  | .vmax t _ _ _ _ _ => t
  | .vabs t _ _ _ _ => t
  | .vneg t _ _ _ _ => t
  | .vand t _ _ _ _ _ => t
  | .vor t _ _ _ _ _ => t
  | .vxor t _ _ _ _ _ => t
  | .vshl t _ _ _ _ _ => t
  | .vshr t _ _ _ _ _ => t
  | .vsra t _ _ _ _ _ => t
  | .vcmp t _ _ _ _ _ _ => t
  | .vsel t _ _ _ _ _ => t
  | .vmov t _ _ _ _ => t
  | .vcvt t _ _ _ _ _ _ => t
  | .vqnt t _ _ _ _ _ => t
  | .vdqnt t _ _ _ _ _ => t
  | .vlog2 t _ _ _ _ => t
  | .vexp2 t _ _ _ _ => t
  | .vrcp t _ _ _ _ => t
  | .vrsq t _ _ _ _ => t
  | .vsqrt t _ _ _ _ => t
  | .vtanh t _ _ _ _ => t
  | .vclass t _ _ _ _ => t
  | .vredSum t _ _ _ => t
  | .vredMax t _ _ _ _ => t
  | .vredMin t _ _ _ _ => t
  | .vredMaxi t _ _ => t
  | .vxrd t _ _ _ => t
  | .vscan t _ _ _ _ => t
  | .vperm t _ _ _ _ _ => t
  | .vbcast t _ _ _ _ => t
  | .viota t _ _ _ => t
  | .vrng t _ _ _ _ => t
  | .vexpmax t _ _ _ _ => t
  | .vmaxi t _ _ => t
  | .mpush t => t
  | .minv t => t
  | .mpop t => t
  | .mset t _ _ _ => t
  | .mget t => t
  | .vskip t _ => t
  | .mlease t => t
  | .mrel t => t
  | .mancScan t _ => t
  | .mancLoad t _ => t
  | .mancColumn t _ _ _ => t
  | .mclr t _ => t
  | .mma t _ _ _ _ _ _ _ => t
  | .mepi t _ _ _ _ _ _ _ _ => t
  | .mtopk t _ _ _ _ _ _ _ _ _ => t
  | .rdacc t _ _ _ _ => t
  | .mstatTile t _ _ _ => t
  | .mstatRowanc t _ => t
  | .mstatDesc t _ _ => t
  | .mstatColanc t _ _ _ => t
  | .relax t _ _ _ _ _ _ _ _ _ => t
  | .relaxB t _ _ _ _ _ _ _ _ => t
  | .rdahr t _ => t
  | .wrahr t _ => t
  | .accept t _ _ _ _ => t
  | .ldT t _ _ _ _ _ => t
  | .ldX t _ _ _ _ _ _ => t
  | .ldGr t _ _ _ _ _ _ => t
  | .ldG t _ _ _ _ _ _ _ => t
  | .ldGt t _ _ _ _ _ _ _ => t
  | .ldSp t _ _ _ _ => t
  | .ldNet t _ _ _ _ _ _ => t
  | .pref t _ _ => t
  | .linkRecv t _ _ _ _ _ => t
  | .stT t _ _ _ _ _ => t
  | .stPart t _ _ _ _ _ => t
  | .stX t _ _ _ _ _ _ => t
  | .stApp t _ _ _ _ => t
  | .stAppQuery t _ _ => t
  | .stRmt t _ _ _ _ _ => t
  | .stMc t _ _ _ _ _ _ _ => t
  | .stNet t _ _ _ _ _ _ => t
  | .linkSend t _ _ _ _ _ => t
  | .linkRed t _ _ _ _ _ _ _ => t
  | .migr t _ _ _ _ => t
  | .badd t _ _ _ _ _ => t
  | .baddStream t _ _ _ _ _ => t
  | .band t _ _ _ _ _ => t
  | .bandStream t _ _ _ _ _ => t
  | .bor t _ _ _ _ _ => t
  | .borStream t _ _ _ _ _ => t
  | .bxor t _ _ _ _ _ => t
  | .bxorStream t _ _ _ _ _ => t
  | .bmin t _ _ _ _ _ => t
  | .bminStream t _ _ _ _ _ => t
  | .bmax t _ _ _ _ _ => t
  | .bmaxStream t _ _ _ _ _ => t
  | .bminn t _ _ _ _ _ => t
  | .bminnStream t _ _ _ _ _ => t
  | .bmaxn t _ _ _ _ _ => t
  | .bmaxnStream t _ _ _ _ _ => t
  | .bfmin t _ _ _ _ => t
  | .bfminStream t _ _ _ _ => t
  | .bfmax t _ _ _ _ => t
  | .bfmaxStream t _ _ _ _ => t
  | .bmaxi t _ _ _ _ => t
  | .bmaxiStream t _ _ _ _ _ => t
  | .bxadd t _ _ _ _ => t
  | .bxaddStream t _ _ _ _ => t
  | .bxrd t _ _ _ _ _ => t
  | .bxrdStream t _ _ _ _ _ => t
  | .bfaa t _ _ _ _ _ _ => t
  | .bfaaStream t _ _ _ _ _ => t
  | .bcas t _ _ _ _ _ _ => t
  | .bld t _ _ _ _ _ => t
  | .bldStream t _ _ _ _ _ => t
  | .bst t _ _ _ _ _ => t
  | .bstStream t _ _ _ _ _ => t
  | .bhist t _ _ _ _ => t
  | .bhistStream t _ _ _ _ _ _ => t
  | .bpfx t _ _ _ _ _ => t
  | .baxpy t _ _ _ _ _ _ => t
  | .baxpyStream t _ _ _ _ _ _ => t
  | _ => default4

/-- Bits 27:0 of the second word of a wide instruction, in its format (R50); none for a one-word instruction. -/
def encSecond : Instr → Option (BitVec 28)
  | .movi _ _ _ lo => some (lo)
  | .movhi _ _ _ lo => some (lo ++ 0#20)
  | .waita _ _ _ v u cond => some (v ++ u ++ cond.bits ++ 0#12)
  | .pwrDecl _ _ _ onset int => some (onset ++ int ++ 0#10)
  | .specBegin _ _ _ _ off => some (off)
  | .mma _ _ _ _ _ sm sn sk => some (0#5 ++ sm ++ sn ++ sk ++ 0#5)
  | .mepi _ _ _ _ bias sm sn scale clr => some ((bias.getD 0) ++ sm ++ sn ++ (scale.getD 0) ++ 0#4 ++ (bit clr))
  | .mtopk _ _ _ _ _ _ hx sm sn base => some (hx ++ sm ++ sn ++ base ++ 0#5)
  | .rdacc _ _ _ sm sn => some (0#5 ++ sm ++ sn ++ 0#11)
  | .relax _ _ _ _ _ hz hu der cnt warm => some (hz ++ hu ++ (der.getD 0) ++ (cnt.getD 0) ++ 0#6 ++ 0#1 ++ (bit warm))
  | .relaxB _ _ _ hz hu hd cnt g warm => some (hz ++ hu ++ hd ++ (cnt.getD 0) ++ g ++ 0#1 ++ (bit warm))
  | .accept _ _ _ _ e => some (e ++ 0#22)
  | .ldT _ _ _ _ fa fv => some (0#6 ++ fa ++ fv ++ 0#10)
  | .ldX _ _ _ _ hx fa fv => some (0#1 ++ hx ++ fa ++ fv ++ 0#10)
  | .ldGr _ _ _ _ hx fa fv => some (0#1 ++ hx ++ fa ++ fv ++ 0#10)
  | .ldG _ _ _ _ e fa fv g => some (e ++ fa ++ fv ++ 0#4 ++ g)
  | .ldGt _ _ _ _ e fa fv g => some (e ++ fa ++ fv ++ 0#4 ++ g)
  | .ldSp _ _ _ fa fv => some (0#6 ++ fa ++ fv ++ 0#10)
  | .ldNet _ _ _ _ e fa fv => some (e ++ fa ++ fv ++ 0#10)
  | .pref _ _ _ => some (0#28)
  | .linkRecv _ _ _ _ fa fv => some (0#6 ++ fa ++ fv ++ 0#10)
  | .stT _ _ _ _ fa fv => some (0#6 ++ fa ++ fv ++ 0#10)
  | .stPart _ _ _ _ fa fv => some (0#6 ++ fa ++ fv ++ 0#10)
  | .stX _ _ _ _ hx fa fv => some (0#1 ++ hx ++ fa ++ fv ++ 0#10)
  | .stApp _ _ _ fa fv => some (0#6 ++ fa ++ fv ++ 0#10)
  | .stAppQuery _ _ _ => some (0#28)
  | .stRmt _ _ _ e fa fv => some (e ++ fa ++ fv ++ 0#10)
  | .stMc _ _ _ _ e fa fv die => some (e ++ fa ++ fv ++ 0#8 ++ die)
  | .stNet _ _ _ _ e fa fv => some (e ++ fa ++ fv ++ 0#10)
  | .linkSend _ _ _ _ fa fv => some (0#6 ++ fa ++ fv ++ 0#10)
  | .linkRed _ _ _ _ fa fv rq inn => some (0#6 ++ fa ++ fv ++ 0#8 ++ (bit rq) ++ (bit inn))
  | .migr _ _ _ fa fv => some (0#6 ++ fa ++ fv ++ 0#10)
  | .badd _ _ _ fa fv ty => some (0#6 ++ fa ++ fv ++ 0#7 ++ 0#1 ++ ty.bits)
  | .baddStream _ _ _ fa fv ty => some (0#6 ++ fa ++ fv ++ 0#7 ++ 0#1 ++ ty.bits)
  | .band _ _ _ fa fv ty => some (0#6 ++ fa ++ fv ++ 0#7 ++ 0#1 ++ ty.bits)
  | .bandStream _ _ _ fa fv ty => some (0#6 ++ fa ++ fv ++ 0#7 ++ 0#1 ++ ty.bits)
  | .bor _ _ _ fa fv ty => some (0#6 ++ fa ++ fv ++ 0#7 ++ 0#1 ++ ty.bits)
  | .borStream _ _ _ fa fv ty => some (0#6 ++ fa ++ fv ++ 0#7 ++ 0#1 ++ ty.bits)
  | .bxor _ _ _ fa fv ty => some (0#6 ++ fa ++ fv ++ 0#7 ++ 0#1 ++ ty.bits)
  | .bxorStream _ _ _ fa fv ty => some (0#6 ++ fa ++ fv ++ 0#7 ++ 0#1 ++ ty.bits)
  | .bmin _ _ _ fa fv ty => some (0#6 ++ fa ++ fv ++ 0#7 ++ 0#1 ++ ty.bits)
  | .bminStream _ _ _ fa fv ty => some (0#6 ++ fa ++ fv ++ 0#7 ++ 0#1 ++ ty.bits)
  | .bmax _ _ _ fa fv ty => some (0#6 ++ fa ++ fv ++ 0#7 ++ 0#1 ++ ty.bits)
  | .bmaxStream _ _ _ fa fv ty => some (0#6 ++ fa ++ fv ++ 0#7 ++ 0#1 ++ ty.bits)
  | .bminn _ _ _ fa fv ty => some (0#6 ++ fa ++ fv ++ 0#7 ++ 0#1 ++ ty.bits)
  | .bminnStream _ _ _ fa fv ty => some (0#6 ++ fa ++ fv ++ 0#7 ++ 0#1 ++ ty.bits)
  | .bmaxn _ _ _ fa fv ty => some (0#6 ++ fa ++ fv ++ 0#7 ++ 0#1 ++ ty.bits)
  | .bmaxnStream _ _ _ fa fv ty => some (0#6 ++ fa ++ fv ++ 0#7 ++ 0#1 ++ ty.bits)
  | .bfmin _ _ _ fa fv => some (0#6 ++ fa ++ fv ++ 0#7 ++ 0#1 ++ 2#2)
  | .bfminStream _ _ _ fa fv => some (0#6 ++ fa ++ fv ++ 0#7 ++ 0#1 ++ 2#2)
  | .bfmax _ _ _ fa fv => some (0#6 ++ fa ++ fv ++ 0#7 ++ 0#1 ++ 2#2)
  | .bfmaxStream _ _ _ fa fv => some (0#6 ++ fa ++ fv ++ 0#7 ++ 0#1 ++ 2#2)
  | .bmaxi _ _ _ fa fv => some (0#6 ++ fa ++ fv ++ 0#7 ++ 0#1 ++ 0#2)
  | .bmaxiStream _ _ _ _ fa fv => some (0#6 ++ fa ++ fv ++ 0#7 ++ 0#1 ++ 0#2)
  | .bxadd _ _ _ fa fv => some (0#6 ++ fa ++ fv ++ 0#7 ++ 0#1 ++ 2#2)
  | .bxaddStream _ _ _ fa fv => some (0#6 ++ fa ++ fv ++ 0#7 ++ 0#1 ++ 2#2)
  | .bxrd _ _ e fa fv clr => some (e ++ fa ++ fv ++ 0#7 ++ (bit clr) ++ 2#2)
  | .bxrdStream _ _ _ fa fv clr => some (0#6 ++ fa ++ fv ++ 0#7 ++ (bit clr) ++ 2#2)
  | .bfaa _ _ _ e fa fv ty => some (e ++ fa ++ fv ++ 0#7 ++ 0#1 ++ ty.bits)
  | .bfaaStream _ _ _ fa fv ty => some (0#6 ++ fa ++ fv ++ 0#7 ++ 0#1 ++ ty.bits)
  | .bcas _ _ _ e fa fv ty => some (e ++ fa ++ fv ++ 0#7 ++ 0#1 ++ ty.bits)
  | .bld _ _ e fa fv ty => some (e ++ fa ++ fv ++ 0#7 ++ 0#1 ++ ty.bits)
  | .bldStream _ _ _ fa fv ty => some (0#6 ++ fa ++ fv ++ 0#7 ++ 0#1 ++ ty.bits)
  | .bst _ _ _ fa fv ty => some (0#6 ++ fa ++ fv ++ 0#7 ++ 0#1 ++ ty.bits)
  | .bstStream _ _ _ fa fv ty => some (0#6 ++ fa ++ fv ++ 0#7 ++ 0#1 ++ ty.bits)
  | .bhist _ _ _ fa fv => some (0#6 ++ fa ++ fv ++ 0#7 ++ 0#1 ++ 0#2)
  | .bhistStream _ _ _ _ fa fv sh => some (0#6 ++ fa ++ fv ++ 0#1 ++ sh ++ 0#1 ++ 0#1 ++ 0#2)
  | .bpfx _ _ _ e fa fv => some (e ++ fa ++ fv ++ 0#7 ++ 0#1 ++ 0#2)
  | .baxpy _ _ _ e fa fv ty => some (e ++ fa ++ fv ++ 0#7 ++ 0#1 ++ ty.bits)
  | .baxpyStream _ _ _ e fa fv ty => some (e ++ fa ++ fv ++ 0#7 ++ 0#1 ++ ty.bits)
  | _ => none

/-- The fields of class Q = 00 read by the opcode map (R56); reserved bits are checked afterwards by `decode`. -/
def fieldsFE (op : Nat) (t : Tok) (b : BitVec 20) (x : BitVec 28) : Option Instr :=
  match op with
  | 0x00 => match (fld 0 2 b).toNat with
    | 0 => some (.add t (fld 14 6 b) (fld 8 6 b) (fld 2 6 b))
    | 1 => some (.sub t (fld 14 6 b) (fld 8 6 b) (fld 2 6 b))
    | 2 => some (.and t (fld 14 6 b) (fld 8 6 b) (fld 2 6 b))
    | 3 => some (.or t (fld 14 6 b) (fld 8 6 b) (fld 2 6 b))
    | _ => none
  | 0x01 => match (fld 0 2 b).toNat with
    | 0 => some (.xor t (fld 14 6 b) (fld 8 6 b) (fld 2 6 b))
    | 1 => some (.shl t (fld 14 6 b) (fld 8 6 b) (fld 2 6 b))
    | 2 => some (.shr t (fld 14 6 b) (fld 8 6 b) (fld 2 6 b))
    | 3 => some (.sra t (fld 14 6 b) (fld 8 6 b) (fld 2 6 b))
    | _ => none
  | 0x02 => match (fld 0 2 b).toNat with
    | 0 => some (.slt t (fld 14 6 b) (fld 8 6 b) (fld 2 6 b))
    | 1 => some (.sltn t (fld 14 6 b) (fld 8 6 b) (fld 2 6 b))
    | 2 => some (.seq t (fld 14 6 b) (fld 8 6 b) (fld 2 6 b))
    | 3 => some (.sel t (fld 14 6 b) (fld 8 6 b) (fld 2 6 b))
    | _ => none
  | 0x03 => match (fld 0 2 b).toNat with
    | 0 => some (.min t (fld 14 6 b) (fld 8 6 b) (fld 2 6 b))
    | 1 => some (.max t (fld 14 6 b) (fld 8 6 b) (fld 2 6 b))
    | 2 => some (.minn t (fld 14 6 b) (fld 8 6 b) (fld 2 6 b))
    | 3 => some (.maxn t (fld 14 6 b) (fld 8 6 b) (fld 2 6 b))
    | _ => none
  | 0x04 => match (fld 0 2 b).toNat with
    | 0 => some (.mul t (fld 14 6 b) (fld 8 6 b) (fld 2 6 b))
    | 1 => some (.mulh t (fld 14 6 b) (fld 8 6 b) (fld 2 6 b))
    | 2 => some (.mulhn t (fld 14 6 b) (fld 8 6 b) (fld 2 6 b))
    | _ => none
  | 0x05 => match (fld 0 2 b).toNat with
    | 0 => some (.div t (fld 14 6 b) (fld 8 6 b) (fld 2 6 b))
    | 1 => some (.divn t (fld 14 6 b) (fld 8 6 b) (fld 2 6 b))
    | 2 => some (.rem t (fld 14 6 b) (fld 8 6 b) (fld 2 6 b))
    | 3 => some (.remn t (fld 14 6 b) (fld 8 6 b) (fld 2 6 b))
    | _ => none
  | 0x06 => match (fld 0 2 b).toNat with
    | 0 => some (.clz t (fld 14 6 b) (fld 8 6 b))
    | 1 => some (.ctz t (fld 14 6 b) (fld 8 6 b))
    | 2 => some (.popc t (fld 14 6 b) (fld 8 6 b))
    | _ => none
  | 0x08 => some (.addi t (fld 14 6 b) (fld 8 6 b) (fld 0 8 b))
  | 0x09 => some (.andi t (fld 14 6 b) (fld 8 6 b) (fld 0 8 b))
  | 0x0A => some (.ori t (fld 14 6 b) (fld 8 6 b) (fld 0 8 b))
  | 0x0B => some (.xori t (fld 14 6 b) (fld 8 6 b) (fld 0 8 b))
  | 0x0C => some (.shli t (fld 14 6 b) (fld 8 6 b) (fld 0 6 b))
  | 0x0D => some (.shri t (fld 14 6 b) (fld 8 6 b) (fld 0 6 b))
  | 0x0E => some (.srai t (fld 14 6 b) (fld 8 6 b) (fld 0 6 b))
  | 0x0F => some (.slti t (fld 14 6 b) (fld 8 6 b) (fld 0 8 b))
  | 0x10 => some (.movi t (fld 14 6 b) (fld 0 14 b) (fld 0 28 x))
  | 0x11 => some (.movhi t (fld 14 6 b) (fld 0 14 b) (fld 20 8 x))
  | 0x12 => some (.j t (fld 0 20 b))
  | 0x13 => some (.jl t (fld 0 20 b))
  | 0x14 => some (.jr t (fld 8 6 b))
  | 0x15 => some (.bz t (fld 14 6 b) (fld 0 13 b))
  | 0x16 => some (.bnz t (fld 14 6 b) (fld 0 13 b))
  | 0x17 => some (.bltz t (fld 14 6 b) (fld 0 13 b))
  | 0x18 => some (.bgez t (fld 14 6 b) (fld 0 13 b))
  | 0x19 => some (.loop t (fld 14 6 b) (fld 13 1 b == 1) (fld 0 13 b))
  | 0x1A => some (.spill t (fld 14 6 b) (fld 0 9 b))
  | 0x1B => some (.fill t (fld 14 6 b) (fld 0 9 b))
  | 0x1C => some (.lds t (fld 14 6 b) (fld 8 6 b) (fld 0 8 b))
  | 0x1D => some (.sts t (fld 14 6 b) (fld 8 6 b) (fld 0 8 b))
  | 0x1E => some (.hset t (fld 15 5 b) (fld 9 6 b) (fld 0 5 b))
  | 0x1F => some (.hget t (fld 15 5 b) (fld 9 6 b) (fld 0 5 b))
  | 0x20 => some (.hmov t (fld 15 5 b) (fld 10 5 b))
  | 0x21 => match (fld 8 1 b).toNat with
    | 0 => some (.hld t (fld 15 5 b) (fld 9 6 b) (fld 0 8 b))
    | 1 => some (.hldSpill t (fld 15 5 b) (fld 0 7 b))
    | _ => none
  | 0x22 => match (fld 8 1 b).toNat with
    | 0 => some (.hst t (fld 15 5 b) (fld 9 6 b) (fld 0 8 b))
    | 1 => some (.hstSpill t (fld 15 5 b) (fld 0 7 b))
    | _ => none
  | 0x23 => some (.hadv t (fld 15 5 b) (fld 9 6 b) (fld 0 3 b))
  | 0x24 => some (.movsr t (fld 14 6 b) (fld 0 14 b))
  | 0x25 => some (.movrs t (fld 14 6 b) (fld 0 14 b))
  | 0x26 => some (.region t (fld 0 1 b == 1))
  | 0x27 => some (.waita t (fld 14 6 b) (fld 8 6 b) (fld 22 6 x) (fld 16 6 x) (Cond.ofBits (fld 12 4 x)))
  | 0x28 => some (.poll t (fld 14 6 b))
  | 0x29 => some (.abort t (fld 0 2 b))
  | 0x2A => some (.phase t (fld 14 6 b))
  | 0x2B => some (.done t)
  | 0x2C => some (.launch t (fld 14 6 b) (fld 8 6 b))
  | 0x2D => some (.cancel t (fld 14 6 b) (fld 8 6 b) (fld 0 2 b))
  | 0x2E => some (.trap t (fld 0 14 b))
  | 0x2F => some (.brk t)
  | 0x30 => some (.eret t)
  | 0x31 => some (.nop t)
  | 0x32 => some (.halt t)
  | 0x33 => some (.pwrDecl t (fld 14 6 b) (fld 0 14 b) (fld 14 14 x) (fld 10 4 x))
  | 0x34 => some (.pwrAcq t (fld 8 6 b))
  | 0x35 => some (.pwrRel t (fld 8 6 b))
  | 0x36 => some (.specBegin t (fld 15 5 b) (fld 10 5 b) (fld 7 3 b) (fld 0 28 x))
  | 0x37 => some (.specGo t)
  | 0x38 => some (.specCommit t)
  | 0x39 => some (.specAbort t)
  | 0x3A => some (.tlbi t (fld 8 6 b) (fld 2 6 b) (fld 0 2 b))
  | _ => none

/-- The fields of class Q = 01 read by the opcode map (R58); reserved bits are checked afterwards by `decode`. -/
def fieldsLD (op : Nat) (t : Tok) (b : BitVec 20) (x : BitVec 28) : Option Instr :=
  match op with
  | 0x00 => some (.ldT t (fld 15 5 b) (fld 9 6 b) (fld 3 6 b) (fld 16 6 x) (fld 10 6 x))
  | 0x01 => some (.ldX t (fld 15 5 b) (fld 9 6 b) (fld 3 6 b) (fld 22 5 x) (fld 16 6 x) (fld 10 6 x))
  | 0x02 => some (.ldGr t (fld 15 5 b) (fld 9 6 b) (fld 3 6 b) (fld 22 5 x) (fld 16 6 x) (fld 10 6 x))
  | 0x03 => some (.ldG t (fld 15 5 b) (fld 9 6 b) (fld 3 6 b) (fld 22 6 x) (fld 16 6 x) (fld 10 6 x) (fld 0 6 x))
  | 0x04 => some (.ldGt t (fld 15 5 b) (fld 9 6 b) (fld 3 6 b) (fld 22 6 x) (fld 16 6 x) (fld 10 6 x) (fld 0 6 x))
  | 0x05 => some (.ldSp t (fld 15 5 b) (fld 9 6 b) (fld 16 6 x) (fld 10 6 x))
  | 0x06 => some (.ldNet t (fld 15 5 b) (fld 9 6 b) (fld 3 6 b) (fld 22 6 x) (fld 16 6 x) (fld 10 6 x))
  | 0x07 => some (.pref t (fld 9 6 b) (fld 3 6 b))
  | 0x08 => some (.linkRecv t (fld 15 5 b) (fld 9 6 b) (fld 3 6 b) (fld 16 6 x) (fld 10 6 x))
  | _ => none

/-- The fields of class Q = 10 read by the opcode map (R57); reserved bits are checked afterwards by `decode`. -/
def fieldsEX (op : Nat) (t : Tok) (b : BitVec 20) (x : BitVec 28) : Option Instr :=
  match op with
  | 0x00 => some (.vadd t (fld 15 5 b) (fld 10 5 b) (fld 5 5 b) (VTy.ofBits (fld 2 3 b)) (Rep.ofBits (fld 0 2 b)))
  | 0x01 => some (.vsub t (fld 15 5 b) (fld 10 5 b) (fld 5 5 b) (VTy.ofBits (fld 2 3 b)) (Rep.ofBits (fld 0 2 b)))
  | 0x02 => some (.vmul t (fld 15 5 b) (fld 10 5 b) (fld 5 5 b) (VTy.ofBits (fld 2 3 b)) (Rep.ofBits (fld 0 2 b)))
  | 0x03 => some (.vfma t (fld 15 5 b) (fld 10 5 b) (fld 5 5 b) (VTy.ofBits (fld 2 3 b)) (Rep.ofBits (fld 0 2 b)))
  | 0x04 => some (.vdiv t (fld 15 5 b) (fld 10 5 b) (fld 5 5 b) (VTy.ofBits (fld 2 3 b)) (Rep.ofBits (fld 0 2 b)))
  | 0x05 => some (.vmin t (fld 15 5 b) (fld 10 5 b) (fld 5 5 b) (VTy.ofBits (fld 2 3 b)) (Rep.ofBits (fld 0 2 b)))
  | 0x06 => some (.vmax t (fld 15 5 b) (fld 10 5 b) (fld 5 5 b) (VTy.ofBits (fld 2 3 b)) (Rep.ofBits (fld 0 2 b)))
  | 0x07 => some (.vabs t (fld 15 5 b) (fld 10 5 b) (VTy.ofBits (fld 2 3 b)) (Rep.ofBits (fld 0 2 b)))
  | 0x08 => some (.vneg t (fld 15 5 b) (fld 10 5 b) (VTy.ofBits (fld 2 3 b)) (Rep.ofBits (fld 0 2 b)))
  | 0x09 => some (.vand t (fld 15 5 b) (fld 10 5 b) (fld 5 5 b) (VTy.ofBits (fld 2 3 b)) (Rep.ofBits (fld 0 2 b)))
  | 0x0A => some (.vor t (fld 15 5 b) (fld 10 5 b) (fld 5 5 b) (VTy.ofBits (fld 2 3 b)) (Rep.ofBits (fld 0 2 b)))
  | 0x0B => some (.vxor t (fld 15 5 b) (fld 10 5 b) (fld 5 5 b) (VTy.ofBits (fld 2 3 b)) (Rep.ofBits (fld 0 2 b)))
  | 0x0C => some (.vshl t (fld 15 5 b) (fld 10 5 b) (fld 5 5 b) (VTy.ofBits (fld 2 3 b)) (Rep.ofBits (fld 0 2 b)))
  | 0x0D => some (.vshr t (fld 15 5 b) (fld 10 5 b) (fld 5 5 b) (VTy.ofBits (fld 2 3 b)) (Rep.ofBits (fld 0 2 b)))
  | 0x0E => some (.vsra t (fld 15 5 b) (fld 10 5 b) (fld 5 5 b) (VTy.ofBits (fld 2 3 b)) (Rep.ofBits (fld 0 2 b)))
  | 0x0F => some (.vcmp t (fld 19 1 b == 1) (Cond.ofBits (fld 15 4 b)) (fld 10 5 b) (fld 5 5 b) (VTy.ofBits (fld 2 3 b)) (Rep.ofBits (fld 0 2 b)))
  | 0x10 => some (.vsel t (fld 15 5 b) (fld 10 5 b) (fld 5 5 b) (VTy.ofBits (fld 2 3 b)) (Rep.ofBits (fld 0 2 b)))
  | 0x11 => some (.vmov t (fld 15 5 b) (fld 10 5 b) (VTy.ofBits (fld 2 3 b)) (Rep.ofBits (fld 0 2 b)))
  | 0x12 => some (.vcvt t (fld 15 5 b) (fld 10 5 b) (fld 8 1 b == 1) (RMode.ofBits (fld 5 3 b)) (VTy.ofBits (fld 2 3 b)) (Rep.ofBits (fld 0 2 b)))
  | 0x13 => some (.vqnt t (fld 15 5 b) (fld 10 5 b) (fld 5 5 b) (VTy.ofBits (fld 2 3 b)) (Rep.ofBits (fld 0 2 b)))
  | 0x14 => some (.vdqnt t (fld 15 5 b) (fld 10 5 b) (fld 5 5 b) (VTy.ofBits (fld 2 3 b)) (Rep.ofBits (fld 0 2 b)))
  | 0x15 => some (.vlog2 t (fld 15 5 b) (fld 10 5 b) (VTy.ofBits (fld 2 3 b)) (Rep.ofBits (fld 0 2 b)))
  | 0x16 => some (.vexp2 t (fld 15 5 b) (fld 10 5 b) (VTy.ofBits (fld 2 3 b)) (Rep.ofBits (fld 0 2 b)))
  | 0x17 => some (.vrcp t (fld 15 5 b) (fld 10 5 b) (VTy.ofBits (fld 2 3 b)) (Rep.ofBits (fld 0 2 b)))
  | 0x18 => some (.vrsq t (fld 15 5 b) (fld 10 5 b) (VTy.ofBits (fld 2 3 b)) (Rep.ofBits (fld 0 2 b)))
  | 0x19 => some (.vsqrt t (fld 15 5 b) (fld 10 5 b) (VTy.ofBits (fld 2 3 b)) (Rep.ofBits (fld 0 2 b)))
  | 0x1A => some (.vtanh t (fld 15 5 b) (fld 10 5 b) (VTy.ofBits (fld 2 3 b)) (Rep.ofBits (fld 0 2 b)))
  | 0x1B => some (.vclass t (fld 10 5 b) (fld 5 5 b) (VTy.ofBits (fld 2 3 b)) (Rep.ofBits (fld 0 2 b)))
  | 0x1C => match (fld 5 5 b).toNat with
    | 0 => some (.vredSum t (fld 10 5 b) (VTy.ofBits (fld 2 3 b)) (Rep.ofBits (fld 0 2 b)))
    | 1 => some (.vredMax t (fld 15 5 b) (fld 10 5 b) (VTy.ofBits (fld 2 3 b)) (Rep.ofBits (fld 0 2 b)))
    | 2 => some (.vredMin t (fld 15 5 b) (fld 10 5 b) (VTy.ofBits (fld 2 3 b)) (Rep.ofBits (fld 0 2 b)))
    | 3 => some (.vredMaxi t (fld 15 5 b) (Rep.ofBits (fld 0 2 b)))
    | _ => none
  | 0x1D => some (.vxrd t (fld 15 5 b) (VTy.ofBits (fld 2 3 b)) (Rep.ofBits (fld 0 2 b)))
  | 0x1E => some (.vscan t (fld 15 5 b) (fld 10 5 b) (VTy.ofBits (fld 2 3 b)) (Rep.ofBits (fld 0 2 b)))
  | 0x1F => some (.vperm t (fld 15 5 b) (fld 10 5 b) (fld 5 5 b) (VTy.ofBits (fld 2 3 b)) (Rep.ofBits (fld 0 2 b)))
  | 0x20 => some (.vbcast t (fld 15 5 b) (fld 9 6 b) (VTy.ofBits (fld 2 3 b)) (Rep.ofBits (fld 0 2 b)))
  | 0x21 => some (.viota t (fld 15 5 b) (VTy.ofBits (fld 2 3 b)) (Rep.ofBits (fld 0 2 b)))
  | 0x22 => some (.vrng t (fld 15 5 b) (fld 10 5 b) (fld 5 5 b) (Rep.ofBits (fld 0 2 b)))
  | 0x23 => some (.vexpmax t (fld 15 5 b) (fld 10 5 b) (VTy.ofBits (fld 2 3 b)) (Rep.ofBits (fld 0 2 b)))
  | 0x24 => some (.vmaxi t (fld 10 5 b) (Rep.ofBits (fld 0 2 b)))
  | 0x26 => some (.mpush t)
  | 0x27 => some (.minv t)
  | 0x28 => some (.mpop t)
  | 0x29 => some (.mset t (fld 14 6 b) (fld 2 1 b == 1) (fld 0 2 b))
  | 0x2A => some (.mget t)
  | 0x2B => some (.vskip t (fld 0 12 b))
  | 0x2C => some (.mlease t)
  | 0x2D => some (.mrel t)
  | 0x2E => match (fld 0 2 b).toNat with
    | 0 => some (.mancScan t (fld 8 5 b))
    | 1 => some (.mancLoad t (fld 8 5 b))
    | 2 => some (.mancColumn t (fld 13 6 b) (fld 8 5 b) (fld 2 6 b))
    | _ => none
  | 0x2F => some (.mclr t (fld 19 1 b))
  | 0x30 => some (.mma t (fld 19 1 b) (fld 13 6 b) (fld 8 5 b) (fld 0 8 b) (fld 17 6 x) (fld 11 6 x) (fld 5 6 x))
  | 0x31 => some (.mepi t (fld 19 1 b) (fld 8 5 b) (Act.ofBits (fld 0 3 b)) (opt (fld 3 1 b) (fld 23 5 x)) (fld 17 6 x) (fld 11 6 x) (opt (fld 4 1 b) (fld 5 6 x)) (fld 0 1 x == 1))
  | 0x32 => some (.mtopk t (fld 19 1 b) (fld 8 5 b) (fld 4 1 b == 1) (fld 3 1 b == 1) (fld 0 3 b) (fld 23 5 x) (fld 17 6 x) (fld 11 6 x) (fld 5 6 x))
  | 0x33 => some (.rdacc t (fld 19 1 b) (fld 8 5 b) (fld 17 6 x) (fld 11 6 x))
  | 0x34 => match (fld 0 3 b).toNat with
    | 3 => some (.mstatRowanc t (fld 8 5 b))
    | 4 => some (.mstatDesc t (fld 13 6 b) (fld 8 5 b))
    | 5 => some (.mstatColanc t (fld 13 6 b) (fld 8 5 b) (fld 3 5 b))
    | _ => some (.mstatTile t (fld 19 1 b) (fld 8 5 b) (fld 0 2 b))
  | 0x35 => some (.relax t (fld 19 1 b) (fld 13 6 b) (fld 8 5 b) (Act.ofBits (fld 0 3 b)) (fld 23 5 x) (fld 18 5 x) (opt (fld 3 1 b) (fld 13 5 x)) (opt (fld 4 1 b) (fld 8 5 x)) (fld 0 1 x == 1))
  | 0x36 => some (.relaxB t (fld 19 1 b) (fld 8 5 b) (fld 23 5 x) (fld 18 5 x) (fld 13 5 x) (opt (fld 4 1 b) (fld 8 5 x)) (fld 2 6 x) (fld 0 1 x == 1))
  | 0x37 => some (.rdahr t (fld 15 5 b))
  | 0x38 => some (.wrahr t (fld 10 5 b))
  | 0x39 => some (.accept t (fld 10 5 b) (fld 5 5 b) (fld 0 2 b) (fld 22 6 x))
  | _ => none

/-- The fields of class Q = 11 read by the opcode map (R59); reserved bits are checked afterwards by `decode`. -/
def fieldsST (op : Nat) (t : Tok) (b : BitVec 20) (x : BitVec 28) : Option Instr :=
  match op with
  | 0x00 => some (.stT t (fld 15 5 b) (fld 9 6 b) (fld 3 6 b) (fld 16 6 x) (fld 10 6 x))
  | 0x01 => some (.stPart t (fld 15 5 b) (fld 9 6 b) (fld 3 6 b) (fld 16 6 x) (fld 10 6 x))
  | 0x02 => some (.stX t (fld 15 5 b) (fld 9 6 b) (fld 3 6 b) (fld 22 5 x) (fld 16 6 x) (fld 10 6 x))
  | 0x03 => match (fld 0 1 b).toNat with
    | 0 => some (.stApp t (fld 15 5 b) (fld 9 6 b) (fld 16 6 x) (fld 10 6 x))
    | 1 => some (.stAppQuery t (fld 9 6 b) (fld 3 6 b))
    | _ => none
  | 0x04 => some (.stRmt t (fld 15 5 b) (fld 9 6 b) (fld 22 6 x) (fld 16 6 x) (fld 10 6 x))
  | 0x05 => some (.stMc t (fld 15 5 b) (fld 9 6 b) (fld 3 6 b) (fld 22 6 x) (fld 16 6 x) (fld 10 6 x) (fld 0 2 x))
  | 0x06 => some (.stNet t (fld 15 5 b) (fld 9 6 b) (fld 3 6 b) (fld 22 6 x) (fld 16 6 x) (fld 10 6 x))
  | 0x07 => some (.linkSend t (fld 15 5 b) (fld 9 6 b) (fld 3 6 b) (fld 16 6 x) (fld 10 6 x))
  | 0x08 => some (.linkRed t (fld 15 5 b) (fld 9 6 b) (fld 3 6 b) (fld 16 6 x) (fld 10 6 x) (fld 1 1 x == 1) (fld 0 1 x == 1))
  | 0x09 => some (.migr t (fld 9 6 b) (fld 3 6 b) (fld 16 6 x) (fld 10 6 x))
  | 0x10 => match (fld 0 1 b).toNat with
    | 0 => some (.badd t (fld 9 6 b) (fld 3 6 b) (fld 16 6 x) (fld 10 6 x) (BTy.ofBits (fld 0 2 x)))
    | 1 => some (.baddStream t (fld 15 5 b) (fld 9 6 b) (fld 16 6 x) (fld 10 6 x) (BTy.ofBits (fld 0 2 x)))
    | _ => none
  | 0x11 => match (fld 0 1 b).toNat with
    | 0 => some (.band t (fld 9 6 b) (fld 3 6 b) (fld 16 6 x) (fld 10 6 x) (BTy.ofBits (fld 0 2 x)))
    | 1 => some (.bandStream t (fld 15 5 b) (fld 9 6 b) (fld 16 6 x) (fld 10 6 x) (BTy.ofBits (fld 0 2 x)))
    | _ => none
  | 0x12 => match (fld 0 1 b).toNat with
    | 0 => some (.bor t (fld 9 6 b) (fld 3 6 b) (fld 16 6 x) (fld 10 6 x) (BTy.ofBits (fld 0 2 x)))
    | 1 => some (.borStream t (fld 15 5 b) (fld 9 6 b) (fld 16 6 x) (fld 10 6 x) (BTy.ofBits (fld 0 2 x)))
    | _ => none
  | 0x13 => match (fld 0 1 b).toNat with
    | 0 => some (.bxor t (fld 9 6 b) (fld 3 6 b) (fld 16 6 x) (fld 10 6 x) (BTy.ofBits (fld 0 2 x)))
    | 1 => some (.bxorStream t (fld 15 5 b) (fld 9 6 b) (fld 16 6 x) (fld 10 6 x) (BTy.ofBits (fld 0 2 x)))
    | _ => none
  | 0x14 => match (fld 0 1 b).toNat with
    | 0 => some (.bmin t (fld 9 6 b) (fld 3 6 b) (fld 16 6 x) (fld 10 6 x) (BTy.ofBits (fld 0 2 x)))
    | 1 => some (.bminStream t (fld 15 5 b) (fld 9 6 b) (fld 16 6 x) (fld 10 6 x) (BTy.ofBits (fld 0 2 x)))
    | _ => none
  | 0x15 => match (fld 0 1 b).toNat with
    | 0 => some (.bmax t (fld 9 6 b) (fld 3 6 b) (fld 16 6 x) (fld 10 6 x) (BTy.ofBits (fld 0 2 x)))
    | 1 => some (.bmaxStream t (fld 15 5 b) (fld 9 6 b) (fld 16 6 x) (fld 10 6 x) (BTy.ofBits (fld 0 2 x)))
    | _ => none
  | 0x16 => match (fld 0 1 b).toNat with
    | 0 => some (.bminn t (fld 9 6 b) (fld 3 6 b) (fld 16 6 x) (fld 10 6 x) (BTy.ofBits (fld 0 2 x)))
    | 1 => some (.bminnStream t (fld 15 5 b) (fld 9 6 b) (fld 16 6 x) (fld 10 6 x) (BTy.ofBits (fld 0 2 x)))
    | _ => none
  | 0x17 => match (fld 0 1 b).toNat with
    | 0 => some (.bmaxn t (fld 9 6 b) (fld 3 6 b) (fld 16 6 x) (fld 10 6 x) (BTy.ofBits (fld 0 2 x)))
    | 1 => some (.bmaxnStream t (fld 15 5 b) (fld 9 6 b) (fld 16 6 x) (fld 10 6 x) (BTy.ofBits (fld 0 2 x)))
    | _ => none
  | 0x18 => match (fld 0 1 b).toNat with
    | 0 => some (.bfmin t (fld 9 6 b) (fld 3 6 b) (fld 16 6 x) (fld 10 6 x))
    | 1 => some (.bfminStream t (fld 15 5 b) (fld 9 6 b) (fld 16 6 x) (fld 10 6 x))
    | _ => none
  | 0x19 => match (fld 0 1 b).toNat with
    | 0 => some (.bfmax t (fld 9 6 b) (fld 3 6 b) (fld 16 6 x) (fld 10 6 x))
    | 1 => some (.bfmaxStream t (fld 15 5 b) (fld 9 6 b) (fld 16 6 x) (fld 10 6 x))
    | _ => none
  | 0x1A => match (fld 0 1 b).toNat with
    | 0 => some (.bmaxi t (fld 9 6 b) (fld 3 6 b) (fld 16 6 x) (fld 10 6 x))
    | 1 => some (.bmaxiStream t (fld 15 5 b) (fld 9 6 b) (fld 3 6 b) (fld 16 6 x) (fld 10 6 x))
    | _ => none
  | 0x1B => match (fld 0 1 b).toNat with
    | 0 => some (.bxadd t (fld 9 6 b) (fld 3 6 b) (fld 16 6 x) (fld 10 6 x))
    | 1 => some (.bxaddStream t (fld 15 5 b) (fld 9 6 b) (fld 16 6 x) (fld 10 6 x))
    | _ => none
  | 0x1C => match (fld 0 1 b).toNat with
    | 0 => some (.bxrd t (fld 9 6 b) (fld 22 6 x) (fld 16 6 x) (fld 10 6 x) (fld 2 1 x == 1))
    | 1 => some (.bxrdStream t (fld 15 5 b) (fld 9 6 b) (fld 16 6 x) (fld 10 6 x) (fld 2 1 x == 1))
    | _ => none
  | 0x1D => match (fld 0 1 b).toNat with
    | 0 => some (.bfaa t (fld 9 6 b) (fld 3 6 b) (fld 22 6 x) (fld 16 6 x) (fld 10 6 x) (BTy.ofBits (fld 0 2 x)))
    | 1 => some (.bfaaStream t (fld 15 5 b) (fld 9 6 b) (fld 16 6 x) (fld 10 6 x) (BTy.ofBits (fld 0 2 x)))
    | _ => none
  | 0x1E => some (.bcas t (fld 9 6 b) (fld 3 6 b) (fld 22 6 x) (fld 16 6 x) (fld 10 6 x) (BTy.ofBits (fld 0 2 x)))
  | 0x1F => match (fld 0 1 b).toNat with
    | 0 => some (.bld t (fld 9 6 b) (fld 22 6 x) (fld 16 6 x) (fld 10 6 x) (BTy.ofBits (fld 0 2 x)))
    | 1 => some (.bldStream t (fld 15 5 b) (fld 9 6 b) (fld 16 6 x) (fld 10 6 x) (BTy.ofBits (fld 0 2 x)))
    | _ => none
  | 0x20 => match (fld 0 1 b).toNat with
    | 0 => some (.bst t (fld 9 6 b) (fld 3 6 b) (fld 16 6 x) (fld 10 6 x) (BTy.ofBits (fld 0 2 x)))
    | 1 => some (.bstStream t (fld 15 5 b) (fld 9 6 b) (fld 16 6 x) (fld 10 6 x) (BTy.ofBits (fld 0 2 x)))
    | _ => none
  | 0x21 => match (fld 0 1 b).toNat with
    | 0 => some (.bhist t (fld 9 6 b) (fld 3 6 b) (fld 16 6 x) (fld 10 6 x))
    | 1 => some (.bhistStream t (fld 15 5 b) (fld 9 6 b) (fld 3 6 b) (fld 16 6 x) (fld 10 6 x) (fld 4 5 x))
    | _ => none
  | 0x22 => some (.bpfx t (fld 9 6 b) (fld 3 6 b) (fld 22 6 x) (fld 16 6 x) (fld 10 6 x))
  | 0x23 => match (fld 0 1 b).toNat with
    | 0 => some (.baxpy t (fld 9 6 b) (fld 3 6 b) (fld 22 6 x) (fld 16 6 x) (fld 10 6 x) (BTy.ofBits (fld 0 2 x)))
    | 1 => some (.baxpyStream t (fld 15 5 b) (fld 9 6 b) (fld 22 6 x) (fld 16 6 x) (fld 10 6 x) (BTy.ofBits (fld 0 2 x)))
    | _ => none
  | _ => none

/-- Bits 31:28 of a first word (R44). -/
def Tok.bits (t : Tok) : BitVec 4 := bit t.wp ++ bit t.wn ++ bit t.sp ++ bit t.sn
/-- Bits 31:28 of a first word (R44). -/
def Tok.ofBits (b : BitVec 4) : Tok :=
  ⟨fld 3 1 b == 1, fld 2 1 b == 1, fld 1 1 b == 1, fld 0 1 b == 1⟩

/-- The first word of an instruction (R44). -/
def encode0 (i : Instr) : BitVec 32 := (tokOf i).bits ++ opOf i ++ encBody i
/-- The second word of a wide instruction; its bits 31:28 are 0 (R45). -/
def encode1 (i : Instr) : Option (BitVec 32) := (encSecond i).map fun x => 0#4 ++ x
/-- The words of an instruction, in address order (R45); an event has none. -/
def encode (i : Instr) : List (BitVec 32) := if i.isEvent then [] else encode0 i :: (encode1 i).toList

/-- (Q, OP) is assigned and wide (R60): MOVI, MOVHI, WAITA, PWR.DECL, SPEC.BEGIN, MMA to RDACC, RELAX, RELAX.B, ACCEPT,
and every assigned LD and ST opcode. `none` for an unassigned pair. -/
def wideOf (w0 : BitVec 32) : Option Bool :=
  let op := (fld 20 6 w0).toNat
  match (fld 26 2 w0).toNat with
  | 0 => if op = 0x07 ∨ 0x3B ≤ op then none
         else some (op = 0x10 ∨ op = 0x11 ∨ op = 0x27 ∨ op = 0x33 ∨ op = 0x36)
  | 1 => if op ≤ 0x08 then some true else none
  | 2 => if op = 0x25 ∨ 0x3A ≤ op then none
         else some ((0x30 ≤ op ∧ op ≤ 0x33) ∨ op = 0x35 ∨ op = 0x36 ∨ op = 0x39)
  | _ => if op ≤ 0x09 ∨ (0x10 ≤ op ∧ op ≤ 0x23) then some true else none

/-- The fields of the words, by the opcode map; reserved bits are not looked at. -/
def fieldsOf (w0 w1 : BitVec 32) : Option Instr :=
  let t := Tok.ofBits (fld 28 4 w0)
  let op := (fld 20 6 w0).toNat
  let b : BitVec 20 := fld 0 20 w0
  let x : BitVec 28 := fld 0 28 w1
  match (fld 26 2 w0).toNat with
  | 0 => fieldsFE op t b x
  | 1 => fieldsLD op t b x
  | 2 => fieldsEX op t b x
  | _ => fieldsST op t b x

/-- The instruction whose first word is w0 and, when it is wide, whose second word is w1 (R60); `none` is the fate
ILLEGAL. The second word of a one-word instruction is not looked at. -/
def decode (w0 w1 : BitVec 32) : Option Instr :=
  match fieldsOf w0 w1 with
  | some i => if i.wf && encode0 i == w0 && ((encode1 i).all (· == w1)) then some i else none
  | none => none

/-- The size in bytes of an instruction (R45). -/
def Instr.size (i : Instr) : Nat := if (encSecond i).isSome then 8 else 4

/-- A 32-bit word from its four bytes in address order (R5, R45). -/
def wordOfBytes : List Byte → BitVec 32
  | [b0, b1, b2, b3] => b3 ++ b2 ++ b1 ++ b0
  | _ => 0
/-- The four bytes of a word in address order (R5). -/
def bytesOfWord (w : BitVec 32) : List Byte := [fld 0 8 w, fld 8 8 w, fld 16 8 w, fld 24 8 w]

/-- Decoding of the eight bytes at an instruction's address: total on any bytes. -/
def decodeBytes (bs : List Byte) : Option Instr :=
  decode (wordOfBytes (bs.take 4)) (wordOfBytes ((bs.drop 4).take 4))

/-- The two words that a table word stands for: the first word is bits 31:0, the second bits 63:32, and every bit above
nbits is 0. -/
def tableWords (nbits w : Nat) : BitVec 32 × BitVec 32 :=
  let v := w % 2 ^ nbits
  (BitVec.ofNat 32 v, BitVec.ofNat 32 (v / 2 ^ 32))

/-- The bytes of a table word, as the machine stores them (R45). -/
def tableBytes (nbits w : Nat) : List Byte :=
  bytesOfWord (tableWords nbits w).1 ++ bytesOfWord (tableWords nbits w).2

/-- The instruction the decoder reads from a table word. -/
def decodeTableWord (nbits w : Nat) : Option Instr := decodeBytes (tableBytes nbits w)

end Sys2Proof
end

