-- ==== Sys2Proof/Config.lean ====
section
/-!
DEFINITION. Sys2Proof/Config.lean: what one package fixes and the spec leaves open. Every constant here is opaque: no
proof can see its value, so whatever is proved holds for every value of it.
-/

namespace Sys2Proof.Config

/-- The free values: the n-th value the machine draws where the spec states no value (log entry 3). -/
opaque freeValue : Nat → W64
/-- The scale word's S of a block whose S by R85 lies outside 0 to 511, which R85 does not state (log entry 79). -/
opaque scaleBeyond : Int → BitVec 9
/-- The scale S of a 32-element block that takes elements of blocks with these scales, not all the same, unchanged, which R179 and
R186 do not state (log entry 12). -/
opaque mixedScale : List Nat → BitVec 9
/-- How many granules of a multicast reach a destination before its write path reports an uncorrectable error (R190); none when it
reports none. By what names the multicast whatever the schedule, its launch, unit, address and operands, and by the destination core
(log entry 96). -/
opaque pathLands : List Nat → Nat → Option Nat
/-- SERIAL and REV of PKG.ID, fused into the package (R422). -/
opaque pkgSerial : BitVec 32
/-- See `pkgSerial`. -/
opaque pkgRev : BitVec 8
/-- SHA-384 (R389, R390); its definition is outside the spec (log entry 7). -/
opaque sha384 : List Byte → BitVec 384
/-- Whether an ECDSA P-384 signature verifies: public key, digest, signature (R389; log entry 7). -/
opaque ecdsaVerify : List Byte → BitVec 384 → List Byte → Bool
/-- The signature of the device identity key over a digest, r and s, 96 bytes (R391, R392; log entry 7). -/
opaque deviceSign : BitVec 384 → BitVec 768
/-- The public half of the device identity key, 48-byte X and 48-byte Y (R391, R405). -/
opaque devicePub : BitVec 768
/-- The vendor certificate held in the boot flash, at most 3,984 bytes (R391, R405). -/
opaque vendorCert : List Byte
/-- The two key digests fused into the die (R389). -/
opaque keyDigest : Bool → BitVec 384
/-- A firmware image is a body, a signature and a key; the spec gives no layout, so the parts are read by opaque functions
(R389; log entry 8). -/
opaque imageBody : List Byte → List Byte
/-- See `imageBody`. -/
opaque imageSig : List Byte → List Byte
/-- See `imageBody`. -/
opaque imageKey : List Byte → List Byte
/-- The security version of an image (R389). -/
opaque imageSvn : List Byte → Nat
/-- The firmware version of an image (R422). -/
opaque imageVer : List Byte → BitVec 32
/-- The runtime image that a firmware image carries (R390). -/
opaque imageRuntime : List Byte → List Byte
/-- The ROM's own version record (R390). -/
opaque romRecord : List Byte
/-- The configuration as the runtime serialises it for M(3), of the words that make it up (R390; log entry 8). -/
opaque configRecord : List Nat → List Byte
/-- The contents of a boot flash slot, A or B (R389). -/
opaque flashSlot : Bool → List Byte
/-- The HBM stacks that fail training at boot (R389). -/
opaque badStacks : List Nat
/-- The channels that fail training at boot, by stack and channel of the stack (R389). -/
opaque badChannels : List (Nat × Nat)
/-- The far tier fails training at boot (R389). -/
opaque badFar : Bool
/-- Clusters out of service (R14). -/
opaque deadClusters : List Nat
/-- Link ports that are retired or uncabled (R412). -/
opaque deadPort : Nat → Bool
/-- The link slot counter's value at package reset, from the domain's epoch (R408). -/
opaque lscBase : Nat

end Sys2Proof.Config
end

