-- ==== Sys2Proof/Machine/State.lean ====
section
/-!
DEFINITION. Sys2Proof/Machine/State.lean: everything the spec gives the machine, as plain data, and the machine right
after package reset. Registers of one kind are held in a list of (number, value) pairs with rising numbers, an unlisted
number standing at its reset value; memories are lists of cells in the same form. The file of rules that names each
piece stands in its docstring; INVENTORY.md lists all of them with their reset values.
-/

namespace Sys2Proof.Machine
open Sys2Proof

/-- A list of (key, value) pairs with rising keys; the operations are in Machine/Maps.lean. -/
abbrev Map (α : Type) := List (Nat × α)
/-- Bytes by address; an unlisted address reads as 0 (log entry 1). -/
abbrev Mem := List Host.Cell

/-- Who raises it: translation, when a segment or a table entry places an access at a physical address that R290 leaves
unpopulated. Safe: the machine stops where the spec gives no memory. -/
inductive Fault where
  | unpopulated (pa : Nat)
  deriving DecidableEq, Repr

/-- Who raises it: the dispatch of an instruction without a meaning. Safe: nothing is claimed of it. -/
inductive Refusal where
  | notModelled (mnemonic : String)
  deriving DecidableEq, Repr

/-- An exact value of the pseudocode (R8, R76): a real as a signed quotient of naturals (a zero keeps its sign), an
infinity or a NaN. -/
inductive Ex where
  | nan
  | inf (neg : Bool)
  | fin (neg : Bool) (num den : Nat)
  deriving DecidableEq, Repr

/-- Registers of one core: s1 to s63 (R28), the handles (R29), spill memory (R33), the special registers by number
(R61), and PCFE, the address of the next instruction the FE fetches (R21). -/
structure Regs where
  s     : Map W64
  h     : Map W256
  spill : Map W64
  sr    : Map W64
  pc    : W64
  deriving DecidableEq, Repr

/-- A scratchpad (R34): its bytes, the granules whose full/empty bit is full (R35), and the layout tags of its 4 KiB
pages (R140). -/
structure Pad where
  mem  : Mem
  full : List Nat
  tags : Map (BitVec 2)
  deriving DecidableEq, Repr

/-- The vector state of the EX (R141, R157, R161, R144): entries 1 to 15 of the mask stack, DEPTH, CMK, the exact vector
register F with its status bits, the maximum pairs (value bits, index), the skip counter, and the first cycle in which each
interlocked object may be read: 0 mask stack, 1 CMK, 2 XR, 3 AMX, 4 row anchors, 5 TK, 6 AHR (R142, R203, R318). -/
structure VecSt where
  stack : Map W256
  depth : Nat
  cmk   : W256
  xrF   : Int
  xrSt  : BitVec 4
  amx   : Map (BitVec 32 × BitVec 32)
  skip  : Nat
  rdy   : Map Nat
  deriving DecidableEq, Repr

/-- One accumulator element (R86): its three residues and the check residue. -/
structure Elem where
  c1 : Nat
  c2 : Nat
  c3 : Nat
  c4 : Nat
  deriving DecidableEq, Repr

/-- One side of a chain (R205, R206): the entry width and whether the class is integer. -/
structure Side where
  w   : Nat
  int : Bool
  deriving DecidableEq, Repr

/-- An accumulator tile (R205). `el` is keyed by row × 128 + column. `busy` lists the instructions that own it (R208), oldest first:
the first cycle in which each no longer does, its address, and whether it is an MMA of the chain. -/
structure Tile where
  el     : Map Elem
  terms  : Nat
  w      : Nat
  sides  : Option (Side × Side)
  xa     : Map Int
  xb     : Map Int
  rnf    : List Nat
  cnf    : List Nat
  busy   : List (Nat × W64 × Bool)
  deriving DecidableEq, Repr

/-- One batch row of a RELAX (R224, R228, R240): whether it takes part, is active and has retired by tolerance, its
count, its last residual (none before the first iteration) and its last v. -/
structure RelaxRow where
  takesPart : Bool
  active    : Bool
  settled   : Bool
  count     : Nat
  res       : Option Ex
  lastV     : List (BitVec 32)
  deriving DecidableEq, Repr

/-- The progress of a RELAX or RELAX.B (R238, R240): its rows, the latched settings, whether it runs and whether NONCONV stopped
it, whether the beats of its next iteration are charged (R376), the flags of its roundings since the last stop (R242), and, while
Finish takes its cycles (R237), whether clearing PEND led there (R230). -/
structure RelaxProg where
  rows    : List RelaxRow
  lo      : BitVec 32
  hi      : BitVec 32
  mode    : Nat
  xz      : Int
  auto    : Bool
  started : Bool
  stopped : Bool
  paid    : Bool
  fl      : BitVec 5
  fin     : Option Bool
  deriving DecidableEq, Repr

/-- A copy under way (R171): the acts it has done, each a part, or a granule of its source or destination; the segments it has
entered, each with its latched entry (R312); its flags so far; the row indices it has read (R185, R320), or what a port queue or a
link gave it; the elements it has read, as bits and block scale; the lines or granules it has read them from, by number; and the
64-byte granules it lands in (R36). -/
structure Moving where
  n     : Nat := 0
  segs  : List Nat := []
  fl    : BitVec 5 := 0
  rows  : List Nat := []
  vals  : List (Nat × Nat) := []
  stash : Map Nat := []
  gs    : List Nat := []
  deriving DecidableEq, Repr

/-- How far the instruction of a queue entry has come (R250): a vector instruction's repetitions still to run with the flags of those done, and
the scratchpad as the repetition that waits to write has read it (R35, R147), a copy under way, a bank operation's elements (place, address, operand) not yet sent
and sent but not yet performed, with what they returned and raised (R296), or a RELAX's
progress (R240); `broken`: an uncorrectable word of the queue holds it (R419). A remote copy whose source has been read is `shipped`, with
its flags and whether its flag word has joined its channels (R280). A copy all of whose bytes have landed, in the granules given, but
which waits for older commands is `landed` (R173), a LINK.RECV without a transfer is `await` (R418), and an ST.NET that has its slot but
has been set back is `claimed` (R193). -/
inductive Mark where
  | fresh
  | reps (left : Nat) (fl : BitVec 5) (seen : Option Mem)
  | copy (m : Moving)
  | bank (unsent pending : List (Nat × W64 × W64)) (rets : Map W64) (fails : List ((Nat × W64 × W64) × Stop)) (segs : List Nat)
  | shipped (left : Nat)
  | slotted (q : Nat)
  | landed (gs : List Nat)
  | await
  | claimed (rows : List Nat)
  | relax (p : RelaxProg)
  | broken
  deriving DecidableEq, Repr

/-- A queue entry (R20, R250): the instruction with physical handle numbers, its address, the scalar values and handle
images read at routing (R22), whether its waits are satisfied (R24), its resume mark, the ticket of its power tag
(R375), the lane of LTAG at routing (R353), the cycle in which it was routed, of a bank operation of class O the count of events
at which its first element was sent (R341), and whether one bit of its word has failed (R419). -/
structure Entry where
  i      : Instr
  pc     : W64
  sv     : List W64
  hv     : List W256
  waited : Bool
  mark   : Mark
  tag    : Nat
  lane   : Nat
  routed : Nat
  lc     : Nat := 0
  weak   : Bool := false
  deriving DecidableEq, Repr

/-- A write that is not yet due: of a static region, a scalar, a handle, scratchpad bytes or half a byte (R37, R39); in either region, the
flags of STAT and of MX.STAT that an instruction sets in the cycle in which it completes (R43, R210). -/
inductive DueWr where
  | s (d : Sreg) (v : W64)
  | h (n : Hreg) (v : W256)
  | mem (addr : Nat) (bs : List Byte)
  | nib (a2 : Nat) (v : Nat)
  | flags (f : BitVec 5)
  | mx (f : BitVec 4)
  deriving DecidableEq, Repr

/-- See `DueWr`, with the first cycle whose instructions see it; `strm` is the stream whose instruction writes it. -/
structure Due where
  due  : Nat
  strm : Strm
  wr   : DueWr
  deriving DecidableEq, Repr

/-- Queues, tokens and engine clocks of a core (R20, R23, R26): the three instruction queues, the token queues as the
cycles from which each token can be taken, the signal latches with the cycle from which the held token could have been taken,
the cycle in which each queue last lost a token, whether a schedule holds an engine back, and the cycle in which each engine may
start its next instruction. `cyc` is the FE's cycle. The writes that are not yet due stand in the order in which they are due.
`satisfied`: the FE instruction at PCFE has taken its tokens (R24). `sBusy` and `hBusy` give, for a scalar an engine writes (R22)
and a handle an engine uses as a stream, the first cycle in which the FE may name it. `flight` holds the commands of LD and ST that have left their queue and are not complete: bank operations and remote copies on their way
(R280), copies that wait for older commands (R173), and a LINK.RECV that waits for its transfer (R418); `left` the instructions that leave a queue in a later cycle, with the entries they take
until then (R20), and `exFin` is the first cycle in which everything that the EX has started is complete. -/
structure Engines where
  ld     : List Entry
  ex     : List Entry
  st     : List Entry
  toks   : Map (List Nat)
  latch  : Map Nat
  taken  : Map Nat
  holdLd : Bool
  holdEx : Bool
  holdSt : Bool
  cyc    : Nat
  ldAt   : Nat
  exAt   : Nat
  stAt   : Nat
  due    : List Due
  satisfied : Bool
  sBusy  : Map Nat
  hBusy  : Map Nat
  flight : List Entry
  left   : List (Eng × Nat × Nat)
  exFin  : Nat
  deriving DecidableEq, Repr

/-- What a program trap sets aside (R255): the queues, tokens, latches and region. -/
structure Frame where
  eng    : Engines
  region : Bool
  deriving DecidableEq, Repr

/-- The states of a speculative region (R348). -/
inductive SpecSt where | closed | guessing | body
  deriving DecidableEq, Repr

/-- A held command (R357): its lane, its entry, what its part raised, the rows it was given (R185, R359), and the bytes, by lane and
address, that younger stores of the region have written since (R278, R355). -/
structure Held where
  lane : Nat
  e    : Entry
  x    : Stop
  rows : List Nat
  newer : List (Nat × Nat)
  deriving DecidableEq, Repr

/-- The speculation state of a core beside its registers (R348, R355 to R359): the state, the green sets by lane, the
held commands in routing order, the deferral entries by lane in routing order (an entry without an instruction only takes
room), the number of deferral entries of each lane, and the open descriptors (physical address, virtual address). -/
structure Spec where
  st    : SpecSt
  green : Map (List (Nat × Byte))
  held  : List Held
  defer : List (Nat × Entry)
  room  : Map Nat
  descs : List (Nat × W64)
  deriving DecidableEq, Repr

/-- A power declaration (R370, R383, R387): serial, intensity, beats left, locally granted start granule, whether it has been
acquired, whether it is outstanding, its collective group and ordinal (0 none), its own offer (0 not made), whether it
goes on alone for want of a grant record, the count it holds alone for want of an offer record (0 none), and the cycle in which the
occupancy of its last beat ends (0 while beats are left, R373). -/
structure Decl where
  serial : Nat
  int    : Nat
  beats  : Nat
  start  : Nat
  active : Bool
  out    : Bool
  coll   : Nat
  collK  : Nat
  offer  : Nat
  alone  : Bool
  count  : Nat
  doneAt : Nat
  deriving DecidableEq, Repr

/-- Why a core's FE sleeps (R120, R122, R374), with the token bits that act at the return: WAITA with its address, space,
condition and limit, PWR.ACQ until a granule, PWR.DECL until the cluster's sum admits it. `hit` records that the watched
condition has held, `forced` that replay lets only the condition end the wait (R343). -/
inductive Sleep where
  | awake
  | waita (tok : Tok) (d : Sreg) (addr : W64) (pad : Bool) (pa : Nat) (v : W64) (cond : Cond) (t : W64) (start : Nat) (hit forced : Bool)
  | acq (tok : Tok) (serial : Nat)
  | decl (tok : Tok) (d : Sreg) (onset int len : Nat)
  deriving DecidableEq, Repr

/-- What a core is doing (R131, R262, R266, R389): held in reset before the release of the dies, halted, free after a
unit's end, running a unit, parked, or stopped for a swap. `drain` is a running unit whose DONE or HALT waits for its
engines (R18). -/
inductive Mode where | unreleased | halted | free | running | drain (halt : Bool) | parked | swapped
  deriving DecidableEq, Repr

/-- What a core's streams stop for (R247, R249): a cause, a partition swap, a pre-emption, or the end of a persistent unit that an
abort line cancels. -/
inductive Halting where
  | cause (x : Stop)
  | swap
  | preempt
  | cancel
  deriving DecidableEq, Repr

/-- The unit a core runs (R117, R124, R125): its launch's identifier and ordinal, the phase of its launch's creator, its own ordinal, its attempt, whether it
is persistent and privileged, the launches its attempt has created, those held for DONE, its order-revealing events
(R341), whether its own abort line is asserted, whether it has reported at the phase's
boundary, and the phase that its PHASE in progress has reported in (R122). -/
structure Running where
  launch  : W64
  born    : Nat
  ordinal : Nat
  unit    : Nat
  attempt : Nat
  pers    : Bool
  priv    : Bool
  created : Nat
  events  : Nat
  aborted : Bool
  reported : Bool
  phaseAt : Option Nat
  deriving DecidableEq, Repr

/-- A granule's worth of a remote copy in its channel (R284): the runs of half-bytes it writes in the destination's scratchpad
(half-byte address, number, value), with the layout tag to set, whether the issuer's region was interlocked and whether the
destination handle is tracked (R35); or a flag double, which has no tag. `ser` is the cycle in which its command was routed. -/
structure ChanEl where
  ser   : Nat
  ws    : List (Nat × Nat × Nat)
  tag   : Option (BitVec 2)
  inter : Bool
  fet   : Bool
  deriving DecidableEq, Repr

/-- A control core (R13, R16). Tiles and row anchors (R203, R205), the top-k state (R318), AHR (R232), the pending set of
its unit (R276), and the translations its TLB holds (R307): data and instruction entries by identifier and page. `halting`: the
streams stop, and what has begun in them is not complete yet (R247). `bad` and `weak`: the uncorrectable words of its arrays and those
with one failed bit (R419); `ce`: the corrections that its readers have made, which count in its cluster's ERR.CE (R421). `inbox`: what
remote copies have in their channels for its scratchpad, by the issuing core (R284). `ff`: FF.FE, FF.LD, FF.EX and FF.ST as they were
before a swap recorded its own there (R266). -/
structure Core where
  r     : Regs
  pad   : Pad
  v     : VecSt
  acc0  : Tile
  acc1  : Tile
  anch  : Map Int
  tk    : Map (List (BitVec 32 × BitVec 32))
  ahr   : Map (List (BitVec 32))
  eng   : Engines
  frame : Option Frame
  spec  : Spec
  decls : List Decl
  nextSerial : Nat
  undecl : Nat
  enrHi : BitVec 32
  mode  : Mode
  halting : Option Halting
  sleep : Sleep
  run   : Option Running
  pend  : List (Nat × Byte)
  tlb   : List ((Nat × Nat) × W64)
  itlb  : List ((Nat × Nat) × W64)
  bad   : List ProtWord
  weak  : List ProtWord
  ce    : Nat
  ff    : List W64
  inbox : Map (List ChanEl)
  deriving DecidableEq, Repr

/-- A glaze slot descriptor with its column anchors (R200). `busy` lists the instructions that own it (R202): the first cycle in
which each no longer does, its address and its core. -/
structure Slot where
  fmt    : Nat
  panels : Nat
  depth  : Nat
  off    : Nat
  anch   : Map Int
  busy   : List (Nat × W64 × Nat)
  deriving DecidableEq, Repr

/-- A cluster (R13): its slots, its column stacks below the shadow regions, the array lease (holder, what is left of its grant,
last holder, waiting cores, the cycle from which the array is free, R195 to R197), its undeclared throttle with the cycle in which it
ends, and the occupancies yet to begin that will turn it on, each with the cycle until which it then lasts (R377), the pulse count of its present period (R367), its power gate (R369) with the cycle from which it counts, and its error
counts (R422). -/
structure Cluster where
  slots    : Map Slot
  cols     : Map Mem
  holder   : Option Nat
  left     : Nat
  last     : Nat
  waiting  : List Nat
  arrayAt  : Nat
  und      : Bool
  undTo    : Nat
  undFrom  : List (Nat × Nat)
  pulse    : Nat
  gated    : Bool
  waking   : Bool
  idleFrom : Nat
  ce       : Nat
  ue       : Nat
  deriving DecidableEq, Repr

/-- A die (R367, R372, R380): its master clock, the intensity sums granted by granule, the sag count, the hold with the cycle
of the last sag, its registers (the slot table), and writes that wait for the next slot boundary. -/
structure Die where
  cyc   : Nat
  sums  : Map Nat
  sagn  : Nat
  sag   : Bool
  sagAt : Nat
  slt   : Map W64
  later : List (Nat × W64)
  ce    : Nat
  deriving DecidableEq, Repr

/-- A loop-nest record as its eight doubles (R322) with its address. -/
structure Record where
  addr : W64
  d    : List W64
  deriving DecidableEq, Repr

/-- A unit that went back to its launch queue (R261, R265): ready, or held until released. -/
structure Requeued where
  unit    : Nat
  attempt : Nat
  ready   : Bool
  deriving DecidableEq, Repr

/-- A launch of the open or the next phase (R324 to R334): identifier, the phase of its creator's launch modulo 2^16, which tells it from
another launch of the same identifier (log entry 106), phase, launch ordinal, record, graph, creator
privilege, whether it has entered its queue, the tiles its counts gave (R327), the next unit not yet created, re-queued
units, units running, its abort line, unit-form cancellations not yet met, the undeclared beats of its ended attempts
(R377), whether it has ended, the unit whose running attempt still holds it, by its launch and ordinal, and whether that attempt has
gone, so that it is known only for the attempt that follows (R125, R126). -/
structure Launch where
  id      : W64
  born    : Nat
  phase   : Nat
  ord     : Nat
  rc      : Record
  graph   : W64
  queued  : Bool
  tiles   : Option (List Nat)
  next    : Nat
  requeue : List Requeued
  running : Nat
  aborted : Bool
  dropped : List Nat
  undecl  : Nat
  ended   : Bool
  held    : Option (W64 × Nat × Nat)
  gone    : Bool
  deriving DecidableEq, Repr

/-- A held or parked unit that a fault record names (R259, R264). -/
structure FaultRec where
  seq     : Nat
  launch  : W64
  born    : Nat
  unit    : Nat
  core    : Nat
  parked  : Bool
  deriving DecidableEq, Repr

/-- What tells an agent from the others of a partition: the writer key (R277), with the phase of its unit's launch, which separates a
persistent unit from a unit of a later phase with the same ordinals (log entry 108). -/
abbrev AgentKey := Nat × Nat × Nat × Nat
/-- A pending set with its writer key (R277, R279). -/
structure EndedSet where
  key   : AgentKey
  bytes : List (Nat × Byte)
  deriving DecidableEq, Repr

/-- A collective group entry of a partition (R424) with the records received (R425) and the declarations made. -/
structure Group where
  cfg   : W64
  route : W64
  made  : Nat
  recs  : List CollRec
  deriving DecidableEq, Repr

/-- How the dispatcher changes a counter (R332, R377): a unit is done, n units failed or were cancelled, undeclared beats, the end of the
launch, or a plain count. -/
inductive CtrOp where
  | done
  | cancel (n : Nat)
  | undecl (n : Nat)
  | finish
  | rise
  deriving DecidableEq, Repr

/-- What the dispatcher writes for a partition (R260, R332, R342): a counter, a fault record with the unit it names, or an entry of the
order log at its address. It waits while a segment that it needs is held (R307, R311). -/
inductive Duty where
  | ctr (va launch : W64) (op : CtrOp)
  | record (ds : List W64) (unit : Option FaultRec)
  | log (va : W64) (d0 d1 : W64)
  deriving DecidableEq, Repr

/-- A partition (R279, R329 to R337, R344): its clusters and registers, its job, phase and snapshot, whether the phase
opened with a persistent unit in it, the pending sets of
application cores and root ports, the ended sets, the reserve lines charged with the agents that charged them (R288), its
launches, the dispatcher's pointers, its fault records, its abort lines, launches accepted and events logged by
application core, the order log's mode in force, saved tenants' cores (R267, R268), its collective groups, register
writes that wait for a slot boundary, whether it has told the runtime of lost fault records and of lost log entries (R260,
R344), and what its dispatcher has still to write (R311). -/
structure Part where
  clusters : List Nat
  sr       : Map W64
  later    : List (Nat × W64)
  job      : W64
  phase    : Nat
  closing  : Bool
  carried  : Bool
  snap     : Mem
  acPend   : Map (List (Nat × Byte))
  portPend : Map (List (Nat × Byte))
  ended    : List EndedSet
  charges  : Map (List AgentKey)
  launches : List Launch
  rrp      : Map Nat
  spp      : Nat
  recs     : List FaultRec
  abJob    : Bool
  abPhases : List Nat
  abGraphs : List W64
  acMade   : Map Nat
  acEvents : Map Nat
  logMode  : Nat
  tenant   : Nat
  saved    : Map (List (Nat × Core))
  groups   : Map Group
  fqTold   : Bool
  logTold  : Bool
  duties   : List Duty
  deriving DecidableEq, Repr

/-- The operations a bank performs (R297). -/
inductive BOp where
  | add | band | bor | bxor | min | max | minn | maxn | fmin | fmax | maxi | xadd | xrd | faa | cas | bld | bst
  | hist | pfx | axpy
  deriving DecidableEq, Repr

/-- A bank operation on one word in a bank's FIFO (R279, R280): the issuing core, or 256 + the application core, and its
partition; the element's place in its stream and the cycle in which its instruction was routed, which tells it from the core's
others; the count of its core's events at which it was sent (R341); the word's physical and virtual address; the operation with its type, CLR
and operands; the value that replay forces it to return (R301). -/
structure BankReq where
  agent : Nat
  part  : Nat
  idx   : Nat
  ser   : Nat
  lc    : Nat
  pa    : Nat
  va    : W64
  op    : BOp
  ty    : BTy
  clr   : Bool
  x     : W64
  e     : W64
  logged : Option W64
  deriving DecidableEq, Repr

/-- A bank port's operation that waits to be sent, with its operands (R399). -/
structure BpWait where
  op  : BOp
  ty  : BitVec 2
  clr : Bool
  va  : W64
  x   : W64
  e   : W64
  deriving DecidableEq, Repr

/-- An application core's window registers by offset (R398), the translations it holds, and the elements of its bank
port's operation that its banks have not yet performed, with what the others returned (R399) and the segments it has entered; and what
waits at its ports with BUSY set: the bank port's operation, the launch port's record address (R400) and the core whose CYC its
core-access port reads (R401). -/
structure AppCore where
  win : Map W64
  tlb : List ((Nat × Nat) × W64)
  pending : List Nat
  rets : Map W64
  segs : List Nat
  bpWait : Option BpWait
  lpWait : Option W64
  caWait : Option Nat
  deriving DecidableEq, Repr

/-- A plain store of an application core (kind 1) or a root port (kind 2) that waits (R285, R288): its partition and agent, its bytes by
physical address, the segments it has entered (R312), and whether the runtime has been told. -/
structure HeldWr where
  part  : Nat
  kind  : Nat
  no    : Nat
  bytes : List (Nat × Byte)
  segs  : List Nat
  told  : Bool
  deriving DecidableEq, Repr

/-- One of the three mailboxes (R404): its command, status and buffer. -/
structure Mailbox where
  cmd  : W64
  stat : W64
  buf  : Mem
  deriving DecidableEq, Repr

/-- Boot progress (R389): in the ROM, in recovery mode, or running. -/
inductive Boot where | rom | recovery | up
  deriving DecidableEq, Repr

/-- The Ikilith die (R389 to R407): boot state and measurement registers, the recovery image with its length, the fused
anti-rollback counter and revocation, the running versions, signed report count, the mailboxes, application cores,
the shared tables by window offset, host-queue staging, the SMBus pointer and what its last read returned, interrupts
raised to the runtime, the uncorrectable words that the scrubber reported (array and byte address), packets handed to cards, what the last DMA read or application-core load returned, the energy
counter, the temperature readings and the steps of the channel groups, the clusters out of service (R14), the stacks, the channels
(by stack and channel) and the far tier that failed training, the reserve-held writes, and the port queues that root ports have served, each
with its partition and its descriptor's virtual address (R394). -/
structure Ik where
  boot     : Boot
  m        : Map (BitVec 384)
  recovery : Mem
  recoveryLen : Nat
  antiRoll : Nat
  revoked  : List Nat
  svn      : BitVec 32
  ver      : BitVec 32
  reports  : Nat
  mb       : Map Mailbox
  ac       : Map AppCore
  shared   : Map W64
  stage    : Map Mem
  smbPtr   : Nat
  smbOut   : List Byte
  irqs     : List Nat
  ueReports : List (ProtArr × Nat)
  cards    : List (Nat × BitVec 32 × List Byte)
  dmaOut   : Option (List Byte)
  acOut    : List Byte
  hqMsi    : List Nat
  energy   : Nat
  temps    : Map Nat
  steps    : Map Nat
  retired  : List Nat
  deadStacks : List Nat
  deadChans : List (Nat × Nat)
  deadFar : Bool
  heldWr   : List HeldWr
  queues   : List (Nat × W64)
  deriving DecidableEq, Repr

/-- The link ports (R408 to R414): the slot counter, arrived transfers held by core, sends waiting for their slot by core,
transfers that left for other packages, schedule writes that wait for a boundary, and the collective records that wait for a port
and that left by it, each of these with its slot (R425). -/
structure Links where
  lsc    : Nat
  held   : Map (List LinkXfer)
  sends  : Map LinkXfer
  out    : List (Nat × LinkXfer)
  later  : List (Nat × Nat × W64)
  recs   : List (Nat × CollHop)
  recOut : List (Nat × Nat × CollHop)
  deriving DecidableEq, Repr

/-- What a schedule can ask for next: the FE of a core, or an event. -/
inductive Act1 where
  | run (c : Nat)
  | ev (i : Instr)
  deriving DecidableEq, Repr

/-- The package. `cur` is the core that moves, `turn` which of its streams comes next (0 FE, 1 LD, 2 EX, 3 ST), and `agenda`
what a schedule asks for before that; `lagBanks` and
`lagDeliver` leave bank operations in their FIFOs and remote copies in their channels until an event performs them; the
schedule is plain data by which the state says which agent moves (log entry 2); `onePart` lets a copy do one act only, while a
LOAD or LAND event runs. `badMem` and `weak` list the uncorrectable words of memory and of the glaze and those with one failed bit (R419). `free` counts the free values drawn (log
entry 3). -/
structure State where
  cur      : Nat
  turn     : Nat
  agenda   : List Act1
  lagBanks : Bool
  lagDeliver : Bool
  onePart  : Bool
  cores    : Map Core
  clusters : Map Cluster
  dies     : Map Die
  parts    : Map Part
  mem      : Mem
  badMem   : List ProtWord
  weak     : List ProtWord
  fifos    : Map (List BankReq)
  ik       : Ik
  links    : Links
  free     : Nat
  deriving DecidableEq, Repr

/-! ### The machine right after package reset -/

/-- Registers at reset: all at their reset values; PCFE 0 (log entry 4). -/
def Regs.reset : Regs := ⟨[], [], [], [], 0⟩
/-- A cleared scratchpad (R389 step 6). -/
def Pad.reset : Pad := ⟨[], [], []⟩
/-- R141, R157, R161. -/
def VecSt.reset : VecSt := ⟨[], 0, 0, 0, 0, [], 0, []⟩
/-- R205. -/
def Tile.reset : Tile := ⟨[], 0, 0, none, [], [], [], [], []⟩
/-- R16: queues and token queues empty, no signal held. -/
def Engines.reset : Engines := ⟨[], [], [], [], [], [], false, false, false, 0, 0, 0, 0, [], false, [], [], [], [], 0⟩
/-- R348: closed. -/
def Spec.reset : Spec := ⟨.closed, [], [], [], [], []⟩
/-- A core before the compute dies are released (R389). -/
def Core.reset : Core :=
  { r := .reset, pad := .reset, v := .reset, acc0 := .reset, acc1 := .reset, anch := [], tk := [], ahr := [],
    eng := .reset, frame := none, spec := .reset, decls := [], nextSerial := 1, undecl := 0, enrHi := 0,
    mode := .unreleased, halting := none, sleep := .awake, run := none, pend := [], tlb := [], itlb := [], bad := [], weak := [], ce := 0, ff := [], inbox := [] }
/-- A cluster at reset: descriptors invalid, stacks cleared, no lease. -/
def Cluster.reset : Cluster :=
  { slots := [], cols := [], holder := none, left := 0, last := 3, waiting := [], arrayAt := 0, und := false, undTo := 0, undFrom := [], pulse := 16,
    gated := false, waking := false, idleFrom := 0, ce := 0, ue := 0 }
/-- A die at reset: CYC 0 (R118), no slot owned (R337). -/
def Die.reset : Die := ⟨0, [], 0, false, 0, [], [], 0⟩
/-- A partition with no work: an open empty phase 0 (R333). -/
def Part.reset : Part :=
  { clusters := [], sr := [], later := [], job := 0, phase := 0, closing := false, carried := false, snap := [],
    acPend := [], portPend := [], ended := [], charges := [], launches := [], rrp := [], spp := 0, recs := [],
    abJob := false, abPhases := [], abGraphs := [], acMade := [], acEvents := [], logMode := 0, tenant := 0,
    saved := [], groups := [], fqTold := false, logTold := false, duties := [] }
/-- An application core's window at reset (R398). -/
def AppCore.reset : AppCore := ⟨[], [], [], [], [], none, none, none⟩
/-- A mailbox at reset. -/
def Mailbox.reset : Mailbox := ⟨0, 0, []⟩
/-- The Ikilith die at reset: in the boot ROM, every measurement register 48 zero bytes (R390), energy 0 (R386). -/
def Ik.reset : Ik :=
  { boot := .rom, m := [], recovery := [], recoveryLen := 0, antiRoll := 0, revoked := [], svn := 0, ver := 0, reports := 0,
    mb := [], ac := [], shared := [], stage := [], smbPtr := 0, smbOut := [], irqs := [], ueReports := [], cards := [], dmaOut := none,
    acOut := [], hqMsi := [], energy := 0, temps := [], steps := [], retired := [], deadStacks := [], deadChans := [], deadFar := false,
    heldWr := [], queues := [] }
/-- The links at reset. -/
def Links.reset : Links := ⟨0, [], [], [], [], [], []⟩

/-- The package right after package reset: no core runs, memory lists nothing, every register at its reset value. -/
def State.reset : State :=
  { cur := 0, turn := 0, agenda := [], lagBanks := false, lagDeliver := false, onePart := false, cores := [], clusters := [], dies := [], parts := [],
    mem := [], badMem := [], weak := [], fifos := [], ik := .reset, links := .reset, free := 0 }

end Sys2Proof.Machine
end

