-- ==== Sys2Proof/Machine/Maps.lean ====
section
/-!
DEFINITION. Sys2Proof/Machine/Maps.lean: lists of (key, value) pairs with rising keys, and memories as such lists of
bytes. Writing the value that an unlisted address reads as removes the entry, so equal memories are equal lists.
-/

namespace Sys2Proof.Machine
open Sys2Proof

/-- The value listed for a key. -/
def mfind {α : Type} : Map α → Nat → Option α
  | [], _ => none
  | (a, v) :: t, k => if a = k then some v else mfind t k

/-- The value of a key, `d` when it is not listed. -/
def mget {α : Type} (d : α) (m : Map α) (k : Nat) : α := (mfind m k).getD d

/-- The list with `v` listed for `k`, in its place. -/
def mset {α : Type} : Map α → Nat → α → Map α
  | [], k, v => [(k, v)]
  | (a, u) :: t, k, v =>
    if k < a then (k, v) :: (a, u) :: t
    else if a = k then (k, v) :: t
    else (a, u) :: mset t k v

/-- The list with `k` unlisted. -/
def mdel {α : Type} : Map α → Nat → Map α
  | [], _ => []
  | (a, u) :: t, k => if a = k then mdel t k else (a, u) :: mdel t k

/-- Writing `v` at `k` where an unlisted key reads as `d`. -/
def mput {α : Type} [DecidableEq α] (d : α) (m : Map α) (k : Nat) (v : α) : Map α :=
  if v = d then mdel m k else mset m k v

/-- The canonical form: keys strictly rise and no entry equals `d`. -/
def mwf {α : Type} [DecidableEq α] (d : α) : Map α → Bool
  | [] => true
  | [(_, v)] => decide (v ≠ d)
  | (a, v) :: (b, u) :: t => decide (a < b) && decide (v ≠ d) && mwf d ((b, u) :: t)

/-! ### Memories -/

/-- One byte; an unlisted address reads as 0 (log entry 1). -/
def rd (m : Mem) (a : Nat) : Byte := mget 0 m a
/-- Writing one byte. -/
def wr (m : Mem) (a : Nat) (b : Byte) : Mem := mput 0 m a b
/-- n bytes from an address, in address order. -/
def rdN (m : Mem) (a : Nat) : Nat → List Byte
  | 0 => []
  | n + 1 => rd m a :: rdN m (a + 1) n
/-- Writing bytes from an address on, in address order. -/
def wrL (m : Mem) (a : Nat) : List Byte → Mem
  | [] => m
  | b :: bs => wrL (wr m a b) (a + 1) bs
/-- The canonical form of a memory. -/
def Memory.wf (m : Mem) : Bool := mwf (0 : Byte) m

/-- The natural number that bytes in address order hold: little-endian (R5). -/
def leNat : List Byte → Nat
  | [] => 0
  | b :: bs => b.toNat + 256 * leNat bs
/-- The n low bytes of a number in address order (R5). -/
def toLE : Nat → Nat → List Byte
  | 0, _ => []
  | n + 1, v => BitVec.ofNat 8 v :: toLE n (v / 256)
/-- A double of memory. -/
def rd64 (m : Mem) (a : Nat) : W64 := BitVec.ofNat 64 (leNat (rdN m a 8))
/-- Writing a double. -/
def wr64 (m : Mem) (a : Nat) (v : W64) : Mem := wrL m a (toLE 8 v.toNat)

/-! ### Pending bytes: an unlisted address holds no byte (R278, R279) -/

/-- Entering bytes in a pending set; a later byte replaces an earlier one (R278). -/
def pendL (p : List (Nat × Byte)) (a : Nat) : List Byte → List (Nat × Byte)
  | [] => p
  | b :: bs => pendL (mset p a b) (a + 1) bs
/-- Entering listed bytes. -/
def pendAll (p q : List (Nat × Byte)) : List (Nat × Byte) := q.foldl (fun p x => mset p x.1 x.2) p
/-- A byte as an agent's plain load sees it (R280, Load): its own pending byte, or the snapshot. -/
def seen (p : List (Nat × Byte)) (snap : Mem) (a : Nat) : Byte := (mfind p a).getD (rd snap a)
/-- n bytes as an agent's plain load sees them. -/
def seenN (p : List (Nat × Byte)) (snap : Mem) (a : Nat) : Nat → List Byte
  | 0 => []
  | n + 1 => seen p snap a :: seenN p snap (a + 1) n
/-- Writing pending bytes into a memory (R286). -/
def commitAll (m : Mem) (q : List (Nat × Byte)) : Mem := q.foldl (fun m x => wr m x.1 x.2) m

/-! ### Small list helpers -/

/-- The numbers 0 to n − 1. -/
def upto : Nat → List Nat
  | 0 => []
  | n + 1 => upto n ++ [n]
/-- The i-th element, or a default. -/
def nth {α : Type} (d : α) : List α → Nat → α
  | [], _ => d
  | a :: _, 0 => a
  | _ :: t, n + 1 => nth d t n
/-- Insertion of a number into a set held as a rising list. -/
def sins (l : List Nat) (k : Nat) : List Nat :=
  match l with
  | [] => [k]
  | a :: t => if k < a then k :: a :: t else if k = a then a :: t else a :: sins t k
/-- Division rounded up. -/
def cdiv (a b : Nat) : Nat := (a + b - 1) / b

end Sys2Proof.Machine
end

