-- ==== Sys2Proof/Machine/Num.lean ====
section
/-!
DEFINITION. Sys2Proof/Machine/Num.lean: number formats and exact arithmetic (R72 to R98): decoding and encoding of every
format, the one rounding, conversions to integers, block quantisation, residues and their reconstruction, the exact cell,
the total order, and the correctly rounded special functions.
-/

namespace Sys2Proof.Machine
open Sys2Proof

/-! ### Formats (R72) -/

/-- Twice the element size in bytes (R72); 0 for a reserved code. -/
def fmtHalf : Nat → Nat
  | 0x00 => 2 | 0x01 => 8 | 0x02 => 4 | 0x03 => 4 | 0x04 => 2 | 0x05 => 2 | 0x06 => 8 | 0x07 => 4
  | 0x08 => 2 | 0x09 => 1 | 0x0A => 8 | 0x0C => 2 | 0x10 => 2 | 0x11 => 1 | 0x18 => 96 | 0x19 => 32 | _ => 0
/-- The code is assigned (R72). -/
def fmtOk (f : Nat) : Bool := fmtHalf f != 0
/-- FP32, FP16, BF16, E4M3, E5M2. -/
def fmtFloat (f : Nat) : Bool := 1 ≤ f && f ≤ 5
/-- BK8, BK4. -/
def fmtBk (f : Nat) : Bool := f == 0x10 || f == 0x11
/-- INT32, INT16, INT8, INT4. -/
def fmtInt (f : Nat) : Bool := 6 ≤ f && f ≤ 9
/-- NAT32, NAT8. -/
def fmtNat (f : Nat) : Bool := f == 0x0A || f == 0x0C
/-- Any integer format. -/
def fmtAnyInt (f : Nat) : Bool := fmtInt f || fmtNat f
/-- The entry width w (R72). -/
def fmtW : Nat → Option Nat
  | 0x01 => some 20 | 0x02 => some 12 | 0x03 => some 12 | 0x04 => some 12 | 0x05 => some 12
  | 0x08 => some 8 | 0x09 => some 4 | 0x10 => some 8 | 0x11 => some 4 | _ => none
/-- Width in bits of an integer element. -/
def fmtBits (f : Nat) : Nat := 4 * fmtHalf f

/-- A binary floating format (R73): exponent bits, fraction bits, bias. -/
structure FF where
  eb : Nat
  fb : Nat
  bias : Nat
  sat : Bool
  deriving DecidableEq, Repr

/-- FP32. -/
def FP32 : FF := ⟨8, 23, 127, false⟩
/-- The parameters of a floating format code (R73). -/
def ffOf : Nat → FF
  | 0x02 => ⟨5, 10, 15, false⟩
  | 0x03 => ⟨8, 7, 127, false⟩
  | 0x04 => ⟨4, 3, 7, true⟩
  | 0x05 => ⟨5, 2, 15, false⟩
  | _ => FP32

/-- The canonical NaN (R73). -/
def nanBits (f : FF) : Nat :=
  if f.sat then 2 ^ 7 - 1 else (2 ^ f.eb - 1) * 2 ^ f.fb + 2 ^ (f.fb - 1)
/-- The infinity, or the largest finite value of E4M3 (R76). -/
def infBits (f : FF) (neg : Bool) : Nat :=
  (if neg then 2 ^ (f.eb + f.fb) else 0) + (if f.sat then 0x7E else (2 ^ f.eb - 1) * 2 ^ f.fb)
/-- The largest finite value (R73). -/
def largestBits (f : FF) (neg : Bool) : Nat :=
  (if neg then 2 ^ (f.eb + f.fb) else 0) + (if f.sat then 0x7E else (2 ^ f.eb - 1) * 2 ^ f.fb - 1)

/-- n × 2^e as a quotient. -/
def scale2 (neg : Bool) (n : Nat) (e : Int) : Ex :=
  if 0 ≤ e then .fin neg (n * 2 ^ e.toNat) 1 else .fin neg n (2 ^ (-e).toNat)

/-- The value of an encoding (R74, R75). -/
def decF (f : FF) (b : Nat) : Ex :=
  let neg := b / 2 ^ (f.eb + f.fb) % 2 == 1
  let E := b / 2 ^ f.fb % 2 ^ f.eb
  let F := b % 2 ^ f.fb
  if f.sat then
    if E = 15 ∧ F = 7 then .nan
    else if E = 0 then scale2 neg F (1 - f.bias - f.fb) else scale2 neg (2 ^ f.fb + F) (E - f.bias - f.fb)
  else if E = 2 ^ f.eb - 1 then (if F = 0 then .inf neg else .nan)
  else if E = 0 then scale2 neg F (1 - f.bias - f.fb) else scale2 neg (2 ^ f.fb + F) (E - f.bias - f.fb)

/-! ### Flags and rounding (R76 to R79) -/

/-- The sticky flags NX, UF, OF, DZ, NV in bits 0 to 4 (R43). -/
abbrev Fl := BitVec 5
/-- No flag. -/
def fNone : Fl := 0
/-- NX. -/
def fNX : Fl := 1
/-- UF. -/
def fUF : Fl := 2
/-- OF. -/
def fOF : Fl := 4
/-- DZ. -/
def fDZ : Fl := 8
/-- NV. -/
def fNV : Fl := 16

/-- The magnitude of RoundInt of ±num/den (R76). -/
def roundMag (mode : RMode) (neg : Bool) (num den : Nat) : Nat :=
  let q := num / den
  let r := num % den
  match mode with
  | .rne => if den < 2 * r ∨ (2 * r = den ∧ q % 2 = 1) then q + 1 else q
  | .rtz => q
  | .rdn => if neg ∧ r ≠ 0 then q + 1 else q
  | .rup => if ¬ neg ∧ r ≠ 0 then q + 1 else q
  | .rna => if den ≤ 2 * r then q + 1 else q
/-- RoundInt (R76). -/
def roundInt (mode : RMode) (neg : Bool) (num den : Nat) : Int :=
  if neg then -(roundMag mode neg num den : Int) else (roundMag mode neg num den : Int)
/-- floor(log2 (num/den)) of a positive quotient. -/
def ilog2 (num den : Nat) : Int :=
  let e : Int := (Nat.log2 num : Int) - (Nat.log2 den : Int)
  let lt := if 0 ≤ e then num < den * 2 ^ e.toNat else num * 2 ^ (-e).toNat < den
  if lt then e - 1 else e

/-- Overflowed (R77). -/
def overflowed (f : FF) (mode : RMode) (neg : Bool) : Nat :=
  match mode with
  | .rne => infBits f neg
  | .rna => infBits f neg
  | .rtz => largestBits f neg
  | .rdn => if neg then infBits f neg else largestBits f neg
  | .rup => if neg then largestBits f neg else infBits f neg

/-- Round (R76) with the flags it sets. -/
def roundF (f : FF) (mode : RMode) (x : Ex) : Nat × Fl :=
  match x with
  | .nan => (nanBits f, 0)
  | .inf neg => (infBits f neg, if f.sat then fOF else 0)
  | .fin neg num den =>
    let sgn := if neg then 2 ^ (f.eb + f.fb) else 0
    if num = 0 then (sgn, 0)
    else
      let l := ilog2 num den
      let emin : Int := 1 - (f.bias : Int)
      let e := max l emin
      let s := e - (f.fb : Int)
      let n' := if 0 ≤ s then num else num * 2 ^ (-s).toNat
      let d' := if 0 ≤ s then den * 2 ^ s.toNat else den
      let k := roundMag mode neg n' d'
      let inexact := k * d' ≠ n'
      let nx : Fl := if inexact then fNX else 0
      let uf : Fl := if inexact ∧ l < emin then fUF else 0
      let top := 2 ^ (f.fb + 1)
      let k' := if k = top then top / 2 else k
      let e' := if k = top then e + 1 else e
      let mag : Int := if k' < top / 2 then k' else (e' + f.bias) * 2 ^ f.fb + (k' - top / 2 : Nat)
      if (largestBits f false : Int) < mag then (overflowed f mode neg, nx ||| uf ||| fOF ||| fNX)
      else (sgn + mag.toNat, nx ||| uf)

/-- RNE32 (R76). -/
def rne32 (x : Ex) : BitVec 32 × Fl := let r := roundF FP32 .rne x; (BitVec.ofNat 32 r.1, r.2)
/-- The value of an FP32 pattern. -/
def val32 (b : BitVec 32) : Ex := decF FP32 b.toNat

/-! ### Exact operations (R78, R79) -/

/-- Sign change (R148); a NaN is a NaN. -/
def exNeg : Ex → Ex
  | .nan => .nan | .inf n => .inf (!n) | .fin n a d => .fin (!n) a d
/-- Absolute value (R148). -/
def exAbs : Ex → Ex
  | .nan => .nan | .inf _ => .inf false | .fin _ a d => .fin false a d
/-- A sum: ∞ − ∞ is invalid; a zero sum is +0 unless both are −0 (R79). -/
def exAdd : Ex → Ex → Ex × Fl
  | .nan, _ => (.nan, 0)
  | _, .nan => (.nan, 0)
  | .inf a, .inf b => if a = b then (.inf a, 0) else (.nan, fNV)
  | .inf a, _ => (.inf a, 0)
  | _, .inf b => (.inf b, 0)
  | .fin sa na da, .fin sb nb db =>
    let l := na * db
    let r := nb * da
    if sa = sb then (.fin sa (l + r) (da * db), 0)
    else if l = r then (.fin false 0 1, 0)
    else if r < l then (.fin sa (l - r) (da * db), 0)
    else (.fin sb (r - l) (da * db), 0)
/-- A difference, as a sum with the negated operand, so that (−0) − (+0) is −0, a case R79 does not name (DEDUCED, log entry
85). -/
def exSub (a b : Ex) : Ex × Fl := exAdd a (exNeg b)
/-- The exact sum of a list: +0 for none, −0 when every term is −0 (R79). -/
def exSum : List Ex → Ex
  | [] => .fin false 0 1
  | x :: t => t.foldl (fun a y => (exAdd a y).1) x
/-- A product: 0 × ∞ is invalid; a zero takes the sign of the operands (R79). -/
def exMul : Ex → Ex → Ex × Fl
  | .nan, _ => (.nan, 0)
  | _, .nan => (.nan, 0)
  | .inf a, .inf b => (.inf (a != b), 0)
  | .inf a, .fin b n _ => if n = 0 then (.nan, fNV) else (.inf (a != b), 0)
  | .fin a n _, .inf b => if n = 0 then (.nan, fNV) else (.inf (a != b), 0)
  | .fin a n d, .fin b m e => (.fin (a != b) (n * m) (d * e), 0)
/-- A quotient: 0/0 and ∞/∞ are invalid; a finite nonzero over zero is an infinity with DZ (R78, R148). -/
def exDiv : Ex → Ex → Ex × Fl
  | .nan, _ => (.nan, 0)
  | _, .nan => (.nan, 0)
  | .inf _, .inf _ => (.nan, fNV)
  | .inf a, .fin b _ _ => (.inf (a != b), 0)
  | .fin a _ _, .inf b => (.fin (a != b) 0 1, 0)
  | .fin a n d, .fin b m e =>
    if m = 0 then (if n = 0 then (.nan, fNV) else (.inf (a != b), fDZ))
    else (.fin (a != b) (n * e) (d * m), 0)
/-- A fused sum d + a × b of three exact operands (R148); an invalid product is invalid whatever d is. -/
def exFma (d a b : Ex) : Ex × Fl :=
  let p := exMul a b
  if p.2 ≠ 0 then (.nan, p.2) else exAdd d p.1
/-- The exact value of an integer. -/
def exInt (i : Int) : Ex := .fin (decide (i < 0)) i.natAbs 1
/-- a < b of two values that are not NaN; +0 and −0 are equal. -/
def exLt : Ex → Ex → Bool
  | .nan, _ => false
  | _, .nan => false
  | .inf a, .inf b => a && !b
  | .inf a, _ => a
  | _, .inf b => !b
  | .fin sa na da, .fin sb nb db =>
    let l : Int := (if sa then -1 else 1) * (na * db : Nat)
    let r : Int := (if sb then -1 else 1) * (nb * da : Nat)
    decide (l < r)
/-- Equality of values; a NaN equals nothing. -/
def exEq (a b : Ex) : Bool :=
  match a, b with
  | .nan, _ => false
  | _, .nan => false
  | _, _ => !exLt a b && !exLt b a
/-- a is NaN. -/
def exNan (a : Ex) : Bool := a == .nan
/-- a is finite. -/
def exFin : Ex → Bool
  | .fin .. => true | _ => false
/-- a is a zero. -/
def exZero : Ex → Bool
  | .fin _ n _ => n == 0 | _ => false
/-- The sign bit of a value. -/
def exSign : Ex → Bool
  | .nan => false | .inf s => s | .fin s _ _ => s
/-- The order of VMIN and VMAX: −0 below +0 (R148). -/
def exLtZ (a b : Ex) : Bool := exLt a b || (exEq a b && exSign a && !exSign b)
/-- The lesser of two, NaN when either is (R148). -/
def exMin (a b : Ex) : Ex := if exNan a || exNan b then .nan else if exLtZ b a then b else a
/-- The greater of two, NaN when either is (R148). -/
def exMax (a b : Ex) : Ex := if exNan a || exNan b then .nan else if exLtZ a b then b else a
/-- Sat of a value between two bounds; a NaN passes through (R98, R215). -/
def exSat (x lo hi : Ex) : Ex := if exLt x lo then lo else if exLt hi x then hi else x
/-- floor(log2 |x|) of a nonzero finite value. -/
def exLog (a : Ex) : Option Int :=
  match a with
  | .fin _ n d => if n = 0 then none else some (ilog2 n d)
  | _ => none
/-- x × 2^e. -/
def exScale (a : Ex) (e : Int) : Ex :=
  match a with
  | .fin s n d => if 0 ≤ e then .fin s (n * 2 ^ e.toNat) d else .fin s n (d * 2 ^ (-e).toNat)
  | x => x

/-! ### Integers (R81, R82) -/

/-- Lo of an integer format (R81). -/
def fmtLo (f : Nat) : Int := if fmtNat f then 0 else -(2 ^ (fmtBits f - 1) : Int)
/-- Hi of an integer format (R81). -/
def fmtHi (f : Nat) : Int := if fmtNat f then 2 ^ fmtBits f - 1 else 2 ^ (fmtBits f - 1) - 1
/-- The pattern of n bits of an integer. -/
def intBits (n : Nat) (i : Int) : Nat := (i % (2 ^ n : Int)).toNat
/-- A pattern of n bits read as two's complement. -/
def sext (n : Nat) (b : Nat) : Int := if b % 2 ^ n < 2 ^ (n - 1) then (b % 2 ^ n : Nat) else (b % 2 ^ n : Nat) - 2 ^ n
/-- An integer element read in its format (R81). -/
def decI (f : Nat) (b : Nat) : Int := if fmtNat f then (b % 2 ^ fmtBits f : Nat) else sext (fmtBits f) b
/-- Sat (R98). -/
def satI (x lo hi : Int) : Int := if x < lo then lo else if hi < x then hi else x
/-- The conversion of R82 to bounds lo and hi. -/
def toInt (lo hi : Int) (n : Nat) (mode : RMode) (sat : Bool) (x : Ex) : Int × Fl :=
  match x with
  | .nan => (0, fNV)
  | .inf neg => (if neg then lo else hi, fNV)
  | .fin neg num den =>
    let t := roundInt mode neg num den
    let nx : Fl := if t.natAbs * den ≠ num then fNX else 0
    if t < lo ∨ hi < t then
      (if sat then satI t lo hi else if lo < 0 then sext n (intBits n t) else (intBits n t : Int), nx ||| fNV)
    else (t, nx)
/-- The conversion of R82 to an integer format, as bits. -/
def toFmtInt (f : Nat) (mode : RMode) (sat : Bool) (x : Ex) : Nat × Fl :=
  let r := toInt (fmtLo f) (fmtHi f) (fmtBits f) mode sat x
  (intBits (fmtBits f) r.1, r.2)
/-- An element of a floating or integer format as an exact value (R74, R81). -/
def decElem (f : Nat) (b : Nat) : Ex := if fmtFloat f then decF (ffOf f) b else exInt (decI f b)

/-! ### Block-scaled formats (R83 to R85) -/

/-- S of a scale word, 511 (NaN) when bits 15:9 are not all 0 (R83). -/
def scaleOf (w : Nat) : Nat := if 512 ≤ w then 511 else w
/-- The value of a mantissa under a scale (R83). -/
def bkVal (s : Nat) (m : Int) : Ex :=
  if s = 511 then .nan else scale2 (decide (m < 0)) m.natAbs ((s : Int) - 255)
/-- The mantissa bounds and offset of a kind (R85): BK8 or BK4. -/
def bkOff (f : Nat) : Nat := if f = 0x10 then 6 else 2
/-- QuantBlock (R85): the scale, the mantissas, and the flags of their roundings to INT8 or INT4 (R76): NX, and NV for a
mantissa carried past its bound. R85 states no scale word for an S outside 0 to 511, which FP32 values never give (log entry
79). -/
def quantBlock (f : Nat) (xs : List Ex) : Nat × List Int × Fl :=
  if xs.any (fun x => !exFin x) then (511, xs.map (fun _ => 0), 0)
  else
    let a := xs.foldl (fun a x => exMax a (exAbs x)) (.fin false 0 1)
    match exLog a with
    | none => (0, xs.map (fun _ => 0), 0)
    | some l =>
      let S := l - bkOff f + 255
      let hi : Int := if f = 0x10 then 127 else 7
      let ms := xs.map (fun x => toInt (-hi - 1) hi 8 .rne true (exScale x (255 - S)))
      (if 0 ≤ S ∧ S ≤ 511 then S.toNat else (Config.scaleBeyond S).toNat, ms.map (·.1), ms.foldl (fun f m => f ||| m.2) 0)

/-! ### Residues (R86 to R88) -/

/-- m1 (R86). -/
def m1 : Nat := 524287
/-- m2 (R86). -/
def m2 : Nat := 524288
/-- m3 (R86). -/
def m3 : Nat := 262143
/-- m4 (R86). -/
def m4 : Nat := 8191
/-- M (R86). -/
def mProd : Nat := 72057181721591808
/-- Residues (R98). -/
def residues (v : Int) : Elem := ⟨(v % m1).toNat, (v % m2).toNat, (v % m3).toNat, (v % m4).toNat⟩
/-- Adding an integer to an element, channel by channel (R87). -/
def Elem.add (e : Elem) (v : Int) : Elem :=
  let r := residues v
  ⟨(e.c1 + r.c1) % m1, (e.c2 + r.c2) % m2, (e.c3 + r.c3) % m3, (e.c4 + r.c4) % m4⟩
/-- Crt (R88). -/
def crt (e : Elem) : Int :=
  let c1 : Int := (e.c1 % m1 : Nat)
  let c2 : Int := (e.c2 % m2 : Nat)
  let c3 : Int := (e.c3 % m3 : Nat)
  let t1 := (c1 - c2) % (m1 : Int)
  let x := c2 + 2 ^ 19 * t1
  let t3 := ((c3 - x) * 2 ^ 17) % (m3 : Int)
  let u := x + (m1 : Int) * m2 * t3
  if 36028590860795904 ≤ u then u - mProd else u
/-- Check (R88). -/
def checkElem (e : Elem) : Bool := crt e % (m4 : Int) == ((e.c4 % m4 : Nat) : Int)
/-- The zero element (R205). -/
def elem0 : Elem := ⟨0, 0, 0, 0⟩
/-- V × 2^e as an exact value; +0 when V is 0 (R94). -/
def valE (v e : Int) : Ex := scale2 (decide (v < 0)) v.natAbs e

/-! ### Anchors and entry (R89, R90) -/

/-- An element as it enters the array: its exact value, and the scale of its block for a block format. -/
structure AEl where
  x : Ex
  s : Nat
  deriving DecidableEq, Repr

/-- Anchor (R89) of the active elements of one row or column in format f of entry width w. -/
def anchorOf (f w : Nat) (els : List AEl) : Int :=
  if f = 0x08 ∨ f = 0x09 then (w : Int) - 1
  else if fmtBk f then
    match els.filter (fun e => e.s ≠ 511) with
    | [] => 0
    | l => (l.foldl (fun a e => max a (e.s : Int)) 0) - 255 + (w : Int) - 1
  else
    els.foldl (fun a e => match exLog e.x with
      | some l => if a.1 then (true, max a.2 (l + 1)) else (true, l + 1)
      | none => a) (false, (0 : Int)) |>.2
/-- EntryMant (R90) with its saturation flag AS. -/
def entryMant (f w : Nat) (X : Int) (x : Ex) : Int × Bool :=
  let lim : Int := 2 ^ (w - 1) - 1
  match x with
  | .fin s n d =>
    if f = 0x08 ∨ f = 0x09 then ((if s then -(n : Int) else n), false)
    else
      match exScale (.fin s n d) ((w : Int) - 1 - X) with
      | .fin s n d =>
        let t := roundInt .rne s n d
        let lo : Int := if fmtBk f then -(2 ^ (w - 1)) else -lim
        if lim < t ∨ t < lo then (satI t lo lim, true) else (t, false)
      | _ => (0, false)
  | _ => (0, false)
/-- T_max (R93). -/
def tMax (w : Nat) : Nat := min (2 ^ (57 - 2 * w) - 1) (2 ^ 40 - 1)

/-! ### The exact cell and XR (R96, R97, R157) -/

/-- The F units of a finite value that is a whole multiple of 2^−149 (R96). -/
def cellUnits : Ex → Int
  | .fin s n d => let u : Int := (n * 2 ^ 149 / d : Nat); if s then -u else u
  | _ => 0
/-- Adding a value to an exact cell: F modulo 2^320 and the sticky bits NAN, PINF, NINF, OVF (R96). -/
def cellAdd (F : Int) (st : BitVec 4) (x : Ex) : Int × BitVec 4 :=
  match x with
  | .nan => (F, st ||| 1)
  | .inf neg => (F, st ||| (if neg then 4 else 2))
  | .fin .. =>
    let t := F + cellUnits x
    let t' := sext 320 (intBits 320 t)
    (t', if t' = t then st else st ||| 8)
/-- The reading of a cell with the NV it sets (R97). -/
def cellRead (F : Int) (st : BitVec 4) : Ex × Fl :=
  let b (k : Nat) := st.getLsbD k
  if b 0 || b 3 || (b 1 && b 2) then (.nan, fNV)
  else if b 1 then (.inf false, 0)
  else if b 2 then (.inf true, 0)
  else (scale2 (decide (F < 0)) F.natAbs (-149), 0)

/-! ### The total order (R98) -/

/-- TotalOrderGreater on values and indices (R98). -/
def totalGreater (a : Ex) (ia : Nat) (b : Ex) (ib : Nat) : Bool :=
  let lt (x y : Ex) := if exNan y then false else if exNan x then true else exLt x y
  if lt b a then true else if lt a b then false else decide (ia < ib)

/-! ### Correctly rounded special functions (R156)

The value is formed in fixed point with far more bits than any format keeps, and a value known not to be representable
carries one further half unit, so that one Round of it rounds the exact value (log entry 5). -/

/-- floor(ln 2 × 2^400). -/
def ln2Fix : Nat := 1789879222497203190815761498240779176894896805856420935579692301363062920687047601279850318367644315849030039181347319086
/-- Bits of the fixed point. -/
def fixP : Nat := 360
/-- e^(x / 2^P) for 0 ≤ x < 2^P, in units of 2^−P, by its power series. -/
def expFix (x : Nat) : Nat :=
  let rec go (fuel k term acc : Nat) : Nat :=
    match fuel with
    | 0 => acc
    | fuel + 1 => let t := term * x / 2 ^ fixP / k; go fuel (k + 1) t (acc + t)
  go 90 1 (2 ^ fixP) (2 ^ fixP)
/-- 2^(num/den) for a nonnegative quotient, as (mantissa, exponent): mantissa × 2^(exponent − P). -/
def exp2Fix (num den : Nat) : Nat × Nat :=
  let i := num / den
  let f := (num % den) * 2 ^ fixP / den
  (expFix (f * (ln2Fix / 2 ^ (400 - fixP)) / 2 ^ fixP), i)
/-- A fixed-point value with a half unit added: strictly between two neighbours. -/
def sticky (neg : Bool) (m : Nat) (e : Int) : Ex := scale2 neg (2 * (m / 2 ^ 40) + 1) (e + 39)
/-- 2^a (R156). -/
def exExp2 : Ex → Ex
  | .nan => .nan
  | .inf neg => if neg then .fin false 0 1 else .inf false
  | .fin s n d =>
    if n % d = 0 then
      let k := n / d
      if 2000 ≤ k then scale2 false 1 (if s then -2000 else 2000) else scale2 false 1 (if s then -(k : Int) else k)
    else if 2000 ≤ n / d then scale2 false 3 (if s then -2000 else 2000)
    else if s then
      -- 2^−x = 2^(c − x) / 2^c with c = ceil x
      let c := n / d + 1
      let r := exp2Fix (c * d - n) d
      sticky false r.1 ((r.2 : Int) - c - fixP)
    else
      let r := exp2Fix n d
      sticky false r.1 ((r.2 : Int) - fixP)
/-- ln of m / 2^P for 2^P ≤ m ≤ 2^(P+1), in units of 2^−P: 2 artanh((m − 1)/(m + 1)). -/
def lnFix (m : Nat) : Nat :=
  let z := (m - 2 ^ fixP) * 2 ^ fixP / (m + 2 ^ fixP)
  let z2 := z * z / 2 ^ fixP
  let rec go (fuel k term acc : Nat) : Nat :=
    match fuel with
    | 0 => acc
    | fuel + 1 => let t := term * z2 / 2 ^ fixP; go fuel (k + 2) t (acc + t / (k + 2))
  2 * go 130 1 z z
/-- log2 a with the flags of R156. -/
def exLog2 : Ex → Ex × Fl
  | .nan => (.nan, 0)
  | .inf neg => if neg then (.nan, fNV) else (.inf false, 0)
  | .fin s n d =>
    if n = 0 then (.inf true, fDZ)
    else if s then (.nan, fNV)
    else
      let e := ilog2 n d
      let m := if 0 ≤ e then n * 2 ^ fixP / (d * 2 ^ e.toNat) else n * 2 ^ (fixP + (-e).toNat) / d
      if m = 2 ^ fixP then (exInt e, 0)
      else
        let l := lnFix m * 2 ^ fixP / (ln2Fix / 2 ^ (400 - fixP))
        let v : Int := e * 2 ^ fixP + l
        (sticky (decide (v < 0)) v.natAbs (-(fixP : Int)), 0)
/-- e^(−2|a|) as (mantissa, exponent): mantissa × 2^(−P − exponent). -/
def expM2 (n d : Nat) : Nat × Nat :=
  -- 2|a| / ln 2 = k + f; e^(−2|a|) = 2^(1 − f) × 2^(−k − 1)
  let y := 2 * n * 2 ^ (2 * fixP) / d / (ln2Fix / 2 ^ (400 - fixP))
  let k := y / 2 ^ fixP
  let f := y % 2 ^ fixP
  ((exp2Fix (2 ^ fixP - f) (2 ^ fixP)).1 * 2 ^ (exp2Fix (2 ^ fixP - f) (2 ^ fixP)).2, k + 1)
/-- tanh a (R156). -/
def exTanh : Ex → Ex
  | .nan => .nan
  | .inf neg => .fin neg 1 1
  | .fin s n d =>
    if n = 0 then .fin s 0 1
    else if n * 2 ^ 70 < d then .fin s (n * (2 ^ 120 - 1)) (d * 2 ^ 120)
    else if 128 * d ≤ n then .fin s (2 ^ 200 - 1) (2 ^ 200)
    else
      let r := expM2 n d
      let u := 2 ^ (fixP + r.2)
      -- (1 − E)/(1 + E)
      let q := (u - r.1) * 2 ^ fixP / (u + r.1)
      sticky s q (-(fixP : Int))
/-- 1 − tanh² a = 4E/(1 + E)² with E = e^(−2|a|) (R235). -/
def exTanhD : Ex → Ex
  | .nan => .nan
  | .inf _ => .fin false 0 1
  | .fin _ n d =>
    if n = 0 then .fin false 1 1
    else if n * 2 ^ 70 < d then .fin false (2 ^ 120 - 1) (2 ^ 120)
    else if 1024 * d ≤ n then .fin false 1 (2 ^ 2000)
    else
      let r := expM2 n d
      let u := 2 ^ (fixP + r.2)
      let q := 4 * r.1 * u * 2 ^ (fixP + r.2) / ((u + r.1) * (u + r.1))
      sticky false q (-((fixP + r.2 : Nat) : Int))
/-- The integer square root, bit by bit. -/
def isqrt (n : Nat) : Nat :=
  let rec go (fuel r : Nat) : Nat :=
    match fuel with
    | 0 => r
    | fuel + 1 => let r' := r + 2 ^ fuel; go fuel (if r' * r' ≤ n then r' else r)
  go (Nat.log2 n / 2 + 1) 0
/-- √(num/den) of a positive quotient. -/
def sqrtQ (num den : Nat) : Ex :=
  let w := num * den * 2 ^ 400
  let r := isqrt w
  if r * r = w then .fin false r (den * 2 ^ 200) else .fin false (2 * r + 1) (2 * den * 2 ^ 200)
/-- √a with its flags (R156). -/
def exSqrt : Ex → Ex × Fl
  | .nan => (.nan, 0)
  | .inf neg => if neg then (.nan, fNV) else (.inf false, 0)
  | .fin s n d => if n = 0 then (.fin s 0 1, 0) else if s then (.nan, fNV) else (sqrtQ n d, 0)
/-- 1/√a with its flags (R156). -/
def exRsqrt : Ex → Ex × Fl
  | .nan => (.nan, 0)
  | .inf neg => if neg then (.nan, fNV) else (.fin false 0 1, 0)
  | .fin s n d => if n = 0 then (.inf s, fDZ) else if s then (.nan, fNV) else (sqrtQ d n, 0)
/-- 1/a with its flags (R156). -/
def exRcp (a : Ex) : Ex × Fl := exDiv (.fin false 1 1) a

end Sys2Proof.Machine
end

