-- ==== Sys2Proof/Machine/Roles.lean ====
section
/-!
DEFINITION. Sys2Proof/Machine/Roles.lean: what each instruction names (R22): the scalars it reads, in the order in which a
queue entry keeps their values, the scalars it writes, the handles whose images are read at routing, the handles it names
as vector streams, and renaming by HRB (R32). LD and ST instructions keep a, b, e, fa and fv in that order, with s0 for a
field they do not read.
-/

namespace Sys2Proof.Machine
open Sys2Proof

/-- Scalars read, in the order kept. -/
def sReads : Instr → List Sreg
  | .add _ _ a b => [a, b]
  | .sub _ _ a b => [a, b]
  | .and _ _ a b => [a, b]
  | .or _ _ a b => [a, b]
  | .xor _ _ a b => [a, b]
  | .shl _ _ a b => [a, b]
  | .shr _ _ a b => [a, b]
  | .sra _ _ a b => [a, b]
  | .slt _ _ a b => [a, b]
  | .sltn _ _ a b => [a, b]
  | .seq _ _ a b => [a, b]
  | .sel _ d a b => [a, b, d]
  | .min _ _ a b => [a, b]
  | .max _ _ a b => [a, b]
  | .minn _ _ a b => [a, b]
  | .maxn _ _ a b => [a, b]
  | .mul _ _ a b => [a, b]
  | .mulh _ _ a b => [a, b]
  | .mulhn _ _ a b => [a, b]
  | .div _ _ a b => [a, b]
  | .divn _ _ a b => [a, b]
  | .rem _ _ a b => [a, b]
  | .remn _ _ a b => [a, b]
  | .clz _ _ a => [a]
  | .ctz _ _ a => [a]
  | .popc _ _ a => [a]
  | .addi _ _ a _ => [a]
  | .andi _ _ a _ => [a]
  | .ori _ _ a _ => [a]
  | .xori _ _ a _ => [a]
  | .shli _ _ a _ => [a]
  | .shri _ _ a _ => [a]
  | .srai _ _ a _ => [a]
  | .slti _ _ a _ => [a]
  | .movhi _ d _ _ => [d]
  | .jr _ a => [a]
  | .bz _ a _ => [a]
  | .bnz _ a _ => [a]
  | .bltz _ a _ => [a]
  | .bgez _ a _ => [a]
  | .loop _ a _ _ => [a]
  | .spill _ d _ => [d]
  | .lds _ _ a _ => [a]
  | .sts _ d a _ => [a, d]
  | .hset _ _ s _ => [s]
  | .hld _ _ s _ => [s]
  | .hst _ _ s _ => [s]
  | .hadv _ _ s _ => [s]
  | .movrs _ d _ => [d]
  | .waita _ _ a v u _ => [a, v, u]
  | .launch _ _ a => [a]
  | .cancel _ d a _ => [a, d]
  | .pwrAcq _ a => [a]
  | .pwrRel _ a => [a]
  | .tlbi _ a b _ => [a, b]
  | .vbcast _ _ s _ _ => [s]
  | .mset _ d _ _ => [d]
  | .mma _ _ _ _ _ sm sn sk => [sm, sn, sk]
  | .mepi _ _ _ _ _ sm sn scale _ => [sm, sn, scale.getD 0]
  | .mtopk _ _ _ _ _ _ _ sm sn base => [sm, sn, base]
  | .rdacc _ _ _ sm sn => [sm, sn]
  | .accept _ _ _ _ e => [e]
  | .ldT _ _ a b fa fv => [a, b, 0, fa, fv]
  | .ldX _ _ a b _ fa fv => [a, b, 0, fa, fv]
  | .ldGr _ _ a b _ fa fv => [a, b, 0, fa, fv]
  | .ldG _ _ a b e fa fv _ => [a, b, e, fa, fv]
  | .ldGt _ _ a b e fa fv _ => [a, b, e, fa, fv]
  | .ldSp _ _ a fa fv => [a, 0, 0, fa, fv]
  | .ldNet _ _ a _ _ fa fv => [a, 0, 0, fa, fv]
  | .pref _ a b => [a, b, 0, 0, 0]
  | .linkRecv _ _ a _ fa fv => [a, 0, 0, fa, fv]
  | .stT _ _ a b fa fv => [a, b, 0, fa, fv]
  | .stPart _ _ a b fa fv => [a, b, 0, fa, fv]
  | .stX _ _ a b _ fa fv => [a, b, 0, fa, fv]
  | .stApp _ _ a fa fv => [a, 0, 0, fa, fv]
  | .stAppQuery _ a _ => [a, 0, 0, 0, 0]
  | .stRmt _ _ a e fa fv => [a, 0, e, fa, fv]
  | .stMc _ _ a _ e fa fv _ => [a, 0, e, fa, fv]
  | .stNet _ _ a _ e fa fv => [a, 0, e, fa, fv]
  | .linkSend _ _ a b fa fv => [a, b, 0, fa, fv]
  | .linkRed _ _ a b fa fv _ _ => [a, b, 0, fa, fv]
  | .migr _ a b fa fv => [a, b, 0, fa, fv]
  | .badd _ a b fa fv _ => [a, b, 0, fa, fv]
  | .baddStream _ _ a fa fv _ => [a, 0, 0, fa, fv]
  | .band _ a b fa fv _ => [a, b, 0, fa, fv]
  | .bandStream _ _ a fa fv _ => [a, 0, 0, fa, fv]
  | .bor _ a b fa fv _ => [a, b, 0, fa, fv]
  | .borStream _ _ a fa fv _ => [a, 0, 0, fa, fv]
  | .bxor _ a b fa fv _ => [a, b, 0, fa, fv]
  | .bxorStream _ _ a fa fv _ => [a, 0, 0, fa, fv]
  | .bmin _ a b fa fv _ => [a, b, 0, fa, fv]
  | .bminStream _ _ a fa fv _ => [a, 0, 0, fa, fv]
  | .bmax _ a b fa fv _ => [a, b, 0, fa, fv]
  | .bmaxStream _ _ a fa fv _ => [a, 0, 0, fa, fv]
  | .bminn _ a b fa fv _ => [a, b, 0, fa, fv]
  | .bminnStream _ _ a fa fv _ => [a, 0, 0, fa, fv]
  | .bmaxn _ a b fa fv _ => [a, b, 0, fa, fv]
  | .bmaxnStream _ _ a fa fv _ => [a, 0, 0, fa, fv]
  | .bfmin _ a b fa fv => [a, b, 0, fa, fv]
  | .bfminStream _ _ a fa fv => [a, 0, 0, fa, fv]
  | .bfmax _ a b fa fv => [a, b, 0, fa, fv]
  | .bfmaxStream _ _ a fa fv => [a, 0, 0, fa, fv]
  | .bmaxi _ a b fa fv => [a, b, 0, fa, fv]
  | .bmaxiStream _ _ a b fa fv => [a, b, 0, fa, fv]
  | .bxadd _ a b fa fv => [a, b, 0, fa, fv]
  | .bxaddStream _ _ a fa fv => [a, 0, 0, fa, fv]
  | .bxrd _ a _ fa fv _ => [a, 0, 0, fa, fv]
  | .bxrdStream _ _ a fa fv _ => [a, 0, 0, fa, fv]
  | .bfaa _ a b _ fa fv _ => [a, b, 0, fa, fv]
  | .bfaaStream _ _ a fa fv _ => [a, 0, 0, fa, fv]
  | .bcas _ a b e fa fv _ => [a, b, e, fa, fv]
  | .bld _ a _ fa fv _ => [a, 0, 0, fa, fv]
  | .bldStream _ _ a fa fv _ => [a, 0, 0, fa, fv]
  | .bst _ a b fa fv _ => [a, b, 0, fa, fv]
  | .bstStream _ _ a fa fv _ => [a, 0, 0, fa, fv]
  | .bhist _ a b fa fv => [a, b, 0, fa, fv]
  | .bhistStream _ _ a b fa fv _ => [a, b, 0, fa, fv]
  | .bpfx _ a b _ fa fv => [a, b, 0, fa, fv]
  | .baxpy _ a b e fa fv _ => [a, b, e, fa, fv]
  | .baxpyStream _ _ a e fa fv _ => [a, 0, e, fa, fv]
  | _ => []

/-- Scalars written. -/
def sWrites : Instr → List Sreg
  | .add _ d _ _ => [d]
  | .sub _ d _ _ => [d]
  | .and _ d _ _ => [d]
  | .or _ d _ _ => [d]
  | .xor _ d _ _ => [d]
  | .shl _ d _ _ => [d]
  | .shr _ d _ _ => [d]
  | .sra _ d _ _ => [d]
  | .slt _ d _ _ => [d]
  | .sltn _ d _ _ => [d]
  | .seq _ d _ _ => [d]
  | .sel _ d _ _ => [d]
  | .min _ d _ _ => [d]
  | .max _ d _ _ => [d]
  | .minn _ d _ _ => [d]
  | .maxn _ d _ _ => [d]
  | .mul _ d _ _ => [d]
  | .mulh _ d _ _ => [d]
  | .mulhn _ d _ _ => [d]
  | .div _ d _ _ => [d]
  | .divn _ d _ _ => [d]
  | .rem _ d _ _ => [d]
  | .remn _ d _ _ => [d]
  | .clz _ d _ => [d]
  | .ctz _ d _ => [d]
  | .popc _ d _ => [d]
  | .addi _ d _ _ => [d]
  | .andi _ d _ _ => [d]
  | .ori _ d _ _ => [d]
  | .xori _ d _ _ => [d]
  | .shli _ d _ _ => [d]
  | .shri _ d _ _ => [d]
  | .srai _ d _ _ => [d]
  | .slti _ d _ _ => [d]
  | .movi _ d _ _ => [d]
  | .movhi _ d _ _ => [d]
  | .jl _ _ => [63]
  | .loop _ a _ _ => [a]
  | .fill _ d _ => [d]
  | .lds _ d _ _ => [d]
  | .hget _ _ s _ => [s]
  | .movsr _ d _ => [d]
  | .waita _ d _ _ _ _ => [d]
  | .poll _ d => [d]
  | .phase _ d => [d]
  | .launch _ d _ => [d]
  | .pwrDecl _ d _ _ _ => [d]
  | .ldNet _ _ _ b e _ _ => [b, e]
  | .linkRecv _ _ _ b _ _ => [b]
  | .stAppQuery _ _ d => [d]
  | .stMc _ _ _ b _ _ _ _ => [b]
  | .stNet _ _ _ b _ _ _ => [b]
  | .bxrd _ _ e _ _ _ => [e]
  | .bfaa _ _ _ e _ _ _ => [e]
  | .bcas _ _ _ e _ _ _ => [e]
  | .bld _ _ e _ _ _ => [e]
  | .bpfx _ _ _ e _ _ => [e]
  | _ => []

/-- Handles whose images are read when the instruction is routed or executed, in the order kept; an absent operand is none. -/
def hImages : Instr → List (Option Hreg)
  | .specBegin _ hc hg _ _ => [some hc, some hg]
  | .mancScan _ ha => [some ha]
  | .mancLoad _ ha => [some ha]
  | .mancColumn _ _ ha _ => [some ha]
  | .mma _ _ _ ha _ _ _ _ => [some ha]
  | .mepi _ _ hd _ bias _ _ _ _ => [some hd, bias]
  | .mtopk _ _ hd emit _ _ hx _ _ _ => if emit then [some hd, some hx] else []
  | .rdacc _ _ hd _ _ => [some hd]
  | .mstatTile _ _ hd _ => [some hd]
  | .mstatRowanc _ hd => [some hd]
  | .mstatDesc _ _ hd => [some hd]
  | .mstatColanc _ _ hd _ => [some hd]
  | .relax _ _ _ hr _ hz hu der cnt _ => [some hz, some hu, some hr, der, cnt]
  | .relaxB _ _ hr hz hu hd cnt _ _ => [some hz, some hu, some hr, some hd, cnt]
  | .rdahr _ hd => [some hd]
  | .wrahr _ ha => [some ha]
  | .accept _ hc hg _ _ => [some hc, some hg]
  | .ldT _ h _ _ _ _ => [some h]
  | .ldX _ h _ _ hx _ _ => [some h, some hx]
  | .ldGr _ h _ _ hx _ _ => [some h, some hx]
  | .ldG _ h _ _ _ _ _ _ => [some h]
  | .ldGt _ h _ _ _ _ _ _ => [some h]
  | .ldSp _ h _ _ _ => [some h]
  | .ldNet _ h _ _ _ _ _ => [some h]
  | .linkRecv _ h _ _ _ _ => [some h]
  | .stT _ h _ _ _ _ => [some h]
  | .stPart _ h _ _ _ _ => [some h]
  | .stX _ h _ _ hx _ _ => [some h, some hx]
  | .stApp _ h _ _ _ => [some h]
  | .stRmt _ h _ _ _ _ => [some h]
  | .stMc _ h _ _ _ _ _ _ => [some h]
  | .stNet _ h _ _ _ _ _ => [some h]
  | .linkSend _ h _ _ _ _ => [some h]
  | .linkRed _ h _ _ _ _ _ _ => [some h]
  | .baddStream _ h _ _ _ _ => [some h]
  | .bandStream _ h _ _ _ _ => [some h]
  | .borStream _ h _ _ _ _ => [some h]
  | .bxorStream _ h _ _ _ _ => [some h]
  | .bminStream _ h _ _ _ _ => [some h]
  | .bmaxStream _ h _ _ _ _ => [some h]
  | .bminnStream _ h _ _ _ _ => [some h]
  | .bmaxnStream _ h _ _ _ _ => [some h]
  | .bfminStream _ h _ _ _ => [some h]
  | .bfmaxStream _ h _ _ _ => [some h]
  | .bmaxiStream _ h _ _ _ _ => [some h]
  | .bxaddStream _ h _ _ _ => [some h]
  | .bxrdStream _ h _ _ _ _ => [some h]
  | .bfaaStream _ h _ _ _ _ => [some h]
  | .bldStream _ h _ _ _ _ => [some h]
  | .bstStream _ h _ _ _ _ => [some h]
  | .bhistStream _ h _ _ _ _ _ => [some h]
  | .baxpyStream _ h _ _ _ _ _ => [some h]
  | _ => []

/-- Handles named as vector streams (R22, R146). -/
def hStreams : Instr → List Hreg
  | .vadd _ hd ha hb _ _ => [hd, ha, hb]
  | .vsub _ hd ha hb _ _ => [hd, ha, hb]
  | .vmul _ hd ha hb _ _ => [hd, ha, hb]
  | .vfma _ hd ha hb _ _ => [hd, ha, hb]
  | .vdiv _ hd ha hb _ _ => [hd, ha, hb]
  | .vmin _ hd ha hb _ _ => [hd, ha, hb]
  | .vmax _ hd ha hb _ _ => [hd, ha, hb]
  | .vabs _ hd ha _ _ => [hd, ha]
  | .vneg _ hd ha _ _ => [hd, ha]
  | .vand _ hd ha hb _ _ => [hd, ha, hb]
  | .vor _ hd ha hb _ _ => [hd, ha, hb]
  | .vxor _ hd ha hb _ _ => [hd, ha, hb]
  | .vshl _ hd ha hb _ _ => [hd, ha, hb]
  | .vshr _ hd ha hb _ _ => [hd, ha, hb]
  | .vsra _ hd ha hb _ _ => [hd, ha, hb]
  | .vcmp _ _ _ ha hb _ _ => [ha, hb]
  | .vsel _ hd ha hb _ _ => [hd, ha, hb]
  | .vmov _ hd ha _ _ => [hd, ha]
  | .vcvt _ hd ha _ _ _ _ => [hd, ha]
  | .vqnt _ hd ha hb _ _ => [hd, ha, hb]
  | .vdqnt _ hd ha hb _ _ => [hd, ha, hb]
  | .vlog2 _ hd ha _ _ => [hd, ha]
  | .vexp2 _ hd ha _ _ => [hd, ha]
  | .vrcp _ hd ha _ _ => [hd, ha]
  | .vrsq _ hd ha _ _ => [hd, ha]
  | .vsqrt _ hd ha _ _ => [hd, ha]
  | .vtanh _ hd ha _ _ => [hd, ha]
  | .vclass _ ha _ _ _ => [ha]
  | .vredSum _ ha _ _ => [ha]
  | .vredMax _ hd ha _ _ => [hd, ha]
  | .vredMin _ hd ha _ _ => [hd, ha]
  | .vredMaxi _ hd _ => [hd]
  | .vxrd _ hd _ _ => [hd]
  | .vscan _ hd ha _ _ => [hd, ha]
  | .vperm _ hd ha hb _ _ => [hd, ha, hb]
  | .vbcast _ hd _ _ _ => [hd]
  | .viota _ hd _ _ => [hd]
  | .vrng _ hd ha hb _ => [hd, ha, hb]
  | .vexpmax _ hd ha _ _ => [hd, ha]
  | .vmaxi _ ha _ => [ha]
  | _ => []

/-- Handles that an FE instruction reads or writes (R111 to R115, R350). -/
def hFe : Instr → List Hreg
  | .hset _ hd _ _ => [hd]
  | .hget _ hd _ _ => [hd]
  | .hmov _ hd ha => [hd, ha]
  | .hld _ hd _ _ => [hd]
  | .hldSpill _ hd _ => [hd]
  | .hst _ hd _ _ => [hd]
  | .hstSpill _ hd _ => [hd]
  | .hadv _ hd _ _ => [hd]
  | .specBegin _ hc hg _ _ => [hc, hg]
  | _ => []

/-- Every handle number replaced (R32). -/
def mapH (ren : Hreg → Hreg) : Instr → Instr
  | .hset t hd s f => .hset t (ren hd) s f
  | .hget t hd s f => .hget t (ren hd) s f
  | .hmov t hd ha => .hmov t (ren hd) (ren ha)
  | .hld t hd s off => .hld t (ren hd) s off
  | .hldSpill t hd slot4 => .hldSpill t (ren hd) slot4
  | .hst t hd s off => .hst t (ren hd) s off
  | .hstSpill t hd slot4 => .hstSpill t (ren hd) slot4
  | .hadv t hd s dim => .hadv t (ren hd) s dim
  | .specBegin t hc hg wm1 off => .specBegin t (ren hc) (ren hg) wm1 off
  | .vadd t hd ha hb ty rp => .vadd t (ren hd) (ren ha) (ren hb) ty rp
  | .vsub t hd ha hb ty rp => .vsub t (ren hd) (ren ha) (ren hb) ty rp
  | .vmul t hd ha hb ty rp => .vmul t (ren hd) (ren ha) (ren hb) ty rp
  | .vfma t hd ha hb ty rp => .vfma t (ren hd) (ren ha) (ren hb) ty rp
  | .vdiv t hd ha hb ty rp => .vdiv t (ren hd) (ren ha) (ren hb) ty rp
  | .vmin t hd ha hb ty rp => .vmin t (ren hd) (ren ha) (ren hb) ty rp
  | .vmax t hd ha hb ty rp => .vmax t (ren hd) (ren ha) (ren hb) ty rp
  | .vabs t hd ha ty rp => .vabs t (ren hd) (ren ha) ty rp
  | .vneg t hd ha ty rp => .vneg t (ren hd) (ren ha) ty rp
  | .vand t hd ha hb ty rp => .vand t (ren hd) (ren ha) (ren hb) ty rp
  | .vor t hd ha hb ty rp => .vor t (ren hd) (ren ha) (ren hb) ty rp
  | .vxor t hd ha hb ty rp => .vxor t (ren hd) (ren ha) (ren hb) ty rp
  | .vshl t hd ha hb ty rp => .vshl t (ren hd) (ren ha) (ren hb) ty rp
  | .vshr t hd ha hb ty rp => .vshr t (ren hd) (ren ha) (ren hb) ty rp
  | .vsra t hd ha hb ty rp => .vsra t (ren hd) (ren ha) (ren hb) ty rp
  | .vcmp t un cond ha hb ty rp => .vcmp t un cond (ren ha) (ren hb) ty rp
  | .vsel t hd ha hb ty rp => .vsel t (ren hd) (ren ha) (ren hb) ty rp
  | .vmov t hd ha ty rp => .vmov t (ren hd) (ren ha) ty rp
  | .vcvt t hd ha sat mode ty rp => .vcvt t (ren hd) (ren ha) sat mode ty rp
  | .vqnt t hd ha hb ty rp => .vqnt t (ren hd) (ren ha) (ren hb) ty rp
  | .vdqnt t hd ha hb ty rp => .vdqnt t (ren hd) (ren ha) (ren hb) ty rp
  | .vlog2 t hd ha ty rp => .vlog2 t (ren hd) (ren ha) ty rp
  | .vexp2 t hd ha ty rp => .vexp2 t (ren hd) (ren ha) ty rp
  | .vrcp t hd ha ty rp => .vrcp t (ren hd) (ren ha) ty rp
  | .vrsq t hd ha ty rp => .vrsq t (ren hd) (ren ha) ty rp
  | .vsqrt t hd ha ty rp => .vsqrt t (ren hd) (ren ha) ty rp
  | .vtanh t hd ha ty rp => .vtanh t (ren hd) (ren ha) ty rp
  | .vclass t ha set ty rp => .vclass t (ren ha) set ty rp
  | .vredSum t ha ty rp => .vredSum t (ren ha) ty rp
  | .vredMax t hd ha ty rp => .vredMax t (ren hd) (ren ha) ty rp
  | .vredMin t hd ha ty rp => .vredMin t (ren hd) (ren ha) ty rp
  | .vredMaxi t hd rp => .vredMaxi t (ren hd) rp
  | .vxrd t hd ty rp => .vxrd t (ren hd) ty rp
  | .vscan t hd ha ty rp => .vscan t (ren hd) (ren ha) ty rp
  | .vperm t hd ha hb ty rp => .vperm t (ren hd) (ren ha) (ren hb) ty rp
  | .vbcast t hd s ty rp => .vbcast t (ren hd) s ty rp
  | .viota t hd ty rp => .viota t (ren hd) ty rp
  | .vrng t hd ha hb rp => .vrng t (ren hd) (ren ha) (ren hb) rp
  | .vexpmax t hd ha ty rp => .vexpmax t (ren hd) (ren ha) ty rp
  | .vmaxi t ha rp => .vmaxi t (ren ha) rp
  | .mancScan t ha => .mancScan t (ren ha)
  | .mancLoad t ha => .mancLoad t (ren ha)
  | .mancColumn t g ha q => .mancColumn t g (ren ha) q
  | .mma t acc g ha q sm sn sk => .mma t acc g (ren ha) q sm sn sk
  | .mepi t acc hd act bias sm sn scale clr => .mepi t acc (ren hd) act (bias.map ren) sm sn scale clr
  | .mtopk t acc hd emit new k hx sm sn base => .mtopk t acc (ren hd) emit new k (ren hx) sm sn base
  | .rdacc t acc hd sm sn => .rdacc t acc (ren hd) sm sn
  | .mstatTile t acc hd which => .mstatTile t acc (ren hd) which
  | .mstatRowanc t hd => .mstatRowanc t (ren hd)
  | .mstatDesc t g hd => .mstatDesc t g (ren hd)
  | .mstatColanc t g hd q => .mstatColanc t g (ren hd) q
  | .relax t acc g hr f hz hu der cnt warm => .relax t acc g (ren hr) f (ren hz) (ren hu) (der.map ren) (cnt.map ren) warm
  | .relaxB t acc hr hz hu hd cnt g warm => .relaxB t acc (ren hr) (ren hz) (ren hu) (ren hd) (cnt.map ren) g warm
  | .rdahr t hd => .rdahr t (ren hd)
  | .wrahr t ha => .wrahr t (ren ha)
  | .accept t hc hg mode e => .accept t (ren hc) (ren hg) mode e
  | .ldT t h a b fa fv => .ldT t (ren h) a b fa fv
  | .ldX t h a b hx fa fv => .ldX t (ren h) a b (ren hx) fa fv
  | .ldGr t h a b hx fa fv => .ldGr t (ren h) a b (ren hx) fa fv
  | .ldG t h a b e fa fv g => .ldG t (ren h) a b e fa fv g
  | .ldGt t h a b e fa fv g => .ldGt t (ren h) a b e fa fv g
  | .ldSp t h a fa fv => .ldSp t (ren h) a fa fv
  | .ldNet t h a b e fa fv => .ldNet t (ren h) a b e fa fv
  | .linkRecv t h a b fa fv => .linkRecv t (ren h) a b fa fv
  | .stT t h a b fa fv => .stT t (ren h) a b fa fv
  | .stPart t h a b fa fv => .stPart t (ren h) a b fa fv
  | .stX t h a b hx fa fv => .stX t (ren h) a b (ren hx) fa fv
  | .stApp t h a fa fv => .stApp t (ren h) a fa fv
  | .stRmt t h a e fa fv => .stRmt t (ren h) a e fa fv
  | .stMc t h a b e fa fv die => .stMc t (ren h) a b e fa fv die
  | .stNet t h a b e fa fv => .stNet t (ren h) a b e fa fv
  | .linkSend t h a b fa fv => .linkSend t (ren h) a b fa fv
  | .linkRed t h a b fa fv rq inn => .linkRed t (ren h) a b fa fv rq inn
  | .baddStream t h a fa fv ty => .baddStream t (ren h) a fa fv ty
  | .bandStream t h a fa fv ty => .bandStream t (ren h) a fa fv ty
  | .borStream t h a fa fv ty => .borStream t (ren h) a fa fv ty
  | .bxorStream t h a fa fv ty => .bxorStream t (ren h) a fa fv ty
  | .bminStream t h a fa fv ty => .bminStream t (ren h) a fa fv ty
  | .bmaxStream t h a fa fv ty => .bmaxStream t (ren h) a fa fv ty
  | .bminnStream t h a fa fv ty => .bminnStream t (ren h) a fa fv ty
  | .bmaxnStream t h a fa fv ty => .bmaxnStream t (ren h) a fa fv ty
  | .bfminStream t h a fa fv => .bfminStream t (ren h) a fa fv
  | .bfmaxStream t h a fa fv => .bfmaxStream t (ren h) a fa fv
  | .bmaxiStream t h a b fa fv => .bmaxiStream t (ren h) a b fa fv
  | .bxaddStream t h a fa fv => .bxaddStream t (ren h) a fa fv
  | .bxrdStream t h a fa fv clr => .bxrdStream t (ren h) a fa fv clr
  | .bfaaStream t h a fa fv ty => .bfaaStream t (ren h) a fa fv ty
  | .bldStream t h a fa fv ty => .bldStream t (ren h) a fa fv ty
  | .bstStream t h a fa fv ty => .bstStream t (ren h) a fa fv ty
  | .bhistStream t h a b fa fv sh => .bhistStream t (ren h) a b fa fv sh
  | .baxpyStream t h a e fa fv ty => .baxpyStream t (ren h) a e fa fv ty
  | i => i

end Sys2Proof.Machine
end

