-- ==== Sys2Proof/Machine/Operands.lean ====
section
/-!
DEFINITION. Sys2Proof/Machine/Operands.lean: every operand form. Scalar, handle, spill and special registers; handle
fields, cursors and element addresses (R29 to R33, R111, R134, R139); scratchpad bytes with the old-value rule, the
full/empty bits and the layout tags (R34 to R40, R140); elements of every format (R30, R84).
-/

namespace Sys2Proof.Machine
open Sys2Proof

/-- What a meaning answers: it went on, it raised a cause (with the state its stated partial effect leaves), it waits with
the state as given, or the machine faults. -/
inductive Res (σ : Type) where
  | ok (s : σ)
  | stop (x : Stop) (s : σ)
  | wait (s : σ)
  | fault (f : Fault)
  deriving Repr

/-! ### Registers -/

/-- The first of several checks that fails. -/
def firstStop (l : List (Option Stop)) : Option Stop := l.findSome? id

/-- Reset values of the special registers of one core (R27, R43, R241, R353). -/
def srReset (n : Nat) : W64 :=
  match n with
  | 0x001 => 0x100 | 0x00B => 15 | 0x080 => 0x00FF0000 | 0x083 => 64 | 0x084 => 1
  | 0x086 => 0xBF800000 | 0x087 => 0x3F800000 | 0x088 => 0x3F000000 | _ => 0
/-- The special registers of a core at reset with STAT.DBG as given (R43, log entry 19). -/
def srDebug (dbg : Bool) : Map W64 := mput (srReset 0x001) [] 0x001 (if dbg then 0x300 else 0x100)
/-- Reading a scalar register; s0 reads as 0 (R28). -/
def Core.getS (c : Core) (r : Sreg) : W64 := if r = 0 then 0 else mget 0 c.r.s r.toNat
/-- Writing a scalar register; a write to s0 is discarded (R28). -/
def Core.setS (c : Core) (r : Sreg) (v : W64) : Core :=
  if r = 0 then c else { c with r := { c.r with s := mput 0 c.r.s r.toNat v } }
/-- The null handle (R16): KIND 3, every other field 0. -/
def nullH : W256 := 0xC0000000
/-- Reading a handle (R29). -/
def Core.getH (c : Core) (h : Hreg) : W256 := mget nullH c.r.h h.toNat
/-- A word of words lo to lo + n − 1 of an array. -/
def wordIn (isArr : ProtArr → Bool) (lo n : Nat) (w : ProtWord) : Bool := isArr w.arr && decide (lo ≤ w.idx ∧ w.idx < lo + n)
/-- An uncorrectable word of the core's arrays meets words lo to lo + n − 1 of an array (R420). -/
def Core.badIn (c : Core) (isArr : ProtArr → Bool) (lo n : Nat) : Option Nat :=
  (c.bad.find? (wordIn isArr lo n)).map (·.idx)
/-- A write that covers words lo to lo + n − 1 clears their errors (R420). -/
def Core.clearBad (c : Core) (isArr : ProtArr → Bool) (lo n : Nat) : Core :=
  if c.bad.isEmpty && c.weak.isEmpty then c
  else { c with bad := c.bad.filter (fun w => !wordIn isArr lo n w), weak := c.weak.filter (fun w => !wordIn isArr lo n w) }
/-- A read of words lo to lo + n − 1 corrects in place those with one failed bit; each correction counts (R419, R421). -/
def Core.corrects (c : Core) (isArr : ProtArr → Bool) (lo n : Nat) : Core :=
  if c.weak.isEmpty then c
  else { c with weak := c.weak.filter (fun w => !wordIn isArr lo n w), ce := c.ce + (c.weak.filter (wordIn isArr lo n)).length }
/-- The scratchpad array. -/
def isPad : ProtArr → Bool
  | .scratchpad _ => true | _ => false
/-- The spill array. -/
def isSpill : ProtArr → Bool
  | .spill _ => true | _ => false
/-- The handle array, four words a handle. -/
def isHandle : ProtArr → Bool
  | .handle _ => true | _ => false
/-- The token queues, one word each (log entry 31). -/
def isTokens : ProtArr → Bool
  | .tokens _ => true | _ => false
/-- The first uncorrectable scratchpad address of a read of n bytes at a (R419). -/
def Core.padBad (c : Core) (a n : Nat) : Option Nat :=
  if c.bad.isEmpty then none else (c.badIn isPad (a / 8) ((a + n + 7) / 8 - a / 8)).map (· * 8)
/-- A read of scratchpad bytes corrects the words it meets (R421). -/
def Core.corrPad (c : Core) (sp : List (Nat × Nat)) : Core :=
  if c.weak.isEmpty then c else sp.foldl (fun c x => c.corrects isPad (x.1 / 8) ((x.1 + x.2 + 7) / 8 - x.1 / 8)) c
/-- MEM.UE of an array (R245). -/
def stopUe (src : Strm) (arr addr : Nat) : Stop := ⟨.memUe, src, BitVec.ofNat 64 addr, BitVec.ofNat 64 arr⟩
/-- Writing a handle, never checked (R31). -/
def Core.setH (c : Core) (h : Hreg) (v : W256) : Core :=
  Core.clearBad { c with r := { c.r with h := mput nullH c.r.h h.toNat v } } isHandle (4 * h.toNat) 4
/-- The double of an image. -/
def dblOf (v : W256) (j : Nat) : W64 := BitVec.ofNat 64 (v.toNat / 2 ^ (64 * j))
/-- An image with one double replaced. -/
def setDbl (v : W256) (j : Nat) (x : W64) : W256 :=
  BitVec.ofNat 256 (v.toNat - (dblOf v j).toNat * 2 ^ (64 * j) + x.toNat * 2 ^ (64 * j))
/-- Writing one double of a handle, a protected word of its own (R419, R420). -/
def Core.setHDbl (c : Core) (h : Hreg) (j : Nat) (x : W64) : Core :=
  Core.clearBad { c with r := { c.r with h := mput nullH c.r.h h.toNat (setDbl (mget nullH c.r.h h.toNat) j x) } } isHandle (4 * h.toNat + j) 1
/-- Reading a spill slot (R33). -/
def Core.getSpill (c : Core) (n : Nat) : W64 := mget 0 c.r.spill n
/-- Writing a spill slot (R33). -/
def Core.setSpill (c : Core) (n : Nat) (v : W64) : Core :=
  Core.clearBad { c with r := { c.r with spill := mput 0 c.r.spill n v } } isSpill n 1
/-- A special register's stored value. -/
def Core.getSr (c : Core) (n : Nat) : W64 := mget (srReset n) c.r.sr n
/-- Storing a special register. -/
def Core.setSr (c : Core) (n : Nat) (v : W64) : Core :=
  { c with r := { c.r with sr := mput (srReset n) c.r.sr n v } }
/-- Setting PCFE. -/
def Core.setPc (c : Core) (p : W64) : Core := { c with r := { c.r with pc := p } }
/-- STAT.REG: the region is interlocked (R43). -/
def Core.interlocked (c : Core) : Bool := (c.getSr 0x001).getLsbD 8
/-- STAT.DBG: debug mode (R43). -/
def Core.debug (c : Core) : Bool := (c.getSr 0x001).getLsbD 9
/-- HRB.EN and HRB.BASE rename an upper handle number (R32). -/
def rename (hrb : W64) (h : Hreg) : Hreg :=
  if hrb.getLsbD 8 ∧ 16 ≤ h.toNat then BitVec.ofNat 5 (16 + (h.toNat - 16 + (hrb.toNat % 16)) % 16) else h

/-! ### Handle images (R29) -/

/-- The n bits of a handle from bit lo, as a number. -/
def hBits (h : W256) (lo n : Nat) : Nat := h.toNat / 2 ^ lo % 2 ^ n
/-- The handle with those n bits replaced. -/
def hPut (h : W256) (lo n v : Nat) : W256 := BitVec.ofNat 256 (h.toNat - hBits h lo n * 2 ^ lo + (v % 2 ^ n) * 2 ^ lo)

/-- The fields of a handle image (R29); an extent of 0 stands for 4,096. -/
structure HD where
  base   : Nat
  layout : Nat
  fmt    : Nat
  kind   : Nat
  ext    : List Nat
  str    : List Int
  idx    : List Nat
  sae    : Bool
  fet    : Bool
  lspl   : Bool
  rsv    : Nat
  soff   : Nat
  /-- The handle's own format has scale words. -/
  scl    : Bool
  deriving DecidableEq, Repr

/-- Reading the fields of an image. -/
def HD.of (h : W256) : HD :=
  { base := hBits h 0 22, layout := hBits h 22 2, fmt := hBits h 24 6, kind := hBits h 30 2,
    ext := [0, 1, 2, 3, 4].map (fun d => let e := hBits h (32 + 12 * d) 12; if e = 0 then 4096 else e),
    str := [0, 1, 2, 3, 4].map (fun d => sext 16 (hBits h (92 + 16 * d) 16)),
    idx := [0, 1, 2, 3, 4].map (fun d => hBits h (172 + 12 * d) 12),
    sae := hBits h 232 1 == 1, fet := hBits h 233 1 == 1, lspl := hBits h 234 1 == 1,
    rsv := hBits h 235 5, soff := hBits h 240 16, scl := fmtBk (hBits h 24 6) }
/-- Extent d. -/
def HD.e (h : HD) (d : Nat) : Nat := nth 1 h.ext d
/-- Cursor d. -/
def HD.i (h : HD) (d : Nat) : Nat := nth 0 h.idx d
/-- The image with its five cursors replaced. -/
def setIdx (h : W256) (ix : List Nat) : W256 :=
  [0, 1, 2, 3, 4].foldl (fun h d => hPut h (172 + 12 * d) 12 (nth 0 ix d)) h
/-- Twice the element size (R72). -/
def HD.half (h : HD) : Nat := fmtHalf h.fmt
/-- The product of the extents (R134). -/
def HD.total (h : HD) : Nat := h.e 0 * h.e 1 * h.e 2 * h.e 3 * h.e 4
/-- The position of the cursors (R134). -/
def HD.pos (h : HD) : Nat := h.i 0 + h.e 0 * (h.i 1 + h.e 1 * (h.i 2 + h.e 2 * (h.i 3 + h.e 3 * h.i 4)))
/-- The cursors of a position. -/
def HD.split (h : HD) (p : Nat) : List Nat :=
  [p % h.e 0, p / h.e 0 % h.e 1, p / h.e 0 / h.e 1 % h.e 2, p / h.e 0 / h.e 1 / h.e 2 % h.e 3,
   p / h.e 0 / h.e 1 / h.e 2 / h.e 3]
/-- The check of a handle at its use (R31); one that fails both checks raises HANDLE (log entry 102). -/
def HD.check (h : HD) : Option Cause :=
  if h.kind ≠ 0 ∨ h.layout = 3 ∨ h.rsv ≠ 0 then some .handle
  else if fmtOk h.fmt then none else some .format
/-- FF.INFO of HANDLE naming a handle (R245). -/
def hInfo (r : Hreg) : W64 := BitVec.ofNat 64 (32 + r.toNat)
/-- HANDLE naming a handle and a scratchpad address (R245). -/
def stopH (src : Strm) (r : Hreg) (addr : Nat) : Stop := ⟨.handle, src, BitVec.ofNat 64 addr, hInfo r⟩
/-- FORMAT of a handle (R245). -/
def stopF (src : Strm) (f : Nat) : Stop := ⟨.format, src, 0, BitVec.ofNat 64 f⟩
/-- The stop of a handle that fails R31. -/
def HD.stopOf (h : HD) (src : Strm) (r : Hreg) : Option Stop :=
  match h.check with
  | none => none
  | some .format => some (stopF src h.fmt)
  | some _ => some (stopH src r 0)

/-- The element offset of a cursor position (R30, R139). -/
def HD.off (h : HD) (ix : List Nat) : Int :=
  [0, 1, 2, 3, 4].foldl (fun a d => a + ((nth 0 ix d : Nat) : Int) * nth 0 h.str d) 0
/-- The half-byte address of an element at offset u under the handle's layout; none where the layout's requirements fail
(R139). -/
def HD.place (h : HD) (u : Int) : Option Nat :=
  if u < 0 then none
  else
    let u := u.toNat
    match h.layout with
    | 0 => some (2 * h.base + h.half * u)
    | 1 =>
      if h.base % 128 ≠ 0 then none
      else
        let o2 := h.half * u
        let o := o2 / 2
        let row := o / 128
        let c := o % 128 / 16
        some (2 * (h.base + 128 * row + 16 * (c ^^^ (row % 8)) + o % 16) + o2 % 2)
    | _ =>
      let P := nth 0 h.str 1
      if h.base % 64 ≠ 0 ∨ P ≤ 0 ∨ P % 16 ≠ 0 then none
      else
        let P := P.toNat
        let r := u / P
        let c := u % P
        let t := r / 16 * (P / 16) + c / 16
        some (2 * h.base + h.half * (256 * t + 16 * (r % 16) + c % 16))
/-- The size of a scratchpad in bytes (R34). -/
def padSize : Nat := 0x400000
/-- The address of the scale word of the element at cursors ix (R84). -/
def HD.scaleAddr (h : HD) (ix : List Nat) : Nat :=
  let b := nth 0 ix 0 / 32 + cdiv (h.e 0) 32 * (nth 0 ix 1 + h.e 1 * (nth 0 ix 2 + h.e 2 * (nth 0 ix 3 + h.e 3 * nth 0 ix 4)))
  h.base + 64 * h.soff + 2 * b
/-- The half-byte address of the element at cursors ix, or the failing address (R30): the element and, in a
block format, its scale word lie in the scratchpad (log entry 80). -/
def HD.addr (h : HD) (ix : List Nat) : Except Nat Nat :=
  match h.place (h.off ix) with
  | none => .error 0
  | some a =>
    if 2 * padSize < a + h.half then .error (a / 2)
    else if h.scl && decide (padSize < h.scaleAddr ix + 2) then .error (h.scaleAddr ix)
    else .ok a

/-! ### Scratchpad bytes -/

/-- The bits of the element at a half-byte address. -/
def elBits (m : Mem) (a half : Nat) : Nat :=
  if half = 1 then (rd m (a / 2)).toNat / (if a % 2 = 0 then 1 else 16) % 16
  else leNat (rdN m (a / 2) (half / 2))
/-- The bytes that writing an element stores, with their address. A half-byte element keeps the other half (R30). -/
def elBytes (m : Mem) (a half v : Nat) : Nat × List Byte :=
  if half = 1 then
    let b := (rd m (a / 2)).toNat
    (a / 2, [BitVec.ofNat 8 (if a % 2 = 0 then b / 16 * 16 + v % 16 else v % 16 * 16 + b % 16)])
  else (a / 2, toLE (half / 2) v)
/-- Writes that are due in cycle `now` or earlier, over a memory (R37). -/
def overlay (m : Mem) (ds : List Due) (now : Nat) : Mem :=
  ds.foldl (fun m d => match d.wr with
    | .mem a bs => if d.due ≤ now then wrL m a bs else m
    | .nib a2 v => if d.due ≤ now then let e := elBytes m a2 1 v; wrL m e.1 e.2 else m
    | _ => m) m
/-- The scratchpad as an instruction that starts in cycle `now` reads it (R37, R39). -/
def Core.padAt (c : Core) (now : Nat) : Mem := overlay c.pad.mem c.eng.due now
/-- The scratchpad bytes of a due write: address and number. -/
def DueWr.span : DueWr → Option (Nat × Nat)
  | .mem b bs => some (b, bs.length)
  | .nib a2 _ => some (a2 / 2, 1)
  | _ => none
/-- The first scratchpad word of the range that has a write not yet due: for a read of the FE or the EX, a write of its own stream
(R39); for one of a copy, a write of any stream (R174). -/
def Core.early (c : Core) (src : Strm) (now a n : Nat) : Option Nat :=
  (c.eng.due.filterMap (fun d => d.wr.span.bind (fun x =>
    if (d.strm = src ∨ src = .ld ∨ src = .st) ∧ now < d.due ∧ x.1 / 4 * 4 < a + n ∧ a < (x.1 + x.2 + 3) / 4 * 4 then
      some (max (x.1 / 4 * 4) (a / 4 * 4))
    else none))).min?
/-- Comparison by a condition code on 64-bit integers (R54). -/
def condInt (k : Cond) (x y : W64) : Bool :=
  match k with
  | .eq => x == y | .ne => x != y
  | .lt => x.slt y | .le => x.sle y | .gt => y.slt x | .ge => y.sle x
  | .ltn => x.ult y | .len => x.ule y | .gtn => y.ult x | .gen => y.ule x
  | .any => (x &&& y) != 0 | .all => (x &&& y) == y
/-- A write of n bytes at a meets the scratchpad double that a sleeping WAITA watches. -/
def Core.watched (c : Core) (a n : Nat) : Bool :=
  match c.sleep with
  | .waita _ _ addr true .. => decide (a < addr.toNat + 8 ∧ addr.toNat < a + n)
  | _ => false
/-- A write of the range meets the word of a WAITA on this scratchpad: the condition is evaluated on the value it left
(R120). -/
def Core.watch (c : Core) (a n : Nat) : Core :=
  match c.sleep with
  | .waita tok d addr true pa v k t st hit fo =>
    if a < addr.toNat + 8 ∧ addr.toNat < a + n ∧ !hit then
      { c with sleep := .waita tok d addr true pa v k t st (condInt k (rd64 c.pad.mem addr.toNat) v) fo }
    else c
  | _ => c
/-- The FE sleeps on as before writes that are one in time, and sees the value that all of them leave at its word (R120). -/
def Core.sees (q : Core) (sl : Sleep) (sp : List (Nat × Nat)) : Core :=
  let k := { q with sleep := sl }
  match sp.find? (fun x => k.watched x.1 x.2) with
  | some x => k.watch x.1 x.2
  | none => k
/-- Writes that are one in time, such as a granule that lands whole (R36) or the results of one repetition (R37): a WAITA sees the
value that all of them leave. -/
def Core.atOnce (c : Core) (sp : List (Nat × Nat)) (f : Core → Core) : Core := (f { c with sleep := .awake }).sees c.sleep sp
/-- The granules of 256 bytes whose lowest byte lies in the range. -/
def granLow (a n : Nat) : List Nat := (upto (n / 256 + 2)).map (· + a / 256) |>.filter (fun g => a ≤ 256 * g ∧ 256 * g < a + n)
/-- The granules whose highest byte lies in the range. -/
def granHigh (a n : Nat) : List Nat :=
  (upto (n / 256 + 2)).map (· + a / 256) |>.filter (fun g => a ≤ 256 * g + 255 ∧ 256 * g + 255 < a + n)
/-- The full granules after a write of n bytes at a: those whose highest byte it writes are set full when its issuer is in an
interlocked region (R35). -/
def Core.fullBy (c : Core) (inter : Bool) (a n : Nat) : List Nat :=
  if inter then (granHigh a n).foldl sins c.pad.full else c.pad.full
/-- Writing bytes at once, with the granules set full that R35 states for a write in an interlocked region. -/
def Core.store (c : Core) (inter : Bool) (a : Nat) (bs : List Byte) : Core :=
  let full := c.fullBy inter a bs.length
  Core.clearBad (Core.watch { c with pad := { c.pad with mem := wrL c.pad.mem a bs, full := full } } a bs.length)
    isPad (cdiv a 8) ((a + bs.length) / 8 - cdiv a 8)
/-- Insertion in due order, older writes first. -/
def dueIns (d : Due) : List Due → List Due
  | [] => [d]
  | x :: t => if d.due < x.due then d :: x :: t else x :: dueIns d t
/-- A write that becomes due. -/
def Core.addDue (c : Core) (d : Due) : Core := { c with eng := { c.eng with due := dueIns d c.eng.due } }
/-- Writing bytes whose result is due in cycle `due` (R37, R40): at once in an interlocked region. -/
def Core.storeDue (c : Core) (strm : Strm) (due a : Nat) (bs : List Byte) : Core :=
  if c.interlocked then c.store true a bs else c.addDue ⟨due, strm, .mem a bs⟩
/-- Writing an element whose result is due in cycle `due`; a half-byte element leaves the other half as it stands then (R30). -/
def Core.putDue (c : Core) (strm : Strm) (due a2 half v : Nat) : Core :=
  if c.interlocked then let e := elBytes c.pad.mem a2 half v; c.store true e.1 e.2
  else c.addDue ⟨due, strm, if half = 1 then .nib a2 v else .mem (a2 / 2) (toLE (half / 2) v)⟩
/-- A write of scratchpad bytes waits until it is due. -/
def Core.memDue (c : Core) : Bool := c.eng.due.any (fun d => d.wr.span.isSome)
/-- Writing bytes of a copy or a remote copy that land in cycle `at'`: behind the writes that are due before, when such are
pending. -/
def Core.landAt (c : Core) (inter : Bool) (strm : Strm) (at' a : Nat) (bs : List Byte) : Core :=
  if c.memDue then
    Core.addDue { c with pad := { c.pad with full := c.fullBy inter a bs.length } } ⟨at', strm, .mem a bs⟩
  else c.store inter a bs
/-- The runs of half-bytes of a granule, or of one flag, landing together. -/
def Core.landTogether (c : Core) (sp : List (Nat × Nat)) (f : Core → Core) : Core := if c.memDue then f c else c.atOnce sp f
/-- Writing a run of half-bytes of a copy that lands in cycle `at'`, behind the writes that are due before (R30, R37). -/
def Core.landNib (c : Core) (inter : Bool) (strm : Strm) (at' : Nat) (w : Nat × Nat × Nat) : Core :=
  if w.2.1 = 1 ∧ c.memDue then
    Core.addDue { c with pad := { c.pad with full := c.fullBy inter (w.1 / 2) 1 } } ⟨at', strm, .nib w.1 w.2.2⟩
  else let e := elBytes c.pad.mem w.1 w.2.1 w.2.2; c.landAt inter strm at' e.1 e.2
/-- Setting bits of a special register. -/
def Core.orSr (c : Core) (n : Nat) (v : W64) : Core := c.setSr n (c.getSr n ||| v)
/-- Writing bytes that become due: a WAITA that started since sees the write. -/
def Core.storeWhen (c : Core) (due a : Nat) (bs : List Byte) : Core :=
  let old := match c.sleep with
    | .waita _ _ _ _ _ _ _ _ start _ _ => decide (due ≤ start)
    | _ => false
  if old then { c.store false a bs with sleep := c.sleep } else c.store false a bs
/-- Applying a due write. -/
def Core.apply (c : Core) (d : Due) : Core :=
  match d.wr with
  | .s r v => c.setS r v
  | .h r v => c.setH r v
  | .mem a bs => c.storeWhen d.due a bs
  | .nib a2 v => let e := elBytes c.pad.mem a2 1 v; c.storeWhen d.due e.1 e.2
  | .flags f => c.orSr 0x001 (f.setWidth 64)
  | .mx f => c.orSr 0x141 (f.setWidth 64)
/-- The least cycle in which a stream of the core may still start an instruction: an engine with an empty queue starts none
before the FE's cycle. -/
def Core.horizon (c : Core) : Nat :=
  let of (at' : Nat) (q : List Entry) : Nat := match q with
    | [] => c.eng.cyc
    | en :: _ => max at' (en.routed + 1)
  min c.eng.cyc (min (of c.eng.ldAt c.eng.ld) (min (of c.eng.exAt c.eng.ex) (of c.eng.stAt c.eng.st)))
/-- A pending write that is made when an instruction of a stream starts in cycle `now`: a register that the stream writes and,
for the FE, a flag, when it is due by then; scratchpad bytes when no stream can still start before they are due. -/
def Core.ripe (c : Core) (strm : Strm) (now : Nat) (d : Due) : Bool :=
  match d.wr with
  | .mem _ _ => decide (d.due ≤ min now c.horizon)
  | .nib _ _ => decide (d.due ≤ min now c.horizon)
  | .flags _ => decide (strm = .fe ∧ d.due ≤ now)
  | .mx _ => decide (strm = .fe ∧ d.due ≤ now)
  | .s _ _ => decide (d.strm = strm ∧ d.due ≤ now)
  | .h _ _ => decide (d.strm = strm ∧ d.due ≤ now)
/-- Applying due writes in their order: a WAITA sees its word when the last of the writes of one cycle to it is made (R120). -/
def Core.applyAll : List Due → Core → Core
  | [], c => c
  | d :: t, c =>
    let more := t.any (fun x => x.due == d.due && (x.wr.span.map (fun r => c.watched r.1 r.2)).getD false)
    Core.applyAll t (if more then { c.apply d with sleep := c.sleep } else c.apply d)
/-- Making the pending writes that satisfy a test, in the order in which they are due. -/
def Core.flushIf (c : Core) (p : Due → Bool) : Core :=
  Core.applyAll (c.eng.due.filter p) { c with eng := { c.eng with due := c.eng.due.filter (fun d => !p d) } }
/-- The writes that an instruction of a stream which starts in cycle `now` finds made (R37, R43). -/
def Core.flush (c : Core) (strm : Strm) (now : Nat) : Core := c.flushIf (c.ripe strm now)
/-- Every pending write is made: the engines are drained. -/
def Core.flushAll (c : Core) : Core := c.flushIf (fun _ => true)
/-- Setting the layout tags of the pages a handle write touches (R140). -/
def Core.tag (c : Core) (layout a n : Nat) : Core :=
  let ps := (upto (n / 4096 + 2)).map (· + a / 4096) |>.filter (fun p => p * 4096 < a + n)
  { c with pad := { c.pad with tags := ps.foldl (fun t p => mput 0 t p (BitVec.ofNat 2 layout)) c.pad.tags } }
/-- The first address of a handle read whose page tag differs, in debug mode (R140); an element may lie on two pages. -/
def Core.badTag (c : Core) (h : HD) (sp : List (Nat × Nat)) : Option (Nat × Nat) :=
  let differs (a : Nat) : Option (Nat × Nat) :=
    let t := (mget 0 c.pad.tags (a / 4096)).toNat
    if t ≠ h.layout then some (a, t) else none
  if c.debug then
    sp.findSome? (fun x => (differs x.1).orElse (fun _ => differs (max x.1 ((x.1 + x.2 - 1) / 4096 * 4096))))
  else none
/-- The LAYOUT stop (R140, R245). -/
def stopL (src : Strm) (h : HD) (x : Nat × Nat) : Stop :=
  ⟨.layout, src, BitVec.ofNat 64 x.1, BitVec.ofNat 64 (x.2 + 4 * h.layout)⟩

/-! ### Elements -/

/-- An element read exactly in its own format, with the scale of its block (R30, R84). -/
def elExact (m : Mem) (h : HD) (ix : List Nat) (a : Nat) : AEl :=
  let b := elBits m a h.half
  if fmtBk h.fmt then
    let s := scaleOf (leNat (rdN m (h.scaleAddr ix) 2))
    ⟨bkVal s (sext (4 * h.half) b), s⟩
  else ⟨decElem h.fmt b, 0⟩
/-- The bytes of the element at a half-byte address: address and number. -/
def HD.span (h : HD) (a2 : Nat) : Nat × Nat := (a2 / 2, (a2 + h.half + 1) / 2 - a2 / 2)
/-- The bytes that elements at some cursors take: their own, and their scale words (R84). -/
def HD.spans (h : HD) (ixs : List (List Nat)) (as : List Nat) : List (Nat × Nat) :=
  as.map h.span ++ (if h.scl then ixs.map (fun ix => (h.scaleAddr ix, 2)) else [])
/-- The half-byte addresses of a list of cursor positions, or the first failing address. -/
def HD.addrs (h : HD) : List (List Nat) → Except Nat (List Nat)
  | [] => .ok []
  | ix :: t =>
    match h.addr ix with
    | .error a => .error a
    | .ok a => match h.addrs t with
      | .error b => .error b
      | .ok l => .ok (a :: l)
/-- The cursors of the positions from the handle's position to its total. -/
def HD.tile (h : HD) : List (List Nat) := (upto (h.total - h.pos)).map (fun k => h.split (h.pos + k))
/-- The 64-byte granules of a range of half-bytes. -/
def granules64 (a2 n : Nat) : List Nat := (upto ((a2 + n + 127) / 128 - a2 / 128)).map (· + a2 / 128)
/-- The granules that a copy in flight lands in (R36): the load that has begun at the head of its queue, unless it reads for itself,
loads that have landed and are not complete, and the remote copies in the channels to the core. -/
def Core.landsIn (c : Core) (src : Strm) : List Nat :=
  (match c.eng.ld.head?.map (fun (en : Entry) => en.mark) with
    | some (.copy m) => if src ≠ .ld ∧ (m.n ≠ 0 ∨ m.rows ≠ []) then m.gs else []
    | _ => []) ++
  (if src = .ld then [] else c.eng.flight.flatMap (fun en => match en.mark with | .landed gs => gs | _ => [])) ++
  c.inbox.flatMap (fun q => q.2.flatMap (fun e => if e.tag.isSome then e.ws.flatMap (fun w => granules64 w.1 w.2.1) else []))
/-- The granule of a range that a copy in flight writes, in debug mode (R36). -/
def Core.landing (c : Core) (src : Strm) (a n : Nat) : Option Nat :=
  if c.debug then ((c.landsIn src).find? (fun g => decide (a / 64 ≤ g ∧ g ≤ (a + n - 1) / 64))).map (64 * ·) else none
/-- A tracked handle's accesses obey the full/empty bits (R35). -/
def Core.tracks (k : Core) (h : HD) : Bool := h.fet && k.interlocked
/-- The EARLY.READ stop of a read of n bytes at a in cycle `now`: of a copy in flight, unless the read obeys the full/empty discipline
(`fet`), or in a static region of a write not yet due (R36, R39). -/
def Core.earlyPad (c : Core) (src : Strm) (fet : Bool) (now a n : Nat) : Option Stop :=
  match if fet then none else c.landing src a n with
  | some g => some ⟨.earlyRead, src, BitVec.ofNat 64 g, 0⟩
  | none =>
    if c.debug && !c.interlocked then (c.early src now a n).map (fun w => ⟨.earlyRead, src, BitVec.ofNat 64 w, 0⟩) else none
/-- Normalise (R134): the cursors to use, or none for the HANDLE trap of a stopped stream. -/
def HD.norm (h : HD) : Option (List Nat) :=
  if h.sae ∧ h.e 4 = 4096 then none
  else if [0, 1, 2, 3, 4].any (fun d => h.e d ≤ h.i d) then
    if h.sae then none else some (h.split (h.pos % h.total))
  else some h.idx
/-- Advance (R134): the cursors after n elements from cursors ix, and whether the stream reached its end. -/
def HD.adv (h : HD) (ix : List Nat) (n : Nat) : List Nat × Bool :=
  let q := { h with idx := ix }.pos + n
  if q = h.total then (if h.sae then [0, 0, 0, 0, h.e 4] else [0, 0, 0, 0, 0], true) else (h.split q, false)
/-- The granules that a byte range touches (R35). -/
def granOf (a n : Nat) : List Nat := (upto ((a + n + 255) / 256 - a / 256)).map (· + a / 256)
/-- A read may not yet touch one of its granules (R35): a granule read through a tracked handle is not full. -/
def Core.fetRead (c : Core) (h : HD) (sp : List (Nat × Nat)) : Bool :=
  h.fet && c.interlocked && sp.any (fun x => (granOf x.1 x.2).any (fun g => !c.pad.full.contains g))
/-- A write may not yet touch one of its granules (R35): it includes the lowest byte of a granule that is full. -/
def Core.fetWrite (c : Core) (h : HD) (sp : List (Nat × Nat)) : Bool :=
  h.fet && c.interlocked && sp.any (fun x => (granLow x.1 x.2).any c.pad.full.contains)
/-- After a tracked read, the granules whose highest byte it included are empty (R35). -/
def Core.drain (c : Core) (h : HD) (sp : List (Nat × Nat)) : Core :=
  if h.fet && c.interlocked then
    let gone := sp.flatMap (fun x => granHigh x.1 x.2)
    { c with pad := { c.pad with full := c.pad.full.filter (fun g => !gone.contains g) } }
  else c

end Sys2Proof.Machine
end

