-- ==== Sys2Proof/Machine/Flags.lean ====
section
/-!
DEFINITION. Sys2Proof/Machine/Flags.lean: the sticky flags: STAT (R43) and MX.STAT (R210). The flags of a rounding, of a
conversion and of an exact operation are computed with its result in Machine/Num.lean (R77 to R82) and handed to these.
-/

namespace Sys2Proof.Machine
open Sys2Proof

/-- Setting sticky flags of STAT (R43). -/
def Core.flags (c : Core) (f : Fl) : Core :=
  if f = 0 then c else c.orSr 0x001 (f.setWidth 64)
/-- The sticky flags of an instruction of the EX or a copy engine that completes: they are seen from cycle `at'` on (R43). -/
def Core.flagsAt (c : Core) (at' : Nat) (f : Fl) : Core := if f = 0 then c else c.addDue ⟨at', .ex, .flags f⟩
/-- Setting flags of MX.STAT (R210): AS 0, NONFIN 1, CHK 2, SAT 3. -/
def Core.mxFlags (c : Core) (f : BitVec 4) : Core :=
  if f = 0 then c else c.orSr 0x141 (f.setWidth 64)
/-- The flags of MX.STAT of an instruction that completes: they are seen from cycle `at'` on (R210). -/
def Core.mxFlagsAt (c : Core) (at' : Nat) (f : BitVec 4) : Core := if f = 0 then c else c.addDue ⟨at', .ex, .mx f⟩
/-- The bits of STAT that a write of 1 clears (R43). -/
def statW1c : W64 := 0x1F
/-- The bits of MX.STAT that a write of 1 clears (R210). -/
def mxStatW1c : W64 := 0xF

end Sys2Proof.Machine
end

