-- ==== Sys2Proof/Machine/Translate.lean ====
section
/-!
DEFINITION. Sys2Proof/Machine/Translate.lean: the physical map (R290, R291), the walk and its checks (R302 to R307), the
segment table with Enter and Leave (R304, R312), and the reserve's lines (R288).
-/

namespace Sys2Proof.Machine
open Sys2Proof

/-! ### The physical map (R290, R291) -/

/-- Bytes served by an HBM stack. -/
def hbmBytes : Nat := 64000000000
/-- The regions of R290: 0 HBM, 1 far tier, 2 Crock. -/
def homeOf (pa : Nat) : Option Nat :=
  if pa < 0x8000000000 then (if pa % 0x1000000000 < hbmBytes then some 0 else none)
  else if 0x10000000000 ≤ pa ∧ pa < 0x20000000000 then some 1
  else if 0x20000000000 ≤ pa ∧ pa < 0x20000000000 + 4 * 0x8000000 then some 2
  else none
/-- The die that serves a physical address (R290). -/
def dieOf (pa : Nat) : Nat :=
  if pa < 0x8000000000 then pa / 0x1000000000 / 2
  else if pa < 0x20000000000 then (pa - 0x10000000000) / 0x4000000000
  else (pa - 0x20000000000) / 0x8000000
/-- The bank of a word (R291, R292): a Crock bank as die × 512 + bank, any other line as 2,048 + its number. -/
def bankOf (pa : Nat) : Nat :=
  if 0x20000000000 ≤ pa then dieOf pa * 512 + (pa - 0x20000000000) % 0x8000000 / 64 % 512 else 2048 + pa / 64
/-- [a, a + n) lies within one populated region (R314). -/
def inOneRegion (a n : Nat) : Bool :=
  if a < 0x8000000000 then decide (a % 0x1000000000 + n ≤ hbmBytes)
  else if 0x10000000000 ≤ a ∧ a < 0x20000000000 then decide (a + n ≤ 0x20000000000)
  else if 0x20000000000 ≤ a ∧ a < 0x20000000000 + 4 * 0x8000000 then
    decide ((a - 0x20000000000) % 0x8000000 + n ≤ 0x8000000)
  else false

/-! ### Bit fields of doubles -/

/-- Bits hi to lo of a double, as a number. -/
def bits (v : W64) (hi lo : Nat) : Nat := v.toNat / 2 ^ lo % 2 ^ (hi + 1 - lo)
/-- The double with bits hi to lo replaced. -/
def putBits (v : W64) (hi lo x : Nat) : W64 :=
  BitVec.ofNat 64 (v.toNat - bits v hi lo * 2 ^ lo + x % 2 ^ (hi + 1 - lo) * 2 ^ lo)

/-! ### Translation -/

/-- What an agent translates under (R302, R308): identifier, level-0 node, segment table and its length, privilege,
and whether HOLD is passed over (the dispatcher's own words, log entry 6). -/
structure Env where
  asid  : Nat
  troot : W64
  segt  : Nat
  segn  : Nat
  priv  : Bool
  noHold : Bool
  deriving DecidableEq, Repr
/-- The permissions an access needs (R305). -/
structure Need where
  r : Bool
  w : Bool
  x : Bool
  deriving DecidableEq, Repr
/-- Instruction fetch. -/
def needX : Need := ⟨false, false, true⟩
/-- Plain loads, record reads, WAITA reads, PREF; BLD, BPFX and BXRD without CLR. -/
def needR : Need := ⟨true, false, false⟩
/-- Plain stores; ring bytes. -/
def needW : Need := ⟨false, true, false⟩
/-- Every other bank operation; MIGR. -/
def needRW : Need := ⟨true, true, false⟩

/-- A segment entry (R304). -/
structure SegEnt where
  d0 : W64
  len : Nat
  busy : Nat
  rowlen : Nat
  scale : Nat
  deriving DecidableEq, Repr
/-- The address of a segment entry. -/
def segAddr (e : Env) (sg : Nat) : Nat := e.segt + 32 * sg
/-- Reading a segment entry from committed memory. -/
def segAt (m : Mem) (e : Env) (sg : Nat) : SegEnt :=
  let a := segAddr e sg
  let d3 := rd64 m (a + 24)
  ⟨rd64 m a, bits (rd64 m (a + 8)) 31 0, bits (rd64 m (a + 16)) 31 0, bits d3 63 32, bits d3 31 0⟩
/-- V of a segment entry. -/
def SegEnt.v (n : SegEnt) : Bool := n.d0.getLsbD 63
/-- HOLD. -/
def SegEnt.hold (n : SegEnt) : Bool := n.d0.getLsbD 62
/-- HOME. -/
def SegEnt.home (n : SegEnt) : Nat := bits n.d0 61 60
/-- STATE. -/
def SegEnt.state (n : SegEnt) : Nat := bits n.d0 59 58
/-- PBASE × 65,536. -/
def SegEnt.base (n : SegEnt) : Nat := bits n.d0 47 16 * 65536

/-- A fault of translation: cause and subcause (R306), FORMAT of a page whose format and geometry do not agree (R304), a wait
on HOLD, or a physical address R290 leaves unpopulated. -/
inductive XErr where
  | f (c : Cause) (sub : Nat)
  | fmt (f : Nat)
  | hold
  | bad (pa : Nat)
  deriving DecidableEq, Repr

/-- NodeSegment (R307). -/
def nodeSeg (m : Mem) (e : Env) (sg : Nat) : Except XErr SegEnt :=
  if e.segn ≤ sg then .error (.f .table 2)
  else
    let n := segAt m e sg
    if !n.v then .error (.f .table 2)
    else if n.hold && !e.noHold then .error .hold
    else if n.state = 2 then .error (.f .table 1)
    else if n.state ≠ 0 then .error (.f .table 0)
    else if n.home = 2 then .error (.f .table 3)
    else .ok n
/-- The table index of an address at a level (R302). -/
def lvlIndex (va : Nat) (lvl : Nat) : Nat := va / 2 ^ (43 - 9 * lvl) % 512
/-- The size code of a leaf found at a level: 0 64 KiB, 1 2 MiB, 2 1 GiB. -/
def pageSize (code : Nat) : Nat := if code = 0 then 2 ^ 16 else if code = 1 then 2 ^ 21 else 2 ^ 30
/-- A pointer entry's reserved fields are 0 (R303). -/
def ptrOk (x : W64) : Bool := bits x 62 48 = 0
/-- Walk (R307) from a level on: the leaf with its size code. -/
def walkFrom (m : Mem) (e : Env) (va : Nat) : Nat → Nat → Nat → Nat → Except XErr (W64 × Nat)
  | 0, _, _, _ => .error (.f .table 2)
  | fuel + 1, lvl, sg, off =>
    match nodeSeg m e sg with
    | .error x => .error x
    | .ok n =>
      if n.len * 65536 < off + 4096 then .error (.f .table 2)
      else
        let i := lvlIndex va lvl
        let node := n.base + off
        let g := rd64 m (node + 8 * (i / 32 * 32))
        if homeOf node = none then .error (.bad node)
        else if 2 ≤ lvl ∧ g.getLsbD 63 ∧ g.getLsbD 62 ∧ g.getLsbD 61 then
          let code := if lvl = 2 then 2 else 1
          if bits g 31 0 % (if lvl = 2 then 16384 else 32) ≠ 0 then .error (.f .table 2) else .ok (g, code)
        else
          let x := rd64 m (node + 8 * i)
          if !x.getLsbD 63 then .error (.f .page 0)
          else if x.getLsbD 62 then
            if lvl ≠ 3 ∨ x.getLsbD 61 then .error (.f .table 2) else .ok (x, 0)
          else if lvl = 3 ∨ !ptrOk x then .error (.f .table 2)
          else walkFrom m e va fuel (lvl + 1) (bits x 47 32) (bits x 31 0 * 4096)
/-- Walk (R307). -/
def walk (m : Mem) (e : Env) (va : Nat) : Except XErr (W64 × Nat) :=
  walkFrom m e va 4 0 (bits e.troot 47 32) (bits e.troot 31 0 * 4096)

/-- The translations a core or port holds: keyed by identifier and page number × 4 + size code. -/
abbrev Tlb := List ((Nat × Nat) × W64)
/-- The translation held for an address under an identifier. -/
def tlbFind (t : Tlb) (asid va : Nat) : Option (W64 × Nat) :=
  t.findSome? (fun x => if x.1.1 = asid ∧ va / pageSize (x.1.2 % 4) = x.1.2 / 4 then some (x.2, x.1.2 % 4) else none)
/-- Installing a leaf; the oldest of 512 leaves (R307). -/
def tlbPut (t : Tlb) (asid va : Nat) (l : W64 × Nat) : Tlb :=
  ((((asid, va / pageSize l.2 * 4 + l.2), l.1)) :: t).take 512
/-- Dropping the translations in a TLBI's scope (R132): 0 page, 1 identifier, 2 all. -/
def tlbDrop (t : Tlb) (scope asid va : Nat) : Tlb :=
  t.filter (fun x => !(scope == 2 || (x.1.1 == asid && (scope == 1 || va / pageSize (x.1.2 % 4) == x.1.2 / 4))))

/-- A translated address: physical address, leaf, size code, segment and its entry. -/
structure Xlated where
  pa   : Nat
  leaf : W64
  seg  : Nat
  ent  : SegEnt
  deriving DecidableEq, Repr
/-- FMT of the page. -/
def Xlated.fmt (x : Xlated) : Nat := bits x.leaf 55 50
/-- GEO of the page. -/
def Xlated.geo (x : Xlated) : Nat := bits x.leaf 49 48
/-- A segment a transfer has entered, with the entry that Enter read (R307, R312), as one number: the segment, PBASE, LEN, HOME,
ROWLEN and SCALE. -/
def latchOf (sg : Nat) (n : SegEnt) : Nat :=
  sg + 2 ^ 16 * (n.base / 65536 + 2 ^ 32 * (n.len + 2 ^ 32 * (n.home + 4 * (n.rowlen + 2 ^ 32 * n.scale))))
/-- The entry that such a number holds: valid, resident and not held, as Enter found it. -/
def latchEnt (x : Nat) : SegEnt :=
  ⟨BitVec.ofNat 64 (2 ^ 63 + x / 2 ^ 80 % 4 * 2 ^ 60 + x / 2 ^ 16 % 2 ^ 32 * 65536), x / 2 ^ 48 % 2 ^ 32, 0,
   x / 2 ^ 82 % 2 ^ 32, x / 2 ^ 114⟩
/-- The entry of a segment already entered. -/
def latched (segs : List Nat) (sg : Nat) : Option SegEnt :=
  segs.findSome? (fun x => if x % 65536 = sg then some (latchEnt x) else none)
/-- The leaf of an address: held, or walked and installed. -/
def leafOf (m : Mem) (e : Env) (t : Tlb) (va : Nat) : Except XErr (W64 × Nat) × Tlb :=
  match tlbFind t e.asid va with
  | some l => (.ok l, t)
  | none =>
    match walk m e va with
    | .error x => (.error x, t)
    | .ok l => (.ok l, tlbPut t e.asid va l)
/-- The privilege and permission checks of R305. -/
def permOk (e : Env) (l : W64) (n : Need) : Except XErr Unit :=
  if l.getLsbD 57 ∧ !e.priv then .error (.f .perm 1)
  else if (n.r ∧ !l.getLsbD 60) ∨ (n.w ∧ !l.getLsbD 59) ∨ (n.x ∧ !l.getLsbD 58) then .error (.f .perm 0)
  else .ok ()
/-- The segment checks of Translate (R307), on the entry as Enter reads or has read it. -/
def segCheck (m : Mem) (e : Env) (segs : List Nat) (l : W64 × Nat) (va : Nat) : Except XErr Xlated :=
  let sg := bits l.1 47 32
  let n := (latched segs sg).getD (segAt m e sg)
  if e.segn ≤ sg then .error (.f .table 2)
  else if n.hold ∧ !e.noHold then .error .hold
  else if !n.v ∨ n.state = 3 then .error (.f .table 2)
  else if n.state = 1 then .error (.f .page 1)
  else if n.state = 2 then .error (.f .page 2)
  else
    let fo := bits l.1 31 0 * 65536
    if n.len * 65536 < fo + pageSize l.2 then .error (.f .page 4)
    else
      let pa := n.base + fo + va % pageSize l.2
      if homeOf pa = none then .error (.bad pa) else .ok ⟨pa, l.1, sg, n⟩
/-- The page's format is reserved (R72), or its format and geometry do not agree (R304). -/
def geoBad (x : Xlated) : Bool :=
  !fmtOk x.fmt || if fmtBk x.fmt then x.geo = 0 || (x.geo = 3 && x.ent.rowlen = 0) else x.geo ≠ 0
/-- The FORMAT cases of R72 and R304 at an access; a fetch of code names no element and has none (log entry 86). -/
def geoCheck (need : Need) (x : Xlated) : Except XErr Xlated :=
  if !need.x && geoBad x then .error (.fmt x.fmt) else .ok x
/-- Translate (R307), with the translations held afterwards. -/
def translate (m : Mem) (e : Env) (t : Tlb) (segs : List Nat) (va : W64) (need : Need) : Except XErr Xlated × Tlb :=
  if bits va 63 52 ≠ 0 then (.error (.f .page 3), t)
  else
    let l := leafOf m e t va.toNat
    match l.1 with
    | .error x => (.error x, l.2)
    | .ok lf =>
      match permOk e lf.1 need with
      | .error x => (.error x, l.2)
      | .ok _ => ((segCheck m e segs lf va.toNat).bind (geoCheck need), l.2)

/-- Adding to BUSY of a segment entry (R312), modulo 2^32. -/
def addBusy (m : Mem) (e : Env) (sg : Nat) (d : Nat) : Mem :=
  let a := segAddr e sg + 16
  wr64 m a (putBits (rd64 m a) 31 0 (bits (rd64 m a) 31 0 + d))
/-- Enter of a segment not yet entered (R312): BUSY + 1 and its entry recorded. -/
def enter (m : Mem) (e : Env) (segs : List Nat) (x : Xlated) : Mem × List Nat :=
  if (latched segs x.seg).isSome then (m, segs)
  else (addBusy m e x.seg 1, segs ++ [latchOf x.seg x.ent])
/-- BUSY + 1 of every segment that a transfer has entered (R312). -/
def enterAll (m : Mem) (e : Env) (segs : List Nat) : Mem := segs.foldl (fun m x => addBusy m e (x % 65536) 1) m
/-- Leave of every segment entered (R312): BUSY − 1. -/
def leaveAll (m : Mem) (e : Env) (segs : List Nat) : Mem :=
  segs.foldl (fun m x => addBusy m e (x % 65536) (2 ^ 32 - 1)) m
/-- The scale word's physical address of an element at physical address pa (R304), for an element of half half-bytes. -/
def scalePa (x : Xlated) (base half2 : Nat) : Nat :=
  let n := half2 / (if bits x.leaf 55 50 = 0x11 then 1 else 2)
  let b := if x.geo = 1 then n / 32 else if x.geo = 2 then n / 128 else n / (max 1 x.ent.rowlen)
  base + 64 * x.ent.scale + 2 * b
end Sys2Proof.Machine
end

