-- ==== Sys2Proof/Machine/Package.lean ====
section
/-!
DEFINITION. Sys2Proof/Machine/Package.lean: reaching the pieces of the package: cores, clusters, dies and partitions; the
words that the machine itself updates in committed memory; the order log (R340 to R344); fault records (R259, R260).
-/

namespace Sys2Proof.Machine
open Sys2Proof

/-- What a step or a meaning answers. -/
abbrev Out := Host.Outcome State Fault Refusal

/-- A result over another state. -/
def Res.map {σ τ : Type} (f : σ → τ) : Res σ → Res τ
  | .ok s => .ok (f s)
  | .stop x s => .stop x (f s)
  | .wait s => .wait (f s)
  | .fault e => .fault e
/-- Going on after a result. -/
def Res.andThen {σ : Type} (r : Res σ) (g : σ → Res σ) : Res σ :=
  match r with
  | .ok s => g s
  | .stop x s => .stop x s
  | .wait s => .wait s
  | .fault e => .fault e

/-! ### Pieces of the package -/

/-- Core c (R14). -/
def State.core (s : State) (c : Nat) : Core := mget .reset s.cores c
/-- Replacing core c. -/
def State.setCore (s : State) (c : Nat) (k : Core) : State := { s with cores := mset s.cores c k }
/-- Changing core c. -/
def State.upCore (s : State) (c : Nat) (f : Core → Core) : State := s.setCore c (f (s.core c))
/-- Cluster k, numbered die × 16 + cluster. -/
def State.clu (s : State) (k : Nat) : Cluster := mget .reset s.clusters k
/-- Replacing cluster k. -/
def State.setClu (s : State) (k : Nat) (x : Cluster) : State := { s with clusters := mset s.clusters k x }
/-- Changing cluster k. -/
def State.upClu (s : State) (k : Nat) (f : Cluster → Cluster) : State := s.setClu k (f (s.clu k))
/-- A woken cluster is usable from 2 µs, 4,200 master cycles, after its waking began (R331, R369). -/
def Cluster.woken (u : Cluster) (t : Nat) : Cluster :=
  if u.gated ∧ u.waking ∧ u.idleFrom + 4200 ≤ t then { u with gated := false, waking := false, idleFrom := t } else u
/-- The occupancies with undeclared beats that have begun by cycle t turn the throttle on (R377). -/
def Cluster.throttled (u : Cluster) (t : Nat) : Cluster :=
  let l := u.undFrom.filter (fun x => x.1 ≤ t)
  if l.isEmpty then u
  else { u with und := true, undTo := l.foldl (fun m x => max m x.2) u.undTo, undFrom := u.undFrom.filter (fun x => t < x.1) }
/-- Die d. -/
def State.die (s : State) (d : Nat) : Die := mget .reset s.dies d
/-- Replacing die d. -/
def State.setDie (s : State) (d : Nat) (x : Die) : State := { s with dies := mset s.dies d x }
/-- Partition p. -/
def State.part (s : State) (p : Nat) : Part := mget .reset s.parts p
/-- Replacing partition p. -/
def State.setPart (s : State) (p : Nat) (x : Part) : State := { s with parts := mset s.parts p x }
/-- Changing partition p. -/
def State.upPart (s : State) (p : Nat) (f : Part → Part) : State := s.setPart p (f (s.part p))
/-- Number of partitions a package can hold (R337): NUM has 6 bits. -/
def noPart : Nat := 64
/-- The partition that owns a cluster (R335), `noPart` when none does. -/
def State.partOfClu (s : State) (k : Nat) : Nat :=
  ((s.parts.find? (fun p => p.2.clusters.contains k)).map (·.1)).getD noPart
/-- The partition of core c. -/
def State.partNo (s : State) (c : Nat) : Nat := s.partOfClu (c / 4)
/-- The cores of a partition in package order. -/
def Part.coreList (p : Part) : List Nat := (p.clusters.foldl sins []).flatMap (fun k => [4 * k, 4 * k + 1, 4 * k + 2, 4 * k + 3])
/-- A partition-wide register's reset value (R264, R388). -/
def partReset (n : Nat) : W64 :=
  match n with
  | 0x211 => BitVec.ofNat 64 (63 * 2 ^ 58 + 491520 * 2 ^ 26) | 0x240 => 16 | _ => 0
/-- A partition-wide register. -/
def Part.getSr (p : Part) (n : Nat) : W64 := mget (partReset n) p.sr n
/-- Storing a partition-wide register. -/
def Part.setSr (p : Part) (n : Nat) (v : W64) : Part := { p with sr := mput (partReset n) p.sr n v }
/-- The unit a core runs is privileged (R246). -/
def Core.isPriv (k : Core) : Bool := (k.run.map (·.priv)).getD false
/-- The unit a core runs is persistent. -/
def Core.isPers (k : Core) : Bool := (k.run.map (·.pers)).getD false
/-- Segment table registers of a partition (R308). -/
def Part.segt (p : Part) : Nat := bits (p.getSr 0x222) 47 12 * 4096
/-- SEGN. -/
def Part.segn (p : Part) : Nat := bits (p.getSr 0x223) 16 0
/-- What a core's accesses translate under (R302, R308). -/
def State.env (s : State) (c : Nat) : Env :=
  let k := s.core c
  let p := s.part (s.partNo c)
  ⟨bits (k.getSr 0x220) 15 0, k.getSr 0x221, p.segt, p.segn, k.isPriv, false⟩
/-- A bank operation that changes the Crock word of a WAITA: the condition is evaluated on the value it leaves (R120). The word
is translated again, so it follows a change of its segment's PBASE (R311). -/
def Core.probe (k : Core) (e : Env) (old m : Mem) : Core :=
  match k.sleep with
  | .waita tok d addr false pa v q t st hit fo =>
    let pa' := match (translate m e k.tlb [] addr needR).1 with
      | .ok x => x.pa
      | .error _ => pa
    let hit' := hit || (rd64 old pa ≠ rd64 m pa' && condInt q (rd64 m pa') v)
    { k with sleep := .waita tok d addr false pa' v q t st hit' fo }
  | _ => k
/-- Committed memory after operations at banks, with the waits that they meet. -/
def State.setMem (s : State) (m : Mem) : State :=
  { s with mem := m, cores := s.cores.map (fun x => (x.1, x.2.probe (s.env x.1) s.mem m)) }
/-- What the dispatcher's own accesses for a partition translate under (R308, R328): the identifier and root of its first core
(log entry 6). -/
def State.penv (s : State) (p : Nat) (priv : Bool) : Env :=
  let c := (s.part p).coreList.headD 0
  let k := s.core c
  ⟨bits (k.getSr 0x220) 15 0, k.getSr 0x221, (s.part p).segt, (s.part p).segn, priv, false⟩
/-- Application core i (R397). -/
def State.appCore (s : State) (i : Nat) : AppCore := mget .reset s.ik.ac i
/-- Replacing application core i. -/
def State.setApp (s : State) (i : Nat) (a : AppCore) : State := { s with ik := { s.ik with ac := mset s.ik.ac i a } }
/-- A window register of an application core (R398). -/
def AppCore.w (a : AppCore) (off : Nat) : W64 := mget 0 a.win off
/-- Storing a window register. -/
def AppCore.setW (a : AppCore) (off : Nat) (v : W64) : AppCore := { a with win := mput 0 a.win off v }
/-- AC.PART.V. -/
def AppCore.valid (a : AppCore) : Bool := (a.w 0).getLsbD 63
/-- The partition an application core acts for. -/
def AppCore.part (a : AppCore) : Nat := bits (a.w 0) 5 0
/-- What an application core's accesses translate under (R397): privileged. -/
def State.acEnv (s : State) (i : Nat) : Env :=
  let a := s.appCore i
  let p := s.part a.part
  ⟨bits (a.w 0x008) 15 0, a.w 0x010, p.segt, p.segn, true, false⟩
/-- Raising an interrupt to the runtime (R396): 1 fault record, 2 held write, 3 channel group, 4 sag, 5 scrubber, 6 link,
7 application-core fault (R397). -/
def State.irq (s : State) (n : Nat) : State := { s with ik := { s.ik with irqs := s.ik.irqs ++ [n] } }
/-- The fuse state: the anti-rollback counter and the revocation fuses, as one number. -/
def Ik.fuses (k : Ik) : Nat := k.antiRoll * 4 + k.revoked.foldl (fun a i => a + 2 ^ i) 0
/-- The words of a partition that the measured configuration covers: its clusters, GZ.WIN, and what its registers hold of routes and
of the link schedule (R390). -/
def Part.config (p : Part) : List Nat :=
  p.clusters ++ [(p.getSr 0x211).toNat] ++ (upto 12).map (fun j => (p.getSr (0x261 + j)).toNat) ++ p.groups.map (fun g => g.2.route.toNat)
/-- The configuration that M(3) measures (R390): the fuse state, the slot tables with the writes that wait for their boundary, and
the partition map with GZ.WIN and routes. -/
def State.config (s : State) : List Nat :=
  [s.ik.fuses] ++ s.dies.flatMap (fun d => (d.2.slt ++ d.2.later).flatMap (fun x => [d.1, x.1, x.2.toNat])) ++
  s.parts.flatMap (fun p => p.1 :: p.2.config) ++ s.links.later.flatMap (fun x => [x.1, x.2.1, x.2.2.toNat])
/-- The 48 bytes of a digest, in address order. -/
def digestBytes (d : BitVec 384) : List Byte := toLE 48 d.toNat
/-- Extending a measurement register (R390). -/
def extend (m : BitVec 384) (stage : List Byte) : BitVec 384 :=
  Config.sha384 (digestBytes m ++ digestBytes (Config.sha384 stage))
/-- The runtime has changed something: M(3) is extended when that changed the configuration (R390). -/
def State.remeasured (s : State) (old : State) : State :=
  if s.config = old.config then s
  else { s with ik := { s.ik with m := mset s.ik.m 3 (extend (mget 0 s.ik.m 3) (Config.configRecord s.config)) } }
/-- The die's saturating and wrapping counters use this bound. -/
def sat (hi v : Nat) : Nat := if hi < v then hi else v
/-- CYC of the die of a core (R118). -/
def State.cycOf (s : State) (c : Nat) : Nat := (s.die (c / 64)).cyc

/-! ### Causes (R245) -/

/-- The cause code. -/
def causeCode : Cause → Nat
  | .illegal => 0x01 | .priv => 0x02 | .align => 0x03 | .handle => 0x04 | .mask => 0x05 | .accBusy => 0x06
  | .earlyRead => 0x07 | .layout => 0x08 | .bankIdem => 0x09 | .page => 0x10 | .perm => 0x11 | .table => 0x12
  | .format => 0x13 | .memUe => 0x18 | .arithCheck => 0x19 | .snapFull => 0x1A | .nonconv => 0x20
  | .relaxShape => 0x21 | .chainLimit => 0x22 | .specSide => 0x28 | .specDefer => 0x29 | .pwrOver => 0x30
  | .pwrBreach => 0x31 | .record => 0x38 | .trap => 0x40 | .brk => 0x41
/-- The cause is a system fault. -/
def causeSys : Cause → Bool
  | .page => true | .perm => true | .table => true | .format => true | .memUe => true | .arithCheck => true
  | .snapFull => true | .pwrBreach => true | .record => true
  | .illegal => false | .priv => false | .align => false | .handle => false | .mask => false | .accBusy => false
  | .earlyRead => false | .layout => false | .bankIdem => false | .nonconv => false | .relaxShape => false
  | .chainLimit => false | .specSide => false | .specDefer => false | .pwrOver => false | .trap => false | .brk => false
/-- SRC of CAUSE (R251). -/
def strmNo : Strm → Nat
  | .fe => 0 | .ld => 1 | .ex => 2 | .st => 3
/-- A stop without address and detail. -/
def stop0 (c : Cause) (st : Strm) : Stop := ⟨c, st, 0, 0⟩
/-- A translation stop with the part's ordinal (R245, R306). -/
def stopX (st : Strm) (c : Cause) (sub : Nat) (va : W64) (ord : Nat) : Stop :=
  ⟨c, st, va, BitVec.ofNat 64 (sub * 256 + ord % 256)⟩

/-! ### Fault records (R259, R260) -/

/-- A power of two from 1 to 32,768. -/
def capOk (n : Nat) : Bool := n ≠ 0 && n ≤ 32768 && n = 2 ^ Nat.log2 n
/-- The physical address of a word the machine updates itself, under the partition's registers. -/
def State.ownWord (s : State) (p : Nat) (va : W64) (need : Need) : Except XErr Xlated :=
  (translate s.mem (s.penv p true) [] [] va need).1
/-- A condition under which no record is written: the first core to meet it raises the interrupt (R260, log entry 87). -/
def State.unrecorded (s : State) (p : Nat) : State :=
  if (s.part p).fqTold then s else (s.upPart p (fun pt => { pt with fqTold := true })).irq 1
/-- A fault on the order log: the first raises the interrupt, as one on the fault queue does (R260, R344). -/
def State.logLost (s : State) (p : Nat) : State :=
  if (s.part p).logTold then s else (s.upPart p (fun pt => { pt with logTold := true })).irq 1
/-- Writing the 16 doubles of a fault record into a partition's queue, with the held or parked unit that it names; none while a segment
that it needs is held. A record whose own address does not translate is not written either (log entry 87). -/
def State.tryRecord (s : State) (p : Nat) (ds : List W64) (unit : Option FaultRec) : Option State :=
  let base := (s.part p).getSr 0x210 &&& ~~~63#64
  if base = 0 then some (s.unrecorded p)
  else match s.ownWord p base needRW with
    | .error .hold => none
    | .error _ => some (s.unrecorded p)
    | .ok d =>
      let w (o : Nat) : W64 := rd64 s.mem (d.pa + o)
      let cap := (w 8).toNat
      if !capOk cap || w 0x28 ≠ 0 || w 0x30 ≠ 0 || w 0x38 ≠ 0 || bits (w 0) 6 0 ≠ 0 then some (s.unrecorded p)
      else
        let tail := w 0x18
        if BitVec.ofNat 64 cap ≤ tail - w 0x10 then some (s.setMem (wr64 s.mem (d.pa + 0x20) (w 0x20 + 1)))
        else
          match s.ownWord p (w 0 + BitVec.ofNat 64 (128 * (tail.toNat % cap))) needW with
          | .error .hold => none
          | .error _ => some (s.unrecorded p)
          | .ok r =>
            let m := wrL s.mem r.pa ((upto 16).flatMap (fun j => toLE 8 (nth 0 ds j).toNat))
            let named := (unit.map (fun u => [{ u with seq := tail.toNat }])).getD []
            some ((s.setMem (wr64 m (d.pa + 0x18) (tail + 1))).upPart p (fun pt =>
              { pt with fqTold := false, recs := pt.recs ++ named }))
/-- The dispatcher has something still to write. -/
def State.later (s : State) (p : Nat) (d : Duty) : State := s.upPart p (fun pt => { pt with duties := pt.duties ++ [d] })
/-- Writing a fault record, now or once its segments are not held. -/
def State.faultRecord (s : State) (p : Nat) (ds : List W64) (unit : Option FaultRec) : State :=
  (s.tryRecord p ds unit).getD (s.later p (.record ds unit))
/-- A record that names no unit and no core (R327, R332, R394): UNIT and the CORE field all ones, action 0. -/
def State.bareRecord (s : State) (p : Nat) (cause : Nat) (addr info launch : W64) : State :=
  let all : W64 := BitVec.allOnes 64
  s.faultRecord p [BitVec.ofNat 64 (cause + 2 ^ 12), 0, 0, 0, 0, addr, info, launch, all, 0xFF, 0, (s.part p).job,
    BitVec.ofNat 64 (s.part p).phase] none
/-- Cause code and FF.INFO of a translation error; an unpopulated address counts as a malformed entry here. -/
def xerrCode : XErr → Nat × Nat
  | .f c sub => (causeCode c, sub * 256)
  | .fmt f => (causeCode .format, f)
  | .hold => (0x12, 2 * 256)
  | .bad _ => (0x12, 2 * 256)
/-- A word of memory that n bytes at pa meet. -/
def memWord (pa n : Nat) (w : ProtWord) : Bool := w.arr == .memory && decide (pa < 8 * w.idx + 8 ∧ 8 * w.idx < pa + n)
/-- A word of memory that n bytes at pa cover. -/
def memWhole (pa n : Nat) (w : ProtWord) : Bool := w.arr == .memory && decide (pa ≤ 8 * w.idx ∧ 8 * w.idx + 8 ≤ pa + n)
/-- An uncorrectable word of memory under a read of n bytes (R420). -/
def State.memBad (s : State) (pa n : Nat) : Bool := s.badMem.any (memWord pa n)
/-- Words of memory or of the glaze that a write covers hold no error (R420). -/
def State.renew (s : State) (p : ProtWord → Bool) : State :=
  { s with badMem := s.badMem.filter (fun w => !p w), weak := s.weak.filter (fun w => !p w) }
/-- A correction in memory or in the glaze counts in ERR.CE of its die or its cluster (R421). -/
def State.countCe (s : State) (w : ProtWord) : State :=
  match w.arr with
  | .glaze k _ => s.upClu k (fun u => { u with ce := sat 0xFFFFFFFF (u.ce + 1) })
  | .memory => let d := s.die (dieOf (8 * w.idx)); s.setDie (dieOf (8 * w.idx)) { d with ce := sat 0xFFFFFFFF (d.ce + 1) }
  | _ => s
/-- A read of words of memory or of the glaze corrects in place those with one failed bit; each correction counts (R419, R421). -/
def State.correct (s : State) (p : ProtWord → Bool) : State :=
  if s.weak.isEmpty then s
  else (s.weak.filter p).foldl State.countCe { s with weak := s.weak.filter (fun w => !p w) }
/-- A read of n bytes of memory at pa. -/
def State.corrMem (s : State) (pa n : Nat) : State := s.correct (memWord pa n)
/-- A read of several ranges of memory. -/
def State.corrAll (s : State) (l : List (Nat × Nat)) : State := if s.weak.isEmpty then s else l.foldl (fun s r => s.corrMem r.1 r.2) s
/-- A read of n bytes at a virtual address, by the dispatcher or the fetch. -/
def State.corrVa (s : State) (e : Env) (need : Need) (va : W64) (n : Nat) : State :=
  if s.weak.isEmpty then s
  else match (translate s.mem e [] [] va need).1 with
    | .ok x => s.corrMem x.pa n
    | .error _ => s
/-- ERR.CE of a core's cluster: the corrections of its glaze and of its cores' arrays (R421, R422). -/
def State.errCe (s : State) (c : Nat) : Nat :=
  sat 0xFFFFFFFF ((s.clu (c / 4)).ce + [0, 1, 2, 3].foldl (fun n j => n + (s.core (c / 4 * 4 + j)).ce) 0)
/-- The array code of a memory word (R245). -/
def arrOf (pa : Nat) : Nat := match homeOf pa with
  | some 1 => 7 | some 2 => 2 | _ => 6
/-- Reserve lines charged on a die (R288). -/
def State.reserve (s : State) (d : Nat) : Nat :=
  s.parts.foldl (fun n p => n + (p.2.charges.filter (fun l => dieOf (l.1 * 64) = d)).foldl (fun m l => m + l.2.length) 0) 0
/-- Charging a line for an agent's Land, or for a Perform when `agent` is the bank's mark; none when no reserve line is
free (R288). -/
def State.charge (s : State) (p line : Nat) (agent : AgentKey) (perform : Bool) : Option State :=
  let pt := s.part p
  let l := mget [] pt.charges line
  if (perform ∧ l ≠ []) ∨ l.contains agent then some s
  else if s.reserve (dieOf (line * 64)) < 2 ^ 24 then
    some (s.setPart p { pt with charges := mset pt.charges line (l ++ [agent]) })
  else none
/-- A counter's word after it has changed: bits 31:0 + 1 for DONE; bits 47:32, saturating, for failed or cancelled units; bits 62:48,
saturating at 0x7FFF, for undeclared beats; bit 63 when the launch has ended (R332, R377). -/
def CtrOp.act : CtrOp → W64 → W64
  | .done, v => putBits v 31 0 (bits v 31 0 + 1)
  | .cancel n, v => putBits v 47 32 (sat 0xFFFF (bits v 47 32 + n))
  | .undecl n, v => putBits v 62 48 (sat 0x7FFF (bits v 62 48 + n))
  | .finish, v => v ||| (1#64 <<< 63)
  | .rise, v => v + 1
/-- Updating a completion counter by a bank operation (R332): address 0 is skipped; a fault writes a record and loses the
count. The word lies in a Crock segment (R296, R322), and its change is charged like any Perform that needs W (R288). It is a transfer
that enters and leaves its segment in the one step that performs it; none while that segment, or one that the walk meets, is held
(R307, R311, R312). -/
def State.tryBump (s : State) (p : Nat) (va launch : W64) (op : CtrOp) : Option State :=
  let lost (cause info : Nat) : Option State := some (s.bareRecord p cause va (BitVec.ofNat 64 info) launch)
  if va = 0 then some s
  else match s.ownWord p va needRW with
    | .error .hold => none
    | .error x => lost (xerrCode x).1 (xerrCode x).2
    | .ok w =>
      if w.ent.home ≠ 2 then lost (causeCode .perm) 0x200
      else if s.memBad w.pa 8 then lost (causeCode .memUe) (arrOf w.pa)
      else match s.charge p (w.pa / 64) (9, 0, 0, 0) true with
        | none => lost (causeCode .snapFull) 0
        | some s1 => some ((s1.corrMem w.pa 8).setMem (wr64 s.mem w.pa (op.act (rd64 s.mem w.pa))))
/-- Updating a completion counter, now or once its segments are not held. -/
def State.bump (s : State) (p : Nat) (va launch : W64) (op : CtrOp) : State :=
  (s.tryBump p va launch op).getD (s.later p (.ctr va launch op))

/-! ### Launch records (R322) -/

/-- Double j of a record. -/
def Record.w (r : Record) (j : Nat) : W64 := nth 0 r.d j
/-- PERS. -/
def Record.pers (r : Record) : Bool := (r.w 2).getLsbD 63
/-- PRIV. -/
def Record.priv (r : Record) : Bool := (r.w 2).getLsbD 62
/-- QUEUE. -/
def Record.queue (r : Record) : Nat := bits (r.w 2) 59 56
/-- ADST × 64. -/
def Record.adst (r : Record) : Nat := bits (r.w 2) 31 16 * 64
/-- ALEN × 64. -/
def Record.alen (r : Record) : Nat := bits (r.w 2) 7 0 * 64
/-- NL. -/
def Record.nl (r : Record) : Nat := bits (r.w 3) 62 60
/-- The field of EXT d. -/
def Record.extF (r : Record) (d : Nat) : Nat := bits (r.w 3) (12 * d + 11) (12 * d)
/-- A 12-bit count of which 0 stands for 4,096. -/
def full12 (n : Nat) : Nat := if n = 0 then 4096 else n
/-- CD. -/
def Record.cd (r : Record) : Bool := (r.w 4).getLsbD 15
/-- NENT. -/
def Record.nent (r : Record) : Nat := full12 (bits (r.w 4) 43 32)
/-- NBLK. -/
def Record.nblk (r : Record) : Nat := full12 (bits (r.w 4) 55 44)
/-- TROWS. -/
def Record.trows (r : Record) : Nat := bits (r.w 4) 24 16
/-- The loop at depth p. -/
def Record.orderF (r : Record) (p : Nat) : Nat := bits (r.w 4) (3 * p + 2) (3 * p)
/-- CAP. -/
def Record.rowCap (r : Record) : Nat := bits (r.w 6) 31 0
/-- The units of one entry and tile: the product of the ordinary loops. -/
def Record.perTile (r : Record) : Nat := (upto r.nl).foldl (fun a d => a * full12 (r.extF d)) 1
/-- The number of units a launch enumerates; none before its counts have been read (R327). -/
def Launch.total (l : Launch) : Option Nat :=
  if l.rc.cd then l.tiles.map (fun t => t.foldl (· + ·) 0 * l.rc.perTile) else some l.rc.perTile

/-! ### The order log (R340 to R344) -/

/-- POS. -/
def Part.pos (p : Part) : Nat := bits (p.getSr 0x253) 47 0
/-- CAP. -/
def Part.logCap (p : Part) : Nat := bits (p.getSr 0x251) 47 0
/-- DIV of ORD.STAT. -/
def Part.logDiv (p : Part) : Bool := (p.getSr 0x180).getLsbD 3
/-- FULL of ORD.STAT. -/
def Part.logFull (p : Part) : Bool := (p.getSr 0x180).getLsbD 2
/-- Setting POS. -/
def Part.setPos (p : Part) (n : Nat) : Part := p.setSr 0x253 (BitVec.ofNat 64 n)
/-- The address of the entry at a position. -/
def Part.logVa (p : Part) (n : Nat) : W64 := (p.getSr 0x250 &&& ~~~15#64) + BitVec.ofNat 64 (16 * n)
/-- Writing the doubles of a log entry at its address; none while a segment that it needs is held. -/
def State.tryLog (s : State) (p : Nat) (va d0 d1 : W64) : Option State :=
  match s.ownWord p va needW with
  | .error .hold => none
  | .error _ => some (s.logLost p)
  | .ok x => some { s with mem := wr64 (wr64 s.mem x.pa d0) (x.pa + 8) d1 }
/-- Writing one entry in record mode (R342). -/
def State.logWrite (s : State) (p kind lc : Nat) (v : W64) : State :=
  let pt := s.part p
  if pt.logMode = 1 ∧ !pt.logFull then
    if pt.logCap ≤ pt.pos then s.setPart p (pt.setSr 0x180 (pt.getSr 0x180 ||| 4))
    else
      let pt' := pt.setPos (pt.pos + 1)
      let pt'' := if pt.pos + 1 = pt.logCap then pt'.setSr 0x180 (pt'.getSr 0x180 ||| 4) else pt'
      let s' := s.setPart p pt''
      let d0 := BitVec.ofNat 64 (kind * 2 ^ 56 + lc % 2 ^ 56)
      (s'.tryLog p (pt.logVa pt.pos) d0 v).getD (s'.later p (.log (pt.logVa pt.pos) d0 v))
  else s
/-- What the dispatcher has still to write, tried again in its order. -/
def State.tryDuty (s : State) (p : Nat) : Duty → Option State
  | .ctr va launch op => s.tryBump p va launch op
  | .record ds unit => s.tryRecord p ds unit
  | .log va d0 d1 => s.tryLog p va d0 d1
/-- The duties of a partition's dispatcher are tried again. -/
def State.tryDuties (s : State) (p : Nat) : State :=
  (s.part p).duties.foldl (fun s d => (s.tryDuty p d).getD (s.later p d)) (s.upPart p (fun pt => { pt with duties := [] }))
/-- The logical counter of the event that follows n events of the attempt a core runs (R341). -/
def Core.lcAt (k : Core) (n : Nat) : Nat :=
  match k.run with
  | none => 0
  | some r => r.ordinal % 4096 * 2 ^ 44 + r.unit % 2 ^ 24 * 2 ^ 20 + r.attempt % 16 * 2 ^ 16 + n % 2 ^ 16
/-- The events counted in the attempt a core runs. -/
def Core.events (k : Core) : Nat := (k.run.map (fun r => r.events)).getD 0
/-- The logical counter of the next event of the attempt a core runs (R341). -/
def Core.lcNext (k : Core) : Nat := k.lcAt k.events
/-- Setting the count of events. -/
def Core.setEvents (k : Core) (n : Nat) : Core := { k with run := k.run.map (fun r => { r with events := n }) }
/-- An event is counted (R341). -/
def Core.countEvent (k : Core) : Core := k.setEvents (k.events + 1)
/-- What an event finds in replay (R343): it runs live, it waits, or it takes the logged value. -/
inductive LogAns where
  | live
  | wait
  | val (v : W64)
  deriving DecidableEq, Repr
/-- The launch may enumerate the unit: its counts are not read, or it lies below its total (R327). -/
def Launch.mayHold (l : Launch) (u : Nat) : Bool := match l.total with | some n => decide (u < n) | none => true
/-- The attempt that an entry names may still raise an event (R343). -/
def State.canRun (s : State) (p lc : Nat) : Bool :=
  let ord := lc / 2 ^ 44 % 4096
  let unit := lc / 2 ^ 20 % 2 ^ 24
  let att := lc / 2 ^ 16 % 16
  let pt := s.part p
  ord == 0xFFF ||
  (pt.coreList.map s.core ++ pt.saved.flatMap (fun x => x.2.map (·.2))).any (fun k => match k.run with
    | some r => r.ordinal == ord && r.unit == unit && decide (r.attempt % 16 ≤ att)
    | none => false) ||
  pt.launches.any (fun l => l.ord == ord && l.phase == pt.phase && !l.ended &&
    ((decide (l.next ≤ unit) && l.mayHold unit) || l.requeue.any (fun q => q.unit == unit && decide (q.attempt % 16 ≤ att))))
/-- Setting DIV. -/
def Part.diverged (p : Part) : Part := p.setSr 0x180 (p.getSr 0x180 ||| 8)
/-- What stands at POS of the log: nothing more, an entry in a held segment, or an entry with its kind, LC and value. -/
inductive LogHead where
  | done
  | held
  | entry (kind lc : Nat) (v : W64)
/-- The entry at POS after skipping those of agents that ended (R343), with the state at its position. -/
def State.logHead (s : State) (p : Nat) : Nat → State × LogHead
  | 0 => (s, .done)
  | fuel + 1 =>
    let pt := s.part p
    let fail : State × LogHead := ((s.setPart p pt.diverged).logLost p, .done)
    if pt.logCap ≤ pt.pos then (s, .done)
    else match s.ownWord p (pt.logVa pt.pos) needR with
      | .error .hold => (s, .held)
      | .error _ => fail
      | .ok x =>
        if s.memBad x.pa 16 then fail
        else
          let d0 := rd64 s.mem x.pa
          let kind := bits d0 63 56
          let lc := bits d0 55 0
          if kind = 0 ∨ s.canRun p lc then (s.corrMem x.pa 16, .entry kind lc (rd64 s.mem (x.pa + 8)))
          else ((s.corrMem x.pa 16).setPart p (pt.setPos (pt.pos + 1))).logHead p fuel
/-- An event asks the log (R343). -/
def State.logAsk (s : State) (p kind lc : Nat) : State × LogAns :=
  let pt := s.part p
  if pt.logMode = 2 ∧ !pt.logDiv then
    let h := s.logHead p (pt.logCap - pt.pos)
    match h.2 with
    | .done => (h.1, .live)
    | .held => (h.1, .wait)
    | .entry k l v =>
      if k = kind ∧ l = lc then (h.1.upPart p (fun q => q.setPos (q.pos + 1)), .val v)
      else if k ≠ 0 ∧ l / 2 ^ 16 = lc / 2 ^ 16 ∧ kind ≠ 0 then (h.1.upPart p Part.diverged, .live)
      else (h.1, .wait)
  else (s, .live)
/-- An event of core c has happened with a value: it is logged in record mode and counted (R341, R342). -/
def State.logEvent (s : State) (c kind : Nat) (v : W64) : State :=
  let k := s.core c
  (s.logWrite (s.partNo c) kind k.lcNext v).setCore c k.countEvent
/-- An event of core c that was counted as the n-th when its operation was sent has happened: it is logged in record mode (R341). -/
def State.logAt (s : State) (c kind n : Nat) (v : W64) : State := s.logWrite (s.partNo c) kind ((s.core c).lcAt n) v

end Sys2Proof.Machine
end

