-- ==== Sys2Proof/Machine/Units.lean ====
section
/-!
DEFINITION. Sys2Proof/Machine/Units.lean: launch records and identifiers (R322 to R327), the start of a unit on a core (R16,
R328), the ways a unit ends or goes back to its queue (R18, R261, R263, R332), leases and declarations that end with it.
-/

namespace Sys2Proof.Machine
open Sys2Proof

/-! ### Launch records (R323) -/

/-- The reason of R323 that depends on the record alone, the lowest that holds; 0 when it is well formed. -/
def Record.reason (r : Record) (creatorPriv : Bool) : Nat :=
  let z (j hi lo : Nat) : Bool := bits (r.w j) hi lo = 0
  let reserved := z 2 61 60 && z 2 55 32 && z 2 15 8 && !(r.w 3).getLsbD 63 && z 4 63 56 && z 4 31 25 && z 6 63 32
  let extHigh := [0, 1, 2, 3, 4].all (fun d => d < r.nl || r.extF d = 0)
  let ordHigh := [0, 1, 2, 3, 4].all (fun p => p < r.nl || r.orderF p = 0)
  let noCd := r.cd || (r.w 5 = 0 && r.w 6 = 0 && z 4 55 32 && z 4 24 16)
  let argv := bits (r.w 2) 7 0 ≠ 0 || r.w 1 = 0
  if !(reserved && extHigh && ordHigh && noCd && argv) then 1
  else if 5 - 2 * (if r.cd then 1 else 0) < r.nl ∨
      !((upto r.nl).all (fun d => (upto r.nl).any (fun p => r.orderF p = d))) then 2
  else if r.cd ∧ (r.trows < 1 ∨ 256 < r.trows ∨ 2 ^ 20 < r.nent * r.nblk) then 3
  else if bits (r.w 0) 1 0 ≠ 0 ∨ bits (r.w 1) 5 0 ≠ 0 ∨ bits (r.w 5) 2 0 ≠ 0 ∨ bits (r.w 7) 2 0 ≠ 0 ∨
      bits (r.w 0) 63 52 ≠ 0 ∨ bits (r.w 1) 63 52 ≠ 0 ∨ bits (r.w 5) 63 52 ≠ 0 ∨ bits (r.w 7) 63 52 ≠ 0 then 4
  else if padSize < r.adst + r.alen then 5
  else if r.priv ∧ !creatorPriv then 6
  else if !r.cd ∧ 2 ^ 24 < r.perTile then 7
  else 0

/-! ### Launches (R324 to R326) -/

/-- A launch identifier (R324). -/
def launchId (phase creatorOrd creatorUnit count : Nat) : W64 :=
  BitVec.ofNat 64 (phase % 2 ^ 16 * 2 ^ 48 + creatorOrd % 2 ^ 12 * 2 ^ 36 + creatorUnit % 2 ^ 24 * 2 ^ 12 + count % 2 ^ 12)
/-- The tuple of ordinary loop indices of the v-th iteration, as (loop, index) pairs, innermost first (R326). -/
def loopDigits (r : Record) (v : Nat) : List (Nat × Nat) :=
  ((upto r.nl).reverse.foldl (fun (a : List (Nat × Nat) × Nat) p =>
    let d := r.orderF p
    let e := full12 (r.extF d)
    (a.1 ++ [(d, a.2 % e)], a.2 / e)) ([], v)).1
/-- The entry and tile of the t-th tile of a count-driven loop. -/
def entryTile : List Nat → Nat → Nat → Nat × Nat
  | [], e, t => (e, t)
  | n :: ns, e, t => if t < n then (e, t) else entryTile ns (e + 1) (t - n)
/-- IX0 to IX4 of unit u (R326). -/
def Launch.ix (l : Launch) (u : Nat) : List Nat :=
  let ds := loopDigits l.rc (u % l.rc.perTile)
  let at' (d : Nat) : Nat := ((ds.find? (fun x => x.1 = d)).map (·.2)).getD 0
  if l.rc.cd then
    let et := entryTile (l.tiles.getD []) 0 (u / l.rc.perTile)
    [et.1, et.2, at' 0, at' 1, at' 2]
  else [at' 0, at' 1, at' 2, at' 3, at' 4]
/-- What tells a launch from every other: its identifier and the phase of its creator's launch (log entry 106). -/
abbrev LRef := W64 × Nat
/-- Of a launch. -/
def Launch.ref (l : Launch) : LRef := (l.id, l.born)
/-- Of the launch of a running unit. -/
def Running.ref (r : Running) : LRef := (r.launch, r.born)
/-- Of the launch of a recorded unit. -/
def FaultRec.ref (r : FaultRec) : LRef := (r.launch, r.born)
/-- The unit that holds the launches its attempt has created (R125). -/
def Running.who (r : Running) : W64 × Nat × Nat := (r.launch, r.born, r.unit)
/-- The launch of a reference. -/
def Part.launch (p : Part) (r : LRef) : Option Launch := p.launches.find? (fun l => l.ref == r)
/-- Changing the launch of a reference. -/
def Part.upLaunch (p : Part) (r : LRef) (f : Launch → Launch) : Part :=
  { p with launches := p.launches.map (fun l => if l.ref = r then f l else l) }
/-- Launches of a phase that count toward reason 9 (R323): one discarded with its attempt has left the count (R125). -/
def Part.inPhase (p : Part) (ph : Nat) : Nat := (p.launches.filter (fun l => l.phase = ph ∧ !l.gone)).length
/-- A launch is counted as one of persistent units. -/
def Launch.pers (l : Launch) : Bool := l.rc.pers

/-! ### Counters (R332) -/

/-- Updating the counter of a launch. -/
def State.ctr (s : State) (p : Nat) (l : Launch) (op : CtrOp) : State := s.bump p (l.rc.w 7) l.id op
/-- Every unit of the launch has been created and has ended. -/
def Launch.finished (l : Launch) : Bool :=
  l.queued && !l.ended && l.requeue.isEmpty && l.running == 0 &&
  (match l.total with | some n => decide (n ≤ l.next) | none => false)
/-- A launch whose last unit has ended ends: bit 63, and the job's counter (R332). -/
def State.launchEnd (s : State) (p : Nat) (r : LRef) : State :=
  match (s.part p).launch r with
  | none => s
  | some l =>
    if l.finished then
      let s1 := (s.ctr p l .finish).bump p ((s.part p).getSr 0x234) r.1 .rise
      s1.upPart p (fun pt => pt.upLaunch r (fun l => { l with ended := true }))
    else s
/-- Dropping every unit of a launch that is not dispatched, counted as cancelled (R334); a count-driven launch not yet read
is dropped without counting, and a launch of a later phase whole. One that an attempt still holds ends at once, and stays
known, so that an attempt that creates it again and cancels it again changes nothing (R126). -/
def State.dropUnstarted (s : State) (p : Nat) (r : LRef) : State :=
  match (s.part p).launch r with
  | none => s
  | some l =>
    if l.ended then s
    else
      let later := decide ((s.part p).phase < l.phase)
      let n := match l.total with
        | some t => if later then 0 else t - l.next + l.requeue.length
        | none => 0
      let s1 := if n = 0 then s else s.ctr p l (.cancel n)
      let s2 := s1.upPart p (fun pt => pt.upLaunch r (fun l =>
        { l with next := max l.next ((l.total).getD 0), requeue := [], tiles := some (l.tiles.getD []),
                 queued := true }))
      s2.launchEnd p r

/-! ### Leases, declarations and descriptors that end with a unit -/

/-- The lease of a core ends (R197). -/
def State.endLease (s : State) (c : Nat) : State :=
  s.upClu (c / 4) (fun k => { k with holder := if k.holder = some (c % 4) then none else k.holder,
                                     waiting := k.waiting.filter (· ≠ c % 4) })
/-- A core that stops waits for no grant (R247); one that it has stays. -/
def State.unwait (s : State) (c : Nat) : State :=
  s.upClu (c / 4) (fun k => { k with waiting := k.waiting.filter (· ≠ c % 4) })
/-- Every declaration of a core ends (R373). -/
def Core.endDecls (k : Core) : Core :=
  { k with decls := k.decls.map (fun d => { d with out := false, active := false }) }
/-- Closing an append descriptor at its bank: LEN grows by the green rows of the lanes kept; GREEN and OWN become 0 (R362). -/
def descClose (m : Mem) (pa keep : Nat) : Mem :=
  let g := leNat (rdN m (pa + 0x20) 16)
  let add := (upto keep).foldl (fun a j => a + g / 2 ^ (16 * j) % 2 ^ 16) 0
  let m1 := wr64 m (pa + 0x10) (rd64 m (pa + 0x10) + BitVec.ofNat 64 add)
  let m2 := wr64 (wr64 m1 (pa + 0x20) 0) (pa + 0x28) 0
  wr64 m2 (pa + 0x18) (putBits (rd64 m2 (pa + 0x18)) 8 0 0)
/-- Closing every descriptor a core's region opened, keeping the lanes below `keep`. -/
def State.closeDescs (s : State) (c keep : Nat) : State :=
  s.setMem ((s.core c).spec.descs.foldl (fun m d => descClose m d.1 keep) s.mem)

/-! ### The end of a unit -/

/-- The key of a unit's pending set (R277), with the phase of its launch. -/
def Running.key (r : Running) : AgentKey := (0, r.ordinal, r.unit, bits r.launch 63 48)
/-- The core after its unit: it runs nothing; its engines are empty. -/
def Core.freed (k : Core) (halt : Bool) : Core :=
  { (k.flushAll).endDecls with
    mode := if halt then .halted else .free, run := none, sleep := .awake, pend := [], frame := none,
    spec := .reset, eng := { Engines.reset with cyc := k.eng.cyc, ldAt := k.eng.cyc, exAt := k.eng.cyc, stAt := k.eng.cyc } }
/-- Undeclared beats of an attempt join its launch's counter (R377). -/
def State.addUndecl (s : State) (p c : Nat) (l : Launch) : State :=
  let n := (s.core c).undecl
  if n = 0 then s
  else (s.ctr p l (.undecl n)).upPart p (fun pt => pt.upLaunch l.ref (fun l => { l with undecl := l.undecl + n }))
/-- The segments that a transfer's mark has entered (R312). -/
def Mark.segs : Mark → List Nat
  | .copy m => m.segs
  | .bank _ _ _ _ segs => segs
  | _ => []
/-- The segments that transfers of a core have entered, those of a frame set aside too. -/
def Core.entered (k : Core) : List Nat :=
  let of (g : Engines) : List Nat := (g.ld ++ g.ex ++ g.st ++ g.flight).flatMap (fun en => en.mark.segs)
  of k.eng ++ ((k.frame.map (fun f => of f.eng)).getD [])
/-- What every end of an attempt does: the segments its transfers had entered are left (R312), descriptors close, beats are
counted, the lease ends, the core is freed. -/
def State.attemptEnd (s : State) (c : Nat) (halt : Bool) : State :=
  let p := s.partNo c
  let s0 := { s with mem := leaveAll s.mem (s.env c) (s.core c).entered }
  let s1 := s0.closeDescs c 0
  let s2 := match ((s.core c).run).bind (fun r => (s.part p).launch r.ref) with
    | none => s1
    | some l => s1.addUndecl p c l
  ((s2.endLease c).upClu (c / 4) (fun u => { u with idleFrom := s.cycOf c })).upCore c (fun k => k.freed halt)
/-- The launches that a unit's attempt still holds are handed on at DONE (R125). -/
def Part.handOn (p : Part) (who : W64 × Nat × Nat) : Part :=
  { p with launches := p.launches.map (fun l => if l.held = some who then { l with held := none } else l) }
/-- They are discarded when the attempt ends otherwise, and leave the count (R125); of an attempt that runs again, those that have ended
already stay known to it (R126). -/
def Part.discard (p : Part) (who : W64 × Nat × Nat) (again : Bool) : Part :=
  { p with launches := (p.launches.filter (fun l => l.held ≠ some who || (again && l.ended))).map (fun l =>
      if l.held = some who then { l with held := none, gone := true } else l) }
/-- The end of a unit by DONE, HALT, failure or cancellation (R18, R123, R131, R263, R332, R334). -/
def State.endUnit (s : State) (c : Nat) (done halt : Bool) : State :=
  let p := s.partNo c
  match (s.core c).run with
  | none => s.upCore c (fun k => k.freed halt)
  | some r =>
    let pend := (s.core c).pend
    let s1 := (s.attemptEnd c halt).upPart p (fun pt =>
      if done then { pt.handOn r.who with ended := pt.ended ++ [⟨r.key, pend⟩] } else pt.discard r.who false)
    match (s.part p).launch r.ref with
    | none => s1
    | some l =>
      let s2 := s1.ctr p l (if done then .done else .cancel 1)
      (s2.upPart p (fun pt => pt.upLaunch l.ref (fun l => { l with running := l.running - 1 }))).launchEnd p l.ref
/-- A launch lies in the scope of an asserted line (R334). -/
def Part.lineOn (p : Part) (l : Launch) : Bool :=
  p.abJob || p.abPhases.contains l.phase || (l.graph ≠ 0 && p.abGraphs.contains l.graph) || l.aborted
/-- A launch or one of its units lies in the scope of an asserted line (R334). -/
def Part.inScope (p : Part) (l : Launch) (u : Nat) : Bool := p.lineOn l || l.dropped.contains u
/-- A unit that goes back to its launch's queue; its own line, when asserted, stays so (R334). -/
def Launch.takeBack (l : Launch) (r : Running) (ready : Bool) : Launch :=
  { l with running := l.running - 1, requeue := l.requeue ++ [⟨r.unit, r.attempt + 1, ready⟩],
           dropped := if r.aborted && !l.dropped.contains r.unit then l.dropped ++ [r.unit] else l.dropped }
/-- An attempt goes back to its launch queue, ready or held (R261, R265). One that would be held in the scope of an asserted line
is dropped and counted as cancelled (R334). -/
def State.requeue (s : State) (c : Nat) (ready : Bool) : State :=
  let p := s.partNo c
  match (s.core c).run with
  | none => s.upCore c (fun k => k.freed false)
  | some r =>
    let s1 := (s.attemptEnd c false).upPart p (fun pt => pt.discard r.who true)
    match (s.part p).launch r.ref with
    | none => s1
    | some l =>
      if !ready && ((s.part p).inScope l r.unit || r.aborted) then
        ((s1.ctr p l (.cancel 1)).upPart p (fun pt => pt.upLaunch l.ref (fun l => { l with running := l.running - 1 }))).launchEnd p l.ref
      else s1.upPart p (fun pt => pt.upLaunch l.ref (fun l => l.takeBack r ready))

/-! ### The start of a unit (R16, R328) -/

/-- The core at the start of a unit: privileged registers, scratchpad bytes and translations stay (R16, R17, R308). -/
def Core.started (k : Core) (l : Launch) (u att : Nat) (phase : Nat) (job : W64) : Core :=
  let regs := [0x220, 0x221].foldl (fun m n => mput 0 m n (k.getSr n)) (srDebug k.debug)
  let put (m : Map W64) (n : Nat) (v : W64) : Map W64 := mput 0 m n v
  let ix := l.ix u
  let sr := (upto 5).foldl (fun m d => put m (0x041 + d) (BitVec.ofNat 64 (nth 0 ix d))) (put regs 0x040 (BitVec.ofNat 64 u))
  let sr := put (put (put (put (put (put sr 0x046 l.id) 0x047 (BitVec.ofNat 64 phase)) 0x048 l.graph) 0x049 job)
    0x04A (BitVec.ofNat 64 l.rc.adst)) 0x04D (BitVec.ofNat 64 att)
  { Core.reset with
    r := { Regs.reset with sr := sr, pc := l.rc.w 0 }
    pad := { k.pad with full := [] }
    eng := { Engines.reset with cyc := k.eng.cyc, ldAt := k.eng.cyc, exAt := k.eng.cyc, stAt := k.eng.cyc }
    mode := .running
    run := some ⟨l.id, l.born, l.ord, u, att, l.rc.pers, l.rc.priv, 0, 0, false, false, none⟩
    tlb := k.tlb, itlb := k.itlb, bad := k.bad, weak := k.weak, ce := k.ce, inbox := k.inbox }
/-- The argument block of a unit: the bytes, or the cause, FF.INFO and address of the fault of its read (R328 step 2), line by
line. -/
def State.argBytes (s : State) (p : Nat) (l : Launch) : Nat → Nat → Except (Cause × Nat × W64) (List Byte)
  | 0, _ => .ok []
  | n + 1, k =>
    let va := l.rc.w 1 + BitVec.ofNat 64 (64 * k)
    match (translate s.mem (s.penv p l.rc.priv) [] [] va needR).1 with
    | .error (.f c sub) => .error (c, sub * 256, va)
    | .error (.fmt f) => .error (.format, f, va)
    | .error _ => .error (.table, 0x200, va)
    | .ok x => if s.memBad x.pa 64 then .error (.memUe, arrOf x.pa, va) else match s.argBytes p l n (k + 1) with
      | .error e => .error e
      | .ok bs => .ok (rdN (s.part p).snap x.pa 64 ++ bs)

/-- The argument block that a unit's start reads is corrected (R421). -/
def State.corrArgs (s : State) (p : Nat) (l : Launch) : State :=
  if s.weak.isEmpty then s
  else (upto (l.rc.alen / 64)).foldl (fun s k => s.corrVa (s.penv p l.rc.priv) needR (l.rc.w 1 + BitVec.ofNat 64 (64 * k)) 64) s

/-! ### Abort lines (R117, R334) -/

/-- ABRT of a core (R117). -/
def State.abrt (s : State) (c : Nat) : W64 :=
  let p := s.part (s.partNo c)
  match (s.core c).run with
  | none => 0
  | some r =>
    let b (x : Bool) (n : Nat) : Nat := if x then n else 0
    BitVec.ofNat 64 (b r.aborted 16 + b p.abJob 8 + b (p.abGraphs.contains ((s.core c).getSr 0x048)) 4 + b (p.abPhases.contains p.phase) 2 +
      b (((p.launch r.ref).map (·.aborted)).getD false) 1)

end Sys2Proof.Machine
end

