-- ==== Sys2Proof/Machine/Ops.lean ====
section
/-!
DEFINITION. Sys2Proof/Machine/Ops.lean: the named operations that every instruction shares: tokens and latches (R23 to R27),
queues (R20), what an instruction waits for (R22, R24), results and their latencies (R37), the speculation states (R348),
taking an exception (R245 to R263) and the return from one (R257).
-/

namespace Sys2Proof.Machine
open Sys2Proof

/-! ### Tokens and signal latches (R23 to R27) -/

/-- The number of a token queue: its place in TOKC. -/
def dirNo : Dir → Nat
  | .feLd => 0 | .ldEx => 1 | .exSt => 2 | .stFe => 3 | .ldFe => 4 | .exLd => 5 | .stEx => 6 | .feSt => 7
/-- previous → this (R24). -/
def waitP : Strm → Dir
  | .fe => .stFe | .ld => .feLd | .ex => .ldEx | .st => .exSt
/-- next → this. -/
def waitN : Strm → Dir
  | .fe => .ldFe | .ld => .exLd | .ex => .stEx | .st => .feSt
/-- this → previous. -/
def sigP : Strm → Dir
  | .fe => .feSt | .ld => .ldFe | .ex => .exLd | .st => .stEx
/-- this → next. -/
def sigN : Strm → Dir
  | .fe => .feLd | .ld => .ldEx | .ex => .exSt | .st => .stFe
/-- The tokens of a queue, oldest first, as the first cycle in which each can be taken. -/
def Core.tok (k : Core) (d : Dir) : List Nat := mget [] k.eng.toks (dirNo d)
/-- Replacing a token queue. -/
def Core.setTok (k : Core) (d : Dir) (l : List Nat) : Core :=
  { k with eng := { k.eng with toks := mput [] k.eng.toks (dirNo d) l } }
/-- A token joins a queue, whose word is written whole (log entry 31). -/
def Core.pushTok (k : Core) (d : Dir) (at' : Nat) : Core := (k.setTok d (k.tok d ++ [at'])).clearBad isTokens (dirNo d) 1
/-- Pushing a token that can be taken from cycle `at'` on; when the queue holds 15 it stays in the latch (R26). -/
def Core.signal (k : Core) (d : Dir) (at' : Nat) : Core :=
  if (k.tok d).length < 15 then k.pushTok d at'
  else { k with eng := { k.eng with latch := mset k.eng.latch (dirNo d) at' } }
/-- The signal of a direction is held in its latch (R26). -/
def Core.held (k : Core) (d : Dir) : Bool := (mfind k.eng.latch (dirNo d)).isSome
/-- A token for a direction finds room: in its queue, or in its latch (R26). -/
def Core.canSignal (k : Core) (st : Strm) (t : Tok) : Bool :=
  let ok (d : Dir) : Bool := decide ((k.tok d).length < 15) || !k.held d
  (!t.sp || ok (sigP st)) && (!t.sn || ok (sigN st))
/-- The signals of an instruction that completes (R24, R25). -/
def Core.signals (k : Core) (st : Strm) (t : Tok) (at' : Nat) : Core :=
  let k := if t.sp then k.signal (sigP st) at' else k
  if t.sn then k.signal (sigN st) at' else k
/-- The tokens an instruction waits for are there (R24). -/
def Core.tokReady (k : Core) (st : Strm) (t : Tok) : Bool :=
  (!t.wp || !(k.tok (waitP st)).isEmpty) && (!t.wn || !(k.tok (waitN st)).isEmpty)
/-- Taking the tokens an instruction waits for; the answer also gives the cycle from which both can be taken. -/
def Core.takeToks (k : Core) (st : Strm) (t : Tok) : Core × Nat :=
  let a := if t.wp then (k.tok (waitP st)).headD 0 else 0
  let b := if t.wn then (k.tok (waitN st)).headD 0 else 0
  let k1 := if t.wp then k.setTok (waitP st) (k.tok (waitP st)).tail else k
  (if t.wn then k1.setTok (waitN st) (k1.tok (waitN st)).tail else k1, max a b)
/-- Noting the cycle in which an instruction took its tokens; the words of their queues are corrected (R421). -/
def Core.noteTaken (k : Core) (st : Strm) (t : Tok) (at' : Nat) : Core :=
  let m := if t.wp then mset k.eng.taken (dirNo (waitP st)) at' else k.eng.taken
  let k1 := { k with eng := { k.eng with taken := if t.wn then mset m (dirNo (waitN st)) at' else m } }
  let k2 := if t.wp then k1.corrects isTokens (dirNo (waitP st)) 1 else k1
  if t.wn then k2.corrects isTokens (dirNo (waitN st)) 1 else k2
/-- MEM.UE of a token queue from which an instruction takes a token: code 4, as an engine queue (R245, R419). -/
def Core.tokBad (k : Core) (st : Strm) (t : Tok) : Option Stop :=
  let q (on : Bool) (d : Dir) : Option Nat := if on then k.badIn isTokens (dirNo d) 1 else none
  ((q t.wp (waitP st)).orElse (fun _ => q t.wn (waitN st))).map (fun _ => stopUe st 4 0)
/-- A signal of the stream is held, so that it starts no younger instruction (R26). -/
def Core.sigHeld (k : Core) (st : Strm) : Bool :=
  k.held (sigP st) || k.held (sigN st)
/-- The stream that signals in a direction. -/
def dirStrm : Dir → Strm
  | .feLd => .fe | .feSt => .fe | .ldEx => .ld | .ldFe => .ld | .exSt => .ex | .exLd => .ex | .stFe => .st | .stEx => .st
/-- A stream starts nothing before a cycle. -/
def Core.notBefore (k : Core) (st : Strm) (t : Nat) : Core :=
  match st with
  | .fe => { k with eng := { k.eng with cyc := max k.eng.cyc t } }
  | .ld => { k with eng := { k.eng with ldAt := max k.eng.ldAt t } }
  | .ex => { k with eng := { k.eng with exAt := max k.eng.exAt t } }
  | .st => { k with eng := { k.eng with stAt := max k.eng.stAt t } }
/-- Pushing a held signal into its queue when it has room (R26): in the cycle in which the queue lost a token, and not before its
instruction completed. It can be taken in the cycle after; its stream starts its next instruction in that cycle at the soonest. -/
def Core.drainLatch (k : Core) (d : Dir) : Core :=
  match mfind k.eng.latch (dirNo d) with
  | some t =>
    if (k.tok d).length < 15 then
      let at' := max t (mget 0 k.eng.taken (dirNo d) + 1)
      let k1 := k.pushTok d at'
      { k1 with eng := { k1.eng with latch := mdel k.eng.latch (dirNo d) } }.notBefore (dirStrm d) at'
    else k
  | none => k
/-- The tokens of a queue that have been pushed: those of an FE instruction only when its result is written (R25). -/
def Core.pushed (k : Core) (d : Dir) : Nat :=
  match d with
  | .feLd => ((k.tok d).filter (· < k.eng.cyc)).length
  | .feSt => ((k.tok d).filter (· < k.eng.cyc)).length
  | _ => (k.tok d).length
/-- The value of TOKC (R27). -/
def Core.tokc (k : Core) : W64 :=
  let cnt := [Dir.feLd, .ldEx, .exSt, .stFe, .ldFe, .exLd, .stEx, .feSt].foldl
    (fun a d => a + k.pushed d * 2 ^ (4 * dirNo d)) 0
  let bit (n : Nat) : Nat := if (mfind k.eng.latch n).isSome then 2 ^ (if n < 4 then 36 + n else 28 + n) else 0
  BitVec.ofNat 64 (cnt + (upto 8).foldl (fun a n => a + bit n) 0)

/-! ### Queues (R20) -/

/-- The stream of an engine. -/
def engStrm : Eng → Strm
  | .ld => .ld | .ex => .ex | .st => .st
/-- The queue of an engine. -/
def Core.queue (k : Core) (e : Eng) : List Entry :=
  match e with
  | .ld => k.eng.ld | .ex => k.eng.ex | .st => k.eng.st
/-- Replacing the queue of an engine. -/
def Core.setQueue (k : Core) (e : Eng) (l : List Entry) : Core :=
  match e with
  | .ld => { k with eng := { k.eng with ld := l } }
  | .ex => { k with eng := { k.eng with ex := l } }
  | .st => { k with eng := { k.eng with st := l } }
/-- Queue entries an instruction takes: two when it is wide (R20). -/
def slots (i : Instr) : Nat := i.size / 4
/-- The engine of an LD or ST command. -/
def Entry.eng (en : Entry) : Eng := if (opOf en.i).toNat / 64 = 1 then .ld else .st
/-- The instruction of an entry has started and has left the queue's count (R20): a copy, a link transfer or a bank operation under
way. Repeated vector instructions, RELAX and RELAX.B, and markers stay in it. -/
def Entry.away (en : Entry) : Bool :=
  match en.mark with
  | .copy .. => true
  | .bank .. => true
  | .shipped _ => (match en.i with | .tlbi .. => false | _ => true)
  | .slotted _ => true
  | _ => false
/-- Entries of a queue that only its engine can free. -/
def Core.entries (k : Core) (e : Eng) : Nat := ((k.queue e).filter (fun x => !x.away)).foldl (fun n x => n + slots x.i) 0
/-- The first cycle from t on in which an engine's queue has room for an instruction (R20); none while only the engine can make
room. An instruction that has run with a later start leaves in that cycle. -/
def Core.roomAt (k : Core) (e : Eng) (i : Instr) (t : Nat) : Option Nat :=
  let out := k.eng.left.filter (fun x => x.1 == e)
  let used (u : Nat) : Nat := k.entries e + (out.filter (fun x => u < x.2.1)).foldl (fun n x => n + x.2.2) 0
  ((t :: out.map (fun x => max t x.2.1)).filter (fun u => used u + slots i ≤ 64)).min?
/-- Every routed instruction and copy has completed (R41), once the cycle `drained` has come. -/
def Core.idle (k : Core) : Bool := k.eng.ld.isEmpty && k.eng.ex.isEmpty && k.eng.st.isEmpty && k.eng.flight.isEmpty
/-- The first cycle in which everything that has run in the engines is complete. -/
def Core.drained (k : Core) : Nat := max k.eng.exFin (max k.eng.ldAt k.eng.stAt)
/-- Whether a schedule holds an engine back. -/
def Core.holds (k : Core) (e : Eng) : Bool :=
  match e with
  | .ld => k.eng.holdLd | .ex => k.eng.holdEx | .st => k.eng.holdSt
/-- The cycle in which an engine may start its next instruction. -/
def Core.engAt (k : Core) (e : Eng) : Nat :=
  match e with
  | .ld => k.eng.ldAt | .ex => k.eng.exAt | .st => k.eng.stAt
/-- Setting that cycle. -/
def Core.setEngAt (k : Core) (e : Eng) (t : Nat) : Core :=
  match e with
  | .ld => { k with eng := { k.eng with ldAt := t } }
  | .ex => { k with eng := { k.eng with exAt := t } }
  | .st => { k with eng := { k.eng with stAt := t } }

/-! ### What an FE instruction waits for (R22) -/

/-- Routed instructions and deferred ones that have not completed. -/
def Core.inFlight (k : Core) : List Entry := k.eng.ld ++ k.eng.ex ++ k.eng.st ++ k.eng.flight ++ k.spec.defer.map (·.2)
/-- Every scalar an instruction names. -/
def sNames (i : Instr) : List Sreg := sReads i ++ sWrites i
/-- Every handle an instruction names, by physical number. -/
def hNames (i : Instr) : List Hreg := (hImages i).filterMap id ++ hFe i ++ hStreams i
/-- The handles an instruction reads: those it names but for one that it only overwrites (R39). -/
def hRead (i : Instr) : List Hreg :=
  match i with
  | .hmov _ _ ha => [ha]
  | .hld .. => []
  | .hldSpill .. => []
  | i => hNames i
/-- A register the instruction names waits for a routed instruction (R22): a scalar it writes, or a handle it uses as a
stream. -/
def Core.regWait (k : Core) (i : Instr) : Bool :=
  k.inFlight.any (fun e => (sWrites e.i).any (fun d => d ≠ 0 && (sNames i).contains d)) ||
  k.eng.ex.any (fun e => (hStreams e.i).any (fun h => (hNames i).contains h))
/-- The first cycle in which every register the instruction names may be named. -/
def Core.regAt (k : Core) (i : Instr) : Nat :=
  (hNames i).foldl (fun t h => max t (mget 0 k.eng.hBusy h.toNat))
    ((sNames i).foldl (fun t r => max t (mget 0 k.eng.sBusy r.toNat)) 0)
/-- The early read of a register in debug mode of a static region (R39). -/
def Core.earlyReg (k : Core) (now : Nat) (ss : List Sreg) (hs : List Hreg) : Option Stop :=
  if k.debug && !k.interlocked then
    k.eng.due.findSome? (fun d =>
      if d.strm = .fe ∧ now < d.due then
        match d.wr with
        | .s r _ => if ss.contains r then some ⟨.earlyRead, .fe, 0, BitVec.ofNat 64 (128 + r.toNat)⟩ else none
        | .h r _ => if hs.contains r then some ⟨.earlyRead, .fe, 0, BitVec.ofNat 64 (192 + r.toNat)⟩ else none
        | _ => none
      else none)
  else none
/-- A pending write of a scalar that is made by cycle `by'`. -/
def Due.ofS (r : Sreg) (by' : Nat) (d : Due) : Bool := match d.wr with | .s x _ => x == r && decide (d.due ≤ by') | _ => false
/-- A pending write of a handle that is made by cycle `by'`. -/
def Due.ofH (r : Hreg) (by' : Nat) (d : Due) : Bool := match d.wr with | .h x _ => x == r && decide (d.due ≤ by') | _ => false
/-- Writing a scalar result of an FE instruction that starts in cycle t with latency lat (R37, R40). Of two results that are written
to one register in one cycle the younger stands (log entry 103). -/
def Core.result (k : Core) (t lat : Nat) (d : Sreg) (v : W64) : Core :=
  if k.interlocked then k.setS d v
  else if lat ≤ 1 then (k.flushIf (Due.ofS d (t + lat))).setS d v
  else k.addDue ⟨t + lat, .fe, .s d v⟩
/-- Writing a handle as a result of an FE instruction, as `Core.result` writes a scalar. -/
def Core.resultH (k : Core) (t lat : Nat) (d : Hreg) (v : W256) : Core :=
  if k.interlocked then k.setH d v
  else if lat ≤ 1 then (k.flushIf (Due.ofH d (t + lat))).setH d v
  else k.addDue ⟨t + lat, .fe, .h d v⟩
/-- The exposed latency of an FE instruction (R38, R114). -/
def feLat : Instr → Nat
  | .mul .. => 3 | .mulh .. => 3 | .mulhn .. => 3
  | .div .. => 20 | .divn .. => 20 | .rem .. => 20 | .remn .. => 20
  | .lds .. => 4 | .sts .. => 4 | .hld .. => 4 | .hst .. => 4
  | _ => 1

/-! ### Speculation states at decode (R348, R349, R352) -/

/-- A program trap handler is active (R251). -/
def Core.ha (k : Core) : Bool := (k.getSr 0x002).getLsbD 15
/-- The fate of an instruction in the core's speculation state. -/
inductive SpecFate where | pass | illegal | side
  deriving DecidableEq, Repr
/-- Instructions that SPEC.SIDE stops in the body (R348, R352). -/
def bodySide : Instr → Bool
  | .specBegin .. => true | .launch .. => true | .cancel .. => true | .abort .. => true | .phase .. => true
  | .region .. => true | .halt .. => true | .tlbi .. => true
  | .bfaa .. => true | .bfaaStream .. => true | .bcas .. => true
  | .bxrd _ _ _ _ _ clr => clr | .bxrdStream _ _ _ _ _ clr => clr
  | .linkSend .. => true | .linkRed .. => true | .migr .. => true | .ldNet .. => true | .linkRecv .. => true
  | _ => false
/-- Instructions that SPEC.SIDE stops in the guess routine (R348): every ST-class instruction and those named. -/
def guessSide (i : Instr) : Bool :=
  (opOf i).toNat / 64 == 3 ||
  match i with
  | .specBegin .. => true | .accept .. => true | .specCommit .. => true | .specAbort .. => true
  | .ldG .. => true | .ldGt .. => true | .ldNet .. => true | .linkRecv .. => true
  | .launch .. => true | .cancel .. => true | .abort .. => true | .phase .. => true | .region .. => true
  | .halt .. => true | .tlbi .. => true | .pwrDecl .. => true | .pwrAcq .. => true | .pwrRel .. => true
  | .done .. => true
  | _ => false
/-- The five instructions of the region itself. -/
def specOwn : Instr → Bool
  | .specBegin .. => true | .specGo .. => true | .specCommit .. => true | .specAbort .. => true | .accept .. => true
  | _ => false
/-- The fate of an instruction in the core's speculation state (R348, R349). -/
def Core.specFate (k : Core) (i : Instr) : SpecFate :=
  if k.ha then (if specOwn i then .side else .pass)
  else match k.spec.st with
    | .closed => match i with
      | .specGo .. => .illegal | .accept .. => .illegal | .specCommit .. => .illegal | .specAbort .. => .illegal
      | _ => .pass
    | .guessing => if guessSide i then .side else .pass
    | .body => match i with
      | .specGo .. => .illegal
      | _ => if bodySide i then .side else .pass
/-- The SPEC.SIDE stop of an instruction (R245). -/
def stopSide (st : Strm) (i : Instr) (addr : W64) : Stop := ⟨.specSide, st, addr, BitVec.ofNat 64 (opOf i).toNat⟩
/-- The instruction is privileged (R60); special registers are checked by number. -/
def privileged : Instr → Bool
  | .halt .. => true | .tlbi .. => true | .migr .. => true
  | .movsr _ _ n => decide (0x200 ≤ n.toNat) | .movrs _ _ n => decide (0x200 ≤ n.toNat)
  | _ => false
/-- The RW bits and the W1C bits of a special register; none for a number that no chapter assigns. -/
def srInfo (n : Nat) : Option (W64 × W64) :=
  if n = 0x001 then some (0, statW1c)
  else if n = 0x009 then some (~~~3, 0)
  else if n = 0x00A then some (0x10F, 0)
  else if n = 0x00B then some (0xF, 0)
  else if n ≤ 0x00C then some (0, 0)
  else if n = 0x010 ∨ n = 0x011 then some (0, 0)
  else if 0x040 ≤ n ∧ n ≤ 0x04D then some (0, 0)
  else if n = 0x080 then some (0, 1)
  else if 0x083 ≤ n ∧ n ≤ 0x088 then some (0xFFFFFFFF, 0)
  else if n = 0x08A then some (7, 0)
  else if n = 0x08B then some (0x7FF, 0)
  else if 0x081 ≤ n ∧ n ≤ 0x089 then some (0, 0)
  else if 0x0C0 ≤ n ∧ n ≤ 0x0C5 then some (0, 0)
  else if 0x100 ≤ n ∧ n ≤ 0x106 then some (0, 0)
  else if n = 0x107 then some (0xFF, 0)
  else if n = 0x140 then some (0, 0)
  else if n = 0x141 then some (0, mxStatW1c)
  else if 0x148 ≤ n ∧ n ≤ 0x14A then some (0, 0)
  else if n = 0x180 ∨ n = 0x1C0 then some (0, 0)
  else if 0x1E0 ≤ n ∧ n ≤ 0x1E5 then some (0, 0)
  else if n = 0x200 then some (0, 0)
  else if n = 0x210 then some (~~~63, 0)
  else if n = 0x211 then some (~~~(0x7F#64 <<< 45 ||| 0x7F#64 <<< 19), 0)
  else if n = 0x212 then some (0x3FFFFFFFF, 0)
  else if n = 0x214 then some (0, 0)
  else if n = 0x220 then some (0xFFFF, 0)
  else if n = 0x221 then some (0xFFFFFFFFFFFF, 0)
  else if n = 0x222 then some (0xFFFFFFFFF000, 0)
  else if n = 0x223 then some (0x1FFFF, 0)
  else if n = 0x230 then some (3, 0)
  else if n = 0x231 then some (0x7777777777777777, 0)
  else if 0x232 ≤ n ∧ n ≤ 0x234 then some (~~~0, 0)
  else if n = 0x235 then some (0xFFFFFFFF00000003, 0)
  else if n = 0x240 then some (0x1F, 0)
  else if n = 0x250 then some (~~~15, 0)
  else if n = 0x251 then some (0xFFFFFFFFFFFF, 0)
  else if n = 0x252 then some (3, 0)
  else if n = 0x253 then some (0, 0)
  else if n = 0x260 then some (0xFFFF, 0)
  else if 0x261 ≤ n ∧ n ≤ 0x26C then some (~~~0, 0)
  else if n = 0x270 then some (0xFF, 0)
  else if n = 0x271 then some (0x80FF0000000F000F, 0)
  else if n = 0x272 then some (~~~0, 0)
  else if 0x280 ≤ n ∧ n ≤ 0x2BF then some (0xBF, 0)
  else none
/-- MOVSR of a number that no chapter assigns, or MOVRS of one or of a register without a field to write, is ILLEGAL (R60, R61,
R116). -/
def srIllegal : Instr → Bool
  | .movsr _ _ n => (srInfo n.toNat).isNone
  | .movrs _ _ n => (srInfo n.toNat).getD (0, 0) == (0, 0)
  | _ => false
/-- An uncorrectable word of a handle (R419). -/
def Core.handleBad (k : Core) (h : Hreg) : Option Stop := (k.badIn isHandle (4 * h.toNat) 4).map (fun w => stopUe .fe 5 (8 * w))
/-- A carry handle of SPEC.BEGIN: its words, R31, and w rows from its cursors. -/
def carryStop (k : Core) (w : Nat) (r : Hreg) : Option Stop :=
  let h := HD.of (k.getH r)
  match k.handleBad r with
  | some x => some x
  | none => match h.stopOf .fe r with
    | some x => some x
    | none => if h.e 1 < h.i 1 + w then some (stopH .fe r 0) else none
/-- What the handles of SPEC.BEGIN raise when it is decoded (R31, R60, R350). -/
def Core.carryCheck (k : Core) (i : Instr) : Option Stop :=
  match i with
  | .specBegin _ hc hg wm1 _ =>
    let q := k.flush .fe (max k.eng.cyc (k.regAt i))
    (carryStop q (wm1.toNat + 1) hc).orElse (fun _ => carryStop q (wm1.toNat + 1) hg)
  | _ => none
/-- The causes of decoding (R60, R348), in their order: PRIV, ILLEGAL of a special register, the handles of SPEC.BEGIN, then the
speculation state. `addr` is s[a] of a copy or bank instruction. An instruction that raises one takes no token (R24). -/
def Core.decodeStop (k : Core) (i : Instr) (addr : W64) : Option Stop :=
  if privileged i ∧ !k.isPriv then some (stop0 .priv .fe)
  else if srIllegal i then some (stop0 .illegal .fe)
  else (k.carryCheck i).orElse (fun _ => match k.specFate i with
    | .pass => none
    | .illegal => some (stop0 .illegal .fe)
    | .side => some (stopSide .fe i addr))
/-- MEM.UE of the tokens that an FE instruction takes when it starts (R24, R419). -/
def Core.feTokBad (k : Core) (i : Instr) : Option Stop :=
  if k.eng.satisfied || k.sigHeld .fe || k.regWait i || !k.tokReady .fe (tokOf i) then none else k.tokBad .fe (tokOf i)
/-- What stops an FE instruction before it starts: its decoding, or its tokens. -/
def Core.feStop (k : Core) (i : Instr) : Option Stop := (k.decodeStop i 0).orElse (fun _ => k.feTokBad i)
/-- SPEC.BEGIN waits for its handles before it is checked (R22). -/
def Core.decodeWaits (k : Core) (i : Instr) : Bool :=
  match i with | .specBegin .. => k.regWait i | _ => false

/-! ### Taking an exception (R245 to R263) -/

/-- FF.FE, FF.LD, FF.EX and FF.ST: the oldest uncompleted instruction of each stream, or PCFE (R21, R250). -/
def Core.recordPcs (k : Core) : Core :=
  let pcOf (q : List Entry) : W64 := ((q.foldl (fun (o : Option Entry) x => match o with
    | some y => if x.routed < y.routed then some x else some y
    | none => some x) none).map (·.pc)).getD k.r.pc
  let k := k.setSr 0x003 (k.r.pc &&& ~~~3#64)
  let k := k.setSr 0x004 (pcOf (k.eng.flight.filter (fun x => x.eng == .ld) ++ k.eng.ld) &&& ~~~3#64)
  let k := k.setSr 0x005 (pcOf k.eng.ex &&& ~~~3#64)
  k.setSr 0x006 (pcOf (k.eng.flight.filter (fun x => x.eng == .st) ++ k.eng.st) &&& ~~~3#64)
/-- The frame registers of a stop (R250 to R252): CAUSE with its bits, the four stream addresses, FF.ADDR and FF.INFO. -/
def Core.recordStop (k : Core) (x : Stop) (nest ha : Bool) : Core :=
  let b (c : Bool) (n : Nat) : Nat := if c then 2 ^ n else 0
  let cause := causeCode x.cause + strmNo x.src * 2 ^ 10 + b (causeSys x.cause) 12 + b nest 14 + b ha 15
  (((k.setSr 0x002 (BitVec.ofNat 64 cause)).recordPcs).setSr 0x007 x.addr).setSr 0x008 x.info
/-- Setting the region bit of STAT (R41, R43). -/
def Core.setRegion (k : Core) (inter : Bool) : Core :=
  let v := k.getSr 0x001
  k.setSr 0x001 (if inter then v ||| 0x100 else v &&& ~~~0x100#64)
/-- The streams have stopped: what they started is complete, its time has passed, and its results are written (R218, R247). -/
def Core.settled (k : Core) : Core :=
  let k1 := k.flushAll
  { k1 with eng := { k1.eng with cyc := max k1.eng.cyc k1.drained } }
/-- Setting the queues, tokens, latches and region aside, and starting them empty (R255 steps 2 and 3). -/
def Core.setAside (k : Core) (later : Nat) : Core :=
  let t := k.eng.cyc + later
  { k with frame := some ⟨k.eng, k.interlocked⟩, eng := { Engines.reset with cyc := t, ldAt := t, exAt := t, stAt := t } }
/-- Entry to the unit's handler (R255): its first instruction starts 16 cycles later. -/
def Core.enterHandler (k : Core) (x : Stop) : Core :=
  let k := ((k.recordStop x false true).setAside 16).setRegion true
  k.setPc (k.getSr 0x009)
/-- Restoring what was set aside (R257 steps 3 and 4): HA is cleared, and each engine resumes at the head of its queue. -/
def Core.restoreFrame (k : Core) (later : Nat) : Core :=
  let f := k.frame.getD ⟨Engines.reset, true⟩
  let t := k.eng.cyc + later
  let k := { k with frame := none, eng := { f.eng with cyc := t, ldAt := t, exAt := t, stAt := t, sBusy := [], hBusy := [] } }
  let k := k.setRegion f.region
  k.setSr 0x002 (k.getSr 0x002 &&& ~~~0x8000#64)
/-- ERET (R257), one cycle after its drain (R100 starts its target 2 cycles after ERET, R257 the next instruction 4 cycles after
its drain: the model follows R257, log entry 88): the frame is restored and the FE resumes at FF.FE, or after it for TRAP and
BREAK; the next instruction starts 4 cycles after the drain. The handler's FE results that are not yet due stay so in a static
region. -/
def Core.eret (k : Core) : Core :=
  let c := k.getSr 0x002
  let code := bits c 7 0
  let skip := (code = 0x40 ∨ code = 0x41) ∧ bits c 11 10 = 0
  let due := k.eng.due
  let k1 := k.restoreFrame 3
  let k2 := { k1 with eng := { k1.eng with due := due } }
  let k := if k2.interlocked then k2.flushAll else k2
  let pc := k.getSr 0x003 + (if skip then 4 else 0)
  { k with r := { k.r with pc := pc }, eng := { k.eng with satisfied := if skip then false else k.eng.satisfied } }
/-- The fault record of a core's unit (R259), with its action. -/
def State.recordOf (s : State) (c action : Nat) : List W64 :=
  let k := s.core c
  let g (n : Nat) : W64 := k.getSr n
  [g 0x002, g 0x003, g 0x004, g 0x005, g 0x006, g 0x007, g 0x008, g 0x046, g 0x040,
   BitVec.ofNat 64 (c + action * 256), g 0x04D, g 0x049, g 0x047]
/-- Writing the record of a core's unit and remembering which held or parked unit it names (R260, R264). -/
def State.unitRecord (s : State) (c action : Nat) (named parked : Bool) : State :=
  s.faultRecord (s.partNo c) (s.recordOf c action)
    (if named then (s.core c).run.map (fun u => ⟨0, u.launch, u.born, u.unit, c, parked⟩) else none)
/-- Parking a core (R262): its frame is set aside and its lease ends. -/
def State.park (s : State) (c action : Nat) : State :=
  let s1 := s.unitRecord c action true true
  (s1.endLease c).upCore c (fun k => { k.setAside 0 with mode := .parked, sleep := .awake })
/-- Counting MEM.UE and ARITH.CHECK of a cluster (R422). -/
def State.countUe (s : State) (c : Nat) (x : Cause) : State :=
  if x = .memUe ∨ x = .arithCheck then s.upClu (c / 4) (fun k => { k with ue := sat 0xFFFFFFFF (k.ue + 1) }) else s
/-- Taking a stop when the streams have stopped (R254, R261 to R263): a program trap goes to the unit's handler, or fails
the unit when it has none or one is active; a system fault aborts an idempotent unit and parks a persistent one. -/
def State.takeStop (s : State) (c : Nat) (x : Stop) : State :=
  let s := (s.countUe c x.cause).unwait c
  let k0 := (s.core c).settled
  let k := { k0 with sleep := .awake, halting := none, mode := (match k0.mode with | .drain _ => .running | m => m) }
  let ha := k.ha
  if !causeSys x.cause && !ha && k.getSr 0x009 ≠ 0 then s.setCore c (k.enterHandler x)
  else
    let s1 := s.setCore c (k.recordStop x ha ha)
    if k.isPers then s1.park c (if causeSys x.cause then 2 else 0)
    else if causeSys x.cause then (s1.unitRecord c 1 true false).requeue c false
    else (s1.unitRecord c 0 false false).endUnit c false false

end Sys2Proof.Machine
end

