-- ==== Sys2Proof/Machine/EngineBase.lean ====
section
/-!
DEFINITION. Sys2Proof/Machine/EngineBase.lean: how an engine runs the instruction at the head of its queue (R20, R24, R25,
R144): its tokens are taken, its body runs, and at completion the entry leaves and the signals are pushed.
-/

namespace Sys2Proof.Machine
open Sys2Proof

/-- The end of a body: the state, the cycle in which the engine may start its next instruction, and the first cycle in
which the results are seen. -/
structure Fin where
  s   : State
  nxt : Nat
  fin : Nat
/-- What an instruction does at its engine: core, its entry, its start cycle and the state with the entry at the head. -/
abbrev EBody := Nat → Entry → Nat → State → Res Fin
/-- A body's end at cycle t with no exposed latency. -/
def finAt (t : Nat) (s : State) : Fin := ⟨s, t + 1, t + 1⟩
/-- Replacing the entry at the head of a queue. -/
def Core.setHead (k : Core) (e : Eng) (en : Entry) : Core := k.setQueue e (en :: (k.queue e).tail)
/-- Recording a resume mark in the entry at the head (R250). -/
def State.setMark (s : State) (c : Nat) (e : Eng) (m : Mark) : State :=
  s.upCore c (fun k => match k.queue e with
    | [] => k
    | en :: _ => k.setHead e { en with mark := m })
/-- The token bits that act when an entry completes: none for a deferral entry that a commit has placed (lane 14), whose
bits acted when it was deferred (R356). -/
def Entry.tok (en : Entry) : Tok := if en.lane = 14 then {} else tokOf en.i
/-- The entry at the head may start or go on: its tokens are there, or have been taken, its own tokens will find room, and an
entry that has taken none waits while a signal of its stream is held (R24, R26). -/
def Core.headReady (k : Core) (e : Eng) (en : Entry) : Bool :=
  k.canSignal (engStrm e) en.tok && (en.waited || (!k.sigHeld (engStrm e) && k.tokReady (engStrm e) (tokOf en.i)))
/-- Registers an engine has written or used as streams may be named from cycle `fin` on (R22, static region). -/
def Core.setBusy (k : Core) (i : Instr) (fin : Nat) : Core :=
  if k.interlocked then k
  else
    { k with eng := { k.eng with
        sBusy := (sWrites i).foldl (fun m d => if d = 0 then m else mset m d.toNat fin) k.eng.sBusy
        hBusy := (hStreams i).foldl (fun m h => mset m h.toNat fin) k.eng.hBusy } }
/-- The interlocked objects an EX instruction reads (R142, R203, R318); a first MMA's anchors are its body's. -/
def exReads : Instr → List Nat
  | .mpush .. => [0, 1] | .minv .. => [0] | .mpop .. => [0] | .mset .. => [0] | .mget .. => [0] | .vskip .. => [0]
  | .vsel .. => [0, 1] | .vredSum .. => [0, 2] | .vredMaxi .. => [3] | .vxrd .. => [2] | .vscan .. => [0, 2]
  | .vmaxi .. => [0, 3] | .mstatRowanc .. => [4] | .mtopk .. => [5] | .rdahr .. => [6] | .relax .. => [0, 6]
  | .relaxB .. => [0, 6]
  | i => if (hStreams i).isEmpty then [] else [0]
/-- The interlocked objects an EX instruction writes. -/
def exWrites : Instr → List Nat
  | .mpush .. => [0] | .minv .. => [0] | .mpop .. => [0] | .mset .. => [0]
  | .vcmp .. => [1] | .vclass .. => [1] | .vredSum .. => [2] | .vredMaxi .. => [3] | .vxrd .. => [2] | .vscan .. => [2]
  | .vmaxi .. => [3] | .mancScan .. => [4] | .mancLoad .. => [4] | .mtopk .. => [5] | .wrahr .. => [6]
  | .relax .. => [6] | .relaxB .. => [6]
  | _ => []
/-- The EX-owned special registers, and PWR.UND, that an instruction writes (R42, R388). -/
def exSrs : Instr → List Nat
  | .mget .. => [0x148, 0x149]
  | .vredMaxi .. => [0x14A]
  | .mlease .. => [0x140]
  | .mrel .. => [0x140]
  | .mancLoad .. => [0x141]
  | .mancColumn .. => [0x141]
  | .mma .. => [0x140, 0x141, 0x102]
  | .mepi .. => [0x141]
  | .rdacc .. => [0x141]
  | .relax .. => [0x140, 0x141, 0x102, 0x080, 0x081, 0x082, 0x089]
  | .relaxB .. => [0x140, 0x141, 0x102, 0x080, 0x081, 0x082, 0x089]
  | .accept .. => [0x0C2]
  | _ => []
/-- The first cycle in which the interlocked objects an instruction reads have been written (R142). -/
def Core.exReady (k : Core) (i : Instr) : Nat := (exReads i).foldl (fun t n => max t (mget 0 k.v.rdy n)) 0
/-- Recording when what an instruction wrote may be read: objects 0 to 6, and special registers by their numbers. -/
def Core.exWrote (k : Core) (i : Instr) (fin : Nat) : Core :=
  { k with v := { k.v with rdy := (exWrites i ++ exSrs i).foldl (fun m n => mset m n (max fin (mget 0 m n))) k.v.rdy } }
/-- The first cycle in which an instruction that has run no longer counts in its queue (R20): RELAX and RELAX.B leave it at their
completion, another when its last repetition has started. -/
def leavesAt (i : Instr) (f : Fin) : Nat :=
  match i with
  | .relax .. => f.fin | .relaxB .. => f.fin
  | _ => f.nxt - 1
/-- Noting what an instruction that has run still takes of its queue, and when everything that the EX has run is complete. -/
def Core.ranAt (k : Core) (e : Eng) (en : Entry) (f : Fin) : Core :=
  { k with eng := { k.eng with
      left := (k.eng.left.filter (fun x => k.eng.cyc < x.2.1)) ++
        (if k.eng.cyc < leavesAt en.i f then [(e, leavesAt en.i f, slots en.i)] else [])
      exFin := if e = .ex then max k.eng.exFin f.fin else k.eng.exFin } }
/-- The completion of the entry at the head (R25): it leaves the queue and pushes its signals. -/
def finishHead (c : Nat) (e : Eng) (en : Entry) (f : Fin) : State :=
  f.s.upCore c (fun k =>
    (((((k.setQueue e (k.queue e).tail).setEngAt e f.nxt).setBusy en.i f.fin).exWrote en.i f.fin).ranAt e en f).signals
      (engStrm e) en.tok f.fin)

/-! ### Commands of LD and ST that have left their queue (R25, R172, R173, R280) -/

/-- A bank operation, which completes on its own (R25). -/
def Entry.isBank (en : Entry) : Bool := decide (0xD0 ≤ (opOf en.i).toNat)
/-- An operation in flight has failed and has its resume mark: it is set back when its core stops (R296). -/
def Entry.failed (en : Entry) : Bool :=
  match en.mark with | .fresh => true | .bank (_ :: _) [] [] [] [] => true | _ => false
/-- The commands that are older than one of their engine and have not completed, but for operations in flight that have failed (R296). -/
def Core.older (k : Core) (en : Entry) : List Entry :=
  (k.eng.flight.filter (fun x => x.eng == en.eng && !x.failed) ++ k.queue en.eng).filter (fun x => decide (x.routed < en.routed))
/-- A command that has done everything else waits to complete: a copy for every older copy of its engine (R25), and one that names a
flag word for every older command (R173). -/
def Core.ordered (k : Core) (en : Entry) (flag : Bool) : Bool :=
  if flag then !(k.older en).isEmpty else !en.isBank && (k.older en).any (fun x => !x.isBank)
/-- The command at the head of a queue leaves it, in flight as `en`. -/
def Core.fly (k : Core) (e : Eng) (en : Entry) (t : Nat) : Core :=
  ({ k with eng := { k.eng with flight := k.eng.flight ++ [en] } }.setQueue e (k.queue e).tail).setEngAt e (t + 1)
/-- The completion of a command in flight (R25, R26). -/
def Core.landed (k : Core) (en : Entry) (f : Fin) : Core :=
  (Core.setBusy { k with eng := { k.eng with flight := k.eng.flight.filter (fun x => x.routed ≠ en.routed) } } en.i f.fin).signals
    (engStrm en.eng) en.tok f.fin
/-- The resume mark of a command in flight. -/
def State.markFlight (s : State) (c : Nat) (en : Entry) (m : Mark) : State :=
  s.upCore c (fun k => { k with eng := { k.eng with
    flight := k.eng.flight.map (fun y => if y.routed = en.routed then { y with mark := m } else y) } })
/-- Due writes of handles that an EX instruction uses as streams, which it reads when it executes (R22). -/
def Core.flushH (k : Core) (hs : List Hreg) (now : Nat) : Core :=
  k.flushIf (fun d => match d.wr with
    | .h r _ => hs.contains r && decide (d.due ≤ now)
    | _ => false)
/-- The first cycle in which the handles an instruction uses as streams hold what older FE instructions write to them: those
results are of another stream, so the EX waits for them (R22, R39; log entry 103). -/
def Core.streamsAt (k : Core) (i : Instr) : Nat :=
  k.eng.due.foldl (fun t d => match d.wr with
    | .h r _ => if (hStreams i).contains r then max t d.due else t
    | _ => t) 0
/-- The start cycle of the entry at the head: the cycle after its routing at the soonest (log entry 89). -/
def startAt (k : Core) (e : Eng) (en : Entry) (tok : Nat) : Nat :=
  max (max (max (max (k.engAt e) (en.routed + 1)) tok) (k.exReady en.i)) (k.streamsAt en.i)
/-- The cycle from which the tokens that the entry at the head still takes can be taken. -/
def Core.tokAt (k : Core) (e : Eng) (en : Entry) : Nat := if en.waited then 0 else (k.takeToks (engStrm e) (tokOf en.i)).2
/-- The entry keeps a rhythm of its own between its turns: the repetitions of a static region (R71) and a running RELAX (R237). -/
def Core.inStep (k : Core) (en : Entry) : Bool :=
  match en.mark with
  | .reps .. => !k.interlocked
  | .relax p => p.started
  | _ => false
/-- An entry that has waited goes on in the present cycle at the soonest (log entry 92). -/
def goesAt (s : State) (c : Nat) (en : Entry) (t : Nat) : Nat :=
  if en.waited && !(s.core c).inStep en then max t (s.cycOf c) else t
/-- MEM.UE of the word that holds the entry at the head, or of the token queues from which it takes its tokens (R419). -/
def Core.headStop (k : Core) (e : Eng) (en : Entry) : Option Stop :=
  if en.mark = .broken then some (stopUe (engStrm e) 4 0)
  else if en.waited then none else k.tokBad (engStrm e) (tokOf en.i)
/-- MEM.UE of a handle that the instruction uses as a stream, which its engine reads (R22, R419). -/
def Core.streamStop (k : Core) (e : Eng) (i : Instr) : Option Stop :=
  (hStreams i).findSome? (fun h => (k.badIn isHandle (4 * h.toNat) 4).map (fun w => stopUe (engStrm e) 5 (8 * w)))
/-- The entry at the head starts or goes on in cycle t: its tokens are taken, unless they have been, what is due is written, and the
words it reads, its own, those of its tokens and of its streams, are corrected (R22, R24, R37, R421). -/
def Core.opened (k : Core) (e : Eng) (en : Entry) (t : Nat) : Core :=
  let k0 := if en.waited then k else (k.takeToks (engStrm e) (tokOf en.i)).1.noteTaken (engStrm e) (tokOf en.i) t
  let k1 := (((k0.setHead e { en with waited := true, weak := false }).setEngAt e t).flush (engStrm e) t).flushH (hStreams en.i) t
  let k2 := if en.weak then { k1 with ce := k1.ce + 1 } else k1
  (hStreams en.i).foldl (fun k h => k.corrects isHandle (4 * h.toNat) 4) k2
/-- Running the entry at the head of a queue with its body. While the skip counter is nonzero the EX skips a fresh
instruction (R144). -/
def runHead (body : EBody) (c : Nat) (e : Eng) (s : State) : Res State :=
  let k := s.core c
  match k.queue e with
  | [] => .wait s
  | en :: _ =>
    if !k.headReady e en then .wait s
    else match k.headStop e en with
      | some x => .stop x s
      | none =>
        let t := goesAt s c en (startAt k e en (k.tokAt e en))
        let en' := { en with waited := true, weak := false }
        let k1 := k.opened e en t
        if e = .ex ∧ k.v.skip ≠ 0 ∧ en.mark = .fresh then
          .ok (finishHead c e en' (finAt t (s.setCore c { k1 with v := { k1.v with skip := k1.v.skip - 1 } })))
        else match k1.streamStop e en.i with
          | some x => .stop x s
          | none =>
            match body c en' t (s.setCore c k1) with
            | .ok f => .ok (finishHead c e en' f)
            | .stop x f => .stop x f.s
            | .wait f => .wait f.s
            | .fault x => .fault x

/-! ### What an FE instruction waits for beside registers and tokens -/

/-- The register is EX-owned (R42). -/
def exOwned (n : Nat) : Bool :=
  (decide (0x080 ≤ n) && decide (n ≤ 0x08B)) || n == 0x0C2 || n == 0x140 || n == 0x141 || (decide (0x148 ≤ n) && decide (n ≤ 0x14A))
/-- The first cycle in which what the FE instruction waits for in the engines is complete, once their queues let it start: MOVSR
and MOVRS of interlocked registers (R27, R42, R116, R308, R366), and the instructions that drain the engines (R18, R41, R122, R257,
R362 to R364). -/
def Core.waitAt (k : Core) (i : Instr) : Nat :=
  match i with
  | .movsr _ _ n =>
    if n = 0x00C then k.drained
    else if n = 0x0C0 ∨ n = 0x0C4 then max k.eng.ldAt k.eng.stAt
    else mget 0 k.v.rdy n.toNat
  | .movrs _ _ n =>
    if exOwned n.toNat then k.eng.exFin
    else if 0x220 ≤ n.toNat ∧ n.toNat ≤ 0x223 then max k.eng.ldAt k.eng.stAt
    else 0
  | .region .. => k.drained
  | .done .. => k.drained
  | .halt .. => k.drained
  | .eret .. => k.drained
  | .phase .. => k.drained
  | .specCommit .. => k.drained
  | .specAbort .. => k.drained
  | _ => 0

/-! ### Bodies over one core -/

/-- A body that changes only its core, with latency lat. -/
def coreBody (lat : Nat) (f : Core → Res Core) : EBody := fun c _ t s =>
  (f (s.core c)).map (fun k => ⟨s.setCore c k, t + 1, t + lat⟩)
end Sys2Proof.Machine
end

