-- ==== Sys2Proof/Machine/CopyBase.lean ====
section
/-!
DEFINITION. Sys2Proof/Machine/CopyBase.lean: what every copy shares (R171 to R182): the formats of its two ends, tiles, translation,
the granules of its scratchpad side, its loop of acts, its flag word, and the checks of its tile.
-/

namespace Sys2Proof.Machine
open Sys2Proof

/-! ### Formats of the two ends (R177, R178) -/

/-- Exact cell and raw accumulator. -/
def fmtCell (f : Nat) : Bool := f == 0x18 || f == 0x19
/-- The destination formats a load accepts (R177). -/
def ldFmtOk (sf df : Nat) : Bool :=
  if sf = 0 then fmtOk df && !fmtBk df && !fmtCell df
  else fmtOk sf && (df == sf || df == 0 ||
    match sf with
    | 0x02 => df == 1 | 0x03 => df == 1
    | 0x04 => 1 ≤ df && df ≤ 3 | 0x05 => 1 ≤ df && df ≤ 3
    | 0x09 => df == 8 || df == 7 || df == 6
    | 0x08 => df == 7 || df == 6 | 0x07 => df == 6 | 0x0C => df == 0x0A
    | 0x10 => 1 ≤ df && df ≤ 3
    | 0x11 => df == 0x10 || (1 ≤ df && df ≤ 3)
    | _ => false)
/-- The page formats a store accepts (R178). -/
def stFmtOk (sf df : Nat) : Bool :=
  if sf = 0 then fmtOk df && !fmtBk df && !fmtCell df
  else df == sf || (df == 0 && !fmtBk sf) ||
    match sf with
    | 0x01 => (2 ≤ df && df ≤ 5) || fmtBk df
    | 0x02 => df == 4 || df == 5 || fmtBk df
    | 0x03 => df == 4 || df == 5 || fmtBk df
    | 0x06 => df == 7 || df == 8 | 0x07 => df == 8 | 0x0A => df == 0x0C
    | 0x10 => df == 0x11
    | _ => false
/-- An element as a copy carries it: its bits, and the scale of its block for a block format. -/
structure CVal where
  b : Nat
  s : Nat
  deriving DecidableEq, Repr
/-- The exact value of an element in its format. -/
def CVal.ex (f : Nat) (v : CVal) : Ex := if fmtBk f then bkVal v.s (sext (fmtBits f) v.b) else decElem f v.b
/-- Converting an element for a load or a store; block-scaled targets of another kind are quantised by the caller. -/
def convEl (sf df : Nat) (v : CVal) : CVal × Fl :=
  if sf = df ∨ sf = 0 ∨ df = 0 then (v, 0)
  else if fmtBk sf ∧ fmtBk df then (⟨intBits (fmtBits df) (sext (fmtBits sf) v.b), v.s⟩, 0)
  else if fmtFloat df then let r := roundF (ffOf df) .rne (v.ex sf); (⟨r.1, 0⟩, r.2)
  else
    let x := decI sf v.b
    let y := satI x (fmtLo df) (fmtHi df)
    (⟨intBits (fmtBits df) y, 0⟩, if x = y then 0 else fNV)
/-- A raw end takes the format of the other end (R176, R177; log entry 10). -/
def endFmt (f other : Nat) : Nat := if f = 0 then other else f
/-- The handle as a copy places its elements. -/
def HD.as (h : HD) (other : Nat) : HD := { h with fmt := endFmt h.fmt other }

/-- The scale of a 32-element block that takes elements of blocks with these scales unchanged: theirs when it is one; otherwise the
manual states none (R179, R186, log entry 12). -/
def blockScale (ss : List Nat) : Nat :=
  match ss with
  | [] => 0
  | s :: t => if t.all (· == s) then s else (Config.mixedScale ss).toNat

/-! ### Tiles (R176) -/

/-- The rows of a tile. -/
def HD.rows (h : HD) : Nat := if h.total ≤ h.pos then 0 else (h.total - 1) / h.e 0 - h.pos / h.e 0 + 1
/-- Every position of the tile has an address (R182). -/
def tileStop (src : Strm) (r : Hreg) (h : HD) : Option Stop :=
  match h.addrs h.tile with
  | .ok _ => none
  | .error a => some (stopH src r a)
/-- The positions of a list of cursors that have addresses, with their half-byte addresses. -/
def HD.placesOf (h : HD) (ixs : List (List Nat)) : List (List Nat × Nat) :=
  ixs.filterMap (fun ix => ((h.addr ix).toOption).map (fun a2 => (ix, a2)))
/-- The positions of a tile with their half-byte addresses. -/
def HD.places (h : HD) : List (List Nat × Nat) := h.placesOf h.tile
/-- Half-bytes of a memory element: the page's, or the handle's when the page is raw. -/
def memHalf (h : HD) (pf : Nat) : Nat := fmtHalf (endFmt pf h.fmt)
/-- The pitch in half-bytes. -/
def pitch2 (h : HD) (mh : Nat) (b : W64) : Nat := if b = 0 then (h.e 0 * mh + 1) / 2 * 2 else 2 * b.toNat
/-- A half-byte virtual address as an address. -/
def vaOf (va2 : Nat) : W64 := BitVec.ofNat 64 (va2 / 2)

/-! ### A copy as it runs: translation and its parts' stops (R171, R180) -/

/-- The state of a copy as it runs: the package, and what the copy has done and holds. -/
structure CSt where
  s : State
  m : Moving
/-- A transfer that begins. -/
def CSt.of (s : State) : CSt := ⟨s, {}⟩
/-- What an entry's mark says of a copy under way. -/
def Entry.moving (en : Entry) : Moving :=
  match en.mark with
  | .copy m => m
  | .claimed rows => { rows := rows }
  | _ => {}
/-- Translating one access of a core's transfer: the leaf is installed, the segment entered (R307, R312). -/
def CSt.xlate (x : CSt) (c : Nat) (va : W64) (need : Need) (ord : Nat) (src : Strm) : Res CSt × Option Xlated :=
  let e := x.s.env c
  let k := x.s.core c
  let r := translate x.s.mem e k.tlb x.m.segs va need
  let s1 := x.s.setCore c { k with tlb := r.2 }
  match r.1 with
  | .error (.f cause sub) => (.stop (stopX src cause sub va ord) { x with s := s1 }, none)
  | .error (.fmt f) => (.stop ⟨.format, src, va, BitVec.ofNat 64 (f + ord % 256 * 2 ^ 16)⟩ { x with s := s1 }, none)
  | .error .hold => (.wait { x with s := s1 }, none)
  | .error (.bad pa) => (.fault (.unpopulated pa), none)
  | .ok t =>
    let n := enter s1.mem e x.m.segs t
    (.ok { x with s := { s1 with mem := n.1 }, m := { x.m with segs := n.2 } }, some t)
/-- A write of committed memory that covers whole words clears their errors (R420). -/
def State.writeMem (s : State) (pa : Nat) (bs : List Byte) : State :=
  (s.setMem (wrL s.mem pa bs)).renew (memWhole pa bs.length)
/-- Leaving every segment a transfer has entered (R312). -/
def CSt.leave (x : CSt) (c : Nat) : CSt :=
  { x with s := { x.s with mem := leaveAll x.s.mem (x.s.env c) x.m.segs }, m := { x.m with segs := [] } }
/-- The lines of a byte range. -/
def linesOf (pa n : Nat) : List Nat := (upto ((pa + n + 63) / 64 - pa / 64)).map (· + pa / 64)
/-- FORMAT of a part (R180, R245). -/
def stopPart (src : Strm) (fmt : Nat) (va : W64) (ord : Nat) : Stop :=
  ⟨.format, src, va, BitVec.ofNat 64 (fmt + ord % 256 * 2 ^ 16)⟩
/-- MEM.UE of a part. -/
def stopPartUe (src : Strm) (arr : Nat) (va : W64) (ord : Nat) : Stop :=
  ⟨.memUe, src, va, BitVec.ofNat 64 (arr + ord % 256 * 2 ^ 16)⟩

/-! ### The granules of a copy's scratchpad side (R35, R36, R174, R175) -/

/-- A run of half-bytes of a copy's scratchpad side: of element k its key is 2 k, of the scale word of the block that begins or ends at
element k it is 2 k + 1; `off` is the run's place in the element or word. -/
structure Piece where
  key : Nat
  off : Nat
  a2  : Nat
  n   : Nat
  deriving DecidableEq, Repr
/-- The element a piece belongs to. -/
def Piece.el (p : Piece) : Nat := p.key / 2
/-- The bytes of a piece. -/
def Piece.span (p : Piece) : Nat × Nat := (p.a2 / 2, (p.a2 + p.n + 1) / 2 - p.a2 / 2)
/-- Two pieces share half-bytes. -/
def Piece.meets (p q : Piece) : Bool := decide (p.a2 < q.a2 + q.n ∧ q.a2 < p.a2 + p.n)
/-- A piece cut where a granule of G bytes ends. -/
def Piece.cut (G : Nat) (p : Piece) : List Piece :=
  let e := (p.a2 / (2 * G) + 1) * (2 * G)
  if p.a2 + p.n ≤ e then [p]
  else [{ p with n := e - p.a2 }, { p with off := p.off + (e - p.a2), a2 := e, n := p.a2 + p.n - e }]
/-- One visit of a copy to a granule: its pieces in tile order. -/
structure Visit where
  g  : Nat
  ps : List Piece
  deriving DecidableEq, Repr
/-- The first and the last element of a visit. -/
def Visit.first (v : Visit) : Nat := (v.ps.head?.map Piece.el).getD 0
/-- See `Visit.first`. -/
def Visit.last (v : Visit) : Nat := v.ps.foldl (fun n p => max n p.el) 0
/-- The bytes of a visit. -/
def Visit.spans (v : Visit) : List (Nat × Nat) := v.ps.map Piece.span
/-- A piece joins the newest visit of its granule, when it has one it can join: under the full/empty discipline one that has not
touched its half-bytes yet (`again`). -/
def visitJoin (G : Nat) (again : Bool) (p : Piece) : List Visit → Option (List Visit)
  | [] => none
  | v :: t =>
    if v.g = p.a2 / (2 * G) then (if again && v.ps.any p.meets then none else some ({ v with ps := v.ps ++ [p] } :: t))
    else (visitJoin G again p t).map (v :: ·)
/-- The visits of a list of pieces, in the order of their first pieces. -/
def visitsOf (G : Nat) (again : Bool) (ps : List Piece) : List Visit :=
  ((ps.flatMap (Piece.cut G)).foldl (fun vs p => (visitJoin G again p vs).getD (⟨p.a2 / (2 * G), [p]⟩ :: vs)) []).reverse
/-- Insertion behind the visits that end before. -/
def visitIns (v : Visit) : List Visit → List Visit
  | [] => [v]
  | w :: t => if v.last < w.last then v :: w :: t else w :: visitIns v t
/-- The pieces of a tile's elements, with their scale words where the handle's block format moves them: each with the first element of
its block in the tile, or with the last. -/
def HD.pieces (h : HD) (bk tail : Bool) (els : List (List Nat × Nat)) : List Piece :=
  let sas := els.map (fun e => h.scaleAddr e.1)
  (els.zipIdx).flatMap (fun x =>
    let k := x.2
    let next : Option Nat := if tail then sas[k + 1]? else if k = 0 then none else sas[k - 1]?
    ⟨2 * k, 0, x.1.2, h.half⟩ :: (if bk && next != some (nth 0 sas k) then [⟨2 * k + 1, 0, 2 * nth 0 sas k, 4⟩] else []))
/-- The visits of a copy through a handle: to granules of 256 bytes under the full/empty discipline, of 64 otherwise (R35, R36). -/
def Core.visits (k : Core) (h : HD) (ps : List Piece) : List Visit :=
  visitsOf (if k.tracks h then 256 else 64) (k.tracks h) ps
/-- The visits of a destination, in the order in which they are complete. -/
def Core.landings (k : Core) (h : HD) (ps : List Piece) : List Visit := (k.visits h ps).foldl (fun l v => visitIns v l) []
/-- The 64-byte granules of some visits. -/
def granulesOf (vs : List Visit) : List Nat := vs.flatMap (fun v => v.ps.flatMap (fun p => granules64 p.a2 p.n))
/-- What the visits of a source have read of a key: the granule of visit j is the j-th number read. -/
def takenVal (G : Nat) (vs : List Visit) (got : Map Nat) (key : Nat) : Nat :=
  (vs.zipIdx).foldl (fun a x => x.1.ps.foldl (fun a p =>
    if p.key = key then a + mget 0 got x.2 / 16 ^ (p.a2 - x.1.g * (2 * G)) % 16 ^ p.n * 16 ^ p.off else a) a) 0
/-- The elements of a source that have been read: bits and block scale. -/
def takenAll (G : Nat) (bk : Bool) (vs : List Visit) (got : Map Nat) (n : Nat) : List (Nat × Nat) :=
  let heads := vs.flatMap (fun v => (v.ps.filter (fun p => p.key % 2 = 1)).map Piece.el)
  (upto n).map (fun k =>
    let j := (heads.filter (· ≤ k)).foldl max 0
    (takenVal G vs got (2 * k), if bk then scaleOf (takenVal G vs got (2 * j + 1)) else 0))
/-- The cause that a copy's read of scratchpad bytes raises (R140, R174, R420); of a part of a memory copy, MEM.UE names the part's
first byte and its ordinal (R180). -/
def Core.takeStop (k : Core) (t : Nat) (src : Strm) (h : HD) (part : Option (W64 × Nat)) (v : Visit) : Option Stop :=
  match v.spans.findSome? (fun r => k.padBad r.1 r.2) with
  | some a => some (match part with
    | some p => stopPartUe src 0 p.1 p.2
    | none => stopUe src 0 a)
  | none =>
    match k.badTag h v.spans with
    | some y => some (stopL src h y)
    | none => (v.ps.flatMap (fun p => granules64 p.a2 p.n)).findSome? (fun g =>
        (k.earlyPad src (k.tracks h) t (64 * g) 64).map (fun y => { y with addr := BitVec.ofNat 64 (64 * g) }))
/-- Reading one granule of a source, at one instant (R174); under the full/empty discipline it waits until the granule is full and, when
it takes the granule's highest byte, leaves it empty (R35). -/
def takeVisit (c t : Nat) (src : Strm) (h : HD) (part : Option (W64 × Nat)) (x : CSt) (jv : Nat × Visit) : Res CSt :=
  let k := x.s.core c
  let v := jv.2
  let G := if k.tracks h then 256 else 64
  if k.fetRead h v.spans then .wait x
  else match k.takeStop t src h part v with
    | some y => .stop y x
    | none => .ok { s := x.s.setCore c ((k.corrPad v.spans).drain h v.spans)
                    m := { x.m with stash := mset x.m.stash jv.1 (leNat (rdN (k.padAt t) (v.g * G) G)) } }
/-- The runs of half-bytes that a visit writes. -/
def Visit.writes (v : Visit) (val : Nat → Nat) : List (Nat × Nat × Nat) :=
  v.ps.map (fun p => (p.a2, p.n, val p.key / 16 ^ p.off % 16 ^ p.n))
/-- Landing one granule in the core's scratchpad (R175): its bytes, full/empty bits and page tag; under the full/empty discipline it
waits until the granule is empty when it writes the lowest byte (R35). -/
def landVisit (c t : Nat) (h : HD) (v : Visit) (val : Nat → Nat) (x : CSt) : Res CSt :=
  let k := x.s.core c
  if k.fetWrite h v.spans then .wait x
  else .ok { x with s := x.s.setCore c (k.landTogether v.spans (fun k => (v.writes val).foldl (fun k w =>
    (k.landNib k.interlocked .ld t w).tag h.layout (w.1 / 2) ((w.1 + w.2.1 + 1) / 2 - w.1 / 2)) k)) }

/-- Landing one element through handle h. -/
def Core.putEl (k : Core) (t : Nat) (h : HD) (a2 v : Nat) : Core :=
  (k.landNib k.interlocked .st t (a2, h.half, v)).tag h.layout (h.span a2).1 (h.span a2).2

/-! ### The loop of a copy (R171 to R173, R180) -/

/-- Doing the acts of a copy in order. -/
def copyLoop {α : Type} (f : CSt → α → Res CSt) : List α → CSt → Res CSt
  | [], x => .ok x
  | e :: t, x =>
    match f x e with
    | .ok x' => copyLoop f t { x' with m := { x'.m with n := x'.m.n + 1 } }
    | .stop y x' => .stop y x'
    | .wait x' => .wait x'
    | .fault z => .fault z
/-- A copy that stops is set back to its first part; what it has landed stays (R180). -/
def CSt.gone (e : Eng) (c t : Nat) (y : Stop) (x : CSt) : Res Fin := .stop y (finAt t ((x.leave c).s.setMark c e .fresh))
/-- A copy that waits keeps what it has done. -/
def CSt.waits (e : Eng) (c t : Nat) (x : CSt) : Res Fin := .wait (finAt t (x.s.setMark c e (.copy x.m)))
/-- The acts of a copy from the first one not done on; a schedule may let it do one act only. `gone` says what a stop leaves, `done` how
the copy ends. -/
def actRun {α : Type} (e : Eng) (c t : Nat) (acts : List α) (f : CSt → α → Res CSt) (gone : Stop → CSt → Res Fin)
    (done : CSt → Res Fin) (x0 : CSt) : Res Fin :=
  let todo := acts.drop x0.m.n
  match copyLoop f (if x0.s.onePart then todo.take 1 else todo) x0 with
  | .ok x => if x0.s.onePart then x.waits e c t else done x
  | .stop y x => gone y x
  | .wait x => x.waits e c t
  | .fault z => .fault z
/-- The acts that read a whole tile through its handle. -/
def Core.takes (k : Core) (h : HD) (bk : Bool) (els : List (List Nat × Nat)) : List (Nat × Visit) :=
  ((k.visits h (h.pieces bk false els)).zipIdx).map (fun x => (x.2, x.1))
/-- The elements that those acts have read. -/
def Core.taken (k : Core) (h : HD) (bk : Bool) (els : List (List Nat × Nat)) (m : Moving) : List (Nat × Nat) :=
  takenAll (if k.tracks h then 256 else 64) bk (k.visits h (h.pieces bk false els)) m.stash els.length
/-- Reading some elements through a handle, granule by granule, then going on with their values. -/
def tileRun (e : Eng) (c t : Nat) (h : HD) (bk : Bool) (els : List (List Nat × Nat)) (gone : Stop → CSt → Res Fin)
    (done : List (Nat × Nat) → CSt → Res Fin) (x0 : CSt) : Res Fin :=
  actRun e c t ((x0.s.core c).takes h bk els) (takeVisit c t (engStrm e) h none) gone
    (fun x => done ((x.s.core c).taken h bk els x.m) x) x0
/-- The flag word of a copy, in a core's scratchpad (R173): one write that changes no full/empty bit (log entry 11). -/
def State.flagWord (s : State) (c t : Nat) (fa fv : W64) : State :=
  s.upCore c (fun k => k.landAt false .ld t fa.toNat (toLE 8 fv.toNat))
/-- Whether an entry names a flag word: its fa field is not s0. -/
def faOf : Instr → Sreg
  | .ldT _ _ _ _ fa _ => fa | .ldX _ _ _ _ _ fa _ => fa | .ldGr _ _ _ _ _ fa _ => fa
  | .ldG _ _ _ _ _ fa _ _ => fa | .ldGt _ _ _ _ _ fa _ _ => fa | .ldSp _ _ _ fa _ => fa
  | .ldNet _ _ _ _ _ fa _ => fa | .linkRecv _ _ _ _ fa _ => fa
  | .stT _ _ _ _ fa _ => fa | .stPart _ _ _ _ fa _ => fa | .stX _ _ _ _ _ fa _ => fa | .stApp _ _ _ fa _ => fa
  | .stRmt _ _ _ _ fa _ => fa | .stMc _ _ _ _ _ fa _ _ => fa | .stNet _ _ _ _ _ fa _ => fa
  | .linkSend _ _ _ _ fa _ => fa | .linkRed _ _ _ _ fa _ _ _ => fa | .migr _ _ _ fa _ => fa
  | .badd _ _ _ fa _ _ => fa | .baddStream _ _ _ fa _ _ => fa | .band _ _ _ fa _ _ => fa
  | .bandStream _ _ _ fa _ _ => fa | .bor _ _ _ fa _ _ => fa | .borStream _ _ _ fa _ _ => fa
  | .bxor _ _ _ fa _ _ => fa | .bxorStream _ _ _ fa _ _ => fa | .bmin _ _ _ fa _ _ => fa
  | .bminStream _ _ _ fa _ _ => fa | .bmax _ _ _ fa _ _ => fa | .bmaxStream _ _ _ fa _ _ => fa
  | .bminn _ _ _ fa _ _ => fa | .bminnStream _ _ _ fa _ _ => fa | .bmaxn _ _ _ fa _ _ => fa
  | .bmaxnStream _ _ _ fa _ _ => fa | .bfmin _ _ _ fa _ => fa | .bfminStream _ _ _ fa _ => fa
  | .bfmax _ _ _ fa _ => fa | .bfmaxStream _ _ _ fa _ => fa | .bmaxi _ _ _ fa _ => fa
  | .bmaxiStream _ _ _ _ fa _ => fa | .bxadd _ _ _ fa _ => fa | .bxaddStream _ _ _ fa _ => fa
  | .bxrd _ _ _ fa _ _ => fa | .bxrdStream _ _ _ fa _ _ => fa | .bfaa _ _ _ _ fa _ _ => fa
  | .bfaaStream _ _ _ fa _ _ => fa | .bcas _ _ _ _ fa _ _ => fa | .bld _ _ _ fa _ _ => fa
  | .bldStream _ _ _ fa _ _ => fa | .bst _ _ _ fa _ _ => fa | .bstStream _ _ _ fa _ _ => fa
  | .bhist _ _ _ fa _ => fa | .bhistStream _ _ _ _ fa _ _ => fa | .bpfx _ _ _ _ fa _ => fa
  | .baxpy _ _ _ _ fa _ _ => fa | .baxpyStream _ _ _ _ fa _ _ => fa
  | _ => 0
/-- The j-th scalar value of an entry. -/
def Entry.s (en : Entry) (j : Nat) : W64 := nth 0 en.sv j
/-- The j-th handle image of an entry. -/
def Entry.h (en : Entry) (j : Nat) : W256 := nth 0 en.hv j
/-- Writing the flag of an instruction that names one into its own core's scratchpad. -/
def State.ownFlag (s : State) (c t : Nat) (en : Entry) : State :=
  if faOf en.i = 0 then s else s.flagWord c t (en.s 3) (en.s 4)
/-- A command whose bytes have landed, in the granules given, writes its flag word and completes; where older commands have not
completed, it leaves its queue and waits for them (R25, R173). -/
def cmdEnd (c : Nat) (en : Entry) (t : Nat) (gs : List Nat) (s : State) : Res Fin :=
  if (s.core c).ordered en (faOf en.i ≠ 0) then .wait (finAt t (s.upCore c (fun k => k.fly en.eng { en with mark := .landed gs } t)))
  else .ok (finAt t (s.ownFlag c t en))
/-- A copy that ran to its end: segments left, flags recorded, the flag word written (R173, R177). -/
def copyEnd (c : Nat) (en : Entry) (t : Nat) (x : CSt) : Res Fin :=
  cmdEnd c en t x.m.gs ((x.leave c).s.upCore c (fun k => k.flagsAt (t + 1) x.m.fl))
/-- The index elements of an indexed copy, read when it begins reading (R185, R320), then the copy. -/
def indexRun (e : Eng) (c t : Nat) (en : Entry) (hx : HD) (n : Nat) (of : Nat → Nat) (go : CSt → Res Fin) (s : State) : Res Fin :=
  let m := en.moving
  if m.rows ≠ [] then go ⟨s, m⟩
  else tileRun e c t hx false (hx.placesOf (hx.tile.take n)) (CSt.gone e c t)
    (fun vs x => go ⟨x.s, { x.m with n := 0, stash := [], rows := vs.map (fun v => of v.1) }⟩) ⟨s, m⟩
/-- The landing of a tile's elements: the pieces of a destination and its acts. -/
def Core.putsOf (k : Core) (h : HD) (bk : Bool) (els : List (List Nat × Nat)) : List Visit := k.landings h (h.pieces bk true els)
/-- The scales of the elements of the block that ends at element k of a destination. -/
def blockSrc (h : HD) (els : List (List Nat × Nat)) (vals : List (Nat × Nat)) (k : Nat) : List Nat :=
  let sa (j : Nat) : Nat := h.scaleAddr (nth ([], 0) els j).1
  ((upto (k + 1)).filter (fun j => sa j == sa k)).map (fun j => (nth (0, 0) vals j).2)
/-- What a destination takes for a key when elements of format sf move to format df (R177). -/
def movedVal (sf df : Nat) (h : HD) (els : List (List Nat × Nat)) (vals : List (Nat × Nat)) (key : Nat) : Nat :=
  if key % 2 = 0 then let v := nth (0, 0) vals (key / 2); (convEl sf df ⟨v.1, v.2⟩).1.b
  else blockScale (blockSrc h els vals (key / 2))
/-- The flags of moving elements from format sf to format df. -/
def movedFl (sf df : Nat) (vals : List (Nat × Nat)) : Fl := vals.foldl (fun f v => f ||| (convEl sf df ⟨v.1, v.2⟩).2) 0

end Sys2Proof.Machine
end

