-- ==== Sys2Proof/Machine/Copy.lean ====
section
/-!
DEFINITION. Sys2Proof/Machine/Copy.lean: the copies between memory and the scratchpad (R171 to R185), within the scratchpad, and to
other cores (R186, R189, R190, R284).
-/

namespace Sys2Proof.Machine
open Sys2Proof

/-! ### Tiles in memory and their parts (R171, R176) -/

/-- An element of a copy: its cursors, its half-byte scratchpad address, its half-byte virtual address and its tile row. -/
structure CEl where
  ix  : List Nat
  a2  : Nat
  va2 : Nat
  row : Nat
  deriving DecidableEq, Repr
/-- The elements of a tile copy in tile-position order; `rowOf` gives the memory row of a tile row, none to skip it. -/
def tileEls (h : HD) (mh : Nat) (a b : W64) (rowOf : Nat → Option Nat) : List CEl :=
  let p2 := pitch2 h mh b
  (upto (h.total - h.pos)).filterMap (fun k =>
    let p := h.pos + k
    let r := p / h.e 0 - h.pos / h.e 0
    match rowOf r, h.addr (h.split p) with
    | some m, .ok a2 => some ⟨h.split p, a2, (2 * a.toNat + m * p2 + p % h.e 0 * mh) % 2 ^ 65, r⟩
    | _, _ => none)
/-- The scratchpad side of an element. -/
def CEl.pad (e : CEl) : List Nat × Nat := (e.ix, e.a2)
/-- The address of the last byte of an element of `mh` half-bytes. -/
def CEl.lastVa (e : CEl) (mh : Nat) : W64 := vaOf (e.va2 + mh - 1)
/-- The page an address lies in, as far as it can be told: its number and size code, or its 64 KiB number (R171). -/
def State.pageKey (s : State) (c : Nat) (va : W64) : Nat × Nat :=
  match (leafOf s.mem (s.env c) (s.core c).tlb va.toNat).1 with
  | .ok l => (va.toNat / pageSize l.2, l.2)
  | .error _ => (va.toNat / 65536, 3)
/-- A part: its ordinal, the number of its first element, the virtual address of its first byte, and its elements. -/
structure CPart where
  ord : Nat
  k0  : Nat
  va  : W64
  els : List CEl
  deriving DecidableEq, Repr
/-- An element joins the part under way when both lie in one page (R171). -/
def partAdd (l : List (Option (Nat × Nat) × List CEl)) (x : Option (Nat × Nat) × CEl) : List (Option (Nat × Nat) × List CEl) :=
  match l with
  | (some k, es) :: t => if x.1 = some k then (some k, es ++ [x.2]) :: t else (x.1, [x.2]) :: l
  | _ => (x.1, [x.2]) :: l
/-- Numbering parts from 0. -/
def partNumber : List (List CEl) → Nat → Nat → List CPart
  | [], _, _ => []
  | es :: t, n, k => ⟨n, k, vaOf ((es.head?.map CEl.va2).getD 0), es⟩ :: partNumber t (n + 1) (k + es.length)
/-- The parts of a copy (R171): maximal runs of consecutive elements in one page; an element that runs over a page's end is a part of
its own. -/
def State.partsOf (s : State) (c mh : Nat) (els : List CEl) : List CPart :=
  let key (e : CEl) : Option (Nat × Nat) :=
    let p := s.pageKey c (vaOf e.va2)
    if p = s.pageKey c (e.lastVa mh) then some p else none
  partNumber (((els.map (fun e => (key e, e))).foldl partAdd []).reverse.map (·.2)) 0 0
/-- The format of the page of an address, when it can be told. -/
def State.peekFmt (s : State) (c : Nat) (va : W64) : Option Nat :=
  match (leafOf s.mem (s.env c) (s.core c).tlb va.toNat).1 with
  | .ok l => if bits va 63 52 = 0 then some (bits l.1 55 50) else none
  | .error _ => none
/-- The first page's format, else the handle's own. -/
def State.pageFmt (s : State) (c : Nat) (h : HD) (a : W64) : Nat := (s.peekFmt c a).getD h.fmt
/-- The address of the first element of memory row `row` that a command touches (R176); the row's place follows from the format of
the page of s[a]. -/
def State.firstVa (s : State) (c : Nat) (h : HD) (a b : W64) (row : Nat) : W64 :=
  let mh := memHalf h (s.pageFmt c h a)
  vaOf ((2 * a.toNat + row * pitch2 h mh b + h.pos % h.e 0 * mh) % 2 ^ 65)
/-- The format of the first page that a command touches (R176), its first row being memory row `row`. -/
def State.firstFmt (s : State) (c : Nat) (h : HD) (a b : W64) (row : Nat) : Nat := s.pageFmt c h (s.firstVa c h a b row)
/-- An element with the translations of its first and its last byte. -/
structure Loc where
  el  : CEl
  tr  : Xlated
  tr2 : Xlated
/-- The physical byte ranges of an element of `mh` half-bytes: two when it runs over a page's end. -/
def Loc.ranges (l : Loc) (mh : Nat) : List (Nat × Nat) :=
  let n := (mh + 1) / 2
  let k := 65536 - l.tr.pa % 65536
  if n ≤ k then [(l.tr.pa, n)] else [(l.tr.pa, k), (l.tr2.pa + 1 + k - n, n - k)]
/-- The physical address of the scale word of an element's page block (R304). -/
def Loc.scale (l : Loc) : Nat := scalePa l.tr l.tr.ent.base (2 * (l.tr.pa - l.tr.ent.base) + l.el.va2 % 2)
/-- Translating an element of a part; a fault names the part's first byte (R180). -/
def CSt.placeEl (x : CSt) (c : Nat) (need : Need) (src : Strm) (p : CPart) (mh : Nat) (e : CEl) : Res CSt × Option Loc :=
  let named (r : Res CSt) : Res CSt × Option Loc := (match r with
    | .stop y z => .stop { y with addr := p.va } z
    | z => z, none)
  match x.xlate c (vaOf e.va2) need p.ord src with
  | (.ok x1, some t) =>
    if (e.lastVa mh).toNat / 65536 = (vaOf e.va2).toNat / 65536 then (.ok x1, some ⟨e, t, t⟩)
    else (match x1.xlate c (e.lastVa mh) need p.ord src with
      | (.ok x2, some t2) => (.ok x2, some ⟨e, t, t2⟩)
      | (r, _) => named r)
  | (r, _) => named r
/-- Translating the elements of a part. -/
def placeAll (c : Nat) (need : Need) (src : Strm) (p : CPart) (mh : Nat) : List CEl → CSt → List Loc → Res (CSt × List Loc)
  | [], x, l => .ok (x, l)
  | e :: t, x, l =>
    match x.placeEl c need src p mh e with
    | (.ok x1, some q) => placeAll c need src p mh t x1 (l ++ [q])
    | (.ok x1, none) => .wait (x1, l)
    | (.stop y x1, _) => .stop y (x1, l)
    | (.wait x1, _) => .wait (x1, l)
    | (.fault z, _) => .fault z
/-- Translating a part of a copy in page format pf (R171, R176): its formats are accepted (`ok`), and every page carries pf. -/
def CSt.placePart (x : CSt) (c : Nat) (need : Need) (src : Strm) (ok : Bool) (pf mh : Nat) (p : CPart) : Res (CSt × List Loc) :=
  if !ok then .stop (stopPart src pf p.va p.ord) (x, [])
  else match placeAll c need src p mh p.els x [] with
    | .ok (x1, ls) =>
      match (ls.flatMap (fun l => [l.tr.fmt, l.tr2.fmt])).find? (fun f => f != pf) with
      | some f => .stop (stopPart src f p.va p.ord) (x1, ls)
      | none => .ok (x1, ls)
    | r => r

/-! ### Checks of a tile (R176, R179, R182) -/

/-- The flag's address (R182). -/
def flagStop (i : Instr) (fa : W64) : Option Stop :=
  if faOf i = 0 then none
  else if fa.toNat % 8 ≠ 0 then some ⟨.align, .fe, fa, 0⟩
  else if 0x3FFFF8 < fa.toNat then some ⟨.handle, .fe, fa, 0⟩
  else none
/-- The number of the handle kept j-th. -/
def hReg (i : Instr) (j : Nat) : Hreg := ((nth none (hImages i) j)).getD 0
/-- R31 and the addresses of the tile of the handle kept j-th, at the FE. -/
def tileCheck (en : Entry) (j : Nat) (other : Nat) : Option Stop :=
  let h := HD.of (en.h j)
  match h.stopOf .fe (hReg en.i j) with
  | some x => some x
  | none => tileStop .fe (hReg en.i j) (h.as other)
/-- Alignment of the memory side under page format pf (R176). -/
def alignAt (src : Strm) (h : HD) (pf : Nat) (a b : W64) : Option Stop :=
  let mh := memHalf h pf
  if mh ≤ 2 then none
  else if a.toNat % (mh / 2) ≠ 0 ∨ pitch2 h mh b / 2 % (mh / 2) ≠ 0 then some ⟨.align, src, a, 0⟩ else none
/-- Alignment at the FE, under the format of the first page that the command touches when that page can be told there; the engine
judges it again (log entry 97). -/
def alignStop (s : State) (c : Nat) (h : HD) (a b : W64) : Option Stop :=
  (s.peekFmt c (s.firstVa c h a b 0)).bind (fun pf => alignAt .fe h pf a b)
/-- The scale word of the page block of an address, when it translates. -/
def State.scaleOfVa (s : State) (c va2 : Nat) : Option Nat :=
  match (translate s.mem { s.env c with noHold := true, priv := true } (s.core c).tlb [] (vaOf va2) ⟨false, false, false⟩).1 with
  | .error _ => none
  | .ok x => some (scalePa x x.ent.base (2 * (x.pa - x.ent.base) + va2 % 2))
/-- The elements of a tile that begin or end a run of memory: neighbours in the tile whose bytes follow each other are one run; an
indexed copy's runs end with its rows. The answer gives the address of each run's ends. -/
def runEnds (mh : Nat) (indexed : Bool) : List CEl → Option CEl → List (Nat × Nat)
  | [], last => (last.map (fun e => [(e.va2, e.va2 + mh)])).getD []
  | e :: t, last =>
    let joins := match last with
      | some l => l.va2 + mh == e.va2 && (!indexed || l.row == e.row)
      | none => false
    (if joins then [] else [(e.va2, e.va2 - mh)] ++ ((last.map (fun l => [(l.va2, l.va2 + mh)])).getD [])) ++ runEnds mh indexed t (some e)
/-- A store to a BK page begins and ends on page-block boundaries (R179): every run of memory it writes does. An ST.X is judged by rows
0 to R − 1, row by row (log entry 98). -/
def blockStop (src : Strm) (s : State) (c : Nat) (h : HD) (pf : Nat) (a b : W64) (indexed : Bool) : Option Stop :=
  if !fmtBk pf then none
  else
    let mh := memHalf h pf
    let cuts (e : Nat × Nat) : Bool :=
      (s.scaleOfVa c e.1).isSome && s.scaleOfVa c e.1 == s.scaleOfVa c e.2 && (decide (e.1 ≤ e.2) || decide (mh ≤ e.1))
    if (runEnds mh indexed (tileEls (h.as pf) mh a b some) none).any cuts then some ⟨.align, src, a, 0⟩ else none
/-- The checks of a tile that its engine repeats under the format of the first page it touches, which the FE may have been unable to
tell: alignment, and the addresses of its positions (R176, R182, log entry 97). -/
def engineStop (src : Strm) (en : Entry) (h : HD) (pf : Nat) (a b : W64) : Option Stop :=
  firstStop [alignAt src h pf a b, tileStop src (hReg en.i 0) (h.as pf)]

/-! ### Memory as a copy finds it (R174, R185, R281) -/

/-- Bytes of memory as core c sees them (R280, Load). -/
def State.loadBytes (s : State) (c pa n : Nat) : List Byte := seenN (s.core c).pend (s.part (s.partNo c)).snap pa n
/-- The physical lines that a byte address of a core lies in, as far as its page translates. -/
def State.physOf (s : State) (c : Nat) (va : W64) : Option Xlated :=
  (translate s.mem { s.env c with noHold := true, priv := true } (s.core c).tlb [] va ⟨false, false, false⟩).1.toOption
/-- The physical lines a tile touches with its elements and their scale words, as far as its pages translate (R174). -/
def State.tileLines (s : State) (c mh : Nat) (els : List CEl) : List Nat :=
  els.flatMap (fun e =>
    ((s.physOf c (vaOf e.va2)).map (fun x => x.pa / 64 :: (if fmtBk x.fmt then
      [scalePa x x.ent.base (2 * (x.pa - x.ent.base) + e.va2 % 2) / 64] else []))).getD [] ++
    ((s.physOf c (e.lastVa mh)).map (fun x => [x.pa / 64])).getD [])
/-- The elements of a plain tile copy of an entry, and the half-bytes of each. -/
def State.entryEls (s : State) (c : Nat) (en : Entry) : List CEl × Nat :=
  let h := HD.of (en.h 0)
  let pf := s.firstFmt c h (en.s 0) (en.s 1) 0
  (tileEls (h.as pf) (memHalf h pf) (en.s 0) (en.s 1) some, memHalf h pf)
/-- The memory row of tile row r. -/
def rowAt (rows : List Nat) (r : Nat) : Option Nat := match nth 0 rows r with
  | 0 => none
  | n + 1 => some n
/-- An index element as a row (R185): index + 1, or 0 for the all-ones index. -/
def rowOfBits (hx : HD) (b : Nat) : Nat := if b + 1 = 2 ^ fmtBits hx.fmt then 0 else b + 1
/-- The page format of an indexed copy: that of the first row it copies; a row that is skipped touches no page (R176, R185). -/
def State.rowFmt (s : State) (c : Nat) (h : HD) (a b : W64) (rows : List Nat) : Nat :=
  match rows.find? (fun r => decide (r ≠ 0)) with
  | some r => s.firstFmt c h a b (r - 1)
  | none => s.pageFmt c h a
/-! ### Stores to memory (R184, R185, R355) -/

/-- A run of half-bytes of memory that a store writes: its physical half-byte address, number and value, the lane whose green set takes
it, and the virtual line that SNAP.FULL names. -/
structure MWrite where
  a2   : Nat
  n    : Nat
  v    : Nat
  lane : Option Nat
  va   : W64
  deriving DecidableEq, Repr
/-- The lane that owns an element of a lane-tagged store: the entry's lane, or the dimension-4 index (R354). -/
def elLane (en : Entry) (ix : List Nat) : Option Nat :=
  if en.lane = 8 then some (nth 0 ix 4) else if en.lane < 8 then some en.lane else none
/-- Charging every line of a range. -/
def State.chargeAll (s : State) (p : Nat) (agent : AgentKey) : List Nat → Option State
  | [] => some s
  | l :: t => match s.charge p l agent false with
    | none => none
    | some s' => s'.chargeAll p agent t
/-- The byte of memory that a half-byte store keeps half of: the lane's green byte, or the byte as the core sees it. -/
def State.oldByte (s : State) (c pa : Nat) (lane : Option Nat) : Byte :=
  let seen := (s.loadBytes c pa 1).headD 0
  match lane with
  | none => seen
  | some j => (mfind (mget [] (s.core c).spec.green j) pa).getD seen
/-- The bytes of a write, with their address: halves of bytes that it does not cover stay as they are. -/
def State.bytesOf (s : State) (c : Nat) (w : MWrite) : Nat × List Byte :=
  let pa := w.a2 / 2
  if w.a2 % 2 = 0 ∧ w.n % 2 = 0 then (pa, toLE (w.n / 2) w.v)
  else
    let n := (w.a2 + w.n + 1) / 2 - pa
    let old := leNat ((upto n).map (fun i => s.oldByte c (pa + i) w.lane))
    let lo := 16 ^ (w.a2 % 2)
    let hi := lo * 16 ^ w.n
    (pa, toLE n (old % lo + w.v % 16 ^ w.n * lo + old / hi * hi))
/-- A lane's green set takes bytes; a command held before has them written over (R278, R355). -/
def Spec.greenAt (z : Spec) (j routed pa : Nat) (bs : List Byte) : Spec :=
  { z with green := mset z.green j (pendL (mget [] z.green j) pa bs)
           held := z.held.map (fun h => if h.e.routed < routed then
             { h with newer := h.newer ++ ((upto bs.length).map (fun i => (j, pa + i))) } else h) }
/-- Where a store's bytes go: the pending set of the core's unit, or the green set of a lane (R280, R355). -/
def State.land (s : State) (c routed pa : Nat) (bs : List Byte) (lane : Option Nat) : Option State :=
  let p := s.partNo c
  let agent := match (s.core c).run with | some r => r.key | none => (3, c, 0, 0)
  (s.chargeAll p agent (linesOf pa bs.length)).map (fun s1 => s1.upCore c (fun k => match lane with
    | none => { k with pend := pendL k.pend pa bs }
    | some j => { k with spec := k.spec.greenAt j routed pa bs }))
/-- Landing a write, but for the bytes that younger stores of its lane have written (`newer`, R278). -/
def State.landWrite (s : State) (c routed : Nat) (newer : List (Nat × Nat)) (w : MWrite) : Option State :=
  let b := s.bytesOf c w
  let mine := newer.filter (fun x => some x.1 == w.lane)
  if mine.isEmpty then s.land c routed b.1 b.2 w.lane
  else (b.2.zipIdx).foldl (fun r x => if mine.any (fun y => y.2 == b.1 + x.2) then r
    else r.bind (fun s => s.land c routed (b.1 + x.2) [x.1] w.lane)) (some s)
/-- Landing the writes of a part, all or none: SNAP.FULL names the line that found no reserve (R288). -/
def landWrites (c routed : Nat) (newer : List (Nat × Nat)) : List MWrite → State → Except W64 State
  | [], s => .ok s
  | w :: t, s => match s.landWrite c routed newer w with
    | none => .error (w.va &&& ~~~63#64)
    | some s1 => landWrites c routed newer t s1
/-- The half-bytes of a line of memory that no element of a store covers, as runs: first and number (R184). -/
def lineGaps (els : List CEl) (mh line : Nat) : List (Nat × Nat) :=
  let free := (upto 128).filter (fun j => !els.any (fun e => decide (e.va2 ≤ 128 * line + j ∧ 128 * line + j < e.va2 + mh)))
  (free.foldl (fun (l : List (Nat × Nat)) j => match l with
    | (a, n) :: t => if a + n = j then (a, n + 1) :: t else (j, 1) :: l
    | [] => [(j, 1)]) []).reverse
/-- The virtual lines that an element touches. -/
def CEl.lines (e : CEl) (mh : Nat) : List Nat := (upto ((e.va2 + mh - 1) / 128 + 1 - e.va2 / 128)).map (· + e.va2 / 128)
/-- The bytes that ST.T stores as 0 with a part: of every line whose first element in the command stands in the part, those that no
element covers; they belong to that element's lane, the lowest in the line (R184, R354). -/
def zeroWrites (laneOf : List Nat → Option Nat) (mh : Nat) (all : List CEl) (ls : List Loc) : List MWrite :=
  ls.flatMap (fun l => (l.el.lines mh).flatMap (fun line =>
    if (all.find? (fun e => (e.lines mh).contains line)) == some l.el then
      let pa := if line / 1024 = l.el.va2 / 131072 then l.tr.pa / 64 * 64 + 64 * line - l.el.va2 / 128 * 64
        else l.tr2.pa / 64 * 64 + 64 * line - (l.el.va2 + mh - 1) / 128 * 64
      (lineGaps all mh line).map (fun g => ⟨2 * pa + g.1, g.2, 0, laneOf l.el.ix, vaOf (128 * line)⟩)
    else []))
/-- The elements of a part that share the page block of the j-th one, by number; rows of an indexed store do not mix. -/
def blockMates (indexed : Bool) (ls : List Loc) (j : Nat) : List Nat :=
  match ls[j]? with
  | none => []
  | some l => ((ls.zipIdx).filter (fun x => x.1.scale == l.scale && (!indexed || x.1.el.row == l.el.row))).map (·.2)
/-- The elements of a part encoded to the page's format: bits, block scale and flags (R178). A block that takes elements of two blocks
unchanged has the scale of log entry 12. -/
def encodeEl (sf pf : Nat) (indexed : Bool) (ls : List Loc) (vs : List CVal) (j : Nat) : CVal × Fl :=
  let v := nth ⟨0, 0⟩ vs j
  if !fmtBk pf then convEl sf pf v
  else
    let mates := blockMates indexed ls j
    if sf = pf ∧ (ls.head?.map (fun l => l.tr.geo)) = some 1 then
      (⟨v.b, blockScale (mates.map (fun i => (nth ⟨0, 0⟩ vs i).s))⟩, 0)
    else
      let q := quantBlock pf (mates.map (fun i => (nth ⟨0, 0⟩ vs i).ex sf))
      (⟨intBits (fmtBits pf) (nth 0 q.2.1 (mates.findIdx (· == j))), q.1⟩, q.2.2)
/-- The writes of an encoded element: its bytes, and its block's scale word. -/
def elWrites (laneOf : List Nat → Option Nat) (pf mh : Nat) (l : Loc) (v : CVal) : List MWrite :=
  let lane := laneOf l.el.ix
  let va := vaOf l.el.va2
  let own := match l.ranges mh with
    | [r, q] => [⟨2 * r.1, 2 * r.2, v.b % 256 ^ r.2, lane, va⟩, ⟨2 * q.1, 2 * q.2, v.b / 256 ^ r.2, lane, l.el.lastVa mh⟩]
    | _ => [⟨2 * l.tr.pa + l.el.va2 % 2, mh, v.b, lane, va⟩]
  own ++ (if fmtBk pf then [⟨2 * l.scale, 4, v.s, lane, va⟩] else [])
/-- How a store goes to memory: its handle, the page's format, the elements of the whole command, whether it writes whole lines (R184),
whether its rows are indexed (R185), the lanes of its elements, its cycle of routing, and the bytes not to write. -/
structure SForm where
  h       : HD
  pf      : Nat
  els     : List CEl
  whole   : Bool
  indexed : Bool
  laneOf  : List Nat → Option Nat
  routed  : Nat
  newer   : List (Nat × Nat)
/-- Half-bytes of a memory element of a store. -/
def SForm.mh (f : SForm) : Nat := memHalf f.h f.pf
/-- The scratchpad side of a store's elements. -/
def SForm.pads (f : SForm) : List (List Nat × Nat) := f.els.map CEl.pad
/-- Storing a part whose source has been read: translated, encoded, and landed at once (R171, R178, R280). -/
def storePart (c : Nat) (f : SForm) (vals : List (Nat × Nat)) (p : CPart) (x : CSt) : Res CSt :=
  match x.placePart c needW .st (stFmtOk f.h.fmt f.pf) f.pf f.mh p with
  | .ok (x1, ls) =>
    if (x1.s.part (x1.s.partNo c)).closing then .wait x1
    else
      let vs := (upto ls.length).map (fun j => let v := nth (0, 0) vals (p.k0 + j); (⟨v.1, v.2⟩ : CVal))
      let out := (upto ls.length).map (encodeEl f.h.fmt f.pf f.indexed ls vs)
      let ws := (if f.whole then zeroWrites f.laneOf f.mh f.els ls else []) ++
        (ls.zip out).flatMap (fun q => elWrites f.laneOf f.pf f.mh q.1 q.2.1)
      (match landWrites c f.routed f.newer ws x1.s with
        | .error va => .stop ⟨.snapFull, .st, va, BitVec.ofNat 64 (p.ord % 256)⟩ x1
        | .ok s1 => .ok { s := s1, m := { x1.m with fl := out.foldl (fun g o => g ||| o.2) x1.m.fl } })
  | .stop y (x1, _) => .stop y x1
  | .wait (x1, _) => .wait x1
  | .fault z => .fault z
/-- An act of a store: a part is translated, a granule of the source is read for a part, a part is stored. -/
inductive SAct where
  | check (p : CPart)
  | take (p : CPart) (jv : Nat × Visit)
  | store (p : CPart)
  deriving DecidableEq, Repr
/-- The part an act is for. -/
def SAct.part : SAct → CPart
  | .check p => p | .take p _ => p | .store p => p
/-- The acts of a store: part by part, each translated, then its source read where it has not been read yet, then stored (R171). -/
def storeActs : List CPart → List (Nat × Visit) → List SAct
  | [], _ => []
  | p :: ps, vs =>
    let mine (v : Nat × Visit) : Bool := decide (v.2.first < p.k0 + p.els.length)
    .check p :: ((vs.takeWhile mine).map (.take p) ++ .store p :: storeActs ps (vs.dropWhile mine))
/-- Doing an act of a store. -/
def storeAct (c t : Nat) (f : SForm) (x : CSt) (a : SAct) : Res CSt :=
  let hs := f.h.as f.pf
  match a with
  | .check p => (match x.placePart c needW .st (stFmtOk f.h.fmt f.pf) f.pf f.mh p with
    | .ok (x1, _) => .ok x1
    | .stop y (x1, _) => .stop y x1
    | .wait (x1, _) => .wait x1
    | .fault z => .fault z)
  | .take p jv => takeVisit c t .st hs (some (p.va, p.ord)) x jv
  | .store p => storePart c f ((x.s.core c).taken hs (fmtBk f.h.fmt) f.pads x.m) p x
/-- The acts of a store. -/
def SForm.acts (f : SForm) (s : State) (c : Nat) : List SAct :=
  storeActs (s.partsOf c f.mh f.els) ((s.core c).takes (f.h.as f.pf) (fmtBk f.h.fmt) f.pads)
/-- The causes that a lane holds (R357). -/
def heldCause : Cause → Bool
  | .page => true | .perm => true | .table => true | .format => true | .snapFull => true
  | _ => false
/-- SPEC.HELD of a hold list (R366). -/
def heldValue (hs : List Held) : W64 :=
  BitVec.ofNat 64 (hs.length % 256 * 2 ^ 16 + (upto 8).foldl (fun a j => if hs.any (fun h => h.lane = j) then a + 2 ^ j else a) 0)
/-- A fault of a lane-tagged command joins the hold list of the lowest lane whose bytes the part holds; the command then
completes without a flag (R357). -/
def State.holdFault (s : State) (c : Nat) (en : Entry) (x : Stop) (lane : Nat) (rows : List Nat) : State :=
  s.upCore c (fun k =>
    let hs := k.spec.held ++ [⟨lane, en, x, rows, []⟩]
    Core.setSr { k with spec := { k.spec with held := hs } } 0x0C4 (heldValue hs))
/-- The lowest lane of a part. -/
def CPart.lane (p : CPart) (en : Entry) : Nat := ((p.els.filterMap (fun e => elLane en e.ix)).min?).getD 0
/-- What a stop of a store leaves: a fault of a part of a lane-tagged command is held (R357), any other stops it (R180). -/
def storeGone (c : Nat) (en : Entry) (t : Nat) (acts : List SAct) (y : Stop) (x : CSt) : Res Fin :=
  if en.lane ≤ 8 ∧ heldCause y.cause then
    .ok (finAt t ((x.leave c).s.holdFault c en y (((acts[x.m.n]?).map (fun a => a.part.lane en)).getD 0) x.m.rows))
  else CSt.gone .st c t y x
/-- A store of a form, from what has been done of it on. -/
def storeForm (c : Nat) (en : Entry) (t : Nat) (f : SForm) (done : CSt → Res Fin) (x : CSt) : Res Fin :=
  let acts := f.acts x.s c
  actRun .st c t acts (storeAct c t f) (storeGone c en t acts) done x
/-- A store command: its checks under the page's format, then its parts. -/
def storeRun (c : Nat) (en : Entry) (t : Nat) (whole indexed : Bool) (pf : Nat) (rowOf : Nat → Option Nat) (newer : List (Nat × Nat))
    (x : CSt) : Res Fin :=
  let h := HD.of (en.h 0)
  match if x.m.n = 0 then firstStop [engineStop .st en h pf (en.s 0) (en.s 1), blockStop .st x.s c h pf (en.s 0) (en.s 1) indexed]
      else none with
  | some y => CSt.gone .st c t y x
  | none => storeForm c en t ⟨h, pf, tileEls (h.as pf) (memHalf h pf) (en.s 0) (en.s 1) rowOf, whole, indexed, elLane en, en.routed, newer⟩
      (fun x => copyEnd c en t x) x
/-- ST.T and ST.PART (R184). -/
def storePlain (whole : Bool) (newer : List (Nat × Nat)) : EBody := fun c en t s =>
  storeRun c en t whole false (s.firstFmt c (HD.of (en.h 0)) (en.s 0) (en.s 1) 0) some newer ⟨s, en.moving⟩
/-- ST.T (R184). -/
def bStT : EBody := storePlain true []
/-- ST.PART (R184). -/
def bStPart : EBody := storePlain false []
/-- ST.X, whose rows have been read (R185). -/
def storeRows (newer : List (Nat × Nat)) (c : Nat) (en : Entry) (t : Nat) (x : CSt) : Res Fin :=
  storeRun c en t false true (x.s.rowFmt c (HD.of (en.h 0)) (en.s 0) (en.s 1) x.m.rows) (rowAt x.m.rows) newer x
/-- ST.X (R185). -/
def bStX : EBody := fun c en t s =>
  let hx := HD.of (en.h 1)
  indexRun .st c t en hx (HD.of (en.h 0)).rows (rowOfBits hx) (storeRows [] c en t) s

/-! ### Loads from memory (R174, R180, R183, R185, R280) -/

/-- The elements of a store in the ST queue that have not landed yet, with the half-bytes of each (R280); none while the rows of an
ST.X have not been read. -/
def State.storeLeft (s : State) (c : Nat) (x : Entry) : Option (List CEl × Nat) :=
  let h := HD.of (x.h 0)
  let left (m : Moving) (pf : Nat) (els : List CEl) : List CEl × Nat :=
    let mh := memHalf h pf
    let acts := storeActs (s.partsOf c mh els) ((s.core c).takes (h.as pf) (fmtBk h.fmt) (els.map CEl.pad))
    (if m.n = 0 then els else (acts.drop m.n).flatMap (fun a => match a with | .store p => p.els | _ => []), mh)
  match x.i with
  | .stX .. =>
    if x.moving.rows = [] then none
    else
      let pf := s.rowFmt c h (x.s 0) (x.s 1) x.moving.rows
      some (left x.moving pf (tileEls (h.as pf) (memHalf h pf) (x.s 0) (x.s 1) (rowAt x.moving.rows)))
  | _ =>
    let pf := s.firstFmt c h (x.s 0) (x.s 1) 0
    some (left x.moving pf (s.entryEls c x).1)
/-- An older store of the core holds back a part of a load (R174, R280): one that has yet to land bytes of a line that the part reads;
an ST.X whose rows are not yet known, or an append, holds back every part (log entry 13). -/
def State.storeMeets (s : State) (c before : Nat) (mine : List Nat) : Bool :=
  let meets (x : Entry) : Bool := decide (8 < x.lane) && (match s.storeLeft c x with
    | none => true
    | some e => (s.tileLines c e.2 e.1).any mine.contains)
  (s.core c).eng.st.any (fun x => decide (x.routed < before) &&
    match x.i with
    | .stT .. => meets x
    | .stPart .. => meets x
    | .stX .. => meets x
    | .stApp .. => true
    | _ => false)
/-- Reading a line, unless the copy has read it: each line is read at one instant (R174). -/
def CSt.readLine (c : Nat) (x : CSt) (l : Nat) : CSt :=
  if (mfind x.m.stash l).isSome then x
  else { x with m := { x.m with stash := mset x.m.stash l (leNat (x.s.loadBytes c (64 * l) 64)) } }
/-- Bytes of the lines that a copy has read. -/
def lineBytes (got : Map Nat) (pa n : Nat) : List Byte :=
  (upto n).map (fun i => BitVec.ofNat 8 (mget 0 got ((pa + i) / 64) / 256 ^ ((pa + i) % 64)))
/-- The byte ranges that reading an element takes: its own, and its block's scale word. -/
def Loc.reads (l : Loc) (pf mh : Nat) : List (Nat × Nat) := l.ranges mh ++ (if fmtBk pf then [(l.scale, 2)] else [])
/-- An element's bits and block scale from the lines read. -/
def Loc.val (l : Loc) (pf mh : Nat) (got : Map Nat) : Nat × Nat :=
  (leNat ((l.ranges mh).flatMap (fun r => lineBytes got r.1 r.2)) / (if l.el.va2 % 2 = 0 then 1 else 16) % 16 ^ mh,
   if fmtBk pf then scaleOf (leNat (lineBytes got l.scale 2)) else 0)
/-- Reading a part of a load: translated, checked, and, once no older store of the core has bytes to land in its lines, read as the core
sees it (R171, R174, R180). A pair of formats that is not accepted raises FORMAT before the page is judged (log entry 99). -/
def loadPart (c routed : Nat) (ok : Bool) (pf mh : Nat) (p : CPart) (x : CSt) : Res CSt :=
  match x.placePart c needR .ld ok pf mh p with
  | .ok (x1, ls) =>
    let lines := ls.flatMap (fun l => (l.reads pf mh).flatMap (fun r => linesOf r.1 r.2))
    if x1.s.storeMeets c routed lines then .wait x1
    else match (ls.flatMap (fun l => l.reads pf mh)).find? (fun r => x1.s.memBad r.1 r.2) with
    | some r => .stop (stopPartUe .ld (arrOf r.1) p.va p.ord) x1
    | none =>
      let x2 := lines.foldl (fun x l => x.readLine c l) x1
      .ok { x2 with s := x2.s.corrAll (ls.flatMap (fun l => l.reads pf mh)), m := { x2.m with vals := x2.m.vals ++ ls.map (fun l => l.val pf mh x2.m.stash) } }
  | .stop y (x1, _) => .stop y x1
  | .wait (x1, _) => .wait x1
  | .fault z => .fault z
/-- An act of a load: a part is read, or a granule lands. -/
inductive LAct where
  | read (p : CPart)
  | land (v : Visit)
  deriving DecidableEq, Repr
/-- The acts of a load: each part is read, and then the granules land that need nothing of a later part; `need` says how many elements a
granule needs read. -/
def loadActs (need : Visit → Nat) : List CPart → List Visit → Nat → List LAct
  | [], vs, _ => vs.map .land
  | p :: ps, vs, n =>
    let m := n + p.els.length
    .read p :: ((vs.takeWhile (fun v => decide (need v ≤ m))).map .land ++
      loadActs need ps (vs.dropWhile (fun v => decide (need v ≤ m))) m)
/-- Doing an act of a load. -/
def loadAct (c routed t : Nat) (h : HD) (ok : Bool) (pf mh : Nat) (val : List (Nat × Nat) → Nat → Nat) (x : CSt) (a : LAct) : Res CSt :=
  match a with
  | .read p => loadPart c routed ok pf mh p x
  | .land v => landVisit c t h v (val x.m.vals) x
/-- The acts of a load of a tile (R183, R185). -/
def tileActs (s : State) (c : Nat) (h : HD) (pf : Nat) (els : List CEl) : List Visit × List LAct :=
  let vs := (s.core c).putsOf (h.as pf) (fmtBk pf && fmtBk h.fmt) (els.map CEl.pad)
  (vs, loadActs (fun v => v.last + 1) (s.partsOf c (memHalf h pf) els) vs 0)
/-- A load of a tile whose rows are known. -/
def loadRun (c : Nat) (en : Entry) (t pf : Nat) (els : List CEl) (x : CSt) : Res Fin :=
  let h := HD.of (en.h 0)
  let mh := memHalf h pf
  let hh := h.as pf
  let acts := tileActs x.s c h pf els
  match if x.m.n = 0 then engineStop .ld en h pf (en.s 0) (en.s 1) else none with
  | some y => CSt.gone .ld c t y x
  | none =>
    actRun .ld c t acts.2 (loadAct c en.routed t hh (ldFmtOk pf h.fmt) pf mh (movedVal pf h.fmt hh (els.map CEl.pad))) (CSt.gone .ld c t)
      (fun x => copyEnd c en t { x with m := { x.m with fl := movedFl pf h.fmt x.m.vals } })
      { x with m := { x.m with gs := granulesOf acts.1 } }
/-- LD.T (R183). -/
def bLdT : EBody := fun c en t s =>
  let h := HD.of (en.h 0)
  loadRun c en t (s.firstFmt c h (en.s 0) (en.s 1) 0) (s.entryEls c en).1 ⟨s, en.moving⟩
/-- LD.X (R185). -/
def bLdX : EBody := fun c en t s =>
  let h := HD.of (en.h 0)
  let hx := HD.of (en.h 1)
  indexRun .ld c t en hx h.rows (rowOfBits hx) (fun x =>
    let pf := x.s.rowFmt c h (en.s 0) (en.s 1) x.m.rows
    loadRun c en t pf (tileEls (h.as pf) (memHalf h pf) (en.s 0) (en.s 1) (rowAt x.m.rows)) x) s

/-! ### Copies within the scratchpad and to other cores (R186, R189, R190) -/

/-- LD.SP (R186): every source element is read before any is written. The scale of a destination block that takes elements of two source
blocks is that of log entry 12. -/
def bLdSp : EBody := fun c en t s =>
  let dst := HD.of (en.h 0)
  let src := HD.of (en.h 1)
  let hs := src.as dst.fmt
  let d := dst.as src.fmt
  let k := s.core c
  let ins := k.takes hs (fmtBk src.fmt) hs.places
  let outs := k.putsOf d (fmtBk src.fmt && fmtBk dst.fmt) d.places
  let acts : List ((Nat × Visit) ⊕ Visit) := ins.map .inl ++ outs.map .inr
  let vals (x : CSt) : List (Nat × Nat) := (x.s.core c).taken hs (fmtBk src.fmt) hs.places x.m
  if !ldFmtOk src.fmt dst.fmt then .stop (stopPart .ld src.fmt 0 0) (finAt t s)
  else actRun .ld c t acts (fun x a => match a with
      | .inl jv => takeVisit c t .ld hs none x jv
      | .inr v => landVisit c t d v (movedVal src.fmt dst.fmt d d.places (vals x)) x) (CSt.gone .ld c t)
    (fun x => copyEnd c en t { x with m := { x.m with fl := movedFl src.fmt dst.fmt (vals x) } })
    ⟨s, { en.moving with gs := granulesOf outs }⟩
/-- The number of a channel (R284). -/
def chanNo (src dst : Nat) : Nat := 256 * src + dst
/-- The channel from a core to a core. -/
def State.chan (s : State) (src dst : Nat) : List ChanEl := mget [] (s.core dst).inbox src
/-- A granule of a tile as it travels (R280, Ship), with its layout tag and the issuer's region (R35); scales of mixed blocks are those of
log entry 12 (R84, R189). -/
def shipEl (k : Core) (ser : Nat) (src dst : HD) (vals : List (Nat × Nat)) (v : Visit) : ChanEl :=
  let d := dst.as src.fmt
  ⟨ser, v.writes (movedVal src.fmt dst.fmt d d.places vals), some (BitVec.ofNat 2 d.layout), k.interlocked, d.fet⟩
/-- The bytes of a run of half-bytes. -/
def nibSpan (w : Nat × Nat × Nat) : Nat × Nat := (w.1 / 2, (w.1 + w.2.1 + 1) / 2 - w.1 / 2)
/-- Delivering a granule, or a flag, into its destination's scratchpad; none while its granule is still full (R35, R280). -/
def deliverEl (s : State) (dst : Nat) (e : ChanEl) : Option State :=
  let k := s.core dst
  if e.fet && e.inter && e.ws.any (fun w => (granLow (nibSpan w).1 (nibSpan w).2).any k.pad.full.contains) then none
  else some (s.setCore dst (k.landTogether (e.ws.map nibSpan) (fun k => e.ws.foldl (fun k w =>
    let k1 := k.landNib (e.inter && e.tag.isSome) .st k.eng.cyc w
    match e.tag with
    | some g => k1.tag g.toNat (nibSpan w).1 (nibSpan w).2
    | none => k1) k)))
/-- Delivering the head of a channel: one granule or one flag (R36, R284). -/
def deliverGranule (s : State) (src dst : Nat) : List ChanEl → State
  | [] => s
  | e :: rest =>
    match deliverEl s dst e with
    | none => s
    | some s1 => s1.upCore dst (fun k => { k with inbox := mput [] k.inbox src rest })
/-- Delivering a channel until it is empty or waits. -/
def deliverAll (s : State) (src dst : Nat) : Nat → State
  | 0 => s
  | n + 1 => deliverAll (deliverGranule s src dst (s.chan src dst)) src dst n
/-- An element joins the tail of a channel (R280, Ship), and is delivered at once unless a schedule leaves it there. -/
def State.ship (s : State) (src dst : Nat) (e : ChanEl) : State :=
  let q := s.chan src dst ++ [e]
  let s1 := s.upCore dst (fun k => { k with inbox := mput [] k.inbox src q })
  if s.lagDeliver then s1 else deliverAll s1 src dst q.length
/-- The flag of a remote copy as it travels. -/
def Entry.flagEl (en : Entry) : ChanEl := ⟨en.routed, [(2 * (en.s 3).toNat, 16, (en.s 4).toNat)], none, false, false⟩
/-- Something of a remote copy is still in a channel to one of its destinations. -/
def State.travels (s : State) (c : Nat) (en : Entry) (dsts : List Nat) : Bool :=
  dsts.any (fun d => (s.chan c d).any (fun e => e.ser == en.routed))
/-- An act of a remote copy: a granule of its source is read, or a granule of its destinations, the j-th, joins their channels. -/
inductive RAct where
  | take (jv : Nat × Visit)
  | ship (j : Nat) (v : Visit)
  deriving DecidableEq, Repr
/-- The acts of a remote copy: each granule joins the channels as soon as the source's granules that it takes elements of have been read
(R280, Ship). -/
def shipActs : List (Nat × Visit) → List (Nat × Visit) → List RAct
  | [], vs => vs.map .take
  | w :: ws, vs =>
    let mine (v : Nat × Visit) : Bool := decide (v.2.first ≤ w.2.last)
    (vs.takeWhile mine).map .take ++ .ship w.1 w.2 :: shipActs ws (vs.dropWhile mine)
/-- The destinations that take the j-th granule: of one whose write path fails, those before it fails (R190). -/
def takers (lim : Nat → Option Nat) (dsts : List Nat) (j : Nat) : List Nat :=
  dsts.filter (fun d => match lim d with | none => true | some n => decide (j < n))
/-- A remote copy whose source has been read, with its mark: its flags, and 32 once its flag word has joined the channels. The flag
follows the last granule when every older command of its engine has completed (R173, R280); the copy completes when all of it has been
delivered and every older copy of its engine has completed (R25, R190). -/
def remoteOn (c : Nat) (en : Entry) (t : Nat) (lim : Nat → Option Nat) (dsts : List Nat) (done : State → State) (n : Nat) (s : State) :
    Res Fin × Nat :=
  let s1 := if s.lagDeliver then s else dsts.foldl (fun s d => deliverAll s c d (s.chan c d).length) s
  let joins := n < 32 && !(s1.core c).ordered en true
  let s2 := if joins then (dsts.filter (fun d => (lim d).isNone)).foldl (fun s d => s.ship c d en.flagEl) s1 else s1
  let n1 := if joins then n + 32 else n
  (if n1 < 32 || s2.travels c en dsts || (s2.core c).ordered en false || !(s2.core c).canSignal .st en.tok then .wait (finAt t s2)
    else .ok (finAt t ((done s2).upCore c (fun k => k.flagsAt (t + 1) (BitVec.ofNat 5 n1)))), n1)
/-- A remote copy (R189, R190): its source is read and shipped granule by granule; then it leaves its queue until it completes (R172).
`lim` says how many granules a destination takes whose write path fails, and `done` what its completion writes. -/
def remoteRun (c : Nat) (en : Entry) (t : Nat) (lim : Nat → Option Nat) (dsts : List Nat) (done : State → State) (s : State) : Res Fin :=
  let src := HD.of (en.h 0)
  let dst := HD.of (en.h 1)
  let hs := src.as dst.fmt
  let d := dst.as src.fmt
  let k := s.core c
  let outs := k.putsOf d (fmtBk src.fmt && fmtBk dst.fmt) d.places
  let acts := shipActs (outs.zipIdx.map (fun x => (x.2, x.1))) (k.takes hs (fmtBk src.fmt) hs.places)
  let vals (x : CSt) : List (Nat × Nat) := (x.s.core c).taken hs (fmtBk src.fmt) hs.places x.m
  match en.mark with
  | .shipped n =>
    let r := remoteOn c en t lim dsts done n s
    (match r.1 with
      | .wait f => .wait { f with s := f.s.markFlight c en (.shipped r.2) }
      | z => z)
  | _ =>
    if !ldFmtOk src.fmt dst.fmt then .stop (stopPart .st src.fmt 0 0) (finAt t s)
    else actRun .st c t acts (fun x a => match a with
        | .take jv => takeVisit c t .st hs none x jv
        | .ship j v =>
          let e := shipEl (x.s.core c) en.routed src dst (vals x) v
          .ok { x with s := (takers lim dsts j).foldl (fun s d => s.ship c d e) x.s })
      (CSt.gone .st c t)
      (fun x =>
        let r := remoteOn c en t lim dsts done ((movedFl src.fmt dst.fmt (vals x)).toNat + (if faOf en.i = 0 then 32 else 0)) x.s
        match r.1 with
        | .wait f => .wait { f with s := f.s.upCore c (fun k => k.fly .st { en with mark := .shipped r.2 } t) }
        | z => z)
      ⟨s, en.moving⟩
/-- ST.RMT (R189). -/
def bStRmt : EBody := fun c en t s => remoteRun c en t (fun _ => none) [(en.s 2).toNat] id s
/-- The cores a multicast names (R190). -/
def mcDests (die : Nat) (mask : W64) : List Nat := ((upto 64).filter (fun j => mask.getLsbD j)).map (· + 64 * die)
/-- How many granules of a multicast a destination takes before its write path reports an uncorrectable error; none where it reports
none (R190, log entry 96). -/
def State.mcLands (s : State) (c : Nat) (en : Entry) (d : Nat) : Option Nat :=
  let u : List Nat := match (s.core c).run with | some r => [r.launch.toNat, r.unit] | none => []
  Config.pathLands (u ++ en.pc.toNat :: en.sv.map BitVec.toNat) d
/-- The destinations that receive the whole payload of a multicast, as a mask of their die. -/
def mcGot (lim : Nat → Option Nat) (ds : List Nat) : Nat := (ds.filter (fun d => (lim d).isNone)).foldl (fun a d => a + 2 ^ (d % 64)) 0
/-- ST.MC (R190): a destination in a cluster taken out of service, or whose write path fails, is skipped without a fault. -/
def bStMc (b : Sreg) (die : BitVec 2) : EBody := fun c en t s =>
  let ds := (mcDests die.toNat (en.s 2)).filter (fun d => !s.ik.retired.contains (d / 4))
  let lim := s.mcLands c en
  remoteRun c en t lim ds (fun s => s.upCore c (fun k => k.setS b (BitVec.ofNat 64 (mcGot lim ds)))) s
/-- PREF (R188): no effect but its token bits; it completes after every older command of its engine. -/
def bPref : EBody := fun c en t s => cmdEnd c en t [] s

end Sys2Proof.Machine
end

