-- ==== Sys2Proof/Machine/Bank.lean ====
section
/-!
DEFINITION. Sys2Proof/Machine/Bank.lean: the bank operations (R292 to R301): their words, effects and classes, the
elements of the two forms, Send and Perform at the banks' FIFOs (R280), and their completion (R296).
-/

namespace Sys2Proof.Machine
open Sys2Proof

/-! ### The operation table (R297) -/

/-- Operations on exact cells. -/
def BOp.cell : BOp → Bool
  | .xadd => true | .xrd => true | _ => false
/-- Stride and alignment of the word (R294, R296): 64 for exact cells. -/
def bankSize (op : BOp) (ty : BTy) : Nat := if op.cell then 64 else if ty = .d then 8 else 4
/-- Bytes of the word. -/
def bankBytes (op : BOp) (ty : BTy) : Nat := if op.cell then 48 else if ty = .d then 8 else 4
/-- The access needs W as well as R (R305). -/
def bankWrites (op : BOp) (clr : Bool) : Bool :=
  match op with
  | .bld => false | .pfx => false | .xrd => clr | _ => true
/-- The permissions of an operation (R305). -/
def bankNeed (op : BOp) (clr : Bool) : Need := if bankWrites op clr then needRW else needR
/-- Class X or O (R295): not for idempotent units. -/
def bankXO (op : BOp) (clr : Bool) : Bool :=
  match op with
  | .add => true | .bxor => true | .xadd => true | .faa => true | .cas => true | .hist => true | .axpy => true
  | .xrd => clr
  | _ => false
/-- The kind of order-log entry of class O (R340). -/
def bankKind (op : BOp) (clr : Bool) : Option Nat :=
  match op with
  | .faa => some 3 | .cas => some 4 | .xrd => if clr then some 5 else none
  | _ => none
/-- Operations that return a value. -/
def bankReturns : BOp → Bool
  | .xrd => true | .faa => true | .cas => true | .bld => true | .pfx => true | _ => false
/-- Element formats that a stream accepts (R297). -/
def bankFmtOk (op : BOp) (f : Nat) : Bool :=
  match op with
  | .min => f == 6 | .max => f == 6
  | .minn => f == 0x0A | .maxn => f == 0x0A | .hist => f == 0x0A
  | .fmin => f == 1 | .fmax => f == 1 | .maxi => f == 1 | .xrd => f == 1
  | .xadd => 1 ≤ f && f ≤ 3
  | _ => f == 6 || f == 0x0A
/-- The low 32 or all 64 bits, by type. -/
def byTy (ty : BTy) (v : W64) : W64 := if ty = .d then v else (v.setWidth 32).setWidth 64
/-- The value of a word of a type as a signed integer. -/
def signedTy (ty : BTy) (v : W64) : Int := if ty = .d then v.toInt else (v.setWidth 32).toInt
/-- FP32 least and greatest at a bank (R297). -/
def fpExt (pick : Ex → Ex → Bool) (a b : W64) : W64 :=
  let x := val32 (a.setWidth 32)
  let y := val32 (b.setWidth 32)
  if exNan x || exNan y then 0x7FC00000 else if pick x y then byTy .w b else byTy .w a
/-- The new word from the old one and the operand (R297 to R299). -/
def bankNew (op : BOp) (ty : BTy) (old x e : W64) : W64 :=
  let old := byTy ty old
  let x := byTy ty x
  match op with
  | .add => byTy ty (old + x) | .faa => byTy ty (old + x)
  | .band => old &&& x | .bor => old ||| x | .bxor => old ^^^ x
  | .min => if signedTy ty x < signedTy ty old then x else old
  | .max => if signedTy ty old < signedTy ty x then x else old
  | .minn => if x.ult old then x else old
  | .maxn => if old.ult x then x else old
  | .fmin => fpExt (fun a b => exLtZ b a) old x
  | .fmax => fpExt (fun a b => exLtZ a b) old x
  | .maxi =>
    if totalGreater (val32 (x.setWidth 32)) (bits x 63 32) (val32 (old.setWidth 32)) (bits old 63 32) then x else old
  | .cas => if old = byTy ty e then x else old
  | .bst => x
  | .axpy => byTy ty (old + byTy ty e * x)
  | .hist =>
    if 0xFFFFFFFF ≤ bits old 31 0 + bits x 31 0 then putBits old 32 0 (2 ^ 32 + 0xFFFFFFFF)
    else putBits old 31 0 (bits old 31 0 + bits x 31 0)
  | .xadd => old | .xrd => old | .bld => old | .pfx => old

/-! ### Perform (R280, R288, R296) -/

/-- The logical counter of the next event of application core i (R341). -/
def State.acLc (s : State) (p i : Nat) : Nat := 0xFFF * 2 ^ 44 + i * 2 ^ 20 + mget 0 (s.part p).acEvents i % 2 ^ 16
/-- Counting an event of application core i. -/
def State.acCount (s : State) (p i : Nat) : State :=
  s.upPart p (fun pt => { pt with acEvents := mset pt.acEvents i (mget 0 pt.acEvents i + 1) })
/-- Logging an event of an application core (R340, R341). -/
def State.acLog (s : State) (p i kind : Nat) (v : W64) : State := (s.logWrite p kind (s.acLc p i) v).acCount p i
/-- Logging the class-O event of a request. -/
def State.bankLog (s : State) (r : BankReq) (kind : Nat) (v : W64) : State :=
  if r.agent < 256 then s.logAt r.agent kind r.lc v else s.acLog r.part (r.agent - 256) kind v
/-- F and the status of the exact cell at a physical address (R96). -/
def State.cell (s : State) (pa : Nat) : Int × BitVec 4 :=
  (sext 320 (leNat (rdN s.mem pa 40)), BitVec.ofNat 4 (rd s.mem (pa + 40)).toNat)
/-- Writing an exact cell. -/
def State.setCell (s : State) (pa : Nat) (F : Int) (st : BitVec 4) : State :=
  s.writeMem pa (toLE 40 (intBits 320 F) ++ toLE 8 st.toNat)
/-- The stop of an element at its bank. -/
def bankStop (c : Cause) (r : BankReq) (info : Nat) : Stop := ⟨c, .st, r.va, BitVec.ofNat 64 info⟩
/-- What a bank does with one operation: the state with the word changed and the value returned, or the failure of the
element, which then has no effect. A value that replay forces stands for the old word (R301). -/
def State.perform (s : State) (r : BankReq) : Except Stop (State × W64 × Fl) :=
  let n := bankBytes r.op r.ty
  if s.memBad r.pa n then .error (bankStop .memUe r (arrOf r.pa))
  else
    let s0 := s.corrMem r.pa n
    let s1 := if bankWrites r.op r.clr then s0.charge r.part (r.pa / 64) (9, 0, 0, 0) true else some s0
    match s1 with
    | none => .error (bankStop .snapFull r 0)
    | some s1 =>
      match r.op with
      | .xadd =>
        let c := s1.cell r.pa
        let a := cellAdd c.1 c.2 (val32 (r.x.setWidth 32))
        .ok (s1.setCell r.pa a.1 a.2, 0, 0)
      | .xrd =>
        let c := s1.cell r.pa
        let v := cellRead c.1 c.2
        let b : W64 := r.logged.getD ((rne32 v.1).1.setWidth 64)
        .ok (if r.clr then s1.setCell r.pa 0 0 else s1, b, v.2)
      | op =>
        let cur := BitVec.ofNat 64 (leNat (rdN s1.mem r.pa n))
        let old := r.logged.getD cur
        let new := bankNew op r.ty old r.x r.e
        let keep := op == .cas && !(byTy r.ty old == byTy r.ty r.e)
        .ok (if bankWrites op r.clr && !keep then s1.writeMem r.pa (toLE n new.toNat) else s1, byTy r.ty old, 0)

/-! ### The banks' FIFOs -/

/-- What an element that has been performed or has failed leaves in the entry of its operation. -/
def markElem (m : Mark) (idx : Nat) (r : Except Stop W64) : Mark :=
  match m with
  | .bank u p rets fails segs =>
    let rest := p.filter (fun e => e.1 ≠ idx)
    match r with
    | .ok v => .bank u rest (mset rets idx v) fails segs
    | .error x => .bank u rest rets (fails ++ (p.filter (fun e => e.1 = idx)).map (fun e => (e, x))) segs
  | m => m
/-- An element of the operation routed in cycle `ser` has been performed or has failed: the operation stands at the head of the
ST queue or has left it (R280). -/
def Core.markBank (k : Core) (ser idx : Nat) (r : Except Stop W64) : Core :=
  let up (en : Entry) : Entry := if en.routed = ser then { en with mark := markElem en.mark idx r } else en
  { k with eng := { k.eng with st := k.eng.st.map up, flight := k.eng.flight.map up } }
/-- The window registers of an application core after its bank port's operation ended (R399). -/
def acBankEnd (a : AppCore) (code sub : Nat) (res : W64) : AppCore :=
  { a with win := mput 0 (mput 0 a.win 0x058 (BitVec.ofNat 64 (sub * 256 + code))) 0x060 res, pending := [], rets := [], bpWait := none }
/-- The sum that BPFX returns (R300). -/
def prefixOf (vs : List W64) : W64 :=
  let sum := vs.foldl (fun a v => a + bits v 31 0) 0
  if vs.any (fun v => v.getLsbD 32) || decide (0xFFFFFFFF ≤ sum) then 0x1FFFFFFFF else BitVec.ofNat 64 sum
/-- An element of an application core's operation has been performed or has failed (R399). -/
def acElem (a : AppCore) (r : BankReq) (x : Except Stop W64) : AppCore :=
  match x with
  | .error y => acBankEnd a (causeCode y.cause) 0 r.va
  | .ok v =>
    if a.pending.contains r.idx then
      let p := a.pending.filter (· ≠ r.idx)
      let rets := mset a.rets r.idx v
      if p.isEmpty then acBankEnd a 0 0 (if r.op = .pfx then prefixOf (rets.map (·.2)) else if bankReturns r.op then v else 0)
      else { a with pending := p, rets := rets }
    else a
/-- What an application core's port holds after an element; the segments are left at the end (R312, R399). -/
def State.acPerformed (s : State) (i : Nat) (r : BankReq) (x : Except Stop W64) : State :=
  let a := acElem (s.appCore i) r x
  if a.pending.isEmpty then { s.setApp i { a with segs := [] } with mem := leaveAll s.mem (s.acEnv i) a.segs } else s.setApp i a
/-- Whether a request belongs to a stream-form operation, which logs at its end in position order (R301). -/
def isStream : Instr → Bool
  | .baddStream .. => true | .bandStream .. => true | .borStream .. => true | .bxorStream .. => true
  | .bminStream .. => true | .bmaxStream .. => true | .bminnStream .. => true | .bmaxnStream .. => true
  | .bfminStream .. => true | .bfmaxStream .. => true | .bmaxiStream .. => true | .bxaddStream .. => true
  | .bxrdStream .. => true | .bfaaStream .. => true | .bldStream .. => true | .bstStream .. => true
  | .bhistStream .. => true | .baxpyStream .. => true
  | _ => false
/-- The operation routed in cycle `ser` is a stream form. -/
def Core.stStream (k : Core) (ser : Nat) : Bool :=
  (k.eng.flight ++ k.eng.st).any (fun en => en.routed == ser && isStream en.i)
/-- The head of a bank's FIFO is performed (R280). -/
def State.bankStep (s : State) (b : Nat) : State :=
  match mget [] s.fifos b with
  | [] => s
  | r :: rest =>
    let s := { s with fifos := mput [] s.fifos b rest }
    let go (s : State) (x : Except Stop W64) : State :=
      if r.agent < 256 then s.upCore r.agent (fun k => k.markBank r.ser r.idx x) else s.acPerformed (r.agent - 256) r x
    match s.perform r with
    | .error x => go s (.error x)
    | .ok (s1, v, f) =>
      let s2 := if r.agent < 256 then s1.upCore r.agent (fun k => k.flags f) else s1
      let s3 := match bankKind r.op r.clr with
        | some kind =>
          if r.logged.isSome || (decide (r.agent < 256) && (s2.core r.agent).stStream r.ser) then s2 else s2.bankLog r kind v
        | none => s2
      go s3 (.ok v)
/-- Performing every operation of a bank's FIFO. -/
def State.drainBank (s : State) (b : Nat) : Nat → State
  | 0 => s
  | n + 1 => (s.bankStep b).drainBank b n
/-- An operation joins the tail of its bank's FIFO (R280, Send). -/
def State.send (s : State) (r : BankReq) : State :=
  let b := bankOf r.pa
  { s with fifos := mset s.fifos b (mget [] s.fifos b ++ [r]) }

/-! ### A bank operation at its ST engine -/

/-- One element of a bank operation: its place, its word's address and its operand. -/
abbrev BEl := Nat × W64 × W64
/-- The operand an element of a stream gives (R294, R297 to R299). -/
def bankOperand (op : BOp) (ty : BTy) (f b : Nat) (sb : W64) : W64 :=
  match op with
  | .maxi => BitVec.ofNat 64 (b % 2 ^ 32 + bits sb 31 0 * 2 ^ 32)
  | .hist => BitVec.ofNat 64 (bits sb 31 0)
  | .xadd => (rne32 (decElem f b)).1.setWidth 64
  | _ => if f = 6 ∧ ty = .d then BitVec.ofInt 64 (sext 32 b) else BitVec.ofNat 64 (b % 2 ^ 32)
/-- The elements of a scalar form (R294, R300). -/
def scalarEls (op : BOp) (a b : W64) : List BEl :=
  match op with
  | .pfx => (upto b.toNat).map (fun k => (k, a - BitVec.ofNat 64 (8 * (b.toNat - k)), 0))
  | _ => [(0, a, b)]
/-- The elements of a stream form, from the values read of its tile in position order: no value where it takes none. -/
def streamEls (op : BOp) (ty : BTy) (sh : Nat) (h : HD) (a b : W64) (vals : List (Nat × Nat)) : List BEl :=
  (upto (h.total - h.pos)).filterMap (fun j =>
    let e := (nth (0, 0) vals j).1
    let va := if op = .hist then a + BitVec.ofNat 64 (8 * 2 ^ sh * e) else a + BitVec.ofNat 64 (bankSize op ty * j)
    if op = .hist ∧ e = 0xFFFFFFFF then none else some (j, va, bankOperand op ty h.fmt e b))
/-- A bank operation as its entry names it: operation, type, CLR, SH, whether it is a stream form, and the result scalar
(s0 for none). -/
structure BForm where
  op  : BOp
  ty  : BTy
  clr : Bool
  sh  : Nat
  stream : Bool
  d   : Sreg
/-- Translating the elements still to send (R296). -/
def bankXlate (f : BForm) (c : Nat) (priv : Bool) : List BEl → CSt → List (BEl × Nat) → Res (CSt × List (BEl × Nat))
  | [], x, l => .ok (x, l)
  | e :: t, x, l =>
    match x.xlate c e.2.1 (bankNeed f.op f.clr) 0 .st with
    | (.ok x1, some tr) =>
      if tr.ent.home ≠ 2 ∧ (f.stream ∨ !priv) then .stop (stopX .st .perm 2 e.2.1 0) (x1, l)
      else bankXlate f c priv t x1 (l ++ [(e, tr.pa)])
    | (.stop y x1, _) => .stop y (x1, l)
    | (.wait x1, _) => .wait (x1, l)
    | (.fault z, _) => .fault z
    | (.ok x1, none) => .wait (x1, l)
/-- Sending the elements in position order; one of class O takes its logical counter as it is sent, and in replay waits for its turn
(R296, R301, R341, R343; log entry 104). The answer holds the elements sent, those that wait, and the banks. -/
def bankSend (f : BForm) (c ser : Nat) (e : W64) : List (BEl × Nat) → State → List BEl → State × List BEl × List BEl × List Nat
  | [], s, sent => (s, sent, [], [])
  | (el, pa) :: t, s, sent =>
    let p := s.partNo c
    let ask : State × LogAns := match bankKind f.op f.clr with
      | none => (s, LogAns.live)
      | some kind => s.logAsk p kind (s.core c).lcNext
    match ask.2 with
    | .wait => (ask.1, sent, el :: t.map (·.1), [])
    | a =>
      let v := match a with | .val v => some v | _ => none
      let n := (s.core c).events
      let s1 := if (bankKind f.op f.clr).isSome then ask.1.upCore c Core.countEvent else ask.1
      let r := bankSend f c ser e t (s1.send ⟨c, p, el.1, ser, n, pa, el.2.1, f.op, f.ty, f.clr, el.2.2, e, v⟩) (sent ++ [el])
      (r.1, r.2.1, r.2.2.1, bankOf pa :: r.2.2.2)
/-- The half-byte address of the element at a place of a stream. -/
def streamAt (h : HD) (j : Nat) : Option Nat := (h.addr (h.split (h.pos + j))).toOption
/-- Writing what an operation returned: to the result scalar, or over the elements of the stream (R294). -/
def bankReturn (f : BForm) (t : Nat) (h : HD) (rets : Map W64) (k : Core) : Core :=
  if !bankReturns f.op then k
  else if f.stream then
    rets.foldl (fun k e => match streamAt h e.1 with
      | some a2 => k.putEl t h a2 e.2.toNat
      | none => k) k
  else if f.op = .pfx then k.setS f.d (prefixOf (rets.map (·.2)))
  else k.setS f.d (mget 0 rets 0)
/-- Stream results that may not yet be written: a tracked granule they would write is still full (R35, R175). -/
def bankHeld (f : BForm) (k : Core) (h : HD) (rets : Map W64) : Bool :=
  f.stream && bankReturns f.op && k.fetWrite h (rets.filterMap (fun e => (streamAt h e.1).map h.span))
/-- The resume mark of an operation that fails: of a stream form its failing elements; a scalar form, which has had no effect,
runs afresh (R296, R300). -/
def bankResume (f : BForm) (fails : List (BEl × Stop)) : Mark :=
  if f.stream then .bank (fails.map (·.1)) [] [] [] [] else .fresh
/-- The end of an operation when every element has been performed or has failed (R296); elements that have failed do not count as events
(R341). -/
def bankFinish (f : BForm) (c : Nat) (en : Entry) (t : Nat) (rets : Map W64) (fails : List (BEl × Stop)) (segs : List Nat)
    (s : State) : Res Fin :=
  let sent := en.lc + rets.length + fails.length
  let s0 := match bankKind f.op f.clr with
    | some kind =>
      let s1 := if f.stream && (s.part (s.partNo c)).logMode == 1 then
          rets.zipIdx.foldl (fun s e => s.logAt c kind (en.lc + e.2) e.1.2) s
        else s
      if fails ≠ [] ∧ (s.core c).events = sent then s1.upCore c (fun k => k.setEvents (en.lc + rets.length)) else s1
    | none => s
  let x : CSt := (⟨s0, { segs := segs }⟩ : CSt).leave c
  let s1 := if fails = [] ∨ f.stream then x.s.upCore c (bankReturn f t (HD.of (en.h 0)) rets) else x.s
  match fails.foldl (fun (b : Option (BEl × Stop)) y => match b with
      | none => some y
      | some z => if y.1.1 < z.1.1 then some y else some z) none with
  | some y => .stop y.2 (finAt t s1)
  | none => .ok (finAt t (s1.ownFlag c t en))
/-- The checks of a bank operation at its engine (R294, R296, log entry 20): the word's alignment, the stream's format and
count. -/
def bankStart (f : BForm) (en : Entry) : Option Stop :=
  let h := HD.of (en.h 0)
  firstStop [
    if (en.s 0).toNat % bankSize f.op f.ty ≠ 0 then some ⟨.align, .st, en.s 0, 0⟩ else none,
    if f.stream ∧ !bankFmtOk f.op h.fmt then some (stopF .st h.fmt) else none,
    if f.stream ∧ 4096 < h.total - h.pos then some (stopH .st (hReg en.i 0) 0) else none]
/-- An operation that has been sent leaves the ST queue, with the mark it has there; it completes when its banks have performed it (R25,
R280). -/
def Core.flyHead (k : Core) (t : Nat) : Core :=
  match k.eng.st with
  | [] => k
  | en :: _ => k.fly .st en t
/-- The first class-O element of an operation takes the count of events as it is sent (R341). -/
def State.markLc (s : State) (c : Nat) : State :=
  s.upCore c (fun k => match k.eng.st with
    | [] => k
    | en :: _ => k.setHead .st { en with lc := k.events })
/-- The positions of its tile that a bank operation reads (R294): all of a stream form that takes operands. -/
def bankReads (f : BForm) (h : HD) : List (List Nat × Nat) :=
  if f.stream ∧ f.op ≠ .xrd ∧ f.op ≠ .bld then h.places else []
/-- The elements of a bank operation whose tile has been read. -/
def bankEls (f : BForm) (en : Entry) (vals : List (Nat × Nat)) : List BEl :=
  if f.stream then streamEls f.op f.ty f.sh (HD.of (en.h 0)) (en.s 0) (en.s 1) vals else scalarEls f.op (en.s 0) (en.s 1)
/-- Translating and sending the elements of an operation at the head of the ST queue, of which those of `pend` have been sent. Those
performed at once complete it; otherwise it leaves the queue. -/
def bankGo (f : BForm) (c : Nat) (en : Entry) (t : Nat) (els pend : List BEl) (rets : Map W64) (fails : List (BEl × Stop)) (x0 : CSt) :
    Res Fin :=
  match bankXlate f c (x0.s.core c).isPriv els x0 [] with
  | .stop y (x, _) => .stop y (finAt t ((x.leave c).s.setMark c .st (.bank els pend rets fails [])))
  | .wait (x, _) => .wait (finAt t (x.s.setMark c .st (.bank els pend rets fails x.m.segs)))
  | .fault z => .fault z
  | .ok (x, l) =>
    let first := pend.isEmpty && rets.isEmpty && fails.isEmpty
    let lc := if first then (x.s.core c).events else en.lc
    let r := bankSend f c en.routed (en.s 2) l (if first then x.s.markLc c else x.s) pend
    let s1 := r.1.setMark c .st (.bank r.2.2.1 r.2.1 rets fails x.m.segs)
    let s2 := if x0.s.lagBanks then s1
      else r.2.2.2.foldl (fun s b => s.drainBank b (mget [] s.fifos b).length) s1
    match (((s2.core c).eng.st.head?).map (fun (e : Entry) => e.mark)).getD .fresh with
    | .bank [] [] rets fails segs =>
      if bankHeld f (s2.core c) (HD.of (en.h 0)) rets || (s2.core c).ordered en (faOf en.i ≠ 0) then
        .wait (finAt t (s2.upCore c (fun k => k.flyHead t)))
      else (match bankFinish f c { en with lc := lc } t rets fails segs s2 with
        | .stop y z => .stop y (finAt t (z.s.setMark c .st (bankResume f fails)))
        | z => z)
    | .bank [] _ _ _ _ => .wait (finAt t (s2.upCore c (fun k => k.flyHead t)))
    | _ => .wait (finAt t s2)
/-- A bank operation (R296): its words are translated, then sent in position order; it completes when its banks have performed
them. One that has left the queue ends when nothing of it is left to perform. -/
def bankRun (f : BForm) : EBody := fun c en t s =>
  match en.mark with
  | .bank [] [] rets fails segs =>
    if bankHeld f (s.core c) (HD.of (en.h 0)) rets || (s.core c).ordered en (faOf en.i ≠ 0) then .wait (finAt t s)
    else bankFinish f c en t rets fails segs s
  | .bank [] _ _ _ _ => .wait (finAt t s)
  | .bank u pend rets fails segs => bankGo f c en t u pend rets fails ⟨s, { segs := segs }⟩
  | _ =>
    let h := HD.of (en.h 0)
    tileRun .st c t h false (bankReads f h) (CSt.gone .st c t) (fun vals x => bankGo f c en t (bankEls f en vals) [] [] [] x) ⟨s, en.moving⟩
/-- A bank operation at its engine. -/
def bankBody (f : BForm) : EBody := fun c en t s =>
  match bankStart f en with
  | some x => .stop x (finAt t s)
  | none => bankRun f c en t s
/-- A scalar form. -/
def bScalar (op : BOp) (ty : BTy) (clr : Bool) (d : Sreg) : EBody := bankBody ⟨op, ty, clr, 0, false, d⟩
/-- A stream form. -/
def bStream (op : BOp) (ty : BTy) (clr : Bool) (sh : Nat) : EBody := bankBody ⟨op, ty, clr, sh, true, 0⟩

/-! ### Checks at the FE (R60, R293 to R297, R300) -/

/-- BANK.IDEM outside a persistent unit, with the address it names (R182, R245, R295, R360, R415). -/
def idemStop (k : Core) (en : Entry) (addr : W64) : Option Stop :=
  if k.isPers then none else some ⟨.bankIdem, .fe, addr, BitVec.ofNat 64 ((opOf en.i).toNat % 64)⟩
/-- The checks of a bank operation when it is routed (R295, R296, R300): the handle with its addresses, BANK.IDEM, BPFX's count
and the flag word. -/
def bankCheck (f : BForm) (k : Core) (en : Entry) : Option Stop :=
  let r := hReg en.i 0
  firstStop [
    if f.stream then (match (HD.of (en.h 0)).stopOf .fe r with
      | some x => some x
      | none => tileStop .fe r (HD.of (en.h 0))) else none,
    if bankXO f.op f.clr then idemStop k en (en.s 0) else none,
    if f.op = .pfx ∧ 4096 < (en.s 1).toNat then some ⟨.handle, .fe, 0, 0⟩ else none,
    flagStop en.i (en.s 3)]

end Sys2Proof.Machine
end

