-- ==== Sys2Proof/Machine/CopyMore.lean ====
section
/-!
DEFINITION. Sys2Proof/Machine/CopyMore.lean: the glaze loads (R187, R199 to R202), gather-reduce (R320), port queues
(R191 to R193), appends (R358 to R360) and migration (R313, R314).
-/

namespace Sys2Proof.Machine
open Sys2Proof

/-! ### Glaze slots (R187, R200, R201) -/

/-- K extent in bytes (R187). -/
def slotKb (f K : Nat) : Nat := (K * fmtHalf f + 1) / 2 + (if fmtBk f then 2 * cdiv K 32 else 0)
/-- Kp (R187). -/
def slotKp (f K : Nat) : Nat := 64 * cdiv (slotKb f K) 64
/-- The first byte of a column's area in its stack (R201). -/
def Slot.colAt (d : Slot) (q : Nat) : Nat := d.off + q * slotKp d.fmt d.depth
/-- The half-byte address of depth element k of a column of panel q (R201). -/
def Slot.elAt (d : Slot) (q k : Nat) : Nat := 2 * d.colAt q + k * fmtHalf d.fmt
/-- The address of the scale word of depth block b of a column of panel q (R201). -/
def Slot.scAt (d : Slot) (q b : Nat) : Nat := d.colAt q + (d.depth * fmtHalf d.fmt + 1) / 2 + 2 * b
/-- Element k of a column of panel q in its stack, exactly, with the scale of its block. -/
def Slot.el (d : Slot) (st : Mem) (q k : Nat) : AEl :=
  let b := elBits st (d.elAt q k) (fmtHalf d.fmt)
  if fmtBk d.fmt then
    let sc := scaleOf (leNat (rdN st (d.scAt q (k / 32)) 2))
    ⟨bkVal sc (sext (fmtBits d.fmt) b), sc⟩
  else ⟨decElem d.fmt b, 0⟩
/-- The column anchor of column 128 q + j (R200). -/
def Slot.anchor (d : Slot) (q j : Nat) : Int := mget 0 d.anch (128 * q + j)
/-- The descriptor of slot g of a cluster; panels 0 when it is invalid. -/
def Cluster.slot (k : Cluster) (g : Nat) : Slot := mget ⟨0, 0, 0, 0, [], []⟩ k.slots g
/-- The slot is valid. -/
def Cluster.slotOk (k : Cluster) (g : Nat) : Bool := (mfind k.slots g).isSome
/-- Column stack j of a cluster. -/
def Cluster.col (k : Cluster) (j : Nat) : Mem := mget [] k.cols j
/-- The elements of a glaze load in tile-position order of its handle: depth k outer, column j inner; memory rows run over
depth, or over columns when transposed (R187). -/
def glazeEls (N K mh : Nat) (a b : W64) (tr : Bool) : List CEl :=
  let p2 := if b = 0 then ((if tr then K else N) * mh + 1) / 2 * 2 else 2 * b.toNat
  (upto (N * K)).map (fun p =>
    let k := p / N
    let j := p % N
    ⟨[j, k, 0, 0, 0], 0, (2 * a.toNat + (if tr then j * p2 + k * mh else k * p2 + j * mh)) % 2 ^ 65, 0⟩)
/-- Writing a column into its stack: elements in depth order with their bits, and scales by block. -/
def putCol (d : Slot) (q : Nat) (st : Mem) (els : List Nat) (scs : List Nat) : Mem :=
  let st1 := (els.foldl (fun (a : Mem × Nat) v =>
    let e := elBytes a.1 (d.elAt q a.2) (fmtHalf d.fmt) v
    (wrL a.1 e.1 e.2, a.2 + 1)) (st, 0)).1
  (scs.foldl (fun (a : Mem × Nat) v => (wrL a.1 (d.scAt q a.2) (toLE 2 v), a.2 + 1)) (st1, 0)).1
/-- The 32-element depth blocks of a column. -/
def blocks32 {α : Type} (l : List α) : List (List α) := (upto (cdiv l.length 32)).map (fun b => (l.drop (32 * b)).take 32)
/-- A column's bits and scales: copied when the memory blocks already run along depth with 32-element geometry, otherwise
decoded and quantised for a block format (R187). -/
def colBits (pf df : Nat) (keep : Bool) (vs : List CVal) : List Nat × List Nat × Fl :=
  if fmtBk df ∧ !keep then
    let qs := (blocks32 vs).map (fun b => quantBlock df (b.map (fun v => v.ex pf)))
    (qs.flatMap (fun q => q.2.1.map (intBits (fmtBits df))), qs.map (·.1), qs.foldl (fun f q => f ||| q.2.2) 0)
  else
    let cs := vs.map (convEl pf df)
    (cs.map (·.1.b), if fmtBk df then (blocks32 vs).map (fun b => (b.map (·.s)).headD 0) else [], cs.foldl (fun f c => f ||| c.2) 0)
/-- The memory block of an element begins at it. -/
def blockHead (sp : CEl → Option Nat) (e : CEl) (mh : Nat) : Bool :=
  match sp e, sp { e with va2 := e.va2 - mh } with
  | some a, some b => a ≠ b
  | _, _ => true
/-- The memory blocks of a glaze load run along depth as the slot's do (R187): the 32 elements of each depth block of a column, or what
the column has of it, lie in one page block of 32 elements, of which the first is the block's first. -/
def depthBlocks (sp : CEl → Option Nat) (N mh : Nat) (els : List CEl) : Bool :=
  els.all (fun e =>
    let k := nth 0 e.ix 1
    if k % 32 = 0 then blockHead sp e mh
    else sp e == (els[(k - 1) * N + nth 0 e.ix 0]?).bind sp)
/-- Where a glaze load stands: the handle, the page's format and the elements. -/
def glazeForm (s : State) (c : Nat) (en : Entry) (tr : Bool) : HD × Nat × List CEl :=
  let h := HD.of (en.h 0)
  let pf := s.pageFmt c h (en.s 0)
  (h, pf, glazeEls (h.e 0) (h.e 1) (memHalf h pf) (en.s 0) (en.s 1) tr)
/-- The columns of a glaze load whose elements have been read: each with its bits, scales and flags. -/
def glazeCols (s : State) (c : Nat) (en : Entry) (tr : Bool) (vals : List (Nat × Nat)) : List (Nat × List Nat × List Nat × Fl) :=
  let f := glazeForm s c en tr
  let N := f.1.e 0
  let geo := ((s.physOf c (en.s 0)).map (fun x => x.geo)).getD 0
  let keep := geo == 1 && fmtBk f.2.1 && depthBlocks (fun e => s.scaleOfVa c e.va2) N (memHalf f.1 f.2.1) f.2.2
  (upto N).map (fun j => (j, colBits (endFmt f.2.1 f.1.fmt) f.1.fmt keep ((upto (f.1.e 1)).map (fun k =>
    let v := nth (0, 0) vals (k * N + j); ⟨v.1, v.2⟩))))
/-- A glaze word that a load of a cluster's slot rewrites whole: the columns of d that number below N (R187, R420). -/
def glazeWhole (k N : Nat) (d : Slot) (w : ProtWord) : Bool :=
  match w.arr with
  | .glaze k' j => k' == k && (upto d.panels).any (fun q => decide (128 * q + j < N ∧ j < 128 ∧ d.colAt q ≤ 8 * w.idx ∧
      8 * w.idx + 8 ≤ d.colAt q + slotKb d.fmt d.depth))
  | _ => false
/-- A glaze load whose elements have all been read writes its columns, its anchors and its descriptor (R187). -/
def glazeDone (g : Gslot) (tr : Bool) (c : Nat) (en : Entry) (t : Nat) (x : CSt) : Res Fin :=
  let h := HD.of (en.h 0)
  let cols := glazeCols x.s c en tr x.m.vals
  let d : Slot := ⟨h.fmt, cdiv (h.e 0) 128, h.e 1, (en.s 2).toNat, [], [(t + 1, en.pc, c)]⟩
  let stk := cols.foldl (fun (m : Map Mem) x => mset m (x.1 % 128) (putCol d (x.1 / 128) (mget [] m (x.1 % 128)) x.2.1 x.2.2.1))
    (x.s.clu (c / 4)).cols
  let anch := (cols.filter (fun x => x.1 < 256 * 128)).foldl (fun (m : Map Int) x =>
    mput 0 m x.1 (anchorOf h.fmt ((fmtW h.fmt).getD 0) ((upto (h.e 1)).map (d.el (mget [] stk (x.1 % 128)) (x.1 / 128))))) []
  copyEnd c en t { s := (x.s.upClu (c / 4) (fun k => { k with cols := stk, slots := mset k.slots g.toNat { d with anch := anch } })).renew
                     (glazeWhole (c / 4) (h.e 0) d)
                   m := { x.m with fl := cols.foldl (fun f x => f ||| x.2.2.2) x.m.fl } }
/-- LD.G and LD.GT (R187): every element is read, part by part; then the columns, the descriptor and the anchors are written. -/
def glazeRun (g : Gslot) (tr : Bool) : EBody := fun c en t s =>
  let f := glazeForm s c en tr
  let mh := memHalf f.1 f.2.1
  let x : CSt := ⟨s, en.moving⟩
  match if x.m.n = 0 then alignAt .ld f.1 f.2.1 (en.s 0) (en.s 1) else none with
  | some y => CSt.gone .ld c t y x
  | none =>
    actRun .ld c t (s.partsOf c mh f.2.2) (fun x p => loadPart c en.routed (ldFmtOk f.2.1 f.1.fmt) f.2.1 mh p x) (CSt.gone .ld c t)
      (glazeDone g tr c en t) x
/-- LD.G. -/
def bLdG (g : Gslot) : EBody := glazeRun g false
/-- LD.GT. -/
def bLdGt (g : Gslot) : EBody := glazeRun g true
/-- The checks of a glaze load at the FE (R187). -/
def glazeCheck (s : State) (c : Nat) (tr : Bool) (en : Entry) : Option Stop :=
  let h := HD.of (en.h 0)
  let r := hReg en.i 0
  let N := h.e 0
  let K := h.e 1
  let off := (en.s 2).toNat
  let mh := memHalf h (s.pageFmt c h (en.s 0))
  let p2 := if en.s 1 = 0 then ((if tr then K else N) * mh + 1) / 2 * 2 else 2 * (en.s 1).toNat
  firstStop [
    match h.stopOf .fe r with
    | some x => some x
    | none =>
      if (fmtW h.fmt).isNone then some (stopF .fe h.fmt)
      else if h.e 2 ≠ 1 ∨ h.e 3 ≠ 1 ∨ h.e 4 ≠ 1 then some (stopH .fe r 0) else none,
    if off % 64 ≠ 0 then some ⟨.align, .fe, en.s 2, 0⟩ else none,
    if 491520 < off + cdiv N 128 * slotKp h.fmt K then some (stopH .fe r 0) else none,
    if (s.peekFmt c (en.s 0)).isSome ∧ 2 < mh ∧ ((en.s 0).toNat % (mh / 2) ≠ 0 ∨ p2 / 2 % (mh / 2) ≠ 0) then
      some ⟨.align, .fe, en.s 0, 0⟩ else none,
    flagStop en.i (en.s 3)]

/-! ### Gather-reduce (R320) -/

/-- Source page formats of a gather-reduce. -/
def grFmtOk (f : Nat) : Bool := (1 ≤ f && f ≤ 5) || fmtBk f
/-- The columns of tile row r with their cursors and scratchpad addresses. -/
def rowCols (h : HD) (r : Nat) : List (List Nat × Nat) :=
  (upto (h.total - h.pos)).filterMap (fun k =>
    let p := h.pos + k
    if p / h.e 0 - h.pos / h.e 0 = r then match h.addr (h.split p) with
      | .ok a2 => some (h.split p, a2)
      | .error _ => none
    else none)
/-- The memory elements of source row `index` for destination row r. -/
def grEls (h : HD) (mh : Nat) (a b : W64) (r index : Nat) : List CEl :=
  (rowCols h r).map (fun x => ⟨x.1, x.2, (2 * a.toNat + index * pitch2 h mh b + nth 0 x.1 0 * mh) % 2 ^ 65, r⟩)
/-- The source rows that a gather-reduce reads: destination row, rank, source row and weight, in rank order (R320). -/
def grSources (h : HD) (kk : Nat) (rows : List Nat) : List (Nat × Nat × Nat × Nat) :=
  (upto h.rows).flatMap (fun r => (upto kk).filterMap (fun rk =>
    let i := nth 0 rows (2 * kk * r + 2 * rk)
    if i = 0xFFFFFFFF then none else some (r, rk, i, nth 0 rows (2 * kk * r + 2 * rk + 1))))
/-- The parts of a gather-reduce: each source row of each destination row, with ordinal r × k + rank (R320). -/
def grParts (h : HD) (mh kk : Nat) (a b : W64) : List (Nat × Nat × Nat × Nat) → Nat → List CPart
  | [], _ => []
  | (r, rk, i, _) :: t, k0 =>
    let es := grEls h mh a b r i
    ⟨r * kk + rk, k0, vaOf ((es.head?.map CEl.va2).getD 0), es⟩ :: grParts h mh kk a b t (k0 + es.length)
/-- The exact weighted sum of a column, rounded once (R320). -/
def grSum (ps : List (Ex × Ex)) : BitVec 32 × Fl :=
  let ms := ps.map (fun p => exMul p.1 p.2)
  match exSum (ms.map (·.1)) with
  | .nan => (0x7FC00000, fNV)
  | v => rne32 v
/-- The destination elements in order: row, and place in the row. -/
def grDests (h : HD) : List (Nat × Nat) := (upto h.rows).flatMap (fun r => (upto (rowCols h r).length).map (fun j => (r, j)))
/-- The value of a destination element from the source elements read. -/
def grVal (pf : Nat) (srcs : List (Nat × Nat × Nat × Nat)) (parts : List CPart) (vals : List (Nat × Nat)) (d : Nat × Nat) :
    BitVec 32 × Fl :=
  grSum (((srcs.zip parts).filter (fun x => x.1.1 == d.1)).map (fun x =>
    let v := nth (0, 0) vals (x.2.k0 + d.2)
    (val32 (BitVec.ofNat 32 x.1.2.2.2), CVal.ex pf ⟨v.1, v.2⟩)))
/-- LD.GR, whose indices and weights have been read (R320). -/
def grRun (c : Nat) (en : Entry) (t : Nat) (x : CSt) : Res Fin :=
  let h := HD.of (en.h 0)
  let kk := (HD.of (en.h 1)).e 0 / 2
  let srcs := grSources h kk x.m.rows
  let pf := match srcs.head? with
    | some q => x.s.firstFmt c h (en.s 0) (en.s 1) q.2.2.1
    | none => x.s.pageFmt c h (en.s 0)
  let mh := memHalf h pf
  let parts := grParts h mh kk (en.s 0) (en.s 1) srcs 0
  let dests := grDests h
  let vs := (x.s.core c).putsOf h false h.places
  let need (v : Visit) : Nat :=
    let r := (nth (0, 0) dests v.last).1
    ((srcs.zip parts).filter (fun q => decide (q.1.1 ≤ r))).foldl (fun n q => n + q.2.els.length) 0
  match if x.m.n = 0 then engineStop .ld en h pf (en.s 0) (en.s 1) else none with
  | some y => CSt.gone .ld c t y x
  | none =>
    actRun .ld c t (loadActs need parts vs 0) (loadAct c en.routed t h (grFmtOk pf) pf mh (fun vals key =>
        (grVal pf srcs parts vals (nth (0, 0) dests (key / 2))).1.toNat)) (CSt.gone .ld c t)
      (fun x => copyEnd c en t { x with m := { x.m with
        fl := dests.foldl (fun f d => f ||| (grVal pf srcs parts x.m.vals d).2) 0 } })
      { x with m := { x.m with gs := granulesOf vs } }
/-- LD.GR (R320). -/
def bLdGr : EBody := fun c en t s =>
  let hx := HD.of (en.h 1)
  indexRun .ld c t en hx (2 * (hx.e 0 / 2) * (HD.of (en.h 0)).rows) id (grRun c en t) s

/-! ### Port queues (R191 to R193) -/

/-- A port-queue descriptor's words. -/
structure PortQ where
  ring : W64
  cap  : Nat
  slot : Nat
  head : W64
  tail : W64
  drop : W64
  dir  : Bool
  port : Nat
  bad  : Bool
  deriving DecidableEq, Repr
/-- Reading a descriptor from committed memory. -/
def portQ (m : Mem) (pa : Nat) : PortQ :=
  let w (o : Nat) : W64 := rd64 m (pa + o)
  let cap := bits (w 8) 31 16
  { ring := w 0, cap := cap, slot := (if bits (w 8) 7 0 = 0 then 256 else bits (w 8) 7 0) * 256,
    head := w 0x10, tail := w 0x18, drop := w 0x20, dir := (w 0x28).getLsbD 8, port := bits (w 0x28) 7 0,
    bad := !capOk cap || bits (w 8) 63 32 ≠ 0 || bits (w 8) 15 8 ≠ 0 || bits (w 0x28) 63 9 ≠ 0 || w 0x30 ≠ 0 || w 0x38 ≠ 0 }
/-- The virtual address of slot n (R191); RING is used as it stands (log entry 101). -/
def PortQ.slotVa (d : PortQ) (n : W64) : W64 := d.ring + BitVec.ofNat 64 (n.toNat % d.cap * d.slot)
/-- The elements of a tile in position order as one number, with the number of its bytes (R192, R193). -/
def tileNum (h : HD) (vals : List (Nat × Nat)) : Nat × Nat :=
  ((vals.zipIdx).foldl (fun a v => a + v.1.1 * 16 ^ (v.2 * h.half)) 0, (vals.length * h.half + 1) / 2)
/-- The pieces of a tile that the first n half-bytes of a payload fill, in position order; the rest of the tile is unchanged (R192). -/
def fillPieces (h : HD) (n : Nat) : List Piece :=
  ((h.places).zipIdx).filterMap (fun x =>
    let q := min h.half (n - x.2 * h.half)
    if q = 0 then none else some ⟨2 * x.2, 0, x.1.2, q⟩)
/-- The element of a payload at a position. -/
def payloadVal (h : HD) (v key : Nat) : Nat := v / 16 ^ (key / 2 * h.half) % 16 ^ h.half
/-- The bytes of a handle's tile. -/
def tileBytes (h : HD) : Nat := (h.tile.length * h.half + 1) / 2
/-- The part that the byte o bytes behind an address lies in, a part for each page: its ordinal, and the address of its first byte
(R171). -/
def State.partAt (s : State) (c : Nat) (va : W64) (o : Nat) : Nat × W64 :=
  ((upto (o / 64)).map (fun j => va + BitVec.ofNat 64 (64 * (j + 1)))).foldl (fun (a : (Nat × W64) × W64) v =>
    (if s.pageKey c v = s.pageKey c a.2 then a.1 else (a.1.1 + 1, v), v)) ((0, va), va) |>.1
/-- Translating n pieces of 64 bytes from an address; the physical address of each. A page that follows the first begins a part with the
next ordinal (R171, R180). -/
def xlateRange (c : Nat) (need : Need) (src : Strm) (va : W64) : Nat → Nat → CSt → List Nat → Res (CSt × List Nat)
  | 0, _, x, l => .ok (x, l)
  | n + 1, k, x, l =>
    match x.xlate c (va + BitVec.ofNat 64 (64 * k)) need (x.s.partAt c va (64 * k)).1 src with
    | (.ok x1, some tr) => xlateRange c need src va n (k + 1) x1 (l ++ [tr.pa])
    | (.ok x1, none) => .wait (x1, l)
    | (.stop y x1, _) => .stop y (x1, l)
    | (.wait x1, _) => .wait (x1, l)
    | (.fault z, _) => .fault z
/-- Reading the first n bytes at translated 64-byte pieces. -/
def readPieces (m : Mem) (pas : List Nat) (n : Nat) : List Byte := (pas.flatMap (fun pa => rdN m pa 64)).take n
/-- The first uncorrectable word among the first n bytes at translated pieces: its place, and its array. -/
def badPiece (s : State) (pas : List Nat) (n : Nat) : Option (Nat × Nat) :=
  (upto ((n + 7) / 8)).findSome? (fun j =>
    let pa := nth 0 pas (j / 8) + 8 * (j % 8)
    if s.memBad pa (min 8 (n - 8 * j)) then some (8 * j, arrOf pa) else none)
/-- The ranges that the first n bytes at translated pieces take. -/
def piecesRead (pas : List Nat) (n : Nat) : List (Nat × Nat) := (pas.zipIdx).map (fun x => (x.1, min 64 (n - 64 * x.2)))
/-- Writing bytes at translated 64-byte pieces. -/
def writePieces (s : State) : List Nat → List Byte → State
  | [], _ => s
  | pa :: t, bs => writePieces (if bs.isEmpty then s else s.writeMem pa (bs.take 64)) t (bs.drop 64)
/-- MEM.UE of a read of n bytes of memory at one place: it names the first uncorrectable word (R245). -/
def badWord (s : State) (src : Strm) (va : W64) (pa n : Nat) : Stop :=
  ⟨.memUe, src, va + BitVec.ofNat 64 (((badPiece s ((upto ((n + 63) / 64)).map (fun j => pa + 64 * j)) n).map (·.1)).getD 0),
    BitVec.ofNat 64 (arrOf pa)⟩
/-- The descriptor of a port-queue command, checked (R191 to R193): in a Crock segment, of the right direction, well
formed. -/
def portDesc (c : Nat) (src : Strm) (va : W64) (tx : Bool) (x : CSt) : Res CSt × Option (Nat × PortQ) :=
  if va.toNat % 64 ≠ 0 then (.stop ⟨.align, src, va, 0⟩ x, none)
  else match x.xlate c va needRW 0 src with
    | (.ok x1, some tr) =>
      let d := portQ x1.s.mem tr.pa
      if tr.ent.home ≠ 2 ∨ d.dir ≠ tx then (.stop (stopX src .perm 2 va 0) x1, none)
      else if x1.s.memBad tr.pa 64 then (.stop (badWord x1.s src va tr.pa 64) x1, none)
      else if d.bad then (.stop ⟨.format, src, va, 0⟩ x1, none)
      else (.ok { x1 with s := x1.s.corrMem tr.pa 64 }, some (tr.pa, d))
    | (r, _) => (r, none)
/-- What the order log says of a port-queue claim (R343): the slot to use, `none` when the queue is empty or full, or a
wait, and whether replay forces it. A claim that runs live takes what the queue gives. -/
def portTurn (s : State) (c kind : Nat) (n : Option W64) : State × Option (Option W64) × Bool :=
  let r := s.logAsk (s.partNo c) kind (s.core c).lcNext
  match r.2 with
  | .wait => (r.1, none, false)
  | .live => (r.1.logEvent c kind (n.getD (BitVec.allOnes 64)), some n, false)
  | .val v => (r.1.upCore c Core.countEvent, some (if v = BitVec.allOnes 64 then none else some v), true)
/-- Discarding what a stopped or waiting command did: it leaves its segments and waits afresh. -/
def again {α : Type} (t : Nat) (s : State) (r : Res α) : Res Fin :=
  match r with
  | .ok _ => .wait (finAt t s)
  | .stop y _ => .stop y (finAt t s)
  | .wait _ => .wait (finAt t s)
  | .fault z => .fault z
/-- Filling a tile with the payload that a command has taken, granule by granule (R175, R192): `n` half-bytes of it; then the end. -/
def fillRun (c t : Nat) (en : Entry) (n : Nat) (val : Nat → Nat) (done : CSt → Res Fin) (x : CSt) : Res Fin :=
  let h := HD.of (en.h 0)
  let vs := (x.s.core c).landings h (fillPieces h n)
  actRun .ld c t vs (fun x v => landVisit c t h v val x) (CSt.gone .ld c t) done { x with m := { x.m with gs := granulesOf vs } }
/-- LD.NET after its claim (R192): the payload lands, then the scalars and the slot's FULL bit are written. The mark holds the address of
the FULL bit, the length, the tag and the bytes that land. -/
def netLand (b e : Sreg) (c : Nat) (en : Entry) (t : Nat) (x : CSt) : Res Fin :=
  let h := HD.of (en.h 0)
  let q (j : Nat) : Nat := nth 0 x.m.rows j
  fillRun c t en (2 * q 3) (payloadVal h (mget 0 x.m.stash 0)) (fun x =>
    copyEnd c en t { x with s := ((x.s.writeMem (q 0) [(rd x.s.mem (q 0)) &&& 0xFE]).upCore c (fun k =>
      (k.setS b (BitVec.ofNat 64 (q 1))).setS e (BitVec.ofNat 64 (q 2)))) }) x
/-- LD.NET's entry has been claimed (R192): its slot's header, then its payload up to LEN, is read; a fault leaves the queue as it was. A
slot that replay forces is waited for until it is filled (R343). -/
def netTake (b e : Sreg) (c : Nat) (en : Entry) (t : Nat) (s : State) (pa : Nat) (d : PortQ) (n : W64) (forced : Bool) (x : CSt) :
    Res Fin :=
  let h := HD.of (en.h 0)
  let va := d.slotVa n
  match xlateRange c needW .ld va 1 0 x [] with
  | .ok (x1, hd) =>
    let bs := rdN x1.s.mem (hd.headD 0) 16
    let len := leNat (bs.take 4)
    let m := min (min len (tileBytes h)) (d.slot - 64)
    (match xlateRange c needW .ld (va + 64) ((m + 63) / 64) 0 x1 [] with
      | .ok (x2, pas) =>
        if let some y := badPiece x2.s hd 16 then .stop ⟨.memUe, .ld, va + BitVec.ofNat 64 y.1, BitVec.ofNat 64 y.2⟩ (finAt t s)
        else if let some y := badPiece x2.s pas m then
          let p := x2.s.partAt c (va + 64) y.1
          .stop (stopPartUe .ld y.2 p.2 p.1) (finAt t s)
        else if forced && !((bs.drop 8).headD 0).getLsbD 0 then .wait (finAt t s)
        else netLand b e c en t { s := (x2.s.corrAll ((hd.headD 0, 16) :: piecesRead pas m)).writeMem (pa + 0x10) (toLE 8 (d.head + 1).toNat)
                                  m := { x2.m with rows := [hd.headD 0 + 8, len, leNat ((bs.drop 4).take 4), m]
                                                   stash := [(0, leNat (readPieces x2.s.mem pas m))] } }
      | r => again t s r)
  | r => again t s r
/-- LD.NET (R192). -/
def bLdNet (b e : Sreg) : EBody := fun c en t s =>
  if en.moving.rows ≠ [] then netLand b e c en t ⟨s, en.moving⟩
  else match portDesc c .ld (en.s 0) false (.of s) with
  | (.ok x, some (pa, d)) =>
    let head : Option W64 := if d.head.ult d.tail then some d.head else none
    (match portTurn x.s c 6 head with
      | (_, none, _) => .wait (finAt t s)
      | (s1, some none, _) => copyEnd c { en with i := .ldNet (tokOf en.i) 0 0 b e 0 0 } t
          { x with s := s1.upCore c (fun k => k.setS b (BitVec.allOnes 64)) }
      | (s1, some (some n), forced) => netTake b e c en t s pa d n forced { x with s := s1 })
  | (r, _) => again t s r
/-- A host queue's slot becomes full while the queue was empty: its MSI-X vector (R407); 0 stands for none, i + 1 for vector i. -/
def State.hostMsi (s : State) (n : Nat) : State :=
  if n = 0 then s else { s with ik := { s.ik with hqMsi := s.ik.hqMsi ++ [n - 1] } }
/-- What a claim of slot n makes of it. -/
def PortQ.msi (d : PortQ) (n : W64) : Nat :=
  if 0x40 ≤ d.port ∧ d.port < 0x80 ∧ d.head = d.tail ∧ n = d.head then d.port - 0x40 + 1 else 0
/-- The slot of an ST.NET becomes full, and the command completes (R193): the payload, then the header with FULL, then the status. -/
def netPost (b : Sreg) (c : Nat) (en : Entry) (t : Nat) (msi : Nat) (pas : List Nat) (vals : List (Nat × Nat)) (x : CSt) : Res Fin :=
  let v := tileNum (HD.of (en.h 0)) vals
  let s1 := writePieces x.s (pas.drop 1) (toLE v.2 v.1)
  let s2 := s1.writeMem (pas.headD 0) (toLE 4 v.2 ++ toLE 4 (bits (en.s 2) 31 0) ++ [1])
  copyEnd c en t { x with s := (s2.hostMsi msi).upCore c (fun k => k.setS b 0) }
/-- An ST.NET that has claimed its slot is set back with the slot, which it fills when it runs again (R253; log entry 105). -/
def netBack (t c : Nat) (y : Stop) (x : CSt) : Res Fin := .stop y (finAt t ((x.leave c).s.setMark c .st (.claimed x.m.rows)))
/-- ST.NET with its slot (R193): its tile is read, granule by granule; then the slot is filled. The rows hold the vector that its filling
raises and the addresses of the slot's lines. -/
def netSend (b : Sreg) (c : Nat) (en : Entry) (t : Nat) (x : CSt) : Res Fin :=
  let h := HD.of (en.h 0)
  tileRun .st c t h false h.places (netBack t c) (fun vals x => netPost b c en t (nth 0 x.m.rows 0) (x.m.rows.drop 1) vals x) x
/-- The claim of ST.NET at its descriptor's bank (R193), the slot's lines translated first: the status of a full queue, or `go` with the
claimed slot. Replay forces the slot and waits until it is free (R343). -/
def netClaim (b : Sreg) (c : Nat) (en : Entry) (t : Nat) (s : State) (pa : Nat) (d : PortQ) (x : CSt) (go : CSt → Res Fin) : Res Fin :=
  let n := tileBytes (HD.of (en.h 0))
  let tail : Option W64 := if (d.tail - d.head).ult (BitVec.ofNat 64 d.cap) then some d.tail else none
  match portTurn x.s c 7 tail with
  | (_, none, _) => .wait (finAt t s)
  | (s1, some none, _) =>
    let s2 := s1.writeMem (pa + 0x20) (toLE 8 (d.drop + 1).toNat)
    copyEnd c { en with i := .stNet (tokOf en.i) 0 0 b 0 0 0 } t { x with s := s2.upCore c (fun k => k.setS b 1) }
  | (s1, some (some q), forced) =>
    match xlateRange c needW .st (d.slotVa q) 1 0 { x with s := s1 } [] with
    | .ok (x1, hd) =>
      (match xlateRange c needW .st (d.slotVa q + 64) ((n + 63) / 64) 0 x1 [] with
        | .ok (x2, pas) =>
          if forced && (rd x2.s.mem (hd.headD 0 + 8)).getLsbD 0 then .wait (finAt t s)
          else go { s := x2.s.writeMem (pa + 0x18) (toLE 8 (d.tail + 1).toNat), m := { x2.m with rows := d.msi q :: hd ++ pas } }
        | r => again t s r)
    | r => again t s r
/-- ST.NET (R193): the descriptor and the tile's size are checked, then the slot is claimed. A tile that is read without waiting is read
before the claim, so that a stop finds nothing claimed; one whose granules are waited for (R35) is read afterwards. A stop in the step of
the claim undoes it. -/
def bStNet (b : Sreg) : EBody := fun c en t s =>
  let h := HD.of (en.h 0)
  match en.moving.rows with
  | _ :: _ => netSend b c en t ⟨s, en.moving⟩
  | [] =>
    match portDesc c .st (en.s 0) true ⟨s, en.moving⟩ with
    | (.ok x, some (pa, d)) =>
      if d.slot - 64 < tileBytes h then .stop (stopH .st (hReg en.i 0) 0) (finAt t s)
      else if !(s.core c).tracks h && ((d.tail - d.head).ult (BitVec.ofNat 64 d.cap) || x.m.n != 0) then
        tileRun .st c t h false h.places (CSt.gone .st c t) (fun vals z =>
          match portDesc c .st (en.s 0) true z with
          | (.ok z1, some (pa, d)) => netClaim b c en t z.s pa d z1 (fun x2 =>
              netPost b c en t (nth 0 x2.m.rows 0) (x2.m.rows.drop 1) vals x2)
          | (r, _) => again t z.s r) x
      else (match netClaim b c en t s pa d x (netSend b c en t) with
        | .stop y _ => .stop y (finAt t s)
        | r => r)
    | (r, _) => again t s r

/-! ### Append buffers (R358 to R360) -/

/-- An append descriptor's words (R358). -/
structure AppendQ where
  base : W64
  cap  : Nat
  row  : Nat
  len  : W64
  own  : Nat
  green : List Nat
  bad  : Bool
  deriving DecidableEq, Repr
/-- Reading a descriptor. -/
def appendQ (m : Mem) (pa : Nat) : AppendQ :=
  let w (o : Nat) : W64 := rd64 m (pa + o)
  let row := bits (w 8) 31 0
  let g := leNat (rdN m (pa + 0x20) 16)
  { base := w 0, cap := bits (w 8) 63 32, row := row, len := w 0x10, own := bits (w 0x18) 8 0,
    green := (upto 8).map (fun j => g / 2 ^ (16 * j) % 2 ^ 16),
    bad := bits (w 0x18) 63 9 ≠ 0 || w 0x30 ≠ 0 || w 0x38 ≠ 0 || row % 8 ≠ 0 || row < 8 || 65536 < row || bits (w 8) 63 32 = 0 }
/-- The descriptor of an append, checked (R358). -/
def appendDesc (c : Nat) (va : W64) (need : Need) (x : CSt) : Res CSt × Option (Nat × AppendQ) :=
  if va.toNat % 64 ≠ 0 then (.stop ⟨.align, .st, va, 0⟩ x, none)
  else match x.xlate c va need 0 .st with
    | (.ok x1, some tr) =>
      let d := appendQ x1.s.mem tr.pa
      if tr.ent.home ≠ 2 then (.stop (stopX .st .perm 2 va 0) x1, none)
      else if x1.s.memBad tr.pa 64 then (.stop (badWord x1.s .st va tr.pa 64) x1, none)
      else if d.bad then (.stop ⟨.format, .st, va, 0⟩ x1, none)
      else (.ok { x1 with s := x1.s.corrMem tr.pa 64 }, some (tr.pa, d))
    | (r, _) => (r, none)
/-- Rows of a tile that lane j owns (R359): of its dimension-4 slice for a lane-split entry, every row for a tagged one. -/
def laneRows (en : Entry) (h : HD) (j : Nat) : Nat :=
  if en.lane = 8 then (if j < h.e 4 then h.e 1 * h.e 2 * h.e 3 else 0) else if en.lane = j then h.rows else 0
/-- A trap of an append at its descriptor. -/
def appendTrap (en : Entry) : Stop := stopH .st (hReg en.i 0) 0
/-- Where an append's rows go, from a base row on (R359): addresses and pitch of the descriptor's buffer. -/
def appendForm (s : State) (c : Nat) (en : Entry) (d : AppendQ) (row0 : Nat) : SForm :=
  let h := HD.of (en.h 0)
  let a := d.base + BitVec.ofNat 64 (row0 * d.row)
  let b := BitVec.ofNat 64 d.row
  let pf := s.firstFmt c h a b 0
  ⟨h, pf, tileEls (h.as pf) (memHalf h pf) a b some, false, false, fun _ => none, en.routed, []⟩
/-- A row does not fit in ROWSZ bytes (R359). -/
def appendFit (en : Entry) (f : SForm) (d : AppendQ) : Option Stop :=
  if 2 * d.row < f.h.e 0 * f.mh then some (appendTrap en) else none
/-- What stands against an append's rows at a base row: a row that does not fit, alignment, addresses, or rows that do not begin and end
on page-block boundaries (R176, R179, R359). -/
def appendStop (s : State) (c : Nat) (en : Entry) (d : AppendQ) (row0 : Nat) : Option Stop :=
  let f := appendForm s c en d row0
  let a := d.base + BitVec.ofNat 64 (row0 * d.row)
  let b := BitVec.ofNat 64 d.row
  firstStop [appendFit en f d, engineStop .st en f.h f.pf a b, blockStop .st s c f.h f.pf a b false]
/-- The end of an append. -/
def appendDone (c : Nat) (en : Entry) (t : Nat) (x : CSt) : Res Fin := copyEnd c en t x
/-- Descriptor words that a region has opened are given back (R253, R363). -/
def CSt.giveBack (x : CSt) (c : Nat) (va : W64) : CSt :=
  let back (s : State) (q : Nat × W64) : State := (s.writeMem (q.1 + 0x18) (toLE 8 0)).writeMem (q.1 + 0x20) (toLE 16 0)
  let mine := (x.s.core c).spec.descs.filter (fun q => q.2 == va)
  { x with s := (mine.foldl back x.s).upCore c (fun k => { k with spec := { k.spec with descs := k.spec.descs.filter (fun q => q.2 != va) } }) }
/-- What a stop of an append in a region leaves (R357, R359): a fault of a part is held; after any other the descriptor is as it was, so
that the append can run again. -/
def appendGone (c : Nat) (en : Entry) (t : Nat) (acts : List SAct) (y : Stop) (x : CSt) : Res Fin :=
  if heldCause y.cause then storeGone c en t acts y x else CSt.gone .st c t y (x.giveBack c (en.s 0))
/-- What a stop of the re-issue of a held append leaves (R362): its descriptor stays open, for the SPEC.COMMIT that runs again. -/
def appendKept (c : Nat) (en : Entry) (t : Nat) (acts : List SAct) (y : Stop) (x : CSt) : Res Fin :=
  if heldCause y.cause then storeGone c en t acts y x else CSt.gone .st c t y x
/-- The landing of the rows of an append in a region, from the row its mark names on (R359). -/
def appendLand (gone : List SAct → Stop → CSt → Res Fin) (c : Nat) (en : Entry) (t : Nat) (d : AppendQ) (x : CSt) : Res Fin :=
  let f := appendForm x.s c en d (nth 0 x.m.rows 0 - 1)
  actRun .st c t (f.acts x.s c) (storeAct c t f) (gone (f.acts x.s c)) (appendDone c en t) x
/-- ST.APP outside a region whose tile has been read (R359): LEN is read again at the bank, and the rows are claimed and land in one
step; a fault leaves the descriptor as it was. -/
def appendClaim (c : Nat) (en : Entry) (t : Nat) (x : CSt) : Res Fin :=
  match appendDesc c (en.s 0) needRW x with
  | (.ok x1, some (pa, d)) =>
    let row0 := d.len.toNat
    let n := (HD.of (en.h 0)).rows
    if d.own ≠ 0 then x.waits .st c t
    else if d.cap < row0 + n then CSt.gone .st c t (appendTrap en) x
    else match appendStop x1.s c en d row0 with
      | some y => CSt.gone .st c t y x
      | none =>
        let f := appendForm x1.s c en d row0
        let vals := (x1.s.core c).taken (f.h.as f.pf) (fmtBk f.h.fmt) f.pads x1.m
        (match copyLoop (fun x p => storePart c f vals p x) (x1.s.partsOf c f.mh f.els)
            { x1 with s := x1.s.writeMem (pa + 0x10) (toLE 8 (row0 + n)) } with
          | .ok x2 => appendDone c en t x2
          | .stop y _ => CSt.gone .st c t y x
          | .wait _ => x.waits .st c t
          | .fault z => .fault z)
  | (.stop y x1, _) => CSt.gone .st c t y x1
  | (.fault z, _) => .fault z
  | _ => x.waits .st c t
/-- ST.APP outside a region (R359): every row part is translated and the tile is read first. -/
def appendPlain (c : Nat) (en : Entry) (t : Nat) (x : CSt) : Res Fin :=
  match appendDesc c (en.s 0) needRW x with
  | (.ok x1, some (_, d)) =>
    (match if x.m.n = 0 then appendStop x1.s c en d d.len.toNat else none with
      | some y => CSt.gone .st c t y x1
      | none =>
        let f := appendForm x1.s c en d d.len.toNat
        let acts := (f.acts x1.s c).filter (fun a => match a with | .store _ => false | _ => true)
        actRun .st c t acts (storeAct c t f) (CSt.gone .st c t) (appendClaim c en t) x1)
  | (.stop y x1, _) => CSt.gone .st c t y x1
  | (.fault z, _) => .fault z
  | _ => x.waits .st c t
/-- ST.APP in a region's body (R359): at the bank its rows become green; then they land. -/
def appendGreen (c : Nat) (en : Entry) (t : Nat) (x : CSt) : Res Fin :=
  match appendDesc c (en.s 0) needRW x with
  | (.ok x1, some (pa, d)) =>
    if x.m.rows ≠ [] then appendLand (appendGone c en t) c en t d x1
    else
      let row0 := d.len.toNat
      let n := (upto 8).foldl (fun a j => a + laneRows en (HD.of (en.h 0)) j) 0
      if (appendFit en (appendForm x1.s c en d row0) d).isSome then CSt.gone .st c t (appendTrap en) x1
      else if d.own = c + 1 ∨ 8 ≤ (x1.s.core c).spec.descs.length then CSt.gone .st c t (stopSide .st en.i (en.s 0)) x1
      else if d.own ≠ 0 then (x1.leave c).waits .st c t
      else if d.cap < row0 + n then CSt.gone .st c t (appendTrap en) x1
      else match appendStop x1.s c en d row0 with
        | some y => CSt.gone .st c t y x1
        | none =>
          let g := (upto 8).foldl (fun a j => a + laneRows en (HD.of (en.h 0)) j % 2 ^ 16 * 2 ^ (16 * j)) 0
          let s1 := (x1.s.writeMem (pa + 0x18) (toLE 8 (c + 1))).writeMem (pa + 0x20) (toLE 16 g)
          let s2 := s1.upCore c (fun k => { k with spec := { k.spec with descs := k.spec.descs ++ [(pa, en.s 0)] } })
          appendLand (appendGone c en t) c en t d { s := s2, m := { x1.m with rows := [row0 + 1] } }
  | (.stop y x1, _) => CSt.gone .st c t y (if x.m.rows ≠ [] then x1.giveBack c (en.s 0) else x1)
  | (.fault z, _) => .fault z
  | _ => x.waits .st c t
/-- ST.APP, append form (R359). -/
def bStApp : EBody := fun c en t s =>
  if en.lane ≤ 8 then appendGreen c en t ⟨s, en.moving⟩ else appendPlain c en t ⟨s, en.moving⟩
/-- ST.APP, query form (R360). -/
def bStAppQuery (d : Sreg) : EBody := fun c en t s =>
  match appendDesc c (en.s 0) needR (.of s) with
  | (.ok x, some (_, q)) =>
    let add := if q.own = c + 1 ∧ en.lane < 8 then (q.green.take (en.lane + 1)).foldl (· + ·) 0 else 0
    cmdEnd c en t [] (((x.leave c).s).upCore c (fun k => k.setS d (q.len + BitVec.ofNat 64 add)))
  | (.ok _, none) => .wait (finAt t s)
  | (.stop y _, _) => .stop y (finAt t s)
  | (.wait _, _) => .wait (finAt t s)
  | (.fault z, _) => .fault z

/-! ### Migration (R313, R314) -/

/-- Entries of a map with keys in [o, o + n), as a map. -/
def mrange {α : Type} (m : Map α) (o n : Nat) : Map α := m.filter (fun x => decide (o ≤ x.1 ∧ x.1 < o + n))
/-- The map with the entries of [o, o + n) copied to [d, d + n), whose own entries are replaced; the old ones stay. -/
def mcopy {α : Type} (m : Map α) (o d n : Nat) : Map α :=
  (mrange m o n).foldl (fun m x => mset m (x.1 - o + d) x.2) (m.filter (fun x => !decide (d ≤ x.1 ∧ x.1 < d + n)))
/-- The map with the entries of [o, o + n) moved to [d, d + n). -/
def mmove {α : Type} (m : Map α) (o d n : Nat) : Map α :=
  (mcopy m o d n).filter (fun x => !decide (o ≤ x.1 ∧ x.1 < o + n))
/-- A physical address that a migration carries. -/
def addrMoved (o d n a : Nat) : Nat := if o ≤ a ∧ a < o + n then a - o + d else a
/-- What a migration carries with a core: pending and green bytes, the addresses written over in held commands, and open descriptors. -/
def Core.moved (k : Core) (o d n : Nat) : Core :=
  { k with
    pend := mmove k.pend o d n
    spec := { k.spec with
      green := k.spec.green.map (fun x => (x.1, mmove x.2 o d n))
      held := k.spec.held.map (fun h => { h with newer := h.newer.map (fun x => (x.1, addrMoved o d n x.2)) })
      descs := k.spec.descs.map (fun x => (addrMoved o d n x.1, x.2)) } }
/-- What a migration carries with a partition: snapshot, pending bytes, those of swapped-out cores too, and charges. -/
def Part.moved (p : Part) (o d n : Nat) : Part :=
  { p with
    saved := p.saved.map (fun x => (x.1, x.2.map (fun y => (y.1, y.2.moved o d n))))
    snap := mcopy p.snap o d n
    acPend := p.acPend.map (fun x => (x.1, mmove x.2 o d n))
    portPend := p.portPend.map (fun x => (x.1, mmove x.2 o d n))
    ended := p.ended.map (fun x => { x with bytes := mmove x.bytes o d n })
    charges := mmove p.charges (o / 64) (d / 64) (n / 64) }
/-- The package after n bytes have moved from o to d (R313). -/
def State.moved (s : State) (o d n : Nat) : State :=
  { (s.corrMem o n).renew (memWhole d n) with
    mem := mcopy s.mem o d n
    parts := s.parts.map (fun x => (x.1, x.2.moved o d n))
    cores := s.cores.map (fun x => (x.1, x.2.moved o d n))
    ik := { s.ik with heldWr := s.ik.heldWr.map (fun w => { w with bytes := mmove w.bytes o d n }) } }
/-- A migration's segment or target is invalid (R314). -/
def migrBad (e : Env) (n : SegEnt) (sg nb : Nat) : Bool :=
  let len := n.len * 65536
  decide (e.segn ≤ sg) || !n.v || n.state ≠ 0 || !inOneRegion nb len || decide (nb < n.base + len ∧ n.base < nb + len)
/-- Setting or clearing HOLD of a segment. -/
def setHold (m : Mem) (e : Env) (sg : Nat) (on : Bool) : Mem :=
  let v := rd64 m (segAddr e sg)
  wr64 m (segAddr e sg) (if on then v ||| (1#64 <<< 62) else v &&& ~~~(1#64 <<< 62))
/-- Memory whose n bytes from an address on are undefined: each a free value (R313, log entry 3). -/
def freeBytes (m : Mem) (k a n : Nat) : Mem := wrL m a ((upto n).map (fun j => (Config.freeValue (k + j)).setWidth 8))
/-- The move itself, once no transfer holds the segment (R313). -/
def migrMoveAll (c : Nat) (en : Entry) (t : Nat) (s : State) : Res Fin :=
  let e := s.env c
  let sg := (en.s 0).toNat
  let nb := (en.s 1).toNat
  let n := segAt s.mem e sg
  let len := n.len * 65536
  let bad := (s.badMem.filter (memWord n.base len)).map (fun w => 8 * w.idx)
  if let some pa := bad.min? then
    .stop ⟨.memUe, .st, BitVec.ofNat 64 pa, BitVec.ofNat 64 (arrOf pa)⟩
      (finAt t ({ s with mem := setHold (freeBytes s.mem s.free nb len) e sg false, free := s.free + len }.setMark c .st .fresh))
  else
    let s1 := s.moved n.base nb len
    let home := (homeOf nb).getD 0
    let d0 := putBits (putBits (rd64 s1.mem (segAddr e sg)) 61 60 home) 47 16 (nb / 65536)
    let s2 := s1.setMem (setHold (wr64 s1.mem (segAddr e sg) d0) e sg false)
    cmdEnd c en t [] s2
/-- MIGR (R313). -/
def bMigr : EBody := fun c en t s =>
  let e := s.env c
  let sg := (en.s 0).toNat
  let n := segAt s.mem e sg
  match en.mark with
  | .shipped _ => if n.busy ≠ 0 then .wait (finAt t s) else migrMoveAll c en t s
  | _ =>
    if sg < e.segn ∧ n.hold then .wait (finAt t s)
    else if migrBad e n sg (en.s 1).toNat then .stop (stopX .st .perm 3 0 0) (finAt t s)
    else
      let s1 := ({ s with mem := setHold s.mem e sg true }).setMark c .st (.shipped 0)
      if n.busy ≠ 0 then .wait (finAt t s1) else migrMoveAll c en t s1

end Sys2Proof.Machine
end

