-- ==== Sys2Proof/Machine/Vector.lean ====
section
/-!
DEFINITION. Sys2Proof/Machine/Vector.lean: what one repetition of each vector instruction does to its core (R133 to R168):
streams, activity, conversions, the mask stack, XR and the index maximum. The EX queue around it is in Machine/Engine.lean.
-/

namespace Sys2Proof.Machine
open Sys2Proof

end Sys2Proof.Machine

namespace Sys2Proof
open Sys2Proof.Machine

/-! ### Types (R133, R137) -/

/-- L, the lanes of a computation type (R133). -/
def VTy.lanes : VTy → Nat
  | .f32 => 64 | .f16 => 128 | .b16 => 128 | .i32 => 64 | .i16 => 128 | .i8 => 256 | .n32 => 64 | .n8 => 256
/-- The storage format of the type (R133). -/
def VTy.fmt : VTy → Nat
  | .f32 => 1 | .f16 => 2 | .b16 => 3 | .i32 => 6 | .i16 => 7 | .i8 => 8 | .n32 => 0x0A | .n8 => 0x0C
/-- The width in bits of an element of the type. -/
def VTy.bitsN (t : VTy) : Nat := fmtBits t.fmt
/-- Rounding a floating value in the type, with the flags of Round. -/
def VTy.round (t : VTy) (x : Ex) : Ex × Fl :=
  let r := roundF (ffOf t.fmt) .rne x
  (decF (ffOf t.fmt) r.1, r.2)

end Sys2Proof

namespace Sys2Proof.Machine
open Sys2Proof

/-- A lane's value in the computation type: a floating value, or the bits of an integer. -/
inductive Lane where
  | f (x : Ex)
  | i (b : Nat)
  deriving DecidableEq, Repr
/-- The exact value of a lane. -/
def Lane.ex (t : VTy) : Lane → Ex
  | .f x => x
  | .i b => exInt (decI t.fmt b)
/-- The bits of a lane in the type's storage format. -/
def Lane.bits (t : VTy) : Lane → Nat
  | .f x => (roundF (ffOf t.fmt) .rne x).1
  | .i b => b
/-- The format cannot be read under the type (R137). -/
def badRead (t : VTy) (f : Nat) : Bool := f == 0 || f == 0x18 || f == 0x19 || (!t.isFloat && !fmtAnyInt f)
/-- The format cannot be written from the type (R137). -/
def badWrite (t : VTy) (f : Nat) : Bool :=
  f == 0 || f == 0x18 || f == 0x19 || fmtBk f || (t.isFloat && fmtAnyInt f)
/-- A stream element read in the computation type (R137); flags are discarded. -/
def readLane (t : VTy) (x : Ex) : Lane :=
  if t.isFloat then .f (t.round x).1
  else match x with
    | .fin s n _ => .i (intBits t.bitsN (if s then -(n : Int) else n))
    | _ => .i 0
/-- A result written to a destination element, with its flags (R137). -/
def writeLane (t : VTy) (f : Nat) (v : Lane) : Nat × Fl :=
  match v with
  | .f x => roundF (ffOf f) .rne x
  | .i b =>
    if fmtFloat f then roundF (ffOf f) .rne (exInt (decI t.fmt b)) else (intBits (fmtBits f) (decI t.fmt b), 0)

/-! ### Masks (R141) -/

/-- Mask entry d (R141). -/
def Core.maskAt (c : Core) (d : Nat) : W256 := if d = 0 then BitVec.allOnes 256 else mget 0 c.v.stack d
/-- The top mask entry. -/
def Core.top (c : Core) : W256 := c.maskAt c.v.depth
/-- Writing the top entry. -/
def Core.setTop (c : Core) (m : W256) : Core := { c with v := { c.v with stack := mput 0 c.v.stack c.v.depth m } }
/-- Writing CMK: the lanes listed with their bits; every other bit becomes 0 (R142). -/
def Core.setCmk (c : Core) (ks : List Nat) : Core :=
  { c with v := { c.v with cmk := ks.foldl (fun m k => m ||| (1#256 <<< k)) 0 } }

/-! ### Streams (R134 to R136) -/

/-- A stream opened for one repetition: the physical handle, its image, its fields with normalised cursors, and the
half-byte addresses of the elements it delivers. -/
structure Src where
  reg  : Hreg
  img  : W256
  h    : HD
  ads  : List Nat
  deriving DecidableEq, Repr
/-- The cursor position k elements along dimension 0. -/
def HD.along (h : HD) (k : Nat) : List Nat := (h.i 0 + k) :: h.idx.drop 1
/-- The delivery count n (R134). -/
def Src.n (s : Src) : Nat := s.ads.length
/-- Opening a stream for vector length L: R31, Normalise and every address check (R134). -/
def openSrc (c : Core) (r : Hreg) (L : Nat) : Except Stop Src :=
  let img := c.getH r
  let h := HD.of img
  match h.stopOf .ex r with
  | some x => .error x
  | none =>
    match h.norm with
    | none => .error (stopH .ex r 0)
    | some ix =>
      let h := { h with idx := ix }
      let n := min L (h.e 0 - h.i 0)
      match h.addrs ((upto n).map h.along) with
      | .error a => .error (stopH .ex r a)
      | .ok ads => .ok ⟨r, img, h, ads⟩
/-- Opening several streams; a handle named twice is opened once (R136). Where its fields give two vector lengths (hd and ha of VRED
MAX, MIN and VEXPMAX), it is opened with the source's: the model's choice (log entry 91). -/
def openAll (c : Core) : List (Hreg × Nat) → Except Stop (List Src)
  | [] => .ok []
  | (r, L) :: t =>
    match openAll c t with
    | .error x => match openSrc c r L with
      | .error y => .error y
      | .ok _ => .error x
    | .ok l =>
      if l.any (fun s => s.reg == r) then .ok l
      else match openSrc c r L with
        | .error y => .error y
        | .ok s => .ok (s :: l)
/-- The opened stream of a handle. -/
def srcOf (l : List Src) (r : Hreg) : Src := (l.find? (fun s => s.reg == r)).getD ⟨r, 0, HD.of 0, []⟩
/-- The exact elements of a stream. -/
def Src.exact (s : Src) (m : Mem) : List AEl :=
  (upto s.n).map (fun k => elExact m s.h (s.h.along k) (nth 0 s.ads k))
/-- The bytes that the elements of a stream take. -/
def Src.spans (s : Src) : List (Nat × Nat) := s.h.spans ((upto s.n).map s.h.along) s.ads
/-- Checks of the reads of a repetition: MEM.UE (R420) and, in debug mode, EARLY.READ (R39) and LAYOUT (R140). -/
def readChecks (c : Core) (now : Nat) (l : List Src) : Option Stop :=
  l.findSome? (fun s =>
    let sp := s.ads.map s.h.span
    match sp.findSome? (fun x => c.padBad x.1 x.2) with
    | some a => some (stopUe .ex 0 a)
    | none =>
    match c.badTag s.h sp with
    | some x => some (stopL .ex s.h x)
    | none => sp.findSome? (fun x => c.earlyPad .ex (c.tracks s.h) now x.1 x.2))
/-- Checks of the scale words that the elements at some cursors read (R84): MEM.UE and, in debug mode, LAYOUT and
EARLY.READ. -/
def scaleChecks (c : Core) (now : Nat) (h : HD) (ixs : List (List Nat)) : Option Stop :=
  if fmtBk h.fmt then (ixs.map h.scaleAddr).findSome? (fun a => match c.padBad a 2 with
    | some b => some (stopUe .ex 0 b)
    | none => match c.badTag h [(a, 2)] with
      | some x => some (stopL .ex h x)
      | none => c.earlyPad .ex (c.tracks h) now a 2)
  else none
/-- What a repetition works on: the opened streams and the scratchpad as it reads it. -/
structure VIn where
  l : List Src
  m : Mem
  deriving DecidableEq, Repr
/-- What a repetition gives: the core, whether its first stream reached its end, and its flags; a stop; or a wait, with the
scratchpad as it has read it when only its writes wait. -/
inductive VOut where
  | done (k : Core) (ended : Bool) (fl : Fl)
  | stop (x : Stop)
  | wait (k : Core) (seen : Option Mem)
/-- Opening the streams of a repetition: read streams `rs`, written streams `ws`, each with its vector length; every check is made
before any effect (R134). In an interlocked region the granules that it reads are waited for (R35, R138), unless it has read them
already. The order of the causes that one repetition meets, HANDLE, MEM.UE, LAYOUT, EARLY.READ, and after the wait FORMAT (R137), is
the model's (log entry 90). -/
def vOpen (c : Core) (now : Nat) (seen : Option Mem) (rs ws : List (Hreg × Nat)) : Except (Option Stop) VIn :=
  match openAll c (ws ++ rs) with
  | .error x => .error (some x)
  | .ok l =>
    match seen with
    | some m => .ok ⟨l, m⟩
    | none =>
      let rd := l.filter (fun s => rs.any (fun r => r.1 == s.reg))
      match (readChecks c now rd).orElse (fun _ => rd.findSome? (fun s => scaleChecks c now s.h ((upto s.n).map s.h.along))) with
      | some x => .error (some x)
      | none => if rd.any (fun s => c.fetRead s.h s.spans) then .error none else .ok ⟨l, c.padAt now⟩
/-- The lanes of a repetition that are active in the streams given and, when the instruction obeys masks, in the top
entry (R135). -/
def actives (c : Core) (masked : Bool) (L : Nat) (ss : List Src) : List Nat :=
  (upto L).filter (fun k => ss.all (fun s => k < s.n) && (!masked || c.top.getLsbD k))
/-- Writing elements of a stream, lane by lane: bytes, full/empty bits and layout tags. -/
def writeEls (c : Core) (due : Nat) (s : Src) (vals : List (Nat × Nat)) : Core :=
  vals.foldl (fun c kv =>
    let a := nth 0 s.ads kv.1
    let e := s.h.span a
    (c.putDue .ex due a s.h.half kv.2).tag s.h.layout e.1 e.2) c
/-- Every stream of a repetition advances by its own delivery count (R134, R135). The answer says whether stream `first` reached its
end. -/
def vClose (c : Core) (l : List Src) (first : Option Hreg) : Core × Bool :=
  l.foldl (fun (ce : Core × Bool) s =>
    let a := s.h.adv s.h.idx s.n
    (ce.1.setH s.reg (setIdx s.img a.1), ce.2 || (a.2 && first == some s.reg))) (c, false)
/-- The granules of the streams a repetition reads are emptied when it has read their last bytes (R35); what it reads is corrected
(R421). -/
def vTake (c : Core) (i : VIn) (rs : List (Hreg × Nat)) : Core :=
  (i.l.filter (fun s => rs.any (fun r => r.1 == s.reg))).foldl (fun c s => (c.corrPad s.spans).drain s.h s.spans) c
/-- One repetition (R134 to R138, R146): its streams are opened and checked, its reads are made, and, once the granules that it writes
are empty (R35), `go` computes and writes. `lanes` are the lanes it writes of each stream, `chk` what stops it before any effect. -/
def vRep (c : Core) (now : Nat) (seen : Option Mem) (rs ws : List (Hreg × Nat)) (chk : VIn → Option Stop)
    (lanes : VIn → List Nat) (go : Core → VIn → Core × Fl) : VOut :=
  match vOpen c now seen rs ws with
  | .error (some x) => .stop x
  | .error none => .wait c none
  | .ok i =>
    match chk i with
    | some x => .stop x
    | none =>
      let k := if seen.isSome then c else vTake c i rs
      let ks := lanes i
      let sp (s : Src) : List (Nat × Nat) := s.h.spans (ks.map s.h.along) (ks.map (nth 0 s.ads))
      let ds := i.l.filter (fun s => ws.any (fun r => r.1 == s.reg))
      if ds.any (fun s => k.fetWrite s.h (sp s)) then .wait k (some i.m)
      else
        let r := go { k with sleep := .awake } i
        let e := vClose (r.1.sees k.sleep (if k.interlocked then ds.flatMap sp else [])) i.l (rs.head?.map (·.1))
        .done e.1 e.2 r.2

/-! ### Lane-wise instructions -/

/-- The lanes of a source read in the type. -/
def lanesOf (t : VTy) (m : Mem) (s : Src) : List Lane := (s.exact m).map (fun e => readLane t e.x)
/-- The FORMAT stop of a stream that the type cannot read or write. -/
def fmtStop (t : VTy) (l : List Src) (rs ws : List Hreg) : Option Stop :=
  l.findSome? (fun s =>
    if (rs.contains s.reg && badRead t s.h.fmt) || (ws.contains s.reg && badWrite t s.h.fmt) then
      some (stopF .ex s.h.fmt) else none)
/-- Writing the bits that some lanes get, with their flags. -/
def putLanes (k : Core) (due : Nat) (d : Src) (out : List (Nat × Nat × Fl)) : Core × Fl :=
  (writeEls k due d (out.map (fun o => (o.1, o.2.1))), out.foldl (fun f o => f ||| o.2.2) 0)
/-- A repetition that writes each active lane of hd on its own: its bits with its flags. -/
def perLane (c : Core) (now lat : Nat) (seen : Option Mem) (L : Nat) (hd : Hreg) (rs : List Hreg) (chk : VIn → Option Stop)
    (val : VIn → Nat → Nat × Fl) : VOut :=
  vRep c now seen (rs.map (·, L)) [(hd, L)] chk (fun i => actives c true L i.l) (fun k i =>
    putLanes k (now + lat) (srcOf i.l hd) ((actives c true L i.l).map (fun j => (j, val i j))))
/-- A lane-wise repetition (R146): sources read in the type, each active lane computed by `op`, the result written to hd. -/
def laneWise (c : Core) (now lat : Nat) (seen : Option Mem) (t : VTy) (hd : Hreg) (rs : List Hreg) (op : List Lane → Lane × Fl) :
    VOut :=
  perLane c now lat seen t.lanes hd rs (fun i => fmtStop t i.l rs [hd]) (fun i j =>
    let o := op (rs.map (fun r => nth (.i 0) (lanesOf t i.m (srcOf i.l r)) j))
    let w := writeLane t (srcOf i.l hd).h.fmt o.1
    (w.1, o.2 ||| w.2))
/-- Lifting an exact floating operation and a bit operation to lanes. -/
def arith (t : VTy) (f : Ex × Fl) (b : Int) : Lane × Fl :=
  if t.isFloat then let r := t.round f.1; (.f r.1, f.2 ||| r.2) else (.i (intBits t.bitsN b), 0)
/-- The integer a lane holds in the type. -/
def Lane.int (t : VTy) : Lane → Int
  | .i b => decI t.fmt b
  | .f _ => 0
/-- Lanes a, b, d of an operand list. -/
def l0 (l : List Lane) : Lane := nth (.i 0) l 0
/-- Second operand. -/
def l1 (l : List Lane) : Lane := nth (.i 0) l 1
/-- Third operand. -/
def l2 (l : List Lane) : Lane := nth (.i 0) l 2
/-- VADD (R148). -/
def opAdd (t : VTy) (l : List Lane) : Lane × Fl :=
  arith t (exAdd ((l0 l).ex t) ((l1 l).ex t)) ((l0 l).int t + (l1 l).int t)
/-- VSUB (R148). -/
def opSub (t : VTy) (l : List Lane) : Lane × Fl :=
  arith t (exSub ((l0 l).ex t) ((l1 l).ex t)) ((l0 l).int t - (l1 l).int t)
/-- VMUL (R148). -/
def opMul (t : VTy) (l : List Lane) : Lane × Fl :=
  arith t (exMul ((l0 l).ex t) ((l1 l).ex t)) ((l0 l).int t * (l1 l).int t)
/-- VFMA: operands a, b, d (R148). -/
def opFma (t : VTy) (l : List Lane) : Lane × Fl :=
  arith t (exFma ((l2 l).ex t) ((l0 l).ex t) ((l1 l).ex t)) ((l2 l).int t + (l0 l).int t * (l1 l).int t)
/-- VDIV (R148). -/
def opDiv (t : VTy) (l : List Lane) : Lane × Fl := arith t (exDiv ((l0 l).ex t) ((l1 l).ex t)) 0
/-- VMIN (R148). -/
def opMin (t : VTy) (l : List Lane) : Lane × Fl :=
  if t.isFloat then (.f (exMin ((l0 l).ex t) ((l1 l).ex t)), 0)
  else (if (l1 l).int t < (l0 l).int t then l1 l else l0 l, 0)
/-- VMAX (R148). -/
def opMax (t : VTy) (l : List Lane) : Lane × Fl :=
  if t.isFloat then (.f (exMax ((l0 l).ex t) ((l1 l).ex t)), 0)
  else (if (l0 l).int t < (l1 l).int t then l1 l else l0 l, 0)
/-- VABS (R148). -/
def opAbs (t : VTy) (l : List Lane) : Lane × Fl :=
  if t.isFloat then (.f (exAbs ((l0 l).ex t)), 0) else (.i (intBits t.bitsN ((l0 l).int t).natAbs), 0)
/-- VNEG (R148). -/
def opNeg (t : VTy) (l : List Lane) : Lane × Fl :=
  if t.isFloat then (.f (exNeg ((l0 l).ex t)), 0) else (.i (intBits t.bitsN (-(l0 l).int t)), 0)
/-- VAND, VOR, VXOR (R149). -/
def opBits (t : VTy) (g : Nat → Nat → Nat) (l : List Lane) : Lane × Fl := (.i (g ((l0 l).bits t) ((l1 l).bits t)), 0)
/-- The shift count: b's lane modulo the width (R149). -/
def shCount (t : VTy) (l : List Lane) : Nat := (l1 l).bits t % t.bitsN
/-- VSHL (R149). -/
def opShl (t : VTy) (l : List Lane) : Lane × Fl := (.i ((l0 l).bits t * 2 ^ shCount t l % 2 ^ t.bitsN), 0)
/-- VSHR (R149). -/
def opShr (t : VTy) (l : List Lane) : Lane × Fl := (.i ((l0 l).bits t / 2 ^ shCount t l), 0)
/-- VSRA (R149). -/
def opSra (t : VTy) (l : List Lane) : Lane × Fl :=
  (.i (intBits t.bitsN (sext t.bitsN ((l0 l).bits t) / 2 ^ shCount t l)), 0)
/-- VMOV (R151). -/
def opMov (l : List Lane) : Lane × Fl := (l0 l, 0)
/-- VEXP2, VTANH: one rounding of the exact value (R156). -/
def opFn (t : VTy) (g : Ex → Ex × Fl) (l : List Lane) : Lane × Fl := arith t (g ((l0 l).ex t)) 0
/-- VDIV has latency 14 (R148), VFMA 8, the special functions 14, simple operations 6 (R38). -/
def latSimple : Nat := 6
/-- VFMA (R38). -/
def latFma : Nat := 8
/-- VDIV, VQNT and the special functions (R38, R148, R154). -/
def latFn : Nat := 14
/-- VRED, VSCAN, VEXPMAX (R38, R168). -/
def latRed : Nat := 10

/-! ### Compare, select, classify (R150 to R152) -/

/-- The condition of VCMP in a type, with the unordered bit (R54). -/
def condLane (t : VTy) (k : Cond) (un : Bool) (a b : Lane) : Bool :=
  if t.isFloat then
    let x := a.ex t
    let y := b.ex t
    if exNan x || exNan y then un || k == .ne
    else match k with
      | .eq => exEq x y | .ne => !exEq x y | .lt => exLt x y | .le => !exLt y x
      | .gt => exLt y x | .ge => !exLt x y | _ => false
  else
    let x := a.int t
    let y := b.int t
    let u := a.bits t
    let v := b.bits t
    match k with
    | .eq => x == y | .ne => x != y | .lt => x < y | .le => x ≤ y | .gt => y < x | .ge => y ≤ x
    | .ltn => u < v | .len => u ≤ v | .gtn => v < u | .gen => v ≤ u
    | .any => (u &&& v) != 0 | .all => (u &&& v) == v
/-- One repetition of VCMP (R150). -/
def repCmp (c : Core) (now : Nat) (seen : Option Mem) (t : VTy) (un : Bool) (k : Cond) (ha hb : Hreg) : VOut :=
  vRep c now seen [(ha, t.lanes), (hb, t.lanes)] [] (fun i => fmtStop t i.l [ha, hb] []) (fun _ => []) (fun q i =>
    let as := lanesOf t i.m (srcOf i.l ha)
    let bs := lanesOf t i.m (srcOf i.l hb)
    (q.setCmk ((actives c true t.lanes i.l).filter (fun j => condLane t k un (nth (.i 0) as j) (nth (.i 0) bs j))), 0))
/-- One repetition of VSEL: lane k takes a when bit k of CMK is 1 (R151). -/
def repSel (c : Core) (now : Nat) (seen : Option Mem) (t : VTy) (hd ha hb : Hreg) : VOut :=
  perLane c now latSimple seen t.lanes hd [ha, hb] (fun i => fmtStop t i.l [ha, hb] [hd]) (fun i j =>
    writeLane t (srcOf i.l hd).h.fmt (nth (.i 0) (lanesOf t i.m (srcOf i.l (if c.v.cmk.getLsbD j then ha else hb))) j))
/-- The class of an element: nan 0, inf 1, zero 2, sub 3, norm 4 (R152). -/
def classOf (f : Nat) (x : Ex) : Nat :=
  match x with
  | .nan => 0
  | .inf _ => 1
  | .fin _ n d =>
    if n = 0 then 2
    else if fmtBk f then 4
    else if ilog2 n d < 1 - ((ffOf f).bias : Int) then 3 else 4
/-- One repetition of VCLASS (R152). -/
def repClass (c : Core) (now : Nat) (seen : Option Mem) (t : VTy) (s : BitVec 5) (ha : Hreg) : VOut :=
  vRep c now seen [(ha, t.lanes)] []
    (fun i => let f := (srcOf i.l ha).h.fmt; if fmtFloat f || fmtBk f then none else some (stopF .ex f)) (fun _ => []) (fun q i =>
      let a := srcOf i.l ha
      let es := a.exact i.m
      (q.setCmk ((actives c true t.lanes i.l).filter (fun k => s.getLsbD (classOf a.h.fmt (nth ⟨.nan, 0⟩ es k).x))), 0))

/-! ### Conversion and quantisation (R153 to R155) -/

/-- VCVT of one exact element to a format (R153). -/
def cvtEl (f : Nat) (mode : RMode) (sat : Bool) (x : Ex) : Nat × Fl :=
  if fmtAnyInt f then toFmtInt f mode sat x
  else
    let ff := ffOf f
    let r := roundF ff mode x
    if sat then
      match x with
      | .inf neg => (largestBits ff neg, fOF)
      | .fin neg _ _ => if r.2 &&& fOF ≠ 0 then (largestBits ff neg, r.2 ||| fOF ||| fNX) else r
      | .nan => r
    else r
/-- One repetition of VCVT (R153). R153 names block-scaled sources and then refuses a BK format at either end (log entry 9). -/
def repCvt (c : Core) (now : Nat) (seen : Option Mem) (t : VTy) (mode : RMode) (sat : Bool) (hd ha : Hreg) : VOut :=
  let bad (i : VIn) (r : Hreg) : Option Stop :=
    let f := (srcOf i.l r).h.fmt
    if fmtFloat f || fmtAnyInt f then none else some (stopF .ex f)
  perLane c now latSimple seen t.lanes hd [ha] (fun i => (bad i ha).orElse (fun _ => bad i hd)) (fun i j =>
    cvtEl (srcOf i.l hd).h.fmt mode sat (nth ⟨.nan, 0⟩ ((srcOf i.l ha).exact i.m) j).x)
/-- VQNT of one quotient to an integer or floating format (R154). -/
def qntEl (f : Nat) (q : Ex × Fl) : Nat × Fl :=
  if fmtAnyInt f then let r := toFmtInt f .rne true q.1; (r.1, r.2 ||| q.2)
  else
    let ff := ffOf f
    match q.1 with
    | .nan => (nanBits ff, q.2)
    | .inf neg => (largestBits ff neg, q.2 ||| fOF)
    | .fin neg _ _ =>
      let r := roundF ff .rne q.1
      if r.2 &&& fOF ≠ 0 then (largestBits ff neg, q.2 ||| fOF ||| fNX) else (r.1, q.2 ||| r.2)
/-- The active lanes of the block that begins at lane 32·b of a vector, given the cursor's place in dimension 0. -/
def blockLanes (act : List Nat) (b : Nat) : List Nat := act.filter (fun k => k / 32 = b)
/-- Writing one quantised block: mantissas of the lanes given and the scale word, with its flags (R84, R154). -/
def writeBlock (c : Core) (due : Nat) (s : Src) (ks : List Nat) (xs : List Ex) : Core × Fl :=
  match ks with
  | [] => (c, 0)
  | k :: _ =>
    let q := quantBlock s.h.fmt xs
    let c1 := writeEls c due s ((upto ks.length).map (fun j => (nth 0 ks j, intBits (4 * s.h.half) (nth 0 q.2.1 j))))
    let sa := s.h.scaleAddr (s.h.along k)
    ((c1.storeDue .ex due sa (toLE 2 q.1)).tag s.h.layout sa 2, q.2.2)
/-- What stops VQNT by its destination (R154). -/
def qntStop (d : Src) : Option Stop :=
  let df := d.h.fmt
  if !(df == 7 || df == 8 || df == 9 || df == 0x0C || (2 ≤ df && df ≤ 5) || fmtBk df) then some (stopF .ex df)
  else if fmtBk df && d.h.i 0 % 32 != 0 then some (stopH .ex d.reg 0) else none
/-- One repetition of VQNT (R154). -/
def repQnt (c : Core) (now : Nat) (seen : Option Mem) (t : VTy) (hd ha hb : Hreg) : VOut :=
  vRep c now seen [(ha, t.lanes), (hb, t.lanes)] [(hd, t.lanes)]
    (fun i => (fmtStop t i.l [ha, hb] []).orElse (fun _ => qntStop (srcOf i.l hd))) (fun i => actives c true t.lanes i.l) (fun k i =>
      let d := srcOf i.l hd
      let as := lanesOf t i.m (srcOf i.l ha)
      let bs := lanesOf t i.m (srcOf i.l hb)
      let act := actives c true t.lanes i.l
      let q (k : Nat) := exDiv ((nth (.i 0) as k).ex t) ((nth (.i 0) bs k).ex t)
      if fmtBk d.h.fmt then
        let w := (upto (cdiv t.lanes 32)).foldl (fun (a : Core × Fl) b =>
          let ks := blockLanes act b
          let w := writeBlock a.1 (now + latFn) d ks (ks.map (fun k => (q k).1))
          (w.1, a.2 ||| w.2)) (k, 0)
        (w.1, act.foldl (fun f k => f ||| (q k).2) w.2)
      else putLanes k (now + latFn) d (act.map (fun k => (k, qntEl d.h.fmt (q k)))))
/-- One repetition of VDQNT (R155). -/
def repDqnt (c : Core) (now : Nat) (seen : Option Mem) (t : VTy) (hd ha hb : Hreg) : VOut :=
  perLane c now latSimple seen t.lanes hd [ha, hb]
    (fun i => let f := (srcOf i.l ha).h.fmt
      if f == 0 || f == 0x18 || f == 0x19 then some (stopF .ex f) else fmtStop t i.l [hb] [hd]) (fun i j =>
      let p := exMul (nth ⟨.nan, 0⟩ ((srcOf i.l ha).exact i.m) j).x ((nth (.i 0) (lanesOf t i.m (srcOf i.l hb)) j).ex t)
      let r := t.round p.1
      let w := writeLane t (srcOf i.l hd).h.fmt (.f r.1)
      (w.1, p.2 ||| r.2 ||| w.2))

/-! ### Reductions and scans (R157 to R163) -/

/-- Adding a value to XR (R96, R157). -/
def Core.xrAdd (c : Core) (x : Ex) : Core :=
  let r := cellAdd c.v.xrF c.v.xrSt x
  { c with v := { c.v with xrF := r.1, xrSt := r.2 } }
/-- The reading of XR rounded once to the type (R159): bits of the lane with its flags. -/
def Core.xrLane (c : Core) (t : VTy) : Lane × Fl :=
  let r := cellRead c.v.xrF c.v.xrSt
  if t.isFloat then let y := t.round r.1; (.f y.1, r.2 ||| y.2)
  else let y := toFmtInt t.fmt .rne true r.1; (.i y.1, r.2 ||| y.2)
/-- One repetition of VRED SUM (R158). -/
def repSum (c : Core) (now : Nat) (seen : Option Mem) (t : VTy) (ha : Hreg) : VOut :=
  vRep c now seen [(ha, t.lanes)] [] (fun i => fmtStop t i.l [ha] []) (fun _ => []) (fun k i =>
    let as := lanesOf t i.m (srcOf i.l ha)
    ((actives c true t.lanes i.l).foldl (fun k j => k.xrAdd ((nth (.i 0) as j).ex t)) k, 0))
/-- One repetition of VRED MAX or MIN: one element to hd; nothing when no lane is active (R135, R158). -/
def repExt (c : Core) (now : Nat) (seen : Option Mem) (t : VTy) (op : VTy → List Lane → Lane × Fl) (hd ha : Hreg) : VOut :=
  let act (i : VIn) : List Nat := actives c true t.lanes [srcOf i.l ha]
  vRep c now seen [(ha, t.lanes)] [(hd, 1)] (fun i => fmtStop t i.l [ha] [hd]) (fun i => (act i).take 1 |>.map (fun _ => 0))
    (fun k i =>
      let as := lanesOf t i.m (srcOf i.l ha)
      let d := srcOf i.l hd
      match (act i).map (fun k => nth (.i 0) as k) with
      | [] => (k, 0)
      | v :: vs => putLanes k (now + latRed) d [(0, writeLane t d.h.fmt (vs.foldl (fun a b => (op t [a, b]).1) v))])
/-- One repetition of VRED MAXI (R163). -/
def repMaxi (c : Core) (now : Nat) (seen : Option Mem) (hd : Hreg) : VOut :=
  vRep c now seen [] [(hd, 2)]
    (fun i => let f := (srcOf i.l hd).h.fmt; if f = 0x0A then none else some (stopF .ex f)) (fun i => upto (srcOf i.l hd).n) (fun k i =>
      let d := srcOf i.l hd
      let best := k.v.amx.foldl (fun (b : Option (BitVec 32 × BitVec 32)) p =>
        match b with
        | none => some p.2
        | some q => if totalGreater (val32 p.2.1) p.2.2.toNat (val32 q.1) q.2.toNat then some p.2 else some q) none
      let r := best.getD (0x7FC00000, 0xFFFFFFFF)
      let k1 := writeEls k (now + latRed) d ((upto d.n).map (fun k => (k, if k = 0 then r.2.toNat else r.1.toNat)))
      let k2 := k1.setSr 0x14A (if exNan (val32 r.1) then 1 else 0)
      ({ k2 with v := { k2.v with amx := [] } }, 0))
/-- One repetition of VXRD (R159). -/
def repXrd (c : Core) (now : Nat) (seen : Option Mem) (t : VTy) (hd : Hreg) : VOut :=
  vRep c now seen [] [(hd, 1)] (fun i => fmtStop t i.l [] [hd]) (fun _ => [0]) (fun k i =>
    let d := srcOf i.l hd
    let r := k.xrLane t
    let w := writeLane t d.h.fmt r.1
    let k1 := writeEls k (now + latSimple) d [(0, w.1)]
    ({ k1 with v := { k1.v with xrF := 0, xrSt := 0 } }, r.2 ||| w.2))
/-- One repetition of VSCAN (R160). -/
def repScan (c : Core) (now : Nat) (seen : Option Mem) (t : VTy) (hd ha : Hreg) : VOut :=
  vRep c now seen [(ha, t.lanes)] [(hd, t.lanes)] (fun i => fmtStop t i.l [ha] [hd]) (fun i => actives c true t.lanes i.l) (fun k i =>
    let as := lanesOf t i.m (srcOf i.l ha)
    let d := srcOf i.l hd
    let r := (actives c true t.lanes i.l).foldl (fun (s : Core × List (Nat × Nat × Fl)) k =>
      let c1 := s.1.xrAdd ((nth (.i 0) as k).ex t)
      let v := c1.xrLane t
      let w := writeLane t d.h.fmt v.1
      (c1, s.2 ++ [(k, w.1, v.2 ||| w.2)])) (k, [])
    putLanes r.1 (now + latRed) d r.2)
/-- One repetition of VMAXI (R162). -/
def repMaxiUp (c : Core) (now : Nat) (seen : Option Mem) (ha : Hreg) : VOut :=
  vRep c now seen [(ha, 64)] [] (fun i => fmtStop .f32 i.l [ha] []) (fun _ => []) (fun k i =>
    let a := srcOf i.l ha
    let as := lanesOf .f32 i.m a
    ((actives c true 64 i.l).foldl (fun c k =>
      let v := BitVec.ofNat 32 ((nth (.i 0) as k).bits .f32)
      let ix := (a.h.pos + k) % 2 ^ 32
      let take := match mfind c.v.amx k with
        | none => true
        | some q => totalGreater (val32 v) ix (val32 q.1) q.2.toNat
      if take then { c with v := { c.v with amx := mset c.v.amx k (v, BitVec.ofNat 32 ix) } } else c) k, 0))

/-! ### Lane movement and generators (R164 to R168) -/

/-- One repetition of VPERM (R164). -/
def repPerm (c : Core) (now : Nat) (seen : Option Mem) (t : VTy) (hd ha hb : Hreg) : VOut :=
  vRep c now seen [(ha, t.lanes), (hb, t.lanes)] [(hd, t.lanes)]
    (fun i => let f := (srcOf i.l hb).h.fmt; if fmtAnyInt f then fmtStop t i.l [ha] [hd] else some (stopF .ex f))
    (fun i => actives c true t.lanes [srcOf i.l hd, srcOf i.l hb]) (fun k i =>
      let b := srcOf i.l hb
      let d := srcOf i.l hd
      let as := lanesOf t i.m (srcOf i.l ha)
      let js := (b.exact i.m).map (fun e => match e.x with
        | .fin s n _ => (if s then -(n : Int) else n) % (t.lanes : Int) |>.toNat
        | _ => 0)
      let z : Lane := if t.isFloat then .f (.fin false 0 1) else .i 0
      putLanes k (now + latSimple) d ((actives c true t.lanes [d, b]).map (fun k => (k, writeLane t d.h.fmt (nth z as (nth 0 js k))))))
/-- One repetition of VBCAST or VIOTA: each active lane k of hd receives `val k` (R165, R166); `val` sees the position of
hd before the write. -/
def repGen (c : Core) (now : Nat) (seen : Option Mem) (t : VTy) (hd : Hreg) (val : Nat → Nat → Lane) : VOut :=
  perLane c now latSimple seen t.lanes hd [] (fun i => fmtStop t i.l [] [hd]) (fun i j =>
    let d := srcOf i.l hd
    let v := val d.h.pos j
    let fl : Fl := match v with | .f x => (t.round x).2 | .i _ => 0
    let v' := match v with | .f x => Lane.f (t.round x).1 | .i b => .i b
    let w := writeLane t d.h.fmt v'
    (w.1, fl ||| w.2))
/-- The element of a type that the low bits of a scalar hold (R165). -/
def laneOfBits (t : VTy) (v : Nat) : Lane :=
  if t.isFloat then .f (decF (ffOf t.fmt) (v % 2 ^ t.bitsN)) else .i (v % 2 ^ t.bitsN)
/-- The lane of a position index (R166). -/
def iotaLane (t : VTy) (p k : Nat) : Lane := if t.isFloat then .f (exInt (p + k)) else .i ((p + k) % 2 ^ t.bitsN)
/-- The mixing rounds of VRNG (R167). -/
def rngMix (y : BitVec 32) : Nat → BitVec 32 → BitVec 32
  | 0, x => x
  | n + 1, x =>
    let i := 5 - n
    let x := x + y + BitVec.ofNat 32 (i * 0x9E3779B9)
    let x := x ^^^ (x >>> 16)
    let x := x * 0x85EBCA6B
    let x := x ^^^ (x >>> 13)
    rngMix y n x
/-- The uniform of a counter and a key (R167). -/
def rngVal (x y : BitVec 32) : Ex := .fin false (2 * ((rngMix y 6 x).toNat / 512) + 1) (2 ^ 24)
/-- One repetition of VRNG (R167). -/
def repRng (c : Core) (now : Nat) (seen : Option Mem) (hd ha hb : Hreg) : VOut :=
  let bad (i : VIn) (r : Hreg) : Option Stop := let f := (srcOf i.l r).h.fmt; if fmtAnyInt f then none else some (stopF .ex f)
  let nat (e : AEl) : BitVec 32 := match e.x with
    | .fin s n _ => BitVec.ofInt 32 (if s then -(n : Int) else n)
    | _ => 0
  perLane c now latSimple seen 64 hd [ha, hb] (fun i => firstStop [bad i ha, bad i hb, fmtStop .f32 i.l [] [hd]]) (fun i j =>
    let at' (r : Hreg) : BitVec 32 := nat (nth ⟨.nan, 0⟩ ((srcOf i.l r).exact i.m) j)
    let w := writeLane .f32 (srcOf i.l hd).h.fmt (.f (rngVal (at' ha) (at' hb)))
    (w.1, 0))
/-- The exponent that VEXPMAX finds (R168). -/
def expMax (xs : List Ex) : Int :=
  if xs.any (fun x => !exFin x) then 0x7FFFFFFF
  else xs.foldl (fun a x => match exLog x with
    | some l => if a = -0x80000000 then l else max a l
    | none => a) (-0x80000000)
/-- One repetition of VEXPMAX (R168). -/
def repExpMax (c : Core) (now : Nat) (seen : Option Mem) (t : VTy) (hd ha : Hreg) : VOut :=
  vRep c now seen [(ha, t.lanes)] [(hd, 1)]
    (fun i =>
      let fa := (srcOf i.l ha).h.fmt
      let fd := (srcOf i.l hd).h.fmt
      if !(fmtFloat fa || fmtBk fa) then some (stopF .ex fa) else if fd ≠ 6 then some (stopF .ex fd) else none) (fun _ => [0])
    (fun k i =>
      let a := srcOf i.l ha
      let es := a.exact i.m
      let v := expMax ((actives c true t.lanes [a]).map (fun k => (nth ⟨.nan, 0⟩ es k).x))
      (writeEls k (now + latRed) (srcOf i.l hd) [(0, intBits 32 v)], 0))

/-! ### The mask instructions (R143, R144) -/

/-- The MASK stop (R143, R245). -/
def stopMask (c : Core) : Stop := ⟨.mask, .ex, 0, BitVec.ofNat 64 c.v.depth⟩
/-- MPUSH (R143). -/
def doMpush (c : Core) : Res Core :=
  if c.v.depth = 15 then .stop (stopMask c) c
  else
    let m := c.top &&& c.v.cmk
    .ok (Core.setTop { c with v := { c.v with depth := c.v.depth + 1 } } m)
/-- MINV (R143). -/
def doMinv (c : Core) : Res Core :=
  if c.v.depth = 0 then .stop (stopMask c) c else .ok (c.setTop (c.maskAt (c.v.depth - 1) &&& ~~~c.top))
/-- MPOP (R143). -/
def doMpop (c : Core) : Res Core :=
  if c.v.depth = 0 then .stop (stopMask c) c else .ok { c with v := { c.v with depth := c.v.depth - 1 } }
/-- MSET (R143). -/
def doMset (c : Core) (fl : Bool) (q : BitVec 2) (v : W64) : Res Core :=
  if c.v.depth = 0 then .stop (stopMask c) c
  else if fl then .ok (c.setTop (v ++ v ++ v ++ v))
  else .ok (c.setTop ((c.top &&& ~~~((BitVec.setWidth 256 (BitVec.allOnes 64)) <<< (64 * q.toNat))) |||
    (v.setWidth 256 <<< (64 * q.toNat))))
/-- The number of 1 bits. -/
def popCount {w : Nat} (x : BitVec w) : Nat := ((upto w).filter (fun k => x.getLsbD k)).length
/-- MGET (R143, R145). -/
def doMget (c : Core) : Res Core :=
  .ok ((c.setSr 0x148 (BitVec.ofNat 64 (popCount c.top + 2 ^ 16 * c.v.depth))).setSr 0x149 (if c.top = 0 then 0 else 1))
/-- VSKIP (R144). -/
def doVskip (c : Core) (n : BitVec 12) : Res Core :=
  .ok (if c.top = 0 then { c with v := { c.v with skip := n.toNat } } else c)

/-! ### Repetition (R147) -/

/-- The repetitions of a repeat code; for xend more than any stream has vectors. -/
def repCount : Rep → Nat
  | .x1 => 1 | .x4 => 4 | .x16 => 16 | .xend => 2 ^ 60

end Sys2Proof.Machine
end

