-- ==== Sys2Proof/Machine/VecBody.lean ====
section
/-!
DEFINITION. Sys2Proof/Machine/VecBody.lean: what each vector and mask instruction does at the EX (R143 to R168): its
repetitions in order, one per cycle and turn of the EX (R37, R147), and its latency.
-/

namespace Sys2Proof.Machine
open Sys2Proof

/-- What an entry's mark says of the repetitions of a vector instruction (R147): those still to run, the flags of those done, and what
the next one has read. -/
def repsLeft (en : Entry) (rp : Rep) : Nat × Fl × Option Mem :=
  match en.mark with
  | .reps n fl seen => (n, fl, seen)
  | _ => (repCount rp, 0, none)
/-- One repetition of a vector instruction in cycle t (R37, R146, R147): after its last one it completes with the flags of all (R43);
until then, the repetitions still to run stay in its entry, and the next starts in the cycle after. -/
def vecBody (rp : Rep) (lat : Nat) (rep : Option Mem → Core → Nat → VOut) : EBody := fun c en t s =>
  let m := repsLeft en rp
  match rep m.2.2 (s.core c) t with
  | .done k ended fl =>
    let f := m.2.1 ||| fl
    if (rp == .xend && ended) || m.1 ≤ 1 then .ok ⟨s.setCore c (k.flagsAt (t + lat) f), t + 1, t + lat⟩
    else .wait ⟨((s.setCore c k).setMark c .ex (.reps (m.1 - 1) f none)).upCore c (fun k => k.setEngAt .ex (t + 1)), t + 1, t + 1⟩
  | .stop x => .stop x ⟨s.setMark c .ex (.reps m.1 m.2.1 m.2.2), t, t⟩
  | .wait k seen => .wait ⟨(s.setCore c k).setMark c .ex (.reps m.1 m.2.1 seen), t, t⟩

/-- VADD (R148). -/
def bVadd (hd ha hb : Hreg) (ty : VTy) (rp : Rep) : EBody :=
  vecBody rp latSimple (fun o k now => laneWise k now latSimple o ty hd [ha, hb] (opAdd ty))
/-- VSUB (R148). -/
def bVsub (hd ha hb : Hreg) (ty : VTy) (rp : Rep) : EBody :=
  vecBody rp latSimple (fun o k now => laneWise k now latSimple o ty hd [ha, hb] (opSub ty))
/-- VMUL (R148). -/
def bVmul (hd ha hb : Hreg) (ty : VTy) (rp : Rep) : EBody :=
  vecBody rp latSimple (fun o k now => laneWise k now latSimple o ty hd [ha, hb] (opMul ty))
/-- VFMA: hd is read as a third stream (R136, R148). -/
def bVfma (hd ha hb : Hreg) (ty : VTy) (rp : Rep) : EBody :=
  vecBody rp latFma (fun o k now => laneWise k now latFma o ty hd [ha, hb, hd] (opFma ty))
/-- VDIV (R148). -/
def bVdiv (hd ha hb : Hreg) (ty : VTy) (rp : Rep) : EBody :=
  vecBody rp latFn (fun o k now => laneWise k now latFn o ty hd [ha, hb] (opDiv ty))
/-- VMIN (R148). -/
def bVmin (hd ha hb : Hreg) (ty : VTy) (rp : Rep) : EBody :=
  vecBody rp latSimple (fun o k now => laneWise k now latSimple o ty hd [ha, hb] (opMin ty))
/-- VMAX (R148). -/
def bVmax (hd ha hb : Hreg) (ty : VTy) (rp : Rep) : EBody :=
  vecBody rp latSimple (fun o k now => laneWise k now latSimple o ty hd [ha, hb] (opMax ty))
/-- VABS (R148). -/
def bVabs (hd ha : Hreg) (ty : VTy) (rp : Rep) : EBody :=
  vecBody rp latSimple (fun o k now => laneWise k now latSimple o ty hd [ha] (opAbs ty))
/-- VNEG (R148). -/
def bVneg (hd ha : Hreg) (ty : VTy) (rp : Rep) : EBody :=
  vecBody rp latSimple (fun o k now => laneWise k now latSimple o ty hd [ha] (opNeg ty))
/-- VAND (R149). -/
def bVand (hd ha hb : Hreg) (ty : VTy) (rp : Rep) : EBody :=
  vecBody rp latSimple (fun o k now => laneWise k now latSimple o ty hd [ha, hb] (opBits ty (fun a b => a &&& b)))
/-- VOR (R149). -/
def bVor (hd ha hb : Hreg) (ty : VTy) (rp : Rep) : EBody :=
  vecBody rp latSimple (fun o k now => laneWise k now latSimple o ty hd [ha, hb] (opBits ty (fun a b => a ||| b)))
/-- VXOR (R149). -/
def bVxor (hd ha hb : Hreg) (ty : VTy) (rp : Rep) : EBody :=
  vecBody rp latSimple (fun o k now => laneWise k now latSimple o ty hd [ha, hb] (opBits ty (fun a b => a ^^^ b)))
/-- VSHL (R149). -/
def bVshl (hd ha hb : Hreg) (ty : VTy) (rp : Rep) : EBody :=
  vecBody rp latSimple (fun o k now => laneWise k now latSimple o ty hd [ha, hb] (opShl ty))
/-- VSHR (R149). -/
def bVshr (hd ha hb : Hreg) (ty : VTy) (rp : Rep) : EBody :=
  vecBody rp latSimple (fun o k now => laneWise k now latSimple o ty hd [ha, hb] (opShr ty))
/-- VSRA (R149). -/
def bVsra (hd ha hb : Hreg) (ty : VTy) (rp : Rep) : EBody :=
  vecBody rp latSimple (fun o k now => laneWise k now latSimple o ty hd [ha, hb] (opSra ty))
/-- VCMP (R150). -/
def bVcmp (un : Bool) (cond : Cond) (ha hb : Hreg) (ty : VTy) (rp : Rep) : EBody :=
  vecBody rp latSimple (fun o k now => repCmp k now o ty un cond ha hb)
/-- VSEL (R151). -/
def bVsel (hd ha hb : Hreg) (ty : VTy) (rp : Rep) : EBody :=
  vecBody rp latSimple (fun o k now => repSel k now o ty hd ha hb)
/-- VMOV (R151). -/
def bVmov (hd ha : Hreg) (ty : VTy) (rp : Rep) : EBody :=
  vecBody rp latSimple (fun o k now => laneWise k now latSimple o ty hd [ha] (opMov))
/-- VCVT (R153). -/
def bVcvt (hd ha : Hreg) (sat : Bool) (mode : RMode) (ty : VTy) (rp : Rep) : EBody :=
  vecBody rp latSimple (fun o k now => repCvt k now o ty mode sat hd ha)
/-- VQNT (R154). -/
def bVqnt (hd ha hb : Hreg) (ty : VTy) (rp : Rep) : EBody :=
  vecBody rp latFn (fun o k now => repQnt k now o ty hd ha hb)
/-- VDQNT (R155). -/
def bVdqnt (hd ha hb : Hreg) (ty : VTy) (rp : Rep) : EBody :=
  vecBody rp latSimple (fun o k now => repDqnt k now o ty hd ha hb)
/-- VLOG2 (R156). -/
def bVlog2 (hd ha : Hreg) (ty : VTy) (rp : Rep) : EBody :=
  vecBody rp latFn (fun o k now => laneWise k now latFn o ty hd [ha] (opFn ty exLog2))
/-- VEXP2 (R156). -/
def bVexp2 (hd ha : Hreg) (ty : VTy) (rp : Rep) : EBody :=
  vecBody rp latFn (fun o k now => laneWise k now latFn o ty hd [ha] (opFn ty (fun x => (exExp2 x, 0))))
/-- VRCP (R156). -/
def bVrcp (hd ha : Hreg) (ty : VTy) (rp : Rep) : EBody :=
  vecBody rp latFn (fun o k now => laneWise k now latFn o ty hd [ha] (opFn ty exRcp))
/-- VRSQ (R156). -/
def bVrsq (hd ha : Hreg) (ty : VTy) (rp : Rep) : EBody :=
  vecBody rp latFn (fun o k now => laneWise k now latFn o ty hd [ha] (opFn ty exRsqrt))
/-- VSQRT (R156). -/
def bVsqrt (hd ha : Hreg) (ty : VTy) (rp : Rep) : EBody :=
  vecBody rp latFn (fun o k now => laneWise k now latFn o ty hd [ha] (opFn ty exSqrt))
/-- VTANH (R156). -/
def bVtanh (hd ha : Hreg) (ty : VTy) (rp : Rep) : EBody :=
  vecBody rp latFn (fun o k now => laneWise k now latFn o ty hd [ha] (opFn ty (fun x => (exTanh x, 0))))
/-- VCLASS (R152). -/
def bVclass (ha : Hreg) (set : BitVec 5) (ty : VTy) (rp : Rep) : EBody :=
  vecBody rp latSimple (fun o k now => repClass k now o ty set ha)
/-- VRED SUM (R158). -/
def bVredSum (ha : Hreg) (ty : VTy) (rp : Rep) : EBody :=
  vecBody rp latRed (fun o k now => repSum k now o ty ha)
/-- VRED MAX (R158). -/
def bVredMax (hd ha : Hreg) (ty : VTy) (rp : Rep) : EBody :=
  vecBody rp latRed (fun o k now => repExt k now o ty opMax hd ha)
/-- VRED MIN (R158). -/
def bVredMin (hd ha : Hreg) (ty : VTy) (rp : Rep) : EBody :=
  vecBody rp latRed (fun o k now => repExt k now o ty opMin hd ha)
/-- VRED MAXI (R163). -/
def bVredMaxi (hd : Hreg) (rp : Rep) : EBody :=
  vecBody rp latRed (fun o k now => repMaxi k now o hd)
/-- VXRD (R159). -/
def bVxrd (hd : Hreg) (ty : VTy) (rp : Rep) : EBody :=
  vecBody rp latSimple (fun o k now => repXrd k now o ty hd)
/-- VSCAN (R160). -/
def bVscan (hd ha : Hreg) (ty : VTy) (rp : Rep) : EBody :=
  vecBody rp latRed (fun o k now => repScan k now o ty hd ha)
/-- VPERM (R164). -/
def bVperm (hd ha hb : Hreg) (ty : VTy) (rp : Rep) : EBody :=
  vecBody rp latSimple (fun o k now => repPerm k now o ty hd ha hb)
/-- VBCAST (R165): the scalar read at routing. -/
def bVbcast (hd : Hreg) (ty : VTy) (rp : Rep) : EBody := fun c en t s =>
  vecBody rp latSimple (fun o k now => repGen k now o ty hd (fun _ _ => laneOfBits ty (nth 0 en.sv 0).toNat)) c en t s
/-- VIOTA (R166). -/
def bViota (hd : Hreg) (ty : VTy) (rp : Rep) : EBody :=
  vecBody rp latSimple (fun o k now => repGen k now o ty hd (iotaLane ty))
/-- VRNG (R167). -/
def bVrng (hd ha hb : Hreg) (rp : Rep) : EBody :=
  vecBody rp latSimple (fun o k now => repRng k now o hd ha hb)
/-- VEXPMAX (R168). -/
def bVexpmax (hd ha : Hreg) (ty : VTy) (rp : Rep) : EBody :=
  vecBody rp latRed (fun o k now => repExpMax k now o ty hd ha)
/-- VMAXI (R162). -/
def bVmaxi (ha : Hreg) (rp : Rep) : EBody :=
  vecBody rp latSimple (fun o k now => repMaxiUp k now o ha)
/-- MPUSH (R143). -/
def bMpush : EBody := coreBody 1 doMpush
/-- MINV (R143). -/
def bMinv : EBody := coreBody 1 doMinv
/-- MPOP (R143). -/
def bMpop : EBody := coreBody 1 doMpop
/-- MSET (R143): the scalar read at routing. -/
def bMset (fl : Bool) (q : BitVec 2) : EBody := fun c en t s =>
  coreBody 1 (fun k => doMset k fl q (nth 0 en.sv 0)) c en t s
/-- MGET (R143). -/
def bMget : EBody := coreBody 1 doMget
/-- VSKIP (R144). -/
def bVskip (n : BitVec 12) : EBody := coreBody 1 (fun k => doVskip k n)

end Sys2Proof.Machine
end

