-- ==== Sys2Proof/Machine/Links.lean ====
section
/-!
DEFINITION. Sys2Proof/Machine/Links.lean: the Lupen links (R408 to R418): route words, sending in a slot, hops, arrivals
with their discards, and what LINK.SEND, LINK.RED and LINK.RECV do at their engines.
-/

namespace Sys2Proof.Machine
open Sys2Proof

/-! ### Route words and hops (R408 to R410) -/

/-- DCORE. -/
def routeCore (r : W64) : Nat := bits r 63 56
/-- CHAN. -/
def routeChan (r : W64) : Nat := bits r 55 48
/-- HOPS. -/
def routeHops (r : W64) : Nat := bits r 41 38
/-- ORG. -/
def routeOrg (r : W64) : Nat := bits r 37 34
/-- The exit port of hop k for a transfer that entered on port i; none for turn 3 (R410). -/
def exitPort (r : W64) (k i : Nat) : Option Nat :=
  match bits r (2 * k - 1) (2 * k - 2) with
  | 0 => some ((i + 6) % 12)
  | 1 => some ((i + 9) % 12)
  | 2 => some ((i + 3) % 12)
  | _ => none
/-- A route word that LINK.SEND and LINK.RED refuse (R415). -/
def routeBad (r : W64) : Bool :=
  routeHops r = 0 || 11 < routeOrg r || bits r 47 42 ≠ 0 || bits r 33 30 ≠ 0
/-- The first port of a route. -/
def firstPort (r : W64) : Option Nat := exitPort r 1 (routeOrg r)

/-! ### The slot counter (R408, R423) and collective records (R425) -/

/-- A record turns to its next exit port, where it waits; one that meets turn 3 or a port that is retired or uncabled is dropped (R410,
R425). -/
def State.recTurn (s : State) (x : CollHop) : State :=
  match exitPort x.route (x.hop + 1) x.entry with
  | none => s
  | some port =>
    if Config.deadPort port then s
    else { s with links := { s.links with recs := s.links.recs ++ [(port, { x with hop := x.hop + 1 })] } }
/-- A record of this package leaves on its group's route (R425). -/
def State.sendRecord (s : State) (route : W64) (r : CollRec) : State := s.recTurn ⟨route, 0, routeOrg route, r⟩
/-- The order in which records pass a port in one slot: those issued on the package first, then by entry port (R425). -/
def recRank (x : CollHop) : Nat := (if x.hop = 1 then 0 else 12) + x.entry
/-- The record that passes a port next; of two that one rank waits, the older (log entry 110). -/
def recFirst (l : List (Nat × CollHop)) (port : Nat) : Option (Nat × CollHop) :=
  (l.filter (fun x => x.1 == port)).foldl (fun m x => match m with
    | none => some x
    | some y => if recRank x.2 < recRank y.2 then some x else m) none
/-- The guard time of slot q: at most one record leaves by each port, and the others wait for the next slot (R425). -/
def Links.recSlot (l : Links) (q : Nat) : Links :=
  let go := (upto 12).filterMap (recFirst l.recs)
  { l with recs := go.foldl List.erase l.recs, recOut := l.recOut ++ go.map (fun x => (x.1, q, x.2)) }
/-- The guard times of n slots from slot q on. -/
def Links.recSlots : Nat → Nat → Links → Links
  | 0, _, l => l
  | n + 1, q, l => Links.recSlots n (q + 1) (l.recSlot q)
/-- The slot counter reaches slot q: waiting records have left, and LSCH writes have taken effect when a slot with q mod 64 = 0 has begun
since (R423, R425). -/
def State.reachSlot (s : State) (q : Nat) : State :=
  let l := s.links
  if q ≤ l.lsc then s
  else
    let s1 := { s with links := { Links.recSlots (min (q - l.lsc) l.recs.length) l.lsc l with lsc := q } }
    if l.lsc / 64 = q / 64 then s1
    else l.later.foldl (fun s w => s.upPart w.1 (fun pt => pt.setSr w.2.1 w.2.2)) { s1 with links := { s1.links with later := [] } }

/-- LNK.STAT with n added to the field at bits lo + 15:lo, saturating (R422). -/
def linkCount (lo n : Nat) (v : W64) : W64 := putBits v (lo + 15) lo (sat 0xFFFF (bits v (lo + 15) lo + n))
/-- Counting in LNK.STAT of a partition of this package: LATE 0, DISC 16, CRC 32. -/
def State.linkStat (s : State) (p lo n : Nat) : State :=
  if noPart ≤ p ∨ n = 0 then s else s.upPart p (fun pt => pt.setSr 0x1E3 (linkCount lo n (pt.getSr 0x1E3)))
/-- The order in which transfers of one slot pass a port: those issued on the package first, then by entry port (R412). -/
def xferRank (x : LinkXfer) : Nat := (if x.hop = 1 then 0 else 12) + x.entry
/-- Leaving on a port in the transfer's slot: at most one transfer passes, the other is discarded (R412). The transfer's
hop counts the turn it has made. -/
def State.linkExit (s : State) (port : Nat) (x : LinkXfer) : State :=
  match s.links.out.find? (fun o => o.1 == port && o.2.slot == x.slot) with
  | none => { s with links := { s.links with out := s.links.out ++ [(port, x)] } }
  | some o =>
    if xferRank o.2 ≤ xferRank x then s.linkStat x.part 16 1
    else
      let rest := s.links.out.filter (fun y => !(y.1 == port && y.2.slot == x.slot))
      { s with links := { s.links with out := rest ++ [(port, x)] } }.linkStat o.2.part 16 1
/-- Turning a transfer to its next exit port: turn 3 and a port that is retired or uncabled discard it (R412). -/
def State.linkTurn (s : State) (x : LinkXfer) : State :=
  match exitPort x.route (x.hop + 1) x.entry with
  | none => s.linkStat x.part 16 1
  | some port =>
    if Config.deadPort port then s.linkStat x.part 16 1
    else s.linkExit port { x with hop := x.hop + 1 }
/-- Insertion of an arrived transfer in slot order, and within a slot in order of entry port (R414). -/
def linkIns (x : LinkXfer) : List LinkXfer → List LinkXfer
  | [] => [x]
  | y :: t => if x.slot < y.slot ∨ (x.slot = y.slot ∧ x.entry < y.entry) then x :: y :: t else y :: linkIns x t
/-- Delivery to the destination core: outside the partitions of the sender's link tenant, or as a fifth held transfer, it is
discarded (R412, R414). -/
def State.linkDeliver (s : State) (x : LinkXfer) : State :=
  let d := routeCore x.route
  let p := s.partNo d
  let held := mget [] s.links.held d
  if p = noPart ∨ ((s.part p).getSr 0x260).toNat % 2 ^ 16 ≠ x.tenant ∨ 4 ≤ held.length then s.linkStat x.part 16 1
  else { s with links := { s.links with held := mset s.links.held d (linkIns x held) } }.linkStat p 32 x.resent
/-- A transfer that arrives on a port after `hop` turns: it is turned, or delivered after HOPS turns (R410). -/
def State.linkHopIn (s : State) (x : LinkXfer) (port : Nat) : State :=
  let x := { x with entry := port }
  if routeHops x.route ≤ x.hop then s.linkDeliver x else s.linkTurn x

/-! ### Blocks (R416, R417) -/

/-- A block is a NaN block (R83). -/
def blockNan (b : BkBlock) : Bool := 511 ≤ b.scale
/-- Adding two blocks (R417). -/
def blockAdd (a b : BkBlock) : BkBlock :=
  if blockNan a || blockNan b then ⟨511, a.m.map (fun _ => 0)⟩
  else if a.m.all (· == 0) then b
  else if b.m.all (· == 0) then a
  else
    let sc := max (min a.scale b.scale) (max a.scale b.scale - 48)
    let part (s : Nat) (m : Int) : Int :=
      if sc ≤ s then m * 2 ^ (s - sc) else roundInt .rne (decide (m < 0)) m.natAbs (2 ^ (sc - s))
    ⟨sc, (upto a.m.length).map (fun j => part a.scale (nth 0 a.m j) + part b.scale (nth 0 b.m j))⟩
/-- Requantising a block to BK8 (R85). -/
def blockNarrow (b : BkBlock) : BkBlock :=
  let q := quantBlock 0x10 (b.m.map (bkVal b.scale))
  ⟨q.1, q.2.1⟩
/-- The blocks of a tile in position order: runs of positions within one row and one block of 32 (R84), each position with its number. -/
def tileBlocks (h : HD) : List (List (Nat × List Nat)) :=
  let key (x : Nat × List Nat) : List Nat := (nth 0 x.2 0 / 32) :: x.2.drop 1
  let app (l : List (List (Nat × List Nat))) (x : Nat × List Nat) : List (List (Nat × List Nat)) :=
    match l with
    | [] => [[x]]
    | b :: t => if (b.head?.map key) = some (key x) then (b ++ [x]) :: t else [x] :: b :: t
  (((h.tile.zipIdx).map (fun x => (x.2, x.1))).foldl app []).reverse
/-- The blocks of a BK8 tile that has been read, as a partial: a place the tile does not fill holds 0. -/
def partialOf (h : HD) (vals : List (Nat × Nat)) : List BkBlock :=
  (tileBlocks h).map (fun b =>
    ⟨(nth (0, 0) vals (((b.head?).map (·.1)).getD 0)).2, (upto 32).map (fun j =>
      match b.find? (fun x => nth 0 x.2 0 % 32 = j) with
      | some x => sext 8 (nth (0, 0) vals x.1).1
      | none => 0)⟩)

/-! ### LINK.SEND and LINK.RED (R415, R416) -/

/-- The partition owns the residue of slot q on a port (R423). -/
def Part.ownsSlot (p : Part) (port : Nat) (q : W64) : Bool := (p.getSr (0x261 + port)).getLsbD (q.toNat % 64)
/-- Wire size of a LINK.RED (R415). -/
def redBytes (h : HD) (rq : Bool) : Nat := (tileBlocks h).length * if rq then 34 else 258
/-- The checks of LINK.SEND and LINK.RED at the FE: route word, wire size, slot ownership (R415). -/
def linkCheck (s : State) (c : Nat) (size : HD → Nat) (red : Bool) (en : Entry) : Option Stop :=
  let h := HD.of (en.h 0)
  let r := hReg en.i 0
  firstStop [
    match h.stopOf .fe r with
    | some x => some x
    | none => if red ∧ h.fmt ≠ 0x10 then some (stopF .fe h.fmt) else tileStop .fe r h,
    if routeBad (en.s 0) then some ⟨.handle, .fe, 0, 0⟩ else none,
    if 16384 < size h then some (stopH .fe r 0) else none,
    match firstPort (en.s 0) with
    | none => none
    | some p => if (s.part (s.partNo c)).ownsSlot p (en.s 1) then none else some (stopX .fe .perm 4 0 0),
    flagStop en.i (en.s 3)]
/-- The slot in which a send asked for slot q leaves, and whether it is late (R416). -/
def sendSlot (now q : Nat) : Nat × Bool := if now < q then (q, false) else (q + 64 * ((now - q) / 64 + 1), true)
/-- The transfer of a send in the slot chosen, kept until that slot (R416). -/
def State.linkAdmit (s : State) (c : Nat) (en : Entry) (body : LinkBody) : State :=
  let p := s.partNo c
  let q := sendSlot s.links.lsc (en.s 1).toNat
  let x : LinkXfer := ⟨en.s 0, 0, q.1, p, ((s.part p).getSr 0x260).toNat % 2 ^ 16, routeOrg (en.s 0), body, 0, false⟩
  let s1 := if q.2 then s.linkStat p 0 1 else s
  { s1 with links := { s1.links with sends := mset s1.links.sends c x } }.setMark c .st (.slotted q.1)
/-- The slot comes: the transfer leaves its first port and the instruction completes (R409, R416). -/
def linkLeave (c : Nat) (en : Entry) (t : Nat) (s : State) : Res Fin :=
  match mfind s.links.sends c with
  | none => cmdEnd c en t [] s
  | some x =>
    let s1 := s.reachSlot x.slot
    cmdEnd c en t [] ({ s1 with links := { s1.links with sends := mdel s1.links.sends c } }.linkTurn x)
/-- The first half of LINK.SEND: the source is read. -/
def sendAdmit : EBody := fun c en t s =>
  let h := HD.of (en.h 0)
  tileRun .st c t h false h.places (CSt.gone .st c t) (fun vals x =>
    let v := tileNum h vals
    .ok (finAt t (x.s.linkAdmit c en (.plain (toLE v.2 v.1))))) ⟨s, en.moving⟩
/-- The oldest held transfer of a core on a channel, among plain ones and partials or partials alone. -/
def State.linkFirst (s : State) (c chan : Nat) (partialOnly : Bool) : Option LinkXfer :=
  (mget [] s.links.held c).find? (fun x => routeChan x.route == chan &&
    (!partialOnly || match x.body with | .part .. => true | .plain _ => false))
/-- Taking a held transfer. -/
def State.linkTake (s : State) (c : Nat) (x : LinkXfer) : State :=
  { s with links := { s.links with held := mset s.links.held c ((mget [] s.links.held c).erase x) } }
/-- A bad transfer is discarded with MEM.UE, and the runtime is told (R413). -/
def linkBad (c t : Nat) (src : Strm) (x : LinkXfer) (s : State) : Res Fin :=
  .stop ⟨.memUe, src, 0, 9⟩ (finAt t ((s.linkTake c x).irq 6))
/-- The first half of LINK.RED: the partial is formed, an arriving one is added, and the result is narrowed or not. -/
def redAdmit (rq inn : Bool) : EBody := fun c en t s =>
  let h := HD.of (en.h 0)
  tileRun .st c t h true h.places (CSt.gone .st c t) (fun vals x =>
    let mine := partialOf h vals
    let send (s : State) (bs : List BkBlock) : Res Fin :=
      .ok (finAt t (s.linkAdmit c en (.part (!rq) (if rq then bs.map blockNarrow else bs))))
    if inn then
      match x.s.linkFirst c (routeChan (en.s 0)) true with
      | none => x.waits .st c t
      | some y =>
        if y.bad then linkBad c t .st y (x.s.setMark c .st .fresh)
        else match y.body with
          | .plain _ => x.waits .st c t
          | .part _ bs =>
            if bs.length ≠ mine.length then CSt.gone .st c t (stopH .st (hReg en.i 0) 0) x
            else send (x.s.linkTake c y) ((mine.zip bs).map (fun p => blockAdd p.1 p.2))
    else send x.s mine) ⟨s, en.moving⟩
/-- A send from its mark on: the first half, then the slot. -/
def sendBody (first : EBody) : EBody := fun c en t s =>
  match en.mark with
  | .slotted _ => linkLeave c en t s
  | _ => (first c en t s).andThen (fun f => linkLeave c en t f.s)
/-- The first half alone, for a schedule that lets time pass before the slot. -/
def sendHalf (first : EBody) : EBody := fun c en t s =>
  match en.mark with
  | .slotted _ => linkLeave c en t s
  | _ => (first c en t s).andThen (fun f => .wait f)
/-- LINK.SEND. -/
def bLinkSend : EBody := sendBody sendAdmit
/-- LINK.RED. -/
def bLinkRed (rq inn : Bool) : EBody := sendBody (redAdmit rq inn)

/-! ### LINK.RECV (R418) -/

/-- What the positions of a block of the tile take from a block of a partial: BK8 bits with the block's scale, or FP32 with flags. -/
def blockVals (h : HD) (wide : Bool) (ixs : List (Nat × List Nat)) (b : BkBlock) : List (Nat × Nat) × Fl :=
  let bk := fmtBk h.fmt
  let q := if bk ∧ wide then blockNarrow b else b
  (ixs.map (fun x => let m := nth 0 q.m (nth 0 x.2 0 % 32)
    if bk then (intBits 8 m, q.scale) else ((rne32 (bkVal b.scale m)).1.toNat, 0)),
   if bk then 0 else ixs.foldl (fun f x => f ||| (rne32 (bkVal b.scale (nth 0 q.m (nth 0 x.2 0 % 32)))).2) 0)
/-- LINK.RECV's transfer, taken: the tile lands granule by granule, then the status is written (R418). The mark holds the status, the
half-bytes that land, and the values. -/
def recvLand (b : Sreg) (c : Nat) (en : Entry) (t : Nat) (x : CSt) : Res Fin :=
  let h := HD.of (en.h 0)
  let n := nth 0 x.m.rows 1
  let bk := fmtBk h.fmt && n % 2 = 1
  let ps := if n % 2 = 1 then h.pieces bk true (h.places.take (n / 2)) else fillPieces h (n / 2)
  let vs := (x.s.core c).landings h ps
  let val (key : Nat) : Nat := if key % 2 = 0 then (nth (0, 0) x.m.vals (key / 2)).1 else (nth (0, 0) x.m.vals (key / 2)).2
  actRun .ld c t vs (fun x v => landVisit c t h v val x) (CSt.gone .ld c t) (fun x => copyEnd c en t
    { x with s := x.s.upCore c (fun k => k.setS b (BitVec.ofNat 64 (nth 0 x.m.rows 0))) })
    { x with m := { x.m with gs := granulesOf vs } }
/-- The transfer that a LINK.RECV of the core on a channel can take: the oldest held one, unless an older LINK.RECV waits for it (R418). -/
def State.recvOf (s : State) (c : Nat) (en : Entry) : Option LinkXfer :=
  let chan := bits (en.s 0) 7 0
  if ((s.core c).older en).any (fun x => x.mark == .await && bits (x.s 0) 7 0 == chan) then none else s.linkFirst c chan false
/-- LINK.RECV. Without a transfer it leaves its queue and waits; younger LD commands go on (R418). -/
def bLinkRecv (b : Sreg) : EBody := fun c en t s =>
  let h := HD.of (en.h 0)
  if en.moving.rows ≠ [] then recvLand b c en t ⟨s, en.moving⟩
  else match s.recvOf c en with
  | none => .wait (finAt t (s.upCore c (fun k => k.fly .ld { en with mark := .await } t)))
  | some x =>
    if x.bad then linkBad c t .ld x s
    else
      let s1 := s.linkTake c x
      match x.body with
      | .plain bs =>
        let n := min bs.length (tileBytes h)
        let v := bs.length + (if tileBytes h < bs.length then 2 ^ 63 else 0)
        let w := leNat (bs.take n)
        recvLand b c en t ⟨s1, { rows := [v, 2 * (2 * n)], vals := (upto h.places.length).map (fun k => (payloadVal h w (2 * k), 0)) }⟩
      | .part wide bs =>
        if h.fmt ≠ 0x10 ∧ h.fmt ≠ 1 then .stop (stopF .ld h.fmt) (finAt t s)
        else
          let r := ((tileBlocks h).zip bs).map (fun p => blockVals h wide p.1 p.2)
          let vals := r.flatMap (·.1)
          recvLand b c en t ⟨s1, { rows := [bs.length, 2 * vals.length + 1], vals := vals, fl := r.foldl (fun f x => f ||| x.2) 0 }⟩
/-- The checks of LINK.RECV at the FE (R415). -/
def recvCheck (en : Entry) : Option Stop :=
  let h := HD.of (en.h 0)
  let r := hReg en.i 0
  firstStop [
    match h.stopOf .fe r with
    | some x => some x
    | none => tileStop .fe r h,
    if 256 ≤ (en.s 0).toNat then some ⟨.handle, .fe, 0, 0⟩ else none,
    flagStop en.i (en.s 3)]

end Sys2Proof.Machine
end

