-- ==== Sys2Proof/Machine/Matrix.lean ====
section
/-!
DEFINITION. Sys2Proof/Machine/Matrix.lean: the matrix array (R194 to R219) with the Kiln's check of its instructions (R376,
R377): lease, anchors, tiles and chains, ownership, epilogue, and the top-k state (R318, R319).
-/

namespace Sys2Proof.Machine
open Sys2Proof

/-! ### Regions of handles (R209) -/

/-- The cursors of element (i, j) of a matrix operand: row i, column j. -/
def HD.at (h : HD) (i j : Nat) : List Nat := [h.i 0 + j, h.i 1 + i, h.i 2, h.i 3, h.i 4]
/-- The cursors of a region of m rows and n columns, row by row. -/
def HD.region (h : HD) (m n : Nat) : List (List Nat) := (upto m).flatMap (fun i => (upto n).map (h.at i))
/-- The addresses of cursors, or HANDLE (R30). -/
def matAddrs (r : Hreg) (h : HD) (ixs : List (List Nat)) : Except Stop (List Nat) :=
  match h.addrs ixs with
  | .ok l => .ok l
  | .error a => .error (stopH .ex r a)
/-- Reading elements of a region at cycle t, with the checks of R140, R39 and R420. -/
def matRead (k : Core) (t : Nat) (r : Hreg) (h : HD) (ixs : List (List Nat)) : Except Stop (List AEl) :=
  match matAddrs r h ixs with
  | .error x => .error x
  | .ok ads =>
    match (readChecks k t [⟨r, 0, h, ads⟩]).orElse (fun _ => scaleChecks k t h ixs) with
    | some x => .error x
    | none =>
      let m := k.padAt t
      .ok ((ixs.zip ads).map (fun p => elExact m h p.1 p.2))
/-- The words that elements of a region take are corrected as they are read (R421). -/
def Core.corrTile (k : Core) (h : HD) (ixs : List (List Nat)) : Core :=
  if k.weak.isEmpty then k else k.corrPad (h.spans ixs (ixs.filterMap (fun ix => (h.addr ix).toOption)))
/-- Writing elements of a region, due in cycle `due`; in an interlocked region a write that completes a granule sets it full
(R209). -/
def matWrite (k : Core) (due : Nat) (r : Hreg) (h : HD) (ads : List Nat) (vals : List Nat) : Core :=
  let put (k : Core) : Core := writeEls k due ⟨r, 0, h, ads⟩ ((upto vals.length).map (fun j => (j, nth 0 vals j)))
  if k.interlocked then k.atOnce (ads.map h.span) put else put k
/-- The extents hold m rows and n columns from the cursors. -/
def HD.holds (h : HD) (m n : Nat) : Bool := decide (h.i 0 + n ≤ h.e 0) && decide (h.i 1 + m ≤ h.e 1)

/-! ### Tiles, slots and their ownership (R202, R205, R208) -/

/-- Tile acc. -/
def Core.tile (k : Core) (acc : BitVec 1) : Tile := if acc = 0 then k.acc0 else k.acc1
/-- Replacing a tile. -/
def Core.setTile (k : Core) (acc : BitVec 1) (t : Tile) : Core := if acc = 0 then { k with acc0 := t } else { k with acc1 := t }
/-- Element (i, j). -/
def Tile.get (t : Tile) (i j : Nat) : Elem := mget elem0 t.el (128 * i + j)
/-- The state of R205, ownership apart. -/
def Tile.cleared (t : Tile) : Tile := { Tile.reset with busy := t.busy }
/-- Element (i, j) reads as NaN. -/
def Tile.nf (t : Tile) (i j : Nat) : Bool := t.rnf.contains i || t.cnf.contains j
/-- e(i, j) (R206); 0 when no chain is open. -/
def Tile.exp (t : Tile) (i j : Nat) : Int :=
  match t.sides with
  | none => 0
  | some (a, b) => mget 0 t.xa i - ((a.w : Int) - 1) + mget 0 t.xb j - ((b.w : Int) - 1)
/-- The instructions that own a tile in cycle t, oldest first: the first cycle in which each no longer does, its address, and
whether it is an MMA (R208). -/
def Tile.owners (tl : Tile) (t : Nat) : List (Nat × W64 × Bool) := tl.busy.filter (fun x => t < x.1)
/-- Taking ownership of a tile from cycle now until cycle fin (R208). -/
def Tile.own (tl : Tile) (now fin : Nat) (pc : W64) (mma : Bool) : Tile := { tl with busy := tl.owners now ++ [(fin, pc, mma)] }
/-- The start of an access to a tile: at once, later in an interlocked region, or ACC.BUSY in a static one, which names the oldest
instruction in flight on it. The MMAs of a chain do not hold back an MMA: what ends a chain is itself an owner (R208). -/
def tileStart (k : Core) (acc : BitVec 1) (mma : Bool) (t : Nat) : Except Stop Nat :=
  let own := (k.tile acc).owners t
  match own.filter (fun x => !(mma && x.2.2)) with
  | [] => .ok t
  | l => if k.interlocked then .ok (l.foldl (fun u x => max u x.1) t)
    else .error ⟨.accBusy, .ex, (own.head?.map (fun x => x.2.1)).getD 0, BitVec.ofNat 64 acc.toNat⟩
/-- The slot that a RELAX or RELAX.B names. -/
def relaxG : Instr → Option Gslot
  | .relax _ _ g .. => some g
  | .relaxB _ _ _ _ _ _ _ g _ => some g
  | _ => none
/-- A RELAX that runs at the head of the EX, with its entry. -/
def Core.relaxing (k : Core) : Option (Entry × RelaxProg) :=
  match k.eng.ex with
  | [] => none
  | en :: _ => match en.mark with
    | .relax p => if p.started then some (en, p) else none
    | _ => none
/-- The slot that a running RELAX owns (R225). -/
def Core.relaxSlot (k : Core) : Option Nat := (k.relaxing.bind (fun x => relaxG x.1.i)).map (fun g => g.toNat)
/-- Another core of the cluster whose running RELAX owns a slot (R225). -/
def State.slotRelax (s : State) (c g : Nat) : Bool :=
  [4 * (c / 4), 4 * (c / 4) + 1, 4 * (c / 4) + 2, 4 * (c / 4) + 3].any (fun d => d ≠ c && (s.core d).relaxSlot == some g)
/-- A glaze load of the cluster that has begun on a slot, with its core and address (R187). -/
def State.slotLoader (s : State) (c g : Nat) : Option (Nat × W64) :=
  [4 * (c / 4), 4 * (c / 4) + 1, 4 * (c / 4) + 2, 4 * (c / 4) + 3].findSome? (fun d =>
    match (s.core d).eng.ld with
    | [] => none
    | en :: _ =>
      let here := match en.i with
        | .ldG _ _ _ _ _ _ _ x => decide (x.toNat = g)
        | .ldGt _ _ _ _ _ _ _ x => decide (x.toNat = g)
        | _ => false
      if here && !decide (en.mark = .fresh) then some (d, en.pc) else none)
/-- ACC.BUSY of a slot (R208). -/
def slotBusyStop (g : Nat) (pc : W64) : Stop := ⟨.accBusy, .ex, pc, BitVec.ofNat 64 (2 + 4 * g)⟩
/-- The start of an access to a slot: at once, later, waiting for a load or a RELAX of another core, or ACC.BUSY, which names the
oldest instruction of this core in flight on it, or 0 for another core's (R202, R208, R225). -/
def slotStart (s : State) (c g t : Nat) : Except Stop (Option Nat) :=
  let k := s.core c
  let own := ((s.clu (c / 4)).slot g).busy.filter (fun x => t < x.1)
  match s.slotLoader c g with
  | some (o, pc) => if k.interlocked then .ok none else .error (slotBusyStop g (if o = c then pc else 0))
  | none =>
    if s.slotRelax c g then (if k.interlocked then .ok none else .error (slotBusyStop g 0))
    else match own with
      | [] => .ok (some t)
      | x :: _ => if k.interlocked then .ok (some (own.foldl (fun u y => max u y.1) t))
        else .error (slotBusyStop g (if x.2.2 = c then x.2.1 else 0))
/-- An uncorrectable glaze word under a column read (R420): its byte offset. -/
def State.glazeBad (s : State) (c j lo n : Nat) : Option Nat :=
  (s.badMem.find? (fun w => w.arr == .glaze (c / 4) j && decide (lo < 8 * w.idx + 8 ∧ 8 * w.idx < lo + n))).map (fun w => 8 * w.idx)

/-! ### The lease (R195 to R198) -/

/-- HELD. -/
def Core.heldLease (k : Core) : Bool := (k.getSr 0x140).getLsbD 8
/-- BUDGET. -/
def Core.budget (k : Core) : Nat := bits (k.getSr 0x140) 6 0
/-- Setting BUDGET. -/
def Core.setBudget (k : Core) (n : Nat) : Core := k.setSr 0x140 (putBits (k.getSr 0x140) 6 0 n)
/-- The first of some cores after `last`, round-robin (R195). -/
def nextWaiting (last : Nat) (ws : List Nat) : Option Nat := [1, 2, 3, 4].findSome? (fun d =>
  if ws.contains ((last + d) % 4) then some ((last + d) % 4) else none)
/-- The core that holds a cluster's array in cycle t: a grant of which nothing is left ends with the occupancy of its last array
instruction (R195, R196, R211). -/
def Cluster.heldBy (u : Cluster) (t : Nat) : Option Nat := if u.left = 0 ∧ u.arrayAt ≤ t then none else u.holder
/-- The budget of a grant to a core whose next array instruction takes a share: that share without HELD, else what MX.LEASE still
shows, and 64 when the share exceeds it (R195, R196, R198, R237). -/
def Core.grantOf (k : Core) (need : Nat) : Nat := if k.heldLease then (if need ≤ k.budget then k.budget else 64) else need
/-- Core w of a cluster is granted the array. -/
def State.grantTo (s : State) (kn w need : Nat) : State :=
  s.upClu kn (fun u => { u with holder := some w, left := (s.core (4 * kn + w)).grantOf need, last := w,
                                waiting := u.waiting.filter (· ≠ w) })
/-- The holder's array instruction starts: it spends its share, which MX.LEASE shows while HELD is set (R195, R198). -/
def State.spend (s : State) (c need : Nat) : State :=
  let left := (s.clu (c / 4)).left - need
  (s.upClu (c / 4) (fun u => { u with left := left })).upCore c (fun k => if k.heldLease then k.setBudget left else k)
/-- Asking in cycle t for the array with a share of a grant (R195 to R197, R237): the state with the share spent and the cycle from
which the array is free for it, or the core among those that wait. A new grant is immediate when no other core waits; else it goes
round when the last one has ended. -/
def State.lease (s : State) (c need t : Nat) : State × Option Nat :=
  let kn := c / 4
  let l := c % 4
  let u := s.clu kn
  let mine := u.holder = some l
  let start := max t u.arrayAt
  if mine ∧ need ≤ u.left then (s.spend c need, some start)
  else if (mine ∧ (u.waiting.filter (· ≠ l)).isEmpty) ∨ (u.heldBy t = none ∧ nextWaiting u.last (sins u.waiting l) = some l) then
    ((s.grantTo kn l need).spend c need, some start)
  else (s.upClu kn (fun u => { u with waiting := sins u.waiting l, left := if u.holder = some l then 0 else u.left }), none)
/-- The share of the next array instruction of a core: the whole grant for a RELAX (R195). -/
def Core.share (k : Core) : Nat := if (k.eng.ex.head?.bind (fun en => relaxG en.i)).isSome then 64 else 1
/-- A grant to the next waiting core of a cluster when the last grant has ended (R195). -/
def State.grantLease (s : State) (kn : Nat) : State :=
  let u := s.clu kn
  if u.heldBy (s.cycOf (4 * kn)) ≠ none then s
  else match nextWaiting u.last u.waiting with
    | none => s
    | some w => s.grantTo kn w (s.core (4 * kn + w)).share

/-! ### Declarations: their start and their end (R370, R373, R383) -/

/-- The granule of a core's die (R370). -/
def State.granule (s : State) (c : Nat) : Nat := s.cycOf c / 64
/-- MEMB of CG.CFG: the members of a group but for this one. -/
def cgMemb (cfg : W64) : Nat := bits cfg 3 0
/-- RANK. -/
def cgRank (cfg : W64) : Nat := bits cfg 19 16
/-- The group is valid in this package (R424). -/
def cgValid (cfg : W64) : Bool := cfg.getLsbD 63 && cgMemb cfg ≠ 0 && decide (cgRank cfg ≤ cgMemb cfg)
/-- A collective group of a partition. -/
def Part.group (p : Part) (g : Nat) : Group := mget ⟨0, 0, 0, []⟩ p.groups g
/-- The value of one kind that a member's record gave for the k-th collective declaration. -/
def Group.recOf (g : Group) (offer : Bool) (k rank : Nat) : Option Nat :=
  (g.recs.find? (fun r => r.offer == offer && r.k == k % 2 ^ 32 && r.rank == rank)).map (·.val)
/-- The values of every other member, when all have arrived. -/
def Group.others (g : Group) (offer : Bool) (k : Nat) : Option (List Nat) :=
  let rs := (upto (cgMemb g.cfg + 1)).filter (· ≠ cgRank g.cfg)
  rs.foldl (fun a r => match a, g.recOf offer k r with | some l, some v => some (l ++ [v]) | _, _ => none) (some [])
/-- The granule in which a declaration starts; none while a collective one is not agreed (R383). -/
def State.startOf (s : State) (c : Nat) (d : Decl) : Option Nat :=
  if d.coll = 0 then some d.start
  else if d.alone then some (d.start + 48)
  else (((s.part (s.partNo c)).group d.coll).others false d.collK).map (fun l => l.foldl max d.start + 48)
/-- The start of a declaration has begun or passed (R374). -/
def State.hasStarted (s : State) (c : Nat) (d : Decl) : Bool :=
  match s.startOf c d with
  | some g => decide (g ≤ s.granule c)
  | none => false
/-- A declaration still not acquired 1,024 granules after its start has lapsed (R373). -/
def State.lapsed (s : State) (c : Nat) (d : Decl) : Bool :=
  !d.active && match s.startOf c d with
    | some g => decide (g + 1024 ≤ s.granule c)
    | none => false
/-- A declaration is outstanding (R373): no instruction has ended it, the occupancy of its last beat has not ended, and it has
not lapsed. -/
def State.isOut (s : State) (c : Nat) (d : Decl) : Bool :=
  d.out && !(d.doneAt ≠ 0 && decide (d.doneAt ≤ s.cycOf c)) && !s.lapsed c d
/-- The outstanding declarations of a core, oldest first. -/
def State.outs (s : State) (c : Nat) : List Decl := (s.core c).decls.filter (s.isOut c)
/-- An outstanding declaration is active: it has been acquired, and a start granted afresh has come (R370, R387). -/
def State.isActive (s : State) (c : Nat) (d : Decl) : Bool := d.active && s.hasStarted c d

/-! ### The Kiln (R375 to R379) -/

/-- Fixed-latency mode (R337, R379). -/
def Part.fl (p : Part) : Bool := (p.getSr 0x230).getLsbD 1
/-- The weight of an element size (R376). -/
def kilnWt (half : Nat) : Nat := if half ≤ 1 then 6 else if half = 2 then 9 else if half = 4 then 12 else 15
/-- Measured intensity (R376). -/
def measured (cols half : Nat) : Nat := cdiv (cols * kilnWt half) 128
/-- The declaration of a tag: its place in the core's declarations, counted from 1 (R375). -/
def Core.tagged (k : Core) (tag : Nat) : Option Decl := if tag = 0 then none else k.decls[tag - 1]?
/-- A ticket (R371). -/
def ticketOf (c serial : Nat) : W64 := BitVec.ofNat 64 (256 * c + serial)
/-- The check of an array instruction at its start (R376, R379). -/
def kilnCheck (s : State) (c : Nat) (en : Entry) (intensity : Nat) : Option Stop :=
  let fl := (s.part (s.partNo c)).fl
  match (s.core c).tagged en.tag with
  | none => if fl then some ⟨.pwrBreach, .ex, 0, 1⟩ else none
  | some d =>
    if d.int < intensity then
      if fl then some ⟨.pwrBreach, .ex, 0, 1⟩ else some ⟨.pwrOver, .ex, 0, ticketOf c d.serial⟩
    else none
/-- A resumed active declaration holds its tagged instructions back until its new start (R387). -/
def kilnWait (s : State) (c : Nat) (en : Entry) : Bool :=
  match (s.core c).tagged en.tag with
  | some d => d.active && !s.hasStarted c d
  | none => false
/-- Charging beats (R376, R377): to the tag's account, the rest as undeclared beats with the cluster's throttle on from the start of
the occupancy, which lasts from cycle t to `ends`, until 256 cycles after its end. The last beat of an active declaration ends it with
that occupancy (R373). -/
def kilnCharge (s : State) (c : Nat) (en : Entry) (beats t ends : Nat) : State :=
  let k := s.core c
  let left := ((k.tagged en.tag).map (·.beats)).getD 0
  let paid := min beats left
  let k1 := if paid = 0 then k else
    { k with decls := (upto k.decls.length).filterMap (fun j => (k.decls[j]?).map (fun d =>
        if j + 1 = en.tag then { d with beats := d.beats - paid, doneAt := if d.beats = paid ∧ d.active then ends else d.doneAt } else d)) }
  let s1 := s.setCore c { k1 with undecl := k1.undecl + (beats - paid) }
  if paid < beats then
    s1.upClu (c / 4) (fun u => { u with undFrom := u.undFrom ++ [(t, ends + 256)] }.throttled (s.cycOf c))
  else s1

/-! ### MLEASE, MREL, MANC, MCLR (R211 to R213) -/

/-- MLEASE (R211). -/
def bMlease : EBody := coreBody 1 (fun k => .ok (if k.heldLease then k else k.setSr 0x140 (k.getSr 0x140 ||| 0x100)))
/-- MREL (R211): nothing is left of the grant, which ends with the last occupancy. -/
def bMrel : EBody := fun c _ t s =>
  if (s.core c).heldLease then
    .ok (finAt t ((s.upCore c (fun k => k.setSr 0x140 0)).upClu (c / 4) (fun u => if u.holder = some (c % 4) then { u with left := 0 } else u)))
  else .ok (finAt t s)
/-- The region a MANC scan reads: rows and columns from the cursors. -/
def scanRows (h : HD) : Nat := min 128 (h.e 1 - h.i 1)
/-- MANC, scan mode (R212). -/
def bMancScan (ha : Hreg) : EBody := fun c en t s =>
  let h := HD.of (en.h 0)
  let k := s.core c
  let R := scanRows h
  let n := h.e 0 - h.i 0
  let w := (fmtW h.fmt).getD 0
  match matRead k t ha h (h.region R n) with
  | .error x => .stop x (finAt t s)
  | .ok els =>
    let rows := (upto R).map (fun i => anchorOf h.fmt w ((els.drop (i * n)).take n))
    let anch := (upto R).foldl (fun m i => mput 0 m i (nth 0 rows i)) []
    .ok ⟨s.setCore c { (k.corrTile h (h.region R n)) with anch := anch }, t + 1, t + 6 + R * cdiv ((n * h.half + 1) / 2) 256⟩
/-- The 128 values of a load or column mode, saturated, with AS (R203, R212). -/
def anchVals (k : Core) (t : Nat) (ha : Hreg) (h : HD) : Except Stop (List Int × Bool) :=
  let ixs := (upto 128).map (h.at 0)
  match matAddrs ha h ixs with
  | .error x => .error x
  | .ok ads =>
    match readChecks k t [⟨ha, 0, h, ads⟩] with
    | some x => .error x
    | none =>
      let m := k.padAt t
      let vs := ads.map (fun a => sext (fmtBits h.fmt) (elBits m a h.half))
      .ok (vs.map (fun v => satI v (-512) 511), vs.any (fun v => v < -512 || 511 < v))
/-- What a load or column mode reads is corrected. -/
def Core.corrAnch (k : Core) (h : HD) : Core := k.corrTile h ((upto 128).map (h.at 0))
/-- MANC, load mode (R212). -/
def bMancLoad (ha : Hreg) : EBody := fun c en t s =>
  let k := s.core c
  match anchVals k t ha (HD.of (en.h 0)) with
  | .error x => .stop x (finAt t s)
  | .ok (vs, sat) =>
    let anch := (upto 128).foldl (fun m i => mput 0 m i (nth 0 vs i)) []
    .ok ⟨s.setCore c (Core.mxFlagsAt { (k.corrAnch (HD.of (en.h 0))) with anch := anch } (t + 6) (if sat then 1 else 0)), t + 1, t + 6⟩
/-- MANC, column mode (R212). -/
def bMancColumn (g : Gslot) (ha : Hreg) (q : BitVec 6) : EBody := fun c en t s =>
  let k := s.core c
  let u := s.clu (c / 4)
  let d := u.slot g.toNat
  match slotStart s c g.toNat t with
  | .error x => .stop x (finAt t s)
  | .ok none => .wait (finAt t s)
  | .ok (some t) =>
    if !u.slotOk g.toNat ∨ min d.panels 256 ≤ q.toNat then .stop ⟨.handle, .ex, 0, 0⟩ (finAt t s)
    else match anchVals k t ha (HD.of (en.h 0)) with
      | .error x => .stop x (finAt t s)
      | .ok (vs, sat) =>
        let anch := (upto 128).foldl (fun m i => mput 0 m (128 * q.toNat + i) (nth 0 vs i)) d.anch
        let d' := { d with anch := anch, busy := d.busy.filter (fun x => t < x.1) ++ [(t + 6, en.pc, c)] }
        let s1 := s.setClu (c / 4) { u with slots := mset u.slots g.toNat d' }
        .ok ⟨s1.upCore c (fun k => (k.corrAnch (HD.of (en.h 0))).mxFlagsAt (t + 6) (if sat then 1 else 0)), t + 1, t + 6⟩
/-- MCLR (R213). -/
def bMclr (acc : BitVec 1) : EBody := fun c _ t s =>
  match tileStart (s.core c) acc false t with
  | .error x => .stop x (finAt t s)
  | .ok t => .ok ⟨s.upCore c (fun k => k.setTile acc (k.tile acc).cleared), t + 1, t + 1⟩

/-! ### MMA (R214) -/

/-- Occupancy by element size (R194). -/
def occupancy (half : Nat) : Nat := if half ≤ 1 then 96 else if half = 2 then 48 else if half = 4 then 24 else 12
/-- D by element size (R194). -/
def depthMax (half : Nat) : Nat := 384 / half
/-- The side of a format (R206). -/
def sideOf (f : Nat) : Side := ⟨(fmtW f).getD 0, fmtInt f⟩
/-- Mantissas of one row or column under an anchor with AS (R90). -/
def entryRow (f w : Nat) (X : Int) (els : List AEl) : List Int × Bool :=
  let ms := els.map (fun e => entryMant f w X e.x)
  (ms.map (·.1), ms.any (·.2))
/-- An active row or column is non-finite (R92). -/
def nonFin (els : List AEl) : Bool := els.any (fun e => !exFin e.x)
/-- The exact dot product of two mantissa lists (R91). -/
def dotInt : List Int → List Int → Int
  | a :: as, b :: bs => a * b + dotInt as bs
  | _, _ => 0
/-- The active elements of a column of a slot, or the offset of an uncorrectable word. -/
def slotCol (s : State) (c : Nat) (d : Slot) (q j k0 n : Nat) : Except Stop (List AEl) :=
  let lo := d.elAt q k0
  let els := if n = 0 then none else s.glazeBad c j (lo / 2) ((lo + n * fmtHalf d.fmt + 1) / 2 - lo / 2)
  let scs := if fmtBk d.fmt then (upto (cdiv (k0 % 32 + n) 32)).findSome? (fun b => s.glazeBad c j (d.scAt q (k0 / 32 + b)) 2) else none
  match els.orElse (fun _ => scs) with
  | some a => .error (stopUe .ex 3 a)
  | none => let st := (s.clu (c / 4)).col j; .ok ((upto n).map (fun kk => d.el st q (k0 + kk)))
/-- The active columns of a slot. -/
def slotCols (s : State) (c : Nat) (d : Slot) (q k0 n : Nat) : List Nat → Except Stop (List (List AEl))
  | [] => .ok []
  | j :: t =>
    match slotCol s c d q j k0 n, slotCols s c d q k0 n t with
    | .ok x, .ok l => .ok (x :: l)
    | .error x, _ => .error x
    | _, .error x => .error x
/-- The glaze words that the active elements of n columns take (R201). -/
def slotRead (kn : Nat) (d : Slot) (q k0 kk n : Nat) (w : ProtWord) : Bool :=
  let lo := d.elAt q k0
  let meets (a m : Nat) : Bool := decide (a < 8 * w.idx + 8 ∧ 8 * w.idx < a + m)
  match w.arr with
  | .glaze k j => k == kn && decide (j < n) && ((kk ≠ 0 && meets (lo / 2) ((lo + kk * fmtHalf d.fmt + 1) / 2 - lo / 2)) ||
      (fmtBk d.fmt && (upto (cdiv (k0 % 32 + kk) 32)).any (fun b => meets (d.scAt q (k0 / 32 + b)) 2)))
  | _ => false
/-- Opening a chain (R204). -/
def Tile.openChain (t : Tile) (anch : Map Int) (d : Slot) (q fa fb : Nat) : Tile :=
  let a := sideOf fa
  let b := sideOf fb
  let row (i : Nat) : Int := if a.int then (a.w : Int) - 1 else mget 0 anch i
  let col (j : Nat) : Int := if b.int then (b.w : Int) - 1 else d.anchor q j
  { t with
    w := max a.w b.w, sides := some (a, b)
    xa := (upto 128).foldl (fun m i => mput 0 m i (row i)) []
    xb := (upto 128).foldl (fun m j => mput 0 m j (col j)) [] }
/-- Accumulating one depth block (R207, R214): the tile, AS and NONFIN. -/
def Tile.mac (t : Tile) (fa fb : Nat) (A B : List (List AEl)) : Tile × Bool × Bool :=
  let wa := (fmtW fa).getD 0
  let wb := (fmtW fb).getD 0
  let am := (upto A.length).map (fun i => entryRow fa wa (mget 0 t.xa i) (nth [] A i))
  let bm := (upto B.length).map (fun j => entryRow fb wb (mget 0 t.xb j) (nth [] B j))
  let rn := (upto A.length).filter (fun i => nonFin (nth [] A i))
  let cn := (upto B.length).filter (fun j => nonFin (nth [] B j))
  let el := (upto A.length).foldl (fun (m : Map Elem) i =>
    (upto B.length).foldl (fun m j =>
      mput elem0 m (128 * i + j) ((mget elem0 m (128 * i + j)).add (dotInt (nth ([], false) am i).1 (nth ([], false) bm j).1))) m) t.el
  ({ t with el := el, rnf := rn.foldl sins t.rnf, cnf := cn.foldl sins t.cnf },
   (am.any (·.2) || bm.any (·.2)) && !A.isEmpty && !B.isEmpty, !rn.isEmpty || !cn.isEmpty)
/-- MMA (R214). -/
def bMma (acc : BitVec 1) (g : Gslot) (ha : Hreg) (q : BitVec 8) : EBody := fun c en t s =>
  let h := HD.of (en.h 0)
  let k := s.core c
  let tl := k.tile acc
  let u := s.clu (c / 4)
  let d := u.slot g.toNat
  let m := (en.s 0).toNat
  let n := (en.s 1).toNat
  let kk := (en.s 2).toNat
  match tileStart k acc true t, slotStart s c g.toNat t with
  | .error x, _ => .stop x (finAt t s)
  | _, .error x => .stop x (finAt t s)
  | _, .ok none => .wait (finAt t s)
  | .ok t1, .ok (some t2) =>
    let wa := (fmtW h.fmt).getD 0
    let wb := fmtW d.fmt
    let W := max tl.w (max wa (wb.getD 0))
    if !u.slotOk g.toNat ∨ min d.panels 256 ≤ q.toNat then .stop ⟨.handle, .ex, 0, 0⟩ (finAt t s)
    else if d.depth < h.i 0 + kk then .stop (stopH .ex ha 0) (finAt t s)
    else if h.half ≠ fmtHalf d.fmt ∨ wb.isNone then .stop (stopF .ex d.fmt) (finAt t s)
    else if tl.w ≠ 0 ∧ tl.sides ≠ some (sideOf h.fmt, sideOf d.fmt) then .stop (stopF .ex h.fmt) (finAt t s)
    else if tMax W < tl.terms + kk then .stop ⟨.chainLimit, .ex, 0, BitVec.ofNat 64 tl.terms⟩ (finAt t s)
    else match kilnCheck s c en (measured n h.half) with
      | some x => .stop x (finAt t s)
      | none =>
        if kilnWait s c en then .wait (finAt t s)
        else
          match s.lease c 1 (max (max t1 t2) (if tl.w = 0 then mget 0 k.v.rdy 4 else 0)) with
          | (s', none) => .wait (finAt t s')
          | (s', some t0) =>
            match matRead k t0 ha h (h.region m kk), slotCols s c d q.toNat (h.i 0) kk (upto n) with
            | .error x, _ => .stop x (finAt t s)
            | _, .error x => .stop x (finAt t s)
            | .ok els, .ok B =>
              let A := (upto m).map (fun i => (els.drop (i * kk)).take kk)
              let o := if tl.w = 0 then tl.openChain k.anch d q.toNat h.fmt d.fmt else { tl with w := W }
              let r := o.mac h.fmt d.fmt A B
              let occ := occupancy h.half
              let fin := t0 + occ + 10
              let t' := { r.1 with terms := tl.terms + kk }.own t0 fin en.pc true
              let s1 := (kilnCharge s' c en 1 t0 (t0 + occ)).upClu (c / 4) (fun u => { u with arrayAt := t0 + occ })
              let fl : BitVec 4 := (if r.2.1 then 1 else 0) ||| (if r.2.2 then 2 else 0)
              .ok ⟨(s1.correct (slotRead (c / 4) d q.toNat (h.i 0) kk n)).upCore c (fun k =>
                ((k.corrTile h (h.region m kk)).setTile acc t').mxFlagsAt fin fl), t0 + 1, fin⟩

/-! ### The epilogue (R215) -/

/-- The first element of a region whose check fails (R215, R319). -/
def Tile.checkFail (t : Tile) (m n : Nat) : Option Nat :=
  (t.el.find? (fun x => decide (x.1 / 128 < m ∧ x.1 % 128 < n) && !checkElem x.2)).map (·.1)
/-- ARITH.CHECK of an element. -/
def stopCheck (n : Nat) : Stop := ⟨.arithCheck, .ex, 0, BitVec.ofNat 64 n⟩
/-- ScaleRound of an element to FP32 (R94), NaN for a non-finite row or column. -/
def Tile.y32 (t : Tile) (i j : Nat) : Ex × Fl :=
  if t.nf i j then (.nan, 0) else let r := rne32 (valE (crt (t.get i j)) (t.exp i j)); (val32 r.1, r.2)
/-- The activations of the epilogue (R215). -/
def actEpi (a : Act) (lo hi : Ex) (y : Ex) : Ex × Fl :=
  match a with
  | .identity => (y, 0)
  | .relu => (if exLt y (.fin false 0 1) || (exZero y && exSign y) then .fin false 0 1 else y, 0)
  | .tanh => if exNan y then (.nan, 0) else let r := rne32 (exTanh y); (val32 r.1, r.2)
  | .clamp => (if exNan y then y else exSat y lo hi, 0)
  | .reluclamp => (if exNan y then y else exSat y (.fin false 0 1) hi, 0)
/-- Rounding an operation's exact result to FP32, as a value. -/
def to32 (r : Ex × Fl) : Ex × Fl := let q := rne32 r.1; (val32 q.1, r.2 ||| q.2)
/-- One element of the epilogue before its write (R215): exact when there are no steps, so that the write is its one
rounding. -/
def epiVal (t : Tile) (bias scale : Option Ex) (a : Act) (lo hi : Ex) (i j : Nat) : Ex × Fl :=
  let steps := bias.isSome || a ≠ .identity || scale.isSome
  let y0 := if t.nf i j then (.nan, 0)
    else if steps then t.y32 i j
    else (valE (crt (t.get i j)) (t.exp i j), 0)
  let y1 := match bias with
    | some b => let r := to32 (exAdd y0.1 b); (r.1, y0.2 ||| (if exNan y0.1 || exNan b then 0 else r.2))
    | none => y0
  let r2 := actEpi a lo hi y1.1
  let y2 := (r2.1, y1.2 ||| r2.2)
  match scale with
  | some c => let r := to32 (exMul y2.1 c); (r.1, y2.2 ||| (if exNan y2.1 || exNan c then 0 else r.2))
  | none => y2
/-- The write of an element (R82, R137, R215): its bits, flags and SAT. -/
def epiBits (f : Nat) (y : Ex) : Nat × Fl × Bool :=
  if fmtFloat f then
    let r := roundF (ffOf f) .rne y
    (r.1, r.2, f == 4 && r.2 &&& fOF ≠ 0)
  else
    let r := toFmtInt f .rne true y
    (r.1, r.2, r.2 &&& fNV ≠ 0)
/-- The columns of a row that share a 32-column block of the output (R84). -/
def rowBlocks (i0 n : Nat) : List (List Nat) :=
  (upto ((i0 + n + 31) / 32)).map (fun b => (upto n).filter (fun j => (i0 + j) / 32 = b)) |>.filter (fun l => !l.isEmpty)
/-- Writing the epilogue's values in a block-scaled format, row by row, with the flags of QuantBlock (R85). -/
def writeBk (k : Core) (due : Nat) (r : Hreg) (h : HD) (m n : Nat) (val : Nat → Nat → Ex) : Core × Fl :=
  let ixs := h.region m n
  let sp := if k.interlocked then h.spans ixs (ixs.filterMap (fun ix => (h.addr ix).toOption)) else []
  let q := (upto m).foldl (fun (a : Core × Fl) i =>
    (rowBlocks (h.i 0) n).foldl (fun (a : Core × Fl) js =>
      let q := quantBlock h.fmt (js.map (val i))
      let ads := js.filterMap (fun j => (h.addr (h.at i j)).toOption)
      let k1 := matWrite a.1 due r h ads (q.2.1.map (intBits (fmtBits h.fmt)))
      let sa := h.scaleAddr (h.at i (js.headD 0))
      ((k1.storeDue .ex due sa (toLE 2 q.1)).tag h.layout sa 2, a.2 ||| q.2.2)) a) ({ k with sleep := .awake }, 0)
  (q.1.sees k.sleep sp, q.2)
/-- MEPI (R215). -/
def bMepi (acc : BitVec 1) (hd : Hreg) (act : Act) (bias : Option Hreg) (scl clr : Bool) : EBody := fun c en t s =>
  let h := HD.of (en.h 0)
  let k := s.core c
  let m := (en.s 0).toNat
  let n := (en.s 1).toNat
  match tileStart k acc false t with
  | .error x => .stop x (finAt t s)
  | .ok t =>
    let tl := k.tile acc
    let hb := HD.of (en.h 1)
    let bs : Except Stop (List Ex) := match bias with
      | none => .ok []
      | some r => match matRead k t r hb ((upto n).map (hb.at 0)) with
        | .error x => .error x
        | .ok l => .ok (l.map (fun e => (val32 (rne32 e.x).1)))
    match bs, matAddrs hd h (h.region m n) with
    | .error x, _ => .stop x (finAt t s)
    | _, .error x => .stop x (finAt t s)
    | .ok bs, .ok ads =>
      let k := if bias.isSome then k.corrTile hb ((upto n).map (hb.at 0)) else k
      match tl.checkFail m n with
      | some e => .stop (stopCheck e) (finAt t s)
      | none =>
        let lo := val32 ((k.getSr 0x086).setWidth 32)
        let hi := val32 ((k.getSr 0x087).setWidth 32)
        let sc : Option Ex := if scl then some (val32 ((en.s 2).setWidth 32)) else none
        let vals := (upto m).flatMap (fun i => (upto n).map (fun j =>
          epiVal tl (if bias.isSome then some (nth .nan bs j) else none) sc act lo hi i j))
        let fl := vals.foldl (fun f v => f ||| v.2) (0 : Fl)
        let fin := t + m + 12
        let w : Core × Fl × Bool :=
          if fmtBk h.fmt then
            let r := writeBk k fin hd h m n (fun i j => (nth (.nan, 0) vals (i * n + j)).1)
            (r.1, r.2, r.2 &&& fNV ≠ 0)
          else
            let bs := vals.map (fun v => epiBits h.fmt v.1)
            (matWrite k fin hd h ads (bs.map (·.1)), bs.foldl (fun f b => f ||| b.2.1) 0, bs.any (fun b => b.2.2))
        let tl' := (if clr then tl.cleared else tl).own t fin en.pc false
        .ok ⟨s.setCore c (((w.1.flagsAt fin (fl ||| w.2.1)).mxFlagsAt fin (if w.2.2 then 8 else 0)).setTile acc tl'), t + 1, fin⟩

/-! ### RDACC and MSTAT (R216, R217) -/

/-- A raw accumulator element as a number (R95). -/
def rawElem (e : Elem) : Nat := e.c1 % 2 ^ 19 + e.c2 % 2 ^ 19 * 2 ^ 19 + e.c3 % 2 ^ 18 * 2 ^ 38 + e.c4 % 2 ^ 13 * 2 ^ 64
/-- RDACC (R216). -/
def bRdacc (acc : BitVec 1) (hd : Hreg) : EBody := fun c en t s =>
  let h := HD.of (en.h 0)
  let k := s.core c
  let m := (en.s 0).toNat
  let n := (en.s 1).toNat
  match tileStart k acc false t, matAddrs hd h (h.region m n) with
  | .error x, _ => .stop x (finAt t s)
  | _, .error x => .stop x (finAt t s)
  | .ok t, .ok ads =>
    let tl := k.tile acc
    let els := (upto m).flatMap (fun i => (upto n).map (fun j => tl.get i j))
    let fin := t + 2 * m + 12
    let k1 := matWrite k fin hd h ads (els.map rawElem)
    let k2 := k1.mxFlagsAt fin (if els.any (fun e => !checkElem e) then 4 else 0)
    .ok ⟨s.setCore c (k2.setTile acc (tl.own t fin en.pc false)), t + 1, fin⟩
/-- Writing a record of bytes through a raw handle at its positions (R217). -/
def putRecord (k : Core) (due : Nat) (hd : Hreg) (h : HD) (bs : List Byte) : Except Stop Core :=
  match matAddrs hd h ((upto bs.length).map (fun j => h.split (h.pos + j))) with
  | .error x => .error x
  | .ok ads => .ok (matWrite k due hd h ads (bs.map (·.toNat)))
/-- 128 values as little-endian INT16. -/
def int16s (f : Nat → Int) : List Byte := (upto 128).flatMap (fun i => toLE 2 (intBits 16 (f i)))
/-- A list of row or column numbers as a 128-bit map. -/
def bitsOfList (l : List Nat) : Nat := l.foldl (fun a i => a + 2 ^ i) 0
/-- The tile summary (R217). -/
def Tile.summary (t : Tile) : List Byte :=
  let sd (x : Option Side) : Nat := match x with | some y => y.w % 32 + (if y.int then 32 else 0) | none => 0
  let d0 := t.terms % 2 ^ 40 + t.w % 32 * 2 ^ 40 + sd (t.sides.map (·.1)) * 2 ^ 45 + sd (t.sides.map (·.2)) * 2 ^ 51
  toLE 8 d0 ++ toLE 16 (bitsOfList t.rnf) ++ toLE 16 (bitsOfList t.cnf) ++ toLE 24 0
/-- MSTAT of a tile, selectors 0 to 2 (R217). -/
def bMstatTile (acc : BitVec 1) (hd : Hreg) (which : BitVec 2) : EBody := fun c en t s =>
  let k := s.core c
  match tileStart k acc false t with
  | .error x => .stop x (finAt t s)
  | .ok t =>
    let tl := k.tile acc
    let rec0 := if which = 0 then tl.summary else if which = 1 then int16s (fun i => mget 0 tl.xa i) else int16s (fun i => mget 0 tl.xb i)
    match putRecord k (t + 6) hd (HD.of (en.h 0)) rec0 with
    | .error x => .stop x (finAt t s)
    | .ok k1 => .ok ⟨s.setCore c (k1.setTile acc (tl.own t (t + 6) en.pc false)), t + 1, t + 6⟩
/-- MSTAT of the row anchors (R217). -/
def bMstatRowanc (hd : Hreg) : EBody := fun c en t s =>
  let k := s.core c
  match putRecord k (t + 6) hd (HD.of (en.h 0)) (int16s (fun i => mget 0 k.anch i)) with
  | .error x => .stop x (finAt t s)
  | .ok k1 => .ok ⟨s.setCore c k1, t + 1, t + 6⟩
/-- Double 0 of a slot descriptor (R200). -/
def slotDouble (u : Cluster) (g : Nat) : Nat :=
  if u.slotOk g then
    let d := u.slot g
    2 ^ 63 + d.fmt % 64 * 2 ^ 56 + d.panels % 2 ^ 13 * 2 ^ 40 + d.depth % 2 ^ 13 * 2 ^ 20 + d.off % 2 ^ 19
  else 0
/-- MSTAT that reads a slot: its start by R202, then the record, or HANDLE where the slot holds none. -/
def slotRecord (g : Gslot) (hd : Hreg) (c : Nat) (en : Entry) (t : Nat) (s : State) (rec0 : Option (List Byte)) : Res Fin :=
  match slotStart s c g.toNat t with
  | .error x => .stop x (finAt t s)
  | .ok none => .wait (finAt t s)
  | .ok (some t) =>
    match rec0.map (putRecord (s.core c) (t + 6) hd (HD.of (en.h 0))) with
    | none => .stop ⟨.handle, .ex, 0, 0⟩ (finAt t s)
    | some (.error x) => .stop x (finAt t s)
    | some (.ok k1) => .ok ⟨s.setCore c k1, t + 1, t + 6⟩
/-- MSTAT of a slot descriptor (R217). -/
def bMstatDesc (g : Gslot) (hd : Hreg) : EBody := fun c en t s =>
  slotRecord g hd c en t s (some (toLE 64 (slotDouble (s.clu (c / 4)) g.toNat)))
/-- MSTAT of column anchors (R217). -/
def bMstatColanc (g : Gslot) (hd : Hreg) (q : BitVec 5) : EBody := fun c en t s =>
  let u := s.clu (c / 4)
  let d := u.slot g.toNat
  slotRecord g hd c en t s (if !u.slotOk g.toNat ∨ d.panels ≤ q.toNat then none else some (int16s (d.anchor q.toNat)))

/-! ### Top-k (R318, R319) -/

/-- Inserting a pair into a row of TK; an equal held pair ranks first, and 8 entries are kept. -/
def tkInsert (v i : BitVec 32) : List (BitVec 32 × BitVec 32) → List (BitVec 32 × BitVec 32)
  | [] => [(v, i)]
  | (w, x) :: t => if totalGreater (val32 v) i.toNat (val32 w) x.toNat then (v, i) :: (w, x) :: t else (w, x) :: tkInsert v i t
/-- MTOPK (R319). -/
def bMtopk (acc : BitVec 1) (hd : Hreg) (emit new : Bool) (k1 : BitVec 3) (hx : Hreg) : EBody := fun c en t s =>
  let k := s.core c
  let m := (en.s 0).toNat
  let n := (en.s 1).toNat
  let base : BitVec 32 := (en.s 2).setWidth 32
  let kk := k1.toNat + 1
  let h := HD.of (en.h 0)
  let x := HD.of (en.h 1)
  match tileStart k acc false t with
  | .error y => .stop y (finAt t s)
  | .ok t =>
    let tl := k.tile acc
    match (if emit then matAddrs hd h (h.region m kk) else .ok []), (if emit then matAddrs hx x (x.region m kk) else .ok []) with
    | .error y, _ => .stop y (finAt t s)
    | _, .error y => .stop y (finAt t s)
    | .ok ads, .ok axs =>
      match tl.checkFail m n with
      | some e => .stop (stopCheck e) (finAt t s)
      | none =>
        let tk0 := if new then [] else k.tk
        let r := (upto m).foldl (fun (a : Map (List (BitVec 32 × BitVec 32)) × Fl) i =>
          let row := (upto n).foldl (fun (b : List (BitVec 32 × BitVec 32) × Fl) j =>
            let y := tl.y32 i j
            let v : BitVec 32 := (rne32 y.1).1
            ((tkInsert v (base + BitVec.ofNat 32 j) b.1).take 8, b.2 ||| y.2)) (mget [] a.1 i, a.2)
          (mput [] a.1 i row.1, row.2)) (tk0, 0)
        let fin := t + m + 12
        let k1 := Core.flagsAt { k with tk := r.1 } fin r.2
        let pick (i j : Nat) : BitVec 32 × BitVec 32 := nth (0x7FC00000, 0xFFFFFFFF) (mget [] r.1 i) j
        let cells := (upto m).flatMap (fun i => (upto kk).map (pick i))
        let k2 := if emit then
            matWrite (matWrite k1 fin hd h ads (cells.map (fun p => p.1.toNat))) fin hx x axs (cells.map (fun p => p.2.toNat))
          else k1
        .ok ⟨s.setCore c (k2.setTile acc (tl.own t fin en.pc false)), t + 1, fin⟩

/-! ### Checks at the FE (R212, R214 to R217, R319) -/

/-- R31 on the handle kept j-th. -/
def handleStop (en : Entry) (j : Nat) : Option Stop := (HD.of (en.h j)).stopOf .fe (hReg en.i j)
/-- HANDLE naming the handle kept j-th. -/
def badHandle (en : Entry) (j : Nat) : Stop := stopH .fe (hReg en.i j) 0
/-- A stop under a condition. -/
def stopIf (b : Bool) (x : Stop) : Option Stop := if b then some x else none
/-- MANC scan. -/
def mancScanCheck (en : Entry) : Option Stop :=
  let h := HD.of (en.h 0)
  firstStop [handleStop en 0, stopIf (fmtW h.fmt).isNone (stopF .fe h.fmt)]
/-- MANC load and column. -/
def mancVecCheck (en : Entry) : Option Stop :=
  let h := HD.of (en.h 0)
  firstStop [handleStop en 0, stopIf (!(h.fmt == 6 || h.fmt == 7)) (stopF .fe h.fmt),
    stopIf (decide (h.e 0 < h.i 0 + 128)) (badHandle en 0)]
/-- s[sm] and s[sn] from 0 to 128. -/
def regionCheck (en : Entry) : Option Stop :=
  stopIf (decide (128 < (en.s 0).toNat ∨ 128 < (en.s 1).toNat)) (badHandle en 0)
/-- MMA. -/
def mmaCheck (en : Entry) : Option Stop :=
  let h := HD.of (en.h 0)
  let m := (en.s 0).toNat
  let n := (en.s 1).toNat
  let k := (en.s 2).toNat
  firstStop [handleStop en 0, stopIf (fmtW h.fmt).isNone (stopF .fe h.fmt),
    stopIf (decide (128 < m ∨ 128 < n ∨ depthMax h.half < k)) (badHandle en 0),
    stopIf (decide (h.e 1 < h.i 1 + m ∨ h.e 0 < h.i 0 + k)) (badHandle en 0),
    stopIf (fmtBk h.fmt && h.i 0 % 32 ≠ 0) (badHandle en 0)]
/-- Output formats of MEPI. -/
def epiFmtOk (f : Nat) : Bool := (1 ≤ f && f ≤ 8) || fmtBk f
/-- MEPI. -/
def mepiCheck (bias : Option Hreg) (en : Entry) : Option Stop :=
  let h := HD.of (en.h 0)
  let m := (en.s 0).toNat
  let n := (en.s 1).toNat
  let hb := HD.of (en.h 1)
  let ob : Option Stop := if bias.isSome then firstStop [handleStop en 1,
      stopIf (badRead .f32 hb.fmt) (stopF .fe hb.fmt), stopIf (decide (hb.e 0 < hb.i 0 + n)) (badHandle en 1)] else none
  firstStop [handleStop en 0, regionCheck en, stopIf (!epiFmtOk h.fmt) (stopF .fe h.fmt),
    stopIf (!h.holds m n) (badHandle en 0), stopIf (fmtBk h.fmt && h.i 0 % 32 ≠ 0) (badHandle en 0), ob]
/-- RDACC. -/
def rdaccCheck (en : Entry) : Option Stop :=
  let h := HD.of (en.h 0)
  firstStop [handleStop en 0, regionCheck en, stopIf (h.fmt ≠ 0x19) (stopF .fe h.fmt),
    stopIf (!h.holds (en.s 0).toNat (en.s 1).toNat) (badHandle en 0)]
/-- MSTAT with a record of n bytes. -/
def mstatCheck (n : Nat) (en : Entry) : Option Stop :=
  let h := HD.of (en.h 0)
  firstStop [handleStop en 0, stopIf (h.fmt ≠ 0) (stopF .fe h.fmt), stopIf (decide (h.total < h.pos + n)) (badHandle en 0)]
/-- MTOPK: its handles only when it emits. -/
def mtopkCheck (emit : Bool) (k1 : BitVec 3) (en : Entry) : Option Stop :=
  let h := HD.of (en.h 0)
  let x := HD.of (en.h 1)
  let m := (en.s 0).toNat
  let kk := k1.toNat + 1
  let range : Option Stop := stopIf (decide (128 < m ∨ 128 < (en.s 1).toNat)) ⟨.handle, .fe, 0, 0⟩
  if emit then
    firstStop [handleStop en 0, handleStop en 1, range, stopIf (h.fmt ≠ 1) (stopF .fe h.fmt),
      stopIf (!(x.fmt == 0x0A || x.fmt == 6)) (stopF .fe x.fmt),
      stopIf (!h.holds m kk) (badHandle en 0), stopIf (!x.holds m kk) (badHandle en 1)]
  else range

end Sys2Proof.Machine
end

