-- ==== Sys2Proof/Machine/Relax.lean ====
section
/-!
DEFINITION. Sys2Proof/Machine/Relax.lean: RELAX and RELAX.B (R223 to R244): the start with its checks, one iteration, the
limit and the trap, resumption, Finish, and the movement of AHR rows.
-/

namespace Sys2Proof.Machine
open Sys2Proof

/-- The form of a RELAX: backward, working tile, slot, activation, whether a derivative and counts are written, WARM. -/
structure RForm where
  bwd  : Bool
  acc  : BitVec 1
  g    : Gslot
  f    : Act
  der  : Bool
  cnt  : Bool
  warm : Bool
  deriving DecidableEq, Repr

/-! ### The batch (R223, R224) -/

/-- B. -/
def rxB (en : Entry) : Nat := let h := HD.of (en.h 0); h.e 1 - h.i 1
/-- n. -/
def rxN (en : Entry) : Nat := let h := HD.of (en.h 0); h.e 0 - h.i 0
/-- The handles of an entry that the form uses, each with its row length. -/
def rxAreas (f : RForm) (en : Entry) : List (Nat × Nat) :=
  let n := rxN en
  [(0, n), (1, n), (2, 1)] ++ (if f.der || f.bwd then [(3, n)] else []) ++ (if f.cnt then [(4, 1)] else [])
/-- The bytes of a 4-byte element stream at some rows, as a bit map of the scratchpad. -/
def rxBytes (h : HD) (n : Nat) (rows : List Nat) : Nat :=
  rows.foldl (fun m i => (upto n).foldl (fun m j =>
    match h.addr (h.at i j) with
    | .ok a => m ||| 15 * 2 ^ (a / 2)
    | .error _ => m) m) 0
/-- Two of some bit maps share a byte. -/
def rxShare : List Nat → Bool
  | [] => false
  | a :: t => t.any (fun b => a &&& b ≠ 0) || rxShare t
/-- The first address that leaves the scratchpad, with its handle (R30; FF.INFO: log entry 114). -/
def rxOut (en : Entry) (rows : List Nat) (areas : List (Nat × Nat)) : Option Stop :=
  areas.findSome? (fun a => let h := HD.of (en.h a.1)
    rows.findSome? (fun i => match h.addrs ((upto a.2).map (h.at i)) with
      | .error x => some (stopH .ex (hReg en.i a.1) x)
      | .ok _ => none))
/-- The rows that participate under the top mask entry. -/
def rxRows (k : Core) (en : Entry) : List Nat := (upto (rxB en)).filter (fun i => k.top.getLsbD i)
/-- Row i of AHR: r(t), r(t − 1), r(t − 2), β. -/
def Core.ahrRow (k : Core) (i : Nat) : List (BitVec 32) := mget [0, 0, 0, 0] k.ahr i
/-- Replacing row i of AHR. -/
def Core.setAhr (k : Core) (i : Nat) (l : List (BitVec 32)) : Core := { k with ahr := mput [0, 0, 0, 0] k.ahr i l }
/-- The low 32 bits of a special register. -/
def Core.sr32 (k : Core) (n : Nat) : BitVec 32 := (k.getSr n).setWidth 32
/-- RLX.MODE.ACC. -/
def Core.rxMode (k : Core) : Nat := bits (k.getSr 0x08A) 1 0
/-- RLX.STAT with bits hi:lo replaced. -/
def Core.rxStat (k : Core) (hi lo v : Nat) : Core := k.setSr 0x080 (putBits (k.getSr 0x080) hi lo v)

/-! ### The checks at the start (R233, R234, R242) -/

/-- A β outside its range (R233). -/
def badBeta (lo : Option Ex) (b : BitVec 32) : Bool :=
  let x := val32 b
  exNan x || !exLt (.fin false 0 1) x || exLt (.fin false 1 1) x ||
  (match lo with | some l => exLt x l | none => false)
/-- 2^−8. -/
def beta8 : Ex := .fin false 1 256
/-- β of the batch is out of range. -/
def rxBadBeta (f : RForm) (k : Core) (rows : List Nat) : Bool :=
  let md := k.rxMode
  if md = 1 ∨ md = 2 then
    if f.warm then rows.any (fun i => badBeta (if md = 2 then some beta8 else none) (nth 0 (k.ahrRow i) 3))
    else badBeta none (k.sr32 0x088)
  else false
/-- The bounds of the activation are invalid. -/
def rxBadBounds (f : RForm) (k : Core) : Bool :=
  let lo := val32 (k.sr32 0x086)
  let hi := val32 (k.sr32 0x087)
  if f.bwd then false
  else match f.f with
    | .clamp => exNan lo || exNan hi || exLt hi lo
    | .reluclamp => exNan hi || !exLt (.fin false 0 1) hi
    | .identity => false
    | .relu => false
    | .tanh => false
/-- The RELAX.SHAPE code, the lowest that holds. -/
def rxShape (f : RForm) (k : Core) (u : Cluster) (en : Entry) : Option Nat :=
  let B := rxB en
  let n := rxN en
  let d := u.slot f.g.toNat
  let rows := rxRows k en
  let short (a : Nat × Nat) : Bool := let h := HD.of (en.h a.1); !h.holds B a.2
  if B < 1 ∨ 128 < B then some 1
  else if n < 1 ∨ 2048 < n then some 2
  else if !u.slotOk f.g.toNat ∨ d.depth ≠ n ∨ d.panels ≠ cdiv n 128 then some 3
  else if ((rxAreas f en).drop 1).any short then some 4
  else if rxShare ((rxAreas f en).map (fun a => rxBytes (HD.of (en.h a.1)) a.2 rows)) then some 5
  else if k.rxMode = 3 then some 6
  else if rxBadBeta f k rows then some 7
  else if rxBadBounds f k then some 8
  else if (k.getSr 0x080).getLsbD 0 then some 9
  else none
/-- RELAX.SHAPE. -/
def stopShape (n : Nat) : Stop := ⟨.relaxShape, .ex, 0, BitVec.ofNat 64 n⟩

/-! ### Ownership (R225) -/

/-- The form of a RELAX instruction. -/
def rxForm : Instr → Option RForm
  | .relax _ acc g _ f _ _ der cnt warm => some ⟨false, acc, g, f, der.isSome, cnt.isSome, warm⟩
  | .relaxB _ acc _ _ _ _ cnt g warm => some ⟨true, acc, g, .identity, true, cnt.isSome, warm⟩
  | _ => none
/-- The bytes that a running RELAX owns, as a bit map. -/
def Core.relaxOwns (k : Core) : Nat :=
  match k.relaxing with
  | none => 0
  | some (en, p) => match rxForm en.i with
    | none => 0
    | some f =>
      let rows := (upto p.rows.length).filter (fun i => ((p.rows[i]?).map (·.takesPart)).getD false)
      (rxAreas f en).foldl (fun m a => m ||| rxBytes (HD.of (en.h a.1)) a.2 rows) 0
/-- Some of n bytes at a are owned. -/
def ownedAt (own a n : Nat) : Bool := own / 2 ^ a % 2 ^ n ≠ 0
/-! ### One iteration (R226 to R228, R232) -/

/-- The activation of RELAX (R234). -/
def actRelax (a : Act) (lo hi : Ex) (v : Ex) : Ex × Fl :=
  if exNan v then (.nan, 0)
  else match a with
    | .identity => (v, 0)
    | .clamp => (exSat v lo hi, 0)
    | .reluclamp => let r := exSat v (.fin false 0 1) hi; (if exZero r then .fin false 0 1 else r, 0)
    | .tanh => to32 (exTanh v, 0)
    | .relu => (exSat v (.fin false 0 1) (.inf false), 0)
/-- The derivative (R235). -/
def derivRelax (a : Act) (lo hi : Ex) (v : Ex) : Ex × Fl :=
  let one : Ex := .fin false 1 1
  let zero : Ex := .fin false 0 1
  let inside (l h : Ex) : Ex := if exLt l v && exLt v h then one else zero
  if exNan v then (.nan, 0)
  else match a with
    | .identity => (one, 0)
    | .clamp => (inside lo hi, 0)
    | .reluclamp => (inside zero hi, 0)
    | .tanh => to32 (exTanhD v, 0)
    | .relu => (inside zero (.inf false), 0)
/-- A column of the slot as an iteration uses it: non-finite or not, its mantissas, its anchor. -/
structure RxCol where
  nf : Bool
  m  : List Int
  xb : Int
  as : Bool
/-- The columns of an iteration, or MEM.UE. -/
def rxCols (s : State) (c : Nat) (d : Slot) (n : Nat) : List Nat → Except Stop (List RxCol)
  | [] => .ok []
  | j :: t =>
    match slotCol s c d (j / 128) (j % 128) 0 n, rxCols s c d n t with
    | .error x, _ => .error x
    | _, .error x => .error x
    | .ok els, .ok l =>
      let xb := d.anchor (j / 128) (j % 128)
      let e := entryRow 1 20 xb els
      .ok (⟨nonFin els, e.1, xb, e.2⟩ :: l)
/-- What an iteration forms for one row: v, z', the flags of its roundings, AS and NONFIN. -/
structure RxOut where
  v  : List (BitVec 32)
  z  : List (BitVec 32)
  fl : Fl
  as : Bool
  nf : Bool
/-- Iterate(i) (R226) from the row's z, u and D. -/
def rxRow (f : RForm) (p : RelaxProg) (beta : Ex) (cols : List RxCol) (z u dr : List Ex) : RxOut :=
  let lo := val32 p.lo
  let hi := val32 p.hi
  let ws : List (Ex × Fl) := (upto z.length).map (fun j =>
    if f.bwd then to32 (exMul (nth .nan z j) (nth .nan dr j)) else (nth .nan z j, 0))
  let w : List AEl := ws.map (fun x => ⟨x.1, 0⟩)
  let X := if p.auto then anchorOf 1 20 w else p.xz
  let e := entryRow 1 20 X w
  let rnf := nonFin w
  let els : List (Ex × Ex × Fl) := (upto z.length).map (fun j =>
    let cl := nth (⟨true, [], 0, false⟩ : RxCol) cols j
    let y : Ex × Fl := if rnf || cl.nf then (.nan, 0) else to32 (valE (dotInt e.1 cl.m) (X - 19 + (cl.xb - 19)), 0)
    let v := to32 (exAdd y.1 (nth .nan u j))
    let a := if f.bwd then (v.1, 0) else actRelax f.f lo hi v.1
    let zj := nth .nan z j
    let d1 := to32 (exSub a.1 zj)
    let d2 := to32 (exMul beta d1.1)
    let d3 := to32 (exAdd zj d2.1)
    let r : Ex × Fl := if p.mode = 0 then (a.1, 0) else (d3.1, d1.2 ||| d2.2 ||| d3.2)
    (v.1, r.1, y.2 ||| v.2 ||| a.2 ||| r.2))
  { v := els.map (fun x => (rne32 x.1).1), z := els.map (fun x => (rne32 x.2.1).1),
    fl := els.foldl (fun g x => g ||| x.2.2) (ws.foldl (fun g x => g ||| x.2) 0),
    as := !rnf && ((e.2 && cols.any (fun x => !x.nf)) || cols.any (fun x => !x.nf && x.as)), nf := rnf || cols.any (·.nf) }
/-- The residual of a row (R228): NaN when it diverges. -/
def rxRes (z : List Ex) (z' : List (BitVec 32)) : Ex :=
  if z'.any (fun b => !exFin (val32 b)) then .nan
  else (upto z'.length).foldl (fun m j => let r := exAbs (exSub (val32 (nth 0 z' j)) (nth .nan z j)).1; if exLt m r then r else m)
    (.fin false 0 1)
/-- The AHR row after an iteration (R232). -/
def ahrNext (mode : Nat) (row : List (BitVec 32)) (r : Ex) : List (BitVec 32) :=
  let r0 := (rne32 r).1
  let r1 := nth 0 row 0
  let r2 := nth 0 row 1
  let b := val32 (nth 0 row 3)
  let half := (exMul b (.fin false 1 2)).1
  let up := val32 (rne32 (exMul (.fin false 5 4) b).1).1
  let b' : Option Ex := if mode = 2 then
      if exLt (val32 r1) (val32 r0) then some (if exLt half beta8 then beta8 else half)
      else if exLt (val32 r0) (val32 r1) && exLt (val32 r1) (val32 r2) then
        some (if exLt (.fin false 1 1) up then .fin false 1 1 else up)
      else none
    else none
  [r0, r1, r2, (b'.map (fun e => (rne32 e).1)).getD (nth 0 row 3)]
/-- The read values of a row of a stream. -/
def rxRead (k : Core) (t : Nat) (en : Entry) (j n i : Nat) : Except Stop (List Ex) :=
  let h := HD.of (en.h j)
  match matRead k t (hReg en.i j) h ((upto n).map (h.at i)) with
  | .error x => .error x
  | .ok l => .ok (l.map (·.x))
/-- Writing a row of a stream in cycle t. -/
def rxWrite (t : Nat) (k : Core) (en : Entry) (j i : Nat) (vals : List (BitVec 32)) : Core :=
  let h := HD.of (en.h j)
  (upto vals.length).foldl (fun k x =>
    match h.addr (h.at i x) with
    | .ok a => (k.landAt k.interlocked .ex t (a / 2) (toLE 4 (nth 0 vals x).toNat)).tag h.layout (a / 2) 4
    | .error _ => k) k
/-- The results of the active rows, by row. -/
def rxRowsOut (f : RForm) (k : Core) (t : Nat) (en : Entry) (p : RelaxProg) (cols : List RxCol) (n : Nat) :
    List Nat → Except Stop (List (Nat × RxOut × Ex))
  | [] => .ok []
  | i :: is =>
    let dr := if f.bwd then rxRead k t en 3 n i else .ok []
    match rxRead k t en 0 n i, rxRead k t en 1 n i, dr, rxRowsOut f k t en p cols n is with
    | .error x, _, _, _ => .error x
    | _, .error x, _, _ => .error x
    | _, _, .error x, _ => .error x
    | _, _, _, .error x => .error x
    | .ok z, .ok u, .ok d, .ok l =>
      let o := rxRow f p (val32 (nth 0 (k.ahrRow i) 3)) cols z u d
      .ok ((i, o, rxRes z o.z) :: l)
/-- The row i of the progress. -/
def RelaxProg.row (p : RelaxProg) (i : Nat) : RelaxRow := nth ⟨false, false, false, 0, none, []⟩ p.rows i
/-- The active rows. -/
def RelaxProg.actives (p : RelaxProg) : List Nat := (upto p.rows.length).filter (fun i => (p.row i).active)
/-- The participating rows. -/
def RelaxProg.parts (p : RelaxProg) : List Nat := (upto p.rows.length).filter (fun i => (p.row i).takesPart)
/-- Cycles for which an iteration occupies the array (R237). -/
def rxOcc (n : Nat) : Nat := 12 * cdiv n 48 * cdiv n 128
/-- Cycles of an iteration with a active rows: the array, then the row work (R237). -/
def rxCycles (n a : Nat) : Nat := rxOcc n + a + 4
/-- Beats of an iteration (R239). -/
def rxBeats (n : Nat) : Nat := cdiv n 48 * cdiv n 128
/-- The end of an iteration (R228) in cycle t on one core: streams, rows, AHR, registers, flags; STAT gets those of the roundings
when RELAX stops or completes (R242). -/
def rxEnd (f : RForm) (en : Entry) (p : RelaxProg) (t : Nat) (k : Core) (outs : List (Nat × RxOut × Ex)) : RelaxProg × Core :=
  let minIt := max (k.sr32 0x084).toNat 1
  let tol := val32 (k.sr32 0x085)
  let k1 := outs.foldl (fun k o => rxWrite t k en 0 o.1 o.2.1.z) k
  let k2 := outs.foldl (fun k o => k.setAhr o.1 (ahrNext p.mode (k.ahrRow o.1) o.2.2)) k1
  let rows := (upto p.rows.length).map (fun i =>
    let r := p.row i
    match outs.find? (fun o => o.1 = i) with
    | none => r
    | some o =>
      let cnt := r.count + 1
      let dv := exNan o.2.2
      let done := !dv && decide (minIt ≤ cnt) && (exLt o.2.2 tol || exEq o.2.2 tol)
      { r with count := cnt, lastV := o.2.1.v, res := some o.2.2, active := !dv && !done, settled := done })
  let p' := { p with rows := rows, fl := outs.foldl (fun g o => g ||| o.2.1.fl) p.fl }
  let anyNan := outs.any (fun o => exNan o.2.2)
  let best := outs.foldl (fun m o => if exLt m o.2.2 then o.2.2 else m) (.fin false 0 1)
  let k3 := if anyNan then k2.rxStat 3 3 1 else k2
  let k4 := k3.setSr 0x081 (((rne32 (if anyNan then .nan else best)).1).setWidth 64)
  let k5 := k4.setSr 0x082 (BitVec.ofNat 64 ((k4.sr32 0x082).toNat + 1))
  let k6 := k5.setSr 0x089 (putBits (k5.getSr 0x089) 7 0 p'.actives.length)
  let mx : BitVec 4 := (if outs.any (fun o => o.2.1.as) then 1 else 0) ||| (if outs.any (fun o => o.2.1.nf) then 2 else 0)
  (p', (k6.mxFlags mx).setTile f.acc (k6.tile f.acc).cleared)
/-- The mark of a RELAX at the head of the EX, and the cycle from which it goes on. -/
def rxMark (s : State) (c : Nat) (p : RelaxProg) (t : Nat) : State :=
  (s.setMark c .ex (.relax p)).upCore c (fun k => k.setEngAt .ex t)
/-- Giving up the grant and ownership at a boundary (R225, R240). -/
def rxRelease (f : RForm) (s : State) (c : Nat) (p : RelaxProg) (t : Nat) : State :=
  let s1 := rxMark s c { p with started := false } t
  let s2 := if p.started ∧ !p.parts.isEmpty then
      s1.upClu (c / 4) (fun u => if u.holder = some (c % 4) then { u with left := 0, arrayAt := max u.arrayAt t } else u)
    else s1
  s2.upCore c (fun k => k.setTile f.acc (k.tile f.acc).cleared)
/-- The derivative area of a stopped RELAX holds the last v of its rows (R253). -/
def rxLastV (f : RForm) (en : Entry) (p : RelaxProg) (t : Nat) (k : Core) : Core :=
  if f.der && !f.bwd then p.parts.foldl (fun k i => rxWrite t k en 3 i (p.row i).lastV) k else k
/-- Stopping at a boundary by a cause of its own, or for another's (R240): the flags raised so far are recorded (R229, R242). -/
def rxPause (f : RForm) (c : Nat) (en : Entry) (p : RelaxProg) (t : Nat) (s : State) : State :=
  (rxRelease f s c { p with fl := 0, paid := false } t).upCore c (fun k => (rxLastV f en p t k).flags p.fl)
/-- A failed element of the working tile that an iteration uses (R227): an active row and a column below n. The number of an element
counts on from panel to panel. -/
def rxCheckFail (k : Core) (f : RForm) (p : RelaxProg) (n : Nat) : Option Nat :=
  ((k.tile f.acc).el.find? (fun x => (p.row (x.1 / 128 % 128)).active && decide (x.1 / 128 % 128 < p.rows.length) &&
    decide (x.1 / 16384 * 128 + x.1 % 128 < n) && !checkElem x.2)).map (·.1)
/-- FF.INFO of a failed iteration (R227): column, row and number of the iteration. -/
def rxCheckInfo (k : Core) (el : Nat) : W64 :=
  BitVec.ofNat 64 (el / 16384 * 128 + el % 128 + el / 128 % 128 * 2 ^ 11 + ((k.sr32 0x082).toNat + 1) % 2 ^ 32 * 2 ^ 32)
/-- The state in which an iteration runs: its beats are charged before it does (R239, R376). -/
def rxPaid (c : Nat) (en : Entry) (p : RelaxProg) (t : Nat) (s : State) : State :=
  if p.paid then s else kilnCharge s c en (rxBeats (rxN en)) t (t + rxOcc (rxN en))
/-- The corrections of what an iteration reads: z, u and the derivative of the active rows, and the slot's columns (R419). -/
def rxCorr (f : RForm) (c : Nat) (en : Entry) (p : RelaxProg) (s : State) : State :=
  let n := rxN en
  let d := (s.clu (c / 4)).slot f.g.toNat
  let row (k : Core) (i j : Nat) : Core := let h := HD.of (en.h j); k.corrTile h ((upto n).map (h.at i))
  (s.correct (fun w => (upto (cdiv n 128)).any (fun q => slotRead (c / 4) d q 0 n (min 128 (n - 128 * q)) w))).upCore c
    (fun k => p.actives.foldl (fun k i => let k := row (row k i 0) i 1; if f.bwd then row k i 3 else k) k)
/-- Iterating every active row and ending the iteration: the progress, the state and the cycle after it. -/
def rxIterate (f : RForm) (c : Nat) (en : Entry) (p : RelaxProg) (t : Nat) (s : State) : Except Stop (RelaxProg × State × Nat) :=
  let k := s.core c
  let n := rxN en
  let d := (s.clu (c / 4)).slot f.g.toNat
  match rxCheckFail k f p n with
  | some e => .error ⟨.arithCheck, .ex, 0, rxCheckInfo k e⟩
  | none =>
    match rxCols s c d n (upto n) with
    | .error x => .error x
    | .ok cols =>
      match rxRowsOut f k t en p cols n p.actives with
      | .error x => .error x
      | .ok outs =>
        let t' := t + rxCycles n p.actives.length
        let s := rxCorr f c en p s
        let r := rxEnd f en { p with paid := false } t' (s.core c) outs
        .ok (r.1, rxMark ((s.setCore c r.2).upClu (c / 4) (fun u => { u with arrayAt := max u.arrayAt (t + rxOcc n) })) c r.1 t', t')

/-! ### Finish (R231) -/

/-- The streams that Finish writes. -/
def rxStreams (f : RForm) : Nat := 1 + (if f.cnt then 1 else 0) + (if f.der && !f.bwd then 1 else 0)
/-- Finish() on one core, complete in cycle t; ABN says of the RELAX that finishes last whether clearing PEND ended it (R241). -/
def rxFinishCore (f : RForm) (en : Entry) (p : RelaxProg) (t : Nat) (k : Core) : Core :=
  let lo := val32 p.lo
  let hi := val32 p.hi
  let bits32 (e : Ex) : BitVec 32 := (rne32 e).1
  let k1 := p.parts.foldl (fun k i =>
    let r := p.row i
    let k := rxWrite t k en 2 i [bits32 (r.res.getD (.inf false))]
    let k := if f.cnt then
        rxWrite t k en 4 i [BitVec.ofNat 32 r.count ||| (if r.settled then 0 else 0x80000000)] else k
    if f.der && !f.bwd then
      let ds := if r.res.isNone then (upto (rxN en)).map (fun _ => (Ex.fin false 0 1, (0 : Fl)))
        else r.lastV.map (fun v => derivRelax f.f lo hi (val32 v))
      (rxWrite t k en 3 i (ds.map (fun d => bits32 d.1))).flagsAt t (ds.foldl (fun g d => g ||| d.2) 0)
    else k) (k.flagsAt t p.fl)
  let unc := p.parts.filter (fun i => !(p.row i).settled)
  let k2 := k1.rxStat 15 8 unc.length
  let k3 := k2.rxStat 23 16 (unc.headD 0xFF)
  let k4 := k3.rxStat 1 1 (if unc.isEmpty then 0 else 1)
  let k5 := (k4.rxStat 4 4 (if f.bwd then 1 else 0)).rxStat 2 2 (if p.fin = some true then 1 else 0)
  k5.setTile f.acc (k5.tile f.acc).cleared
/-- RELAX completes in cycle t, with what Finish writes (R225, R231, R237). -/
def rxFinish (f : RForm) (c : Nat) (en : Entry) (p : RelaxProg) (t : Nat) (s : State) : Fin :=
  ⟨rxRelease f (s.upCore c (rxFinishCore f en p t)) c p t, t, t⟩
/-- Finish begins in cycle t: RELAX goes on owning what it owns, and completes when its cycles have passed (R225, R237). -/
def rxFinishing (f : RForm) (c : Nat) (p : RelaxProg) (abn : Bool) (t : Nat) (s : State) : RelaxProg × State × Nat :=
  let p' := { p with started := true, fin := some abn }
  let t' := t + 8 + p.parts.length * rxStreams f
  (p', rxMark s c p' t', t')

/-! ### The loop (R229) -/

/-- One turn: the end, a trap, or one iteration after which it goes on. -/
inductive RxTurn where
  | done (f : Fin)
  | stop (x : Stop) (s : State)
  | more (p : RelaxProg) (s : State) (t : Nat)
/-- One turn of the loop of R229. -/
def rxTurn (f : RForm) (c : Nat) (en : Entry) (p : RelaxProg) (t : Nat) (s : State) : RxTurn :=
  let k := s.core c
  let finish : RxTurn := let r := rxFinishing f c p false t s; .more r.1 r.2.1 r.2.2
  if p.fin.isSome then .done (rxFinish f c en p t s)
  else if p.actives.isEmpty then finish
  else if (k.sr32 0x083).toNat ≤ (k.sr32 0x082).toNat then
    if (k.getSr 0x08A).getLsbD 2 then
      .stop ⟨.nonconv, .ex, 0, (k.sr32 0x082).setWidth 64⟩ ((rxPause f c en { p with stopped := true } t s).upCore c (fun k => k.rxStat 0 0 1))
    else finish
  else
    let s := rxPaid c en p t s
    match rxIterate f c en p t s with
    | .error x => .stop x (rxPause f c en p t s)
    | .ok (p', s', t') => .more p' s' t'
/-! ### Starting and resuming (R230, R238 to R242) -/

/-- The fresh start on one core (R224, R232, R238, R242). NACT starts as the number of participating rows (log entry 115). -/
def rxFresh (f : RForm) (en : Entry) (k : Core) : RelaxProg × Core :=
  let rows := rxRows k en
  let md := k.rxMode
  let one : BitVec 32 := 0x3F800000
  let inf : BitVec 32 := 0x7F800000
  let p : RelaxProg :=
    { rows := (upto (rxB en)).map (fun i => ⟨rows.contains i, rows.contains i, false, 0, none, []⟩)
      lo := k.sr32 0x086, hi := k.sr32 0x087, mode := md
      xz := sext 10 (bits (k.getSr 0x08B) 9 0), auto := (k.getSr 0x08B).getLsbD 10, started := true, stopped := false, paid := false, fl := 0, fin := none }
  let k1 := if f.warm then k else
    rows.foldl (fun k i => k.setAhr i [inf, inf, inf, if md = 0 then one else k.sr32 0x088]) k
  let k2 := (k1.setSr 0x082 0).setSr 0x081 0x7F800000
  let k3 := k2.setSr 0x089 (BitVec.ofNat 64 (rows.length * 256 + rows.length))
  let k4 := (k3.rxStat 3 3 0).rxStat 4 4 0
  (p, k4.setTile f.acc (k4.tile f.acc).cleared)
/-- A grant with its whole budget, kept until the RELAX ends or stops (R237). -/
def rxLease (s : State) (c t : Nat) : State × Option Nat :=
  let r := s.lease c 64 t
  (if r.2.isSome then r.1.upClu (c / 4) (fun u => { u with left := 1 }) else r.1, r.2)
/-- What starting gives: running from a cycle, a stop, or a wait. -/
inductive RxGo where
  | go (p : RelaxProg) (s : State) (t : Nat)
  | stop (x : Stop) (s : State)
  | wait (s : State)
/-- The Kiln, then the grant, then running: the beats of one iteration are charged at the start and at every resumption (R239,
R376). -/
def rxEnter (f : RForm) (c : Nat) (en : Entry) (t : Nat) (s : State) (ready : State → RelaxProg × State) : RxGo :=
  match kilnCheck s c en (measured (min (rxN en) 128) 8) with
  | some x => .stop x s
  | none =>
    if kilnWait s c en then .wait s
    else
      match rxLease s c t with
      | (s', none) => .wait s'
      | (s', some t0) =>
        let r := ready (kilnCharge s' c en (rxBeats (rxN en)) t0 (t0 + rxOcc (rxN en)))
        let p := { r.1 with paid := true }
        .go p (rxMark r.2 c p t0) t0
/-- A fresh start (R242); an area that leaves the scratchpad is found after RELAX.SHAPE and before the Kiln (log entry 113). -/
def rxStart (f : RForm) (c : Nat) (en : Entry) (t : Nat) (s : State) : RxGo :=
  let k := s.core c
  let u := s.clu (c / 4)
  let d := u.slot f.g.toNat
  match tileStart k f.acc false t, slotStart s c f.g.toNat t with
  | .error x, _ => .stop x s
  | _, .error x => .stop x s
  | _, .ok none => .wait s
  | .ok t1, .ok (some t2) =>
    let rows := rxRows k en
    if u.slotOk f.g.toNat ∧ d.fmt ≠ 1 then .stop (stopF .ex d.fmt) s
    else match rxShape f k u en with
      | some n => .stop (stopShape n) s
      | none =>
        match rxOut en rows (rxAreas f en) with
        | some x => .stop x s
        | none =>
          let ready (s : State) : RelaxProg × State := let r := rxFresh f en (s.core c); (r.1, s.setCore c r.2)
          if rows.isEmpty then
            let r := ready s
            let q := rxFinishing f c r.1 false (max t1 t2) r.2
            .go q.1 q.2.1 q.2.2
          else rxEnter f c en (max t1 t2) s ready
/-- Going on after a stop (R230, R240): the working tile is waited for, the slot is not (log entry 116). -/
def rxResume (f : RForm) (c : Nat) (en : Entry) (p : RelaxProg) (t : Nat) (s : State) : RxGo :=
  let k := s.core c
  let t := ((k.tile f.acc).owners t).foldl (fun u x => max u x.1) t
  if p.stopped ∧ !(k.getSr 0x080).getLsbD 0 then
    let q := rxFinishing f c p true t s
    .go q.1 q.2.1 q.2.2
  else rxEnter f c en t s (fun s =>
    ({ p with started := true, stopped := false }, if p.stopped then s.upCore c (fun k => k.rxStat 0 0 0) else s))
/-- Starting, resuming, or going on. -/
def rxGo (f : RForm) (c : Nat) (en : Entry) (t : Nat) (s : State) : RxGo :=
  match en.mark with
  | .relax p => if p.started then .go p s t else rxResume f c en p t s
  | _ => rxStart f c en t s
/-- The RELAX of an entry runs. -/
def Entry.relaxing (en : Entry) : Bool :=
  match en.mark with
  | .relax p => p.started
  | _ => false
/-- RELAX and RELAX.B (R229, R242): the start, or, of one that runs, one turn of its loop. -/
def bRelax (f : RForm) : EBody := fun c en t s =>
  match rxGo f c en t s with
  | .stop x s => .stop x (finAt t s)
  | .wait s => .wait (finAt t s)
  | .go p s' t' =>
    if en.relaxing then
      match rxTurn f c en p t' s' with
      | .done r => .ok r
      | .stop x s => .stop x (finAt t s)
      | .more _ s t => .wait (finAt t s)
    else .wait (finAt t s')
/-- The handle checks of RELAX at the FE (R223, R242). -/
def relaxCheck (f : RForm) (en : Entry) : Option Stop :=
  let js := (rxAreas f en).map (·.1)
  firstStop (js.map (handleStop en) ++ js.map (fun j =>
    let h := HD.of (en.h j)
    stopIf (h.fmt ≠ if j = 4 then 6 else 1) (stopF .fe h.fmt)))

/-! ### RDAHR and WRAHR (R243) -/

/-- RDAHR. -/
def bRdahr (hd : Hreg) : EBody := fun c en t s =>
  let h := HD.of (en.h 0)
  let k := s.core c
  let R := scanRows h
  match matAddrs hd h (h.region R 4) with
  | .error x => .stop x (finAt t s)
  | .ok ads =>
    let vals := (upto R).flatMap (fun i => (upto 4).map (fun j => (nth 0 (k.ahrRow i) j).toNat))
    .ok ⟨s.setCore c (matWrite k (t + R + 6) hd h ads vals), t + 1, t + R + 6⟩
/-- WRAHR. -/
def bWrahr (ha : Hreg) : EBody := fun c en t s =>
  let h := HD.of (en.h 0)
  let k := s.core c
  let R := scanRows h
  match matAddrs ha h (h.region R 4) with
  | .error x => .stop x (finAt t s)
  | .ok ads =>
    match readChecks k t [⟨ha, 0, h, ads⟩] with
    | some x => .stop x (finAt t s)
    | none =>
      let m := k.padAt t
      let v (n : Nat) : BitVec 32 := BitVec.ofNat 32 (elBits m (nth 0 ads n) 8)
      let k1 := (upto R).foldl (fun k i => k.setAhr i ((upto 4).map (fun j => v (4 * i + j)))) k
      .ok ⟨s.setCore c (k1.corrTile h (h.region R 4)), t + 1, t + R + 6⟩
/-- The checks of RDAHR and WRAHR at the FE. -/
def ahrCheck (en : Entry) : Option Stop :=
  let h := HD.of (en.h 0)
  firstStop [handleStop en 0, stopIf (h.fmt ≠ 1) (stopF .fe h.fmt), stopIf (decide (h.e 0 < h.i 0 + 4)) (badHandle en 0)]

/-! ### ACCEPT (R361), which uses the residual comparator -/

/-- SPEC.W. -/
def Core.specW (k : Core) : Nat := bits (k.getSr 0x0C1) 3 0
/-- An element as ACCEPT compares it: its bits and its exact value. -/
def acceptRow (k : Core) (t : Nat) (r : Hreg) (h : HD) (j n : Nat) : Except Stop (List (Nat × Ex)) :=
  let ixs := (upto n).map (h.at j)
  match matRead k t r h ixs, matAddrs r h ixs with
  | .error x, _ => .error x
  | _, .error x => .error x
  | .ok els, .ok ads => .ok ((ads.map (fun a => elBits (k.padAt t) a h.half)).zip (els.map (·.x)))
/-- Two elements match in tol mode. -/
def tolMatch (tol : Ex) (g c : Ex) : Bool :=
  match g, c with
  | .nan, _ => false
  | _, .nan => false
  | .inf a, .inf b => a == b && !exNan tol && !exLt tol (.fin false 0 1)
  | .inf _, .fin .. => false
  | .fin .., .inf _ => false
  | x, y => let d := exAbs (exSub x y).1; exLt d tol || exEq d tol
/-- Two rows match. -/
def rowsMatch (mode : BitVec 2) (tol : Ex) (g c : List (Nat × Ex)) : Bool :=
  if mode = 0 then (g.zip c).all (fun p => p.1.1 == p.2.1)
  else if mode = 1 then (match g, c with
    | a :: _, b :: _ => exEq a.2 b.2
    | _, _ => true)
  else (g.zip c).all (fun p => tolMatch tol p.1.2 p.2.2)
/-- Rows compared until one does not match: the lanes accepted. -/
def acceptLoop (k : Core) (t : Nat) (hc hg : Hreg) (c g : HD) (mode : BitVec 2) (tol : Ex) (n : Nat) :
    Nat → Nat → Except Stop Nat
  | 0, j => .ok (j + 1)
  | w + 1, j =>
    match acceptRow k t hg g (j + 1) n, acceptRow k t hc c j n with
    | .error x, _ => .error x
    | _, .error x => .error x
    | .ok a, .ok b => if rowsMatch mode tol a b then acceptLoop k t hc hg c g mode tol n w (j + 1) else .ok (j + 1)
/-- ACCEPT. -/
def bAccept (hc hg : Hreg) (mode : BitVec 2) : EBody := fun c en t s =>
  let k := s.core c
  let h := HD.of (en.h 0)
  let g := HD.of (en.h 1)
  match acceptLoop k t hc hg h g mode (val32 ((en.s 0).setWidth 32)) (h.e 0 - h.i 0) (k.specW - 1) 0 with
  | .error x => .stop x (finAt t s)
  | .ok a =>
    let n := h.e 0 - h.i 0
    let k1 := (upto (min a (k.specW - 1))).foldl (fun k j =>
      (k.corrTile g ((upto n).map (g.at (j + 1)))).corrTile h ((upto n).map (h.at j))) k
    .ok ⟨s.setCore c (k1.setSr 0x0C2 (BitVec.ofNat 64 a)), t + 1, t + k.specW + 6⟩
/-- The checks of ACCEPT at the FE. -/
def acceptCheck (k : Core) (mode : BitVec 2) (en : Entry) : Option Stop :=
  let h := HD.of (en.h 0)
  let g := HD.of (en.h 1)
  let w := k.specW
  let bad (f : Nat) : Bool :=
    if mode = 0 then false else if mode = 1 then !fmtAnyInt f else !(fmtFloat f || fmtBk f)
  firstStop [handleStop en 0, handleStop en 1,
    stopIf (bad h.fmt) (stopF .fe h.fmt), stopIf (bad g.fmt || (mode == 0 && h.fmt != g.fmt)) (stopF .fe g.fmt),
    stopIf (decide (h.e 1 < h.i 1 + w)) (badHandle en 0), stopIf (decide (g.e 1 < g.i 1 + w)) (badHandle en 1),
    stopIf (h.e 0 - h.i 0 ≠ g.e 0 - g.i 0) (badHandle en 1)]

end Sys2Proof.Machine
end

