-- ==== Sys2Proof/Machine/Engine.lean ====
section
/-!
DEFINITION. Sys2Proof/Machine/Engine.lean: the engines and the FE around the bodies: what each routed instruction does at
its engine, what holds a head back (R225), deferral in a speculative body (R356), stopping the streams (R247), raising a
cause, running an FE instruction (R20 to R26, R60, R100) and routing one (R22, R101, R353).
-/

namespace Sys2Proof.Machine
open Sys2Proof

/-! ### Bodies -/

/-- What a routed instruction, with physical handle numbers, does at its engine. -/
def bodyOf : Instr → EBody
  | .vadd _ hd ha hb ty rp => bVadd hd ha hb ty rp
  | .vsub _ hd ha hb ty rp => bVsub hd ha hb ty rp
  | .vmul _ hd ha hb ty rp => bVmul hd ha hb ty rp
  | .vfma _ hd ha hb ty rp => bVfma hd ha hb ty rp
  | .vdiv _ hd ha hb ty rp => bVdiv hd ha hb ty rp
  | .vmin _ hd ha hb ty rp => bVmin hd ha hb ty rp
  | .vmax _ hd ha hb ty rp => bVmax hd ha hb ty rp
  | .vabs _ hd ha ty rp => bVabs hd ha ty rp
  | .vneg _ hd ha ty rp => bVneg hd ha ty rp
  | .vand _ hd ha hb ty rp => bVand hd ha hb ty rp
  | .vor _ hd ha hb ty rp => bVor hd ha hb ty rp
  | .vxor _ hd ha hb ty rp => bVxor hd ha hb ty rp
  | .vshl _ hd ha hb ty rp => bVshl hd ha hb ty rp
  | .vshr _ hd ha hb ty rp => bVshr hd ha hb ty rp
  | .vsra _ hd ha hb ty rp => bVsra hd ha hb ty rp
  | .vcmp _ un cond ha hb ty rp => bVcmp un cond ha hb ty rp
  | .vsel _ hd ha hb ty rp => bVsel hd ha hb ty rp
  | .vmov _ hd ha ty rp => bVmov hd ha ty rp
  | .vcvt _ hd ha sat mode ty rp => bVcvt hd ha sat mode ty rp
  | .vqnt _ hd ha hb ty rp => bVqnt hd ha hb ty rp
  | .vdqnt _ hd ha hb ty rp => bVdqnt hd ha hb ty rp
  | .vlog2 _ hd ha ty rp => bVlog2 hd ha ty rp
  | .vexp2 _ hd ha ty rp => bVexp2 hd ha ty rp
  | .vrcp _ hd ha ty rp => bVrcp hd ha ty rp
  | .vrsq _ hd ha ty rp => bVrsq hd ha ty rp
  | .vsqrt _ hd ha ty rp => bVsqrt hd ha ty rp
  | .vtanh _ hd ha ty rp => bVtanh hd ha ty rp
  | .vclass _ ha set ty rp => bVclass ha set ty rp
  | .vredSum _ ha ty rp => bVredSum ha ty rp
  | .vredMax _ hd ha ty rp => bVredMax hd ha ty rp
  | .vredMin _ hd ha ty rp => bVredMin hd ha ty rp
  | .vredMaxi _ hd rp => bVredMaxi hd rp
  | .vxrd _ hd ty rp => bVxrd hd ty rp
  | .vscan _ hd ha ty rp => bVscan hd ha ty rp
  | .vperm _ hd ha hb ty rp => bVperm hd ha hb ty rp
  | .vbcast _ hd _ ty rp => bVbcast hd ty rp
  | .viota _ hd ty rp => bViota hd ty rp
  | .vrng _ hd ha hb rp => bVrng hd ha hb rp
  | .vexpmax _ hd ha ty rp => bVexpmax hd ha ty rp
  | .vmaxi _ ha rp => bVmaxi ha rp
  | .mpush _ => bMpush
  | .minv _ => bMinv
  | .mpop _ => bMpop
  | .mset _ _ fl q => bMset fl q
  | .mget _ => bMget
  | .vskip _ n => bVskip n
  | .mlease _ => bMlease
  | .mrel _ => bMrel
  | .mancScan _ ha => bMancScan ha
  | .mancLoad _ ha => bMancLoad ha
  | .mancColumn _ g ha q => bMancColumn g ha q
  | .mclr _ acc => bMclr acc
  | .mma _ acc g ha q _ _ _ => bMma acc g ha q
  | .mepi _ acc hd act bias _ _ scale clr => bMepi acc hd act bias scale.isSome clr
  | .mtopk _ acc hd emit new k hx _ _ _ => bMtopk acc hd emit new k hx
  | .rdacc _ acc hd _ _ => bRdacc acc hd
  | .mstatTile _ acc hd which => bMstatTile acc hd which
  | .mstatRowanc _ hd => bMstatRowanc hd
  | .mstatDesc _ g hd => bMstatDesc g hd
  | .mstatColanc _ g hd q => bMstatColanc g hd q
  | .relax _ acc g _ f _ _ der cnt warm => bRelax ⟨false, acc, g, f, der.isSome, cnt.isSome, warm⟩
  | .relaxB _ acc _ _ _ _ cnt g warm => bRelax ⟨true, acc, g, .identity, true, cnt.isSome, warm⟩
  | .rdahr _ hd => bRdahr hd
  | .wrahr _ ha => bWrahr ha
  | .accept _ hc hg mode _ => bAccept hc hg mode
  | .ldT _ _ _ _ _ _ => bLdT
  | .ldX _ _ _ _ _ _ _ => bLdX
  | .ldGr _ _ _ _ _ _ _ => bLdGr
  | .ldG _ _ _ _ _ _ _ g => bLdG g
  | .ldGt _ _ _ _ _ _ _ g => bLdGt g
  | .ldSp _ _ _ _ _ => bLdSp
  | .ldNet _ _ _ b e _ _ => bLdNet b e
  | .pref _ _ _ => bPref
  | .linkRecv _ _ _ b _ _ => bLinkRecv b
  | .stT _ _ _ _ _ _ => bStT
  | .stPart _ _ _ _ _ _ => bStPart
  | .stX _ _ _ _ _ _ _ => bStX
  | .stApp _ _ _ _ _ => bStApp
  | .stAppQuery _ _ d => bStAppQuery d
  | .stRmt _ _ _ _ _ _ => bStRmt
  | .stMc _ _ _ b _ _ _ die => bStMc b die
  | .stNet _ _ _ b _ _ _ => bStNet b
  | .linkSend _ _ _ _ _ _ => bLinkSend
  | .linkRed _ _ _ _ _ _ rq inn => bLinkRed rq inn
  | .migr _ _ _ _ _ => bMigr
  | .badd _ _ _ _ _ ty => bScalar .add ty false 0
  | .baddStream _ _ _ _ _ ty => bStream .add ty false 0
  | .band _ _ _ _ _ ty => bScalar .band ty false 0
  | .bandStream _ _ _ _ _ ty => bStream .band ty false 0
  | .bor _ _ _ _ _ ty => bScalar .bor ty false 0
  | .borStream _ _ _ _ _ ty => bStream .bor ty false 0
  | .bxor _ _ _ _ _ ty => bScalar .bxor ty false 0
  | .bxorStream _ _ _ _ _ ty => bStream .bxor ty false 0
  | .bmin _ _ _ _ _ ty => bScalar .min ty false 0
  | .bminStream _ _ _ _ _ ty => bStream .min ty false 0
  | .bmax _ _ _ _ _ ty => bScalar .max ty false 0
  | .bmaxStream _ _ _ _ _ ty => bStream .max ty false 0
  | .bminn _ _ _ _ _ ty => bScalar .minn ty false 0
  | .bminnStream _ _ _ _ _ ty => bStream .minn ty false 0
  | .bmaxn _ _ _ _ _ ty => bScalar .maxn ty false 0
  | .bmaxnStream _ _ _ _ _ ty => bStream .maxn ty false 0
  | .bfmin _ _ _ _ _ => bScalar .fmin .f false 0
  | .bfminStream _ _ _ _ _ => bStream .fmin .f false 0
  | .bfmax _ _ _ _ _ => bScalar .fmax .f false 0
  | .bfmaxStream _ _ _ _ _ => bStream .fmax .f false 0
  | .bmaxi _ _ _ _ _ => bScalar .maxi .d false 0
  | .bmaxiStream _ _ _ _ _ _ => bStream .maxi .d false 0
  | .bxadd _ _ _ _ _ => bScalar .xadd .f false 0
  | .bxaddStream _ _ _ _ _ => bStream .xadd .f false 0
  | .bxrd _ _ e _ _ clr => bScalar .xrd .f clr e
  | .bxrdStream _ _ _ _ _ clr => bStream .xrd .f clr 0
  | .bfaa _ _ _ e _ _ ty => bScalar .faa ty false e
  | .bfaaStream _ _ _ _ _ ty => bStream .faa ty false 0
  | .bcas _ _ _ e _ _ ty => bScalar .cas ty false e
  | .bld _ _ e _ _ ty => bScalar .bld ty false e
  | .bldStream _ _ _ _ _ ty => bStream .bld ty false 0
  | .bst _ _ _ _ _ ty => bScalar .bst ty false 0
  | .bstStream _ _ _ _ _ ty => bStream .bst ty false 0
  | .bhist _ _ _ _ _ => bScalar .hist .d false 0
  | .bhistStream _ _ _ _ _ _ sh => bStream .hist .d false sh.toNat
  | .bpfx _ _ _ e _ _ => bScalar .pfx .d false e
  | .baxpy _ _ _ _ _ _ ty => bScalar .axpy ty false 0
  | .baxpyStream _ _ _ _ _ _ ty => bStream .axpy ty false 0
  | _ => fun _ _ t s => .wait (finAt t s)
/-- The engine of a routed instruction (R19). -/
def engOf (i : Instr) : Option Eng :=
  match (opOf i).toNat / 64 with
  | 1 => some .ld | 2 => some .ex | 3 => some .st | _ => none

/-! ### What holds a head back (R225) -/

/-- Some byte of a tile is owned: of its elements, or of their scale words (R84). -/
def tileOwned (own : Nat) (h : HD) : Bool :=
  h.tile.any (fun ix => match h.addr ix with
    | .ok a => (h.spans [ix] [a]).any (fun w => ownedAt own w.1 w.2)
    | .error _ => false)
/-- A command writes into its own core's scratchpad: a remote copy does where it names that core (R189, R190). -/
def sendsHome (c : Nat) (en : Entry) : Bool :=
  match en.i with
  | .stRmt .. => decide ((en.s 2).toNat = c)
  | .stMc _ _ _ _ _ _ _ die => (mcDests die.toNat (en.s 2)).contains c
  | _ => true
/-- The tiles of a command that lie in its own core's scratchpad, as it places their elements: a raw end has the size of the other end's
(R176, R177). -/
def State.ownTiles (s : State) (c : Nat) (en : Entry) : List HD :=
  let h := HD.of (en.h 0)
  let o := HD.of (en.h 1)
  let plain := [h.as (s.firstFmt c h (en.s 0) (en.s 1) 0)]
  let rows := [h.as (s.rowFmt c h (en.s 0) (en.s 1) en.moving.rows), o]
  let sent := h.as o.fmt :: (if sendsHome c en then [o.as h.fmt] else [])
  match en.i with
  | .stRmt .. => sent | .stMc .. => sent
  | .ldSp .. => [h.as o.fmt, o.as h.fmt]
  | .ldT .. => plain | .stT .. => plain | .stPart .. => plain
  | .ldX .. => rows | .stX .. => rows
  | .stApp .. => [match s.physOf c (en.s 0) with
    | some tr => h.as (appendForm s c en (appendQ s.mem tr.pa) 0).pf
    | none => h]
  | .ldG .. => [] | .ldGt .. => []
  | _ => en.hv.map HD.of
/-- The flag word of a command lies on a byte of its own core that a running RELAX owns (R225). -/
def State.flagHeld (s : State) (c : Nat) (en : Entry) : Bool :=
  faOf en.i ≠ 0 && sendsHome c en && ownedAt (s.core c).relaxOwns (en.s 3).toNat 8
/-- A command reads or writes a byte that a running RELAX of its core owns, or a glaze load writes a slot that a RELAX of the
cluster owns (R225). -/
def State.relaxHolds (s : State) (c : Nat) (en : Entry) : Bool :=
  let own := (s.core c).relaxOwns
  let cluster := [0, 1, 2, 3].map (fun d => 4 * (c / 4) + d)
  let slot (g : Gslot) : Bool := cluster.any (fun d => (s.core d).relaxSlot == some g.toNat)
  (own ≠ 0 && ((s.ownTiles c en).any (tileOwned own) || s.flagHeld c en)) ||
  (match en.i with
    | .ldG _ _ _ _ _ _ _ g => slot g
    | .ldGt _ _ _ _ _ _ _ g => slot g
    | _ => false)
/-- Instructions that the body of a speculative region defers (R352). -/
def deferred (i : Instr) : Bool :=
  match i with
  | .stRmt .. => true | .stMc .. => true | .stNet .. => true
  | .bld .. => false | .bldStream .. => false | .bpfx .. => false
  | .bxrd _ _ _ _ _ clr => clr | .bxrdStream _ _ _ _ _ clr => clr
  | i => decide (0xD0 ≤ (opOf i).toNat)
/-- Green stores (R352). -/
def greenStore : Instr → Bool
  | .stT .. => true | .stPart .. => true | .stX .. => true | _ => false
/-- A deferred instruction at the head of the ST queue: it completes at once, recorded with its lane (R356). -/
def deferHead (c : Nat) (en : Entry) (t : Nat) (s : State) : Fin :=
  finAt t (s.upCore c (fun k => { k with spec := { k.spec with
    defer := k.spec.defer ++ [(en.lane, { en with lane := 14, waited := true, mark := .fresh })] } }))
/-- A body at its engine, with what holds it back and deferral. -/
def gated (body : EBody) : EBody := fun c en t s =>
  if en.lane < 8 ∧ deferred en.i then .ok (deferHead c en t s)
  else if engOf en.i ≠ some .ex ∧ s.relaxHolds c en then .wait (finAt t s)
  else body c en t s
/-- Running the head of an engine's queue with its own body. -/
def runEngine (c : Nat) (e : Eng) (s : State) : Res State :=
  match (s.core c).queue e with
  | [] => .wait s
  | en :: _ => runHead (gated (bodyOf en.i)) c e s

/-! ### Commands in flight (R25, R172, R173, R280, R296, R418) -/

/-- Nothing of an operation is left to perform. -/
def Entry.flown (en : Entry) : Bool := match en.mark with | .bank [] [] _ _ _ => true | _ => false
/-- The resume mark of an operation in flight that has failed (R296, R300). -/
def Entry.failMark (en : Entry) : Mark :=
  match en.mark with
  | .bank _ _ _ fails _ => if isStream en.i then .bank (fails.map (·.1)) [] [] [] [] else .fresh
  | m => m
/-- The end of a command in flight, as far as it can: an operation whose elements have all been performed or have failed completes,
waits, or fails; a remote copy goes on until it has been delivered; a copy that waits for older commands writes its flag word and
completes. What a running RELAX owns is not written (R225). -/
def State.flightEnd (s : State) (c : Nat) (en : Entry) : Res State :=
  let k := s.core c
  let t := max (k.engAt en.eng) (s.cycOf c)
  let done (s : State) (f : Fin) : State := s.upCore c (fun k => k.landed en f)
  match en.mark with
  | .landed _ =>
    if k.ordered en (faOf en.i ≠ 0) || !k.canSignal (engStrm en.eng) en.tok || s.flagHeld c en then .wait s
    else .ok (done (s.ownFlag c t en) (finAt t s))
  | .await => .wait s
  | .shipped _ =>
    (match if sendsHome c en && s.relaxHolds c en then .wait (finAt t s) else bodyOf en.i c en t s with
      | .ok f => .ok (done f.s f)
      | .wait f => .wait f.s
      | _ => .wait s)
  | _ =>
    if en.flown && k.canSignal .st en.tok && !s.relaxHolds c en then
      match bodyOf en.i c en t s with
      | .ok f => .ok (done f.s f)
      | .stop x f => .stop x (f.s.markFlight c en en.failMark)
      | .wait _ => .wait s
      | .fault z => .fault z
    else .wait s
/-- The commands of an engine in flight, oldest first: those that can end do. A failing one raises its cause when no older one is in
flight; while its core stops it is set back with the others (R249, R296). -/
def State.flightTurn (s : State) (c : Nat) (e : Eng) : State × Option Stop :=
  let stops := (s.core c).halting.isSome
  let r := ((s.core c).eng.flight.filter (fun en => en.eng == e)).foldl (fun (a : State × Option Stop × Bool) en =>
    match a.1.flightEnd c en with
    | .ok s1 => (s1, a.2)
    | .stop x s1 => if stops || a.2.2 then (s1, some (a.2.1.getD x), false) else (a.1, a.2.1, false)
    | .wait s1 => (s1, a.2.1, false)
    | .fault _ => (a.1, a.2.1, false)) (s, none, true)
  (r.1, r.2.1)
/-- A command in flight can go on, or complete. -/
def State.flightGoes (s : State) (c : Nat) (en : Entry) : Bool :=
  let k := s.core c
  let ends := !k.ordered en (faOf en.i ≠ 0) && k.canSignal (engStrm en.eng) en.tok
  match en.mark with
  | .await => false
  | .landed _ => ends
  | .shipped n => (n < 32 && !k.ordered en true) || ((upto 256).any (fun d => (s.chan c d).any (fun e => e.ser == en.routed))) || ends
  | _ => !en.failed && (!en.flown || ends)
/-- The LINK.RECV in flight whose transfer has come stands at the head of the LD queue again, when nothing that has begun stands there
(R418). -/
def State.recvBack (s : State) (c : Nat) : State :=
  match (s.core c).eng.flight.find? (fun en => en.mark == .await && (s.recvOf c en).isSome) with
  | none => s
  | some en =>
    if (s.core c).eng.ld.head?.any (fun (x : Entry) => x.mark ≠ .fresh) then s
    else s.upCore c (fun k => { k with eng := { k.eng with
      ld := { en with mark := .fresh } :: k.eng.ld, flight := k.eng.flight.filter (fun x => x.routed ≠ en.routed) } })

/-! ### Stopping the streams (R247 to R249) and raising a cause -/

/-- The instruction of an entry has begun and is at no boundary of its own (R247 step 2): a copy that has begun reading its source (R181),
a bank operation with elements sent, a migration, a send that waits for its slot, a vector repetition that has read, a running RELAX. -/
def Entry.begun (en : Entry) : Bool :=
  match en.mark with
  | .copy m => m.stash ≠ [] || m.vals ≠ [] || m.rows ≠ []
  | .bank _ pending rets fails _ => !(pending.isEmpty && rets.isEmpty && fails.isEmpty)
  | .shipped _ => (match en.i with | .tlbi .. => false | _ => true)
  | .slotted _ => true
  | .reps _ _ seen => seen.isSome
  | .relax p => p.started
  | _ => false
/-- The core's unit runs. -/
def Core.busy (k : Core) : Bool := k.run.isSome && (k.mode == .running || k.mode == .drain false || k.mode == .drain true)
/-- What stands at the head of a copy queue without going on leaves the segments it has entered (R181, R312): a copy runs again from
its first part. -/
def State.setBack (s : State) (c : Nat) (e : Eng) : State :=
  match ((s.core c).queue e).head?.map (fun (en : Entry) => en.mark) with
  | some (.copy m) => { s with mem := leaveAll s.mem (s.env c) m.segs }.setMark c e .fresh
  | some (.bank u p r f segs) => { s with mem := leaveAll s.mem (s.env c) segs }.setMark c e (.bank u p r f [])
  | _ => s
/-- The head of a queue that has begun runs on; a cause it meets is not recorded (R249). -/
def State.goOn (s : State) (c : Nat) (e : Eng) : State :=
  match runEngine c e s with
  | .ok x => x
  | .wait x => x
  | .stop _ x => x.setBack c e
  | .fault _ => s
/-- What has begun at the head of an engine runs towards its end (R247 step 2). A vector instruction keeps its remaining
repetitions; a RELAX stops at its boundary (R240), or finishes. -/
def State.finishHeadOf (s : State) (c : Nat) (e : Eng) : State :=
  match (s.core c).queue e with
  | [] => s
  | en :: _ =>
    if !en.begun then s
    else match en.mark, rxForm en.i with
      | .relax p, some f => if p.fin.isSome then s.goOn c e else rxPause f c en p ((s.core c).engAt .ex) s
      | _, _ => s.goOn c e
/-- Everything that has begun in the engines of a core runs towards its end. -/
def State.finishBegun (s : State) (c : Nat) : State :=
  let s1 := ((s.finishHeadOf c .ld).finishHeadOf c .ex).finishHeadOf c .st
  ((s1.flightTurn c .ld).1.flightTurn c .st).1
/-- Something that has begun is not complete yet and can go on. An instruction whose token finds no room counts as uncompleted (R26), and
so does a copy that waits for an older command which does. -/
def State.unfinished (s : State) (c : Nat) : Bool :=
  let k := s.core c
  [Eng.ld, .ex, .st].any (fun e => (k.queue e).head?.any (fun en => en.begun && k.canSignal (engStrm e) en.tok)) ||
  k.eng.flight.any (s.flightGoes c)
/-- Operations that have failed in flight stand at the head of the ST queue again (R296 step 3), and a LINK.RECV that has found no
transfer at the head of the LD queue: it has not begun reading (R181). -/
def Core.flightBack (k : Core) : Core :=
  let waits := k.eng.flight.filter (fun en => en.mark == .await)
  { k with eng := { k.eng with
      ld := waits.map (fun en => { en with mark := .fresh }) ++ k.eng.ld
      st := k.eng.flight.filter Entry.failed ++ k.eng.st
      flight := k.eng.flight.filter (fun en => !en.failed && en.mark != .await) } }
/-- The streams have stopped for something that records no cause: the FE's blocking instruction is abandoned. -/
def Core.hushed (k : Core) : Core := { k.settled with sleep := .awake, halting := none }
/-- A core whose streams have stopped for a swap (R266 step 1): its frame is recorded, its lease ends. What FF.FE, FF.LD, FF.EX and FF.ST
held before comes back with the core (`swapIn`). -/
def Core.swappedOut (k : Core) : Core :=
  { k.hushed.recordPcs with mode := .swapped, ff := [3, 4, 5, 6].map k.hushed.getSr }
/-- The streams have stopped: the cause is taken, the unit is pre-empted (R265) or cancelled (R334), or the core halts for a
swap (R266), from which its cluster counts as idle (R369). -/
def State.stopped (s : State) (c : Nat) (h : Halting) : State :=
  let s1 := ((s.setBack c .ld).setBack c .st).upCore c Core.flightBack
  match h with
  | .cause x => s1.takeStop c x
  | .preempt => ((s1.unwait c).upCore c Core.hushed).requeue c true
  | .cancel => ((s1.unwait c).upCore c Core.hushed).endUnit c false false
  | .swap => (((s1.unwait c).endLease c).upClu (c / 4) (fun u => { u with idleFrom := s.cycOf c })).upCore c Core.swappedOut
/-- A core that stops goes on with what has begun, and has stopped when all of that is complete (R247). -/
def State.settle (s : State) (c : Nat) : State :=
  let s1 := s.finishBegun c
  match (s1.core c).halting with
  | none => s1
  | some h => if s1.unfinished c then s1 else s1.stopped c h
/-- Which reason to stop takes the place of which (R249): a swap that of a cause, and what ends or aborts the unit that of a swap. -/
def Halting.rank : Halting → Nat
  | .cause _ => 0 | .swap => 1 | .preempt => 2 | .cancel => 3
/-- A core stops; another reason than a cause takes the place of one for which it stops already, unless that ends the unit (R249). -/
def State.stopFor (s : State) (c : Nat) (h : Halting) : State :=
  (s.upCore c (fun k => { k with halting := match k.halting with
    | some x => if h.rank < x.rank then some x else some h
    | none => some h })).settle c
/-- Stopping one core by a cause; no second cause is recorded (R249). -/
def stopCore (c : Nat) (x : Stop) (s : State) : State :=
  if (s.core c).halting.isSome then s.settle c else s.stopFor c (.cause x)
/-- The cores of a partition that run a unit. -/
def State.busyCores (s : State) (p : Nat) : List Nat := (s.part p).coreList.filter (fun c => (s.core c).busy)
/-- The engine of a stream. -/
def strmEng : Strm → Option Eng
  | .fe => none | .ld => some .ld | .ex => some .ex | .st => some .st
/-- The engines whose causes go before that of a stream in one cycle (R248). -/
def engsBefore : Strm → List Eng
  | .ex => [.ld] | .st => [.ld, .ex] | _ => []
/-- The cycle in which the head of an engine starts or goes on; none while it is held back. -/
def State.headAt (s : State) (c : Nat) (e : Eng) : Option Nat :=
  let k := s.core c
  match k.queue e with
  | [] => none
  | en :: _ =>
    if k.holds e || !k.headReady e en then none else some (goesAt s c en (startAt k e en (k.tokAt e en)))
/-- The cause that the head of an engine raises, when it starts or goes on by cycle t (R248). -/
def State.causeBy (s : State) (c : Nat) (e : Eng) (t : Nat) : Option (Stop × State) :=
  match s.headAt c e with
  | none => none
  | some u =>
    if t < u then none
    else match runEngine c e s with
      | .stop x s1 => some (x, s1)
      | _ => none
/-- Which of the causes of one cycle is recorded: that of the first stream in the order FE, LD, EX, ST (R248). -/
def State.firstCause (s : State) (c : Nat) (x : Stop) : Stop × State :=
  match strmEng x.src with
  | none => (x, s)
  | some e => ((engsBefore x.src).findSome? (fun b => s.causeBy c b ((s.core c).engAt e))).getD (x, s)
/-- Raising a cause on a core: the raising instruction is set back to its start. An over-declaration of fixed-latency mode also stops
every other core of the partition (R379). -/
def raise (c : Nat) (x : Stop) (s : State) : State :=
  let p := s.partNo c
  let r := s.firstCause c x
  let s0 := match strmEng r.1.src with
    | some e => r.2.setBack c e
    | none => r.2
  let s1 := stopCore c r.1 s0
  if r.1.cause = .pwrBreach ∧ r.1.src ≠ .fe then
    ((s.busyCores p).filter (· ≠ c)).foldl (fun s d => stopCore d ⟨.pwrBreach, .fe, 0, 1⟩ s) s1
  else s1
/-- The core fetches and runs: it runs a unit, its FE does not sleep, and its streams do not stop. -/
def Core.live (k : Core) : Bool := k.mode == .running && k.sleep == .awake && k.halting.isNone
/-- The FE may still start an instruction by the cycle in which the head of an engine raises a cause: the head is left as it was until
the FE has gone on, since a cause of the FE in that cycle goes first (R248). -/
def State.feFirst (s : State) (c : Nat) (e : Eng) : Bool :=
  (s.core c).live && (match s.headAt c e with
    | some t => decide (max (s.core c).eng.cyc (s.cycOf c) ≤ t)
    | none => false)
/-- A result of running the head of an engine in a state, as a step answers it; `back` undoes settings of the schedule. -/
def ran (c : Nat) (e : Eng) (s0 : State) (back : State → State) (r : Res State) : Out :=
  match r with
  | .ok s => .next (back s)
  | .stop x s => .next (if s0.feFirst c e then s0 else raise c x (back s))
  | .wait s => .next (back s)
  | .fault f => .fault f

/-! ### FE instructions (R20 to R26, R100) -/

/-- PCFE of the core that runs, before its instruction. -/
def State.pcNow (s : State) : W64 := (s.core s.cur).r.pc
/-- The FE's handle names (R32). -/
def Core.ren (k : Core) (h : Hreg) : Hreg := rename (k.getSr 0x00A) h
/-- Adding n to PCFE. -/
def Core.skip (k : Core) (n : Nat) : Core := k.setPc (k.r.pc + BitVec.ofNat 64 n)
/-- The cycle from which an FE instruction can start, when it can: its tokens and its registers are there. -/
def Core.feStart (k : Core) (i : Instr) : Option (Core × Nat) :=
  if k.sigHeld .fe || k.regWait i || !(k.eng.satisfied || k.tokReady .fe (tokOf i)) then none
  else
    let g := if k.eng.satisfied then (k, 0) else k.takeToks .fe (tokOf i)
    let t := max (max (max k.eng.cyc (k.regAt i)) (k.waitAt i)) g.2
    let k1 := (if k.eng.satisfied then g.1 else g.1.noteTaken .fe (tokOf i) t).flush .fe t
    some ({ k1 with eng := { k1.eng with satisfied := true } }, t)
/-- The end of an FE instruction: its waits are spent, and its signals are pushed at completion (R24, R25). -/
def Core.feDone (k : Core) (tok : Tok) (at' : Nat) : Core :=
  if k.run.isSome then ({ k with eng := { k.eng with satisfied := false } }).signals .fe tok at' else k
/-- An FE instruction with physical handle numbers: its decoding causes, its waits, its body, and what `last` does at its
completion. The body runs with PCFE behind the instruction; one that stops or waits leaves PCFE at it. -/
def feRunK (last : Core → Nat → Core) (i : Instr) (body : Nat → State → Res State) (s : State) : Out :=
  let c := s.cur
  let k := s.core c
  if !k.live || k.decodeWaits i then .next s
  else match k.feStop i with
    | some x => .next (raise c x s)
    | none =>
      match k.feStart i with
      | none => .next s
      | some (k1, t) =>
        match k1.earlyReg t (sReads i) (hRead i) with
        | some x => .next (raise c x (s.setCore c k1))
        | none =>
          let k2 := { (k1.skip i.size) with eng := { k1.eng with cyc := t + 1 } }
          let back (s : State) : State := s.upCore c (fun q => q.setPc k.r.pc)
          match body t (s.setCore c k2) with
          | .ok s => .next (s.upCore c (fun q => last q (t + feLat i)))
          | .stop x s => .next (raise c x (back s))
          | .wait s => .next (back s)
          | .fault f => .fault f
/-- An FE instruction whose waits are spent and whose signals are pushed at its completion. -/
def feRun (i : Instr) (body : Nat → State → Res State) (s : State) : Out :=
  feRunK (fun q at' => q.feDone (tokOf i) at') i body s
/-- A body that only changes its core. -/
def feCore (f : Nat → Core → Res Core) (c t : Nat) (s : State) : Res State := (f t (s.core c)).map (s.setCore c)

/-! ### Routing (R22, R60, R101, R353, R356) -/

/-- STS and HST have written their bytes before anything is routed (R101): the first cycle from which routing is allowed. -/
def Core.memAt (k : Core) : Nat :=
  k.eng.due.foldl (fun t d => match d.wr with
    | .mem _ _ => if d.strm = .fe then max t d.due else t
    | _ => t) 0
/-- A handle image that an instruction reads in its core's scratchpad at routing (R182). -/
def Core.imageAt (k : Core) (t : Nat) (a : W64) : Except Stop W256 :=
  if a.toNat % 32 ≠ 0 then .error ⟨.align, .fe, a, 0⟩
  else if 0x3FFFE0 < a.toNat then .error ⟨.handle, .fe, a, 0⟩
  else match k.padBad a.toNat 32 with
    | some b => .error (stopUe .fe 0 b)
    | none =>
      let img := BitVec.ofNat 256 (leNat (rdN (k.padAt t) a.toNat 32))
      match (HD.of img).check with
      | none => .ok img
      | some .format => .error (stopF .fe (HD.of img).fmt)
      | some _ => .error ⟨.handle, .fe, 0, 0⟩
/-- The instruction reads a handle image at s[a]. -/
def readsImage : Instr → Bool
  | .ldSp .. => true | .stRmt .. => true | .stMc .. => true | _ => false
/-- The handle images of an instruction, or MEM.UE (R420). -/
def Core.images (k : Core) (t : Nat) (i : Instr) (sv : List W64) : Except Stop (List W256) :=
  let hs := hImages i
  match hs.findSome? (fun o => o.bind (fun h => k.badIn isHandle (4 * h.toNat) 4)) with
  | some w => .error (stopUe .fe 5 (8 * w))
  | none =>
    let l := hs.map (fun o => match o with | some h => k.getH h | none => 0)
    if readsImage i then
      match k.imageAt t (nth 0 sv 0) with
      | .ok img => .ok (l ++ [img])
      | .error x => .error x
    else .ok l
/-- The handle images that routing reads are corrected (R421). -/
def Core.imagesRead (k : Core) (i : Instr) (sv : List W64) : Core :=
  if k.weak.isEmpty then k
  else
    let k1 := ((hImages i).filterMap id).foldl (fun k h => k.corrects isHandle (4 * h.toNat) 4) k
    if readsImage i then k1.corrPad [((nth 0 sv 0).toNat, 32)] else k1
/-- The lane of an instruction at routing (R353, R354): 15 for none, 8 for a lane-split handle, or what stops it. -/
def Core.laneOf (k : Core) (i : Instr) (h : HD) : Except Stop Nat :=
  let w := k.specW
  let tag := bits (k.getSr 0x00B) 3 0
  let byTag : Except Stop Nat :=
    if (8 ≤ tag ∧ tag ≤ 14) ∨ (tag < 8 ∧ w ≤ tag) then .error ⟨.specDefer, .fe, 0, BitVec.ofNat 64 tag⟩
    else .ok (if tag = 15 then 0 else tag)
  let query := match i with | .stAppQuery .. => true | _ => false
  let app := match i with | .stApp .. => true | _ => false
  if k.ha || k.spec.st ≠ .body then .ok 15
  else if (greenStore i || app) && h.lspl then (if h.e 4 = w then .ok 8 else .error (stopH .fe (hReg i 0) 0))
  else if greenStore i || app || query || deferred i then byTag
  else .ok 15
/-- The lanes whose deferral queue an instruction takes an entry of (R354, R356): for a lane-split handle, those that own an
element of its tile. -/
def takesLanes (i : Instr) (h : HD) (lane w : Nat) : List Nat :=
  match i with
  | .stAppQuery .. => []
  | _ => if lane = 8 then (upto w).filter (fun j => nth 0 (h.split h.pos) 4 ≤ j) else if lane < 8 then [lane] else []
/-- The index of the active declaration, counted from 1; 0 for none (R375). -/
def Core.activeTag (k : Core) : Nat :=
  match k.decls.findIdx? (fun d => d.out && d.active) with
  | some j => j + 1
  | none => 0
/-- Instructions that carry a power tag (R375). -/
def powerTagged : Instr → Bool
  | .mma .. => true | .relax .. => true | .relaxB .. => true | _ => false
/-- The entry that routing makes. -/
def Core.entryOf (k : Core) (i : Instr) (t : Nat) (hv : List W256) (lane : Nat) : Entry :=
  { i := i, pc := k.r.pc, sv := (sReads i).map k.getS, hv := hv, waited := false, mark := .fresh,
    tag := if powerTagged i then k.activeTag else 0, lane := lane, routed := t }
/-- The address that SPEC.SIDE names for a copy or bank instruction (R348). -/
def sideAddr (i : Instr) (en : Entry) : W64 := match engOf i with
  | some .ex => 0
  | some _ => en.s 0
  | none => 0
/-- Routing an instruction with physical handle numbers, its FE checks in `chk`, in the first cycle in which its queue has room
(R20); at the head of a free queue its engine runs it in the same step. -/
def route (e : Eng) (i : Instr) (chk : Nat → Entry → State → Option Stop) (s : State) : Out :=
  let c := s.cur
  let k := s.core c
  let halt (x : Stop) : Out := .next (raise c x s)
  if !k.live then .next s
  else if privileged i ∧ !k.isPriv then halt (stop0 .priv .fe)
  else if k.sigHeld .fe || k.regWait i then .next s
  else
    let t0 := max (max k.eng.cyc (k.regAt i)) k.memAt
    let t := (k.roomAt e i t0).getD t0
    let k1 := k.flush .fe t
    match k1.earlyReg t (sReads i) ((hImages i).filterMap id) with
    | some x => halt x
    | none =>
      match k1.images t i ((sReads i).map k1.getS) with
      | .error x => halt x
      | .ok hv =>
        let k1 := k1.imagesRead i ((sReads i).map k1.getS)
        let en0 := k1.entryOf i t hv 15
        match chk c en0 (s.setCore c k1) with
        | some x => halt x
        | none =>
          match k1.specFate i with
          | .illegal => halt (stop0 .illegal .fe)
          | .side => halt (stopSide .fe i (sideAddr i en0))
          | .pass =>
            match k1.laneOf i (HD.of (en0.h 0)) with
            | .error x => halt x
            | .ok lane =>
              let ls := takesLanes i (HD.of (en0.h 0)) lane k1.specW
              match ls.find? (fun j => decide (64 ≤ mget 0 k1.spec.room j)) with
              | some j => halt ⟨.specDefer, .fe, 0, BitVec.ofNat 64 j⟩
              | none =>
                if (k.roomAt e i t0).isNone then .next s
                else
                  let en := { en0 with lane := lane }
                  let room := ls.foldl (fun m j => mset m j (mget 0 m j + 1)) k1.spec.room
                  let k2 := k1.setQueue e (k1.queue e ++ [en])
                  let k3 := { (k2.skip i.size) with
                    eng := { k2.eng with cyc := t + 1, satisfied := false }
                    spec := { k2.spec with room := room } }
                  let s1 := s.setCore c k3
                  if (k1.queue e).isEmpty && !k1.holds e then ran c e s1 id (runEngine c e s1) else .next s1
/-- A routed instruction as the program names it: its handles are renamed (R32). -/
def routed (e : Eng) (i : Instr) (chk : Nat → Entry → State → Option Stop) (s : State) : Out :=
  route e (mapH (s.core s.cur).ren i) chk s
/-- No check at the FE. -/
def noChk (_ : Nat) (_ : Entry) (_ : State) : Option Stop := none

/-! ### The tenant's window of the glaze (R270) -/

/-- The slot lies outside the window: PERM at the FE, subcause 4. -/
def slotWin (s : State) (c : Nat) (g : Gslot) : Option Stop :=
  let v := (s.part (s.partNo c)).getSr 0x211
  if g.toNat < bits v 57 52 ∨ bits v 63 58 < g.toNat then some (stopX .fe .perm 4 0 0) else none
/-- A range of stack bytes lies outside the window. -/
def stackWin (s : State) (c lo hi : Nat) : Option Stop :=
  let v := (s.part (s.partNo c)).getSr 0x211
  if lo < hi ∧ (lo < bits v 18 0 ∨ bits v 44 26 < hi) then some (stopX .fe .perm 4 0 0) else none

end Sys2Proof.Machine
end

