-- ==== Sys2Proof/Machine/Scalar.lean ====
section
/-!
DEFINITION. Sys2Proof/Machine/Scalar.lean: scalar arithmetic and logic, immediates and constants (R102 to R105).
-/

namespace Sys2Proof.Machine
open Sys2Proof

/-- 1 for true. -/
def bit01 (b : Bool) : W64 := if b then 1 else 0
/-- a × 2^(b[5:0]). -/
def shlV (a b : W64) : W64 := a <<< (b.toNat % 64)
/-- floor(a / 2^(b[5:0])), a unsigned. -/
def shrV (a b : W64) : W64 := a >>> (b.toNat % 64)
/-- floor(a / 2^(b[5:0])), a signed. -/
def sraV (a b : W64) : W64 := BitVec.ofInt 64 (a.toInt / 2 ^ (b.toNat % 64))
/-- Bits 127:64 of the signed product. -/
def mulHigh (a b : W64) : W64 := BitVec.ofInt 64 (a.toInt * b.toInt / 2 ^ 64)
/-- Bits 127:64 of the unsigned product. -/
def mulHighN (a b : W64) : W64 := BitVec.ofNat 64 (a.toNat * b.toNat / 2 ^ 64)
/-- DIV (R103): truncated toward zero; all ones for b = 0. -/
def divS (a b : W64) : W64 := if b = 0 then BitVec.allOnes 64 else BitVec.ofInt 64 (a.toInt.tdiv b.toInt)
/-- DIVN (R103). -/
def divN (a b : W64) : W64 := if b = 0 then BitVec.allOnes 64 else BitVec.ofNat 64 (a.toNat / b.toNat)
/-- REM (R103): a for b = 0. -/
def remS (a b : W64) : W64 := if b = 0 then a else a - b * divS a b
/-- REMN (R103). -/
def remN (a b : W64) : W64 := if b = 0 then a else a - b * divN a b
/-- Leading zero bits of an n-bit number. -/
def clzN : Nat → Nat → Nat
  | 0, _ => 0
  | n + 1, v => if v.testBit n then 0 else clzN n v + 1
/-- Trailing zero bits of an n-bit number. -/
def ctzN : Nat → Nat → Nat
  | 0, _ => 0
  | n + 1, v => if v % 2 = 1 then 0 else ctzN n (v / 2) + 1
/-- One bits of an n-bit number. -/
def popN : Nat → Nat → Nat
  | 0, _ => 0
  | n + 1, v => v % 2 + popN n (v / 2)
/-- An instruction whose only effect is a scalar result computed from the core (R102). -/
def aluRun (i : Instr) (d : Sreg) (f : Core → W64) (s : State) : Out :=
  feRun i (feCore (fun t k => .ok (k.result t (feLat i) d (f k))) s.cur) s

/-! ### Register to register (R102, R103) -/

/-- ADD: d ← a + b. -/
def execAdd (t : Tok) (d a b : Sreg) (s : State) : Out := aluRun (.add t d a b) d (fun k => k.getS a + k.getS b) s
/-- SUB: d ← a − b. -/
def execSub (t : Tok) (d a b : Sreg) (s : State) : Out := aluRun (.sub t d a b) d (fun k => k.getS a - k.getS b) s
/-- AND: d ← a AND b. -/
def execAnd (t : Tok) (d a b : Sreg) (s : State) : Out := aluRun (.and t d a b) d (fun k => k.getS a &&& k.getS b) s
/-- OR: d ← a OR b. -/
def execOr (t : Tok) (d a b : Sreg) (s : State) : Out := aluRun (.or t d a b) d (fun k => k.getS a ||| k.getS b) s
/-- XOR: d ← a XOR b. -/
def execXor (t : Tok) (d a b : Sreg) (s : State) : Out := aluRun (.xor t d a b) d (fun k => k.getS a ^^^ k.getS b) s
/-- SHL: d ← a × 2^(b[5:0]). -/
def execShl (t : Tok) (d a b : Sreg) (s : State) : Out := aluRun (.shl t d a b) d (fun k => shlV (k.getS a) (k.getS b)) s
/-- SHR: logical shift right by b[5:0]. -/
def execShr (t : Tok) (d a b : Sreg) (s : State) : Out := aluRun (.shr t d a b) d (fun k => shrV (k.getS a) (k.getS b)) s
/-- SRA: arithmetic shift right by b[5:0]. -/
def execSra (t : Tok) (d a b : Sreg) (s : State) : Out := aluRun (.sra t d a b) d (fun k => sraV (k.getS a) (k.getS b)) s
/-- SLT: signed comparison. -/
def execSlt (t : Tok) (d a b : Sreg) (s : State) : Out := aluRun (.slt t d a b) d (fun k => bit01 ((k.getS a).slt (k.getS b))) s
/-- SLTN: unsigned comparison. -/
def execSltn (t : Tok) (d a b : Sreg) (s : State) : Out := aluRun (.sltn t d a b) d (fun k => bit01 ((k.getS a).ult (k.getS b))) s
/-- SEQ: equality. -/
def execSeq (t : Tok) (d a b : Sreg) (s : State) : Out := aluRun (.seq t d a b) d (fun k => bit01 (k.getS a == k.getS b)) s
/-- SEL: a when the old d is not 0, else b. -/
def execSel (t : Tok) (d a b : Sreg) (s : State) : Out := aluRun (.sel t d a b) d (fun k => if k.getS d ≠ 0 then k.getS a else k.getS b) s
/-- MIN: signed least. -/
def execMin (t : Tok) (d a b : Sreg) (s : State) : Out := aluRun (.min t d a b) d (fun k => if (k.getS a).sle (k.getS b) then k.getS a else k.getS b) s
/-- MAX: signed greatest. -/
def execMax (t : Tok) (d a b : Sreg) (s : State) : Out := aluRun (.max t d a b) d (fun k => if (k.getS a).sle (k.getS b) then k.getS b else k.getS a) s
/-- MINN: unsigned least. -/
def execMinn (t : Tok) (d a b : Sreg) (s : State) : Out := aluRun (.minn t d a b) d (fun k => if (k.getS a).ule (k.getS b) then k.getS a else k.getS b) s
/-- MAXN: unsigned greatest. -/
def execMaxn (t : Tok) (d a b : Sreg) (s : State) : Out := aluRun (.maxn t d a b) d (fun k => if (k.getS a).ule (k.getS b) then k.getS b else k.getS a) s
/-- MUL: low half of the product. -/
def execMul (t : Tok) (d a b : Sreg) (s : State) : Out := aluRun (.mul t d a b) d (fun k => k.getS a * k.getS b) s
/-- MULH: high half of the signed product. -/
def execMulh (t : Tok) (d a b : Sreg) (s : State) : Out := aluRun (.mulh t d a b) d (fun k => mulHigh (k.getS a) (k.getS b)) s
/-- MULHN: high half of the unsigned product. -/
def execMulhn (t : Tok) (d a b : Sreg) (s : State) : Out := aluRun (.mulhn t d a b) d (fun k => mulHighN (k.getS a) (k.getS b)) s
/-- DIV: signed quotient (R103). -/
def execDiv (t : Tok) (d a b : Sreg) (s : State) : Out := aluRun (.div t d a b) d (fun k => divS (k.getS a) (k.getS b)) s
/-- DIVN: unsigned quotient (R103). -/
def execDivn (t : Tok) (d a b : Sreg) (s : State) : Out := aluRun (.divn t d a b) d (fun k => divN (k.getS a) (k.getS b)) s
/-- REM: signed remainder (R103). -/
def execRem (t : Tok) (d a b : Sreg) (s : State) : Out := aluRun (.rem t d a b) d (fun k => remS (k.getS a) (k.getS b)) s
/-- REMN: unsigned remainder (R103). -/
def execRemn (t : Tok) (d a b : Sreg) (s : State) : Out := aluRun (.remn t d a b) d (fun k => remN (k.getS a) (k.getS b)) s
/-- CLZ: leading zero bits. -/
def execClz (t : Tok) (d a : Sreg) (s : State) : Out := aluRun (.clz t d a) d (fun k => BitVec.ofNat 64 (clzN 64 (k.getS a).toNat)) s
/-- CTZ: trailing zero bits. -/
def execCtz (t : Tok) (d a : Sreg) (s : State) : Out := aluRun (.ctz t d a) d (fun k => BitVec.ofNat 64 (ctzN 64 (k.getS a).toNat)) s
/-- POPC: one bits. -/
def execPopc (t : Tok) (d a : Sreg) (s : State) : Out := aluRun (.popc t d a) d (fun k => BitVec.ofNat 64 (popN 64 (k.getS a).toNat)) s

/-! ### Immediates and constants (R51, R104, R105) -/

/-- ADDI: d ← a + sext(imm8). -/
def execAddi (t : Tok) (d a : Sreg) (imm : BitVec 8) (s : State) : Out := aluRun (.addi t d a imm) d (fun k => k.getS a + imm.signExtend 64) s
/-- ANDI: d ← a AND sext(imm8). -/
def execAndi (t : Tok) (d a : Sreg) (imm : BitVec 8) (s : State) : Out := aluRun (.andi t d a imm) d (fun k => k.getS a &&& imm.signExtend 64) s
/-- ORI: d ← a OR sext(imm8). -/
def execOri (t : Tok) (d a : Sreg) (imm : BitVec 8) (s : State) : Out := aluRun (.ori t d a imm) d (fun k => k.getS a ||| imm.signExtend 64) s
/-- XORI: d ← a XOR sext(imm8). -/
def execXori (t : Tok) (d a : Sreg) (imm : BitVec 8) (s : State) : Out := aluRun (.xori t d a imm) d (fun k => k.getS a ^^^ imm.signExtend 64) s
/-- SHLI: shift left. -/
def execShli (t : Tok) (d a : Sreg) (imm : BitVec 6) (s : State) : Out := aluRun (.shli t d a imm) d (fun k => shlV (k.getS a) (imm.setWidth 64)) s
/-- SHRI: logical shift right. -/
def execShri (t : Tok) (d a : Sreg) (imm : BitVec 6) (s : State) : Out := aluRun (.shri t d a imm) d (fun k => shrV (k.getS a) (imm.setWidth 64)) s
/-- SRAI: arithmetic shift right. -/
def execSrai (t : Tok) (d a : Sreg) (imm : BitVec 6) (s : State) : Out := aluRun (.srai t d a imm) d (fun k => sraV (k.getS a) (imm.setWidth 64)) s
/-- SLTI: signed comparison with sext(imm8). -/
def execSlti (t : Tok) (d a : Sreg) (imm : BitVec 8) (s : State) : Out := aluRun (.slti t d a imm) d (fun k => bit01 ((k.getS a).slt (imm.signExtend 64))) s
/-- MOVI: the 42-bit immediate, sign-extended. -/
def execMovi (t : Tok) (d : Sreg) (hi : BitVec 14) (lo : BitVec 28) (s : State) : Out :=
  aluRun (.movi t d hi lo) d (fun _ => (hi ++ lo).signExtend 64) s
/-- MOVHI: bits 63:42 replaced by the 22-bit immediate. -/
def execMovhi (t : Tok) (d : Sreg) (hi : BitVec 14) (lo : BitVec 8) (s : State) : Out :=
  aluRun (.movhi t d hi lo) d (fun k => (hi ++ lo) ++ (k.getS d).setWidth 42) s

end Sys2Proof.Machine
end

