-- ==== Sys2Proof/Machine/HandleOps.lean ====
section
/-!
DEFINITION. Sys2Proof/Machine/HandleOps.lean: spill memory, scalar and handle accesses of the scratchpad, and the handle
instructions (R109 to R115).
-/

namespace Sys2Proof.Machine
open Sys2Proof

/-! ### What an FE access of the scratchpad meets (R36, R39, R101, R110, R225) -/

/-- A double or an image at an address: ALIGN, then HANDLE, with FF.ADDR the address. -/
def padStop (a : W64) (n : Nat) : Option Stop :=
  if a.toNat % n ≠ 0 then some ⟨.align, .fe, a, 0⟩
  else if padSize - n < a.toNat then some ⟨.handle, .fe, a, 0⟩
  else none
/-- ACC.BUSY naming the RELAX that owns the bytes (R208, R225). -/
def relaxBusy (k : Core) : Stop :=
  match k.relaxing with
  | some (en, _) => ⟨.accBusy, .fe, en.pc, (((rxForm en.i).map RForm.acc).getD 0).setWidth 64⟩
  | none => ⟨.accBusy, .fe, 0, 0⟩
/-- An FE access of n bytes at a: its checks, then `go`. -/
def padAccess (k : Core) (a : W64) (n : Nat) (go : Nat → Res Core) : Res Core :=
  match padStop a n with
  | some x => .stop x k
  | none =>
    if ownedAt k.relaxOwns a.toNat n then (if k.interlocked then .wait k else .stop (relaxBusy k) k) else go a.toNat
/-- A read: MEM.UE (R420) and EARLY.READ in debug mode come first; what it reads is corrected (R421). -/
def padReadAt (k : Core) (t a n : Nat) (go : Core → List Byte → Res Core) : Res Core :=
  match k.padBad a n with
  | some b => .stop (stopUe .fe 0 b) k
  | none => match k.earlyPad .fe false t a n with
    | some x => .stop x k
    | none => go (k.corrPad [(a, n)]) (rdN (k.padAt t) a n)
/-- An uncorrectable spill slot. -/
def Core.spillBad (k : Core) (n cnt : Nat) : Option Stop := (k.badIn isSpill n cnt).map (fun w => stopUe .fe 1 (8 * w))
/-- Reading spill slots: MEM.UE, or what follows (R420, R421). -/
def spillRead (k : Core) (n cnt : Nat) (go : Core → Res Core) : Res Core :=
  match k.spillBad n cnt with | some y => .stop y k | none => go (k.corrects isSpill n cnt)
/-- Reading a handle: MEM.UE, or what follows (R420, R421). -/
def handleRead (k : Core) (h : Hreg) (go : Core → Res Core) : Res Core :=
  match k.handleBad h with | some y => .stop y k | none => go (k.corrects isHandle (4 * h.toNat) 4)

/-! ### Spill memory and scalars (R109, R110) -/

/-- SPILL. -/
def execSpill (t : Tok) (d : Sreg) (slot : BitVec 9) (s : State) : Out :=
  feRun (.spill t d slot) (feCore (fun _ k => .ok (k.setSpill slot.toNat (k.getS d))) s.cur) s
/-- FILL. -/
def execFill (t : Tok) (d : Sreg) (slot : BitVec 9) (s : State) : Out :=
  feRun (.fill t d slot) (feCore (fun n k =>
    spillRead k slot.toNat 1 (fun k => .ok (k.result n 1 d (k.getSpill slot.toNat)))) s.cur) s
/-- s[a] + imm8 × 8. -/
def padAddr (k : Core) (a : Sreg) (imm : BitVec 8) : W64 := k.getS a + imm.signExtend 64 * 8
/-- LDS. -/
def execLds (t : Tok) (d a : Sreg) (imm : BitVec 8) (s : State) : Out :=
  feRun (.lds t d a imm) (feCore (fun n k => padAccess k (padAddr k a imm) 8 (fun x =>
    padReadAt k n x 8 (fun k bs => .ok (k.result n 4 d (BitVec.ofNat 64 (leNat bs)))))) s.cur) s
/-- STS. -/
def execSts (t : Tok) (d a : Sreg) (imm : BitVec 8) (s : State) : Out :=
  feRun (.sts t d a imm) (feCore (fun n k => padAccess k (padAddr k a imm) 8 (fun x =>
    .ok (k.storeDue .fe (n + 4) x (toLE 8 (k.getS d).toNat)))) s.cur) s

/-! ### Handle fields (R111 to R113) -/

/-- The lowest bit and the width of the field of a selector (R111). -/
def hField (f : Nat) : Nat × Nat :=
  if f = 0 then (0, 22) else if f = 1 then (22, 2) else if f = 2 then (24, 6) else if f = 3 then (30, 2)
  else if f ≤ 8 then (32 + 12 * (f - 4), 12)
  else if f ≤ 13 then (92 + 16 * (f - 9), 16)
  else if f ≤ 18 then (172 + 12 * (f - 14), 12)
  else if f = 19 then (232, 8) else if f = 20 then (240, 16) else (64 * (f - 21), 64)
/-- The selector names a stride, which HGET extends by its sign. -/
def hSigned (f : Nat) : Bool := 9 ≤ f && f ≤ 13
/-- HSET on an image. -/
def hSet (h : W256) (f : Nat) (v : W64) : W256 := hPut h (hField f).1 (hField f).2 v.toNat
/-- HGET on an image. -/
def hGet (h : W256) (f : Nat) : W64 :=
  let b := hBits h (hField f).1 (hField f).2
  if hSigned f then BitVec.ofInt 64 (sext 16 b) else BitVec.ofNat 64 b
/-- Writing one field: only a whole double replaces an uncorrectable word (R420). -/
def Core.setField (k : Core) (h : Hreg) (f : Nat) (v : W64) : Core :=
  let k1 := { k with r := { k.r with h := mput nullH k.r.h h.toNat (hSet (k.getH h) f v) } }
  if 21 ≤ f then k1.clearBad isHandle (4 * h.toNat + (f - 21)) 1 else k1
/-- HSET: a result of the FE that is written to the handle by the same cycle comes first (log entry 103). -/
def execHset (t : Tok) (hd : Hreg) (r : Sreg) (f : BitVec 5) (s : State) : Out :=
  let h := (s.core s.cur).ren hd
  feRun (.hset t h r f) (feCore (fun n k => .ok ((k.flushIf (Due.ofH h (n + 1))).setField h f.toNat (k.getS r))) s.cur) s
/-- HGET. -/
def execHget (t : Tok) (hd : Hreg) (r : Sreg) (f : BitVec 5) (s : State) : Out :=
  let h := (s.core s.cur).ren hd
  feRun (.hget t h r f) (feCore (fun n k =>
    handleRead k h (fun k => .ok (k.result n 1 r (hGet (k.getH h) f.toNat)))) s.cur) s
/-- HMOV. -/
def execHmov (t : Tok) (hd ha : Hreg) (s : State) : Out :=
  let h := (s.core s.cur).ren hd
  let g := (s.core s.cur).ren ha
  feRun (.hmov t h g) (feCore (fun n k => handleRead k g (fun k => .ok (k.resultH n 1 h (k.getH g)))) s.cur) s

/-! ### Handle images (R114) -/

/-- s + f × 32. -/
def imgAddr (k : Core) (r : Sreg) (off : BitVec 8) : W64 := k.getS r + off.setWidth 64 * 32
/-- HLD from the scratchpad. -/
def execHld (t : Tok) (hd : Hreg) (r : Sreg) (off : BitVec 8) (s : State) : Out :=
  let h := (s.core s.cur).ren hd
  feRun (.hld t h r off) (feCore (fun n k => padAccess k (imgAddr k r off) 32 (fun x =>
    padReadAt k n x 32 (fun k bs => .ok (k.resultH n 4 h (BitVec.ofNat 256 (leNat bs)))))) s.cur) s
/-- Four spill slots as an image. -/
def spillImage (k : Core) (n : Nat) : W256 :=
  BitVec.ofNat 256 ((k.getSpill n).toNat + (k.getSpill (n + 1)).toNat * 2 ^ 64 + (k.getSpill (n + 2)).toNat * 2 ^ 128 +
    (k.getSpill (n + 3)).toNat * 2 ^ 192)
/-- HLD from spill slots n to n + 3. -/
def execHldSpill (t : Tok) (hd : Hreg) (slot4 : BitVec 7) (s : State) : Out :=
  let h := (s.core s.cur).ren hd
  let n := 4 * slot4.toNat
  feRun (.hldSpill t h slot4) (feCore (fun x k => spillRead k n 4 (fun k => .ok (k.resultH x 1 h (spillImage k n)))) s.cur) s
/-- HST to the scratchpad. -/
def execHst (t : Tok) (hd : Hreg) (r : Sreg) (off : BitVec 8) (s : State) : Out :=
  let h := (s.core s.cur).ren hd
  feRun (.hst t h r off) (feCore (fun n k => padAccess k (imgAddr k r off) 32 (fun x =>
    handleRead k h (fun k => .ok (k.storeDue .fe (n + 4) x (toLE 32 (k.getH h).toNat))))) s.cur) s
/-- HST to spill slots n to n + 3. -/
def execHstSpill (t : Tok) (hd : Hreg) (slot4 : BitVec 7) (s : State) : Out :=
  let h := (s.core s.cur).ren hd
  let n := 4 * slot4.toNat
  feRun (.hstSpill t h slot4) (feCore (fun _ k => handleRead k h (fun k => .ok ((upto 4).foldl (fun q j =>
    q.setSpill (n + j) (BitVec.ofNat 64 (hBits (k.getH h) (64 * j) 64))) k))) s.cur) s

/-! ### HADV (R115) -/

/-- The position and the radix of the cursors from a dimension upward. -/
def advPos (h : HD) (dim : Nat) : Nat × Nat :=
  (upto 5).foldl (fun (a : Nat × Nat) d => if d < dim then a else (a.1 + h.i d * a.2, a.2 * h.e d)) (0, 1)
/-- The cursors of a position from a dimension upward. -/
def advSplit (h : HD) (dim p : Nat) : List Nat :=
  ((upto 5).foldl (fun (a : List Nat × Nat) d =>
    if d < dim then (a.1 ++ [h.i d], a.2) else (a.1 ++ [a.2 % h.e d], a.2 / h.e d)) ([], p)).1
/-- HADV on an image; none for the HANDLE trap of a stopped stream. -/
def hAdv (img : W256) (v : W64) (dim : Nat) : Option W256 :=
  let h := HD.of img
  let a := advPos h dim
  let p : Int := a.1 + v.toInt
  if h.sae ∧ (p < 0 ∨ (a.2 : Int) ≤ p) then none
  else some (setIdx img (advSplit h dim (p % (a.2 : Int)).toNat))
/-- HADV. -/
def execHadv (t : Tok) (hd : Hreg) (r : Sreg) (dim : BitVec 3) (s : State) : Out :=
  let h := (s.core s.cur).ren hd
  feRun (.hadv t h r dim) (feCore (fun n q => handleRead q h (fun k => match hAdv (k.getH h) (k.getS r) dim.toNat with
    | none => .stop (stopH .fe h 0) q
    | some v => .ok (k.resultH n 1 h v))) s.cur) s

end Sys2Proof.Machine
end

