-- ==== Sys2Proof/Machine/Control.lean ====
section
/-!
DEFINITION. Sys2Proof/Machine/Control.lean: jumps, branches and LOOP (R106 to R108), and NOP (R130).
-/

namespace Sys2Proof.Machine
open Sys2Proof

/-- A taken transfer: the target starts 2 cycles after the transferring instruction (R100). -/
def Core.jump (k : Core) (t : Nat) (target : W64) : Core :=
  { k.setPc target with eng := { k.eng with cyc := t + 2 } }
/-- pc + 4 × off. -/
def target {w : Nat} (pc : W64) (off : BitVec w) : W64 := pc + (off.signExtend 64) * 4
/-- A conditional branch (R107). -/
def branchRun (i : Instr) (off : BitVec 13) (cond : Core → Bool) (s : State) : Out :=
  let tg := target s.pcNow off
  feRun i (feCore (fun t k => .ok (if cond k then k.jump t tg else k)) s.cur) s

/-- J. -/
def execJ (t : Tok) (off : BitVec 20) (s : State) : Out :=
  let tg := target s.pcNow off
  feRun (.j t off) (feCore (fun n k => .ok (k.jump n tg)) s.cur) s
/-- JL: s63 ← pc + 4. -/
def execJl (t : Tok) (off : BitVec 20) (s : State) : Out :=
  let pc := s.pcNow
  feRun (.jl t off) (feCore (fun n k => .ok ((k.result n 1 63 (pc + 4)).jump n (target pc off))) s.cur) s
/-- JR: a target that is not a multiple of 4 raises ALIGN (R62). -/
def execJr (t : Tok) (a : Sreg) (s : State) : Out :=
  feRun (.jr t a) (feCore (fun n k =>
    let x := k.getS a
    if x.toNat % 4 ≠ 0 then .stop ⟨.align, .fe, x, 0⟩ k else .ok (k.jump n x)) s.cur) s
/-- BZ. -/
def execBz (t : Tok) (a : Sreg) (off : BitVec 13) (s : State) : Out := branchRun (.bz t a off) off (fun k => k.getS a == 0) s
/-- BNZ. -/
def execBnz (t : Tok) (a : Sreg) (off : BitVec 13) (s : State) : Out := branchRun (.bnz t a off) off (fun k => k.getS a != 0) s
/-- BLTZ. -/
def execBltz (t : Tok) (a : Sreg) (off : BitVec 13) (s : State) : Out :=
  branchRun (.bltz t a off) off (fun k => (k.getS a).slt 0) s
/-- BGEZ. -/
def execBgez (t : Tok) (a : Sreg) (off : BitVec 13) (s : State) : Out :=
  branchRun (.bgez t a off) off (fun k => !(k.getS a).slt 0) s
/-- HRB.BASE moved on by one (R108). -/
def Core.rotate (k : Core) : Core :=
  let v := k.getSr 0x00A
  k.setSr 0x00A (putBits v 3 0 (bits v 3 0 + 1))
/-- LOOP: the counter, HRB and the branch in one step. -/
def execLoop (t : Tok) (a : Sreg) (rot : Bool) (off : BitVec 13) (s : State) : Out :=
  let tg := target s.pcNow off
  feRun (.loop t a rot off) (feCore (fun n k =>
    let v := k.getS a - 1
    let k1 := k.result n 1 a v
    let k2 := if rot then k1.rotate else k1
    .ok (if v ≠ 0 then k2.jump n tg else k2)) s.cur) s
/-- NOP (R130): no effect but its token bits. -/
def execNop (t : Tok) (s : State) : Out := feRun (.nop t) (fun _ s => .ok s) s

end Sys2Proof.Machine
end

