-- ==== Sys2Proof/Machine/Kiln.lean ====
section
/-!
DEFINITION. Sys2Proof/Machine/Kiln.lean: the clocks and pulse patterns (R367, R368), declarations and their grants (R370 to
R373), collective agreement (R383, R425), and the temperature steps (R384, R385), as operations that the power
instructions, the registers and the events share.
-/

namespace Sys2Proof.Machine
open Sys2Proof

/-! ### Declarations (R370 to R373) -/

/-- The sum of the intensities a core has declared. -/
def State.ownSum (s : State) (c : Nat) : Nat := (s.outs c).foldl (fun a d => a + d.int) 0
/-- The sum over the four cores of a cluster. -/
def State.cluSum (s : State) (kn : Nat) : Nat := [0, 1, 2, 3].foldl (fun a j => a + s.ownSum (4 * kn + j)) 0
/-- The first granule from g on in which the die can start an intensity (R372). -/
def grantFrom (sums : Map Nat) (int : Nat) : Nat → Nat → Nat
  | 0, g => g
  | fuel + 1, g => if 16 < mget 0 sums g + int then grantFrom sums int fuel (g + 1) else g
/-- Grant (R372): the start granule of a declaration made in master cycle t. -/
def State.grantAt (s : State) (c t onset int : Nat) : Nat :=
  let d := s.die (c / 64)
  grantFrom d.sums int (d.sums.length + 1) (cdiv t 64 + max onset 66)
/-- Adding a granted intensity to StartSum. -/
def State.charged (s : State) (c g int : Nat) : State :=
  let d := s.die (c / 64)
  s.setDie (c / 64) { d with sums := mset d.sums g (mget 0 d.sums g + int) }
/-- The next serial after skipping those outstanding (R371). -/
def serialFrom (outs : List Nat) : Nat → Nat → Nat
  | 0, n => n
  | fuel + 1, n => if outs.contains n then serialFrom outs fuel (if n = 255 then 1 else n + 1) else n
/-- The serial of a core's next declaration. -/
def State.serial (s : State) (c : Nat) : Nat := serialFrom ((s.outs c).map (·.serial)) 5 (s.core c).nextSerial
/-- The place, among the core's declarations, of the outstanding one with a serial. -/
def State.outIx (s : State) (c serial : Nat) : Option Nat :=
  (s.core c).decls.findIdx? (fun d => s.isOut c d && d.serial == serial)
/-- The place of the declaration that a ticket names (R371, R374): an outstanding one, or one that only its last beat has ended, which
stays active in program order (R375). -/
def State.declIx (s : State) (c : Nat) (t : W64) : Option Nat :=
  ((s.core c).decls.findIdx? (fun d => s.isOut c d && ticketOf c d.serial == t)).orElse (fun _ =>
    (s.core c).decls.findIdx? (fun d => d.out && d.active && ticketOf c d.serial == t))
/-- A declaration of a core by its place. -/
def Core.decl (k : Core) (j : Nat) : Decl := nth ⟨0, 0, 0, 0, false, false, 0, 0, 0, false, 0, 0⟩ k.decls j
/-- Changing the declaration at a place. -/
def Core.upDecl (k : Core) (j : Nat) (f : Decl → Decl) : Core :=
  { k with decls := k.decls.zipIdx.map (fun x => if x.2 = j then f x.1 else x.1) }
/-- A declaration ends: its intensity leaves the sums, its account stays with its tag (R373, R375). -/
def Core.endDecl (k : Core) (j : Nat) : Core := k.upDecl j (fun d => { d with out := false, active := false })
/-- The declarations of a core: those that have ended before they were acquired are marked so (R373, R387). -/
def State.declsNow (s : State) (c : Nat) : List Decl :=
  (s.core c).decls.map (fun d => if d.out && !s.isOut c d && !d.active then { d with out := false } else d)

/-! ### Collective groups (R383, R424, R425) -/

/-- The count that a collective declaration holds from its start on; none while an offer lacks (R383). -/
def State.countOf (s : State) (c : Nat) (d : Decl) : Option Nat :=
  if d.coll = 0 then none
  else if d.count ≠ 0 then some d.count
  else if d.offer = 0 then none
  else (((s.part (s.partNo c)).group d.coll).others true d.collK).map (fun l => l.foldl min d.offer)

/-! ### Pulse counts (R367, R368, R382) -/

/-- The COLL limit of a cluster: the least count of the collective regions active on its cores. -/
def State.collLimit (s : State) (kn : Nat) : Option Nat :=
  let ns := [0, 1, 2, 3].flatMap (fun j =>
    let c := 4 * kn + j
    (s.outs c).filterMap (fun d => if s.isActive c d then s.countOf c d else none))
  match ns with
  | [] => none
  | n :: t => some (t.foldl min n)
/-- The pulse count of a cluster for a period of 16 cycles that begins now (R368, R382). -/
def State.pulses (s : State) (kn : Nat) : Nat :=
  let p := s.part (s.partOfClu kn)
  let base := bits (p.getSr 0x240) 4 0
  let sag := if (s.die (kn / 16)).sag then min base 12 else base
  if p.fl then sag
  else
    let und := if (s.clu kn).und then min sag 8 else sag
    match s.collLimit kn with | some n => min und n | none => und
/-- The pattern of a pulse count (R367). -/
def pattern (n : Nat) : Nat := (upto 16).foldl (fun a s => if s * n / 16 < (s + 1) * n / 16 then a + 2 ^ s else a) 0
/-- The count that a member offers: the one its cluster holds, or its frozen one (R383). -/
def State.offerOf (s : State) (c : Nat) : Nat :=
  let p := s.part (s.partNo c)
  if p.fl then bits (p.getSr 0x240) 4 0 else (s.clu (c / 4)).pulse
/-- The clusters of one die take their pulse counts for the period that begins (R367, R368). -/
def State.latchPulses (s : State) (d : Nat) : State :=
  (s.parts.flatMap (fun p => p.2.clusters.filter (fun kn => kn / 16 = d))).foldl (fun t kn =>
    if (t.clu kn).pulse = s.pulses kn then t else t.upClu kn (fun u => { u with pulse := s.pulses kn })) s

/-! ### The clock of a die (R367) -/

/-- Link slots that pass as the master clock goes from one cycle to another: 90 ns, 189 cycles each (R408). -/
def slotsBetween (a b : Nat) : Nat := b / 189 - a / 189
/-- What a cycle brings to the clusters of a die: throttles that turn on, and the end of waking (R369, R377). -/
def State.clustersAt (s : State) (d t : Nat) : State :=
  { s with clusters := s.clusters.map (fun x => (x.1, if x.1 / 16 = d then (x.2.throttled t).woken t else x.2)) }
/-- Writes of DSP.CTL, LQ.PRI and PWR.CFG take effect (R337, R388). -/
def Part.applyLater (p : Part) : Part :=
  (p.later.filter (fun x => x.1 ≠ 0x252)).foldl (fun p x => p.setSr x.1 x.2)
    { p with later := p.later.filter (fun x => x.1 = 0x252) }
/-- A slot boundary of a die (R336, R337): register writes that wait take effect (log entry 46). -/
def State.boundary (s : State) (die : Nat) : State :=
  let d := s.die die
  let s1 := s.setDie die { d with slt := d.later.foldl (fun m x => mput 0 m x.1 x.2) d.slt, later := [] }
  { s1 with parts := s1.parts.map (fun x =>
    (x.1, if x.2.clusters.isEmpty || x.2.clusters.any (fun k => k / 16 == die) then x.2.applyLater else x.2)) }
/-- The clock of a die stands at cycle t. -/
def State.setClock (s : State) (d t : Nat) : State := (s.setDie d { s.die d with cyc := t }).clustersAt d t
/-- Time passes on one die: writes that wait follow at a slot boundary, the pulse counts at the last cycle that begins a period of 16
(R337, R367). -/
def State.passDie (n : Nat) (s : State) (d : Nat) : State :=
  let a := (s.die d).cyc
  let s1 := if a / 64 < (a + n) / 64 then s.boundary d else s
  (if a / 16 < (a + n) / 16 then (s1.setClock d ((a + n) / 16 * 16)).latchPulses d else s1).setClock d (a + n)
/-- Time passes on every die: n master cycles (log entry 14). -/
def State.pass (s : State) (n : Nat) : State :=
  let a := (s.die 0).cyc
  ([0, 1, 2, 3].foldl (State.passDie n) s).reachSlot (s.links.lsc + slotsBetween a (a + n))

/-! ### Temperature (R384, R385) -/

/-- The channel group of a cluster (R385). -/
def groupOf (kn : Nat) : Nat := 8 * (kn / 16) + kn % 16 / 2
/-- The thermal allowance at a reading (R385). -/
def allowance (t : Nat) : Nat := if 105 ≤ t then 0 else sat 255 ((105 - t) * 255 / 45)
/-- The allowance of a cluster. -/
def State.allow (s : State) (kn : Nat) : Nat := allowance (mget 0 s.ik.temps (groupOf kn))
/-- The step of a reading from below: 0 to 3 (R384). -/
def stepUp (t : Nat) : Nat := if 105 ≤ t then 3 else if 95 ≤ t then 2 else if 85 ≤ t then 1 else 0
/-- A group leaves a step only 3 °C below its threshold (R384). -/
def stepNext (cur t : Nat) : Nat := max (stepUp t) (min cur (stepUp (t + 2)))

end Sys2Proof.Machine
end

