-- ==== Sys2Proof/Machine/Phases.lean ====
section
/-!
DEFINITION. Sys2Proof/Machine/Phases.lean: the dispatcher (R322 to R334): creating launches, choosing and placing units,
reading counts, abort lines and cancellation; phases and their Close (R285, R286), jobs (R333); releasing and failing held and
parked units (R264), pre-emption (R265) and partition swaps (R266 to R269).
-/

namespace Sys2Proof.Machine
open Sys2Proof

/-! ### Creating launches (R124, R125, R322 to R324) -/

/-- The record of eight doubles in 64 bytes. -/
def recordOf (addr : W64) (bs : List Byte) : Record :=
  ⟨addr, (upto 8).map (fun j => BitVec.ofNat 64 (leNat ((bs.drop (8 * j)).take 8)))⟩
/-- A new launch of the phase after the open one, held by a core's attempt or in the launch store. One that an earlier attempt
of the same unit created and that was cancelled is known already, and has ended (R126). -/
def Part.addLaunch (p : Part) (r : LRef) (rc : Record) (graph : W64) (held : Option (W64 × Nat × Nat)) : Part :=
  if p.launches.any (fun l => l.ref == r && l.phase == p.phase + 1) then
    p.upLaunch r (fun l => if l.phase = p.phase + 1 then { l with held := held, gone := false } else l)
  else { p with launches := p.launches ++
    [⟨r.1, r.2, p.phase + 1, 0, rc, graph, false, none, 0, [], 0, false, [], 0, false, held, false⟩] }
/-- Creating a launch; in the scope of an asserted line it is dropped whole (R334). -/
def State.newLaunch (s : State) (p : Nat) (r : LRef) (rc : Record) (graph : W64) (held : Option (W64 × Nat × Nat)) : State :=
  let s1 := s.upPart p (fun pt => pt.addLaunch r rc graph held)
  match (s1.part p).launch r with
  | some l => if (s1.part p).lineOn l then s1.dropUnstarted p r else s1
  | none => s1
/-- The reason for which a launch is refused (R323): of its record, of its creator's count, of its phase's count; 0 none. -/
def Part.refuse (p : Part) (rc : Record) (creatorPriv : Bool) (created : Nat) : Nat :=
  if rc.reason creatorPriv ≠ 0 then rc.reason creatorPriv
  else if 4096 ≤ created then 8
  else if 4095 ≤ p.inPhase (p.phase + 1) then 9
  else 0

/-! ### Queues (R329, R330) -/

/-- Launches of the open phase that have not ended, in ordinal order. -/
def launchIns (l : Launch) : List Launch → List Launch
  | [] => [l]
  | x :: t => if l.ord < x.ord then l :: x :: t else x :: launchIns l t
/-- See `launchIns`. -/
def Part.openLaunches (p : Part) : List Launch :=
  (p.launches.filter (fun l => l.phase = p.phase ∧ !l.ended)).foldl (fun a l => launchIns l a) []
/-- Launches that wait in the store enter their queues as these have room (R329). -/
def Part.fillQueues (p : Part) : Part :=
  (p.openLaunches.filter (fun l => !l.queued)).foldl (fun p l =>
    if (p.openLaunches.filter (fun x => x.queued ∧ x.rc.queue = l.rc.queue)).length < 64 then
      p.upLaunch l.ref (fun x => { x with queued := true })
    else p) p
/-- The launch has a unit to dispatch: one that is ready again, or one not yet created (R329). -/
def Launch.work (l : Launch) : Bool :=
  l.requeue.any (·.ready) || (match l.total with | some n => decide (l.next < n) | none => true)
/-- The head launch of a queue (R329). -/
def Part.headLaunch (p : Part) (q : Nat) : Option Launch := p.openLaunches.find? (fun l => l.queued && l.rc.queue == q && l.work)
/-- A queue's head can give a unit: a count-driven one only after its cells have been read (R327). -/
def Part.ready (p : Part) (q : Nat) : Bool :=
  match p.headLaunch q with
  | some l => l.total.isSome
  | none => false
/-- The priority of a queue (R337). -/
def Part.pri (p : Part) (q : Nat) : Nat := bits (p.getSr 0x231) (4 * q + 2) (4 * q)
/-- SelectQueue (R330): the queue and the partition with its pointer moved on. -/
def Part.selectQueue (p : Part) : Option (Nat × Part) :=
  let qs := (upto 16).filter p.ready
  if qs = [] then none
  else
    let pr := (qs.map p.pri).foldl max 0
    let at' := mget 0 p.rrp pr
    let order := (upto 16).map (fun k => (at' + k) % 16)
    match order.find? (fun q => qs.contains q && p.pri q == pr) with
    | some q => some (q, { p with rrp := mset p.rrp pr ((q + 1) % 16) })
    | none => none

/-! ### Placement (R331, R369, R377) -/

/-- A core can be given a unit: it runs none and is neither parked nor stopped (R330), and its cluster is in service. -/
def State.freeCore (s : State) (c : Nat) : Bool :=
  ((s.core c).mode == .free || (s.core c).mode == .halted) && (s.core c).run.isNone && !s.ik.retired.contains (c / 4)
/-- Free cores of a partition in package order. -/
def State.freeCores (s : State) (p : Nat) : List Nat := (s.part p).coreList.filter s.freeCore
/-- A core of the cluster has an active declaration (R377). -/
def State.activeDecl (s : State) (kn : Nat) : Bool :=
  [0, 1, 2, 3].any (fun j => (s.outs (4 * kn + j)).any (s.isActive (4 * kn + j)))
/-- The element of a list with the least rank, the first among equals. -/
def leastBy (f : Nat → Nat) : List Nat → Option Nat
  | [] => none
  | a :: t => match leastBy f t with
    | some b => if f a ≤ f b then some a else some b
    | none => some a
/-- Where a unit goes (R331): a core, a gated cluster to wake first, or nowhere yet. -/
inductive Place where
  | core (c : Nat)
  | wake (k : Nat)
  | none
  deriving DecidableEq, Repr
/-- The choice among free cores. -/
def State.place (s : State) (p : Nat) (l : Launch) : Place :=
  let pt := s.part p
  let free := s.freeCores p
  let cand := if l.undecl = 0 then free
    else let calm := free.filter (fun c => !s.activeDecl (c / 4)); if calm = [] then free else calm
  let awake := cand.filter (fun c => !(s.clu (c / 4)).gated)
  if (pt.getSr 0x230).getLsbD 0 then
    let best := (cand.map (fun c => s.allow (c / 4))).foldl max 0
    let top := cand.filter (fun c => s.allow (c / 4) = best)
    match (top.find? (fun c => pt.spp ≤ c)).orElse (fun _ => top.head?) with
    | some c => if (s.clu (c / 4)).gated then .wake (c / 4) else .core c
    | none => .none
  else match leastBy (fun c => (free.filter (fun d => d / 4 = c / 4)).length * 65536 + c) awake with
    | some c => .core c
    | none => match cand.head? with
      | some c => .wake (c / 4)
      | none => .none
/-- The dispatcher wakes a power-gated cluster (R331). -/
def State.wake (s : State) (k : Nat) : State :=
  if (s.clu k).waking then s else s.upClu k (fun u => { u with waking := true, idleFrom := (s.die (k / 16)).cyc })

/-! ### Starting a unit (R328) -/

/-- The next unit of a launch with its attempt: a re-queued one that is ready, lowest ordinal first, else the next new one;
the launch without it (R329). -/
def Launch.takeUnit (l : Launch) : (Nat × Nat) × Launch :=
  match leastBy (fun n => n) ((l.requeue.filter (·.ready)).map (·.unit)) with
  | some u =>
    let att := ((l.requeue.find? (fun q => q.unit = u)).map (·.attempt)).getD 0
    ((u, att), { l with requeue := l.requeue.filter (fun q => q.unit ≠ u), running := l.running + 1 })
  | none => ((l.next, 0), { l with next := l.next + 1, running := l.running + 1 })
/-- The unit starts on the core; a fault of its argument block stops it as an LD fault at CODE. -/
def State.startUnit (s : State) (p c : Nat) (l : Launch) (u att : Nat) : State :=
  let pt := s.part p
  let k := (s.core c).started l u att pt.phase pt.job
  match s.argBytes p l (l.rc.alen / 64) 0 with
  | .ok bs => (s.corrArgs p l).setCore c (k.store false l.rc.adst bs)
  | .error (cause, info, va) => (s.setCore c k).takeStop c ⟨cause, .ld, va, BitVec.ofNat 64 info⟩
/-- A line of a launch's argument block lies in a held segment, or its walk meets one (R307, R311). -/
def State.argsHeld (s : State) (p : Nat) (l : Launch) : Bool :=
  (upto (l.rc.alen / 64)).any (fun k =>
    (translate s.mem (s.penv p l.rc.priv) [] [] (l.rc.w 1 + BitVec.ofNat 64 (64 * k)) needR).1 == .error .hold)
/-- Dispatching the next unit of a partition (R330, R331, R334); a unit whose argument block waits on a held segment does not start
yet. -/
def State.dispatch (s0 : State) (p : Nat) : State :=
  let s := s0.upPart p Part.fillQueues
  if (s.part p).closing ∨ s.freeCores p = [] then s0
  else match (s.part p).selectQueue with
    | none => s0
    | some (q, pt) =>
      match pt.headLaunch q with
      | none => s0
      | some l =>
        let t := l.takeUnit
        if pt.inScope l t.1.1 then
          let s1 := (s.setPart p pt).upPart p (fun pt => pt.upLaunch l.ref (fun _ => { t.2 with running := l.running }))
          (s1.ctr p l (.cancel 1)).launchEnd p l.ref
        else match s.place p l with
          | .none => s0
          | .wake k => s.wake k
          | .core c =>
            if s.argsHeld p l then s0 else
            let pt2 := { pt with spp := if (pt.getSr 0x230).getLsbD 0 then (c + 1) % 256 else pt.spp }
            let s1 := (s.setPart p pt2).upPart p (fun pt => pt.upLaunch l.ref (fun _ => t.2))
            s1.startUnit p c l t.1.1 t.1.2

/-! ### Count-driven launches (R327) -/

/-- Why counts cannot be read: a held segment, or a fault with its cause, address and detail. -/
inductive CountErr where
  | hold
  | fault (cause : Nat) (va info : W64)
/-- The cells of one entry, summed; none when the sum saturates. -/
def State.cellSum (s : State) (p : Nat) (l : Launch) : Nat → Nat → Except CountErr (Option Nat)
  | 0, _ => .ok (some 0)
  | n + 1, j =>
    let va := l.rc.w 5 + BitVec.ofNat 64 (8 * j)
    match (translate s.mem (s.penv p l.rc.priv) [] [] va needR).1 with
    | .error .hold => .error .hold
    | .error x => .error (.fault (xerrCode x).1 va (BitVec.ofNat 64 (xerrCode x).2))
    | .ok x =>
      if x.ent.home ≠ 2 then .error (.fault (causeCode .perm) va 0x200)
      else if s.memBad x.pa 8 then .error (.fault (causeCode .memUe) va 2)
      else match s.cellSum p l n (j + 1) with
        | .error e => .error e
        | .ok none => .ok none
        | .ok (some m) =>
          let v := rd64 s.mem x.pa
          if v.getLsbD 32 then .ok none else .ok (some (bits v 31 0 + m))
/-- The cells that a count-driven launch reads are corrected (R421). -/
def State.corrCells (s : State) (p : Nat) (l : Launch) : State :=
  if s.weak.isEmpty then s
  else (upto (l.rc.nent * l.rc.nblk)).foldl (fun s j => s.corrVa (s.penv p l.rc.priv) needR (l.rc.w 5 + BitVec.ofNat 64 (8 * j)) 8) s
/-- The tiles of every entry. -/
def State.entryTiles (s : State) (p : Nat) (l : Launch) : Nat → Nat → Except CountErr (List Nat)
  | 0, _ => .ok []
  | n + 1, e =>
    match s.cellSum p l l.rc.nblk (e * l.rc.nblk) with
    | .error x => .error x
    | .ok none => .error (.fault (causeCode .record) l.rc.addr 10)
    | .ok (some m) =>
      if 0xFFFFFFFF ≤ m then .error (.fault (causeCode .record) l.rc.addr 10)
      else
        let m := if l.rc.rowCap ≠ 0 then min m l.rc.rowCap else m
        match s.entryTiles p l n (e + 1) with
        | .error x => .error x
        | .ok t => .ok (cdiv m l.rc.trows :: t)
/-- What the count-driven launch at the head of a queue finds in its cells. -/
def State.counts (s : State) (p : Nat) (l : Launch) : Except CountErr (List Nat) :=
  match s.entryTiles p l l.rc.nent 0 with
  | .error x => .error x
  | .ok ts => if 2 ^ 24 < ts.foldl (· + ·) 0 * l.rc.perTile then .error (.fault (causeCode .record) l.rc.addr 7) else .ok ts
/-- The count-driven head of a queue reads its cells, and enumerates or fails (R327); in the scope of an asserted line it is
dropped without reading them (R334). While a segment that it needs is held it waits (R307). -/
def State.countRead (s0 : State) (p q : Nat) : State :=
  let s := s0.upPart p Part.fillQueues
  match (s.part p).headLaunch q with
  | none => s0
  | some l =>
    if l.total.isSome ∨ (s.part p).closing then s0
    else if (s.part p).lineOn l then s.dropUnstarted p l.ref
    else
      match s.counts p l with
      | .error .hold => s0
      | .ok ts => ((s.corrCells p l).upPart p (fun pt => pt.upLaunch l.ref (fun l => { l with tiles := some ts }))).launchEnd p l.ref
      | .error (.fault cause addr info) =>
        ((s.bareRecord p cause addr info l.id).upPart p (fun pt => pt.upLaunch l.ref (fun l => { l with tiles := some [] }))).launchEnd p l.ref

/-! ### Stopping units from outside (R247, R265, R334) -/

/-- A persistent unit is stopped and ends as cancelled (R334). -/
def State.cancelRun (s : State) (c : Nat) : State := s.stopFor c .cancel
/-- Doing something to the units of swapped-out tenants as if each stood on its core; the cores' present tenants and their
leases stay as they are. -/
def State.onSaved (s : State) (p : Nat) (pred : Core → Bool) (f : Nat → State → State) : State :=
  (s.part p).saved.foldl (fun s x => x.2.foldl (fun s ck =>
    if pred ck.2 then
      let cur := s.core ck.1
      let u := s.clu (ck.1 / 4)
      let s1 := f ck.1 (s.setCore ck.1 ck.2)
      let k' := s1.core ck.1
      ((s1.setCore ck.1 cur).setClu (ck.1 / 4) u).upPart p (fun pt => { pt with
        saved := pt.saved.map (fun y => if y.1 = x.1 then (y.1, y.2.map (fun z => if z.1 = ck.1 then (z.1, k') else z)) else y) })
    else s) s) s
/-- The units of a partition, present and swapped out. -/
def State.units (s : State) (p : Nat) : List Core :=
  ((s.part p).coreList.map s.core ++ (s.part p).saved.flatMap (fun x => x.2.map (·.2))).filter (fun k => k.run.isSome)
/-- Doing something to every core of a partition whose unit satisfies a test, but for one core. -/
def State.onUnits (s : State) (p : Nat) (spare : Option Nat) (pred : Core → Bool) (f : Nat → State → State) : State :=
  let here := (s.part p).coreList.filter (fun c => some c ≠ spare ∧ (s.core c).run.isSome ∧ pred (s.core c))
  (here.foldl (fun s c => f c s) s).onSaved p (fun k => k.run.isSome && pred k) f

/-! ### Abort lines and CANCEL (R126, R127, R334) -/

/-- The effect of an asserted line on one launch in its scope: units not dispatched are dropped, running persistent units
end as cancelled, but for the unit of the core that asserted it. -/
def State.killLaunch (s : State) (p : Nat) (spare : Option Nat) (r : LRef) : State :=
  let s1 := s.onUnits p spare (fun k => k.isPers && (k.run.map (·.ref)) == some r) (fun c s => s.cancelRun c)
  s1.dropUnstarted p r
/-- Every launch of a partition that satisfies a test. -/
def State.killAll (s : State) (p : Nat) (spare : Option Nat) (f : Launch → Bool) : State :=
  (((s.part p).launches.filter (fun l => f l && !l.ended)).map (·.ref)).foldl (fun s r => s.killLaunch p spare r) s
/-- The launches that an identifier names: its phase field names the open phase or the next (R126, R324). Two launches of one identifier
are both named (log entry 106). -/
def Part.named (p : Part) (id : W64) : List LRef :=
  (p.launches.filter (fun l => l.id == id && (l.phase == p.phase || l.phase == p.phase + 1))).map (·.ref)
/-- Asserting the line of a launch. -/
def State.abortLaunch (s : State) (p : Nat) (spare : Option Nat) (r : LRef) : State :=
  match (s.part p).launch r with
  | none => s
  | some l =>
    if l.ended || l.aborted then s
    else (s.upPart p (fun pt => pt.upLaunch r (fun l => { l with aborted := true }))).killLaunch p spare r
/-- CANCEL of a launch: that of an identifier that names an ended object changes nothing (R126). -/
def State.cancelLaunch (s : State) (p : Nat) (spare : Option Nat) (id : W64) : State :=
  ((s.part p).named id).foldl (fun s r => s.abortLaunch p spare r) s
/-- Asserting the line of the open phase or the next (R324, R334): the units of that phase's launches end; one that an earlier phase's
launch has carried in sees the line and ends no sooner (log entry 28). -/
def State.abortPhase (s : State) (p : Nat) (spare : Option Nat) (ord : Nat) : State :=
  let pt := s.part p
  if (ord = pt.phase ∨ ord = pt.phase + 1) ∧ !pt.abPhases.contains ord then
    (s.setPart p { pt with abPhases := pt.abPhases ++ [ord] }).killAll p spare
      (fun l => l.phase = ord)
  else s
/-- Asserting the line of a graph that some launch belongs to. -/
def State.abortGraph (s : State) (p : Nat) (spare : Option Nat) (g : W64) : State :=
  let pt := s.part p
  if g ≠ 0 ∧ !pt.abGraphs.contains g ∧ pt.launches.any (fun l => l.graph == g && !l.ended) then
    (s.setPart p { pt with abGraphs := pt.abGraphs ++ [g] }).killAll p spare (fun l => l.graph == g)
  else s
/-- Asserting the line of the job. -/
def State.abortJob (s : State) (p : Nat) (spare : Option Nat) (job : W64) : State :=
  if job = (s.part p).job ∧ !(s.part p).abJob then
    (s.upPart p (fun pt => { pt with abJob := true })).killAll p spare (fun _ => true)
  else s
/-- The line of one unit of a launch: a unit not dispatched is dropped when it would start, a re-queued one at once; a running one
sees its own line, and a persistent one ends. -/
def State.abortUnit (s : State) (p : Nat) (spare : Option Nat) (r : LRef) (u : Nat) : State :=
  match (s.part p).launch r with
  | none => s
  | some l =>
    if l.ended || (match l.total with | some n => decide (n ≤ u) | none => false) then s
    else if l.requeue.any (fun q => q.unit = u) then
      ((s.upPart p (fun pt => pt.upLaunch r (fun l => { l with requeue := l.requeue.filter (fun q => q.unit ≠ u) }))).ctr p l (.cancel 1)).launchEnd p r
    else
      let mine (k : Core) : Bool := match k.run with | some x => x.ref == r && x.unit == u | none => false
      let s1 := s.onUnits p none mine (fun c s => s.upCore c (fun k => { k with run := k.run.map (fun r => { r with aborted := true }) }))
      let s2 := s1.onUnits p spare (fun k => mine k && k.isPers) (fun c s => s.cancelRun c)
      if l.total.isNone ∨ l.next ≤ u then
        s2.upPart p (fun pt => pt.upLaunch r (fun l => { l with dropped := if l.dropped.contains u then l.dropped else l.dropped ++ [u] }))
      else s2
/-- CANCEL of one unit (R126). -/
def State.cancelUnit (s : State) (p : Nat) (spare : Option Nat) (id : W64) (u : Nat) : State :=
  ((s.part p).named id).foldl (fun s r => s.abortUnit p spare r u) s

/-! ### Phases (R285, R286, R333) -/

/-- A launch of persistent units keeps the phase open only until all its units have started (R332). -/
def Launch.holdsPhase (l : Launch) : Bool :=
  !l.ended && !(l.rc.pers && l.queued && l.requeue.isEmpty && l.held.isNone &&
    (match l.total with | some n => decide (n ≤ l.next) | none => false))
/-- The open phase holds neither a launch nor a persistent unit. -/
def State.emptyPhase (s : State) (p : Nat) : Bool :=
  let pt := s.part p
  !pt.carried && pt.launches.all (fun l => l.phase ≠ pt.phase) && (s.units p).all (fun k => !k.isPers)
/-- Every launch of the phase has ended and every persistent unit has reported (R285); an empty phase needs a launch in the
store (R333). -/
def State.mayClose (s : State) (p : Nat) : Bool :=
  let pt := s.part p
  !pt.closing && pt.launches.all (fun l => l.phase ≠ pt.phase || !l.holdsPhase) &&
  (s.units p).all (fun k => match k.run with | some r => r.pers && r.reported | none => true) &&
  (!s.emptyPhase p || pt.launches.any (fun l => l.phase = pt.phase + 1 ∧ l.held.isNone ∧ !l.gone))
/-- The phase starts closing: the pending sets of application cores and root ports end (R285). -/
def State.startClosing (s : State) (p : Nat) : State :=
  s.upPart p (fun pt => { pt with
    closing := true
    ended := pt.ended ++ pt.acPend.map (fun x => ⟨(1, x.1, 0, 0), x.2⟩) ++ pt.portPend.map (fun x => ⟨(2, x.1, 0, 0), x.2⟩)
    acPend := [], portPend := [] })
/-- Comparing writer keys (R277); of two equal ones the launch of the later phase has the higher (log entry 108). -/
def keyLt (a b : AgentKey) : Bool :=
  decide (a.1 < b.1 ∨ (a.1 = b.1 ∧ (a.2.1 < b.2.1 ∨ (a.2.1 = b.2.1 ∧ (a.2.2.1 < b.2.2.1 ∨
    (a.2.2.1 = b.2.2.1 ∧ a.2.2.2 < b.2.2.2))))))
/-- Ended sets in the order of their keys. -/
def endedIns (e : EndedSet) : List EndedSet → List EndedSet
  | [] => [e]
  | x :: t => if keyLt e.key x.key then e :: x :: t else x :: endedIns e t
/-- The winning value of every byte (R286). -/
def resolve (es : List EndedSet) : List (Nat × Byte) :=
  (es.foldl (fun l e => endedIns e l) []).foldl (fun q e => pendAll q e.bytes) []
/-- Rank of identifiers within their phase: bits 47:0 (R324); of two launches of one identifier, that of the older creator first (log entry
106). -/
def launchRank (ls : List Launch) (l : Launch) : Nat :=
  (ls.filter (fun x => bits x.id 47 0 < bits l.id 47 0 ∨ (bits x.id 47 0 = bits l.id 47 0 ∧ x.born < l.born))).length
/-- A write of ORD.CTL takes effect when a phase opens (R344). -/
def Part.openLog (p : Part) : Part :=
  match (p.later.filter (fun x => x.1 = 0x252)).getLast? with
  | none => p
  | some x =>
    let m := bits x.2 1 0
    let p1 := { p with later := p.later.filter (fun x => x.1 ≠ 0x252) }
    { p1 with logMode := m, logTold := false }.setPos 0 |>.setSr 0x180 0
/-- Bytes of an application core (kind 1) or a root port join the agent's pending set (R276). -/
def Part.plainLand (pt : Part) (kind no : Nat) (bs : List (Nat × Byte)) : Part :=
  if kind = 1 then { pt with acPend := mset pt.acPend no (pendAll (mget [] pt.acPend no) bs) }
  else { pt with portPend := mset pt.portPend no (pendAll (mget [] pt.portPend no) bs) }
/-- The lines that bytes touch. -/
def byteLines (bs : List (Nat × Byte)) : List Nat := (bs.map (fun b => b.1 / 64)).foldl sins []
/-- A write of an agent other than a core waits. -/
def State.holdWrite (s : State) (w : HeldWr) : State := { s with ik := { s.ik with heldWr := s.ik.heldWr ++ [w] } }
/-- An agent has a write that waits. -/
def State.holds (s : State) (p kind no : Nat) : Bool := s.ik.heldWr.any (fun x => x.part == p && x.kind == kind && x.no == no)
/-- A write of an application core or a root port that waited (R285, R288): it is made when its partition's phase is open, no
older write of its agent still waits (R278), and the reserve has its lines; it then leaves its segments (R312). One that finds no
reserve line waits on, and the runtime is told when it has not been. -/
def State.heldWrite (s : State) (w : HeldWr) : State :=
  if (s.part w.part).closing || s.holds w.part w.kind w.no then s.holdWrite w
  else match s.chargeAll w.part (w.kind, w.no, 0, 0) (byteLines w.bytes) with
    | none => let s1 := s.holdWrite { w with told := true }; if w.told then s1 else s1.irq 2
    | some s' => { s' with mem := leaveAll s'.mem (s.penv w.part true) w.segs }.upPart w.part (fun pt => pt.plainLand w.kind w.no w.bytes)
/-- A Close frees reserve lines: the writes that wait, of every partition, are tried again in their order (R288). -/
def State.heldWrites (s : State) : State :=
  s.ik.heldWr.foldl State.heldWrite { s with ik := { s.ik with heldWr := [] } }
/-- The next phase opens (R286, R324, R329): snapshot, charges, ordinals, queues, persistent units. -/
def State.openPhase (s : State) (p ord : Nat) : State :=
  let carried := (s.units p).any (·.isPers)
  let s1 := s.upPart p (fun pt =>
    let live := pt.launches.filter (fun l => !l.gone && (ord ≤ l.phase || !l.ended))
    let mine := live.filter (fun l => l.phase = ord)
    let pt1 := { pt with
      phase := ord, closing := false, carried := carried, ended := [], charges := [], snap := s.mem
      acMade := [], acEvents := []
      abPhases := pt.abPhases.filter (fun n => ord ≤ n)
      abGraphs := pt.abGraphs.filter (fun g => live.any (fun l => l.graph == g))
      launches := live.map (fun l => if l.phase = ord then { l with ord := launchRank mine l } else l) }
    (Part.openLog pt1).fillQueues)
  let s2 := (s1.part p).coreList.foldl (fun s c => s.upCore c (fun k =>
    { k with run := k.run.map (fun r => { r with reported := false }) })) s1
  let s3 := s2.onSaved p (fun _ => true) (fun c s => s.upCore c (fun k =>
    { k with run := k.run.map (fun r => { r with reported := false }) }))
  s3.heldWrites
/-- Graphs of the closing phase that have no launch in the next (R332). -/
def Part.endedGraphs (p : Part) : List W64 :=
  ((p.launches.filter (fun l => l.phase = p.phase ∧ l.graph ≠ 0)).map (·.graph)).foldl (fun a g =>
    if a.contains g ∨ p.launches.any (fun l => l.phase = p.phase + 1 ∧ l.graph = g ∧ !l.gone) then a else a ++ [g]) []
/-- Close (R286): the ended sets are resolved into committed memory, the next phase opens on it, and then the completion
counters rise (R332). -/
def State.closePhase (s : State) (p : Nat) : State :=
  let pt := s.part p
  if !pt.closing then s
  else
    let ask := s.logAsk p 0 pt.phase
    match ask.2 with
    | .wait => ask.1
    | _ =>
      let win := resolve (ask.1.part p).ended
      let whole (w : Nat) : Bool := (upto 8).all (fun j => (mfind win (8 * w + j)).isSome)
      let s1 := (ask.1.setMem (commitAll s.mem win)).renew (fun w => w.arr == ProtArr.memory && whole w.idx)
      let s2 := s1.logWrite p 0 pt.phase (BitVec.ofNat 64 pt.phase)
      let all : W64 := BitVec.allOnes 64
      let s3 := (s2.openPhase p (pt.phase + 1)).bump p (pt.getSr 0x232) all .rise
      pt.endedGraphs.foldl (fun s _ => s.bump p (pt.getSr 0x233) all .rise) s3

/-! ### Jobs (R333) -/

/-- A phase whose units have all ended closes before a job starts, so that what they stored is committed (log entry 82). -/
def State.settlePhase (s : State) (p : Nat) : State :=
  if (s.part p).closing then s.closePhase p
  else if s.mayClose p then (s.startClosing p).closePhase p
  else s
/-- A job starts when the partition holds no unit and no launch: phase 0 opens with no launch. -/
def State.startJob (s : State) (p : Nat) (job : W64) : State :=
  if (s.units p).isEmpty ∧ (s.part p).launches.all (·.ended) then
    let s0 := s.settlePhase p
    let pt := s0.part p
    if pt.closing then s
    else
      let s1 := s0.setPart p ({ pt with job := job, launches := [], logMode := 0, recs := [], abJob := false, abPhases := [], abGraphs := [] }.setSr 0x180 0)
      s1.openPhase p 0
  else s
/-- An empty open phase starts closing. -/
def State.advance (s : State) (p : Nat) : State :=
  if s.emptyPhase p ∧ !(s.part p).closing then s.startClosing p else s

/-! ### PK.CTL, pre-emption and swaps (R261 to R269, R387) -/

/-- The declarations of a core that meet a condition are granted afresh, with onset 66 from cycle t (R387); the new grant of a collective
one stands in its agreement for the old (log entry 94). -/
def State.regrant (s : State) (c t : Nat) (keep : Decl → Bool) : State :=
  ((s.core c).decls.zipIdx.filter (fun x => keep x.1)).foldl (fun s x =>
    let g := s.grantAt c t 66 x.1.int
    (s.charged c g x.1.int).upCore c (fun k => k.upDecl x.2 (fun d => { d with start := g }))) s
/-- The held or parked unit that record SEQ names. -/
def Part.recNo (p : Part) (seq : Nat) : Option FaultRec := (p.recs.filter (fun r => r.seq % 2 ^ 32 = seq)).getLast?
/-- Forgetting a record that has been acted on. -/
def Part.dropRec (p : Part) (seq : Nat) : Part := { p with recs := p.recs.filter (fun r => r.seq % 2 ^ 32 ≠ seq) }
/-- A parked unit on its core. -/
def FaultRec.isUnit (r : FaultRec) (k : Core) : Bool :=
  k.mode == .parked && (match k.run with | some u => u.ref == r.ref && u.unit == r.unit | none => false)
/-- The frame of a parked core is restored (R262 step 4). -/
def Core.unparked (k : Core) (mode : Mode) : Core := { ((k.restoreFrame 0).setPc (k.getSr 0x003)) with mode := mode }
/-- A parked core resumes (R262 step 4). -/
def State.resume (s : State) (c : Nat) : State := (s.upCore c (fun k => k.unparked .running)).regrant c (s.cycOf c) (s.isOut c)
/-- Doing something to the parked unit of a record: on its core, or swapped out. -/
def State.onParked (s : State) (p : Nat) (r : FaultRec) (here away : Nat → State → State) : State :=
  if r.isUnit (s.core r.core) then here r.core s else s.onSaved p r.isUnit away
/-- PK.CTL with OP 1: a held unit becomes ready, a parked one resumes, at its swap-in when it is swapped out (R261 step 5,
R262). -/
def State.pkRelease (s : State) (p seq : Nat) : State :=
  match (s.part p).recNo seq with
  | none => s
  | some r =>
    let s1 := s.upPart p (fun pt => pt.dropRec seq)
    if r.parked then s1.onParked p r (fun c s => s.resume c) (fun c s => s.upCore c (fun k => k.unparked .swapped))
    else s1.upPart p (fun pt => pt.upLaunch r.ref (fun l =>
      { l with requeue := l.requeue.map (fun q => if q.unit = r.unit then { q with ready := true } else q) }))
/-- The runtime ends a parked unit: its pending set joins the ended sets (R262, R280), and it counts as failed. -/
def State.endParked (s : State) (c : Nat) : State :=
  match (s.core c).run with
  | none => s.endUnit c false false
  | some r =>
    (s.upPart (s.partNo c) (fun pt => { pt with ended := pt.ended ++ [⟨r.key, (s.core c).pend⟩] })).endUnit c false false
/-- PK.CTL with OP 2: a held unit fails, a parked one ends (R261, R262). -/
def State.pkFail (s : State) (p seq : Nat) : State :=
  match (s.part p).recNo seq with
  | none => s
  | some r =>
    let s1 := s.upPart p (fun pt => pt.dropRec seq)
    if r.parked then s1.onParked p r (fun c s => s.endParked c) (fun c s => s.endParked c)
    else match (s.part p).launch r.ref with
      | none => s1
      | some l =>
        if l.requeue.any (fun q => q.unit = r.unit ∧ !q.ready) then
          ((s1.upPart p (fun pt => pt.upLaunch r.ref (fun l =>
            { l with requeue := l.requeue.filter (fun q => q.unit ≠ r.unit) }))).ctr p l (.cancel 1)).launchEnd p r.ref
        else s1
/-- Pre-emption of a running idempotent unit (R265). -/
def State.preempt (s : State) (c : Nat) : State :=
  if (s.core c).busy ∧ !(s.core c).isPers then s.stopFor c .preempt else s
/-- A core halts for a swap (R266 step 1): its frame stays in its queues, its lease ends. -/
def State.haltCore (s : State) (c : Nat) : State := if (s.core c).busy then s.stopFor c .swap else s
/-- A declaration that a context brings back: it has not lapsed while it was away (R387). -/
def State.kept (s : State) (c : Nat) (d : Decl) : Bool := d.out && !(d.doneAt ≠ 0 && decide (d.doneAt ≤ s.cycOf c))
/-- The cycle from which a core can run: at the end of its cluster's waking, or now (R369). -/
def State.usableAt (s : State) (c : Nat) : Nat :=
  let u := s.clu (c / 4)
  if u.gated then u.idleFrom + 4200 else s.cycOf c
/-- The core that a swap brings back goes on in cycle t at the soonest, its FE at FF.FE and each engine at the head of its queue (R257,
R266 step 3); what the swap recorded gives way to what FF.FE, FF.LD, FF.EX and FF.ST held before, since a swap changes no result. -/
def Core.swappedIn (k : Core) (t : Nat) : Core :=
  let u := max k.eng.cyc t
  let k1 := { k.setPc (k.getSr 3) with
    mode := .running, ff := [], eng := { k.eng with cyc := u, ldAt := u, exAt := u, stAt := u, sBusy := [], hBusy := [] } }
  (k.ff.zipIdx).foldl (fun q x => q.setSr (3 + x.2) x.1) k1
/-- A core resumes after a swap (R266 step 3, R387). -/
def State.swapIn (s : State) (c : Nat) : State :=
  let t := s.usableAt c
  if (s.core c).mode = .swapped then (s.upCore c (fun k => k.swappedIn t)).regrant c t (s.kept c)
  else if (s.core c).mode = .parked then s.regrant c t (s.kept c)
  else s
/-- The cores of a tenant: saved ones, else free ones that keep nothing. -/
def Part.tenantCore (p : Part) (tenant c : Nat) : Core :=
  ((mfind p.saved tenant).bind (fun l => (l.find? (fun x => x.1 = c)).map (·.2))).getD { Core.reset with mode := .free }
/-- A context on a core: errors of the core's arrays and what is in its channels stay with the core (R267, R419). -/
def Core.standsAt (k q : Core) : Core := { k with bad := q.bad, weak := q.weak, ce := q.ce, inbox := q.inbox }
/-- Exchanging contexts (R266 step 2, R267): the outgoing tenant's cores are saved, the incoming tenant's resume, on a power-gated
cluster once it has been woken (R369). -/
def State.swapTo (s : State) (p tenant : Nat) : State :=
  let pt := s.part p
  let cs := pt.coreList
  if cs.any (fun c => (s.core c).busy) then s
  else
    let out := cs.map (fun c => (c, { s.core c with decls := s.declsNow c }))
    let s1 := cs.foldl (fun s c => (s.setCore c ((pt.tenantCore tenant c).standsAt (s.core c))).upClu (c / 4) (fun u =>
      if (s.core c).run.isSome then { u with idleFrom := max u.idleFrom (s.cycOf c) } else u)) s
    let s2 := s1.setPart p { pt with tenant := tenant, saved := mset (mdel pt.saved tenant) pt.tenant out }
    let s3 := if tenant = pt.tenant then s.setPart p pt else s2
    let s4 := (cs.filter (fun c => (s3.core c).run.isSome && (s3.clu (c / 4)).gated)).foldl (fun s c => s.wake (c / 4)) s3
    cs.foldl (fun s c => s.swapIn c) s4

end Sys2Proof.Machine
end

