-- ==== Sys2Proof/Machine/Special.lean ====
section
/-!
DEFINITION. Sys2Proof/Machine/Special.lean: the special registers (R27, R32, R43, R61, R117, R118, R145, R198, R210, R241, R251,
R264, R289, R308, R337, R344, R353, R366, R388, R422 to R424): which numbers are assigned, what a read returns, what a write
does; MOVSR and MOVRS (R116).
-/

namespace Sys2Proof.Machine
open Sys2Proof

/-! ### Writes and scopes (R7, R402) -/

/-- A write of a register (R7, R61): its RW bits take the value, its W1C bits are cleared where the value has a 1. -/
def srWrite (i : W64 × W64) (old v : W64) : W64 := (old &&& ~~~i.1 ||| v &&& i.1) &&& ~~~(v &&& i.2)
/-- Registers of a partition as a whole (R402). -/
def srPart (n : Nat) : Bool :=
  n == 0x180 || n == 0x200 || (decide (0x210 ≤ n) && decide (n ≤ 0x214)) || n == 0x222 || n == 0x223 ||
  (decide (0x230 ≤ n) && decide (n ≤ 0x272))
/-- Registers of a die as a whole (R402). -/
def srDie (n : Nat) : Bool := decide (0x280 ≤ n) && decide (n ≤ 0x2BF)

/-! ### Reads -/

/-- A number in a field of a register. -/
def fieldAt (lo v : Nat) : Nat := v * 2 ^ lo
/-- A bit of a register. -/
def bitAt (n : Nat) (b : Bool) : Nat := if b then 2 ^ n else 0
/-- SPEC.STAT (R366). -/
def Core.specStat (k : Core) : W64 :=
  BitVec.ofNat 64 (fieldAt 4 k.spec.descs.length + (match k.spec.st with | .closed => 0 | .guessing => 1 | .body => 2))
/-- PWR.GRANT (R388). -/
def State.pwrGrant (s : State) (c : Nat) : W64 :=
  let st (d : Decl) : Nat := if !s.hasStarted c d then 1 else if d.active then 3 else 2
  let ds := s.outs c
  BitVec.ofNat 64 ((upto 4).foldl (fun a k => match ds[k]? with
    | some d => a + fieldAt (16 * k + 12) (st d) + fieldAt (16 * k + 8) d.int + fieldAt (16 * k) d.serial
    | none => a) 0)
/-- PWR.CUR (R388). -/
def State.pwrCur (s : State) (c : Nat) : W64 :=
  let a := (s.outs c).find? (s.isActive c)
  BitVec.ofNat 64 (fieldAt 12 ((a.map (·.beats)).getD 0) + fieldAt 8 (s.cluSum (c / 4)) + fieldAt 4 (s.ownSum c) +
    (a.map (·.int)).getD 0)
/-- PWR.PAT (R388). -/
def State.pwrPat (s : State) (c : Nat) : W64 :=
  let d := s.die (c / 64)
  let fl := (s.part (s.partNo c)).fl
  let n := (s.clu (c / 4)).pulse
  BitVec.ofNat 64 (fieldAt 32 (d.sagn % 2 ^ 16) + bitAt 27 fl + bitAt 26 (!fl && (s.collLimit (c / 4)).isSome) + bitAt 25 d.sag +
    bitAt 24 (s.clu (c / 4)).und + fieldAt 16 n + pattern n)
/-- THRM.ALW (R384, R388). -/
def State.thrmAlw (s : State) (c : Nat) : W64 :=
  let g := groupOf (c / 4)
  let st := mget 0 s.ik.steps g
  BitVec.ofNat 64 (bitAt 27 (st = 3) + bitAt 26 (st = 2) + fieldAt 24 (min st 2) + fieldAt 16 (sat 255 (mget 0 s.ik.temps g)) +
    fieldAt 8 g + s.allow (c / 4))
/-- SLOT.PAT (R337). -/
def State.slotPat (s : State) (c : Nat) : W64 :=
  let d := s.die (c / 64)
  let p := s.partNo c
  BitVec.ofNat 64 ((upto 64).foldl (fun a i =>
    let v := mget 0 d.slt i
    a + bitAt i (v.getLsbD 7 && bits v 5 0 == p)) 0)
/-- A partition-wide register as a read returns it. -/
def State.readPart (s : State) (p n : Nat) : W64 :=
  let pt := s.part p
  let sel := bits (pt.getSr 0x270) 7 0
  if n = 0x180 then BitVec.ofNat 64 (bits (pt.getSr 0x180) 3 2 * 4 + pt.logMode)
  else if n = 0x200 then BitVec.ofNat 64 (p % 64)
  else if n = 0x271 then (if sel = 0 then 0 else (pt.group sel).cfg)
  else if n = 0x272 then (if sel = 0 then 0 else (pt.group sel).route)
  else pt.getSr n
/-- A special register as a core's read returns it; PCFE is the address given. -/
def State.readSr (s : State) (c : Nat) (pc : W64) (n : Nat) : W64 :=
  let k := s.core c
  if n = 0x000 then pc
  else if n = 0x00C then k.tokc
  else if n = 0x010 then BitVec.ofNat 64 (s.cycOf c)
  else if n = 0x011 then BitVec.ofNat 64 k.lcNext
  else if n = 0x04B then s.abrt c
  else if n = 0x04C then BitVec.ofNat 64 c
  else if n = 0x0C0 then k.specStat
  else if n = 0x100 then s.pwrGrant c
  else if n = 0x101 then s.pwrCur c
  else if n = 0x102 then BitVec.ofNat 64 k.undecl
  else if n = 0x103 then s.pwrPat c
  else if n = 0x104 then s.thrmAlw c
  else if n = 0x105 then BitVec.ofNat 64 (s.ik.energy % 2 ^ 32)
  else if n = 0x106 then k.enrHi.setWidth 64
  else if n = 0x1C0 then s.slotPat c
  else if n = 0x1E0 then BitVec.ofNat 64 (Config.pkgSerial.toNat * 2 ^ 32 + Config.pkgRev.toNat * 2 ^ 16 + 0x8400)
  else if n = 0x1E1 then BitVec.ofNat 64 (s.ik.svn.toNat * 2 ^ 32 + s.ik.ver.toNat)
  else if n = 0x1E2 then BitVec.ofNat 64 s.links.lsc
  else if n = 0x1E3 then (s.part (s.partNo c)).getSr 0x1E3
  else if n = 0x1E4 then BitVec.ofNat 64 (s.errCe c)
  else if n = 0x1E5 then BitVec.ofNat 64 (s.clu (c / 4)).ue
  else if n = 0x214 then BitVec.ofNat 64 (s.reserve (c / 64))
  else if srPart n then s.readPart (s.partNo c) n
  else if srDie n then mget 0 (s.die (c / 64)).slt (n - 0x280)
  else k.getSr n

/-! ### Writes -/

/-- PK.CTL (R264). -/
def State.pkCtl (s : State) (p : Nat) (v : W64) : State :=
  let s1 := s.upPart p (fun pt => pt.setSr 0x212 (BitVec.ofNat 64 (bits v 31 0)))
  if bits v 33 32 = 1 then s1.pkRelease p (bits v 31 0)
  else if bits v 33 32 = 2 then s1.pkFail p (bits v 31 0)
  else s1
/-- PH.CTL (R333, R337). -/
def State.phCtl (s : State) (p : Nat) (v : W64) : State :=
  let s1 := s.upPart p (fun pt => pt.setSr 0x235 (v &&& 0xFFFFFFFF00000000))
  let s2 := if v.getLsbD 1 then s1.startJob p (BitVec.ofNat 64 (bits v 63 32)) else s1
  if v.getLsbD 0 then s2.advance p else s2
/-- A write of a partition-wide register. -/
def State.writePart (s : State) (p n : Nat) (i : W64 × W64) (v : W64) : State :=
  let pt := s.part p
  let x := v &&& i.1
  let sel := bits (pt.getSr 0x270) 7 0
  let g := pt.group sel
  if n = 0x212 then s.pkCtl p x
  else if n = 0x235 then s.phCtl p x
  else if n = 0x230 ∨ n = 0x231 then s.setPart p { pt with later := pt.later ++ [(n, x)] }
  else if n = 0x240 then
    (if 1 ≤ bits x 4 0 ∧ bits x 4 0 ≤ 16 then s.setPart p { pt with later := pt.later ++ [(n, x)] } else s)
  else if n = 0x252 then
    (if bits x 1 0 = 3 then s else s.setPart p { pt.setSr n x with later := pt.later ++ [(n, x)] })
  else if 0x261 ≤ n ∧ n ≤ 0x26C then { s with links := { s.links with later := s.links.later ++ [(p, n, x)] } }
  else if n = 0x271 then (if sel = 0 then s else s.setPart p { pt with groups := mset pt.groups sel { g with cfg := x } })
  else if n = 0x272 then (if sel = 0 then s else s.setPart p { pt with groups := mset pt.groups sel { g with route := x } })
  else s.setPart p (pt.setSr n (srWrite i (pt.getSr n) v))
/-- A write of an entry of a die's slot table: it takes effect at the next slot boundary (R337). -/
def State.writeSlt (s : State) (d n : Nat) (v : W64) : State :=
  s.setDie d { s.die d with later := (s.die d).later ++ [(n - 0x280, v &&& 0xBF)] }
/-- A write of a special register by a core. -/
def State.writeSr (s : State) (c n : Nat) (i : W64 × W64) (v : W64) : State :=
  if srPart n then s.writePart (s.partNo c) n i v
  else if srDie n then s.writeSlt (c / 64) n v
  else s.upCore c (fun k => k.setSr n (srWrite i (k.getSr n) v))

/-! ### MOVSR and MOVRS (R42, R116) -/

/-- A MOVSR of the register waits (R27, R42, R366, R388). -/
def Core.srWaits (k : Core) (n : Nat) : Bool :=
  if n = 0x00C then !k.idle
  else if n = 0x0C0 ∨ n = 0x0C4 then !(k.eng.ld.isEmpty && k.eng.st.isEmpty)
  else k.eng.ex.any (fun e => (exSrs e.i).contains n)
/-- A MOVRS of the register waits (R116, R308). -/
def Core.srHolds (k : Core) (n : Nat) : Bool :=
  if exOwned n then !k.eng.ex.isEmpty
  else if 0x220 ≤ n ∧ n ≤ 0x223 then !(k.eng.ld.isEmpty && k.eng.st.isEmpty)
  else false
/-- An order-revealing read of CYC (R118, R340, R343): the logged value in replay. -/
def State.readCyc (s : State) (c t : Nat) : Option (State × W64) :=
  let now := BitVec.ofNat 64 (max (s.cycOf c) t)
  let a := s.logAsk (s.partNo c) 1 (s.core c).lcNext
  match a.2 with
  | .wait => none
  | .val v => some (a.1.upCore c Core.countEvent, v)
  | .live => some (a.1.logEvent c 1 now, now)
/-- Reading ENR.LO copies the high bits of the counter into the core's shadow (R386). -/
def State.latchEnr (s : State) (c : Nat) : State :=
  s.upCore c (fun k => { k with enrHi := BitVec.ofNat 32 (s.ik.energy / 2 ^ 32) })
/-- The body of MOVSR. -/
def movsrBody (d : Sreg) (n : Nat) (pc : W64) (t : Nat) (s : State) : Res State :=
  let c := s.cur
  if (s.core c).srWaits n then .wait s
  else if n = 0x010 then
    match s.readCyc c t with
    | none => .wait s
    | some r => .ok (r.1.upCore c (fun k => k.result t 1 d r.2))
  else
    let v := s.readSr c pc n
    let s1 := if n = 0x105 then s.latchEnr c else s
    .ok (s1.upCore c (fun k => k.result t 1 d v))
/-- MOVSR. -/
def execMovsr (t : Tok) (d : Sreg) (n : BitVec 14) (s : State) : Out :=
  feRun (.movsr t d n) (movsrBody d n.toNat s.pcNow) s
/-- The body of MOVRS. -/
def movrsBody (d : Sreg) (n : Nat) (_ : Nat) (s : State) : Res State :=
  let c := s.cur
  if (s.core c).srHolds n then .wait s
  else .ok (s.writeSr c n ((srInfo n).getD (0, 0)) ((s.core c).getS d))
/-- MOVRS. -/
def execMovrs (t : Tok) (d : Sreg) (n : BitVec 14) (s : State) : Out := feRun (.movrs t d n) (movrsBody d n.toNat) s

end Sys2Proof.Machine
end

