-- ==== Sys2Proof/Machine/System.lean ====
section
/-!
DEFINITION. Sys2Proof/Machine/System.lean: REGION (R41, R119), WAITA (R120), POLL, ABORT, PHASE, DONE, LAUNCH, CANCEL (R121 to
R127), TRAP and BREAK (R128), ERET (R257), HALT (R131) and TLBI (R132, R310).
-/

namespace Sys2Proof.Machine
open Sys2Proof

/-- A trap of the FE without state to give back. -/
def halt (x : Stop) (s : State) : Res State := .stop x s
/-- The partition of the core that moves. -/
def State.myPart (s : State) : Nat := s.partNo s.cur
/-- The unit that runs on the core that moves. -/
def State.myRun (s : State) : Option Running := (s.core s.cur).run

/-! ### REGION -/

/-- The body of REGION: it waits for the engines, then switches (R41). FE results that are not yet due stay so in a static region; an
interlocked region that begins waits for each (R40), so they are made, and one that ends leaves none (log entry 93). -/
def regionBody (n : Bool) (_ : Nat) (s : State) : Res State :=
  if (s.core s.cur).idle then .ok (s.upCore s.cur (fun k => (if n then k.flushAll else k).setRegion n)) else .wait s
/-- REGION. -/
def execRegion (t : Tok) (n : Bool) (s : State) : Out := feRun (.region t n) (regionBody n) s

/-! ### WAITA -/

/-- Where a WAITA reads: the place and the state with the translation it used, or what stops it. -/
def waitaPlace (s : State) (c : Nat) (a : W64) : Res (State × Bool × Nat) :=
  let k := s.core c
  if a.toNat % 8 ≠ 0 then .stop ⟨.align, .fe, a, 0⟩ (s, false, 0)
  else if a.toNat < padSize then
    match k.padBad a.toNat 8 with
    | some b => .stop (stopUe .fe 0 b) (s, false, 0)
    | none => .ok (s.upCore c (fun k => k.corrPad [(a.toNat, 8)]), true, 0)
  else
    let r := translate s.mem (s.env c) k.tlb [] a needR
    let s1 := s.setCore c { k with tlb := r.2 }
    match r.1 with
    | .error (.f cause sub) => .stop (stopX .fe cause sub a 0) (s1, false, 0)
    | .error (.fmt f) => .stop ⟨.format, .fe, a, BitVec.ofNat 64 f⟩ (s1, false, 0)
    | .error .hold => .wait (s1, false, 0)
    | .error (.bad pa) => .fault (.unpopulated pa)
    | .ok x =>
      if x.ent.home ≠ 2 then .stop (stopX .fe .perm 2 a 0) (s1, false, 0)
      else if s.memBad x.pa 8 then .stop (stopUe .fe 2 a.toNat) (s1, false, 0)
      else .ok (s1.corrMem x.pa 8, false, x.pa)
/-- The double that a WAITA watches, read by an instruction that starts in cycle t. -/
def State.waitaWord (s : State) (c t : Nat) (a : W64) (pad : Bool) (pa : Nat) : W64 :=
  if pad then rd64 ((s.core c).padAt t) a.toNat else rd64 s.mem pa
/-- A WAITA with a limit that returns is an event (R340); one whose logged status 0 replay forces takes its entry now (R343, log entry
52). -/
def State.waitaLog (s : State) (c : Nat) (limit : W64) (forced : Bool) (st : W64) : State :=
  if limit = 0 then s
  else if forced then (s.logAsk (s.partNo c) 2 (s.core c).lcNext).1.upCore c Core.countEvent
  else s.logEvent c 2 st
/-- What replay makes of a WAITA with a limit: it waits for its turn, it returns a status, or it waits for its condition
alone (R343). -/
inductive WaitaTurn where | live | wait | ret (v : W64) | forced
  deriving DecidableEq, Repr
/-- See `WaitaTurn`. -/
def State.waitaTurn (s : State) (c : Nat) (limit : W64) : State × WaitaTurn :=
  if limit = 0 then (s, .live)
  else
    let a := s.logAsk (s.partNo c) 2 (s.core c).lcNext
    match a.2 with
    | .live => (a.1, .live)
    | .wait => (a.1, .wait)
    | .val v => if v = 0 then (s, .forced) else (a.1.upCore c Core.countEvent, .ret v)
/-- The body of WAITA. -/
def waitaBody (tok : Tok) (d a v u : Sreg) (cond : Cond) (t : Nat) (s : State) : Res State :=
  let c := s.cur
  let k := s.core c
  let addr := k.getS a
  let limit := k.getS u
  match waitaPlace s c addr with
  | .stop x r => .stop x r.1
  | .wait r => .wait r.1
  | .fault f => .fault f
  | .ok (s1, pad, pa) =>
    match if pad then k.earlyPad .fe false t addr.toNat 8 else none with
    | some x => .stop x s1
    | none =>
      let turn := s1.waitaTurn c limit
      let ret (st : W64) (s : State) : Res State := .ok (s.upCore c (fun k => k.result t 1 d st))
      let nap (forced : Bool) (s : State) : Res State := .wait (s.upCore c (fun q =>
        { q with sleep := .waita tok d addr pad pa (k.getS v) cond limit t false forced }))
      let met := condInt cond (s1.waitaWord c t addr pad pa) (k.getS v)
      match turn.2 with
      | .wait => .wait turn.1
      | .ret st => ret st turn.1
      | .forced => if met then ret 0 (turn.1.waitaLog c limit true 0) else nap true turn.1
      | .live =>
        if met then ret 0 (turn.1.waitaLog c limit false 0)
        else if turn.1.abrt c ≠ 0 then ret 2 (turn.1.waitaLog c limit false 2)
        else nap false turn.1
/-- WAITA. -/
def execWaita (t : Tok) (d : Sreg) (a : Sreg) (v : Sreg) (u : Sreg) (cond : Cond) (s : State) : Out :=
  feRun (.waita t d a v u cond) (waitaBody t d a v u cond) s
/-- The return of an FE instruction that slept: it completes, n bytes of code on. -/
def Core.wakeUp (k : Core) (tok : Tok) (n : Nat) : Core :=
  (({ k with sleep := .awake }).skip n).feDone tok (k.eng.cyc + 1)
/-- A condition has held on the double at an address of the scratchpad since cycle `start`: at first, or after one of the writes
that have become due since (R37, R120). -/
def Core.padMet (k : Core) (addr start now : Nat) (ok : W64 → Bool) : Bool :=
  let m := k.padAt start
  ((k.eng.due.filter (fun d => start < d.due ∧ d.due ≤ now)).foldl (fun (a : Mem × Bool) d =>
    let m := overlay a.1 [d] now
    (m, a.2 || ok (rd64 m addr))) (m, ok (rd64 m addr))).2
/-- Re-evaluating a sleeping WAITA (R120): its status, when it returns. -/
def State.waitaStatus (s : State) (c : Nat) (addr : W64) (pad : Bool) (pa : Nat) (v : W64) (cond : Cond) (limit : W64) (start : Nat)
    (hit forced : Bool) : Option W64 :=
  let met := if pad then (s.core c).padMet addr.toNat start (s.cycOf c) (fun w => condInt cond w v) else condInt cond (rd64 s.mem pa) v
  if hit || met then some 0
  else if forced then none
  else if s.abrt c ≠ 0 then some 2
  else if limit ≠ 0 ∧ start + limit.toNat ≤ s.cycOf c then some 1
  else none
/-- A sleeping WAITA returns when its condition, an abort line or its limit ends it. -/
def State.waitaWake (s : State) (c : Nat) : State :=
  match (s.core c).sleep with
  | .waita tok d addr pad pa v cond limit start hit forced =>
    match s.waitaStatus c addr pad pa v cond limit start hit forced with
    | none => s
    | some st => (s.waitaLog c limit forced st).upCore c (fun k => (k.wakeUp tok 8).result (s.cycOf c) 1 d st)
  | _ => s

/-! ### POLL, ABORT, CANCEL, PHASE -/

/-- POLL. -/
def execPoll (t : Tok) (d : Sreg) (s : State) : Out :=
  feRun (.poll t d) (fun n s => .ok (s.upCore s.cur (fun k => k.result n 1 d (s.abrt s.cur)))) s
/-- The body of ABORT: the line of the unit's own launch, phase, graph or job. -/
def abortBody (lvl : BitVec 2) (_ : Nat) (s : State) : Res State :=
  let p := s.myPart
  let me := some s.cur
  .ok (match lvl.toNat with
    | 0 => (match s.myRun with | some r => s.abortLaunch p me r.ref | none => s)
    | 1 => s.abortPhase p me (s.part p).phase
    | 2 => s.abortGraph p me ((s.core s.cur).getSr 0x048)
    | _ => s.abortJob p me (s.part p).job)
/-- ABORT. -/
def execAbort (t : Tok) (lvl : BitVec 2) (s : State) : Out := feRun (.abort t lvl) (abortBody lvl) s
/-- The body of CANCEL: the named object; with d, one unit of the launch. -/
def cancelBody (d a : Sreg) (lvl : BitVec 2) (_ : Nat) (s : State) : Res State :=
  let p := s.myPart
  let me := some s.cur
  let k := s.core s.cur
  let id := k.getS a
  .ok (match lvl.toNat with
    | 0 => if d = 0 then s.cancelLaunch p me id else s.cancelUnit p me id (k.getS d).toNat
    | 1 => s.abortPhase p me id.toNat
    | 2 => s.abortGraph p me id
    | _ => s.abortJob p me id)
/-- CANCEL. -/
def execCancel (t : Tok) (d : Sreg) (a : Sreg) (lvl : BitVec 2) (s : State) : Out := feRun (.cancel t d a lvl) (cancelBody d a lvl) s
/-- The report of a persistent unit at the boundary: its pending set ends and an empty one begins (R122, R280). -/
def State.report (s : State) (c : Nat) : State :=
  let p := s.partNo c
  match (s.core c).run with
  | none => s
  | some r =>
    let s1 := if r.reported then s
      else s.upPart p (fun pt => { pt with ended := pt.ended ++ [⟨r.key, (s.core c).pend⟩] })
    s1.upCore c (fun k => { k with
      pend := if r.reported then k.pend else []
      run := some { r with reported := true, phaseAt := some (s.part p).phase } })
/-- The return of PHASE. -/
def State.phaseRet (s : State) (c t : Nat) (d : Sreg) (st : W64) : State :=
  s.upCore c (fun k =>
    let k1 := if st = 0 then k.setSr 0x047 (BitVec.ofNat 64 (s.part (s.partNo c)).phase) else k
    Core.result { k1 with run := k1.run.map (fun r => { r with phaseAt := none }) } t 1 d st)
/-- The body of PHASE; a PHASE that has reported goes on from there. An abort line is looked at once the unit has reported (log entry
107). -/
def phaseBody (d : Sreg) (t : Nat) (s : State) : Res State :=
  let c := s.cur
  let k := s.core c
  if !k.isPers then .stop (stop0 .illegal .fe) s
  else
    let step3 (s : State) (ord : Nat) : Res State :=
      if (s.part (s.partNo c)).phase ≠ ord then .ok (s.phaseRet c t d 0)
      else if s.abrt c ≠ 0 then .ok (s.phaseRet c t d 2)
      else .wait s
    match k.run.bind (·.phaseAt) with
    | some ord => step3 s ord
    | none => if k.idle then step3 (s.report c) (s.part (s.partNo c)).phase else .wait s
/-- PHASE. -/
def execPhase (t : Tok) (d : Sreg) (s : State) : Out := feRun (.phase t d) (phaseBody d) s

/-! ### LAUNCH -/

/-- The fields of a launch identifier that a unit's attempt gives (R324, R125). -/
def unitLaunchId (phase : Nat) (r : Running) : W64 := launchId phase r.ordinal r.unit r.created
/-- The body of LAUNCH. -/
def launchBody (d a : Sreg) (t : Nat) (s : State) : Res State :=
  let c := s.cur
  let p := s.myPart
  let k := s.core c
  let va := k.getS a
  if va.toNat % 64 ≠ 0 then .stop ⟨.align, .fe, va, 0⟩ s
  else
    let r := translate s.mem (s.env c) k.tlb [] va needR
    let s1 := s.setCore c { k with tlb := r.2 }
    match r.1 with
    | .error (.f cause sub) => .stop (stopX .fe cause sub va 0) s1
    | .error (.fmt f) => .stop ⟨.format, .fe, va, BitVec.ofNat 64 f⟩ s1
    | .error .hold => .wait s1
    | .error (.bad pa) => .fault (.unpopulated pa)
    | .ok x =>
      if s1.storeMeets c (t + 1) [x.pa / 64] then .wait s1
      else if s1.memBad x.pa 64 then .stop (stopUe .fe (arrOf x.pa) va.toNat) s1
      else match k.run with
        | none => .ok s1
        | some run =>
          let rc := recordOf va (s1.loadBytes c x.pa 64)
          let s1 := s1.corrMem x.pa 64
          let why := (s1.part p).refuse rc k.isPriv run.created
          if why ≠ 0 then .stop ⟨.record, .fe, va, BitVec.ofNat 64 why⟩ s1
          else
            let id := unitLaunchId ((s1.part p).phase + 1) run
            let s2 := s1.newLaunch p (id, bits run.launch 63 48) rc (k.getSr 0x048) (if run.pers then none else some run.who)
            .ok (s2.upCore c (fun k => Core.result { k with run := some { run with created := run.created + 1 } } t 1 d id))
/-- LAUNCH. -/
def execLaunch (t : Tok) (d : Sreg) (a : Sreg) (s : State) : Out := feRun (.launch t d a) (launchBody d a) s

/-! ### Dropping a region's side effects (R363, R364) -/

/-- A region ends without its side effects: descriptors keep the lanes below `keep`; held commands counted in DISC. -/
def State.dropRegion (s : State) (c : Nat) : State :=
  (s.closeDescs c 0).upCore c (fun k =>
    let k1 := { k with spec := .reset }
    (k1.setSr 0x0C3 (BitVec.ofNat 64 (k.spec.held.length % 2 ^ 16))).setSr 0x0C4 0)

/-! ### DONE and HALT -/

/-- Ending the unit once its engines have drained (R18, R131). -/
def State.finishUnit (s : State) (c : Nat) (halt : Bool) : State :=
  if (s.core c).idle then s.endUnit c true halt else s.upCore c (fun k => { k with mode := .drain halt })
/-- The body of DONE: in the body state of a region it first performs SPEC.ABORT (R364). -/
def doneBody (_ : Nat) (s : State) : Res State :=
  let c := s.cur
  if (s.core c).spec.st = .body then
    (if (s.core c).idle then .ok ((s.dropRegion c).finishUnit c false) else .wait s)
  else if (s.core c).idle then .ok (s.finishUnit c false)
  else .wait (s.finishUnit c false)
/-- DONE. -/
def execDone (t : Tok) (s : State) : Out := feRun (.done t) doneBody s
/-- HALT. -/
def execHalt (t : Tok) (s : State) : Out :=
  feRun (.halt t) (fun _ s =>
    if (s.core s.cur).idle then .ok (s.finishUnit s.cur true) else .wait (s.finishUnit s.cur true)) s

/-! ### Traps and ERET -/

/-- TRAP: the code is FF.INFO. -/
def execTrap (t : Tok) (n : BitVec 14) (s : State) : Out :=
  feRun (.trap t n) (fun _ s => halt ⟨.trap, .fe, 0, n.setWidth 64⟩ s) s
/-- BREAK. -/
def execBrk (t : Tok) (s : State) : Out := feRun (.brk t) (fun _ s => halt (stop0 .brk .fe) s) s
/-- The body of ERET: ILLEGAL when no handler is active; it waits for the engines, then the frame is restored. -/
def eretBody (_ : Nat) (s : State) : Res State :=
  let k := s.core s.cur
  if !k.ha then .stop (stop0 .illegal .fe) s
  else if k.idle then .ok (s.upCore s.cur Core.eret)
  else .wait s
/-- ERET. What it restores keeps the waits that the instruction at FF.FE had satisfied; its own signals join the restored
token queues at its completion (R25; log entry 15). -/
def execEret (t : Tok) (s : State) : Out := feRunK (fun q at' => q.signals .fe t at') (.eret t) eretBody s

/-! ### TLBI -/

/-- Dropping translations of a core's FE within a scope (R132). -/
def Core.dropItlb (k : Core) (scope : BitVec 2) (va asid : W64) : Core :=
  { k with itlb := tlbDrop k.itlb scope.toNat (bits asid 15 0) va.toNat }
/-- Dropping a core's data translations within a scope (R310). -/
def Core.dropTlb (k : Core) (scope : BitVec 2) (va asid : W64) : Core :=
  { k with tlb := tlbDrop k.tlb scope.toNat (bits asid 15 0) va.toNat }
/-- A marker (R132). -/
def Entry.marker (en : Entry) : Bool := match en.i with | .tlbi .. => true | _ => false
/-- A marker that has been taken and waits for the other one. -/
def Entry.taken (en : Entry) : Bool := en.marker && en.mark == .shipped 0
/-- Taking the marker at the head of a copy engine (Mark, R280). -/
def Core.takeMark (k : Core) (e : Eng) : Core :=
  match k.queue e with
  | [] => k
  | en :: _ => if en.marker then k.setHead e { en with mark := .shipped 0 } else k
/-- When both markers have been taken, the translations in their scope are dropped and the markers leave (R310). -/
def Core.dropMarked (k : Core) : Option (Core × Entry) :=
  match k.queue .ld, k.queue .st with
  | a :: l, b :: r =>
    if a.taken && b.taken then
      match a.i with
      | .tlbi _ _ _ scope => some (((k.setQueue .ld l).setQueue .st r).dropTlb scope (a.s 0) (a.s 1), a)
      | _ => none
    else none
  | _, _ => none
/-- The body of TLBI: the FE's own translations leave at once; the markers are placed, and taken where the queue is free. A
TLBI whose markers stand in the queues waits for them. -/
def tlbiBody (i : Instr) (pc : W64) (scope : BitVec 2) (t : Nat) (s : State) : Res State :=
  let c := s.cur
  let k := s.core c
  if (k.eng.ld ++ k.eng.st).any Entry.marker then .wait s
  else match k.roomAt .ld i t, k.roomAt .st i t with
  | some a, some b =>
    let en : Entry := { k.entryOf i (max a b) [] 15 with pc := pc, waited := true }
    let k1 := (k.dropItlb scope (en.s 0) (en.s 1)).notBefore .fe (max a b + 1)
    let k2 := (k1.setQueue .ld (k.eng.ld ++ [en])).setQueue .st (k.eng.st ++ [en])
    let k3 := if k.eng.ld.isEmpty && !k.eng.holdLd then k2.takeMark .ld else k2
    let k4 := if k.eng.st.isEmpty && !k.eng.holdSt then k3.takeMark .st else k3
    match k4.dropMarked with
    | some q => .ok (s.setCore c q.1)
    | none => .wait (s.setCore c k4)
  | _, _ => .wait s
/-- TLBI. -/
def execTlbi (t : Tok) (a : Sreg) (b : Sreg) (scope : BitVec 2) (s : State) : Out :=
  feRun (.tlbi t a b scope) (tlbiBody (.tlbi t a b scope) s.pcNow scope) s
/-- A marker at its engine's head is taken; the second completes the TLBI that the FE waits in (R310). -/
def State.tlbiMark (s : State) (c : Nat) (e : Eng) : State :=
  let k := (s.core c).takeMark e
  match k.dropMarked with
  | none => s.setCore c k
  | some (q, en) => s.setCore c (if q.r.pc = en.pc then q.wakeUp (tokOf en.i) 4 else q)

end Sys2Proof.Machine
end

