-- ==== Sys2Proof/Machine/Power.lean ====
section
/-!
DEFINITION. Sys2Proof/Machine/Power.lean: PWR.DECL, PWR.ACQ and PWR.REL (R370 to R375, R383), and the power events: the
end of a wait, lapses, the undeclared throttle, the supply-sag net (R380, R381), gating (R369), the agreement of collective regions
(R383, R425), temperature (R384, R385) and energy (R386).
-/

namespace Sys2Proof.Machine
open Sys2Proof

/-! ### Making a declaration -/

/-- The collective group that a declaration of the core takes part in (R383, R424); 0 for none. -/
def State.collOf (s : State) (c : Nat) : Nat :=
  let g := bits ((s.core c).getSr 0x107) 7 0
  let cfg := ((s.part (s.partNo c)).group g).cfg
  if g ≠ 0 && cgValid cfg && bits cfg 55 48 == c then g else 0
/-- A record of this member of a group. -/
def Group.mine (g : Group) (no : Nat) (offer : Bool) (k val : Nat) : CollRec := ⟨offer, cgRank g.cfg, no, k % 2 ^ 32, val⟩
/-- The declaration is made in cycle t and granted; a collective one sends its grant (R372, R383). -/
def State.declare (s : State) (c t onset int len : Nat) : State × W64 :=
  let p := s.partNo c
  let k := s.core c
  let serial := s.serial c
  let g := s.grantAt c t onset int
  let coll := s.collOf c
  let gr := (s.part p).group coll
  let d : Decl := ⟨serial, int, len, g, false, true, coll, gr.made + 1, 0, false, 0, 0⟩
  let s1 := (s.charged c g int).setCore c
    { k with decls := s.declsNow c ++ [d], nextSerial := if serial = 255 then 1 else serial + 1 }
  let s2 := if coll = 0 then s1
    else (s1.upPart p (fun pt => { pt with groups := mset pt.groups coll { gr with made := gr.made + 1 } })).sendRecord gr.route
      (gr.mine coll false (gr.made + 1) g)
  (s2, ticketOf c serial)
/-- The cluster's sum admits an intensity (R370). -/
def State.admits (s : State) (c int : Nat) : Bool := decide (s.cluSum (c / 4) + int ≤ 15)
/-- An FE instruction whose order against other cores matters waits for its own cycle. -/
def State.waitsFor (s : State) (c t : Nat) : Res State := .wait (s.upCore c (fun k => { k with eng := { k.eng with cyc := t } }))
/-- The body of PWR.DECL: declarations are granted in the order of their cycles (R372); the ticket follows from them and is no event of
the order log (log entry 95). -/
def pwrDeclBody (tok : Tok) (d : Sreg) (onset int len : Nat) (t : Nat) (s : State) : Res State :=
  let c := s.cur
  if s.cycOf c < t then s.waitsFor c t
  else if 4 ≤ (s.outs c).length ∨ 15 < s.ownSum c + int then .stop (stop0 .pwrOver .fe) s
  else if s.admits c int then
    let r := s.declare c t onset int len
    .ok (r.1.upCore c (fun k => k.result t 1 d r.2))
  else .wait (s.upCore c (fun k => { k with sleep := .decl tok d onset int len }))
/-- PWR.DECL. -/
def execPwrDecl (t : Tok) (d : Sreg) (len : BitVec 14) (onset : BitVec 14) (int : BitVec 4) (s : State) : Out :=
  feRun (.pwrDecl t d len onset int) (pwrDeclBody t d onset.toNat int.toNat len.toNat) s
/-- A waiting PWR.DECL proceeds when the sum admits it (R373, R374). -/
def State.declAdmit (s : State) (c : Nat) : State :=
  match (s.core c).sleep with
  | .decl tok d onset int len =>
    if s.admits c int then
      let r := s.declare c (s.cycOf c) onset int len
      r.1.upCore c (fun k => (k.wakeUp tok 8).result (s.cycOf c) 1 d r.2)
    else s
  | _ => s

/-! ### PWR.ACQ and PWR.REL -/

/-- Another active declaration of the core ends (R373). -/
def Core.endOthers (k : Core) (j : Nat) : Core :=
  { k with decls := k.decls.zipIdx.map (fun x => if x.1.out ∧ x.1.active ∧ x.2 ≠ j then { x.1 with out := false, active := false } else x.1) }
/-- A declaration becomes active. -/
def Core.activate (k : Core) (j : Nat) : Core := k.upDecl j (fun d => { d with active := true })
/-- The body of PWR.ACQ. -/
def pwrAcqBody (tok : Tok) (a : Sreg) (_ : Nat) (s : State) : Res State :=
  let c := s.cur
  let k := s.core c
  match s.declIx c (k.getS a) with
  | none => .ok s
  | some j =>
    let s1 := s.setCore c (k.endOthers j)
    if s1.hasStarted c (k.decl j) then .ok (s1.upCore c (fun k => k.activate j))
    else .wait (s1.upCore c (fun k => { k with sleep := .acq tok (k.decl j).serial }))
/-- PWR.ACQ. -/
def execPwrAcq (t : Tok) (a : Sreg) (s : State) : Out := feRun (.pwrAcq t a) (pwrAcqBody t a) s
/-- A waiting PWR.ACQ returns when its start granule begins (R374). -/
def State.declActivate (s : State) (c : Nat) : State :=
  match (s.core c).sleep with
  | .acq tok serial =>
    match s.outIx c serial with
    | none => s.upCore c (fun k => k.wakeUp tok 4)
    | some j => if s.hasStarted c ((s.core c).decl j) then s.upCore c (fun k => (k.activate j).wakeUp tok 4) else s
  | _ => s
/-- PWR.REL. -/
def execPwrRel (t : Tok) (a : Sreg) (s : State) : Out :=
  feRun (.pwrRel t a) (fun _ s =>
    match s.declIx s.cur ((s.core s.cur).getS a) with
    | none => .ok s
    | some j => .ok (s.upCore s.cur (fun k => k.endDecl j))) s

/-! ### Events of declarations and of the safety net -/

/-- A declaration that has lapsed ends (R373). -/
def State.declLapse (s : State) (c serial : Nat) : State :=
  match (s.core c).decls.findIdx? (fun d => d.out && d.serial == serial && s.lapsed c d) with
  | none => s
  | some j => s.upCore c (fun k => k.endDecl j)
/-- The undeclared throttle of a cluster turns off (R377). -/
def State.throttleEnd (s : State) (k : Nat) : State :=
  s.upClu k (fun u => if u.und ∧ u.undTo ≤ (s.die (k / 16)).cyc then { u with und := false, undTo := 0 } else u)
/-- The fixed-latency partitions that hold a cluster of the die (R381). -/
def State.flOn (s : State) (die : Nat) : List Nat :=
  (s.parts.filter (fun p => p.2.fl && p.2.clusters.any (fun k => k / 16 = die))).map (·.1)
/-- A supply sag (R380, R381): it is counted, the die's clusters are held, the runtime is told, and every busy core of a
fixed-latency partition of the die stops. -/
def State.sagEvent (s : State) (die : Nat) : State :=
  let d := s.die die
  let s1 := (s.setDie die { d with sagn := d.sagn + 1, sag := true, sagAt := d.cyc }).irq 4
  ((s1.flOn die).flatMap s1.busyCores).foldl (fun s c => stopCore c ⟨.pwrBreach, .fe, 0, 0⟩ s) s1
/-- The hold ends 256 master cycles after the last sag (R380). -/
def State.sagEnd (s : State) (die : Nat) : State :=
  let d := s.die die
  if d.sag ∧ d.sagAt + 256 ≤ d.cyc then s.setDie die { d with sag := false } else s

/-! ### Gating (R369, R331) -/

/-- No core of a cluster runs a unit or holds an outstanding declaration. -/
def State.cluIdle (s : State) (k : Nat) : Bool :=
  [0, 1, 2, 3].all (fun j => (s.core (4 * k + j)).run.isNone && (s.outs (4 * k + j)).isEmpty)
/-- A cluster idle for 4,096 master cycles power-gates (R369). -/
def State.gate (s : State) (k : Nat) : State :=
  let u := s.clu k
  if s.cluIdle k ∧ !u.gated ∧ u.idleFrom + 4096 ≤ (s.die (k / 16)).cyc then s.setClu k { u with gated := true, waking := false }
  else s
/-- A woken cluster becomes usable 2 µs, 4,200 master cycles, later (R331, R369). -/
def State.ungate (s : State) (k : Nat) : State :=
  let u := s.clu k
  let now := (s.die (k / 16)).cyc
  if u.gated ∧ u.waking ∧ u.idleFrom + 4200 ≤ now then s.setClu k { u with gated := false, waking := false, idleFrom := now }
  else s

/-! ### Collective regions (R383, R425) -/

/-- A member makes its offer 48 granules before the agreed start. -/
def State.collOffer (s : State) (c serial : Nat) : State :=
  match s.outIx c serial with
  | none => s
  | some j =>
    let d := (s.core c).decl j
    match s.startOf c d with
    | none => s
    | some g =>
      if d.coll = 0 ∨ d.offer ≠ 0 ∨ s.granule c + 48 < g then s
      else
        let n := s.offerOf c
        let gr := (s.part (s.partNo c)).group d.coll
        (s.upCore c (fun k => k.upDecl j (fun d => { d with offer := n }))).sendRecord gr.route (gr.mine d.coll true d.collK n)
/-- A grant record lacks 48 granules after the member's own grant granule, or an offer at the agreed start. -/
def State.lacks (s : State) (c : Nat) (d : Decl) : Bool :=
  let gr := (s.part (s.partNo c)).group d.coll
  d.coll ≠ 0 && !d.alone && ((gr.others false d.collK).isNone && decide (d.start + 48 ≤ s.granule c) ||
    (match s.startOf c d with
      | some g => d.offer ≠ 0 && (gr.others true d.collK).isNone && decide (g ≤ s.granule c)
      | none => false))
/-- The member goes on alone, with the start it would give and its own offer as the count, made now when none was, and counts
it. -/
def State.collMissing (s : State) (c serial : Nat) : State :=
  match s.outIx c serial with
  | none => s
  | some j =>
    let d := (s.core c).decl j
    if s.lacks c d then
      let n := if d.offer = 0 then s.offerOf c else d.offer
      (s.upCore c (fun k => k.upDecl j (fun d => { d with
        alone := true, offer := n, count := n }))).linkStat (s.partNo c) 16 1
    else s
/-- A record that has made the turns of its route is at a member, in the partition of the route's core: it is kept, and goes on unless
the next member is its origin. One that cannot be delivered is dropped (R425). -/
def State.collMember (s : State) (x : CollHop) : State :=
  let r := x.r
  let p := s.partNo (routeCore x.route)
  let gr := (s.part p).group r.grp
  if r.grp = 0 ∨ p = noPart ∨ !cgValid gr.cfg then s
  else
    let s1 := s.upPart p (fun pt => { pt with groups := mset pt.groups r.grp { gr with recs := gr.recs ++ [r] } })
    if (cgRank gr.cfg + 1) % (cgMemb gr.cfg + 1) = r.rank then s1 else s1.sendRecord gr.route r
/-- A record arrives on a port after the turns of its route made so far: it is turned to its next port, or is at the member it goes to
(R410, R425). -/
def State.collRecord (s : State) (x : CollHop) (port : Nat) : State :=
  if routeHops x.route ≤ x.hop then s.collMember x else s.recTurn { x with entry := port }

/-! ### Temperature and energy (R384 to R386) -/

/-- One reading of every channel group: its step follows, and a group newly halted or resumed is told to the runtime. -/
def State.thermal (s : State) (rs : List Nat) : State :=
  (upto 32).foldl (fun s g =>
    let t := nth 0 rs g
    let old := mget 0 s.ik.steps g
    let new := stepNext old t
    let s1 := { s with ik := { s.ik with temps := mset s.ik.temps g t, steps := mset s.ik.steps g new } }
    if old ≠ new ∧ (old = 3 ∨ new = 3) then s1.irq 3 else s1) s
/-- The energy counter adds what the telemetry gives, modulo 2^64. -/
def State.addEnergy (s : State) (uj : Nat) : State :=
  { s with ik := { s.ik with energy := (s.ik.energy + uj) % 2 ^ 64 } }

end Sys2Proof.Machine
end

