-- ==== Sys2Proof/Machine/SpecRegion.lean ====
section
/-!
DEFINITION. Sys2Proof/Machine/SpecRegion.lean: opening and closing a speculative region (R350, R351, R362, R363).
-/

namespace Sys2Proof.Machine
open Sys2Proof

/-! ### SPEC.BEGIN and SPEC.GO (R350, R351) -/

/-- Opening a region of w lanes that returns to `ret`. -/
def Core.openRegion (k : Core) (w : Nat) (ret : W64) : Core :=
  ((((({ k with spec := { Spec.reset with st := .guessing } }).setSr 0x0C1 (BitVec.ofNat 64 w)).setSr 0x0C2 1).setSr 0x0C3
    0).setSr 0x0C4 0).setSr 0x0C5 ret
/-- SPEC.BEGIN. -/
def execSpecBegin (t : Tok) (hc : Hreg) (hg : Hreg) (wm1 : BitVec 3) (off : BitVec 28) (s : State) : Out :=
  let pc := s.pcNow
  let ren := (s.core s.cur).ren
  let w := wm1.toNat + 1
  feRun (.specBegin t (ren hc) (ren hg) wm1 off) (feCore (fun n k =>
    .ok ((((k.corrects isHandle (4 * (ren hc).toNat) 4).corrects isHandle (4 * (ren hg).toNat) 4).openRegion w (pc + 8)).jump n
      (target pc off))) s.cur) s
/-- SPEC.GO. -/
def execSpecGo (t : Tok) (s : State) : Out :=
  feRun (.specGo t) (feCore (fun n k =>
    .ok (Core.jump { k with spec := { k.spec with st := .body } } n (k.getSr 0x0C5))) s.cur) s

/-! ### SPEC.COMMIT (R362) -/

/-- Running a held command again, whole, at the positions it was given, but for the bytes that younger commands of its lane have
written since (R278, R362). -/
def heldBody (h : Held) : EBody := fun c en t s =>
  let x : CSt := ⟨s, { rows := h.rows }⟩
  match h.e.i with
  | .stApp .. => match appendDesc c (en.s 0) needRW x with
    | (.ok x, some (_, d)) => appendLand (appendKept c en t) c en t d x
    | (.stop y x, _) => .stop y (finAt t (x.leave c).s)
    | (.fault z, _) => .fault z
    | (_, _) => .wait (finAt t s)
  | .stX .. => storeRows h.newer c en t x
  | .stT .. => storePlain true h.newer c en t s
  | .stPart .. => storePlain false h.newer c en t s
  | i => bodyOf i c en t s
/-- The re-issue of one command: a fault is raised by the FE, and what its parts landed stays (R253). -/
def reissue (c t : Nat) (h : Held) (s : State) : Res State :=
  let hs := (s.core c).spec.held
  let keep (s : State) : State := s.upCore c (fun k => Core.setSr { k with spec := { k.spec with held := hs } } 0x0C4 (heldValue hs))
  match heldBody h c { h.e with mark := .fresh } t s with
  | .ok f =>
    match ((f.s.core c).spec.held.drop hs.length).head? with
    | some x => .stop { x.x with src := .fe } (keep f.s)
    | none => .ok f.s
  | .stop x f => .stop { x with src := .fe } (keep f.s)
  | .wait _ => .wait s
  | .fault z => .fault z
/-- Re-issuing several commands in order. -/
def reissueAll (c t : Nat) : List Held → State → Res State
  | [], s => .ok s
  | h :: hs, s => (reissue c t h s).andThen (reissueAll c t hs)
/-- The held commands of the lanes below a, lane by lane, each lane in routing order. -/
def heldBelow (a : Nat) (hs : List Held) : List Held := (upto a).flatMap (fun j => hs.filter (fun h => h.lane = j))
/-- Closing the region after its kept lanes have been made whole: the green sets enter the pending set lane by lane, and the
kept deferral entries stand in the ST queue, one placed in a cycle. -/
def Core.commitLanes (k : Core) (a : Nat) : Core :=
  let at' := k.eng.cyc + 7 + k.spec.descs.length
  let kept := (upto a).flatMap (fun j => (k.spec.defer.filter (fun d => d.1 = j)).map (·.2))
  let placed := kept.zipIdx.map (fun x => { x.1 with routed := at' + x.2 })
  let disc := (k.spec.held.filter (fun h => a ≤ h.lane)).length
  let k1 := { k with
    pend := (upto a).foldl (fun p j => pendAll p (mget [] k.spec.green j)) k.pend
    spec := .reset
    eng := { k.eng with st := placed ++ k.eng.st, cyc := at' + placed.length } }
  (k1.setSr 0x0C3 (BitVec.ofNat 64 (disc % 2 ^ 16))).setSr 0x0C4 0
/-- The body of SPEC.COMMIT; re-issues that have to wait start over together (log entry 100). -/
def commitBody (t : Nat) (s : State) : Res State :=
  let c := s.cur
  let k := s.core c
  if !k.idle then .wait s
  else
    let a := bits (k.getSr 0x0C2) 3 0
    match reissueAll c t (heldBelow a k.spec.held) s with
    | .ok s1 => .ok ((s1.closeDescs c a).upCore c (fun k => k.commitLanes a))
    | .wait _ => .wait s
    | r => r
/-- SPEC.COMMIT. -/
def execSpecCommit (t : Tok) (s : State) : Out := feRun (.specCommit t) commitBody s

/-! ### SPEC.ABORT (R363) -/

/-- The body of SPEC.ABORT. -/
def specAbortBody (_ : Nat) (s : State) : Res State :=
  let c := s.cur
  let k := s.core c
  if !k.idle then .wait s
  else .ok ((s.dropRegion c).upCore c (fun q =>
    { q with eng := { q.eng with cyc := q.eng.cyc + 7 + k.spec.descs.length } }))
/-- SPEC.ABORT. -/
def execSpecAbort (t : Tok) (s : State) : Out := feRun (.specAbort t) specAbortBody s

end Sys2Proof.Machine
end

