-- ==== Sys2Proof/Machine/Fetch.lean ====
section
/-!
DEFINITION. Sys2Proof/Machine/Fetch.lean: fetching an instruction at PCFE (R46, R60): words of the partition's snapshot,
translated under X, and the fates of a fetch.
-/

namespace Sys2Proof.Machine
open Sys2Proof

/-- What a fetch gives: an instruction, a cause, or a wait on a held code segment (R311). -/
inductive Fetched where
  | got (i : Instr)
  | stop (x : Stop)
  | hold
  | fault (f : Fault)
  deriving DecidableEq, Repr
/-- One word of code, or what the fetch meets. -/
inductive FetchedWord where
  | word (w : BitVec 32)
  | err (c : Cause) (sub : Nat)
  | ue
  | hold
  | fault (f : Fault)
  deriving DecidableEq, Repr
/-- Fetching the word at va with the translations held (R46). -/
def State.fetchWord (s : State) (c : Nat) (t : Tlb) (va : W64) : FetchedWord × Tlb :=
  let r := translate s.mem (s.env c) t [] va needX
  match r.1 with
  | .error (.f cause sub) => (.err cause sub, r.2)
  | .error (.fmt _) => (.err .format 0, r.2)
  | .error .hold => (.hold, r.2)
  | .error (.bad pa) => (.fault (.unpopulated pa), r.2)
  | .ok x =>
    if s.memBad x.pa 4 then (.ue, r.2)
    else (.word (wordOfBytes (rdN (s.part (s.partNo c)).snap x.pa 4)), r.2)
/-- A fetch fault that ends the code region inside an instruction: the page is unmapped or not executable (R60). Every PERM of the second
word counts as that, also the one of a privileged page (log entry 111). -/
def regionEnds (c : Cause) (sub : Nat) : Bool := (c == .page && (sub == 0 || sub == 3)) || c == .perm
/-- The stop of a fetched word; MEM.UE has array code 8 (R245). -/
def fetchStop (va : W64) : FetchedWord → Fetched
  | .word _ => .stop (stop0 .illegal .fe)
  | .err c sub => .stop (stopX .fe c sub va 0)
  | .ue => .stop (stopUe .fe 8 va.toNat)
  | .hold => .hold
  | .fault f => .fault f
/-- What the decoder makes of an instruction's words. -/
def decoded (w0 w1 : BitVec 32) : Fetched :=
  match decode w0 w1 with
  | some i => .got i
  | none => .stop (stop0 .illegal .fe)
/-- Fetching and decoding at PCFE (R60), with the instruction translations held afterwards. -/
def State.fetch (s : State) (c : Nat) : Fetched × Tlb :=
  let pc := (s.core c).r.pc
  let a := s.fetchWord c (s.core c).itlb pc
  match a.1 with
  | .word w0 =>
    match wideOf w0 with
    | none => (.stop (stop0 .illegal .fe), a.2)
    | some false => (decoded w0 0, a.2)
    | some true =>
      let b := s.fetchWord c a.2 (pc + 4)
      match b.1 with
      | .word w1 => (decoded w0 w1, b.2)
      | .err cause sub =>
        (if regionEnds cause sub then .stop (stop0 .illegal .fe) else .stop (stopX .fe cause sub (pc + 4) 0), b.2)
      | x => (fetchStop (pc + 4) x, b.2)
  | x => (fetchStop pc x, a.2)
/-- The words that a fetch at PCFE reads are corrected in place (R419, R421). -/
def State.codeRead (s : State) (c : Nat) : State :=
  let pc := (s.core c).r.pc
  let s1 := s.corrVa (s.env c) needX pc 4
  match (s.fetchWord c (s.core c).itlb pc).1 with
  | .word w0 => if wideOf w0 = some true then s1.corrVa (s.env c) needX (pc + 4) 4 else s1
  | _ => s1
/-- The translations a fetch installs. -/
def Core.withItlb (k : Core) (t : Tlb) : Core := { k with itlb := t }
/-- A fetch that fails raises its cause at the FE, with no other effect (R60). -/
def execDecodeFault (c : Nat) (s : State) : Out :=
  if !(s.core c).live then .next s
  else
    let f := s.fetch c
    let s1 := (s.codeRead c).upCore c (fun k => k.withItlb f.2)
    match f.1 with
    | .stop x => .next (raise c x s1)
    | .fault z => .fault z
    | .got _ => .next s1
    | .hold => .next s1

end Sys2Proof.Machine
end

