-- ==== Sys2Proof/Machine/Events.lean ====
section
/-!
DEFINITION. Sys2Proof/Machine/Events.lean: the events of a control core, its engines, the banks, the dispatcher, the phases and the
Kiln: what each changes when it happens. An event whose condition does not hold changes nothing.
-/

namespace Sys2Proof.Machine
open Sys2Proof

/-! ### Events of a core and its engines -/

/-- Running the head of a queue of a busy core, if it satisfies a test, with a body of its own. A core that stops goes on with what
has begun alone (R247). -/
def headRun (c : Nat) (e : Eng) (ok : Entry → Bool) (body : Entry → EBody) (sets back : State → State) (s : State) : Out :=
  if (s.core c).halting.isSome then .next (s.settle c)
  else if (s.core c).busy then
    match (s.core c).queue e with
    | [] => .next s
    | en :: _ => if ok en then ran c e s back (runHead (body en) c e (sets s)) else .next s
  else .next s
/-- The body of a routed instruction with what holds it back. -/
def bodyAt (en : Entry) : EBody := gated (bodyOf en.i)
/-- WAITA_WAKE (R120). -/
def execWaitaWake (c : Nat) (s : State) : Out := .next (s.waitaWake c)
/-- RELAX_ITERATION (R229): one turn of a RELAX at the head of the EX queue. -/
def execRelaxIteration (c : Nat) (s : State) : Out :=
  headRun c .ex (fun en => (rxForm en.i).isSome) (fun en => match rxForm en.i with
    | some f => bRelax f
    | none => bodyAt en) id id s
/-- A marker at an engine's head is taken, unless its core stops (R310). -/
def markRun (c : Nat) (e : Eng) (s : State) : State :=
  if (s.core c).busy && (s.core c).halting.isNone then s.tlbiMark c e else s
/-- INSTR_COMPLETE (R25): commands of the engine in flight that can complete do, and a LINK.RECV whose transfer has come is taken up; the
instruction at the head of a queue runs to its completion, as far as it can. -/
def execInstrComplete (c : Nat) (e : Eng) (s : State) : Out :=
  let q := if e ≠ .ex && (s.core c).busy && (s.core c).halting.isNone then
      let r := s.flightTurn c e
      (if e = .ld then r.1.recvBack c else r.1, r.2)
    else (s, none)
  match q.2 with
  | some x => .next (q.1.stopFor c (.cause x))
  | none =>
    if ((q.1.core c).queue e).head?.any Entry.marker then .next (markRun c e q.1)
    else headRun c e (fun _ => true) bodyAt id id q.1
/-- SIGNAL_LATCH_DRAIN (R26). -/
def execSignalLatchDrain (c : Nat) (dir : Dir) (s : State) : Out := .next (s.upCore c (fun k => k.drainLatch dir))
/-- LEASE_GRANT (R195). -/
def execLeaseGrant (k : Nat) (s : State) : Out := .next (s.grantLease k)
/-- TABLE_WALK (R307): the leaf of an address is held afterwards. -/
def execTableWalk (c : Nat) (va : W64) (s : State) : Out :=
  .next (s.upCore c (fun k => { k with tlb := (leafOf s.mem (s.env c) k.tlb va.toNat).2 }))
/-- One part of the copy at the head of a queue. -/
def partRun (c : Nat) (e : Eng) (s : State) : Out :=
  headRun c e (fun en => !en.marker) bodyAt (fun s => { s with onePart := true }) (fun s => { s with onePart := false }) s
/-- LOAD (R280): a part of a load reads. -/
def execLoad (c : Nat) (e : Eng) (s : State) : Out := if e = .ld then partRun c e s else .next s
/-- LAND (R280): a part of a store enters the pending or green set. -/
def execLand (c : Nat) (e : Eng) (s : State) : Out := if e = .st then partRun c e s else .next s
/-- COPY_COMPLETE (R173): a copy that has begun runs to its end and writes its flag. -/
def execCopyComplete (c : Nat) (e : Eng) (s : State) : Out :=
  headRun c e (fun en => e ≠ .ex && !en.marker && en.mark ≠ .fresh) bodyAt id id s
/-- The instruction is a bank operation (R297). -/
def isBank (i : Instr) : Bool := decide (0xD0 ≤ (opOf i).toNat)
/-- BANK_SEND (R280): a bank operation at the head joins its banks' FIFOs. -/
def execBankSend (c : Nat) (s : State) : Out :=
  headRun c .st (fun en => isBank en.i) bodyAt (fun q => { q with lagBanks := true }) (fun q => { q with lagBanks := s.lagBanks }) s
/-- BANK_PERFORM (R292). -/
def execBankPerform (bank : Nat) (s : State) : Out := .next (s.bankStep bank)
/-- REMOTE_DELIVER (R284). -/
def execRemoteDeliver (src : Nat) (dst : Nat) (s : State) : Out :=
  .next (deliverGranule s src dst (s.chan src dst))
/-- TLBI_MARK (R310). -/
def execTlbiMark (c : Nat) (e : Eng) (s : State) : Out := .next (markRun c e s)
/-- MIGR_MOVE (R313): a migration that holds its segment goes on once no transfer uses it. -/
def execMigrMove (c : Nat) (s : State) : Out :=
  headRun c .st (fun en => match en.i with | .migr .. => en.mark ≠ .fresh | _ => false) bodyAt id id s

/-! ### Stops, parked units, pre-emption and swaps -/

/-- CORE_STOP (R247): a cause stops a busy core. -/
def execCoreStop (c : Nat) (x : Stop) (s : State) : Out := .next (if (s.core c).busy then raise c x s else s)
/-- PK_RELEASE (R264). -/
def execPkRelease (p : Nat) (seq : Nat) (s : State) : Out := .next (s.pkRelease p seq)
/-- PK_FAIL (R264). -/
def execPkFail (p : Nat) (seq : Nat) (s : State) : Out := .next (s.pkFail p seq)
/-- PREEMPT_ABORT (R265). -/
def execPreemptAbort (c : Nat) (s : State) : Out := .next (s.preempt c)
/-- PARTITION_SWAP (R266 step 1): every core of the partition halts. -/
def execPartitionSwap (p : Nat) (s : State) : Out :=
  .next ((s.part p).coreList.foldl (fun s c => s.haltCore c) s)
/-- SWAP_CONTEXT (R266 steps 2 and 3). -/
def execSwapContext (p : Nat) (tenant : Nat) (s : State) : Out := .next (s.swapTo p tenant)

/-! ### The dispatcher and phases -/

/-- DISPATCH (R330). -/
def execDispatch (p : Nat) (s : State) : Out := .next (s.dispatch p)
/-- COUNT_READ (R327). -/
def execCountRead (p : Nat) (q : Nat) (s : State) : Out := .next (s.countRead p q)
/-- UNIT_END (R18): the drain of a DONE or HALT is over. -/
def execUnitEnd (c : Nat) (s : State) : Out :=
  .next (match (s.core c).mode with
    | .drain halt => if (s.core c).idle && (s.core c).halting.isNone then s.endUnit c true halt else s
    | _ => s)
/-- PHASE_CLOSING (R285). -/
def execPhaseClosing (p : Nat) (s : State) : Out := .next (if s.mayClose p then s.startClosing p else s)
/-- PHASE_CLOSE (R286). -/
def execPhaseClose (p : Nat) (s : State) : Out := .next (s.closePhase p)
/-- JOB_START (R333): PH.CTL written with JOB set and the identifier. -/
def execJobStart (p : Nat) (job : W64) (s : State) : Out := .next (s.phCtl p (job <<< 32 ||| 2))
/-- PHASE_ADV (R333). -/
def execPhaseAdv (p : Nat) (s : State) : Out := .next (s.advance p)

/-! ### Registers and clocks -/

/-- ENR_LO_READ (R386). -/
def execEnrLoRead (c : Nat) (d : Sreg) (s : State) : Out :=
  .next ((s.latchEnr c).upCore c (fun k => k.setS d (BitVec.ofNat 64 (s.ik.energy % 2 ^ 32))))
/-- SLOT_BOUNDARY (R336, R337): the next granule of the die begins; register writes that wait take effect, with the pulse counts of
the period (R367). -/
def execSlotBoundary (die : Nat) (s : State) : Out := .next (s.pass (64 - (s.die die).cyc % 64))
/-- LINK_SLOT_BOUNDARY (R423): the next link slot with q mod 64 = 0 begins; LSCH writes that wait take effect. -/
def execLinkSlotBoundary (s : State) : Out := .next (s.reachSlot (s.links.lsc / 64 * 64 + 64))
/-- CLUSTER_GATE (R369). -/
def execClusterGate (k : Nat) (s : State) : Out := .next (s.gate k)
/-- CLUSTER_WAKE (R331). -/
def execClusterWake (k : Nat) (s : State) : Out := .next (s.ungate k)
/-- DECL_ADMIT (R374). -/
def execDeclAdmit (c : Nat) (s : State) : Out := .next (s.declAdmit c)
/-- DECL_ACTIVATE (R374). -/
def execDeclActivate (c : Nat) (s : State) : Out := .next (s.declActivate c)
/-- DECL_LAPSE (R373). -/
def execDeclLapse (c : Nat) (serial : Nat) (s : State) : Out := .next (s.declLapse c serial)
/-- UNDECL_THROTTLE_END (R377). -/
def execUndeclThrottleEnd (k : Nat) (s : State) : Out := .next (s.throttleEnd k)
/-- SAG_EVENT (R380, R381). -/
def execSagEvent (die : Nat) (s : State) : Out := .next (s.sagEvent die)
/-- SAG_HOLD_END (R380). -/
def execSagHoldEnd (die : Nat) (s : State) : Out := .next (s.sagEnd die)
/-- THERMAL_READ (R384, R385). -/
def execThermalRead (readings : List Nat) (s : State) : Out := .next (s.thermal readings)
/-- ENERGY_UPDATE (R386). -/
def execEnergyUpdate (uj : Nat) (s : State) : Out := .next (s.addEnergy uj)
/-- COLL_OFFER (R383). -/
def execCollOffer (c : Nat) (serial : Nat) (s : State) : Out := .next (s.collOffer c serial)
/-- COLL_MISSING (R383). -/
def execCollMissing (c : Nat) (serial : Nat) (s : State) : Out := .next (s.collMissing c serial)
/-- COLL_RECORD (R425). -/
def execCollRecord (x : CollHop) (port : Nat) (s : State) : Out := .next (s.collRecord x port)

/-! ### Links (R410 to R416) -/

/-- LINK_SEND_SLOT (R416): a send whose slot was chosen leaves its first port. -/
def execLinkSendSlot (c : Nat) (s : State) : Out :=
  headRun c .st (fun en => match en.mark with | .slotted _ => true | _ => false) bodyAt id id s
/-- LINK_HOP (R412). -/
def execLinkHop (x : LinkXfer) (port : Nat) (s : State) : Out := .next (s.linkHopIn x port)
/-- LINK_ARRIVE (R414). -/
def execLinkArrive (x : LinkXfer) (port : Nat) (s : State) : Out := .next (s.linkDeliver { x with entry := port })
/-- LINK_RED_COMBINE (R416): a LINK.RED with IN that waits takes an arriving partial; it then waits for its slot. -/
def execLinkRedCombine (c : Nat) (s : State) : Out :=
  headRun c .st (fun en => match en.i with | .linkRed _ _ _ _ _ _ _ inn => inn | _ => false) (fun en => match en.i with
    | .linkRed _ _ _ _ _ _ rq inn => gated (sendHalf (redAdmit rq inn))
    | _ => bodyAt en) id id s

/-! ### Stored bits (R419 to R421) -/

/-- A tile's stored bit fails: its check residue no longer agrees (R86, R419). -/
def Tile.failBit (t : Tile) (ix : Nat) : Tile :=
  let e := mget ⟨0, 0, 0, 0⟩ t.el ix
  { t with el := mset t.el ix { e with c4 := e.c4 + 1 } }
/-- Changing the entry that a word of an engine's queue holds: 64 words for each engine, LD, EX and ST, in queue order. -/
def Core.upWord (k : Core) (n : Nat) (f : Entry → Entry) : Core :=
  let e : Eng := match n / 64 with | 0 => .ld | 1 => .ex | _ => .st
  k.setQueue e ((k.queue e).zipIdx.map (fun x => if x.2 = n % 64 then f x.1 else x.1))
/-- A word becomes uncorrectable. -/
def State.failWord (s : State) (w : ProtWord) : State :=
  let inCore (c : Nat) : State := s.upCore c (fun k =>
    { k with bad := if k.bad.contains w then k.bad else k.bad ++ [w], weak := k.weak.filter (· ≠ w) })
  let inMem : State := { s with badMem := if s.badMem.contains w then s.badMem else s.badMem ++ [w], weak := s.weak.filter (· ≠ w) }
  match w.arr with
  | .scratchpad c => inCore c
  | .spill c => inCore c
  | .handle c => inCore c
  | .tokens c => inCore c
  | .queue c => s.upCore c (fun k => k.upWord w.idx (fun en => { en with mark := .broken }))
  | .tile c t => s.upCore c (fun k =>
      if t = 0 then { k with acc0 := k.acc0.failBit w.idx } else { k with acc1 := k.acc1.failBit w.idx })
  | .memory => inMem
  | .glaze _ _ => inMem
  | .fetch => s
/-- A word that holds no error yet has one failed bit. -/
def State.weaken (s : State) (w : ProtWord) : State :=
  let inCore (c : Nat) : State := s.upCore c (fun k =>
    { k with weak := if k.weak.contains w || k.bad.contains w then k.weak else k.weak ++ [w] })
  let inMem : State := { s with weak := if s.weak.contains w || s.badMem.contains w then s.weak else s.weak ++ [w] }
  match w.arr with
  | .scratchpad c => inCore c
  | .spill c => inCore c
  | .handle c => inCore c
  | .tokens c => inCore c
  | .queue c => s.upCore c (fun k => k.upWord w.idx (fun en => if en.mark = .broken then en else { en with weak := true }))
  | .memory => inMem
  | .glaze _ _ => inMem
  | .tile _ _ => s
  | .fetch => s
/-- STORED_BIT_FAILURE (R419, R420): one failed bit leaves the word correctable; more leave it uncorrectable. A tile has no
correction; a fetched word is read again from memory (R46). -/
def execStoredBitFailure (w : ProtWord) (correctable : Bool) (s : State) : Out :=
  let tile := match w.arr with | .tile _ _ => true | _ => false
  .next (if correctable && !tile then s.weaken w else s.failWord w)
/-- SCRUB (R421): the scrubber reads a word of memory or of the glaze. One with one failed bit is corrected and counted; an uncorrectable
one is reported with its array, for the glaze cluster and stack, and its byte address there. -/
def execScrub (w : ProtWord) (s : State) : Out :=
  .next (if s.badMem.contains w then { s with ik := { s.ik with ueReports := s.ik.ueReports ++ [(w.arr, 8 * w.idx)] } }.irq 5
  else s.correct (· == w))

/-! ### Partitions and cores (R17, R131) -/

/-- STAT with DBG alone, as the partition's control has set it (R43, log entry 19). -/
def dbgOnly (dbg : Bool) : Regs := { Regs.reset with sr := srDebug dbg }
/-- A cluster cleared for its next partition (R17). -/
def State.clearCluster (s : State) (k : Nat) (dbg : Bool) : State :=
  let u := s.clu k
  let ours (w : ProtWord) : Bool := match w.arr with | .glaze j _ => j == k | _ => false
  let s1 := (s.renew ours).setClu k { Cluster.reset with ce := s.errCe (4 * k), ue := u.ue, gated := u.gated, waking := u.waking, idleFrom := u.idleFrom }
  [0, 1, 2, 3].foldl (fun s j => s.upCore (4 * k + j) (fun q =>
    { Core.reset with
      r := dbgOnly dbg, mode := .free, inbox := q.inbox
      eng := { Engines.reset with cyc := q.eng.cyc, ldAt := q.eng.cyc, exAt := q.eng.cyc, stAt := q.eng.cyc } })) s1
/-- PARTITION_CREATION (R17): a cluster whose cores run nothing enters a partition, in debug mode or not; the first one creates
it. The new partition map is measured (R390). -/
def execPartitionCreation (p : Nat) (k : Nat) (dbg : Bool) (s : State) : Out :=
  .next (State.remeasured (if [0, 1, 2, 3].any (fun j => (s.core (4 * k + j)).run.isSome) then s
  else
    let s1 := s.clearCluster k dbg
    let leave (x : Part) : Part := { x with clusters := x.clusters.filter (· ≠ k) }
    let s2 : State := { s1 with parts := s1.parts.map (fun x => (x.1, leave x.2)) }
    let pt := s2.part p
    if (s.part p).clusters.isEmpty then
      s2.setPart p { ((Part.reset.setSr 0x222 (pt.getSr 0x222)).setSr 0x223 (pt.getSr 0x223)) with clusters := [k], snap := s.mem }
    else s2.setPart p { pt with clusters := sins pt.clusters k }) s)
/-- CORE_RESET (R131): the runtime resets a halted core, whose scratchpad keeps its bytes. -/
def execCoreReset (c : Nat) (s : State) : Out :=
  .next (if (s.core c).mode = .halted then s.upCore c (fun k => { Core.reset with
    r := dbgOnly k.debug, mode := .free, pad := { k.pad with full := [] }, bad := k.bad, weak := k.weak, ce := k.ce, inbox := k.inbox
    eng := { Engines.reset with cyc := k.eng.cyc, ldAt := k.eng.cyc, exAt := k.eng.cyc, stAt := k.eng.cyc } })
  else s)

end Sys2Proof.Machine
end

