-- ==== Sys2Proof/Machine/Boot.lean ====
section
/-!
DEFINITION. Sys2Proof/Machine/Boot.lean: boot and measurement (R389 to R391), attestation (R392), the management mailbox
(R404, R405) and the SMBus target (R406).
-/

namespace Sys2Proof.Machine
open Sys2Proof

/-! ### Measurements (R390) -/

/-- M(0) to M(3), 192 bytes. -/
def Ik.measured (k : Ik) : List Byte := [0, 1, 2, 3].flatMap (fun j => digestBytes (mget 0 k.m j))

/-! ### Boot (R389) -/

/-- Step 2: the image's key is one of the fused two and not revoked, and its signature verifies. -/
def imageSigned (revoked : List Nat) (img : List Byte) : Bool :=
  let key := Config.imageKey img
  let ok (b : Bool) (n : Nat) : Bool := Config.sha384 key == Config.keyDigest b && !revoked.contains n
  (ok false 0 || ok true 1) && Config.ecdsaVerify key (Config.sha384 (Config.imageBody img)) (Config.imageSig img)
/-- Steps 2 and 3. -/
def Ik.imageOk (k : Ik) (img : List Byte) : Bool := imageSigned k.revoked img && decide (k.antiRoll ≤ Config.imageSvn img)
/-- The Ikilith die once an image has started: its measurements, versions and the advanced counter; fuses and the recovery
area stay. -/
def Ik.started (k : Ik) (img : List Byte) : Ik :=
  let k1 : Ik := { k with antiRoll := max k.antiRoll (Config.imageSvn img) }
  { k1 with
    boot := .up
    m := [(0, extend 0 Config.romRecord), (1, extend 0 img), (2, extend 0 (Config.imageRuntime img)),
      (3, extend 0 (Config.configRecord [k1.fuses]))]
    svn := BitVec.ofNat 32 (Config.imageSvn img)
    ver := Config.imageVer img
    retired := Config.deadClusters
    deadStacks := Config.badStacks
    deadChans := Config.badChannels
    deadFar := Config.badFar }
/-- The dies are released (step 6): everything on them at its reset value, every core in the halted state that the idle
unit leaves. -/
def State.release (s : State) (k : Ik) : State :=
  { State.reset with
    cur := s.cur, turn := s.turn, agenda := s.agenda, lagBanks := s.lagBanks, lagDeliver := s.lagDeliver, free := s.free
    cores := (upto 256).map (fun c => (c, { Core.reset with mode := .halted }))
    ik := k
    links := { Links.reset with lsc := Config.lscBase } }
/-- The boot ROM's slot choice: A, then B, then recovery mode. -/
def State.bootFrom (s : State) (k : Ik) : State :=
  let a := Config.flashSlot false
  let b := Config.flashSlot true
  if k.imageOk a then s.release (k.started a)
  else if k.imageOk b then s.release (k.started b)
  else { State.reset with
    cur := s.cur, turn := s.turn, agenda := s.agenda, lagBanks := s.lagBanks, lagDeliver := s.lagDeliver, free := s.free
    ik := { k with boot := .recovery, m := [(0, extend 0 Config.romRecord)] } }
/-- PACKAGE_RESET (R389): the fuses survive a reset, everything else takes its reset value. -/
def execPackageReset (s : State) : Out :=
  .next (s.bootFrom { Ik.reset with antiRoll := s.ik.antiRoll, revoked := s.ik.revoked })

/-! ### The mailbox (R404, R405) -/

/-- Numbers of the three instances. -/
def mbNo : MbInst → Nat
  | .host => 0 | .runtime => 1 | .mgmt => 2
/-- A mailbox instance. -/
def State.mbox (s : State) (m : MbInst) : Mailbox := mget .reset s.ik.mb (mbNo m)
/-- Replacing a mailbox instance. -/
def State.setMbox (s : State) (m : MbInst) (x : Mailbox) : State := { s with ik := { s.ik with mb := mset s.ik.mb (mbNo m) x } }
/-- LEN of MB.CMD. -/
def Mailbox.len (x : Mailbox) : Nat := bits x.cmd 31 16
/-- A command's end: MB.STAT and the response in MB.BUF. -/
def Mailbox.answer (x : Mailbox) (res : Nat) (bs : List Byte) : Mailbox :=
  { x with stat := BitVec.ofNat 64 (bs.length * 2 ^ 16 + res), buf := wrL x.buf 0 bs }
/-- PKG.ID (R422). -/
def pkgId : W64 := BitVec.ofNat 64 (Config.pkgSerial.toNat * 2 ^ 32 + Config.pkgRev.toNat * 2 ^ 16 + 0x8400)
/-- FW.VER (R422). -/
def Ik.fwVer (k : Ik) : W64 := BitVec.ofNat 64 (k.svn.toNat * 2 ^ 32 + k.ver.toNat)
/-- The signed part of a report (R392). -/
def Ik.reportBody (k : Ik) (nonce : List Byte) : List Byte :=
  toLE 8 1 ++ toLE 8 pkgId.toNat ++ toLE 8 k.fwVer.toNat ++ toLE 8 k.reports ++ nonce ++ k.measured ++ List.replicate 144 0
/-- A report with its signature. -/
def Ik.report (k : Ik) (nonce : List Byte) : List Byte :=
  let b := k.reportBody nonce
  b ++ toLE 96 (Config.deviceSign (Config.sha384 b)).toNat
/-- REPORT. -/
def State.mbReport (s : State) (m : MbInst) : State :=
  let x := s.mbox m
  if x.len ≠ 48 then s.setMbox m (x.answer 3 [])
  else
    let bs := s.ik.report (rdN x.buf 0 48)
    { s with ik := { s.ik with reports := s.ik.reports + 1 } }.setMbox m (x.answer 0 bs)
/-- MEAS. -/
def State.mbMeas (s : State) (m : MbInst) : State :=
  let x := s.mbox m
  s.setMbox m (if x.len ≠ 0 then x.answer 3 [] else x.answer 0 s.ik.measured)
/-- IDENT. -/
def State.mbIdent (s : State) (m : MbInst) : State :=
  let x := s.mbox m
  s.setMbox m (if x.len ≠ 0 then x.answer 3 []
    else x.answer 0 (toLE 8 pkgId.toNat ++ toLE 8 s.ik.fwVer.toNat ++ toLE 96 Config.devicePub.toNat ++ Config.vendorCert.take 3984))
/-- Bytes of the recovery image area (R405). -/
def recoveryBytes : Nat := 64 * 2 ^ 20
/-- RWRITE. -/
def State.mbRwrite (s : State) (m : MbInst) : State :=
  let x := s.mbox m
  let off := (rd64 x.buf 0).toNat
  let n := x.len - 8
  if s.ik.boot ≠ .recovery then s.setMbox m (x.answer 4 [])
  else if x.len < 9 ∨ 4096 < x.len ∨ recoveryBytes < off + n then s.setMbox m (x.answer 3 [])
  else { s with ik := { s.ik with
      recovery := wrL s.ik.recovery off (rdN x.buf 8 n), recoveryLen := max s.ik.recoveryLen (off + n) } }.setMbox m (x.answer 0 [])
/-- The recovery image: the area up to the last byte written. -/
def Ik.recoveryImage (k : Ik) : List Byte := rdN k.recovery 0 k.recoveryLen
/-- RBOOT. -/
def State.mbRboot (s : State) (m : MbInst) : State :=
  let x := s.mbox m
  if s.ik.boot ≠ .recovery then s.setMbox m (x.answer 4 [])
  else if x.len ≠ 0 then s.setMbox m (x.answer 3 [])
  else if s.ik.imageOk s.ik.recoveryImage then (s.release (s.ik.started s.ik.recoveryImage)).setMbox m (x.answer 0 [])
  else s.setMbox m (x.answer 5 [])
/-- The command in MB.CMD is served (R405): commands are served one at a time, so BUSY is never seen (log entry 16). -/
def State.mbServe (s : State) (m : MbInst) : State :=
  match bits (s.mbox m).cmd 7 0 with
  | 0x01 => s.mbReport m
  | 0x02 => s.mbMeas m
  | 0x03 => s.mbIdent m
  | 0x10 => s.mbRwrite m
  | 0x11 => s.mbRboot m
  | _ => s.setMbox m ((s.mbox m).answer 2 [])
/-- A write of a mailbox register as an aligned double (R404). -/
def State.mbWrite (s : State) (m : MbInst) (off : Nat) (v : W64) : State :=
  if off = 0x000 then s.setMbox m { s.mbox m with cmd := v &&& 0xFFFF00FF }
  else if off = 0x008 then s.mbServe m
  else if 0x1000 ≤ off ∧ off ≤ 0x1FF8 ∧ off % 8 = 0 then
    s.setMbox m { s.mbox m with buf := wr64 (s.mbox m).buf (off - 0x1000) v }
  else s
/-- REPORT (R392). -/
def execReport (m : MbInst) (s : State) : Out := .next (s.mbReport m)
/-- MEAS (R405). -/
def execMeas (m : MbInst) (s : State) : Out := .next (s.mbMeas m)
/-- IDENT (R405). -/
def execIdent (m : MbInst) (s : State) : Out := .next (s.mbIdent m)
/-- RWRITE (R405). -/
def execRwrite (m : MbInst) (s : State) : Out := .next (s.mbRwrite m)
/-- RBOOT (R405). -/
def execRboot (m : MbInst) (s : State) : Out := .next (s.mbRboot m)

/-! ### The SMBus target (R406) -/

/-- SMB_SET_POINTER: 0 to 4,095; another value is discarded (log entry 17). -/
def execSmbSetPointer (v : BitVec 16) (s : State) : Out :=
  .next (if v.toNat < 4096 then { s with ik := { s.ik with smbPtr := v.toNat } } else s)
/-- Writing bytes at the pointer, which wraps at 4,096 (log entry 17). -/
def wrWrap (m : Mem) (a : Nat) : List Byte → Mem
  | [] => m
  | b :: bs => wrWrap (wr m (a % 4096) b) (a + 1) bs
/-- SMB_BLOCK_WRITE: 1 to 255 bytes. -/
def execSmbBlockWrite (bs : List Byte) (s : State) : Out :=
  .next (if 1 ≤ bs.length ∧ bs.length ≤ 255 then
    let x := s.mbox .mgmt
    let s1 := s.setMbox .mgmt { x with buf := wrWrap x.buf s.ik.smbPtr bs }
    { s1 with ik := { s1.ik with smbPtr := (s.ik.smbPtr + bs.length) % 4096 } }
  else s)
/-- SMB_BLOCK_READ: 1 to 255 bytes. -/
def execSmbBlockRead (n : Nat) (s : State) : Out :=
  .next (if 1 ≤ n ∧ n ≤ 255 then
    { s with ik := { s.ik with
      smbOut := (upto n).map (fun j => rd (s.mbox .mgmt).buf ((s.ik.smbPtr + j) % 4096))
      smbPtr := (s.ik.smbPtr + n) % 4096 } }
  else s)
/-- SMB_COMMAND: MB.CMD is written, and the doorbell rings. -/
def execSmbCommand (v : BitVec 32) (s : State) : Out :=
  .next ((s.mbWrite .mgmt 0x000 (v.setWidth 64)).mbWrite .mgmt 0x008 0)
/-- SMB_STATUS: the 8 bytes of MB.STAT. -/
def execSmbStatus (s : State) : Out :=
  .next { s with ik := { s.ik with smbOut := toLE 8 (s.mbox .mgmt).stat.toNat } }

end Sys2Proof.Machine
end

