-- ==== Sys2Proof/Machine/Ports.lean ====
section
/-!
DEFINITION. Sys2Proof/Machine/Ports.lean: what the outside reaches through the root ports and the endpoint port: DMA (R394), port
queues (R191, R395) and host queues (R407); and plain stores of agents other than cores (R276, R285, R288).
-/

namespace Sys2Proof.Machine
open Sys2Proof

/-! ### Translated accesses of the Ikilith die -/

/-- The 64-byte lines of n bytes at va, as (address, bytes of the line) pairs; `fuel` is their number. -/
def linePieces : Nat → W64 → Nat → List (W64 × Nat)
  | 0, _, _ => []
  | fuel + 1, va, n =>
    if n = 0 then [] else
    let k := min n (64 - va.toNat % 64)
    (va, k) :: linePieces fuel (va + BitVec.ofNat 64 k) (n - k)
/-- The pieces of n bytes at va. -/
def piecesOf (va : W64) (n : Nat) : List (W64 × Nat) := linePieces (n / 64 + 2) va n
/-- An access that does not reach memory: a fault with FF.INFO and its address, or a wait on a held segment. -/
inductive Missed where
  | fault (cause info : Nat) (va : W64)
  | hold
  deriving DecidableEq, Repr
/-- Translating every piece: physical address and count. -/
def xlatePieces (m : Mem) (e : Env) (need : Need) : List (W64 × Nat) → Tlb → Except Missed (List (Nat × Nat)) × Tlb
  | [], t => (.ok [], t)
  | (va, k) :: rest, t =>
    let r := translate m e t [] va need
    match r.1 with
    | .error .hold => (.error .hold, r.2)
    | .error x => (.error (.fault (xerrCode x).1 (xerrCode x).2 va), r.2)
    | .ok x =>
      let q := xlatePieces m e need rest r.2
      (match q.1 with
        | .ok l => .ok ((x.pa, k) :: l)
        | .error y => .error y, q.2)
/-- The segments that the pieces of an access enter, each once (R312). -/
def pieceSegs (m : Mem) (e : Env) (need : Need) (l : List (W64 × Nat)) (t : Tlb) : List Nat :=
  l.foldl (fun segs p => match (translate m e t segs p.1 need).1 with
    | .ok x => if (latched segs x.seg).isSome then segs else segs ++ [latchOf x.seg x.ent]
    | .error _ => segs) []
/-- An uncorrectable word under a read: its fault. -/
def State.piecesBad (s : State) (va : W64) (l : List (Nat × Nat)) : Option Missed :=
  if l.any (fun p => s.memBad p.1 p.2) then some (.fault (causeCode .memUe) 0 va) else none
/-- The bytes of a store by their physical addresses. -/
def placeBytes : List (Nat × Nat) → List Byte → List (Nat × Byte)
  | [], _ => []
  | (pa, k) :: t, bs => ((upto k).zip bs).map (fun p => (pa + p.1, p.2)) ++ placeBytes t (bs.drop k)
/-- A plain store of an application core (kind 1) or a root port (kind 2) for a partition (R276): it enters the agent's pending
set; while the phase closes it joins the next one's (R285), and when the reserve is full it waits for Close and the runtime
is told (R288). While it waits it counts in BUSY of the segments it has entered (R312). -/
def State.plainStore (s : State) (p kind no : Nat) (segs : List Nat) (bs : List (Nat × Byte)) : State :=
  let hold (s : State) (told : Bool) : State :=
    { s with mem := enterAll s.mem (s.penv p true) segs }.holdWrite ⟨p, kind, no, bs, segs, told⟩
  if (s.part p).closing ∨ s.holds p kind no then hold s false
  else match s.chargeAll p (kind, no, 0, 0) (byteLines bs) with
    | none => (hold s true).irq 2
    | some s1 => s1.upPart p (fun pt => pt.plainLand kind no bs)

/-! ### Requesters and DMA (R394, R403) -/

/-- A double of the shared tables. -/
def State.table (s : State) (off : Nat) : W64 := mget 0 s.ik.shared off
/-- The requester-table entry of a requester on a port: the lowest-numbered valid one. -/
def State.requester (s : State) (port : Nat) (rid : BitVec 16) : Option (Nat × Env) :=
  ((upto 64).find? (fun k =>
    let d := s.table (0x200 + 16 * k)
    d.getLsbD 63 && bits d 41 40 == port && bits d 15 0 == rid.toNat)).map (fun k =>
      let d := s.table (0x200 + 16 * k)
      let p := bits d 53 48
      (p, ⟨bits d 31 16, s.table (0x208 + 16 * k), (s.part p).segt, (s.part p).segn, false, false⟩))
/-- A fault of DMA: a record in the partition's queue. -/
def State.dmaFault (s : State) (p : Nat) (x : Missed) : State :=
  match x with
  | .fault cause info va => s.bareRecord p cause va (BitVec.ofNat 64 info) (BitVec.allOnes 64)
  | .hold => s
/-- The virtual range of the ring of a port queue, from its descriptor; empty when the descriptor does not translate. -/
def State.ringOf (s : State) (e : Env) (va : W64) : Nat × Nat :=
  match (translate s.mem e [] [] va needR).1 with
  | .error _ => (0, 0)
  | .ok x => let d := portQ s.mem x.pa; (d.ring.toNat, d.cap * d.slot)
/-- A virtual address of a partition lies in the ring of a port queue that a root port has served or of a host queue (R394, log entry
109). -/
def State.inRing (s : State) (p : Nat) (e : Env) (va : W64) : Bool :=
  let hit (e : Env) (q : W64) : Bool := let r := s.ringOf e q; decide (r.1 ≤ va.toNat ∧ va.toNat < r.1 + r.2)
  s.ik.queues.any (fun x => x.1 == p && hit e x.2) ||
  ((s.appCore 0).part == p && (upto 128).any (fun j => let q := s.table (0x600 + 8 * j); q ≠ 0 && hit (s.acEnv 0) q))
/-- The bytes of an access, cut at its pieces. -/
def cutBytes : List (W64 × Nat) → List Byte → List (List Byte)
  | [], _ => []
  | (_, k) :: t, bs => bs.take k :: cutBytes t (bs.drop k)
/-- The translated pieces of a DMA access with their bytes, those in a ring or those outside. -/
def State.dmaPart (s : State) (p : Nat) (e : Env) (ring : Bool) (va : W64) (l : List (Nat × Nat)) (bs : List Byte) : List (Nat × List Byte) :=
  let ps := piecesOf va bs.length
  ((ps.zip l).zip (cutBytes ps bs)).filterMap (fun x => if s.inRing p e x.1.1.1 = ring then some (x.1.2.1, x.2) else none)
/-- DMA_WRITE (R394): a plain store of the root port; one that faults, or whose requester is unassigned, is discarded. A
write into a held segment waits: it has not happened yet (R311). Bytes of a port queue's ring are written at memory (R191). -/
def execDmaWrite (port : Nat) (rid : BitVec 16) (va : W64) (bs : List Byte) (s : State) : Out :=
  .next (match s.requester port rid with
    | none => s
    | some (p, e) => match (xlatePieces s.mem e needW (piecesOf va bs.length) []).1 with
      | .error x => s.dmaFault p x
      | .ok l =>
        let plain := s.dmaPart p e false va l bs
        let s1 := (s.dmaPart p e true va l bs).foldl (fun s x => s.writeMem x.1 x.2) s
        if plain = [] then s1
        else s1.plainStore p 2 port (pieceSegs s.mem e needW (piecesOf va bs.length) [])
          (plain.flatMap (fun x => (x.2.zipIdx).map (fun b => (x.1 + b.2, b.1)))))
/-- What a DMA read returned: its bytes, or none for an unsupported request. -/
def State.setDma (s : State) (o : Option (List Byte)) : State := { s with ik := { s.ik with dmaOut := o } }
/-- The bytes that a DMA read sees: the snapshot, or memory where they lie in a port queue's ring (R191, R394). -/
def State.dmaBytes (s : State) (p : Nat) (e : Env) (va : W64) (n : Nat) (l : List (Nat × Nat)) : List Byte :=
  ((piecesOf va n).zip l).flatMap (fun x => rdN (if s.inRing p e x.1.1 then s.mem else (s.part p).snap) x.2.1 x.2.2)
/-- DMA_READ (R394): it reads the snapshot, or completes as an unsupported request. -/
def execDmaRead (port : Nat) (rid : BitVec 16) (va : W64) (n : Nat) (s : State) : Out :=
  .next (match s.requester port rid with
    | none => s.setDma none
    | some (p, e) => match (xlatePieces s.mem e needR (piecesOf va n) []).1 with
      | .error .hold => s
      | .error x => (s.dmaFault p x).setDma none
      | .ok l => match s.piecesBad va l with
        | some x => (s.dmaFault p x).setDma none
        | none => (s.corrAll l).setDma (some (s.dmaBytes p e va n l)))

/-! ### Port queues (R191, R395) -/

/-- The descriptor of a port queue under an environment: its physical address and words; it must lie in a Crock segment. -/
def State.queueAt (s : State) (e : Env) (va : W64) : Except Missed (Nat × PortQ) :=
  if va.toNat % 64 ≠ 0 then .error (.fault (causeCode .align) 0 va)
  else match (translate s.mem e [] [] va needRW).1 with
    | .error .hold => .error .hold
    | .error x => .error (.fault (xerrCode x).1 (xerrCode x).2 va)
    | .ok x =>
      if x.ent.home ≠ 2 then .error (.fault (causeCode .perm) 0x200 va)
      else if s.memBad x.pa 64 then .error (.fault (causeCode .memUe) 0 va)
      else .ok (x.pa, portQ s.mem x.pa)
/-- The slot n of a queue, translated. -/
def State.slotAt (s : State) (e : Env) (d : PortQ) (n : W64) (need : Need) : Except Missed (List (Nat × Nat)) :=
  (xlatePieces s.mem e need (piecesOf (d.slotVa n) d.slot) []).1
/-- Counting a drop. -/
def State.qDrop (s : State) (pa : Nat) (d : PortQ) : State := s.writeMem (pa + 0x20) (toLE 8 (d.drop + 1).toNat)
/-- Writing bytes over translated pieces, outside the snapshot. -/
def State.ringWrite (s : State) : List (Nat × Nat) → List Byte → State
  | [], _ => s
  | (pa, k) :: t, bs => State.ringWrite (if bs.isEmpty then s else s.writeMem pa (bs.take k)) t (bs.drop k)
/-- A packet is delivered to a receive queue, or counts as a drop (R395). -/
def State.deliverTo (s : State) (e : Env) (va : W64) (tag : BitVec 32) (bs : List Byte) : Except Missed State :=
  match s.queueAt e va with
  | .error x => .error x
  | .ok (pa, d) =>
    if d.bad ∨ d.dir ∨ d.slot - 64 < bs.length ∨ !(d.tail - d.head).ult (BitVec.ofNat 64 d.cap) then .ok (s.qDrop pa d)
    else match s.slotAt e d d.tail needRW with
      | .error x => .error x
      | .ok l =>
        let full := (l.headD (0, 0)).1 + 8
        if s.memBad full 1 then .error (.fault (causeCode .memUe) 0 (d.slotVa d.tail))
        else if (rd s.mem full).getLsbD 0 then .ok ((s.corrMem full 1).qDrop pa d)
        else
          let s1 := (s.corrMem full 1).ringWrite (l.drop 1) bs
          let s2 := s1.ringWrite (l.take 1) (toLE 4 bs.length ++ toLE 4 tag.toNat ++ [1])
          .ok (s2.writeMem (pa + 0x18) (toLE 8 (d.tail + 1).toNat))
/-- The entry at HEAD of a transmit queue: the descriptor's address and the queue, the slot's pieces, its LEN and its
tag; none when the queue is malformed or holds no full entry there. -/
def State.headSlot (s : State) (e : Env) (va : W64) : Except Missed (Option (Nat × PortQ × List (Nat × Nat) × Nat × BitVec 32)) :=
  match s.queueAt e va with
  | .error x => .error x
  | .ok (pa, d) =>
    if d.bad ∨ !d.dir ∨ !d.head.ult d.tail then .ok none
    else match s.slotAt e d d.head needRW with
      | .error x => .error x
      | .ok l =>
        let h := (l.headD (0, 0)).1
        match s.piecesBad (d.slotVa d.head) [(h, 16)] with
        | some x => .error x
        | none =>
          if !(rd s.mem (h + 8)).getLsbD 0 then .ok none
          else .ok (some (pa, d, l, leNat (rdN s.mem h 4), BitVec.ofNat 32 (leNat (rdN s.mem (h + 4) 4))))
/-- The pieces of a slot that hold n bytes of payload. -/
def payPieces : List (Nat × Nat) → Nat → List (Nat × Nat)
  | [], _ => []
  | (pa, k) :: t, n => if n = 0 then [] else (pa, min k n) :: payPieces t (n - k)
/-- The entry at HEAD of a transmit queue when it is full: its tag and payload, and the queue once it is consumed (R395). -/
def State.consume (s : State) (e : Env) (va : W64) : Except Missed (Option (BitVec 32 × List Byte × State)) :=
  match s.headSlot e va with
  | .error x => .error x
  | .ok none => .ok none
  | .ok (some (pa, d, l, len, tag)) =>
    let pay := payPieces (l.drop 1) (min len (d.slot - 64))
    match s.piecesBad (d.slotVa d.head + 64) pay with
    | some x => .error x
    | none =>
      let h := (l.headD (0, 0)).1
      let s1 := (s.corrAll ((h, 16) :: pay)).writeMem (h + 8) [rd s.mem (h + 8) &&& 0xFE]
      .ok (some (tag, pay.flatMap (fun q => rdN s.mem q.1 q.2), s1.writeMem (pa + 0x10) (toLE 8 (d.head + 1).toNat)))
/-- A root port serves a port queue, whose ring is known from then on (R394, log entry 109). -/
def State.serves (s : State) (p : Nat) (va : W64) : State :=
  if s.ik.queues.contains (p, va) then s else { s with ik := { s.ik with queues := s.ik.queues ++ [(p, va)] } }
/-- CARD_DELIVER (R395). -/
def execCardDeliver (port : Nat) (rid : BitVec 16) (desc : W64) (tag : BitVec 32) (bs : List Byte) (s : State) : Out :=
  .next (match s.requester port rid with
    | none => s
    | some (p, e) => match s.deliverTo e desc tag bs with
      | .ok s1 => s1.serves p desc
      | .error x => s.dmaFault p x)
/-- PORT_TRANSMIT (R395). -/
def execPortTransmit (port : Nat) (rid : BitVec 16) (desc : W64) (s : State) : Out :=
  .next (match s.requester port rid with
    | none => s
    | some (p, e) => match s.consume e desc with
      | .ok none => s.serves p desc
      | .ok (some (tag, bs, s1)) => { s1 with ik := { s1.ik with cards := s1.ik.cards ++ [(port, tag, bs)] } }.serves p desc
      | .error x => s.dmaFault p x)

/-! ### Host queues (R407) -/

/-- A host queue's descriptor, receive (0) or transmit (8); none when the queue is absent. -/
def State.hostQueue (s : State) (i which : Nat) : Option W64 :=
  let va := s.table (0x600 + 16 * i + which)
  if 64 ≤ i ∨ va = 0 then none else some va
/-- Bytes of the staging area. -/
def stageBytes : Nat := 0xFF00
/-- What reading n bytes at an offset of aperture i gives (R407): HQ.TXI, or bytes of the payload of slot HEAD of the transmit queue, as
memory holds them; all ones from a queue that is absent, does not translate or whose words are uncorrectable (log entry 109). -/
def State.hqRead (s : State) (i off n : Nat) : List Byte :=
  let ones := List.replicate n 255
  match s.hostQueue i 8 with
  | none => ones
  | some va =>
    let e := s.acEnv 0
    if off = 0xFF08 then
      match s.headSlot e va with
      | .ok (some (_, _, _, len, tag)) => (toLE 4 len ++ toLE 4 tag.toNat).take n
      | _ => ones
    else if stageBytes < off + n then List.replicate n 0
    else match s.queueAt e va with
      | .error _ => ones
      | .ok (_, d) => match s.slotAt e d d.head needRW with
        | .error _ => ones
        | .ok l => match s.piecesBad (d.slotVa d.head + 64) (l.drop 1) with
          | some _ => ones
          | none => ((((l.drop 1).flatMap (fun (q : Nat × Nat) => rdN s.mem q.1 q.2)).drop off) ++ ones.map (fun _ => 0)).take n
/-- HQ_STAGE: bytes of an aperture below 0xFF00. -/
def execHqStage (i : Nat) (off : Nat) (bs : List Byte) (s : State) : Out :=
  .next (if (s.hostQueue i 0).isNone ∨ stageBytes < off + bs.length then s
  else { s with ik := { s.ik with stage := mset s.ik.stage i (wrL (mget [] s.ik.stage i) off bs) } })
/-- HQ_POST: a LEN beyond the staging area counts as a drop, as does one beyond the slot's payload. -/
def execHqPost (i : Nat) (v : W64) (s : State) : Out :=
  let n := bits v 31 0
  let e := s.acEnv 0
  .next (match s.hostQueue i 0 with
    | none => s
    | some va =>
      if stageBytes < n then
        (match s.queueAt e va with
          | .ok (pa, d) => s.qDrop pa d
          | .error _ => s)
      else match s.deliverTo e va (BitVec.ofNat 32 (bits v 63 32)) (rdN (mget [] s.ik.stage i) 0 n) with
        | .ok s1 => s1
        | .error _ => s)
/-- HQ_TXC: slot HEAD is consumed when it is full. -/
def execHqTxc (i : Nat) (s : State) : Out :=
  .next (match s.hostQueue i 8 with
    | none => s
    | some va => match s.consume (s.acEnv 0) va with
      | .ok (some (_, _, s1)) => s1
      | _ => s)

end Sys2Proof.Machine
end

