-- ==== Sys2Proof/Machine/AppCores.lean ====
section
/-!
DEFINITION. Sys2Proof/Machine/AppCores.lean: the application cores of the Ikilith die as the compute dies meet them (R396 to R402):
their loads and stores, the bank port, the launch port, the core-access port and the special-register port; and writes of
registers from outside (R7, R398, R404).
-/

namespace Sys2Proof.Machine
open Sys2Proof

/-! ### Loads and stores (R397) -/

/-- Changing an application core's window. -/
def State.upApp (s : State) (i : Nat) (f : AppCore → AppCore) : State := s.setApp i (f (s.appCore i))
/-- A translated access that faulted: AC.FAULT latches the first, and the core gets an interrupt. -/
def State.acFault (s : State) (i : Nat) (x : Missed) : State :=
  match x with
  | .hold => s
  | .fault cause info va =>
    let a := s.appCore i
    (if (a.w 0x020).getLsbD 63 then s
    else s.setApp i ((a.setW 0x020 (BitVec.ofNat 64 (2 ^ 63 + info / 256 % 16 * 256 + cause % 256))).setW 0x028 va)).irq 7
/-- The fault of an access made while AC.PART.V is 0. -/
def noPartFault (va : W64) : Missed := .fault (causeCode .perm) 0x400 va
/-- Translating an access of an application core, with the translations it then holds. -/
def State.acXlate (s : State) (i : Nat) (need : Need) (va : W64) (n : Nat) : Except Missed (List (Nat × Nat)) × State :=
  let a := s.appCore i
  if !a.valid then (.error (noPartFault va), s)
  else
    let r := xlatePieces s.mem (s.acEnv i) need (piecesOf va n) a.tlb
    (r.1, s.setApp i { a with tlb := r.2 })
/-- The bytes at translated pieces as an application core's loads see them (R280). -/
def State.acBytes (s : State) (i : Nat) (l : List (Nat × Nat)) : List Byte :=
  let pt := s.part (s.appCore i).part
  l.flatMap (fun q => seenN (mget [] pt.acPend i) pt.snap q.1 q.2)
/-- What a load returned. -/
def State.setAcOut (s : State) (bs : List Byte) : State := { s with ik := { s.ik with acOut := bs } }
/-- AC_LOAD (R397): while the phase closes a load waits (R285). -/
def execAcLoad (ac : Nat) (va : W64) (n : Nat) (s : State) : Out :=
  let bad (s : State) (x : Missed) : State := (s.acFault ac x).setAcOut (List.replicate n 255)
  .next (if 64 ≤ ac then s else match s.acXlate ac needR va n with
    | (.error .hold, _) => s
    | (.error x, s1) => bad s1 x
    | (.ok l, s1) =>
      if (s1.part (s1.appCore ac).part).closing then s
      else match s1.piecesBad va l with
        | some x => bad s1 x
        | none => (s1.corrAll l).setAcOut (s1.acBytes ac l))
/-- AC_STORE (R397). -/
def execAcStore (ac : Nat) (va : W64) (bs : List Byte) (s : State) : Out :=
  .next (if 64 ≤ ac then s else match s.acXlate ac needW va bs.length with
    | (.error .hold, _) => s
    | (.error x, s1) => s1.acFault ac x
    | (.ok l, s1) => s1.plainStore (s1.appCore ac).part 1 ac
        (pieceSegs s.mem (s.acEnv ac) needW (piecesOf va bs.length) (s.appCore ac).tlb) (placeBytes l bs))
/-- AC_TLBI (R398). -/
def execAcTlbi (ac : Nat) (s : State) : Out := .next (s.upApp ac (fun a => { a with tlb := [] }))

/-! ### The bank port (R399) -/

/-- The type an operation accepts (R293, R297). -/
def bankTyOk (op : BOp) (ty : BitVec 2) : Bool :=
  match op with
  | .fmin => ty == 2 | .fmax => ty == 2 | .xadd => ty == 2 | .xrd => ty == 2
  | .maxi => ty == 0 | .hist => ty == 0 | .pfx => ty == 0
  | _ => ty == 0 || ty == 1
/-- The type of a code. -/
def bankTy (ty : BitVec 2) : BTy := if ty = 0 then .d else if ty = 1 then .w else .f
/-- Translating the words of an operation: segments are entered as they are met (R312). -/
def acElems (e : Env) (need : Need) : List BEl → Mem → Tlb → List Nat → List (BEl × Nat) →
    Except (Missed) (List (BEl × Nat) × Mem × Tlb × List Nat)
  | [], m, t, segs, l => .ok (l, m, t, segs)
  | x :: xs, m, t, segs, l =>
    let r := translate m e t segs x.2.1 need
    match r.1 with
    | .error .hold => .error .hold
    | .error y => .error (.fault (xerrCode y).1 (xerrCode y).2 x.2.1)
    | .ok tr =>
      let n := enter m e segs tr
      acElems e need xs n.1 r.2 n.2 (l ++ [(x, tr.pa)])
/-- Ending the port's operation with a cause. -/
def State.bpEnd (s : State) (i code sub : Nat) (res : W64) : State := s.upApp i (fun a => acBankEnd a code sub res)
/-- BUSY of a port's command register. -/
def AppCore.busy (a : AppCore) (off : Nat) : Bool := (a.w off).getLsbD 63
/-- BUSY alone. -/
def busyWord : W64 := 1#64 <<< 63
/-- The operation waits with BUSY set (R311, R343, R399). -/
def State.bpHold (s : State) (i : Nat) (w : BpWait) : State := s.upApp i (fun a => { a.setW 0x058 busyWord with bpWait := some w })
/-- The class-O turn of an operation in replay: the value forced, or a wait. -/
def State.bpTurn (s : State) (i p : Nat) (op : BOp) (clr : Bool) : State × LogAns :=
  match bankKind op clr with
  | none => (s, .live)
  | some kind =>
    let r := s.logAsk p kind (s.acLc p i)
    match r.2 with
    | .val v => (r.1.acCount p i, .val v)
    | a => (r.1, a)
/-- The bank port performs an operation (R399): Send now, Perform at the banks, at once unless a schedule leaves the FIFOs. On a held
segment, and in replay before its turn, it waits. -/
def State.bankGo (s : State) (i : Nat) (w : BpWait) : State :=
  let a := s.appCore i
  let op := w.op
  let clr := w.clr
  let ty := bankTy w.ty
  let va := w.va
  if !bankTyOk op w.ty then s.bpEnd i 0x01 0 va
  else if !a.valid then s.bpEnd i (causeCode .perm) 4 va
  else if va.toNat % bankSize op ty ≠ 0 then s.bpEnd i (causeCode .align) 0 va
  else if op = .pfx ∧ 4096 < w.x.toNat then s.bpEnd i (causeCode .handle) 0 va
  else
    let e := s.acEnv i
    match acElems e (bankNeed op clr) (scalarEls op va w.x) s.mem a.tlb [] [] with
    | .error .hold => s.bpHold i w
    | .error (.fault cause info x) => s.bpEnd i cause (info / 256) x
    | .ok (l, m, t, segs) =>
      let q := s.bpTurn i a.part op clr
      match q.2 with
      | .wait => q.1.bpHold i w
      | ans =>
        if l.isEmpty then s.bpEnd i 0 0 (prefixOf [])
        else
          let v := match ans with | .val v => some v | _ => none
          let s1 : State := { q.1 with mem := m }.setApp i { (a.setW 0x058 busyWord) with
            tlb := t, pending := l.map (fun (x : BEl × Nat) => x.1.1), rets := [], segs := segs, bpWait := none }
          let s2 := l.foldl (fun (s : State) (x : BEl × Nat) =>
            s.send ⟨256 + i, a.part, x.1.1, 0, 0, x.2, x.1.2.1, op, ty, clr, x.1.2.2, w.e, v⟩) s1
          if s.lagBanks then s2
          else (l.map (fun (x : BEl × Nat) => bankOf x.2)).foldl (fun s b => s.drainBank b (mget [] s.fifos b).length) s2
/-- A write of BP.CMD that names an operation: it starts with the operands that stand in the window, unless one is in progress. -/
def State.bankPort (s : State) (i : Nat) (op : BOp) (tyc : BitVec 2) (clr : Bool) : State :=
  let a := s.appCore i
  if 64 ≤ i ∨ a.busy 0x058 then s else s.bankGo i ⟨op, tyc, clr, a.w 0x040, a.w 0x048, a.w 0x050⟩
/-- BP_BADD. -/
def execBpBadd (ac : Nat) (ty : BitVec 2) (s : State) : Out := .next (s.bankPort ac .add ty false)
/-- BP_BAND. -/
def execBpBand (ac : Nat) (ty : BitVec 2) (s : State) : Out := .next (s.bankPort ac .band ty false)
/-- BP_BOR. -/
def execBpBor (ac : Nat) (ty : BitVec 2) (s : State) : Out := .next (s.bankPort ac .bor ty false)
/-- BP_BXOR. -/
def execBpBxor (ac : Nat) (ty : BitVec 2) (s : State) : Out := .next (s.bankPort ac .bxor ty false)
/-- BP_BMIN. -/
def execBpBmin (ac : Nat) (ty : BitVec 2) (s : State) : Out := .next (s.bankPort ac .min ty false)
/-- BP_BMAX. -/
def execBpBmax (ac : Nat) (ty : BitVec 2) (s : State) : Out := .next (s.bankPort ac .max ty false)
/-- BP_BMINN. -/
def execBpBminn (ac : Nat) (ty : BitVec 2) (s : State) : Out := .next (s.bankPort ac .minn ty false)
/-- BP_BMAXN. -/
def execBpBmaxn (ac : Nat) (ty : BitVec 2) (s : State) : Out := .next (s.bankPort ac .maxn ty false)
/-- BP_BFMIN. -/
def execBpBfmin (ac : Nat) (ty : BitVec 2) (s : State) : Out := .next (s.bankPort ac .fmin ty false)
/-- BP_BFMAX. -/
def execBpBfmax (ac : Nat) (ty : BitVec 2) (s : State) : Out := .next (s.bankPort ac .fmax ty false)
/-- BP_BMAXI. -/
def execBpBmaxi (ac : Nat) (ty : BitVec 2) (s : State) : Out := .next (s.bankPort ac .maxi ty false)
/-- BP_BXADD. -/
def execBpBxadd (ac : Nat) (ty : BitVec 2) (s : State) : Out := .next (s.bankPort ac .xadd ty false)
/-- BP_BXRD. -/
def execBpBxrd (ac : Nat) (ty : BitVec 2) (clr : Bool) (s : State) : Out := .next (s.bankPort ac .xrd ty clr)
/-- BP_BFAA. -/
def execBpBfaa (ac : Nat) (ty : BitVec 2) (s : State) : Out := .next (s.bankPort ac .faa ty false)
/-- BP_BCAS. -/
def execBpBcas (ac : Nat) (ty : BitVec 2) (s : State) : Out := .next (s.bankPort ac .cas ty false)
/-- BP_BLD. -/
def execBpBld (ac : Nat) (ty : BitVec 2) (s : State) : Out := .next (s.bankPort ac .bld ty false)
/-- BP_BST. -/
def execBpBst (ac : Nat) (ty : BitVec 2) (s : State) : Out := .next (s.bankPort ac .bst ty false)
/-- BP_BHIST. -/
def execBpBhist (ac : Nat) (ty : BitVec 2) (s : State) : Out := .next (s.bankPort ac .hist ty false)
/-- BP_BPFX. -/
def execBpBpfx (ac : Nat) (ty : BitVec 2) (s : State) : Out := .next (s.bankPort ac .pfx ty false)
/-- BP_BAXPY. -/
def execBpBaxpy (ac : Nat) (ty : BitVec 2) (s : State) : Out := .next (s.bankPort ac .axpy ty false)
/-- The operation of an OP code (R297). -/
def bankOpOf (n : Nat) : Option BOp :=
  ([.add, .band, .bor, .bxor, .min, .max, .minn, .maxn, .fmin, .fmax, .maxi, .xadd, .xrd, .faa, .cas, .bld, .bst, .hist, .pfx,
    .axpy] : List BOp)[n - 0x10]?
/-- A write of BP.CMD: CLR acts for BXRD alone. -/
def State.bpCmd (s : State) (i : Nat) (v : W64) : State :=
  let n := bits v 5 0
  match (if n < 0x10 then none else bankOpOf n) with
  | some op => s.bankPort i op (BitVec.ofNat 2 (bits v 9 8)) (v.getLsbD 10 && op == .xrd)
  | none => if (s.appCore i).busy 0x058 then s else s.bpEnd i 0x01 0 ((s.appCore i).w 0x040)

/-! ### The launch port (R400) -/

/-- The end of a launch: CODE and what 15:8 holds. -/
def State.lpEnd (s : State) (i code why : Nat) : State :=
  s.upApp i (fun a => { a.setW 0x088 (BitVec.ofNat 64 (why * 256 + code)) with lpWait := none })
/-- The launch waits with BUSY set, as the core's plain load of the record would (R285, R311). -/
def State.lpHold (s : State) (i : Nat) (va : W64) : State := s.upApp i (fun a => { a.setW 0x088 busyWord with lpWait := some va })
/-- A launch at the port: its record is read as the core's plain loads read it. -/
def State.launchGo (s : State) (i : Nat) (va : W64) : State :=
  let a := s.appCore i
  if !a.valid then s.lpEnd i (causeCode .perm) 4
  else if va.toNat % 64 ≠ 0 then s.lpEnd i (causeCode .align) 0
  else match s.acXlate i needR va 64 with
    | (.error .hold, _) => s.lpHold i va
    | (.error (.fault cause info _), s1) => s1.lpEnd i cause (info / 256)
    | (.ok l, s1) => if (s.part a.part).closing then s.lpHold i va else match s1.piecesBad va l with
      | some _ => s1.lpEnd i (causeCode .memUe) 0
      | none =>
        let s1 := s1.corrAll l
        let pt := s1.part a.part
        let rc := Sys2Proof.Machine.recordOf va (s1.acBytes i l)
        let made := mget 0 pt.acMade i
        let why := pt.refuse rc true made
        if why ≠ 0 then s1.lpEnd i (causeCode .record) why
        else
          let id := launchId (pt.phase + 1) 0xFFF i made
          let s2 := s1.setPart a.part { pt with acMade := mset pt.acMade i (made + 1) }
          ((s2.newLaunch a.part (id, pt.phase % 2 ^ 16) rc 0 none).lpEnd i 0 0).upApp i (fun a => a.setW 0x090 id)
/-- A write of 1 to LP.CMD: discarded while BUSY is 1. -/
def State.launchPort (s : State) (i : Nat) : State :=
  if 64 ≤ i ∨ (s.appCore i).busy 0x088 then s else s.launchGo i ((s.appCore i).w 0x080)
/-- LP_LAUNCH. -/
def execLpLaunch (ac : Nat) (s : State) : Out := .next (s.launchPort ac)

/-! ### The core-access port (R401) -/

/-- The end of an access: ST. -/
def State.caEnd (s : State) (i st : Nat) : State := s.upApp i (fun a => { a.setW 0x0D8 (BitVec.ofNat 64 st) with caWait := none })
/-- The core that the port names, or why it may not be accessed. -/
def State.caCore (s : State) (i : Nat) : Except Nat Nat :=
  let a := s.appCore i
  let c := bits (a.w 0x0C0) 7 0
  if !a.valid ∨ s.partNo c ≠ a.part then .error 2
  else if (s.core c).mode = .parked ∨ (s.core c).mode = .halted then .ok c
  else .error 1
/-- Reading the item that CA.ITEM names; none when it does not exist. -/
def State.caItem (s : State) (c : Nat) (it : W64) : Option W64 :=
  let k := s.core c
  match bits it 63 61 with
  | 0 => some (k.getS (BitVec.ofNat 6 (bits it 5 0)))
  | 1 => if (srInfo (bits it 13 0)).isSome then some (s.readSr c k.r.pc (bits it 13 0)) else none
  | 2 => some (k.getSpill (bits it 8 0))
  | 3 => some (rd64 k.pad.mem (8 * bits it 18 0))
  | 4 => some (dblOf (k.getH (BitVec.ofNat 5 (bits it 6 2))) (bits it 1 0))
  | _ => none
/-- Writing the item that CA.ITEM names. -/
def State.caPut (s : State) (c : Nat) (it v : W64) : Option State :=
  match bits it 63 61 with
  | 0 => some (s.upCore c (fun k => k.setS (BitVec.ofNat 6 (bits it 5 0)) v))
  | 1 => (srInfo (bits it 13 0)).map (fun i => s.writeSr c (bits it 13 0) i v)
  | 2 => some (s.upCore c (fun k => k.setSpill (bits it 8 0) v))
  | 3 => some (s.upCore c (fun k => k.store false (8 * bits it 18 0) (toLE 8 v.toNat)))
  | 4 => some (s.upCore c (fun k => k.setHDbl (BitVec.ofNat 5 (bits it 6 2)) (bits it 1 0) v))
  | _ => none
/-- A read of CYC by an application core is an event like a core's (R340, R343): the value and the state, or none while replay
makes it wait. -/
def State.acCyc (s : State) (i c : Nat) : Option (State × W64) :=
  let p := (s.appCore i).part
  let now := BitVec.ofNat 64 (s.cycOf c)
  let r := s.logAsk p 1 (s.acLc p i)
  match r.2 with
  | .wait => none
  | .val v => some (r.1.acCount p i, v)
  | .live => some (r.1.acLog p i 1 now, now)
/-- The end of a read: the value and ST 0. -/
def State.caGive (s : State) (i : Nat) (v : W64) : State := (s.upApp i (fun a => a.setW 0x0D0 v)).caEnd i 0
/-- A read of a core's CYC, which in replay waits for its turn with BUSY set (R340, R343). -/
def State.caCyc (s : State) (i c : Nat) : State :=
  match s.acCyc i c with
  | none => s.upApp i (fun a => { a.setW 0x0D8 busyWord with caWait := some c })
  | some r => r.1.caGive i r.2
/-- CA_READ; while BUSY is 1 a command is discarded. -/
def execCaRead (ac : Nat) (s : State) : Out :=
  .next (if 64 ≤ ac ∨ (s.appCore ac).busy 0x0D8 then s else match s.caCore ac with
    | .error st => s.caEnd ac st
    | .ok c =>
      let it := (s.appCore ac).w 0x0C8
      if bits it 63 61 = 1 ∧ bits it 13 0 = 0x010 then s.caCyc ac c
      else match s.caItem c it with
      | none => s.caEnd ac 3
      | some v => (if bits it 63 61 = 1 ∧ bits it 13 0 = 0x105 then s.latchEnr c else s).caGive ac v)
/-- CA_WRITE; a change of the configuration is measured (R390). -/
def execCaWrite (ac : Nat) (s : State) : Out :=
  .next (if 64 ≤ ac ∨ (s.appCore ac).busy 0x0D8 then s else match s.caCore ac with
    | .error st => s.caEnd ac st
    | .ok c =>
      let a := s.appCore ac
      match s.caPut c (a.w 0x0C8) (a.w 0x0D0) with
      | none => s.caEnd ac 3
      | some s1 => (s1.remeasured s).caEnd ac 0)

/-! ### The special-register port (R402) -/

/-- The end of an access: ST. -/
def State.srEnd (s : State) (i st : Nat) : State := s.upApp i (fun a => a.setW 0x110 (BitVec.ofNat 64 st))
/-- A register of this port. -/
def srPortHas (n : Nat) : Bool := (srPart n || srDie n) && (srInfo n).isSome
/-- SR_READ. -/
def execSrRead (ac : Nat) (s : State) : Out :=
  let a := s.appCore ac
  let n := bits (a.w 0x100) 13 0
  let d := bits (a.w 0x100) 17 16
  .next (if 64 ≤ ac then s else if !a.valid ∨ !srPortHas n then s.srEnd ac 3
  else
    let v := if srDie n then mget 0 (s.die d).slt (n - 0x280)
      else if n = 0x214 then BitVec.ofNat 64 (s.reserve d)
      else s.readPart a.part n
    (s.upApp ac (fun a => a.setW 0x108 v)).srEnd ac 0)
/-- SR_WRITE: a register whose every field is RO keeps its value; a change of the configuration is measured (R390). -/
def execSrWrite (ac : Nat) (s : State) : Out :=
  let a := s.appCore ac
  let n := bits (a.w 0x100) 13 0
  let d := bits (a.w 0x100) 17 16
  let v := a.w 0x108
  .next (if 64 ≤ ac then s else if !a.valid ∨ !srPortHas n then s.srEnd ac 3
  else match srInfo n with
    | none => s.srEnd ac 3
    | some i => ((if i = (0, 0) then s else if srDie n then s.writeSlt d n v else s.writePart a.part n i v).remeasured s).srEnd ac 0)

/-! ### Writes from outside (R7, R398, R404) -/

/-- The RW bits of a window register. -/
def acMask (off : Nat) : W64 :=
  if off = 0x000 then 0x800000000000003F
  else if off = 0x008 then 0xFFFF
  else if off = 0x010 then 0xFFFFFFFFFFFF
  else if off = 0x040 ∨ off = 0x048 ∨ off = 0x050 ∨ off = 0x080 ∨ off = 0x0D0 ∨ off = 0x108 then ~~~0
  else if off = 0x0C0 then 0xFF
  else if off = 0x0C8 then 0xE0000000003FFFFF
  else if off = 0x100 then 0x33FFF
  else 0
/-- The RW bits of a double of the shared tables (R403, R407). -/
def tableMask (off : Nat) : W64 :=
  if 0x600 ≤ off then ~~~0 else if off % 16 = 0 then 0x803F0300FFFFFFFF else 0xFFFFFFFFFFFF
/-- A write of an application core's window: aligned doubles alone (R397). -/
def State.acWrite (s : State) (i off : Nat) (v : W64) : State :=
  if 64 ≤ i ∨ off % 8 ≠ 0 then s
  else if 0x2000 ≤ off ∧ off < 0x4000 then s.mbWrite .runtime (off - 0x2000) v
  else if 0x200 ≤ off ∧ off < 0xA00 then
    { s with ik := { s.ik with shared := mput 0 s.ik.shared off (v &&& tableMask off) } }
  else if off = 0x018 then s.upApp i (fun a => { a with tlb := [] })
  else if off = 0x020 then (if v.getLsbD 63 then s.upApp i (fun a => a.setW 0x020 (a.w 0x020 &&& ~~~(1#64 <<< 63))) else s)
  else if off = 0x058 then s.bpCmd i v
  else if off = 0x088 then (if v = 1 then s.launchPort i else s)
  else if acMask off = 0 then s
  else s.upApp i (fun a => a.setW off (v &&& acMask off))
/-- What a write of CA.CMD or SR.CMD starts. -/
def acPorts (i off : Nat) (v : W64) (s : State) : Option Out :=
  match off, bits v 1 0 with
  | 0x0D8, 1 => some (execCaRead i s)
  | 0x0D8, 2 => some (execCaWrite i s)
  | 0x110, 1 => some (execSrRead i s)
  | 0x110, 2 => some (execSrWrite i s)
  | _, _ => none
/-- What waits at the ports of an application core is tried again. -/
def State.acRetry (s : State) (i : Nat) : State :=
  let a := s.appCore i
  let s1 := match a.bpWait with | some w => s.bankGo i w | none => s
  let s2 := match a.lpWait with | some va => s1.launchGo i va | none => s1
  match a.caWait with
  | some c => if (s.core c).mode = .parked ∨ (s.core c).mode = .halted then s2.caCyc i c else s2.caEnd i 1
  | none => s2
/-- What waits outside the cores is tried again at every step: the dispatchers' words and the application cores' ports (R311, R343). -/
def State.retryAll (s : State) : State :=
  let s1 := ((s.parts.filter (fun p => p.2.duties ≠ [])).map (·.1)).foldl State.tryDuties s
  ((s.ik.ac.filter (fun a => a.2.bpWait.isSome || a.2.lpWait.isSome || a.2.caWait.isSome)).map (·.1)).foldl State.acRetry s1
/-- REGISTER_WRITE (R7): a register of a core, of an application core's window or of a mailbox; a register with a behaviour of
its own does what its rule says. -/
def execRegisterWrite (r : RegTarget) (v : W64) (s : State) : Out :=
  match r with
  | .sr c n => match srInfo n with
    | none => .next s
    | some i => .next ((if i = (0, 0) then s else s.writeSr c n i v).remeasured s)
  | .ac i off => (acPorts i off v s).getD (.next (s.acWrite i off v))
  | .mb m off => .next (s.mbWrite m off v)

end Sys2Proof.Machine
end

