-- ==== Sys2Proof/Machine/BankExec.lean ====
section
/-!
DEFINITION. Sys2Proof/Machine/BankExec.lean: the bank operations in scalar and stream form (R293 to R300), routed to the ST engine.
-/

namespace Sys2Proof.Machine
open Sys2Proof

/-- BADD. -/
def execBadd (t : Tok) (a : Sreg) (b : Sreg) (fa : Sreg) (fv : Sreg) (ty : BTy) (s : State) : Out :=
  routed .st (.badd t a b fa fv ty) (fun c en s => bankCheck ⟨.add, ty, false, 0, false, 0⟩ (s.core c) en) s
/-- BADD_STREAM. -/
def execBaddStream (t : Tok) (h : Hreg) (a : Sreg) (fa : Sreg) (fv : Sreg) (ty : BTy) (s : State) : Out :=
  routed .st (.baddStream t h a fa fv ty) (fun c en s => bankCheck ⟨.add, ty, false, 0, true, 0⟩ (s.core c) en) s
/-- BAND. -/
def execBand (t : Tok) (a : Sreg) (b : Sreg) (fa : Sreg) (fv : Sreg) (ty : BTy) (s : State) : Out :=
  routed .st (.band t a b fa fv ty) (fun c en s => bankCheck ⟨.band, ty, false, 0, false, 0⟩ (s.core c) en) s
/-- BAND_STREAM. -/
def execBandStream (t : Tok) (h : Hreg) (a : Sreg) (fa : Sreg) (fv : Sreg) (ty : BTy) (s : State) : Out :=
  routed .st (.bandStream t h a fa fv ty) (fun c en s => bankCheck ⟨.band, ty, false, 0, true, 0⟩ (s.core c) en) s
/-- BOR. -/
def execBor (t : Tok) (a : Sreg) (b : Sreg) (fa : Sreg) (fv : Sreg) (ty : BTy) (s : State) : Out :=
  routed .st (.bor t a b fa fv ty) (fun c en s => bankCheck ⟨.bor, ty, false, 0, false, 0⟩ (s.core c) en) s
/-- BOR_STREAM. -/
def execBorStream (t : Tok) (h : Hreg) (a : Sreg) (fa : Sreg) (fv : Sreg) (ty : BTy) (s : State) : Out :=
  routed .st (.borStream t h a fa fv ty) (fun c en s => bankCheck ⟨.bor, ty, false, 0, true, 0⟩ (s.core c) en) s
/-- BXOR. -/
def execBxor (t : Tok) (a : Sreg) (b : Sreg) (fa : Sreg) (fv : Sreg) (ty : BTy) (s : State) : Out :=
  routed .st (.bxor t a b fa fv ty) (fun c en s => bankCheck ⟨.bxor, ty, false, 0, false, 0⟩ (s.core c) en) s
/-- BXOR_STREAM. -/
def execBxorStream (t : Tok) (h : Hreg) (a : Sreg) (fa : Sreg) (fv : Sreg) (ty : BTy) (s : State) : Out :=
  routed .st (.bxorStream t h a fa fv ty) (fun c en s => bankCheck ⟨.bxor, ty, false, 0, true, 0⟩ (s.core c) en) s
/-- BMIN. -/
def execBmin (t : Tok) (a : Sreg) (b : Sreg) (fa : Sreg) (fv : Sreg) (ty : BTy) (s : State) : Out :=
  routed .st (.bmin t a b fa fv ty) (fun c en s => bankCheck ⟨.min, ty, false, 0, false, 0⟩ (s.core c) en) s
/-- BMIN_STREAM. -/
def execBminStream (t : Tok) (h : Hreg) (a : Sreg) (fa : Sreg) (fv : Sreg) (ty : BTy) (s : State) : Out :=
  routed .st (.bminStream t h a fa fv ty) (fun c en s => bankCheck ⟨.min, ty, false, 0, true, 0⟩ (s.core c) en) s
/-- BMAX. -/
def execBmax (t : Tok) (a : Sreg) (b : Sreg) (fa : Sreg) (fv : Sreg) (ty : BTy) (s : State) : Out :=
  routed .st (.bmax t a b fa fv ty) (fun c en s => bankCheck ⟨.max, ty, false, 0, false, 0⟩ (s.core c) en) s
/-- BMAX_STREAM. -/
def execBmaxStream (t : Tok) (h : Hreg) (a : Sreg) (fa : Sreg) (fv : Sreg) (ty : BTy) (s : State) : Out :=
  routed .st (.bmaxStream t h a fa fv ty) (fun c en s => bankCheck ⟨.max, ty, false, 0, true, 0⟩ (s.core c) en) s
/-- BMINN. -/
def execBminn (t : Tok) (a : Sreg) (b : Sreg) (fa : Sreg) (fv : Sreg) (ty : BTy) (s : State) : Out :=
  routed .st (.bminn t a b fa fv ty) (fun c en s => bankCheck ⟨.minn, ty, false, 0, false, 0⟩ (s.core c) en) s
/-- BMINN_STREAM. -/
def execBminnStream (t : Tok) (h : Hreg) (a : Sreg) (fa : Sreg) (fv : Sreg) (ty : BTy) (s : State) : Out :=
  routed .st (.bminnStream t h a fa fv ty) (fun c en s => bankCheck ⟨.minn, ty, false, 0, true, 0⟩ (s.core c) en) s
/-- BMAXN. -/
def execBmaxn (t : Tok) (a : Sreg) (b : Sreg) (fa : Sreg) (fv : Sreg) (ty : BTy) (s : State) : Out :=
  routed .st (.bmaxn t a b fa fv ty) (fun c en s => bankCheck ⟨.maxn, ty, false, 0, false, 0⟩ (s.core c) en) s
/-- BMAXN_STREAM. -/
def execBmaxnStream (t : Tok) (h : Hreg) (a : Sreg) (fa : Sreg) (fv : Sreg) (ty : BTy) (s : State) : Out :=
  routed .st (.bmaxnStream t h a fa fv ty) (fun c en s => bankCheck ⟨.maxn, ty, false, 0, true, 0⟩ (s.core c) en) s
/-- BFMIN. -/
def execBfmin (t : Tok) (a : Sreg) (b : Sreg) (fa : Sreg) (fv : Sreg) (s : State) : Out :=
  routed .st (.bfmin t a b fa fv) (fun c en s => bankCheck ⟨.fmin, .f, false, 0, false, 0⟩ (s.core c) en) s
/-- BFMIN_STREAM. -/
def execBfminStream (t : Tok) (h : Hreg) (a : Sreg) (fa : Sreg) (fv : Sreg) (s : State) : Out :=
  routed .st (.bfminStream t h a fa fv) (fun c en s => bankCheck ⟨.fmin, .f, false, 0, true, 0⟩ (s.core c) en) s
/-- BFMAX. -/
def execBfmax (t : Tok) (a : Sreg) (b : Sreg) (fa : Sreg) (fv : Sreg) (s : State) : Out :=
  routed .st (.bfmax t a b fa fv) (fun c en s => bankCheck ⟨.fmax, .f, false, 0, false, 0⟩ (s.core c) en) s
/-- BFMAX_STREAM. -/
def execBfmaxStream (t : Tok) (h : Hreg) (a : Sreg) (fa : Sreg) (fv : Sreg) (s : State) : Out :=
  routed .st (.bfmaxStream t h a fa fv) (fun c en s => bankCheck ⟨.fmax, .f, false, 0, true, 0⟩ (s.core c) en) s
/-- BMAXI. -/
def execBmaxi (t : Tok) (a : Sreg) (b : Sreg) (fa : Sreg) (fv : Sreg) (s : State) : Out :=
  routed .st (.bmaxi t a b fa fv) (fun c en s => bankCheck ⟨.maxi, .d, false, 0, false, 0⟩ (s.core c) en) s
/-- BMAXI_STREAM. -/
def execBmaxiStream (t : Tok) (h : Hreg) (a : Sreg) (b : Sreg) (fa : Sreg) (fv : Sreg) (s : State) : Out :=
  routed .st (.bmaxiStream t h a b fa fv) (fun c en s => bankCheck ⟨.maxi, .d, false, 0, true, 0⟩ (s.core c) en) s
/-- BXADD. -/
def execBxadd (t : Tok) (a : Sreg) (b : Sreg) (fa : Sreg) (fv : Sreg) (s : State) : Out :=
  routed .st (.bxadd t a b fa fv) (fun c en s => bankCheck ⟨.xadd, .f, false, 0, false, 0⟩ (s.core c) en) s
/-- BXADD_STREAM. -/
def execBxaddStream (t : Tok) (h : Hreg) (a : Sreg) (fa : Sreg) (fv : Sreg) (s : State) : Out :=
  routed .st (.bxaddStream t h a fa fv) (fun c en s => bankCheck ⟨.xadd, .f, false, 0, true, 0⟩ (s.core c) en) s
/-- BXRD. -/
def execBxrd (t : Tok) (a : Sreg) (e : Sreg) (fa : Sreg) (fv : Sreg) (clr : Bool) (s : State) : Out :=
  routed .st (.bxrd t a e fa fv clr) (fun c en s => bankCheck ⟨.xrd, .f, clr, 0, false, e⟩ (s.core c) en) s
/-- BXRD_STREAM. -/
def execBxrdStream (t : Tok) (h : Hreg) (a : Sreg) (fa : Sreg) (fv : Sreg) (clr : Bool) (s : State) : Out :=
  routed .st (.bxrdStream t h a fa fv clr) (fun c en s => bankCheck ⟨.xrd, .f, clr, 0, true, 0⟩ (s.core c) en) s
/-- BFAA. -/
def execBfaa (t : Tok) (a : Sreg) (b : Sreg) (e : Sreg) (fa : Sreg) (fv : Sreg) (ty : BTy) (s : State) : Out :=
  routed .st (.bfaa t a b e fa fv ty) (fun c en s => bankCheck ⟨.faa, ty, false, 0, false, e⟩ (s.core c) en) s
/-- BFAA_STREAM. -/
def execBfaaStream (t : Tok) (h : Hreg) (a : Sreg) (fa : Sreg) (fv : Sreg) (ty : BTy) (s : State) : Out :=
  routed .st (.bfaaStream t h a fa fv ty) (fun c en s => bankCheck ⟨.faa, ty, false, 0, true, 0⟩ (s.core c) en) s
/-- BCAS. -/
def execBcas (t : Tok) (a : Sreg) (b : Sreg) (e : Sreg) (fa : Sreg) (fv : Sreg) (ty : BTy) (s : State) : Out :=
  routed .st (.bcas t a b e fa fv ty) (fun c en s => bankCheck ⟨.cas, ty, false, 0, false, e⟩ (s.core c) en) s
/-- BLD. -/
def execBld (t : Tok) (a : Sreg) (e : Sreg) (fa : Sreg) (fv : Sreg) (ty : BTy) (s : State) : Out :=
  routed .st (.bld t a e fa fv ty) (fun c en s => bankCheck ⟨.bld, ty, false, 0, false, e⟩ (s.core c) en) s
/-- BLD_STREAM. -/
def execBldStream (t : Tok) (h : Hreg) (a : Sreg) (fa : Sreg) (fv : Sreg) (ty : BTy) (s : State) : Out :=
  routed .st (.bldStream t h a fa fv ty) (fun c en s => bankCheck ⟨.bld, ty, false, 0, true, 0⟩ (s.core c) en) s
/-- BST. -/
def execBst (t : Tok) (a : Sreg) (b : Sreg) (fa : Sreg) (fv : Sreg) (ty : BTy) (s : State) : Out :=
  routed .st (.bst t a b fa fv ty) (fun c en s => bankCheck ⟨.bst, ty, false, 0, false, 0⟩ (s.core c) en) s
/-- BST_STREAM. -/
def execBstStream (t : Tok) (h : Hreg) (a : Sreg) (fa : Sreg) (fv : Sreg) (ty : BTy) (s : State) : Out :=
  routed .st (.bstStream t h a fa fv ty) (fun c en s => bankCheck ⟨.bst, ty, false, 0, true, 0⟩ (s.core c) en) s
/-- BHIST. -/
def execBhist (t : Tok) (a : Sreg) (b : Sreg) (fa : Sreg) (fv : Sreg) (s : State) : Out :=
  routed .st (.bhist t a b fa fv) (fun c en s => bankCheck ⟨.hist, .d, false, 0, false, 0⟩ (s.core c) en) s
/-- BHIST_STREAM. -/
def execBhistStream (t : Tok) (h : Hreg) (a : Sreg) (b : Sreg) (fa : Sreg) (fv : Sreg) (sh : BitVec 5) (s : State) : Out :=
  routed .st (.bhistStream t h a b fa fv sh) (fun c en s => bankCheck ⟨.hist, .d, false, sh.toNat, true, 0⟩ (s.core c) en) s
/-- BPFX. -/
def execBpfx (t : Tok) (a : Sreg) (b : Sreg) (e : Sreg) (fa : Sreg) (fv : Sreg) (s : State) : Out :=
  routed .st (.bpfx t a b e fa fv) (fun c en s => bankCheck ⟨.pfx, .d, false, 0, false, e⟩ (s.core c) en) s
/-- BAXPY. -/
def execBaxpy (t : Tok) (a : Sreg) (b : Sreg) (e : Sreg) (fa : Sreg) (fv : Sreg) (ty : BTy) (s : State) : Out :=
  routed .st (.baxpy t a b e fa fv ty) (fun c en s => bankCheck ⟨.axpy, ty, false, 0, false, 0⟩ (s.core c) en) s
/-- BAXPY_STREAM. -/
def execBaxpyStream (t : Tok) (h : Hreg) (a : Sreg) (e : Sreg) (fa : Sreg) (fv : Sreg) (ty : BTy) (s : State) : Out :=
  routed .st (.baxpyStream t h a e fa fv ty) (fun c en s => bankCheck ⟨.axpy, ty, false, 0, true, 0⟩ (s.core c) en) s

end Sys2Proof.Machine
end

