-- ==== Sys2Proof/Machine/CopyExec.lean ====
section
/-!
DEFINITION. Sys2Proof/Machine/CopyExec.lean: the copies, appends, links and MIGR (R182 to R193, R313, R320, R358 to R360, R415 to R418): their
checks at the FE, and their bodies at the LD or ST engine.
-/

namespace Sys2Proof.Machine
open Sys2Proof

/-! ### Checks at the FE -/

/-- R31 on the handle image read in the scratchpad (R182). -/
def imageHD (en : Entry) : HD := HD.of (en.h 1)
/-- The page format that the FE judges a tile copy by: that of the first page it touches when it can be told, else the handle's own; the
engine judges it again (log entry 97). -/
def feFmt (s : State) (c : Nat) (en : Entry) : Nat := s.firstFmt c (HD.of (en.h 0)) (en.s 0) (en.s 1) 0
/-- LD.T: the tile, its alignment, the flag (R176, R182). -/
def ldTCheck (s : State) (c : Nat) (en : Entry) : Option Stop :=
  firstStop [tileCheck en 0 (feFmt s c en), alignStop s c (HD.of (en.h 0)) (en.s 0) (en.s 1), flagStop en.i (en.s 3)]
/-- The first n positions of an index handle have addresses (R30, R185, R320). -/
def indexPlaces (en : Entry) (n : Nat) : Option Stop :=
  let x := HD.of (en.h 1)
  match x.addrs (x.tile.take n) with
  | .ok _ => none
  | .error a => some (stopH .fe (hReg en.i 1) a)
/-- The index handle of LD.X and ST.X (R185). -/
def indexCheck (en : Entry) : Option Stop :=
  let h := HD.of (en.h 0)
  let x := HD.of (en.h 1)
  firstStop [handleStop en 1, stopIf (!fmtAnyInt x.fmt) (stopF .fe x.fmt),
    stopIf (decide (x.total - x.pos < h.rows)) (badHandle en 1), indexPlaces en h.rows]
/-- LD.GR (R320). -/
def ldGrCheck (s : State) (c : Nat) (en : Entry) : Option Stop :=
  let h := HD.of (en.h 0)
  let x := HD.of (en.h 1)
  firstStop [handleStop en 0, stopIf (h.fmt ≠ 1) (stopF .fe h.fmt), tileStop .fe (hReg en.i 0) h,
    handleStop en 1, stopIf (!(x.fmt == 0x0A || x.fmt == 6)) (stopF .fe x.fmt),
    stopIf (x.e 0 % 2 ≠ 0 || x.e 0 == 0 || decide (16 < x.e 0) || x.i 0 ≠ 0) (badHandle en 1),
    stopIf (decide (x.total < x.pos + x.e 0 * h.rows)) (badHandle en 1), indexPlaces en (x.e 0 * h.rows),
    alignStop s c h (en.s 0) (en.s 1), flagStop en.i (en.s 3)]
/-- The slot and the stack bytes that a glaze load writes lie in the tenant's window (R270). -/
def glazeWin (s : State) (c : Nat) (g : Gslot) (en : Entry) : Option Stop :=
  let h := HD.of (en.h 0)
  firstStop [slotWin s c g,
    stackWin s c (en.s 2).toNat ((en.s 2).toNat + (cdiv (h.e 0) 128 - 1) * slotKp h.fmt (h.e 1) + slotKb h.fmt (h.e 1))]
/-- LD.SP: both tiles, and equal counts (R186). -/
def ldSpCheck (en : Entry) : Option Stop :=
  let h := HD.of (en.h 0)
  let x := imageHD en
  firstStop [tileCheck en 0 x.fmt, (tileStop .fe 0 (x.as h.fmt)).map (fun y => { y with info := 0 }),
    stopIf (h.tile.length ≠ x.tile.length) (badHandle en 0), flagStop en.i (en.s 3)]
/-- LD.NET and ST.NET (R182, R192, R193). No tile is turned away for its format (log entry 112). -/
def netCheck (s : State) (c : Nat) (en : Entry) : Option Stop :=
  firstStop [idemStop (s.core c) en (en.s 0), tileCheck en 0 0, flagStop en.i (en.s 3)]
/-- ST.T, ST.PART and ST.X (R176, R179, R184, R185). -/
def stTCheck (s : State) (c : Nat) (indexed : Bool) (en : Entry) : Option Stop :=
  firstStop [ldTCheck s c en, blockStop .fe s c (HD.of (en.h 0)) (feFmt s c en) (en.s 0) (en.s 1) indexed]
/-- Every lane of a region owns at most 65,535 rows of an append (R359). -/
def laneStop (k : Core) (en : Entry) : Option Stop :=
  let h := HD.of (en.h 0)
  match k.laneOf en.i h with
  | .ok l => stopIf ((upto 8).any (fun j => decide (65535 < laneRows { en with lane := l } h j))) (badHandle en 0)
  | .error _ => none
/-- ST.APP, append form (R359). -/
def stAppCheck (s : State) (c : Nat) (en : Entry) : Option Stop :=
  let h := HD.of (en.h 0)
  firstStop [idemStop (s.core c) en (en.s 0), handleStop en 0,
    stopIf (h.idx.any (fun x => decide (x ≠ 0))) (badHandle en 0), tileCheck en 0 h.fmt, laneStop (s.core c) en,
    flagStop en.i (en.s 3)]
/-- A destination core outside the partition (R189, R190). -/
def outside (s : State) (c d : Nat) : Bool := !(s.part (s.partNo c)).coreList.contains d
/-- PERM of a destination core (R189, R190). -/
def stopDest : Stop := stopX .fe .perm 4 0 0
/-- The two tiles of ST.RMT and ST.MC hold equal numbers of elements (R189). -/
def remoteTiles (en : Entry) : Option Stop :=
  let h := HD.of (en.h 0)
  let d := imageHD en
  firstStop [tileCheck en 0 d.fmt, (tileStop .fe 0 (d.as h.fmt)).map (fun y => { y with info := 0 }),
    stopIf (h.tile.length ≠ d.tile.length) (badHandle en 0), flagStop en.i (en.s 3)]
/-- ST.RMT (R189). -/
def stRmtCheck (s : State) (c : Nat) (en : Entry) : Option Stop :=
  firstStop [stopIf (decide (256 ≤ (en.s 2).toNat) || outside s c (en.s 2).toNat) stopDest, remoteTiles en]
/-- ST.MC (R190). -/
def stMcCheck (s : State) (c : Nat) (die : BitVec 2) (en : Entry) : Option Stop :=
  firstStop [stopIf (en.s 2 == 0) ⟨.handle, .fe, 0, 0⟩,
    stopIf ((mcDests die.toNat (en.s 2)).any (outside s c)) stopDest, remoteTiles en]

/-! ### The instructions -/

/-- LD_T. -/
def execLdT (t : Tok) (h : Hreg) (a : Sreg) (b : Sreg) (fa : Sreg) (fv : Sreg) (s : State) : Out :=
  routed .ld (.ldT t h a b fa fv) (fun c en s => ldTCheck s c en) s
/-- LD_X. -/
def execLdX (t : Tok) (h : Hreg) (a : Sreg) (b : Sreg) (hx : Hreg) (fa : Sreg) (fv : Sreg) (s : State) : Out :=
  routed .ld (.ldX t h a b hx fa fv) (fun c en s => firstStop [ldTCheck s c en, indexCheck en]) s
/-- LD_GR. -/
def execLdGr (t : Tok) (h : Hreg) (a : Sreg) (b : Sreg) (hx : Hreg) (fa : Sreg) (fv : Sreg) (s : State) : Out :=
  routed .ld (.ldGr t h a b hx fa fv) (fun c en s => ldGrCheck s c en) s
/-- LD_G. -/
def execLdG (t : Tok) (h : Hreg) (a : Sreg) (b : Sreg) (e : Sreg) (fa : Sreg) (fv : Sreg) (g : Gslot) (s : State) : Out :=
  routed .ld (.ldG t h a b e fa fv g) (fun c en s => firstStop [glazeCheck s c false en, glazeWin s c g en]) s
/-- LD_GT. -/
def execLdGt (t : Tok) (h : Hreg) (a : Sreg) (b : Sreg) (e : Sreg) (fa : Sreg) (fv : Sreg) (g : Gslot) (s : State) : Out :=
  routed .ld (.ldGt t h a b e fa fv g) (fun c en s => firstStop [glazeCheck s c true en, glazeWin s c g en]) s
/-- LD_SP. -/
def execLdSp (t : Tok) (h : Hreg) (a : Sreg) (fa : Sreg) (fv : Sreg) (s : State) : Out :=
  routed .ld (.ldSp t h a fa fv) (fun _ en _ => ldSpCheck en) s
/-- LD_NET. -/
def execLdNet (t : Tok) (h : Hreg) (a : Sreg) (b : Sreg) (e : Sreg) (fa : Sreg) (fv : Sreg) (s : State) : Out :=
  routed .ld (.ldNet t h a b e fa fv) (fun c en s => netCheck s c en) s
/-- PREF. -/
def execPref (t : Tok) (a : Sreg) (b : Sreg) (s : State) : Out :=
  routed .ld (.pref t a b) noChk s
/-- LINK_RECV. -/
def execLinkRecv (t : Tok) (h : Hreg) (a : Sreg) (b : Sreg) (fa : Sreg) (fv : Sreg) (s : State) : Out :=
  routed .ld (.linkRecv t h a b fa fv) (fun c en s => firstStop [idemStop (s.core c) en 0, recvCheck en]) s
/-- ST_T. -/
def execStT (t : Tok) (h : Hreg) (a : Sreg) (b : Sreg) (fa : Sreg) (fv : Sreg) (s : State) : Out :=
  routed .st (.stT t h a b fa fv) (fun c en s => stTCheck s c false en) s
/-- ST_PART. -/
def execStPart (t : Tok) (h : Hreg) (a : Sreg) (b : Sreg) (fa : Sreg) (fv : Sreg) (s : State) : Out :=
  routed .st (.stPart t h a b fa fv) (fun c en s => stTCheck s c false en) s
/-- ST_X. -/
def execStX (t : Tok) (h : Hreg) (a : Sreg) (b : Sreg) (hx : Hreg) (fa : Sreg) (fv : Sreg) (s : State) : Out :=
  routed .st (.stX t h a b hx fa fv) (fun c en s => firstStop [stTCheck s c true en, indexCheck en]) s
/-- ST_APP. -/
def execStApp (t : Tok) (h : Hreg) (a : Sreg) (fa : Sreg) (fv : Sreg) (s : State) : Out :=
  routed .st (.stApp t h a fa fv) (fun c en s => stAppCheck s c en) s
/-- ST_APP_QUERY. -/
def execStAppQuery (t : Tok) (a : Sreg) (d : Sreg) (s : State) : Out :=
  routed .st (.stAppQuery t a d) noChk s
/-- ST_RMT. -/
def execStRmt (t : Tok) (h : Hreg) (a : Sreg) (e : Sreg) (fa : Sreg) (fv : Sreg) (s : State) : Out :=
  routed .st (.stRmt t h a e fa fv) (fun c en s => stRmtCheck s c en) s
/-- ST_MC. -/
def execStMc (t : Tok) (h : Hreg) (a : Sreg) (b : Sreg) (e : Sreg) (fa : Sreg) (fv : Sreg) (die : BitVec 2) (s : State) : Out :=
  routed .st (.stMc t h a b e fa fv die) (fun c en s => stMcCheck s c die en) s
/-- ST_NET. -/
def execStNet (t : Tok) (h : Hreg) (a : Sreg) (b : Sreg) (e : Sreg) (fa : Sreg) (fv : Sreg) (s : State) : Out :=
  routed .st (.stNet t h a b e fa fv) (fun c en s => netCheck s c en) s
/-- LINK_SEND. -/
def execLinkSend (t : Tok) (h : Hreg) (a : Sreg) (b : Sreg) (fa : Sreg) (fv : Sreg) (s : State) : Out :=
  routed .st (.linkSend t h a b fa fv) (fun c en s => firstStop [idemStop (s.core c) en 0, linkCheck s c tileBytes false en]) s
/-- LINK_RED. -/
def execLinkRed (t : Tok) (h : Hreg) (a : Sreg) (b : Sreg) (fa : Sreg) (fv : Sreg) (rq : Bool) (inn : Bool) (s : State) : Out :=
  routed .st (.linkRed t h a b fa fv rq inn) (fun c en s => firstStop [idemStop (s.core c) en 0, linkCheck s c (fun h => redBytes h rq) true en]) s
/-- MIGR. -/
def execMigr (t : Tok) (a : Sreg) (b : Sreg) (fa : Sreg) (fv : Sreg) (s : State) : Out :=
  routed .st (.migr t a b fa fv) (fun _ en _ => firstStop [
    stopIf ((en.s 1).toNat % 65536 ≠ 0) ⟨.align, .fe, en.s 1, 0⟩, flagStop en.i (en.s 3)]) s

end Sys2Proof.Machine
end

