-- ==== Sys2Proof/Machine/MatrixExec.lean ====
section
/-!
DEFINITION. Sys2Proof/Machine/MatrixExec.lean: the matrix array's instructions (R194 to R217, R318, R319), RELAX and its relatives (R224 to
R242) and ACCEPT (R361): their checks at the FE, and their bodies at the EX.
-/

namespace Sys2Proof.Machine
open Sys2Proof

/-- MLEASE. -/
def execMlease (t : Tok) (s : State) : Out :=
  routed .ex (.mlease t) noChk s
/-- MREL. -/
def execMrel (t : Tok) (s : State) : Out :=
  routed .ex (.mrel t) noChk s
/-- MANC_SCAN. -/
def execMancScan (t : Tok) (ha : Hreg) (s : State) : Out :=
  routed .ex (.mancScan t ha) (fun _ en _ => mancScanCheck en) s
/-- MANC_LOAD. -/
def execMancLoad (t : Tok) (ha : Hreg) (s : State) : Out :=
  routed .ex (.mancLoad t ha) (fun _ en _ => mancVecCheck en) s
/-- MANC_COLUMN. -/
def execMancColumn (t : Tok) (g : Gslot) (ha : Hreg) (q : BitVec 6) (s : State) : Out :=
  routed .ex (.mancColumn t g ha q) (fun c en s => firstStop [mancVecCheck en, slotWin s c g]) s
/-- MCLR. -/
def execMclr (t : Tok) (acc : BitVec 1) (s : State) : Out :=
  routed .ex (.mclr t acc) noChk s
/-- MMA. -/
def execMma (t : Tok) (acc : BitVec 1) (g : Gslot) (ha : Hreg) (q : BitVec 8) (sm : Sreg) (sn : Sreg) (sk : Sreg) (s : State) : Out :=
  routed .ex (.mma t acc g ha q sm sn sk) (fun c en s => firstStop [mmaCheck en, slotWin s c g]) s
/-- MEPI. -/
def execMepi (t : Tok) (acc : BitVec 1) (hd : Hreg) (act : Act) (bias : Option Hreg) (sm : Sreg) (sn : Sreg) (scale : Option Sreg) (clr : Bool) (s : State) : Out :=
  routed .ex (.mepi t acc hd act bias sm sn scale clr) (fun _ en _ => mepiCheck bias en) s
/-- MTOPK. -/
def execMtopk (t : Tok) (acc : BitVec 1) (hd : Hreg) (emit : Bool) (new : Bool) (k : BitVec 3) (hx : Hreg) (sm : Sreg) (sn : Sreg) (base : Sreg) (s : State) : Out :=
  routed .ex (.mtopk t acc hd emit new k hx sm sn base) (fun _ en _ => mtopkCheck emit k en) s
/-- RDACC. -/
def execRdacc (t : Tok) (acc : BitVec 1) (hd : Hreg) (sm : Sreg) (sn : Sreg) (s : State) : Out :=
  routed .ex (.rdacc t acc hd sm sn) (fun _ en _ => rdaccCheck en) s
/-- MSTAT_TILE. -/
def execMstatTile (t : Tok) (acc : BitVec 1) (hd : Hreg) (which : BitVec 2) (s : State) : Out :=
  routed .ex (.mstatTile t acc hd which) (fun _ en _ => mstatCheck (if which = 0 then 64 else 256) en) s
/-- MSTAT_ROWANC. -/
def execMstatRowanc (t : Tok) (hd : Hreg) (s : State) : Out :=
  routed .ex (.mstatRowanc t hd) (fun _ en _ => mstatCheck 256 en) s
/-- MSTAT_DESC. -/
def execMstatDesc (t : Tok) (g : Gslot) (hd : Hreg) (s : State) : Out :=
  routed .ex (.mstatDesc t g hd) (fun c en s => firstStop [mstatCheck 64 en, slotWin s c g]) s
/-- MSTAT_COLANC. -/
def execMstatColanc (t : Tok) (g : Gslot) (hd : Hreg) (q : BitVec 5) (s : State) : Out :=
  routed .ex (.mstatColanc t g hd q) (fun c en s => firstStop [mstatCheck 256 en, slotWin s c g]) s
/-- RELAX. -/
def execRelax (t : Tok) (acc : BitVec 1) (g : Gslot) (hr : Hreg) (f : Act) (hz : Hreg) (hu : Hreg) (der : Option Hreg) (cnt : Option Hreg) (warm : Bool) (s : State) : Out :=
  routed .ex (.relax t acc g hr f hz hu der cnt warm) (fun c en s => firstStop [relaxCheck ⟨false, acc, g, f, der.isSome, cnt.isSome, warm⟩ en, slotWin s c g]) s
/-- RELAX_B. -/
def execRelaxB (t : Tok) (acc : BitVec 1) (hr : Hreg) (hz : Hreg) (hu : Hreg) (hd : Hreg) (cnt : Option Hreg) (g : Gslot) (warm : Bool) (s : State) : Out :=
  routed .ex (.relaxB t acc hr hz hu hd cnt g warm) (fun c en s => firstStop [relaxCheck ⟨true, acc, g, .identity, true, cnt.isSome, warm⟩ en, slotWin s c g]) s
/-- RDAHR. -/
def execRdahr (t : Tok) (hd : Hreg) (s : State) : Out :=
  routed .ex (.rdahr t hd) (fun _ en _ => ahrCheck en) s
/-- WRAHR. -/
def execWrahr (t : Tok) (ha : Hreg) (s : State) : Out :=
  routed .ex (.wrahr t ha) (fun _ en _ => ahrCheck en) s
/-- ACCEPT. -/
def execAccept (t : Tok) (hc : Hreg) (hg : Hreg) (mode : BitVec 2) (e : Sreg) (s : State) : Out :=
  routed .ex (.accept t hc hg mode e) (fun c en s => acceptCheck (s.core c) mode en) s

end Sys2Proof.Machine
end

