-- ==== Sys2Proof/Machine/VectorExec.lean ====
section
/-!
DEFINITION. Sys2Proof/Machine/VectorExec.lean: the vector instructions and the mask instructions (R134 to R164): each is routed to the EX,
where its body of Machine/VecBody.lean runs.
-/

namespace Sys2Proof.Machine
open Sys2Proof

/-- VADD. -/
def execVadd (t : Tok) (hd : Hreg) (ha : Hreg) (hb : Hreg) (ty : VTy) (rp : Rep) (s : State) : Out :=
  routed .ex (.vadd t hd ha hb ty rp) noChk s
/-- VSUB. -/
def execVsub (t : Tok) (hd : Hreg) (ha : Hreg) (hb : Hreg) (ty : VTy) (rp : Rep) (s : State) : Out :=
  routed .ex (.vsub t hd ha hb ty rp) noChk s
/-- VMUL. -/
def execVmul (t : Tok) (hd : Hreg) (ha : Hreg) (hb : Hreg) (ty : VTy) (rp : Rep) (s : State) : Out :=
  routed .ex (.vmul t hd ha hb ty rp) noChk s
/-- VFMA. -/
def execVfma (t : Tok) (hd : Hreg) (ha : Hreg) (hb : Hreg) (ty : VTy) (rp : Rep) (s : State) : Out :=
  routed .ex (.vfma t hd ha hb ty rp) noChk s
/-- VDIV. -/
def execVdiv (t : Tok) (hd : Hreg) (ha : Hreg) (hb : Hreg) (ty : VTy) (rp : Rep) (s : State) : Out :=
  routed .ex (.vdiv t hd ha hb ty rp) noChk s
/-- VMIN. -/
def execVmin (t : Tok) (hd : Hreg) (ha : Hreg) (hb : Hreg) (ty : VTy) (rp : Rep) (s : State) : Out :=
  routed .ex (.vmin t hd ha hb ty rp) noChk s
/-- VMAX. -/
def execVmax (t : Tok) (hd : Hreg) (ha : Hreg) (hb : Hreg) (ty : VTy) (rp : Rep) (s : State) : Out :=
  routed .ex (.vmax t hd ha hb ty rp) noChk s
/-- VABS. -/
def execVabs (t : Tok) (hd : Hreg) (ha : Hreg) (ty : VTy) (rp : Rep) (s : State) : Out :=
  routed .ex (.vabs t hd ha ty rp) noChk s
/-- VNEG. -/
def execVneg (t : Tok) (hd : Hreg) (ha : Hreg) (ty : VTy) (rp : Rep) (s : State) : Out :=
  routed .ex (.vneg t hd ha ty rp) noChk s
/-- VAND. -/
def execVand (t : Tok) (hd : Hreg) (ha : Hreg) (hb : Hreg) (ty : VTy) (rp : Rep) (s : State) : Out :=
  routed .ex (.vand t hd ha hb ty rp) noChk s
/-- VOR. -/
def execVor (t : Tok) (hd : Hreg) (ha : Hreg) (hb : Hreg) (ty : VTy) (rp : Rep) (s : State) : Out :=
  routed .ex (.vor t hd ha hb ty rp) noChk s
/-- VXOR. -/
def execVxor (t : Tok) (hd : Hreg) (ha : Hreg) (hb : Hreg) (ty : VTy) (rp : Rep) (s : State) : Out :=
  routed .ex (.vxor t hd ha hb ty rp) noChk s
/-- VSHL. -/
def execVshl (t : Tok) (hd : Hreg) (ha : Hreg) (hb : Hreg) (ty : VTy) (rp : Rep) (s : State) : Out :=
  routed .ex (.vshl t hd ha hb ty rp) noChk s
/-- VSHR. -/
def execVshr (t : Tok) (hd : Hreg) (ha : Hreg) (hb : Hreg) (ty : VTy) (rp : Rep) (s : State) : Out :=
  routed .ex (.vshr t hd ha hb ty rp) noChk s
/-- VSRA. -/
def execVsra (t : Tok) (hd : Hreg) (ha : Hreg) (hb : Hreg) (ty : VTy) (rp : Rep) (s : State) : Out :=
  routed .ex (.vsra t hd ha hb ty rp) noChk s
/-- VCMP. -/
def execVcmp (t : Tok) (un : Bool) (cond : Cond) (ha : Hreg) (hb : Hreg) (ty : VTy) (rp : Rep) (s : State) : Out :=
  routed .ex (.vcmp t un cond ha hb ty rp) noChk s
/-- VSEL. -/
def execVsel (t : Tok) (hd : Hreg) (ha : Hreg) (hb : Hreg) (ty : VTy) (rp : Rep) (s : State) : Out :=
  routed .ex (.vsel t hd ha hb ty rp) noChk s
/-- VMOV. -/
def execVmov (t : Tok) (hd : Hreg) (ha : Hreg) (ty : VTy) (rp : Rep) (s : State) : Out :=
  routed .ex (.vmov t hd ha ty rp) noChk s
/-- VCVT. -/
def execVcvt (t : Tok) (hd : Hreg) (ha : Hreg) (sat : Bool) (mode : RMode) (ty : VTy) (rp : Rep) (s : State) : Out :=
  routed .ex (.vcvt t hd ha sat mode ty rp) noChk s
/-- VQNT. -/
def execVqnt (t : Tok) (hd : Hreg) (ha : Hreg) (hb : Hreg) (ty : VTy) (rp : Rep) (s : State) : Out :=
  routed .ex (.vqnt t hd ha hb ty rp) noChk s
/-- VDQNT. -/
def execVdqnt (t : Tok) (hd : Hreg) (ha : Hreg) (hb : Hreg) (ty : VTy) (rp : Rep) (s : State) : Out :=
  routed .ex (.vdqnt t hd ha hb ty rp) noChk s
/-- VLOG2. -/
def execVlog2 (t : Tok) (hd : Hreg) (ha : Hreg) (ty : VTy) (rp : Rep) (s : State) : Out :=
  routed .ex (.vlog2 t hd ha ty rp) noChk s
/-- VEXP2. -/
def execVexp2 (t : Tok) (hd : Hreg) (ha : Hreg) (ty : VTy) (rp : Rep) (s : State) : Out :=
  routed .ex (.vexp2 t hd ha ty rp) noChk s
/-- VRCP. -/
def execVrcp (t : Tok) (hd : Hreg) (ha : Hreg) (ty : VTy) (rp : Rep) (s : State) : Out :=
  routed .ex (.vrcp t hd ha ty rp) noChk s
/-- VRSQ. -/
def execVrsq (t : Tok) (hd : Hreg) (ha : Hreg) (ty : VTy) (rp : Rep) (s : State) : Out :=
  routed .ex (.vrsq t hd ha ty rp) noChk s
/-- VSQRT. -/
def execVsqrt (t : Tok) (hd : Hreg) (ha : Hreg) (ty : VTy) (rp : Rep) (s : State) : Out :=
  routed .ex (.vsqrt t hd ha ty rp) noChk s
/-- VTANH. -/
def execVtanh (t : Tok) (hd : Hreg) (ha : Hreg) (ty : VTy) (rp : Rep) (s : State) : Out :=
  routed .ex (.vtanh t hd ha ty rp) noChk s
/-- VCLASS. -/
def execVclass (t : Tok) (ha : Hreg) (set : BitVec 5) (ty : VTy) (rp : Rep) (s : State) : Out :=
  routed .ex (.vclass t ha set ty rp) noChk s
/-- VRED_SUM. -/
def execVredSum (t : Tok) (ha : Hreg) (ty : VTy) (rp : Rep) (s : State) : Out :=
  routed .ex (.vredSum t ha ty rp) noChk s
/-- VRED_MAX. -/
def execVredMax (t : Tok) (hd : Hreg) (ha : Hreg) (ty : VTy) (rp : Rep) (s : State) : Out :=
  routed .ex (.vredMax t hd ha ty rp) noChk s
/-- VRED_MIN. -/
def execVredMin (t : Tok) (hd : Hreg) (ha : Hreg) (ty : VTy) (rp : Rep) (s : State) : Out :=
  routed .ex (.vredMin t hd ha ty rp) noChk s
/-- VRED_MAXI. -/
def execVredMaxi (t : Tok) (hd : Hreg) (rp : Rep) (s : State) : Out :=
  routed .ex (.vredMaxi t hd rp) noChk s
/-- VXRD. -/
def execVxrd (t : Tok) (hd : Hreg) (ty : VTy) (rp : Rep) (s : State) : Out :=
  routed .ex (.vxrd t hd ty rp) noChk s
/-- VSCAN. -/
def execVscan (t : Tok) (hd : Hreg) (ha : Hreg) (ty : VTy) (rp : Rep) (s : State) : Out :=
  routed .ex (.vscan t hd ha ty rp) noChk s
/-- VPERM. -/
def execVperm (t : Tok) (hd : Hreg) (ha : Hreg) (hb : Hreg) (ty : VTy) (rp : Rep) (s : State) : Out :=
  routed .ex (.vperm t hd ha hb ty rp) noChk s
/-- VBCAST. -/
def execVbcast (t : Tok) (hd : Hreg) (s : Sreg) (ty : VTy) (rp : Rep) (st : State) : Out :=
  routed .ex (.vbcast t hd s ty rp) noChk st
/-- VIOTA. -/
def execViota (t : Tok) (hd : Hreg) (ty : VTy) (rp : Rep) (s : State) : Out :=
  routed .ex (.viota t hd ty rp) noChk s
/-- VRNG. -/
def execVrng (t : Tok) (hd : Hreg) (ha : Hreg) (hb : Hreg) (rp : Rep) (s : State) : Out :=
  routed .ex (.vrng t hd ha hb rp) noChk s
/-- VEXPMAX. -/
def execVexpmax (t : Tok) (hd : Hreg) (ha : Hreg) (ty : VTy) (rp : Rep) (s : State) : Out :=
  routed .ex (.vexpmax t hd ha ty rp) noChk s
/-- VMAXI. -/
def execVmaxi (t : Tok) (ha : Hreg) (rp : Rep) (s : State) : Out :=
  routed .ex (.vmaxi t ha rp) noChk s
/-- MPUSH. -/
def execMpush (t : Tok) (s : State) : Out :=
  routed .ex (.mpush t) noChk s
/-- MINV. -/
def execMinv (t : Tok) (s : State) : Out :=
  routed .ex (.minv t) noChk s
/-- MPOP. -/
def execMpop (t : Tok) (s : State) : Out :=
  routed .ex (.mpop t) noChk s
/-- MSET. -/
def execMset (t : Tok) (d : Sreg) (fl : Bool) (q : BitVec 2) (s : State) : Out :=
  routed .ex (.mset t d fl q) noChk s
/-- MGET. -/
def execMget (t : Tok) (s : State) : Out :=
  routed .ex (.mget t) noChk s
/-- VSKIP. -/
def execVskip (t : Tok) (n : BitVec 12) (s : State) : Out :=
  routed .ex (.vskip t n) noChk s

end Sys2Proof.Machine
end

