-- ==== Sys2Proof/Machine/Dispatch.lean ====
section
/-!
DEFINITION. Sys2Proof/Machine/Dispatch.lean: one arm for every instruction and every event.
-/

namespace Sys2Proof.Machine
open Sys2Proof

/-- What an instruction or an event does to the package. -/
def exec (i : Instr) (s : State) : Host.Outcome State Fault Refusal :=
  match i with
  | .add t d a b => Sys2Proof.Machine.execAdd t d a b s
  | .sub t d a b => Sys2Proof.Machine.execSub t d a b s
  | .and t d a b => Sys2Proof.Machine.execAnd t d a b s
  | .or t d a b => Sys2Proof.Machine.execOr t d a b s
  | .xor t d a b => Sys2Proof.Machine.execXor t d a b s
  | .shl t d a b => Sys2Proof.Machine.execShl t d a b s
  | .shr t d a b => Sys2Proof.Machine.execShr t d a b s
  | .sra t d a b => Sys2Proof.Machine.execSra t d a b s
  | .slt t d a b => Sys2Proof.Machine.execSlt t d a b s
  | .sltn t d a b => Sys2Proof.Machine.execSltn t d a b s
  | .seq t d a b => Sys2Proof.Machine.execSeq t d a b s
  | .sel t d a b => Sys2Proof.Machine.execSel t d a b s
  | .min t d a b => Sys2Proof.Machine.execMin t d a b s
  | .max t d a b => Sys2Proof.Machine.execMax t d a b s
  | .minn t d a b => Sys2Proof.Machine.execMinn t d a b s
  | .maxn t d a b => Sys2Proof.Machine.execMaxn t d a b s
  | .mul t d a b => Sys2Proof.Machine.execMul t d a b s
  | .mulh t d a b => Sys2Proof.Machine.execMulh t d a b s
  | .mulhn t d a b => Sys2Proof.Machine.execMulhn t d a b s
  | .div t d a b => Sys2Proof.Machine.execDiv t d a b s
  | .divn t d a b => Sys2Proof.Machine.execDivn t d a b s
  | .rem t d a b => Sys2Proof.Machine.execRem t d a b s
  | .remn t d a b => Sys2Proof.Machine.execRemn t d a b s
  | .clz t d a => Sys2Proof.Machine.execClz t d a s
  | .ctz t d a => Sys2Proof.Machine.execCtz t d a s
  | .popc t d a => Sys2Proof.Machine.execPopc t d a s
  | .addi t d a imm => Sys2Proof.Machine.execAddi t d a imm s
  | .andi t d a imm => Sys2Proof.Machine.execAndi t d a imm s
  | .ori t d a imm => Sys2Proof.Machine.execOri t d a imm s
  | .xori t d a imm => Sys2Proof.Machine.execXori t d a imm s
  | .shli t d a imm => Sys2Proof.Machine.execShli t d a imm s
  | .shri t d a imm => Sys2Proof.Machine.execShri t d a imm s
  | .srai t d a imm => Sys2Proof.Machine.execSrai t d a imm s
  | .slti t d a imm => Sys2Proof.Machine.execSlti t d a imm s
  | .movi t d hi lo => Sys2Proof.Machine.execMovi t d hi lo s
  | .movhi t d hi lo => Sys2Proof.Machine.execMovhi t d hi lo s
  | .j t off => Sys2Proof.Machine.execJ t off s
  | .jl t off => Sys2Proof.Machine.execJl t off s
  | .jr t a => Sys2Proof.Machine.execJr t a s
  | .bz t a off => Sys2Proof.Machine.execBz t a off s
  | .bnz t a off => Sys2Proof.Machine.execBnz t a off s
  | .bltz t a off => Sys2Proof.Machine.execBltz t a off s
  | .bgez t a off => Sys2Proof.Machine.execBgez t a off s
  | .loop t a rot off => Sys2Proof.Machine.execLoop t a rot off s
  | .spill t d slot => Sys2Proof.Machine.execSpill t d slot s
  | .fill t d slot => Sys2Proof.Machine.execFill t d slot s
  | .lds t d a imm => Sys2Proof.Machine.execLds t d a imm s
  | .sts t d a imm => Sys2Proof.Machine.execSts t d a imm s
  | .hset t hd a f => Sys2Proof.Machine.execHset t hd a f s
  | .hget t hd a f => Sys2Proof.Machine.execHget t hd a f s
  | .hmov t hd ha => Sys2Proof.Machine.execHmov t hd ha s
  | .hld t hd a off => Sys2Proof.Machine.execHld t hd a off s
  | .hldSpill t hd slot4 => Sys2Proof.Machine.execHldSpill t hd slot4 s
  | .hst t hd a off => Sys2Proof.Machine.execHst t hd a off s
  | .hstSpill t hd slot4 => Sys2Proof.Machine.execHstSpill t hd slot4 s
  | .hadv t hd a dim => Sys2Proof.Machine.execHadv t hd a dim s
  | .movsr t d n => Sys2Proof.Machine.execMovsr t d n s
  | .movrs t d n => Sys2Proof.Machine.execMovrs t d n s
  | .region t n => Sys2Proof.Machine.execRegion t n s
  | .waita t d a v u cond => Sys2Proof.Machine.execWaita t d a v u cond s
  | .poll t d => Sys2Proof.Machine.execPoll t d s
  | .abort t lvl => Sys2Proof.Machine.execAbort t lvl s
  | .phase t d => Sys2Proof.Machine.execPhase t d s
  | .done t => Sys2Proof.Machine.execDone t s
  | .launch t d a => Sys2Proof.Machine.execLaunch t d a s
  | .cancel t d a lvl => Sys2Proof.Machine.execCancel t d a lvl s
  | .trap t n => Sys2Proof.Machine.execTrap t n s
  | .brk t => Sys2Proof.Machine.execBrk t s
  | .eret t => Sys2Proof.Machine.execEret t s
  | .nop t => Sys2Proof.Machine.execNop t s
  | .halt t => Sys2Proof.Machine.execHalt t s
  | .pwrDecl t d len onset int => Sys2Proof.Machine.execPwrDecl t d len onset int s
  | .pwrAcq t a => Sys2Proof.Machine.execPwrAcq t a s
  | .pwrRel t a => Sys2Proof.Machine.execPwrRel t a s
  | .specBegin t hc hg wm1 off => Sys2Proof.Machine.execSpecBegin t hc hg wm1 off s
  | .specGo t => Sys2Proof.Machine.execSpecGo t s
  | .specCommit t => Sys2Proof.Machine.execSpecCommit t s
  | .specAbort t => Sys2Proof.Machine.execSpecAbort t s
  | .tlbi t a b scope => Sys2Proof.Machine.execTlbi t a b scope s
  | .vadd t hd ha hb ty rp => Sys2Proof.Machine.execVadd t hd ha hb ty rp s
  | .vsub t hd ha hb ty rp => Sys2Proof.Machine.execVsub t hd ha hb ty rp s
  | .vmul t hd ha hb ty rp => Sys2Proof.Machine.execVmul t hd ha hb ty rp s
  | .vfma t hd ha hb ty rp => Sys2Proof.Machine.execVfma t hd ha hb ty rp s
  | .vdiv t hd ha hb ty rp => Sys2Proof.Machine.execVdiv t hd ha hb ty rp s
  | .vmin t hd ha hb ty rp => Sys2Proof.Machine.execVmin t hd ha hb ty rp s
  | .vmax t hd ha hb ty rp => Sys2Proof.Machine.execVmax t hd ha hb ty rp s
  | .vabs t hd ha ty rp => Sys2Proof.Machine.execVabs t hd ha ty rp s
  | .vneg t hd ha ty rp => Sys2Proof.Machine.execVneg t hd ha ty rp s
  | .vand t hd ha hb ty rp => Sys2Proof.Machine.execVand t hd ha hb ty rp s
  | .vor t hd ha hb ty rp => Sys2Proof.Machine.execVor t hd ha hb ty rp s
  | .vxor t hd ha hb ty rp => Sys2Proof.Machine.execVxor t hd ha hb ty rp s
  | .vshl t hd ha hb ty rp => Sys2Proof.Machine.execVshl t hd ha hb ty rp s
  | .vshr t hd ha hb ty rp => Sys2Proof.Machine.execVshr t hd ha hb ty rp s
  | .vsra t hd ha hb ty rp => Sys2Proof.Machine.execVsra t hd ha hb ty rp s
  | .vcmp t un cond ha hb ty rp => Sys2Proof.Machine.execVcmp t un cond ha hb ty rp s
  | .vsel t hd ha hb ty rp => Sys2Proof.Machine.execVsel t hd ha hb ty rp s
  | .vmov t hd ha ty rp => Sys2Proof.Machine.execVmov t hd ha ty rp s
  | .vcvt t hd ha sat mode ty rp => Sys2Proof.Machine.execVcvt t hd ha sat mode ty rp s
  | .vqnt t hd ha hb ty rp => Sys2Proof.Machine.execVqnt t hd ha hb ty rp s
  | .vdqnt t hd ha hb ty rp => Sys2Proof.Machine.execVdqnt t hd ha hb ty rp s
  | .vlog2 t hd ha ty rp => Sys2Proof.Machine.execVlog2 t hd ha ty rp s
  | .vexp2 t hd ha ty rp => Sys2Proof.Machine.execVexp2 t hd ha ty rp s
  | .vrcp t hd ha ty rp => Sys2Proof.Machine.execVrcp t hd ha ty rp s
  | .vrsq t hd ha ty rp => Sys2Proof.Machine.execVrsq t hd ha ty rp s
  | .vsqrt t hd ha ty rp => Sys2Proof.Machine.execVsqrt t hd ha ty rp s
  | .vtanh t hd ha ty rp => Sys2Proof.Machine.execVtanh t hd ha ty rp s
  | .vclass t ha set ty rp => Sys2Proof.Machine.execVclass t ha set ty rp s
  | .vredSum t ha ty rp => Sys2Proof.Machine.execVredSum t ha ty rp s
  | .vredMax t hd ha ty rp => Sys2Proof.Machine.execVredMax t hd ha ty rp s
  | .vredMin t hd ha ty rp => Sys2Proof.Machine.execVredMin t hd ha ty rp s
  | .vredMaxi t hd rp => Sys2Proof.Machine.execVredMaxi t hd rp s
  | .vxrd t hd ty rp => Sys2Proof.Machine.execVxrd t hd ty rp s
  | .vscan t hd ha ty rp => Sys2Proof.Machine.execVscan t hd ha ty rp s
  | .vperm t hd ha hb ty rp => Sys2Proof.Machine.execVperm t hd ha hb ty rp s
  | .vbcast t hd a ty rp => Sys2Proof.Machine.execVbcast t hd a ty rp s
  | .viota t hd ty rp => Sys2Proof.Machine.execViota t hd ty rp s
  | .vrng t hd ha hb rp => Sys2Proof.Machine.execVrng t hd ha hb rp s
  | .vexpmax t hd ha ty rp => Sys2Proof.Machine.execVexpmax t hd ha ty rp s
  | .vmaxi t ha rp => Sys2Proof.Machine.execVmaxi t ha rp s
  | .mpush t => Sys2Proof.Machine.execMpush t s
  | .minv t => Sys2Proof.Machine.execMinv t s
  | .mpop t => Sys2Proof.Machine.execMpop t s
  | .mset t d fl q => Sys2Proof.Machine.execMset t d fl q s
  | .mget t => Sys2Proof.Machine.execMget t s
  | .vskip t n => Sys2Proof.Machine.execVskip t n s
  | .mlease t => Sys2Proof.Machine.execMlease t s
  | .mrel t => Sys2Proof.Machine.execMrel t s
  | .mancScan t ha => Sys2Proof.Machine.execMancScan t ha s
  | .mancLoad t ha => Sys2Proof.Machine.execMancLoad t ha s
  | .mancColumn t g ha q => Sys2Proof.Machine.execMancColumn t g ha q s
  | .mclr t acc => Sys2Proof.Machine.execMclr t acc s
  | .mma t acc g ha q sm sn sk => Sys2Proof.Machine.execMma t acc g ha q sm sn sk s
  | .mepi t acc hd act bias sm sn scale clr => Sys2Proof.Machine.execMepi t acc hd act bias sm sn scale clr s
  | .mtopk t acc hd emit new k hx sm sn base => Sys2Proof.Machine.execMtopk t acc hd emit new k hx sm sn base s
  | .rdacc t acc hd sm sn => Sys2Proof.Machine.execRdacc t acc hd sm sn s
  | .mstatTile t acc hd which => Sys2Proof.Machine.execMstatTile t acc hd which s
  | .mstatRowanc t hd => Sys2Proof.Machine.execMstatRowanc t hd s
  | .mstatDesc t g hd => Sys2Proof.Machine.execMstatDesc t g hd s
  | .mstatColanc t g hd q => Sys2Proof.Machine.execMstatColanc t g hd q s
  | .relax t acc g hr f hz hu der cnt warm => Sys2Proof.Machine.execRelax t acc g hr f hz hu der cnt warm s
  | .relaxB t acc hr hz hu hd cnt g warm => Sys2Proof.Machine.execRelaxB t acc hr hz hu hd cnt g warm s
  | .rdahr t hd => Sys2Proof.Machine.execRdahr t hd s
  | .wrahr t ha => Sys2Proof.Machine.execWrahr t ha s
  | .accept t hc hg mode e => Sys2Proof.Machine.execAccept t hc hg mode e s
  | .ldT t h a b fa fv => Sys2Proof.Machine.execLdT t h a b fa fv s
  | .ldX t h a b hx fa fv => Sys2Proof.Machine.execLdX t h a b hx fa fv s
  | .ldGr t h a b hx fa fv => Sys2Proof.Machine.execLdGr t h a b hx fa fv s
  | .ldG t h a b e fa fv g => Sys2Proof.Machine.execLdG t h a b e fa fv g s
  | .ldGt t h a b e fa fv g => Sys2Proof.Machine.execLdGt t h a b e fa fv g s
  | .ldSp t h a fa fv => Sys2Proof.Machine.execLdSp t h a fa fv s
  | .ldNet t h a b e fa fv => Sys2Proof.Machine.execLdNet t h a b e fa fv s
  | .pref t a b => Sys2Proof.Machine.execPref t a b s
  | .linkRecv t h a b fa fv => Sys2Proof.Machine.execLinkRecv t h a b fa fv s
  | .stT t h a b fa fv => Sys2Proof.Machine.execStT t h a b fa fv s
  | .stPart t h a b fa fv => Sys2Proof.Machine.execStPart t h a b fa fv s
  | .stX t h a b hx fa fv => Sys2Proof.Machine.execStX t h a b hx fa fv s
  | .stApp t h a fa fv => Sys2Proof.Machine.execStApp t h a fa fv s
  | .stAppQuery t a d => Sys2Proof.Machine.execStAppQuery t a d s
  | .stRmt t h a e fa fv => Sys2Proof.Machine.execStRmt t h a e fa fv s
  | .stMc t h a b e fa fv die => Sys2Proof.Machine.execStMc t h a b e fa fv die s
  | .stNet t h a b e fa fv => Sys2Proof.Machine.execStNet t h a b e fa fv s
  | .linkSend t h a b fa fv => Sys2Proof.Machine.execLinkSend t h a b fa fv s
  | .linkRed t h a b fa fv rq inn => Sys2Proof.Machine.execLinkRed t h a b fa fv rq inn s
  | .migr t a b fa fv => Sys2Proof.Machine.execMigr t a b fa fv s
  | .badd t a b fa fv ty => Sys2Proof.Machine.execBadd t a b fa fv ty s
  | .baddStream t h a fa fv ty => Sys2Proof.Machine.execBaddStream t h a fa fv ty s
  | .band t a b fa fv ty => Sys2Proof.Machine.execBand t a b fa fv ty s
  | .bandStream t h a fa fv ty => Sys2Proof.Machine.execBandStream t h a fa fv ty s
  | .bor t a b fa fv ty => Sys2Proof.Machine.execBor t a b fa fv ty s
  | .borStream t h a fa fv ty => Sys2Proof.Machine.execBorStream t h a fa fv ty s
  | .bxor t a b fa fv ty => Sys2Proof.Machine.execBxor t a b fa fv ty s
  | .bxorStream t h a fa fv ty => Sys2Proof.Machine.execBxorStream t h a fa fv ty s
  | .bmin t a b fa fv ty => Sys2Proof.Machine.execBmin t a b fa fv ty s
  | .bminStream t h a fa fv ty => Sys2Proof.Machine.execBminStream t h a fa fv ty s
  | .bmax t a b fa fv ty => Sys2Proof.Machine.execBmax t a b fa fv ty s
  | .bmaxStream t h a fa fv ty => Sys2Proof.Machine.execBmaxStream t h a fa fv ty s
  | .bminn t a b fa fv ty => Sys2Proof.Machine.execBminn t a b fa fv ty s
  | .bminnStream t h a fa fv ty => Sys2Proof.Machine.execBminnStream t h a fa fv ty s
  | .bmaxn t a b fa fv ty => Sys2Proof.Machine.execBmaxn t a b fa fv ty s
  | .bmaxnStream t h a fa fv ty => Sys2Proof.Machine.execBmaxnStream t h a fa fv ty s
  | .bfmin t a b fa fv => Sys2Proof.Machine.execBfmin t a b fa fv s
  | .bfminStream t h a fa fv => Sys2Proof.Machine.execBfminStream t h a fa fv s
  | .bfmax t a b fa fv => Sys2Proof.Machine.execBfmax t a b fa fv s
  | .bfmaxStream t h a fa fv => Sys2Proof.Machine.execBfmaxStream t h a fa fv s
  | .bmaxi t a b fa fv => Sys2Proof.Machine.execBmaxi t a b fa fv s
  | .bmaxiStream t h a b fa fv => Sys2Proof.Machine.execBmaxiStream t h a b fa fv s
  | .bxadd t a b fa fv => Sys2Proof.Machine.execBxadd t a b fa fv s
  | .bxaddStream t h a fa fv => Sys2Proof.Machine.execBxaddStream t h a fa fv s
  | .bxrd t a e fa fv clr => Sys2Proof.Machine.execBxrd t a e fa fv clr s
  | .bxrdStream t h a fa fv clr => Sys2Proof.Machine.execBxrdStream t h a fa fv clr s
  | .bfaa t a b e fa fv ty => Sys2Proof.Machine.execBfaa t a b e fa fv ty s
  | .bfaaStream t h a fa fv ty => Sys2Proof.Machine.execBfaaStream t h a fa fv ty s
  | .bcas t a b e fa fv ty => Sys2Proof.Machine.execBcas t a b e fa fv ty s
  | .bld t a e fa fv ty => Sys2Proof.Machine.execBld t a e fa fv ty s
  | .bldStream t h a fa fv ty => Sys2Proof.Machine.execBldStream t h a fa fv ty s
  | .bst t a b fa fv ty => Sys2Proof.Machine.execBst t a b fa fv ty s
  | .bstStream t h a fa fv ty => Sys2Proof.Machine.execBstStream t h a fa fv ty s
  | .bhist t a b fa fv => Sys2Proof.Machine.execBhist t a b fa fv s
  | .bhistStream t h a b fa fv sh => Sys2Proof.Machine.execBhistStream t h a b fa fv sh s
  | .bpfx t a b e fa fv => Sys2Proof.Machine.execBpfx t a b e fa fv s
  | .baxpy t a b e fa fv ty => Sys2Proof.Machine.execBaxpy t a b e fa fv ty s
  | .baxpyStream t h a e fa fv ty => Sys2Proof.Machine.execBaxpyStream t h a e fa fv ty s
  | .waitaWake c => Sys2Proof.Machine.execWaitaWake c s
  | .decodeFault c => Sys2Proof.Machine.execDecodeFault c s
  | .instrComplete c e => Sys2Proof.Machine.execInstrComplete c e s
  | .signalLatchDrain c dir => Sys2Proof.Machine.execSignalLatchDrain c dir s
  | .leaseGrant k => Sys2Proof.Machine.execLeaseGrant k s
  | .bankPerform bank => Sys2Proof.Machine.execBankPerform bank s
  | .remoteDeliver src dst => Sys2Proof.Machine.execRemoteDeliver src dst s
  | .dispatch p => Sys2Proof.Machine.execDispatch p s
  | .countRead p q => Sys2Proof.Machine.execCountRead p q s
  | .unitEnd c => Sys2Proof.Machine.execUnitEnd c s
  | .phaseClosing p => Sys2Proof.Machine.execPhaseClosing p s
  | .phaseClose p => Sys2Proof.Machine.execPhaseClose p s
  | .clusterWake k => Sys2Proof.Machine.execClusterWake k s
  | .slotBoundary die => Sys2Proof.Machine.execSlotBoundary die s
  | .declAdmit c => Sys2Proof.Machine.execDeclAdmit c s
  | .declActivate c => Sys2Proof.Machine.execDeclActivate c s
  | .declLapse c serial => Sys2Proof.Machine.execDeclLapse c serial s
  | .undeclThrottleEnd k => Sys2Proof.Machine.execUndeclThrottleEnd k s
  | .sagHoldEnd die => Sys2Proof.Machine.execSagHoldEnd die s
  | .collOffer c serial => Sys2Proof.Machine.execCollOffer c serial s
  | .collMissing c serial => Sys2Proof.Machine.execCollMissing c serial s
  | .packageReset => Sys2Proof.Machine.execPackageReset s
  | .linkSlotBoundary => Sys2Proof.Machine.execLinkSlotBoundary s
  | .relaxIteration c => Sys2Proof.Machine.execRelaxIteration c s
  | .tableWalk c va => Sys2Proof.Machine.execTableWalk c va s
  | .load c e => Sys2Proof.Machine.execLoad c e s
  | .land c e => Sys2Proof.Machine.execLand c e s
  | .copyComplete c e => Sys2Proof.Machine.execCopyComplete c e s
  | .bankSend c => Sys2Proof.Machine.execBankSend c s
  | .tlbiMark c e => Sys2Proof.Machine.execTlbiMark c e s
  | .migrMove c => Sys2Proof.Machine.execMigrMove c s
  | .coreStop c x => Sys2Proof.Machine.execCoreStop c x s
  | .pkRelease p seq => Sys2Proof.Machine.execPkRelease p seq s
  | .pkFail p seq => Sys2Proof.Machine.execPkFail p seq s
  | .preemptAbort c => Sys2Proof.Machine.execPreemptAbort c s
  | .partitionSwap p => Sys2Proof.Machine.execPartitionSwap p s
  | .swapContext p tenant => Sys2Proof.Machine.execSwapContext p tenant s
  | .jobStart p job => Sys2Proof.Machine.execJobStart p job s
  | .phaseAdv p => Sys2Proof.Machine.execPhaseAdv p s
  | .registerWrite r v => Sys2Proof.Machine.execRegisterWrite r v s
  | .enrLoRead c d => Sys2Proof.Machine.execEnrLoRead c d s
  | .clusterGate k => Sys2Proof.Machine.execClusterGate k s
  | .sagEvent die => Sys2Proof.Machine.execSagEvent die s
  | .thermalRead readings => Sys2Proof.Machine.execThermalRead readings s
  | .energyUpdate uj => Sys2Proof.Machine.execEnergyUpdate uj s
  | .collRecord x port => Sys2Proof.Machine.execCollRecord x port s
  | .report m => Sys2Proof.Machine.execReport m s
  | .meas m => Sys2Proof.Machine.execMeas m s
  | .ident m => Sys2Proof.Machine.execIdent m s
  | .rwrite m => Sys2Proof.Machine.execRwrite m s
  | .rboot m => Sys2Proof.Machine.execRboot m s
  | .smbSetPointer v => Sys2Proof.Machine.execSmbSetPointer v s
  | .smbBlockWrite bs => Sys2Proof.Machine.execSmbBlockWrite bs s
  | .smbBlockRead n => Sys2Proof.Machine.execSmbBlockRead n s
  | .smbCommand v => Sys2Proof.Machine.execSmbCommand v s
  | .smbStatus => Sys2Proof.Machine.execSmbStatus s
  | .dmaWrite port rid va bs => Sys2Proof.Machine.execDmaWrite port rid va bs s
  | .dmaRead port rid va n => Sys2Proof.Machine.execDmaRead port rid va n s
  | .cardDeliver port rid desc tag bs => Sys2Proof.Machine.execCardDeliver port rid desc tag bs s
  | .portTransmit port rid desc => Sys2Proof.Machine.execPortTransmit port rid desc s
  | .hqStage q off bs => Sys2Proof.Machine.execHqStage q off bs s
  | .hqPost q v => Sys2Proof.Machine.execHqPost q v s
  | .hqTxc q => Sys2Proof.Machine.execHqTxc q s
  | .acLoad ac va n => Sys2Proof.Machine.execAcLoad ac va n s
  | .acStore ac va bs => Sys2Proof.Machine.execAcStore ac va bs s
  | .acTlbi ac => Sys2Proof.Machine.execAcTlbi ac s
  | .bpBadd ac ty => Sys2Proof.Machine.execBpBadd ac ty s
  | .bpBand ac ty => Sys2Proof.Machine.execBpBand ac ty s
  | .bpBor ac ty => Sys2Proof.Machine.execBpBor ac ty s
  | .bpBxor ac ty => Sys2Proof.Machine.execBpBxor ac ty s
  | .bpBmin ac ty => Sys2Proof.Machine.execBpBmin ac ty s
  | .bpBmax ac ty => Sys2Proof.Machine.execBpBmax ac ty s
  | .bpBminn ac ty => Sys2Proof.Machine.execBpBminn ac ty s
  | .bpBmaxn ac ty => Sys2Proof.Machine.execBpBmaxn ac ty s
  | .bpBfmin ac ty => Sys2Proof.Machine.execBpBfmin ac ty s
  | .bpBfmax ac ty => Sys2Proof.Machine.execBpBfmax ac ty s
  | .bpBmaxi ac ty => Sys2Proof.Machine.execBpBmaxi ac ty s
  | .bpBxadd ac ty => Sys2Proof.Machine.execBpBxadd ac ty s
  | .bpBxrd ac ty clr => Sys2Proof.Machine.execBpBxrd ac ty clr s
  | .bpBfaa ac ty => Sys2Proof.Machine.execBpBfaa ac ty s
  | .bpBcas ac ty => Sys2Proof.Machine.execBpBcas ac ty s
  | .bpBld ac ty => Sys2Proof.Machine.execBpBld ac ty s
  | .bpBst ac ty => Sys2Proof.Machine.execBpBst ac ty s
  | .bpBhist ac ty => Sys2Proof.Machine.execBpBhist ac ty s
  | .bpBpfx ac ty => Sys2Proof.Machine.execBpBpfx ac ty s
  | .bpBaxpy ac ty => Sys2Proof.Machine.execBpBaxpy ac ty s
  | .lpLaunch ac => Sys2Proof.Machine.execLpLaunch ac s
  | .caRead ac => Sys2Proof.Machine.execCaRead ac s
  | .caWrite ac => Sys2Proof.Machine.execCaWrite ac s
  | .srRead ac => Sys2Proof.Machine.execSrRead ac s
  | .srWrite ac => Sys2Proof.Machine.execSrWrite ac s
  | .linkSendSlot c => Sys2Proof.Machine.execLinkSendSlot c s
  | .linkHop x port => Sys2Proof.Machine.execLinkHop x port s
  | .linkArrive x port => Sys2Proof.Machine.execLinkArrive x port s
  | .linkRedCombine c => Sys2Proof.Machine.execLinkRedCombine c s
  | .scrub w => Sys2Proof.Machine.execScrub w s
  | .storedBitFailure w correctable => Sys2Proof.Machine.execStoredBitFailure w correctable s
  | .partitionCreation p k dbg => Sys2Proof.Machine.execPartitionCreation p k dbg s
  | .coreReset c => Sys2Proof.Machine.execCoreReset c s

end Sys2Proof.Machine
end

