-- ==== Sys2Proof/Machine/Step.lean ====
section
/-!
DEFINITION. Sys2Proof/Machine/Step.lean: one step of the package. A schedule asks for the FE of a core or for an event
(`agenda`); without one the streams of the busy cores and what waits around them take turns (log entry 2). At every step time
passes (log entry 14).
-/

namespace Sys2Proof.Machine
open Sys2Proof

/-- What a step does: fetch and run an instruction of a core, an event, or nothing. -/
inductive Todo where
  | fetch (c : Nat)
  | ev (i : Instr)
  | idle
  deriving DecidableEq, Repr

/-- What the FE of a core does next. -/
def State.feTodo (s : State) (c : Nat) : Todo :=
  let k := s.core c
  if k.halting.isSome then .idle
  else match k.mode with
  | .running => match k.sleep with
    | .awake => .fetch c
    | .waita .. => .ev (.waitaWake c)
    | .acq .. => .ev (.declActivate c)
    | .decl .. => .ev (.declAdmit c)
  | .drain _ => if k.idle && decide (k.drained ≤ s.cycOf c) then .ev (.unitEnd c) else .idle
  | _ => .idle
/-- What an engine of a core does next; the next iteration of a RELAX begins when the last has taken its cycles (R237). A core that
stops goes on with what has begun (R247); a command in flight that can end does (R25, R173, R280, R418). -/
def State.engTodo (s : State) (c : Nat) (e : Eng) : Todo :=
  let k := s.core c
  if k.halting.isSome then (if e = .ld && k.busy then .ev (.instrComplete c e) else .idle)
  else if e ≠ .ex && k.busy && k.eng.flight.any (fun en => en.eng == e && (s.flightGoes c en || (en.mark == .await && (s.recvOf c en).isSome)))
    then .ev (.instrComplete c e)
  else match k.queue e with
  | [] => .idle
  | en :: _ =>
    if k.busy && !k.holds e && k.headReady e en && !(en.relaxing && decide (s.cycOf c < k.engAt e)) then .ev (.instrComplete c e)
    else .idle
/-- A channel whose head can be delivered. -/
def State.chanReady (s : State) : Option Nat :=
  s.cores.findSome? (fun d => (d.2.inbox.find? (fun q => match q.2 with
    | [] => false
    | e :: _ => (deliverEl s d.1 e).isSome)).map (fun q => chanNo q.1 d.1))
/-- A dispatch would do something. -/
def State.canDispatch (s : State) (p : Nat) : Bool :=
  let s1 := s.upPart p Part.fillQueues
  !(s1.part p).closing && s1.freeCores p ≠ [] &&
  match (s1.part p).selectQueue with
  | none => false
  | some (q, pt) => match pt.headLaunch q with
    | none => false
    | some l => pt.inScope l l.takeUnit.1.1 || (match s1.place p l with
      | .core _ => !s1.argsHeld p l
      | .wake k => !(s1.clu k).waking
      | .none => false)
/-- A queue whose head's counts have not been read and can be. -/
def State.unread (s : State) (p : Nat) : Option Nat :=
  let pt := (s.part p).fillQueues
  if pt.closing then none
  else (upto 16).find? (fun q => match pt.headLaunch q with
    | some l => l.total.isNone && (pt.lineOn l || (match s.counts p l with | .error .hold => false | _ => true))
    | none => false)
/-- What the core that moves, its cluster and its die have come to: latches, leases, declarations, throttles, gates. -/
def State.nearTodo (s : State) : List Instr :=
  let c := s.cur
  let k := s.core c
  let u := s.clu (c / 4)
  let d := s.die (c / 64)
  (([Dir.feLd, .ldEx, .exSt, .stFe, .ldFe, .exLd, .stEx, .feSt].filter (fun x =>
    k.held x && decide ((k.tok x).length < 15))).map (fun x => Instr.signalLatchDrain c x)) ++
  (if (u.heldBy d.cyc).isNone && !u.waiting.isEmpty then [Instr.leaseGrant (c / 4)] else []) ++
  (k.decls.filter (fun x => x.out && s.lapsed c x)).map (fun x => Instr.declLapse c x.serial) ++
  ((s.outs c).filter (fun x => x.coll ≠ 0 && x.offer == 0 && (match s.startOf c x with
    | some g => decide (g ≤ s.granule c + 48)
    | none => false))).map (fun x => Instr.collOffer c x.serial) ++
  ((s.outs c).filter (s.lacks c)).map (fun x => Instr.collMissing c x.serial) ++
  (if u.und && decide (u.undTo ≤ d.cyc) then [Instr.undeclThrottleEnd (c / 4)] else []) ++
  (if d.sag && decide (d.sagAt + 256 ≤ d.cyc) then [Instr.sagHoldEnd (c / 64)] else [])
/-- What the package has come to: banks, channels, power gates, the dispatcher, phases. -/
def State.farTodo (s : State) : List Instr :=
  let ps := s.parts.map (·.1)
  let ks := s.clusters.filter (fun x => x.2.gated && x.2.waking && decide (x.2.idleFrom + 4200 ≤ (s.die (x.1 / 16)).cyc))
  (if s.lagBanks then [] else (s.fifos.filter (fun f => !f.2.isEmpty)).map (fun f => Instr.bankPerform f.1)) ++
  (if s.lagDeliver then [] else match s.chanReady with
    | some q => [Instr.remoteDeliver (q / 256) (q % 256)]
    | none => []) ++
  ks.map (fun x => Instr.clusterWake x.1) ++
  (s.clusters.filter (fun x => !x.2.gated && decide (x.2.idleFrom + 4096 ≤ (s.die (x.1 / 16)).cyc) && s.cluIdle x.1)).map
    (fun x => Instr.clusterGate x.1) ++
  (ps.filter s.mayClose).map (fun p => Instr.phaseClosing p) ++
  (ps.filter (fun p => (s.part p).closing && decide ((s.logAsk p 0 (s.part p).phase).2 ≠ .wait))).map (fun p => Instr.phaseClose p) ++
  ps.filterMap (fun p => (s.unread p).map (fun q => Instr.countRead p q)) ++
  (ps.filter s.canDispatch).map (fun p => Instr.dispatch p)
/-- What a turn asks for: 0 the FE, 1 LD, 2 EX and 3 ST of the core that moves, 4 what waits around the cores. An FE that is
ahead of the clock waits for it. -/
def State.turnTodo (s : State) : Todo :=
  match s.turn with
  | 0 => if (s.core s.cur).live && decide (s.cycOf s.cur < (s.core s.cur).eng.cyc) then .idle else s.feTodo s.cur
  | 1 => s.engTodo s.cur .ld
  | 2 => s.engTodo s.cur .ex
  | 3 => s.engTodo s.cur .st
  | _ => match (s.nearTodo ++ s.farTodo).head? with
    | some i => .ev i
    | none => .idle
/-- What a step does: the schedule first, then the boot ROM, then whose turn it is. An instruction on the agenda is not an event:
it does nothing. -/
def State.todo (s : State) : Todo :=
  match s.agenda with
  | .run c :: _ => s.feTodo c
  | .ev i :: _ => if i.isEvent then .ev i else .idle
  | [] => if s.ik.boot = .rom then .ev .packageReset else s.turnTodo
/-- The next core in package order that runs a unit. -/
def State.nextCore (s : State) : Nat :=
  let ks := (s.cores.filter (fun x => x.2.run.isSome)).map (·.1)
  ((ks.find? (fun c => s.cur < c)).orElse (fun _ => ks.head?)).getD s.cur
/-- The schedule moves on. -/
def State.onward (s : State) : State :=
  match s.agenda with
  | .run c :: t => { s with agenda := t, cur := c }
  | .ev _ :: t => { s with agenda := t }
  | [] =>
    if s.ik.boot = .rom then s
    else if s.turn < 4 then { s with turn := s.turn + 1 }
    else { s with turn := 0, cur := s.nextCore }
/-- The master cycles that a step lets pass (log entry 14). A step that a schedule asks for takes one, or as many as the
named core's FE is ahead of the clock; otherwise one passes when every busy core has had its turns. -/
def State.elapse (s : State) : Nat :=
  match s.agenda with
  | .run c :: _ => max 1 ((s.core c).eng.cyc - s.cycOf c)
  | .ev _ :: _ => 1
  | [] => if s.ik.boot ≠ .rom ∧ s.turn = 4 ∧ s.nextCore ≤ s.cur then 1 else 0
/-- The state that the instruction or event of a step acts on: time has passed. In a turn of its own, a core moves. -/
def State.moving (s : State) : State :=
  let s1 := s.onward
  let s2 := match s.agenda with
    | [] => if s.turn < 4 then { s1 with cur := s.cur } else s1
    | _ => s1
  (s2.pass s.elapse).retryAll
/-- A core whose FE has waited goes on in the present cycle. -/
def Core.caught (k : Core) (now : Nat) : Core := { k with eng := { k.eng with cyc := max k.eng.cyc now } }
/-- Fetching and running the instruction at PCFE of a core. -/
def State.fetchRun (s : State) (c : Nat) : Host.Outcome State Fault Refusal :=
  let f := s.fetch c
  let s1 := (s.codeRead c).upCore c (fun k => (k.caught (s.cycOf c)).withItlb f.2)
  match f.1 with
  | .got i => exec i s1
  | .stop _ => exec (.decodeFault c) s
  | .hold => .next s1
  | .fault z => .fault z
/-- One step. -/
def step (s : State) : Host.Outcome State Fault Refusal :=
  match s.todo with
  | .fetch c => s.moving.fetchRun c
  | .ev i => exec i s.moving
  | .idle => .next s.moving

/-! ### Placing an instruction where the next step fetches -/

/-- A leaf of the code page whose frame is `fo`, with R, W and X, in segment 0. -/
def codeLeaf (fo : Nat) : W64 := BitVec.ofNat 64 (2 ^ 63 + 2 ^ 62 + 2 ^ 60 + 2 ^ 59 + 2 ^ 58 + fo)
/-- The physical address of the code that a core's next step fetches. -/
def codeBase : Nat := 0x100000
/-- The segment entry of the code: valid, resident, in HBM, two pages. -/
def codeSeg : List Byte := toLE 8 (2 ^ 63 + codeBase) ++ toLE 8 2 ++ toLE 8 0 ++ toLE 8 0
/-- The core that runs the next instruction: its unit, privileged and persistent when it runs none, and the translations of its
code. -/
def Core.placed (k : Core) : Core :=
  let asid := bits (k.getSr 0x220) 15 0
  let pg := k.r.pc.toNat / 65536
  { k with
    mode := .running, sleep := .awake
    run := some (k.run.getD ⟨0, 0, 0, 0, 0, true, true, 0, 0, false, false, none⟩)
    itlb := ((asid, pg * 4), codeLeaf 0) :: ((asid, (pg + 1) * 4), codeLeaf 1) :: k.itlb }
/-- The state with an instruction, given by its table word, where the next step fetches: the package is booted, the core that
moves runs a unit of a partition, its code pages are mapped, the words stand in the snapshot, and the agenda asks for that
core's FE (log entry 18). -/
def State.withFetchWord (s : State) (nbits w : Nat) : State :=
  let c := s.cur
  let k := (s.core c).placed
  let p := if s.partNo c = noPart then 0 else s.partNo c
  let pt := s.part p
  let pt1 := ((if s.partNo c = noPart then { pt with clusters := sins pt.clusters (c / 4) } else pt).setSr 0x222 0x1000000).setSr
    0x223 1
  let code := codeBase + k.r.pc.toNat % 65536
  { s with
    agenda := [.run c]
    ik := { s.ik with boot := .up }
    mem := wrL s.mem 0x1000000 codeSeg
    badMem := s.badMem.filter (fun x => !(x.arr == .memory && decide (code < 8 * x.idx + 8 ∧ 8 * x.idx < code + 8)))
    cores := mset s.cores c k
    parts := mset s.parts p { pt1 with snap := wrL pt1.snap code (tableBytes nbits w) } }

end Sys2Proof.Machine
end

