-- ==== Sys2Proof/Safety.lean ====
section
/-!
DEFINITION. Sys2Proof/Safety.lean: the terms in which claims are stated: memory in its canonical form, an FE instruction that
starts, and an instruction that is routed to an engine and begins there in the same step.
-/

namespace Sys2Proof.Machine
open Sys2Proof

/-- Committed memory is in its canonical form: addresses rise strictly and no listed byte reads as an unlisted one does
(R275, log entry 1). -/
def State.MemInv (s : State) : Prop := Memory.wf s.mem = true

/-! ### FE instructions -/

/-- The FE instruction i starts on the core that moves: the core runs a unit and does not sleep, i passes the privilege check
the special-register and the speculation checks of decoding (R60, R61, R348), its tokens, latches and registers allow a start (R22,
R24, R26), no token it takes is uncorrectable (R419), and in debug mode no register it reads is pending (R39). The answer is the core as the instruction finds it, with what was due written and PCFE
behind the instruction, and the cycle of its start. -/
def State.feBegins (s : State) (i : Instr) : Option (Core × Nat) :=
  let k := s.core s.cur
  if k.live && !k.decodeWaits i && (k.feStop i).isNone then
    match k.feStart i with
    | none => none
    | some (k1, t) =>
      if (k1.earlyReg t (sReads i) (hRead i)).isNone then some ({ (k1.skip i.size) with eng := { k1.eng with cyc := t + 1 } }, t)
      else none
  else none
/-- The state after an FE instruction i that started in cycle t and left its core as k: its waits are spent and its signals
pushed at its completion (R24, R25). -/
def State.feEnds (s : State) (i : Instr) (t : Nat) (k : Core) : State :=
  s.setCore s.cur (k.feDone (tokOf i) (t + feLat i))

/-! ### Routed instructions -/

/-- The operand checks that the FE makes when it routes an instruction (R60, R182, R296, and the entries). -/
def feCheck : Instr → Nat → Entry → State → Option Stop
  | .mancScan _ _ => fun _ en _ => mancScanCheck en
  | .mancLoad _ _ => fun _ en _ => mancVecCheck en
  | .mancColumn _ g _ _ => fun c en s => firstStop [mancVecCheck en, slotWin s c g]
  | .mma _ _ g _ _ _ _ _ => fun c en s => firstStop [mmaCheck en, slotWin s c g]
  | .mepi _ _ _ _ bias _ _ _ _ => fun _ en _ => mepiCheck bias en
  | .mtopk _ _ _ emit _ k _ _ _ _ => fun _ en _ => mtopkCheck emit k en
  | .rdacc _ _ _ _ _ => fun _ en _ => rdaccCheck en
  | .mstatTile _ _ _ which => fun _ en _ => mstatCheck (if which = 0 then 64 else 256) en
  | .mstatRowanc _ _ => fun _ en _ => mstatCheck 256 en
  | .mstatDesc _ g _ => fun c en s => firstStop [mstatCheck 64 en, slotWin s c g]
  | .mstatColanc _ g _ _ => fun c en s => firstStop [mstatCheck 256 en, slotWin s c g]
  | .relax _ acc g _ f _ _ der cnt warm => fun c en s => firstStop [relaxCheck ⟨false, acc, g, f, der.isSome, cnt.isSome, warm⟩ en, slotWin s c g]
  | .relaxB _ acc _ _ _ _ cnt g warm => fun c en s => firstStop [relaxCheck ⟨true, acc, g, .identity, true, cnt.isSome, warm⟩ en, slotWin s c g]
  | .rdahr _ _ => fun _ en _ => ahrCheck en
  | .wrahr _ _ => fun _ en _ => ahrCheck en
  | .accept _ _ _ mode _ => fun c en s => acceptCheck (s.core c) mode en
  | .ldT _ _ _ _ _ _ => fun c en s => ldTCheck s c en
  | .ldX _ _ _ _ _ _ _ => fun c en s => firstStop [ldTCheck s c en, indexCheck en]
  | .ldGr _ _ _ _ _ _ _ => fun c en s => ldGrCheck s c en
  | .ldG _ _ _ _ _ _ _ g => fun c en s => firstStop [glazeCheck s c false en, glazeWin s c g en]
  | .ldGt _ _ _ _ _ _ _ g => fun c en s => firstStop [glazeCheck s c true en, glazeWin s c g en]
  | .ldSp _ _ _ _ _ => fun _ en _ => ldSpCheck en
  | .ldNet _ _ _ _ _ _ _ => fun c en s => netCheck s c en
  | .linkRecv _ _ _ _ _ _ => fun c en s => firstStop [idemStop (s.core c) en 0, recvCheck en]
  | .stT _ _ _ _ _ _ => fun c en s => stTCheck s c false en
  | .stPart _ _ _ _ _ _ => fun c en s => stTCheck s c false en
  | .stX _ _ _ _ _ _ _ => fun c en s => firstStop [stTCheck s c true en, indexCheck en]
  | .stApp _ _ _ _ _ => fun c en s => stAppCheck s c en
  | .stRmt _ _ _ _ _ _ => fun c en s => stRmtCheck s c en
  | .stMc _ _ _ _ _ _ _ die => fun c en s => stMcCheck s c die en
  | .stNet _ _ _ _ _ _ _ => fun c en s => netCheck s c en
  | .linkSend _ _ _ _ _ _ => fun c en s => firstStop [idemStop (s.core c) en 0, linkCheck s c tileBytes false en]
  | .linkRed _ h _ _ _ _ rq _ => fun c en s => firstStop [idemStop (s.core c) en 0, linkCheck s c (fun h => redBytes h rq) true en]
  | .migr _ _ _ _ _ => fun _ en _ => firstStop [
      stopIf ((en.s 1).toNat % 65536 ≠ 0) ⟨.align, .fe, en.s 1, 0⟩, flagStop en.i (en.s 3)]
  | .badd _ _ _ _ _ ty => fun c en s => bankCheck ⟨.add, ty, false, 0, false, 0⟩ (s.core c) en
  | .baddStream _ _ _ _ _ ty => fun c en s => bankCheck ⟨.add, ty, false, 0, true, 0⟩ (s.core c) en
  | .band _ _ _ _ _ ty => fun c en s => bankCheck ⟨.band, ty, false, 0, false, 0⟩ (s.core c) en
  | .bandStream _ _ _ _ _ ty => fun c en s => bankCheck ⟨.band, ty, false, 0, true, 0⟩ (s.core c) en
  | .bor _ _ _ _ _ ty => fun c en s => bankCheck ⟨.bor, ty, false, 0, false, 0⟩ (s.core c) en
  | .borStream _ _ _ _ _ ty => fun c en s => bankCheck ⟨.bor, ty, false, 0, true, 0⟩ (s.core c) en
  | .bxor _ _ _ _ _ ty => fun c en s => bankCheck ⟨.bxor, ty, false, 0, false, 0⟩ (s.core c) en
  | .bxorStream _ _ _ _ _ ty => fun c en s => bankCheck ⟨.bxor, ty, false, 0, true, 0⟩ (s.core c) en
  | .bmin _ _ _ _ _ ty => fun c en s => bankCheck ⟨.min, ty, false, 0, false, 0⟩ (s.core c) en
  | .bminStream _ _ _ _ _ ty => fun c en s => bankCheck ⟨.min, ty, false, 0, true, 0⟩ (s.core c) en
  | .bmax _ _ _ _ _ ty => fun c en s => bankCheck ⟨.max, ty, false, 0, false, 0⟩ (s.core c) en
  | .bmaxStream _ _ _ _ _ ty => fun c en s => bankCheck ⟨.max, ty, false, 0, true, 0⟩ (s.core c) en
  | .bminn _ _ _ _ _ ty => fun c en s => bankCheck ⟨.minn, ty, false, 0, false, 0⟩ (s.core c) en
  | .bminnStream _ _ _ _ _ ty => fun c en s => bankCheck ⟨.minn, ty, false, 0, true, 0⟩ (s.core c) en
  | .bmaxn _ _ _ _ _ ty => fun c en s => bankCheck ⟨.maxn, ty, false, 0, false, 0⟩ (s.core c) en
  | .bmaxnStream _ _ _ _ _ ty => fun c en s => bankCheck ⟨.maxn, ty, false, 0, true, 0⟩ (s.core c) en
  | .bfmin _ _ _ _ _ => fun c en s => bankCheck ⟨.fmin, .f, false, 0, false, 0⟩ (s.core c) en
  | .bfminStream _ _ _ _ _ => fun c en s => bankCheck ⟨.fmin, .f, false, 0, true, 0⟩ (s.core c) en
  | .bfmax _ _ _ _ _ => fun c en s => bankCheck ⟨.fmax, .f, false, 0, false, 0⟩ (s.core c) en
  | .bfmaxStream _ _ _ _ _ => fun c en s => bankCheck ⟨.fmax, .f, false, 0, true, 0⟩ (s.core c) en
  | .bmaxi _ _ _ _ _ => fun c en s => bankCheck ⟨.maxi, .d, false, 0, false, 0⟩ (s.core c) en
  | .bmaxiStream _ _ _ _ _ _ => fun c en s => bankCheck ⟨.maxi, .d, false, 0, true, 0⟩ (s.core c) en
  | .bxadd _ _ _ _ _ => fun c en s => bankCheck ⟨.xadd, .f, false, 0, false, 0⟩ (s.core c) en
  | .bxaddStream _ _ _ _ _ => fun c en s => bankCheck ⟨.xadd, .f, false, 0, true, 0⟩ (s.core c) en
  | .bxrd _ _ e _ _ clr => fun c en s => bankCheck ⟨.xrd, .f, clr, 0, false, e⟩ (s.core c) en
  | .bxrdStream _ _ _ _ _ clr => fun c en s => bankCheck ⟨.xrd, .f, clr, 0, true, 0⟩ (s.core c) en
  | .bfaa _ _ _ e _ _ ty => fun c en s => bankCheck ⟨.faa, ty, false, 0, false, e⟩ (s.core c) en
  | .bfaaStream _ _ _ _ _ ty => fun c en s => bankCheck ⟨.faa, ty, false, 0, true, 0⟩ (s.core c) en
  | .bcas _ _ _ e _ _ ty => fun c en s => bankCheck ⟨.cas, ty, false, 0, false, e⟩ (s.core c) en
  | .bld _ _ e _ _ ty => fun c en s => bankCheck ⟨.bld, ty, false, 0, false, e⟩ (s.core c) en
  | .bldStream _ _ _ _ _ ty => fun c en s => bankCheck ⟨.bld, ty, false, 0, true, 0⟩ (s.core c) en
  | .bst _ _ _ _ _ ty => fun c en s => bankCheck ⟨.bst, ty, false, 0, false, 0⟩ (s.core c) en
  | .bstStream _ _ _ _ _ ty => fun c en s => bankCheck ⟨.bst, ty, false, 0, true, 0⟩ (s.core c) en
  | .bhist _ _ _ _ _ => fun c en s => bankCheck ⟨.hist, .d, false, 0, false, 0⟩ (s.core c) en
  | .bhistStream _ _ _ _ _ _ sh => fun c en s => bankCheck ⟨.hist, .d, false, sh.toNat, true, 0⟩ (s.core c) en
  | .bpfx _ _ _ e _ _ => fun c en s => bankCheck ⟨.pfx, .d, false, 0, false, e⟩ (s.core c) en
  | .baxpy _ _ _ _ _ _ ty => fun c en s => bankCheck ⟨.axpy, ty, false, 0, false, 0⟩ (s.core c) en
  | .baxpyStream _ _ _ _ _ _ ty => fun c en s => bankCheck ⟨.axpy, ty, false, 0, true, 0⟩ (s.core c) en
  | _ => noChk
/-- An instruction that begins at its engine: the core, the engine, its entry as the body finds it, the cycle of its start, the state
with the entry at the head of its queue, and the state before it began. -/
structure Begun where
  c  : Nat
  e  : Eng
  en : Entry
  t  : Nat
  s  : State
  q  : State
/-- A routed instruction i, with physical handle numbers, is routed by the FE to engine e (R22, R60, R101): the core is live, i
passes privilege, speculation, register and operand checks, and there is room in some cycle. The answer is its entry and the state with
the entry at the end of its queue. -/
def State.routes (s : State) (e : Eng) (i : Instr) (chk : Nat → Entry → State → Option Stop) : Option (Entry × State) :=
  let c := s.cur
  let k := s.core c
  if !k.live || (privileged i && !k.isPriv) || k.sigHeld .fe || k.regWait i then none
  else
    match k.roomAt e i (max (max k.eng.cyc (k.regAt i)) k.memAt) with
    | none => none
    | some t =>
    let k1 := k.flush .fe t
    if (k1.earlyReg t (sReads i) ((hImages i).filterMap id)).isSome then none
    else match k1.images t i ((sReads i).map k1.getS) with
    | .error _ => none
    | .ok hv =>
      let k1 := k1.imagesRead i ((sReads i).map k1.getS)
      let en0 := k1.entryOf i t hv 15
      if (chk c en0 (s.setCore c k1)).isSome || k1.specFate i ≠ .pass then none
      else match k1.laneOf i (HD.of (en0.h 0)) with
      | .error _ => none
      | .ok lane =>
        let ls := takesLanes i (HD.of (en0.h 0)) lane k1.specW
        if (ls.find? (fun j => decide (64 ≤ mget 0 k1.spec.room j))).isSome then none
        else
          let en := { en0 with lane := lane }
          let room := ls.foldl (fun m j => mset m j (mget 0 m j + 1)) k1.spec.room
          let k2 := k1.setQueue e (k1.queue e ++ [en])
          some (en, s.setCore c { (k2.skip i.size) with
            eng := { k2.eng with cyc := t + 1, satisfied := false }
            spec := { k2.spec with room := room } })
/-- The entry en at the head of an engine's queue starts: its tokens are taken, unless they have been, and what is due by the cycle of
its start is written (R22, R24, R37). -/
def State.starts (s : State) (c : Nat) (e : Eng) (en : Entry) : Begun :=
  let k := s.core c
  let t := goesAt s c en (startAt k e en (k.tokAt e en))
  ⟨c, e, { en with waited := true, weak := false }, t, s.setCore c (k.opened e en t), s⟩
/-- Nothing that the entry's own start reads is uncorrectable: its queue word, its tokens, the handles it uses as streams (R419). -/
def Begun.sound (b : Begun) : Bool :=
  match (b.q.core b.c).queue b.e with
  | [] => false
  | en :: _ => ((b.q.core b.c).headStop b.e en).isNone && ((b.s.core b.c).streamStop b.e en.i).isNone
/-- Nothing holds the head back besides its queue: neither deferral (R356) nor a RELAX (R225). -/
def Begun.unheld (b : Begun) : Bool :=
  !((decide (b.en.lane < 8) && deferred b.en.i) || (decide (engOf b.en.i ≠ some .ex) && b.s.relaxHolds b.c b.en))
/-- The instruction i, as the program names its handles (R32), is routed and begins in the same step: its queue was empty and no
schedule holds its engine, its tokens are there, no signal of its stream is held, the skip counter does not skip it (R144),
and neither a RELAX (R225) nor deferral (R356) keeps it from its body. -/
def State.begins (s : State) (i : Instr) : Option Begun :=
  match engOf i with
  | none => none
  | some e =>
    let c := s.cur
    match s.routes e (mapH (s.core c).ren i) (feCheck i) with
    | none => none
    | some (en, s1) =>
      let k := s1.core c
      if k.queue e ≠ [en] || k.holds e || !k.headReady e en || (e == .ex && k.v.skip ≠ 0) then none
      else
        let b := s1.starts c e en
        if b.sound && b.unheld then some b else none
/-- What a body's end comes to, for the core, the engine and the entry that ran it (R20, R25, R247). While the FE can still start an
instruction by the cycle of a cause, the entry stays as it was, since a cause of the FE would go first (R248). -/
def Begun.done (b : Begun) : Res Fin → Out
  | .ok f => .next (finishHead b.c b.e b.en f)
  | .stop x f => .next (if b.q.feFirst b.c b.e then b.q else raise b.c x f.s)
  | .wait f => .next f.s
  | .fault z => .fault z
/-- The core as a body that begins finds it. -/
def Begun.core (b : Begun) : Core := b.s.core b.c
/-- The state when a body has left its core as k, with latency lat. -/
def Begun.ends (b : Begun) (lat : Nat) (k : Core) : State := finishHead b.c b.e b.en ⟨b.s.setCore b.c k, b.t + 1, b.t + lat⟩

/-! ### What claims say of FE instructions -/

/-- The lowest-numbered bit that is 1. -/
def firstOne (v : W64) : Option Nat := (List.range 64).find? (fun j => v.getLsbD j)
/-- What R102 to R105 and R51 give a scalar instruction: its latency, its destination and the value it writes, in terms of the
signed (`toInt`) and unsigned (`toNat`) values of its operands; `none` for every other instruction. -/
def aluSpec (k : Core) : Instr → Option (Nat × Sreg × W64)
  | .add _ d a b => some (1, d, BitVec.ofNat 64 ((k.getS a).toNat + (k.getS b).toNat))
  | .sub _ d a b => some (1, d, BitVec.ofInt 64 ((k.getS a).toNat - (k.getS b).toNat))
  | .and _ d a b => some (1, d, BitVec.ofNat 64 ((k.getS a).toNat &&& (k.getS b).toNat))
  | .or _ d a b => some (1, d, BitVec.ofNat 64 ((k.getS a).toNat ||| (k.getS b).toNat))
  | .xor _ d a b => some (1, d, BitVec.ofNat 64 ((k.getS a).toNat ^^^ (k.getS b).toNat))
  | .shl _ d a b => some (1, d, BitVec.ofNat 64 ((k.getS a).toNat * 2 ^ ((k.getS b).toNat % 64)))
  | .shr _ d a b => some (1, d, BitVec.ofNat 64 ((k.getS a).toNat / 2 ^ ((k.getS b).toNat % 64)))
  | .sra _ d a b => some (1, d, BitVec.ofInt 64 ((k.getS a).toInt / 2 ^ ((k.getS b).toNat % 64)))
  | .slt _ d a b => some (1, d, if (k.getS a).toInt < (k.getS b).toInt then 1 else 0)
  | .sltn _ d a b => some (1, d, if (k.getS a).toNat < (k.getS b).toNat then 1 else 0)
  | .seq _ d a b => some (1, d, if (k.getS a).toNat = (k.getS b).toNat then 1 else 0)
  | .sel _ d a b => some (1, d, if k.getS d ≠ 0 then k.getS a else k.getS b)
  | .min _ d a b => some (1, d, BitVec.ofInt 64 (min (k.getS a).toInt (k.getS b).toInt))
  | .max _ d a b => some (1, d, BitVec.ofInt 64 (max (k.getS a).toInt (k.getS b).toInt))
  | .minn _ d a b => some (1, d, BitVec.ofNat 64 (min (k.getS a).toNat (k.getS b).toNat))
  | .maxn _ d a b => some (1, d, BitVec.ofNat 64 (max (k.getS a).toNat (k.getS b).toNat))
  | .mul _ d a b => some (3, d, BitVec.ofNat 64 ((k.getS a).toNat * (k.getS b).toNat))
  | .mulh _ d a b => some (3, d, BitVec.ofInt 64 ((k.getS a).toInt * (k.getS b).toInt / 2 ^ 64))
  | .mulhn _ d a b => some (3, d, BitVec.ofNat 64 ((k.getS a).toNat * (k.getS b).toNat / 2 ^ 64))
  | .div _ d a b => some (20, d, if k.getS b = 0 then BitVec.allOnes 64 else BitVec.ofInt 64 ((k.getS a).toInt.tdiv (k.getS b).toInt))
  | .divn _ d a b => some (20, d, if k.getS b = 0 then BitVec.allOnes 64 else BitVec.ofNat 64 ((k.getS a).toNat / (k.getS b).toNat))
  | .rem _ d a b => some (20, d, if k.getS b = 0 then k.getS a else BitVec.ofInt 64 ((k.getS a).toInt.tmod (k.getS b).toInt))
  | .remn _ d a b => some (20, d, if k.getS b = 0 then k.getS a else BitVec.ofNat 64 ((k.getS a).toNat % (k.getS b).toNat))
  | .clz _ d a => some (1, d, BitVec.ofNat 64 (if k.getS a = 0 then 64 else 63 - Nat.log2 (k.getS a).toNat))
  | .ctz _ d a => some (1, d, BitVec.ofNat 64 ((firstOne (k.getS a)).getD 64))
  | .popc _ d a => some (1, d, BitVec.ofNat 64 ((List.range 64).filter (fun j => (k.getS a).getLsbD j)).length)
  | .addi _ d a imm => some (1, d, BitVec.ofInt 64 ((k.getS a).toInt + imm.toInt))
  | .andi _ d a imm => some (1, d, k.getS a &&& BitVec.ofInt 64 imm.toInt)
  | .ori _ d a imm => some (1, d, k.getS a ||| BitVec.ofInt 64 imm.toInt)
  | .xori _ d a imm => some (1, d, k.getS a ^^^ BitVec.ofInt 64 imm.toInt)
  | .shli _ d a imm => some (1, d, BitVec.ofNat 64 ((k.getS a).toNat * 2 ^ imm.toNat))
  | .shri _ d a imm => some (1, d, BitVec.ofNat 64 ((k.getS a).toNat / 2 ^ imm.toNat))
  | .srai _ d a imm => some (1, d, BitVec.ofInt 64 ((k.getS a).toInt / 2 ^ imm.toNat))
  | .slti _ d a imm => some (1, d, if (k.getS a).toInt < imm.toInt then 1 else 0)
  | .movi _ d hi lo => some (1, d, BitVec.ofInt 64 (hi ++ lo).toInt)
  | .movhi _ d hi lo => some (1, d, BitVec.ofNat 64 ((hi ++ lo).toNat * 2 ^ 42 + (k.getS d).toNat % 2 ^ 42))
  | _ => none
/-- An access of n bytes of the scratchpad at address a by the FE goes on (R110, R114): the address is a multiple of n and lies
in the scratchpad, and no RELAX owns a byte of it (R225). -/
def Core.padOpen (k : Core) (a : W64) (n : Nat) : Bool :=
  decide (a.toNat % n = 0) && decide (a.toNat + n ≤ 0x400000) && !ownedAt k.relaxOwns a.toNat n
/-- A read of n bytes at a, besides, meets no uncorrectable word (R420) and, in debug mode, no copy in flight and no write that
is not yet due (R36, R39). -/
def Core.padReadable (k : Core) (t : Nat) (a : W64) (n : Nat) : Bool :=
  k.padOpen a n && (k.padBad a.toNat n).isNone && (k.earlyPad .fe false t a.toNat n).isNone
/-- An FE instruction that works on its core alone, with physical handle numbers, completes in the core k and the cycle t of its
start: what R110 to R115 and R420 ask of its operands. `false` for every other instruction. -/
def feAllowed (k : Core) (t : Nat) : Instr → Bool
  | .j .. => true | .jl .. => true | .bz .. => true | .bnz .. => true | .bltz .. => true | .bgez .. => true
  | .loop .. => true | .nop .. => true | .spill .. => true | .hset .. => true
  | .jr _ a => decide ((k.getS a).toNat % 4 = 0)
  | .fill _ _ n => (k.spillBad n.toNat 1).isNone
  | .lds _ _ a imm => k.padReadable t (k.getS a + imm.signExtend 64 * 8) 8
  | .sts _ _ a imm => k.padOpen (k.getS a + imm.signExtend 64 * 8) 8
  | .hget _ h _ _ => (k.handleBad h).isNone
  | .hmov _ _ g => (k.handleBad g).isNone
  | .hld _ _ a off => k.padReadable t (k.getS a + off.setWidth 64 * 32) 32
  | .hldSpill _ _ n => (k.spillBad (4 * n.toNat) 4).isNone
  | .hst _ h a off => k.padOpen (k.getS a + off.setWidth 64 * 32) 32 && (k.handleBad h).isNone
  | .hstSpill _ h _ => (k.handleBad h).isNone
  | .hadv _ h a dim => (k.handleBad h).isNone && (hAdv (k.getH h) (k.getS a) dim.toNat).isSome
  | i => (aluSpec k i).isSome
/-- What such an instruction may write besides the engine clocks and PCFE: scalars, handles, spill slots, special registers and
bytes of the scratchpad (first address, number). -/
structure Dest where
  s     : List Sreg := []
  h     : List Hreg := []
  spill : List Nat := []
  sr    : List Nat := []
  pad   : Nat × Nat := (0, 0)
/-- See `Dest`. -/
def feDest (k : Core) : Instr → Dest
  | .jl .. => ⟨[63], [], [], [], (0, 0)⟩
  | .loop _ a rot _ => ⟨[a], [], [], if rot then [0x00A] else [], (0, 0)⟩
  | .fill _ d _ => ⟨[d], [], [], [], (0, 0)⟩
  | .lds _ d _ _ => ⟨[d], [], [], [], (0, 0)⟩
  | .hget _ _ d _ => ⟨[d], [], [], [], (0, 0)⟩
  | .spill _ _ n => ⟨[], [], [n.toNat], [], (0, 0)⟩
  | .hstSpill _ _ n => ⟨[], [], [4 * n.toNat, 4 * n.toNat + 1, 4 * n.toNat + 2, 4 * n.toNat + 3], [], (0, 0)⟩
  | .hset _ h _ _ => ⟨[], [h], [], [], (0, 0)⟩
  | .hmov _ h _ => ⟨[], [h], [], [], (0, 0)⟩
  | .hld _ h _ _ => ⟨[], [h], [], [], (0, 0)⟩
  | .hldSpill _ h _ => ⟨[], [h], [], [], (0, 0)⟩
  | .hadv _ h _ _ => ⟨[], [h], [], [], (0, 0)⟩
  | .sts _ _ a imm => ⟨[], [], [], [], ((k.getS a + imm.signExtend 64 * 8).toNat, 8)⟩
  | .hst _ _ a off => ⟨[], [], [], [], ((k.getS a + off.setWidth 64 * 32).toNat, 32)⟩
  | i => match aluSpec k i with
    | some x => ⟨[x.2.1], [], [], [], (0, 0)⟩
    | none => {}
/-- An instruction as the FE decodes it: its handles by their physical numbers (R32). -/
def State.named (s : State) (i : Instr) : Instr := mapH (s.core s.cur).ren i
/-- What an FE instruction that found its core as k comes to when it raises x: PCFE is at the instruction again, and the cause
is raised (R100, R245). -/
def State.feTraps (s : State) (k : Core) (x : Stop) : State := raise s.cur x (s.setCore s.cur (k.setPc s.pcNow))
/-- What such an instruction comes to when it waits: PCFE is at it again. -/
def State.feWaits (s : State) (k : Core) : State := s.setCore s.cur (k.setPc s.pcNow)
/-- The lowest bit, the width and the extension by sign of a handle field (R111); `none` for a reserved selector. -/
def fieldSpec : Nat → Option (Nat × Nat × Bool)
  | 0 => some (0, 22, false) | 1 => some (22, 2, false) | 2 => some (24, 6, false) | 3 => some (30, 2, false)
  | 4 => some (32, 12, false) | 5 => some (44, 12, false) | 6 => some (56, 12, false) | 7 => some (68, 12, false)
  | 8 => some (80, 12, false) | 9 => some (92, 16, true) | 10 => some (108, 16, true) | 11 => some (124, 16, true)
  | 12 => some (140, 16, true) | 13 => some (156, 16, true) | 14 => some (172, 12, false) | 15 => some (184, 12, false)
  | 16 => some (196, 12, false) | 17 => some (208, 12, false) | 18 => some (220, 12, false) | 19 => some (232, 8, false)
  | 20 => some (240, 16, false) | 21 => some (0, 64, false) | 22 => some (64, 64, false) | 23 => some (128, 64, false)
  | 24 => some (192, 64, false) | _ => none

/-! ### What claims say of routed instructions -/

/-- The state when a body that started in cycle t has left its core as k, with latency lat. -/
def Begun.endsAt (b : Begun) (t lat : Nat) (k : Core) : State := finishHead b.c b.e b.en ⟨b.s.setCore b.c k, t + 1, t + lat⟩
/-- The state when a body has left the whole package as s, with latency lat. -/
def Begun.leaves (b : Begun) (t lat : Nat) (s : State) : State := finishHead b.c b.e b.en ⟨s, t + 1, t + lat⟩
/-- What a body's stop comes to: the cause is raised with the entry at the head of its queue and the core as the body found
it; while the FE can still start an instruction by that cycle, the entry stays as it was (R248). -/
def Begun.traps (b : Begun) (x : Stop) : State := if b.q.feFirst b.c b.e then b.q else raise b.c x b.s
/-- A lane-wise instruction (R146, R148 to R151, R156) with physical handles: its repeat code, latency and type, its destination
and source handles in the order of its operands, and what one lane computes from them. -/
structure LaneOp where
  rp  : Rep
  lat : Nat
  ty  : VTy
  hd  : Hreg
  src : List Hreg
  op  : List Lane → Lane × Fl
/-- See `LaneOp`. -/
def laneOp : Instr → Option LaneOp
  | .vadd _ d a b ty rp => some ⟨rp, 6, ty, d, [a, b], opAdd ty⟩
  | .vsub _ d a b ty rp => some ⟨rp, 6, ty, d, [a, b], opSub ty⟩
  | .vmul _ d a b ty rp => some ⟨rp, 6, ty, d, [a, b], opMul ty⟩
  | .vfma _ d a b ty rp => some ⟨rp, 8, ty, d, [a, b, d], opFma ty⟩
  | .vdiv _ d a b ty rp => some ⟨rp, 14, ty, d, [a, b], opDiv ty⟩
  | .vmin _ d a b ty rp => some ⟨rp, 6, ty, d, [a, b], opMin ty⟩
  | .vmax _ d a b ty rp => some ⟨rp, 6, ty, d, [a, b], opMax ty⟩
  | .vabs _ d a ty rp => some ⟨rp, 6, ty, d, [a], opAbs ty⟩
  | .vneg _ d a ty rp => some ⟨rp, 6, ty, d, [a], opNeg ty⟩
  | .vand _ d a b ty rp => some ⟨rp, 6, ty, d, [a, b], fun l => (.i ((l0 l).bits ty &&& (l1 l).bits ty), 0)⟩
  | .vor _ d a b ty rp => some ⟨rp, 6, ty, d, [a, b], fun l => (.i ((l0 l).bits ty ||| (l1 l).bits ty), 0)⟩
  | .vxor _ d a b ty rp => some ⟨rp, 6, ty, d, [a, b], fun l => (.i ((l0 l).bits ty ^^^ (l1 l).bits ty), 0)⟩
  | .vshl _ d a b ty rp => some ⟨rp, 6, ty, d, [a, b], opShl ty⟩
  | .vshr _ d a b ty rp => some ⟨rp, 6, ty, d, [a, b], opShr ty⟩
  | .vsra _ d a b ty rp => some ⟨rp, 6, ty, d, [a, b], opSra ty⟩
  | .vmov _ d a ty rp => some ⟨rp, 6, ty, d, [a], fun l => (l0 l, 0)⟩
  | .vlog2 _ d a ty rp => some ⟨rp, 14, ty, d, [a], fun l => arith ty (exLog2 ((l0 l).ex ty)) 0⟩
  | .vexp2 _ d a ty rp => some ⟨rp, 14, ty, d, [a], fun l => arith ty (exExp2 ((l0 l).ex ty), 0) 0⟩
  | .vrcp _ d a ty rp => some ⟨rp, 14, ty, d, [a], fun l => arith ty (exRcp ((l0 l).ex ty)) 0⟩
  | .vrsq _ d a ty rp => some ⟨rp, 14, ty, d, [a], fun l => arith ty (exRsqrt ((l0 l).ex ty)) 0⟩
  | .vsqrt _ d a ty rp => some ⟨rp, 14, ty, d, [a], fun l => arith ty (exSqrt ((l0 l).ex ty)) 0⟩
  | .vtanh _ d a ty rp => some ⟨rp, 14, ty, d, [a], fun l => arith ty (exTanh ((l0 l).ex ty), 0) 0⟩
  | _ => none
/-- One repetition of a vector instruction as R133 to R168 give it, with its repeat code and latency; `en` is its entry, whose
scalar VBCAST spreads. -/
def vecOp (en : Entry) : Instr → Option (Rep × Nat × (Option Mem → Core → Nat → VOut))
  | .vcmp _ un cc a b ty rp => some (rp, 6, fun o k now => repCmp k now o ty un cc a b)
  | .vsel _ d a b ty rp => some (rp, 6, fun o k now => repSel k now o ty d a b)
  | .vcvt _ d a sat mode ty rp => some (rp, 6, fun o k now => repCvt k now o ty mode sat d a)
  | .vqnt _ d a b ty rp => some (rp, 14, fun o k now => repQnt k now o ty d a b)
  | .vdqnt _ d a b ty rp => some (rp, 6, fun o k now => repDqnt k now o ty d a b)
  | .vclass _ a cs ty rp => some (rp, 6, fun o k now => repClass k now o ty cs a)
  | .vredSum _ a ty rp => some (rp, 10, fun o k now => repSum k now o ty a)
  | .vredMax _ d a ty rp => some (rp, 10, fun o k now => repExt k now o ty opMax d a)
  | .vredMin _ d a ty rp => some (rp, 10, fun o k now => repExt k now o ty opMin d a)
  | .vredMaxi _ d rp => some (rp, 10, fun o k now => repMaxi k now o d)
  | .vxrd _ d ty rp => some (rp, 6, fun o k now => repXrd k now o ty d)
  | .vscan _ d a ty rp => some (rp, 10, fun o k now => repScan k now o ty d a)
  | .vperm _ d a b ty rp => some (rp, 6, fun o k now => repPerm k now o ty d a b)
  | .vbcast _ d _ ty rp => some (rp, 6, fun o k now => repGen k now o ty d (fun _ _ => laneOfBits ty (en.s 0).toNat))
  | .viota _ d ty rp => some (rp, 6, fun o k now => repGen k now o ty d (iotaLane ty))
  | .vrng _ d a b rp => some (rp, 6, fun o k now => repRng k now o d a b)
  | .vexpmax _ d a ty rp => some (rp, 10, fun o k now => repExpMax k now o ty d a)
  | .vmaxi _ a rp => some (rp, 6, fun o k now => repMaxiUp k now o a)
  | i => (laneOp i).map (fun o => (o.rp, o.lat, fun q k now => laneWise k now o.lat q o.ty o.hd o.src o.op))
/-- The bytes that the elements of an opened stream cover: address a lies outside all of them. -/
def Src.clear (x : Src) (a : Nat) : Bool := x.ads.all (fun e => decide (a < e / 2 ∨ (e + x.h.half + 1) / 2 ≤ a))
/-- The state when a repetition of a vector instruction that began has left its core as k with n repetitions still to run and the
flags f of those done: the next one starts in the cycle after (R37, R147). -/
def Begun.repeats (b : Begun) (n : Nat) (f : Fl) (k : Core) : State :=
  ((b.s.setCore b.c k).setMark b.c .ex (.reps n f none)).upCore b.c (fun k => k.setEngAt .ex (b.t + 1))

/-! ### What claims say of copies -/

/-- Byte a holds part of BUSY of a segment entry (R304, R312), where translation counts the transfers that use the segment. -/
def Env.busyByte (e : Env) (a : Nat) : Bool := (List.range e.segn).any (fun sg => decide (segAddr e sg + 16 ≤ a ∧ a < segAddr e sg + 20))
/-- The elements of `ls` translated in their order, from the copy x to the copy y: each first byte's address, and, when the element's last
byte lies in another 64 KiB, that byte's, which is else the same page's (R171). -/
def placesFrom (c : Nat) (need : Need) (ord : Nat) (src : Strm) (mh : Nat) : List Loc → CSt → CSt → Prop
  | [], x, y => y = x
  | l :: t, x, y => ∃ x1, x.xlate c (vaOf l.el.va2) need ord src = (.ok x1, some l.tr) ∧
    if (l.el.lastVa mh).toNat / 65536 = (vaOf l.el.va2).toNat / 65536 then l.tr2 = l.tr ∧ placesFrom c need ord src mh t x1 y
    else ∃ x2, x1.xlate c (l.el.lastVa mh) need ord src = (.ok x2, some l.tr2) ∧ placesFrom c need ord src mh t x2 y
/-- The runs of half-bytes of memory that an element covers: first and number. -/
def Loc.halves (l : Loc) (mh : Nat) : List (Nat × Nat) :=
  if mh = 1 then [(2 * l.tr.pa + l.el.va2 % 2, 1)] else (l.ranges mh).map (fun r => (2 * r.1, 2 * r.2))
/-- A run of half-bytes is a half-byte or whole bytes. -/
def wholeRun (a2 n : Nat) : Bool := n == 1 || (a2 % 2 == 0 && n % 2 == 0)
/-- Two runs of half-bytes share none. -/
def apart (a m b n : Nat) : Bool := decide (a + m ≤ b) || decide (b + n ≤ a)
/-- A copy that has not moved anything yet. -/
def Begun.copy0 (b : Begun) : CSt := .of b.s
/-- Some elements read through a handle of the scratchpad, granule by granule, when the instruction begins (R174): their bits and block
scales, and the copy then; `none` when a granule stops the reading or waits. -/
def Begun.reads (b : Begun) (h : HD) (bk : Bool) (els : List (List Nat × Nat)) : Option (List (Nat × Nat) × CSt) :=
  if b.s.onePart then none
  else match copyLoop (takeVisit b.c b.t (engStrm b.e) h none) (b.core.takes h bk els) b.copy0 with
    | .ok x => some ((x.s.core b.c).taken h bk els x.m, x)
    | _ => none
/-- Where an LD.X, ST.X or LD.GR stands when its index elements have been read, with the rows they name, and where every other copy
begins (R185, R320). -/
def Begun.indexed (b : Begun) : Option CSt :=
  let h := HD.of (b.en.h 0)
  let hx := HD.of (b.en.h 1)
  let rows (n : Nat) (of : Nat → Nat) : Option CSt := (b.reads hx false (hx.placesOf (hx.tile.take n))).map (fun r =>
    ⟨r.2.s, { r.2.m with n := 0, stash := [], rows := r.1.map (fun v => of v.1) }⟩)
  match b.en.i with
  | .ldX .. => rows h.rows (rowOfBits hx)
  | .stX .. => rows h.rows (rowOfBits hx)
  | .ldGr .. => rows (2 * (hx.e 0 / 2) * h.rows) id
  | _ => some b.copy0
/-- The page format and the elements, in order, of a copy between memory and the scratchpad whose index rows, if any, are those of x
(R176, R183 to R185). -/
def Begun.elements (b : Begun) (x : CSt) : Nat × List CEl :=
  let h := HD.of (b.en.h 0)
  let a := b.en.s 0
  let p := b.en.s 1
  let of (pf : Nat) (row : Nat → Option Nat) : Nat × List CEl := (pf, tileEls (h.as pf) (memHalf h pf) a p row)
  match b.en.i with
  | .ldX .. => of (x.s.rowFmt b.c h a p x.m.rows) (rowAt x.m.rows)
  | .stX .. => of (x.s.rowFmt b.c h a p x.m.rows) (rowAt x.m.rows)
  | _ => of (x.s.firstFmt b.c h a p 0) some
/-- The acts of a copy all done from x on, when none stops or waits. -/
def doneAll {α : Type} (f : CSt → α → Res CSt) (l : List α) (x : CSt) : Option CSt :=
  if x.s.onePart then none
  else match copyLoop f l x with
    | .ok y => some y
    | _ => none
/-- LD.T or LD.X from where its rows are known to the end (R171, R174, R175, R177): every part read, every granule landed, its flags.
`none` when the engine's checks stop it, or an act stops or waits. -/
def Begun.loads (b : Begun) (x : CSt) : Option CSt :=
  let h := HD.of (b.en.h 0)
  let pf := (b.elements x).1
  let els := (b.elements x).2
  let mh := memHalf h pf
  let hh := h.as pf
  let acts := tileActs x.s b.c h pf els
  if (engineStop .ld b.en h pf (b.en.s 0) (b.en.s 1)).isSome then none
  else (doneAll (loadAct b.c b.en.routed b.t hh (ldFmtOk pf h.fmt) pf mh (movedVal pf h.fmt hh (els.map CEl.pad))) acts.2
      { x with m := { x.m with gs := granulesOf acts.1 } }).map
    (fun y => { y with m := { y.m with fl := movedFl pf h.fmt y.m.vals } })
/-- ST.T, ST.PART or ST.X from where its rows are known to the end (R171, R174, R178): every part translated, its source read, and
landed. -/
def Begun.stores (b : Begun) (whole indexed : Bool) (x : CSt) : Option CSt :=
  let h := HD.of (b.en.h 0)
  let pf := (b.elements x).1
  let f : SForm := ⟨h, pf, (b.elements x).2, whole, indexed, elLane b.en, b.en.routed, []⟩
  if (firstStop [engineStop .st b.en h pf (b.en.s 0) (b.en.s 1), blockStop .st x.s b.c h pf (b.en.s 0) (b.en.s 1) indexed]).isSome then none
  else doneAll (storeAct b.c b.t f) (f.acts x.s b.c) x
/-- LD.GR from where its indices and weights are known to the end (R320). -/
def Begun.gathers (b : Begun) (x : CSt) : Option CSt :=
  let h := HD.of (b.en.h 0)
  let kk := (HD.of (b.en.h 1)).e 0 / 2
  let srcs := grSources h kk x.m.rows
  let pf := match srcs.head? with
    | some q => x.s.firstFmt b.c h (b.en.s 0) (b.en.s 1) q.2.2.1
    | none => x.s.pageFmt b.c h (b.en.s 0)
  let mh := memHalf h pf
  let parts := grParts h mh kk (b.en.s 0) (b.en.s 1) srcs 0
  let dests := grDests h
  let vs := (x.s.core b.c).putsOf h false h.places
  let need (v : Visit) : Nat := ((srcs.zip parts).filter (fun q => decide (q.1.1 ≤ (nth (0, 0) dests v.last).1))).foldl
    (fun n q => n + q.2.els.length) 0
  if (engineStop .ld b.en h pf (b.en.s 0) (b.en.s 1)).isSome then none
  else (doneAll (loadAct b.c b.en.routed b.t h (grFmtOk pf) pf mh (fun vals key => (grVal pf srcs parts vals (nth (0, 0) dests (key / 2))).1.toNat))
      (loadActs need parts vs 0) { x with m := { x.m with gs := granulesOf vs } }).map
    (fun y => { y with m := { y.m with fl := dests.foldl (fun f d => f ||| (grVal pf srcs parts y.m.vals d).2) 0 } })
/-- Every older command of its engine that the entry waits for has completed in a state (R25, R173). -/
def Begun.first (b : Begun) (s : State) : Bool := !(s.core b.c).ordered b.en (faOf b.en.i ≠ 0)
/-- A copy between memory and the scratchpad run to the end of its acts. -/
def Begun.copied (b : Begun) : Option CSt :=
  b.indexed.bind (fun x => match b.en.i with
    | .ldT .. => b.loads x
    | .ldX .. => b.loads x
    | .ldGr .. => b.gathers x
    | .stT .. => b.stores true false x
    | .stPart .. => b.stores false false x
    | .stX .. => b.stores false true x
    | _ => none)
/-- LD.SP run to the end of its acts: its source read, then its destination landed (R186). -/
def Begun.copiedIn (b : Begun) : Option CSt :=
  let dst := HD.of (b.en.h 0)
  let src := HD.of (b.en.h 1)
  let hs := src.as dst.fmt
  let d := dst.as src.fmt
  let outs := b.core.putsOf d (fmtBk src.fmt && fmtBk dst.fmt) d.places
  let x0 : CSt := { b.copy0 with m := { b.copy0.m with gs := granulesOf outs } }
  if !ldFmtOk src.fmt dst.fmt then none
  else (doneAll (takeVisit b.c b.t .ld hs none) (b.core.takes hs (fmtBk src.fmt) hs.places) x0).bind (fun x =>
    let vals := (x.s.core b.c).taken hs (fmtBk src.fmt) hs.places x.m
    (doneAll (fun x v => landVisit b.c b.t d v (movedVal src.fmt dst.fmt d d.places vals) x) outs x).map
      (fun y => { y with m := { y.m with fl := movedFl src.fmt dst.fmt vals } }))
/-- A remote copy that begins, run to its end (R189, R190): its source read and its granules sent to the destinations that take them,
`lim` of them where a write path fails, delivered, and its flag word, if it has one, after the last granule. The answer holds the flags of
its conversion and the state; `none` when the reading stops or waits, a granule waits at its destination, an older command of its engine
has not completed, or its token finds no room. -/
def Begun.shipped (b : Begun) (dsts : List Nat) (lim : Nat → Option Nat) : Option (Fl × State) :=
  let src := HD.of (b.en.h 0)
  let dst := HD.of (b.en.h 1)
  let hs := src.as dst.fmt
  let d := dst.as src.fmt
  let outs := b.core.putsOf d (fmtBk src.fmt && fmtBk dst.fmt) d.places
  let vals (x : CSt) : List (Nat × Nat) := (x.s.core b.c).taken hs (fmtBk src.fmt) hs.places x.m
  let act (x : CSt) (a : RAct) : Res CSt := match a with
    | .take jv => takeVisit b.c b.t .st hs none x jv
    | .ship j v => .ok { x with s := (takers lim dsts j).foldl (fun s d =>
        s.ship b.c d (shipEl (x.s.core b.c) b.en.routed src dst (vals x) v)) x.s }
  if !ldFmtOk src.fmt dst.fmt then none
  else (doneAll act (shipActs (outs.zipIdx.map (fun x => (x.2, x.1))) (b.core.takes hs (fmtBk src.fmt) hs.places)) b.copy0).bind (fun x =>
    let s1 := if x.s.lagDeliver then x.s else dsts.foldl (fun s d => deliverAll s b.c d (s.chan b.c d).length) x.s
    let s2 := if faOf b.en.i = 0 then s1 else (dsts.filter (fun d => (lim d).isNone)).foldl (fun s d => s.ship b.c d b.en.flagEl) s1
    if (faOf b.en.i ≠ 0 && (s1.core b.c).ordered b.en true) || dsts.any (fun d => !(s2.chan b.c d).isEmpty) ||
      (s2.core b.c).ordered b.en false || !(s2.core b.c).canSignal .st b.en.tok then none
    else some (movedFl src.fmt dst.fmt (vals x), s2))
/-! ### What claims say of bank operations -/

/-- A bank operation's form (R293, R297): operation, type, CLR, SH, whether it is a stream form, and its result scalar. -/
def bankForm : Instr → Option BForm
  | .badd _ _ _ _ _ ty => some ⟨.add, ty, false, 0, false, 0⟩
  | .baddStream _ _ _ _ _ ty => some ⟨.add, ty, false, 0, true, 0⟩
  | .band _ _ _ _ _ ty => some ⟨.band, ty, false, 0, false, 0⟩
  | .bandStream _ _ _ _ _ ty => some ⟨.band, ty, false, 0, true, 0⟩
  | .bor _ _ _ _ _ ty => some ⟨.bor, ty, false, 0, false, 0⟩
  | .borStream _ _ _ _ _ ty => some ⟨.bor, ty, false, 0, true, 0⟩
  | .bxor _ _ _ _ _ ty => some ⟨.bxor, ty, false, 0, false, 0⟩
  | .bxorStream _ _ _ _ _ ty => some ⟨.bxor, ty, false, 0, true, 0⟩
  | .bmin _ _ _ _ _ ty => some ⟨.min, ty, false, 0, false, 0⟩
  | .bminStream _ _ _ _ _ ty => some ⟨.min, ty, false, 0, true, 0⟩
  | .bmax _ _ _ _ _ ty => some ⟨.max, ty, false, 0, false, 0⟩
  | .bmaxStream _ _ _ _ _ ty => some ⟨.max, ty, false, 0, true, 0⟩
  | .bminn _ _ _ _ _ ty => some ⟨.minn, ty, false, 0, false, 0⟩
  | .bminnStream _ _ _ _ _ ty => some ⟨.minn, ty, false, 0, true, 0⟩
  | .bmaxn _ _ _ _ _ ty => some ⟨.maxn, ty, false, 0, false, 0⟩
  | .bmaxnStream _ _ _ _ _ ty => some ⟨.maxn, ty, false, 0, true, 0⟩
  | .bfmin _ _ _ _ _ => some ⟨.fmin, .f, false, 0, false, 0⟩
  | .bfminStream _ _ _ _ _ => some ⟨.fmin, .f, false, 0, true, 0⟩
  | .bfmax _ _ _ _ _ => some ⟨.fmax, .f, false, 0, false, 0⟩
  | .bfmaxStream _ _ _ _ _ => some ⟨.fmax, .f, false, 0, true, 0⟩
  | .bmaxi _ _ _ _ _ => some ⟨.maxi, .d, false, 0, false, 0⟩
  | .bmaxiStream _ _ _ _ _ _ => some ⟨.maxi, .d, false, 0, true, 0⟩
  | .bxadd _ _ _ _ _ => some ⟨.xadd, .f, false, 0, false, 0⟩
  | .bxaddStream _ _ _ _ _ => some ⟨.xadd, .f, false, 0, true, 0⟩
  | .bxrd _ _ e _ _ clr => some ⟨.xrd, .f, clr, 0, false, e⟩
  | .bxrdStream _ _ _ _ _ clr => some ⟨.xrd, .f, clr, 0, true, 0⟩
  | .bfaa _ _ _ e _ _ ty => some ⟨.faa, ty, false, 0, false, e⟩
  | .bfaaStream _ _ _ _ _ ty => some ⟨.faa, ty, false, 0, true, 0⟩
  | .bcas _ _ _ e _ _ ty => some ⟨.cas, ty, false, 0, false, e⟩
  | .bld _ _ e _ _ ty => some ⟨.bld, ty, false, 0, false, e⟩
  | .bldStream _ _ _ _ _ ty => some ⟨.bld, ty, false, 0, true, 0⟩
  | .bst _ _ _ _ _ ty => some ⟨.bst, ty, false, 0, false, 0⟩
  | .bstStream _ _ _ _ _ ty => some ⟨.bst, ty, false, 0, true, 0⟩
  | .bhist _ _ _ _ _ => some ⟨.hist, .d, false, 0, false, 0⟩
  | .bhistStream _ _ _ _ _ _ sh => some ⟨.hist, .d, false, sh.toNat, true, 0⟩
  | .bpfx _ _ _ e _ _ => some ⟨.pfx, .d, false, 0, false, e⟩
  | .baxpy _ _ _ _ _ _ ty => some ⟨.axpy, ty, false, 0, false, 0⟩
  | .baxpyStream _ _ _ _ _ _ ty => some ⟨.axpy, ty, false, 0, true, 0⟩
  | _ => none
/-- The elements of a bank operation in position order, once its operands have been read, and the copy then (R294, R296). -/
def Begun.words (b : Begun) (f : BForm) : Option (List BEl × CSt) :=
  let h := HD.of (b.en.h 0)
  (b.reads h false (bankReads f h)).map (fun r => (bankEls f b.en r.1, r.2))
/-- The elements of a bank operation with the physical addresses of their words, when all can be read and translated (R296). -/
def Begun.placed (b : Begun) (f : BForm) : Option (CSt × List (BEl × Nat)) :=
  (b.words f).bind (fun w => match bankXlate f b.c (w.2.s.core b.c).isPriv w.1 w.2 [] with
    | .ok r => some r
    | _ => none)
/-- A bank operation whose elements have all been read, translated, sent and performed at once (R296): the state, what they
returned, what failed and the segments entered; `none` when a part of this stops or waits. -/
def Begun.banked (b : Begun) (f : BForm) : Option (State × Map W64 × List (BEl × Stop) × List Nat) :=
  (b.placed f).bind (fun p =>
    let r := bankSend f b.c b.en.routed (b.en.s 2) p.2 (p.1.s.markLc b.c) []
    let s1 := r.1.setMark b.c .st (.bank r.2.2.1 r.2.1 [] [] p.1.m.segs)
    let s2 := r.2.2.2.foldl (fun s n => s.drainBank n (mget [] s.fifos n).length) s1
    match (((s2.core b.c).eng.st.head?).map (fun (e : Entry) => e.mark)).getD .fresh with
    | .bank [] [] rets fails segs => some (s2, rets, fails, segs)
    | _ => none)
/-- The word of memory that a bank operation works on, as its old value (R297). -/
def State.bankWord (s : State) (pa n : Nat) : W64 := BitVec.ofNat 64 (leNat (rdN s.mem pa n))
/-- What an operation of one word gives its issuer (R297, R300): the old word by type, BPFX's sum of it, or nothing. -/
def bankGives (op : BOp) (ty : BTy) (old : W64) : W64 := if op = .pfx then prefixOf [old] else byTy ty old
/-- The bank-port event of an operation (R399): application core, operation, type code, CLR. -/
def bpForm : Instr → Option (Nat × BOp × BitVec 2 × Bool)
  | .bpBadd ac ty => some (ac, .add, ty, false) | .bpBand ac ty => some (ac, .band, ty, false)
  | .bpBor ac ty => some (ac, .bor, ty, false) | .bpBxor ac ty => some (ac, .bxor, ty, false)
  | .bpBmin ac ty => some (ac, .min, ty, false) | .bpBmax ac ty => some (ac, .max, ty, false)
  | .bpBminn ac ty => some (ac, .minn, ty, false) | .bpBmaxn ac ty => some (ac, .maxn, ty, false)
  | .bpBfmin ac ty => some (ac, .fmin, ty, false) | .bpBfmax ac ty => some (ac, .fmax, ty, false)
  | .bpBmaxi ac ty => some (ac, .maxi, ty, false) | .bpBxadd ac ty => some (ac, .xadd, ty, false)
  | .bpBxrd ac ty clr => some (ac, .xrd, ty, clr) | .bpBfaa ac ty => some (ac, .faa, ty, false)
  | .bpBcas ac ty => some (ac, .cas, ty, false) | .bpBld ac ty => some (ac, .bld, ty, false)
  | .bpBst ac ty => some (ac, .bst, ty, false) | .bpBhist ac ty => some (ac, .hist, ty, false)
  | .bpBpfx ac ty => some (ac, .pfx, ty, false) | .bpBaxpy ac ty => some (ac, .axpy, ty, false)
  | _ => none

/-! ### What claims say of events at the engines -/

/-- The entry at the head of an engine's queue of a busy core that does not stop begins or goes on now: no marker, nothing
uncorrectable, not skipped, its signals free and its tokens there, and, for LD and ST, no command of the core in flight. -/
def State.heads (s : State) (c : Nat) (e : Eng) : Option Begun :=
  let k := s.core c
  match k.queue e with
  | [] => none
  | en :: _ =>
    if !k.busy || k.halting.isSome || (e != .ex && !k.eng.flight.isEmpty) || en.marker || !k.headReady e en || !(s.starts c e en).sound ||
      (e == .ex && k.v.skip ≠ 0 && en.mark == .fresh) then none
    else some (s.starts c e en)

/-! ### What claims say of abort lines -/

/-- A launch in the scope of a line just asserted: what is not dispatched of it is dropped, and it has ended when none of its units
runs (R334). -/
def Launch.stopped (l : Launch) : Launch :=
  { l with next := max l.next (l.total.getD 0), requeue := [], tiles := some (l.tiles.getD []), queued := true, ended := l.running == 0 }
/-- Outside the cores `ex` the partition has no persistent unit, running or swapped out, of a launch that satisfies f. -/
def State.quiet (s : State) (p : Nat) (ex : List Nat) (f : Launch → Bool) : Bool :=
  let rs := ((s.part p).launches.filter f).map Launch.ref
  let calm (k : Core) : Bool := match k.run with | some u => !(u.pers && rs.contains u.ref) | none => true
  (s.part p).coreList.all (fun c => ex.contains c || calm (s.core c)) && (s.part p).saved.all (fun x => x.2.all (fun y => calm y.2))
/-- Every core runs in v what it runs in s, and stops for what it stops for there. -/
def State.runsAs (s v : State) : Prop := ∀ c, (v.core c).run = (s.core c).run ∧ (v.core c).halting = (s.core c).halting

/-! ### What claims say of lanes, streams and relaxation -/

/-- z is the real number n / d. -/
def Ex.is (z : Ex) (n : Int) (d : Nat) : Prop :=
  match z with
  | .fin s m e => 0 < e ∧ (if s then -(m : Int) else m) * d = n * e
  | _ => False
/-- The sign bit of z. -/
def Ex.neg (z : Ex) : Bool :=
  match z with
  | .fin s _ _ => s
  | .inf s => s
  | .nan => false
/-- A lane that holds z rounded once in the type, with the flags of that rounding besides f (R76, R148). -/
def laneRound (ty : VTy) (z : Ex) (f : Fl) : Lane × Fl := (.f (ty.round z).1, f ||| (ty.round z).2)
/-- The integer that the bits x stand for in an integer type: signed but for N32 and N8 (R148). -/
def sgnIn (ty : VTy) (x : Nat) : Int :=
  if ty = .n32 ∨ ty = .n8 ∨ x < 2 ^ (ty.bitsN - 1) then x else (x : Int) - 2 ^ ty.bitsN
/-- The streams that a vector instruction other than the mask instructions reads and writes, each with its vector length (R134, R146). -/
def vecStreams : Instr → Option (List (Hreg × Nat) × List (Hreg × Nat))
  | .vcmp _ _ _ a b ty _ => some ([(a, ty.lanes), (b, ty.lanes)], [])
  | .vsel _ d a b ty _ => some ([(a, ty.lanes), (b, ty.lanes)], [(d, ty.lanes)])
  | .vcvt _ d a _ _ ty _ => some ([(a, ty.lanes)], [(d, ty.lanes)])
  | .vqnt _ d a b ty _ => some ([(a, ty.lanes), (b, ty.lanes)], [(d, ty.lanes)])
  | .vdqnt _ d a b ty _ => some ([(a, ty.lanes), (b, ty.lanes)], [(d, ty.lanes)])
  | .vclass _ a _ ty _ => some ([(a, ty.lanes)], [])
  | .vredSum _ a ty _ => some ([(a, ty.lanes)], [])
  | .vredMax _ d a ty _ => some ([(a, ty.lanes)], [(d, 1)])
  | .vredMin _ d a ty _ => some ([(a, ty.lanes)], [(d, 1)])
  | .vredMaxi _ d _ => some ([], [(d, 2)])
  | .vxrd _ d _ _ => some ([], [(d, 1)])
  | .vscan _ d a ty _ => some ([(a, ty.lanes)], [(d, ty.lanes)])
  | .vperm _ d a b ty _ => some ([(a, ty.lanes), (b, ty.lanes)], [(d, ty.lanes)])
  | .vbcast _ d _ ty _ => some ([], [(d, ty.lanes)])
  | .viota _ d ty _ => some ([], [(d, ty.lanes)])
  | .vrng _ d a b _ => some ([(a, 64), (b, 64)], [(d, 64)])
  | .vexpmax _ d a ty _ => some ([(a, ty.lanes)], [(d, 1)])
  | .vmaxi _ a _ => some ([(a, 64)], [])
  | i => (laneOp i).map (fun o => (o.src.map (fun r => (r, o.ty.lanes)), [(o.hd, o.ty.lanes)]))
/-- The bytes that a written stream covers: address a lies outside its elements and, in a block-scaled format, outside their scale
words (R84). -/
def Src.clearAll (x : Src) (a : Nat) : Bool :=
  x.clear a && (!fmtBk x.h.fmt || (upto x.n).all (fun j => let w := x.h.scaleAddr (x.h.along j); decide (a < w ∨ w + 2 ≤ a)))
/-- The vector entering an iteration from a row's z and D (R226). -/
def relaxW (f : RForm) (z dr : List Ex) : List Ex :=
  if f.bwd then (z.zip dr).map (fun x => val32 (rne32 (exMul x.1 x.2).1).1) else z
/-- Element j of Iterate (R226) from a row's z, u and D, the damping factor of the row and the elements and the anchor of column j: v
and z' as FP32 words. -/
def relaxAt (f : RForm) (p : RelaxProg) (beta : Ex) (col : List AEl) (xb : Int) (z u dr : List Ex) (j : Nat) :
    BitVec 32 × BitVec 32 :=
  let r (x : Ex) : Ex := val32 (rne32 x).1
  let w := relaxW f z dr
  let xz : Int := if p.auto then anchorOf 1 20 (w.map (fun x => ⟨x, 0⟩)) else p.xz
  let sum : Int := ((w.zip col).map (fun x => (entryMant 1 20 xz x.1).1 * (entryMant 1 20 xb x.2.x).1)).sum
  let y : Ex := if w.any (fun x => !exFin x) || col.any (fun e => !exFin e.x) then .nan else r (valE sum (xz - 19 + (xb - 19)))
  let v := r (exAdd y (nth .nan u j)).1
  let a := if f.bwd then v else (actRelax f.f (val32 p.lo) (val32 p.hi) v).1
  let zj := nth .nan z j
  ((rne32 v).1, (rne32 (if p.mode = 0 then a else r (exAdd zj (r (exMul beta (r (exSub a zj).1)).1)).1)).1)
/-- The damping factor that AHR keeps for a row after an iteration with r(t) = r0 whose history was `row` (R232). -/
def betaNext (mode : Nat) (row : List (BitVec 32)) (r0 : BitVec 32) : BitVec 32 :=
  let b := val32 (nth 0 row 3)
  let big (x y : BitVec 32) : Bool := exLt (val32 y) (val32 x)
  let half := (exMul b (.fin false 1 2)).1
  let up := val32 (rne32 (exMul (.fin false 5 4) b).1).1
  if mode = 2 ∧ big r0 (nth 0 row 0) = true then (rne32 (if exLt half (.fin false 1 256) then .fin false 1 256 else half)).1
  else if mode = 2 ∧ big (nth 0 row 0) r0 = true ∧ big (nth 0 row 1) (nth 0 row 0) = true then
    (rne32 (if exLt (.fin false 1 1) up then .fin false 1 1 else up)).1
  else nth 0 row 3
/-- The state after a copy that counts as the instruction i has moved all its bytes (R173, R177): its segments left, its flags due; then
its flag word is written and it completes, or, while an older command that it waits for has not completed, it is in flight with the granules
it landed in (R25). -/
def Begun.settlesAs (b : Begun) (i : Instr) (x : CSt) : State :=
  let en := { b.en with i := i }
  let s1 := (x.leave b.c).s.upCore b.c (fun k => k.flagsAt (b.t + 1) x.m.fl)
  if (s1.core b.c).ordered en (faOf i ≠ 0) then s1.upCore b.c (fun k => k.fly en.eng { en with mark := .landed x.m.gs } b.t)
  else b.leaves b.t 1 (s1.ownFlag b.c b.t en)
/-- See `Begun.settlesAs`. -/
def Begun.settles (b : Begun) (x : CSt) : State := b.settlesAs b.en.i x
/-- A command that has nothing more to do than to complete (R173): its flag word and its end, or its wait for older commands. -/
def Begun.closes (b : Begun) (s : State) : State :=
  if b.first s then b.leaves b.t 1 (s.ownFlag b.c b.t b.en)
  else s.upCore b.c (fun k => k.fly b.en.eng { b.en with mark := .landed [] } b.t)
/-- Two clusters, or two dies, differ in their counts of corrected errors alone (R421). -/
def State.sameButCe (s v : State) : Prop :=
  (∀ n, v.clu n = { s.clu n with ce := (v.clu n).ce }) ∧ ∀ n, v.die n = { s.die n with ce := (v.die n).ce }
/-- An ST.NET that has its slot n (R193): the slot's lines translated, not full still where replay forces it (R343), TAIL raised; its
lines are kept. -/
def Begun.claims (b : Begun) (pa : Nat) (d : PortQ) (x : CSt) (s1 : State) (n : W64) (forced : Bool) : Option CSt :=
  match xlateRange b.c needW .st (d.slotVa n) 1 0 { x with s := s1 } [] with
  | .ok (x1, hd) =>
    (match xlateRange b.c needW .st (d.slotVa n + 64) ((tileBytes (HD.of (b.en.h 0)) + 63) / 64) 0 x1 [] with
      | .ok (x2, pas) =>
        if forced && (rd x2.s.mem (hd.headD 0 + 8)).getLsbD 0 then none
        else some { s := x2.s.writeMem (pa + 0x18) (toLE 8 (d.tail + 1).toNat), m := { x2.m with rows := d.msi n :: hd ++ pas } }
      | _ => none)
  | _ => none
/-- The slot of an ST.NET filled with a tile (R193): payload, length, tag and FULL, the host's vector, and 0 in s[b]. -/
def Begun.posts (b : Begun) (p : Sreg) (vals : List (Nat × Nat)) (x : CSt) : CSt :=
  let v := tileNum (HD.of (b.en.h 0)) vals
  let pas := x.m.rows.drop 1
  let s1 := (writePieces x.s (pas.drop 1) (toLE v.2 v.1)).writeMem (pas.headD 0)
    (toLE 4 v.2 ++ toLE 4 ((b.en.s 2).toNat % 2 ^ 32) ++ [1])
  { x with s := (s1.hostMsi (nth 0 x.m.rows 0)).upCore b.c (fun k => k.setS p 0) }
/-- A full port queue counts a drop, and the ST.NET gives 1 (R193). -/
def Begun.drops (b : Begun) (p : Sreg) (pa : Nat) (d : PortQ) (x : CSt) (s1 : State) : State :=
  b.settlesAs (.stNet (tokOf b.en.i) 0 0 p 0 0 0)
    { x with s := (s1.writeMem (pa + 0x20) (toLE 8 (d.drop + 1).toNat)).upCore b.c (fun k => k.setS p 1) }
/-- A body that stops in the state s by the cause x; while the FE can still start an instruction by that cycle, the entry stays as it
was (R248). -/
def Begun.trapsIn (b : Begun) (x : Stop) (s : State) : State := if b.q.feFirst b.c b.e then b.q else raise b.c x s
/-- The transfer that waits for its slot on a core has left by the first port of its route, in that slot (R409, R416). -/
def State.linkLeft (s : State) (c : Nat) : State :=
  match mfind s.links.sends c with
  | none => s
  | some x =>
    let s1 := s.reachSlot x.slot
    { s1 with links := { s1.links with sends := mdel s1.links.sends c } }.linkTurn x

end Sys2Proof.Machine
end

