-- ==== Sys2Proof/Certificates/Slice0/Obligations.lean ====
section
/-!
DEFINITION. Sys2Proof/Certificates/Slice0/Obligations.lean: the statements for the provers, in the order of OBLIGATIONS.json.
-/

open Sys2Proof Sys2Proof.Machine

/-- The decoder reads example words of the spec as the instructions they stand for (R44, R45, R105, R106, R110, R113, R150,
R183, R190, R214, R313, R361). Words that the spec writes out (MOVI s5, JR s63, LDS, HMOV, VCMP.F32 gt, LD.T with !sn, ST.MC,
MMA, MIGR, ACCEPT) decode to those instructions with those operands and token bits. -/
def Obligations.DecodeSpecWords : Prop :=
  decode 0x01014000#32 0x004040A0#32 = some (.movi {} 5 0 0x4040A0) ∧
  decode 0x01403F00#32 0 = some (.jr {} 63) ∧
  decode 0x01C08100#32 0 = some (.lds {} 2 1 0) ∧
  decode 0x02028800#32 0 = some (.hmov {} 5 2) ∧
  decode 0x08F20860#32 0 = some (.vcmp {} false .gt 2 3 .f32 .x1) ∧
  decode 0x14008440#32 0 = some (.ldT ⟨false, false, false, true⟩ 1 2 8 0 0) ∧
  decode 0x0C528C50#32 0x01C82401#32 = some (.stMc {} 5 6 10 7 8 9 1) ∧
  decode 0x0B086202#32 0x000A30E0#32 = some (.mma {} 1 3 2 2 5 6 7) ∧
  decode 0x0C900A30#32 0 = some (.migr {} 5 6 0 0) ∧
  decode 0x0B901062#32 0x02400000#32 = some (.accept {} 4 3 2 9)

/-- Decoding the words of any well-formed instruction gives that instruction back (R44, R45, R47, R48, R50, R51, R56, R57, R58,
R59). For every well-formed instruction (every constructor that is not an event) and every second word that agrees with its
second word where it has one, decode of its first word and that second word is the instruction, with every operand and token bit
at every value its encoding admits. -/
def Obligations.DecodeInvertsEncode : Prop :=
  ∀ i : Instr, i.isEvent = false → i.wf = true → ∀ w1 : BitVec 32, (∀ x, encode1 i = some x → w1 = x) →
    decode (encode0 i) w1 = some i

/-- Whatever words decode are the encoding of the well-formed instruction they decode to (R48, R60). If two words decode to i,
then i is an instruction and not an event, it is well formed, the first word is its first word with every reserved bit 0, and
the second word is its second word where it has one; so two different first words never decode to one instruction. -/
def Obligations.DecodeAcceptsOnlyEncodings : Prop :=
  ∀ (w0 w1 : BitVec 32) (i : Instr), decode w0 w1 = some i →
    i.isEvent = false ∧ i.wf = true ∧ encode0 i = w0 ∧ ∀ x, encode1 i = some x → x = w1

/-- A step at which a core fetches a decodable instruction is exec of that instruction (R20, R46, R60, R421). When the schedule
lets core c fetch (its turn, or the agenda names it) and its fetch gives the instruction i, step is exec of i on the state in
which time has passed, the FE of c stands at the present cycle if it was behind, the words read are corrected (R421) and the
instruction translations of the fetch are held. The schedule, the passing of time and the catching up are the model's choice
(log entries 2 and 14). -/
def Obligations.StepRunsTheDecodedInstruction : Prop :=
  (∀ (s : State) (c : Nat) (i : Instr), s.todo = .fetch c → (s.moving.fetch c).1 = .got i →
    step s = exec i ((s.moving.codeRead c).upCore c (fun k => (k.caught (s.moving.cycOf c)).withItlb (s.moving.fetch c).2)) ∧
    (s.moving.weak = [] → s.moving.codeRead c = s.moving)) ∧
  (∀ (s : State) (c : Nat) (t : List Act1), s.agenda = .run c :: t → (s.core c).mode = .running → (s.core c).sleep = .awake →
    (s.core c).halting = none →
    s.todo = .fetch c ∧ s.moving.cur = c) ∧
  (∀ (s : State) (i : Instr) (t : List Act1), s.agenda = .ev i :: t → i.isEvent = true → step s = exec i s.moving)

/-- A word of an unassigned opcode decodes to nothing, and a fetch or decode that fails raises its cause at the FE with no other
effect (R56, R57, R58, R59, R60). When wideOf says that (Q, OP) is not assigned, decode refuses the word whatever the second
word, and a core that fetches such a word gets the cause ILLEGAL of the FE. When core c fetches at its turn and the fetch gives
a cause x, the step raises x on c; the event DECODE_FAULT does the same on a live core. The instruction translations that the
fetch used are held, and the words it read are corrected (codeRead; log entry 31). -/
def Obligations.FetchFailureRaisesItsCause : Prop :=
  (∀ w0 w1 : BitVec 32, wideOf w0 = none → decode w0 w1 = none) ∧
  (∀ (s : State) (c : Nat) (w0 : BitVec 32), (s.fetchWord c (s.core c).itlb (s.core c).r.pc).1 = .word w0 → wideOf w0 = none →
    (s.fetch c).1 = .stop ⟨.illegal, .fe, 0, 0⟩) ∧
  (∀ (s : State) (c : Nat) (x : Stop), (s.core c).live = true → (s.fetch c).1 = .stop x →
    exec (.decodeFault c) s = .next (raise c x ((s.codeRead c).upCore c (fun k => k.withItlb (s.fetch c).2)))) ∧
  (∀ (s : State) (c : Nat) (x : Stop), s.todo = .fetch c → (s.moving.fetch c).1 = .stop x → (s.moving.core c).live = true →
    step s = .next (raise c x ((s.moving.codeRead c).upCore c (fun k => k.withItlb (s.moving.fetch c).2))))

/-- Every step keeps committed memory in its canonical form (R275, R278). From every state whose committed memory lists its
bytes at strictly rising addresses and lists no byte equal to what an unlisted address reads as (0, log entry 1), a step that
answers a next state leaves committed memory in that form. -/
def Obligations.MemoryStaysCanonical : Prop :=
  ∀ s s' : State, s.MemInv → step s = .next s' → s'.MemInv

/-- After package reset no core is released, the boot ROM runs, clocks and scratchpads are zero, memory is empty and canonical
(R16, R43, R118, R275, R389). State.reset satisfies the invariant of MemoryStaysCanonical: its memory lists nothing, so every
byte reads as 0 (log entry 1). In it every core is unreleased and runs no unit, every scalar and every scratchpad byte reads as
0, every handle is the null handle, every spill slot 0, PCFE 0 (log entry 4), STAT has only REG set, the token queues are empty;
every die's clock is 0; the Ikilith die is in its boot ROM with zero measurement registers. Scalars, handles, spill and STAT are
as R16 states them for a unit's start, taken by the model as reset values too (log entry 21). -/
def Obligations.ResetLeavesTheMachine : Prop :=
  State.reset.MemInv ∧ State.reset.mem = [] ∧ (∀ a, rd State.reset.mem a = 0) ∧
  ∀ c : Nat, (State.reset.core c).mode = .unreleased ∧ (State.reset.core c).run = none ∧
    (∀ r, (State.reset.core c).getS r = 0) ∧ (∀ h, (State.reset.core c).getH h = 0xC0000000#256) ∧
    (∀ n, (State.reset.core c).getSpill n = 0) ∧ (State.reset.core c).r.pc = 0 ∧ (State.reset.core c).getSr 0x001 = 0x100#64 ∧
    (∀ a, rd (State.reset.core c).pad.mem a = 0) ∧ (∀ d, (State.reset.core c).tok d = []) ∧ State.reset.cycOf c = 0 ∧
    State.reset.ik.boot = .rom ∧ (∀ j, mget 0 State.reset.ik.m j = 0)

/-- Each of the 36 scalar arithmetic, logic and constant instructions completes with the value the tables give (R38, R51, R102,
R103, R104, R105). From every state in which a scalar instruction of R102, R104 or R105 starts on the core that moves
(feBegins), exec answers the next state in which its destination receives, with the latency of its entry, the value that aluSpec
writes in terms of the signed and unsigned values of its operands; PCFE is behind it, its waits are spent and its signals are
pushed at its completion. Covers ADD SUB AND OR XOR SHL SHR SRA SLT SLTN SEQ SEL MIN MAX MINN MAXN MUL MULH MULHN DIV DIVN REM
REMN CLZ CTZ POPC ADDI ANDI ORI XORI SHLI SHRI SRAI SLTI MOVI MOVHI. -/
def Obligations.ScalarResults : Prop :=
  ∀ (s : State) (i : Instr) (k : Core) (t lat : Nat) (d : Sreg) (v : W64),
    s.feBegins i = some (k, t) → aluSpec k i = some (lat, d, v) →
    exec i s = .next (s.setCore s.cur ((k.result t lat d v).feDone (tokOf i) (t + lat)))

/-- DIV, DIVN, REM and REMN complete on every operand, with the results of the corner cases (R103). Every division that starts
answers the next state of its result after 20 cycles, whatever its operands; with b = 0 the quotients are all ones and the
remainders are a; for a = −2^63 and b = −1 DIV gives −2^63 and REM gives 0, while DIVN and REMN follow the unsigned rule. The
spec's example words SUB s4, s3, s2 and MUL s3, s1, s2 are their encodings, and DIV s7, s5, s0 gives all ones after 20 cycles.
-/
def Obligations.DivisionNeverTraps : Prop :=
  encode0 (.sub {} 4 3 2) = 0x00010309#32 ∧ encode0 (.mul {} 3 1 2) = 0x0040C108#32 ∧
  ∀ (s : State) (tok : Tok) (d a b : Sreg) (k : Core) (t : Nat),
    let out (i : Instr) (v : W64) : Prop :=
      exec i s = .next (s.setCore s.cur ((k.result t 20 d v).feDone tok (t + 20)))
    let x := k.getS a
    let y := k.getS b
    let corner : Prop := x.toInt = -2 ^ 63 ∧ y.toInt = -1
    (s.feBegins (.div tok d a b) = some (k, t) →
      (y = 0 → out (.div tok d a b) 0xFFFFFFFFFFFFFFFF#64) ∧ (corner → out (.div tok d a b) (BitVec.ofInt 64 (-2 ^ 63))) ∧
      (y ≠ 0 → ¬corner → out (.div tok d a b) (BitVec.ofInt 64 (x.toInt.tdiv y.toInt)))) ∧
    (s.feBegins (.divn tok d a b) = some (k, t) →
      (y = 0 → out (.divn tok d a b) 0xFFFFFFFFFFFFFFFF#64) ∧ (y ≠ 0 → out (.divn tok d a b) (BitVec.ofNat 64 (x.toNat / y.toNat)))) ∧
    (s.feBegins (.rem tok d a b) = some (k, t) →
      (y = 0 → out (.rem tok d a b) x) ∧ (corner → out (.rem tok d a b) 0) ∧
      (y ≠ 0 → ¬corner → out (.rem tok d a b) (BitVec.ofInt 64 (x.toInt - y.toInt * x.toInt.tdiv y.toInt)))) ∧
    (s.feBegins (.remn tok d a b) = some (k, t) →
      (y = 0 → out (.remn tok d a b) x) ∧ (y ≠ 0 → out (.remn tok d a b) (BitVec.ofNat 64 (x.toNat - y.toNat * (x.toNat / y.toNat)))))

/-- A scalar result is seen from its latency on and stored bytes from the cycle they are due on; before, and elsewhere, the old
values stand (R28, R35, R37, R40, R101). A result written by an FE instruction that starts in cycle t with latency L: in an
interlocked region, or with L at most 1, the register reads as the value at once; in a static region with L above 1 it keeps its
value until an instruction of the stream that starts in cycle t + L or later has made the writes that are due, and, when no
other write is pending, then reads as the value. s0 reads as 0 throughout and no other scalar changes. After a store of bytes at
a due in cycle n, an instruction that starts in cycle n or later reads those bytes there, provided that no other write is
pending in an interlocked region, and none that is due later than n in a static one; in a static region one that starts earlier
reads what stood before; at every address outside the stored bytes every instruction reads what it would have read. In an
interlocked region the granules whose highest byte is stored are set full and no other granule changes; in a static one no
full/empty bit changes. -/
def Obligations.WritesAreSeenWhenDue : Prop :=
  (∀ (k : Core) (t lat : Nat) (d : Sreg) (v : W64),
    let q := k.result t lat d v
    (∀ r, r ≠ d → q.getS r = k.getS r) ∧ q.getS 0 = 0 ∧
    ((k.interlocked = true ∨ lat ≤ 1) → d ≠ 0 → q.getS d = v) ∧
    (k.interlocked = false → 1 < lat → q.getS d = k.getS d ∧
      (k.eng.due = [] →
        (∀ now, now < t + lat → (q.flush .fe now).getS d = k.getS d) ∧
        (∀ now, t + lat ≤ now → d ≠ 0 → (q.flush .fe now).getS d = v) ∧
        (∀ now r, r ≠ d → (q.flush .fe now).getS r = k.getS r)))) ∧
  (∀ (k : Core) (st : Strm) (n a : Nat) (bs : List Byte),
    let q := k.storeDue st n a bs
    ((k.interlocked = true → k.eng.due = []) → (k.interlocked = false → ∀ x ∈ k.eng.due, x.due ≤ n) → ∀ now, n ≤ now → rdN (q.padAt now) a bs.length = bs) ∧
    (k.interlocked = false → ∀ now, now < n → q.padAt now = k.padAt now) ∧
    (∀ now x, x < a ∨ a + bs.length ≤ x → rd (q.padAt now) x = rd (k.padAt now) x) ∧
    (k.interlocked = false → q.pad = k.pad) ∧
    (k.interlocked = true → ∀ g, g ∈ q.pad.full ↔ g ∈ k.pad.full ∨ (a ≤ 256 * g + 255 ∧ 256 * g + 255 < a + bs.length)))

/-- J, JL, JR, BZ, BNZ, BLTZ, BGEZ and LOOP complete at their targets; JR to an unaligned address traps (R49, R62, R100, R106,
R107, R108). From every state in which it starts, with pc its own address: J and JL go to pc + 4 × off20 and JL writes pc + 4
into s63; JR goes to the value of a when that is a multiple of 4 and otherwise raises ALIGN with FF.ADDR the value, the jump not
taken; the four branches go to pc + 4 × off13 under their conditions and otherwise go on behind themselves; LOOP decrements its
counter, moves HRB.BASE on when ROT is set, and branches while the new count is not zero. A taken transfer lets its target start
2 cycles after it. -/
def Obligations.TransfersOfControl : Prop :=
  ∀ (s : State) (tok : Tok) (a : Sreg) (off : BitVec 13) (off20 : BitVec 20) (rot : Bool) (k : Core) (t : Nat),
    let pc := s.pcNow
    let far : W64 := BitVec.ofInt 64 (pc.toNat + 4 * off20.toInt)
    let near : W64 := BitVec.ofInt 64 (pc.toNat + 4 * off.toInt)
    let go (q : Core) (dst : W64) : Core := { q with r := { q.r with pc := dst }, eng := { q.eng with cyc := t + 2 } }
    let ends (q : Core) : State := s.setCore s.cur (q.feDone tok (t + 1))
    (s.feBegins (.j tok off20) = some (k, t) → exec (.j tok off20) s = .next (ends (go k far))) ∧
    (s.feBegins (.jl tok off20) = some (k, t) → exec (.jl tok off20) s = .next (ends (go (k.result t 1 63 (pc + 4)) far))) ∧
    (s.feBegins (.jr tok a) = some (k, t) →
      ((k.getS a).toNat % 4 = 0 → exec (.jr tok a) s = .next (ends (go k (k.getS a)))) ∧
      ((k.getS a).toNat % 4 ≠ 0 → exec (.jr tok a) s = .next (s.feTraps k ⟨.align, .fe, k.getS a, 0⟩))) ∧
    (s.feBegins (.bz tok a off) = some (k, t) →
      exec (.bz tok a off) s = .next (ends (if k.getS a = 0 then go k near else k))) ∧
    (s.feBegins (.bnz tok a off) = some (k, t) →
      exec (.bnz tok a off) s = .next (ends (if k.getS a = 0 then k else go k near))) ∧
    (s.feBegins (.bltz tok a off) = some (k, t) →
      exec (.bltz tok a off) s = .next (ends (if (k.getS a).toInt < 0 then go k near else k))) ∧
    (s.feBegins (.bgez tok a off) = some (k, t) →
      exec (.bgez tok a off) s = .next (ends (if 0 ≤ (k.getS a).toInt then go k near else k))) ∧
    (s.feBegins (.loop tok a rot off) = some (k, t) →
      let n : W64 := BitVec.ofInt 64 ((k.getS a).toNat - 1)
      let k1 := k.result t 1 a n
      let hrb := k.getSr 0x00A
      let k2 := if rot then k1.setSr 0x00A (putBits hrb 3 0 ((bits hrb 3 0 + 1) % 16)) else k1
      exec (.loop tok a rot off) s = .next (ends (if n = 0 then k2 else go k2 near)))

/-- NOP completes with no effect but its token bits, and is the word 0x03100000 (R24, R130). The first word of NOP without token
bits is 0x03100000. From every state in which it starts, NOP answers the next state in which the core is as the instruction
found it, with PCFE behind it, the tokens it waits for taken and its signals pushed. With the bits wn and sn it takes one token
from LD→FE (log entries 2 and 14: the token's cycle) and pushes one to FE→LD. -/
def Obligations.NopOnlyMovesTokens : Prop :=
  encode0 (.nop {}) = 0x03100000#32 ∧
  (∀ (s : State) (tok : Tok) (k : Core) (t : Nat), s.feBegins (.nop tok) = some (k, t) →
    exec (.nop tok) s = .next (s.setCore s.cur (k.feDone tok (t + 1)))) ∧
  (∀ (s : State) (k : Core) (t : Nat), let tok : Tok := ⟨false, true, false, true⟩
    (s.core s.cur).eng.satisfied = false → s.feBegins (.nop tok) = some (k, t) → k.run.isSome = true →
      (s.core s.cur).tok .ldFe ≠ [] ∧ k.tok .ldFe = ((s.core s.cur).tok .ldFe).tail ∧
      ((k.tok .feLd).length < 15 → ∃ u, exec (.nop tok) s = .next u ∧ (u.core s.cur).tok .feLd = k.tok .feLd ++ [t + 1] ∧
        (u.core s.cur).tok .ldFe = k.tok .ldFe))

/-- SPILL writes a scalar into its slot, FILL reads it back, in one cycle (R109). The words of SPILL s63, 5 and FILL s63, 5 are
those of the spec. From every state in which it starts, SPILL answers the next state in which its slot holds s[d] (0 for s0) and
FILL, when the slot has no uncorrectable word (R420), the one in which s[d] holds the slot's double, a FILL to s0 being
discarded, and a word of the slot with one failed bit is corrected (R421). Every slot number of the encoding, 0 to 511, is
admitted. -/
def Obligations.SpillAndFillMoveScalars : Prop :=
  encode0 (.spill {} 63 5) = 0x01AFC005#32 ∧ encode0 (.fill {} 63 5) = 0x01BFC005#32 ∧
  ∀ (s : State) (tok : Tok) (d : Sreg) (n : BitVec 9) (k : Core) (t : Nat),
    (s.feBegins (.spill tok d n) = some (k, t) →
      exec (.spill tok d n) s = .next (s.setCore s.cur ((k.setSpill n.toNat (k.getS d)).feDone tok (t + 1))) ∧
      (k.setSpill n.toNat (k.getS d)).getSpill n.toNat = k.getS d ∧ k.getS 0 = 0) ∧
    (s.feBegins (.fill tok d n) = some (k, t) → (k.spillBad n.toNat 1).isNone = true →
      let q := (k.corrects isSpill n.toNat 1).result t 1 d (k.getSpill n.toNat)
      exec (.fill tok d n) s = .next (s.setCore s.cur (q.feDone tok (t + 1))) ∧
      (d ≠ 0 → q.getS d = k.getSpill n.toNat) ∧ ∀ r, r ≠ d ∨ r = 0 → q.getS r = k.getS r)

/-- LDS reads the little-endian double at s[a] + 8 × imm8 and STS writes it, with latency 4; bad addresses trap (R36, R37, R101,
R110, R225). With x the address s[a] + 8 × imm8 in 64 bits: when x is a multiple of 8 in the scratchpad, no RELAX owns a byte of
it and, for LDS, nothing stops the read, LDS gives s[d] the double at x as an instruction of that cycle reads it, latency 4, and
corrects its word (R421), and STS stores the eight bytes of s[d] at x due in cycle t + 4; when x is not a multiple of 8 both
raise ALIGN, and outside 0 to 0x3FFFF8 both raise HANDLE, with FF.ADDR holding x. -/
def Obligations.ScratchpadLoadsAndStores : Prop :=
  ∀ (s : State) (tok : Tok) (d a : Sreg) (imm : BitVec 8) (k : Core) (t : Nat),
    let x : W64 := k.getS a + BitVec.ofInt 64 (8 * imm.toInt)
    (s.feBegins (.lds tok d a imm) = some (k, t) →
      (k.padReadable t x 8 = true →
        exec (.lds tok d a imm) s = .next (s.setCore s.cur (((k.corrPad [(x.toNat, 8)]).result t 4 d (rd64 (k.padAt t) x.toNat)).feDone tok (t + 4)))) ∧
      (x.toNat % 8 ≠ 0 → exec (.lds tok d a imm) s = .next (s.feTraps k ⟨.align, .fe, x, 0⟩)) ∧
      (x.toNat % 8 = 0 → 0x3FFFF8 < x.toNat → exec (.lds tok d a imm) s = .next (s.feTraps k ⟨.handle, .fe, x, 0⟩))) ∧
    (s.feBegins (.sts tok d a imm) = some (k, t) →
      (k.padOpen x 8 = true →
        exec (.sts tok d a imm) s =
          .next (s.setCore s.cur ((k.storeDue .fe (t + 4) x.toNat (toLE 8 (k.getS d).toNat)).feDone tok (t + 4)))) ∧
      (x.toNat % 8 ≠ 0 → exec (.sts tok d a imm) s = .next (s.feTraps k ⟨.align, .fe, x, 0⟩)) ∧
      (x.toNat % 8 = 0 → 0x3FFFF8 < x.toNat → exec (.sts tok d a imm) s = .next (s.feTraps k ⟨.handle, .fe, x, 0⟩)))

/-- HSET and HGET complete and move exactly the field their selector names, of the renamed handle (R31, R32, R111, R112). With f
a selector of R111, lo and w the lowest bit and the width R111 gives it, and h the physical handle that HRB names: HSET gives
that field the low w bits of s[a], keeps every other bit of the handle, as older results of the FE due by the next cycle leave
it (log entry 103), and never checks the result; HGET gives s[a] the field, extended by its sign for the strides and by zero
otherwise, latency 1, when no word of the handle is uncorrectable (R420), and corrects the handle (R421). -/
def Obligations.HandleFieldsSetAndGet : Prop :=
  ∀ (s : State) (tok : Tok) (hd : Hreg) (a : Sreg) (f : BitVec 5) (k : Core) (t lo w : Nat) (sgn : Bool),
    fieldSpec f.toNat = some (lo, w, sgn) →
    let h := (s.core s.cur).ren hd
    (s.feBegins (.hset tok h a f) = some (k, t) → ∃ u, exec (.hset tok hd a f) s = .next u ∧ u = s.setCore s.cur (u.core s.cur) ∧
      (∀ j, j < 256 → ((u.core s.cur).getH h).getLsbD j =
        if lo ≤ j ∧ j < lo + w then (k.getS a).getLsbD (j - lo) else ((k.flushIf (Due.ofH h (t + 1))).getH h).getLsbD j) ∧
      (∀ g, g ≠ h → (u.core s.cur).getH g = k.getH g) ∧ ∀ r, (u.core s.cur).getS r = k.getS r) ∧
    (s.feBegins (.hget tok h a f) = some (k, t) → (k.handleBad h).isNone = true →
      exec (.hget tok hd a f) s = .next (s.setCore s.cur (((k.corrects isHandle (4 * h.toNat) 4).result t 1 a
        (if sgn then BitVec.ofInt 64 ((k.getH h).extractLsb' lo w).toInt else BitVec.ofNat 64 ((k.getH h).extractLsb' lo w).toNat)).feDone
          tok (t + 1))))

/-- HMOV copies all 256 bits of a handle with latency 1 (R113). HMOV h5, h2 is the word 0x02028800, format H with opcode 0x20
and hb and f zero. From every state in which it starts, when no word of the source is uncorrectable (R420), HMOV answers the
next state in which the destination holds the 256 bits of the source, whatever they are; a word of the source with one failed
bit is corrected (R421). It starts only when neither handle is a stream of a vector instruction in the EX queue (R112). -/
def Obligations.HandlesAreCopied : Prop :=
  encode0 (.hmov {} 5 2) = 0x02028800#32 ∧
  (∀ (tok : Tok) (hd ha : Hreg), encode0 (.hmov tok hd ha) = tok.bits ++ 0x20#8 ++ hd ++ ha ++ 0#10) ∧
  ∀ (s : State) (tok : Tok) (hd ha : Hreg) (k : Core) (t : Nat),
    let h := (s.core s.cur).ren hd
    let g := (s.core s.cur).ren ha
    s.feBegins (.hmov tok h g) = some (k, t) →
      (∀ en ∈ (s.core s.cur).eng.ex, h ∉ hStreams en.i ∧ g ∉ hStreams en.i) ∧
      ((k.handleBad g).isNone = true →
        let q := (k.corrects isHandle (4 * g.toNat) 4).resultH t 1 h (k.getH g)
        exec (.hmov tok hd ha) s = .next (s.setCore s.cur (q.feDone tok (t + 1))) ∧ q.getH h = k.getH g)

/-- HLD and HST move the 32 bytes of a handle image to and from the scratchpad and four spill slots (R29, R32, R33, R114). With
x = s[a] + 32 × off: HLD gives the handle the 32 bytes at x, latency 4, and HST stores them due in cycle t + 4, when x is a
multiple of 32 in the scratchpad and nothing else stops the access; an unaligned x raises ALIGN, one outside 0 to 0x3FFFE0
raises HANDLE, with FF.ADDR x. The spill forms move slots 4n to 4n + 3, lowest double first, latency 1. No form checks the
image. Each corrects the words it reads (R421). -/
def Obligations.HandleImagesMove : Prop :=
  ∀ (s : State) (tok : Tok) (hd : Hreg) (a : Sreg) (off : BitVec 8) (n : BitVec 7) (k : Core) (t : Nat),
    let h := (s.core s.cur).ren hd
    let x : W64 := k.getS a + BitVec.ofNat 64 (32 * off.toNat)
    let m := 4 * n.toNat
    (s.feBegins (.hld tok h a off) = some (k, t) →
      (k.padReadable t x 32 = true → exec (.hld tok hd a off) s = .next (s.setCore s.cur
        (((k.corrPad [(x.toNat, 32)]).resultH t 4 h (BitVec.ofNat 256 (leNat (rdN (k.padAt t) x.toNat 32)))).feDone tok (t + 4)))) ∧
      (x.toNat % 32 ≠ 0 → exec (.hld tok hd a off) s = .next (s.feTraps k ⟨.align, .fe, x, 0⟩)) ∧
      (x.toNat % 32 = 0 → 0x3FFFE0 < x.toNat → exec (.hld tok hd a off) s = .next (s.feTraps k ⟨.handle, .fe, x, 0⟩))) ∧
    (s.feBegins (.hst tok h a off) = some (k, t) →
      (k.padOpen x 32 = true → (k.handleBad h).isNone = true → exec (.hst tok hd a off) s = .next (s.setCore s.cur
        (((k.corrects isHandle (4 * h.toNat) 4).storeDue .fe (t + 4) x.toNat (toLE 32 (k.getH h).toNat)).feDone tok (t + 4)))) ∧
      (x.toNat % 32 ≠ 0 → exec (.hst tok hd a off) s = .next (s.feTraps k ⟨.align, .fe, x, 0⟩)) ∧
      (x.toNat % 32 = 0 → 0x3FFFE0 < x.toNat → exec (.hst tok hd a off) s = .next (s.feTraps k ⟨.handle, .fe, x, 0⟩))) ∧
    (s.feBegins (.hldSpill tok h n) = some (k, t) → (k.spillBad m 4).isNone = true →
      exec (.hldSpill tok hd n) s = .next (s.setCore s.cur (((k.corrects isSpill m 4).resultH t 1 h
        (k.getSpill (m + 3) ++ k.getSpill (m + 2) ++ k.getSpill (m + 1) ++ k.getSpill m)).feDone tok (t + 1)))) ∧
    (s.feBegins (.hstSpill tok h n) = some (k, t) → (k.handleBad h).isNone = true →
      exec (.hstSpill tok hd n) s = .next (s.setCore s.cur
        ((((((k.corrects isHandle (4 * h.toNat) 4).setSpill m ((k.getH h).extractLsb' 0 64)).setSpill (m + 1) ((k.getH h).extractLsb' 64 64)).setSpill (m + 2)
          ((k.getH h).extractLsb' 128 64)).setSpill (m + 3) ((k.getH h).extractLsb' 192 64)).feDone tok (t + 1))))

/-- HADV moves the cursors from a dimension up as a mixed-radix counter, and traps where a stopped stream would leave its range
(R115). With P the mixed-radix value of the cursors from dimension dim upward, R the product of those extents and p = P + s (s
signed): when SAE is 0, or p lies in 0 to R − 1, HADV completes, the cursors from dim upward become the digits of p mod R, and
every other bit of the handle stays; when SAE is 1 and p lies outside, it raises HANDLE naming the handle. (dim is at most 4 in
a well-formed instruction.) -/
def Obligations.CursorsAdvanceAsMixedRadix : Prop :=
  ∀ (s : State) (tok : Tok) (hd : Hreg) (a : Sreg) (dim : BitVec 3) (k : Core) (t : Nat),
    let h := (s.core s.cur).ren hd
    dim.toNat ≤ 4 → s.feBegins (.hadv tok h a dim) = some (k, t) → (k.handleBad h).isNone = true →
    let ext (d : Nat) : Nat := let e := ((k.getH h).extractLsb' (32 + 12 * d) 12).toNat; if e = 0 then 4096 else e
    let cur (d : Nat) : Nat := ((k.getH h).extractLsb' (172 + 12 * d) 12).toNat
    let radix (d : Nat) : Nat := ((List.range d).filter (fun j => dim.toNat ≤ j)).foldl (fun r j => r * ext j) 1
    let p : Int := ((List.range 5).filter (fun j => dim.toNat ≤ j)).foldl (fun r j => r + cur j * radix j) (k.getS a).toInt
    (((k.getH h).getLsbD 232 = false ∨ (0 ≤ p ∧ p < radix 5)) →
      ∃ u, exec (.hadv tok hd a dim) s = .next u ∧ u = s.setCore s.cur (u.core s.cur) ∧
        (∀ d, d < 5 → ((u.core s.cur).getH h).extractLsb' (172 + 12 * d) 12 =
          if d < dim.toNat then (k.getH h).extractLsb' (172 + 12 * d) 12
          else BitVec.ofNat 12 ((p % (radix 5 : Nat)).toNat / radix d % ext d)) ∧
        ((u.core s.cur).getH h).extractLsb' 0 172 = (k.getH h).extractLsb' 0 172 ∧
        ((u.core s.cur).getH h).extractLsb' 232 24 = (k.getH h).extractLsb' 232 24 ∧
        (∀ g, g ≠ h → (u.core s.cur).getH g = k.getH g)) ∧
    ((k.getH h).getLsbD 232 = true → (p < 0 ∨ (radix 5 : Int) ≤ p) →
      exec (.hadv tok hd a dim) s = .next (s.feTraps k ⟨.handle, .fe, 0, BitVec.ofNat 64 (32 + h.toNat)⟩))

/-- FE instructions that work on their core change only their destinations, PCFE and the engine clocks (R20, R28, R100, R101).
For the scalar instructions, jumps, branches, LOOP, NOP, SPILL, FILL, LDS, STS, HSET, HGET, HMOV, HLD, HST (both forms each) and
HADV: whenever one starts and what its rule asks of its operands holds (feAllowed), exec answers a next state in which every
other core, every cluster, die, partition and all committed memory are as before, and on the core every scalar, handle, spill
slot, special register and scratchpad byte (as read in any cycle) outside those it writes (feDest) is as the instruction found
it, as are the vector state, tiles, queues, speculation, declarations, unit, pending set and translations; no word becomes
uncorrectable or weak, and ERR.CE counts the words corrected (R420, R421). -/
def Obligations.CoreOnlyInstructionsFrame : Prop :=
  ∀ (s : State) (i : Instr) (k : Core) (t : Nat),
    s.feBegins (s.named i) = some (k, t) → feAllowed k t (s.named i) = true →
    let d := feDest k (s.named i)
    ∃ q, exec i s = .next (s.setCore s.cur q) ∧ (∀ a, rd (s.setCore s.cur q).mem a = rd s.mem a) ∧
      q = { k with
        r := { k.r with s := q.r.s, h := q.r.h, spill := q.r.spill, sr := q.r.sr, pc := q.r.pc }
        pad := { k.pad with mem := q.pad.mem, full := q.pad.full }
        eng := { k.eng with toks := q.eng.toks, latch := q.eng.latch, due := q.eng.due, satisfied := q.eng.satisfied, cyc := q.eng.cyc }
        bad := q.bad, weak := q.weak, ce := q.ce } ∧ q.ce + q.weak.length ≤ k.ce + k.weak.length ∧
      (∀ r, r ∉ d.s → q.getS r = k.getS r) ∧ (∀ h, h ∉ d.h → q.getH h = k.getH h) ∧
      (∀ n, n ∉ d.spill → q.getSpill n = k.getSpill n) ∧ (∀ n, n ∉ d.sr → q.getSr n = k.getSr n) ∧
      (∀ now a, a < d.pad.1 ∨ d.pad.1 + d.pad.2 ≤ a → rd (q.padAt now) a = rd (k.padAt now) a) ∧
      (∀ w ∈ q.bad, w ∈ k.bad) ∧ (∀ w ∈ q.weak, w ∈ k.weak)

/-- HALT, TLBI, MIGR and moves of special registers from 0x200 up raise PRIV in an unprivileged unit (R60, R61, R131, R132,
R246, R313). On a live core whose unit is not privileged, HALT, TLBI, MIGR, and MOVSR and MOVRS of a register number of 0x200 or
more raise PRIV of the FE, and do nothing else: the state in which the cause is raised is the one the instruction found. -/
def Obligations.PrivilegedInstructionsTrap : Prop :=
  ∀ (s : State) (tok : Tok) (d a b fa fv : Sreg) (n : BitVec 14) (scope : BitVec 2),
    (s.core s.cur).live = true → (s.core s.cur).isPriv = false →
    let priv : Host.Outcome State Fault Refusal := .next (raise s.cur ⟨.priv, .fe, 0, 0⟩ s)
    exec (.halt tok) s = priv ∧ exec (.tlbi tok a b scope) s = priv ∧ exec (.migr tok a b fa fv) s = priv ∧
    (0x200 ≤ n.toNat → exec (.movsr tok d n) s = priv ∧ exec (.movrs tok d n) s = priv)

/-- Outside its state a region instruction is ILLEGAL, and in the body the side-effecting FE instructions raise SPEC.SIDE (R31,
R60, R245, R348, R349, R350). On a live core with no trap handler active: in the closed state SPEC.GO, SPEC.COMMIT and
SPEC.ABORT raise ILLEGAL; in the body SPEC.GO raises ILLEGAL, and SPEC.BEGIN, LAUNCH, CANCEL, ABORT, PHASE and REGION raise
SPEC.SIDE with FF.INFO the opcode byte (Q, OP); with a handler active SPEC.BEGIN, SPEC.GO, SPEC.COMMIT and SPEC.ABORT raise
SPEC.SIDE in every state. SPEC.BEGIN, whose handles no engine still writes, raises what the check of its two carry handles finds
(their words, R31, w rows from their cursors) before the speculation state is looked at, in every state. -/
def Obligations.SpeculationStateGates : Prop :=
  ∀ (s : State) (tok : Tok) (d a : Sreg) (hc hg : Hreg) (w : BitVec 3) (off : BitVec 28) (lvl : BitVec 2) (n : Bool),
    let k := s.core s.cur
    let raised (x : Stop) : Host.Outcome State Fault Refusal := .next (raise s.cur x s)
    let side (op : Nat) : Stop := ⟨.specSide, .fe, 0, BitVec.ofNat 64 op⟩
    let sb : Instr := .specBegin tok (k.ren hc) (k.ren hg) w off
    k.live = true →
    (k.ha = false → k.spec.st = .closed → exec (.specGo tok) s = raised ⟨.illegal, .fe, 0, 0⟩ ∧
      exec (.specCommit tok) s = raised ⟨.illegal, .fe, 0, 0⟩ ∧ exec (.specAbort tok) s = raised ⟨.illegal, .fe, 0, 0⟩) ∧
    (k.ha = false → k.spec.st = .body → exec (.specGo tok) s = raised ⟨.illegal, .fe, 0, 0⟩ ∧
      exec (.launch tok d a) s = raised (side 0x2C) ∧
      exec (.cancel tok d a lvl) s = raised (side 0x2D) ∧ exec (.abort tok lvl) s = raised (side 0x29) ∧
      exec (.phase tok d) s = raised (side 0x2A) ∧ exec (.region tok n) s = raised (side 0x26)) ∧
    (k.ha = true → exec (.specGo tok) s = raised (side 0x37) ∧
      exec (.specCommit tok) s = raised (side 0x38) ∧ exec (.specAbort tok) s = raised (side 0x39)) ∧
    (k.regWait sb = false →
      (∀ x, k.carryCheck sb = some x → exec (.specBegin tok hc hg w off) s = raised x) ∧
      (k.carryCheck sb = none → (k.ha = true ∨ k.spec.st ≠ .closed) → exec (.specBegin tok hc hg w off) s = raised (side 0x36)))

/-- TRAP and BREAK take their program trap: the frame is recorded, the streams set aside, and the FE goes to HANDLER (R128,
R245, R247, R250, R251, R252, R255). From every state in which TRAP n or BREAK starts with no handler active, a handler
registered (HANDLER not 0) and nothing in the engines, exec answers the next state in which CAUSE holds the code (0x40 or 0x41),
SRC 0 and HA, FF.FE and the engines' frame addresses hold the instruction's own address, FF.ADDR is 0 and FF.INFO is n (0 for
BREAK), the queues, tokens and latches are set aside with the region, the core starts with empty queues in an interlocked
region, and PCFE is HANDLER, whose instruction starts 16 cycles after everything that has run is complete; scalars, handles and
scratchpad are as they stand once every write pending has been made, and nothing outside the core changes but its place among
the cores that wait for the array. -/
def Obligations.TrapAndBreakEnterTheHandler : Prop :=
  ∀ (s : State) (tok : Tok) (n : BitVec 14) (k : Core) (t : Nat),
    k.idle = true → k.ha = false → k.getSr 0x009 ≠ 0 →
    let u := max (t + 1) k.drained
    let enters (i : Instr) (code info : W64) : Prop := s.feBegins i = some (k, t) → ∃ q, exec i s = .next ((s.unwait s.cur).setCore s.cur q) ∧
      q.getSr 0x002 = code ||| 0x8000 ∧ q.getSr 0x003 = s.pcNow &&& ~~~3#64 ∧ q.getSr 0x004 = s.pcNow &&& ~~~3#64 ∧
      q.getSr 0x005 = s.pcNow &&& ~~~3#64 ∧ q.getSr 0x006 = s.pcNow &&& ~~~3#64 ∧ q.getSr 0x007 = 0 ∧ q.getSr 0x008 = info ∧
      q.r.pc = k.getSr 0x009 ∧ q.interlocked = true ∧ q.eng = { Engines.reset with
        cyc := u + 16, ldAt := u + 16, exAt := u + 16, stAt := u + 16 } ∧
      (∃ f, q.frame = some f ∧ f.region = k.interlocked ∧ f.eng = { k.eng with due := [], cyc := u }) ∧
      (∀ r, q.getS r = k.flushAll.getS r) ∧ (∀ h, q.getH h = k.flushAll.getH h) ∧ q.pad = k.flushAll.pad ∧
      q.run = k.run ∧ q.v = k.v ∧ q.pend = k.pend
    enters (.trap tok n) 0x40 (n.setWidth 64) ∧ enters (.brk tok) 0x41 0

/-- A stop that no handler takes parks a persistent unit and frees the core of an idempotent one (R246, R251, R254, R261, R262,
R263). When the streams of a core that runs a unit have stopped and a cause is taken: a program trap with a handler registered
and none active leaves the unit on its core, with HA set; otherwise a persistent unit is parked on its core, which keeps its
unit, and an idempotent unit leaves its core, which runs nothing and is free. CAUSE then holds the code of the cause, its stream
in bits 11:10, in bit 12 whether it is a system fault and in bit 15 HA; of a parked unit HA and NEST tell whether a handler was
active; FF.FE is the FE's address, FF.ADDR and FF.INFO are the cause's (R251; FF.LD, FF.EX and FF.ST are those of the entry,
R250). -/
def Obligations.StopsEndOrParkTheUnit : Prop :=
  ∀ (s : State) (c : Nat) (x : Stop) (r : Running), (s.core c).run = some r →
    let u := s.takeStop c x
    let k := (s.core c).settled
    let handled : Prop := causeSys x.cause = false ∧ k.ha = false ∧ k.getSr 0x009 ≠ 0
    let code : Nat := causeCode x.cause + 2 ^ 10 * strmNo x.src + (if causeSys x.cause then 2 ^ 12 else 0)
    let tells (q : Core) (n : Nat) : Prop := q.getSr 0x002 = BitVec.ofNat 64 (code + n) ∧ q.getSr 0x003 = k.r.pc &&& ~~~3#64 ∧
      q.getSr 0x007 = x.addr ∧ q.getSr 0x008 = x.info
    (handled → (u.core c).run = some r ∧ (u.core c).ha = true ∧ (u.core c).r.pc = k.getSr 0x009 ∧ tells (u.core c) (2 ^ 15)) ∧
    (¬handled → r.pers = true → (u.core c).run = some r ∧ (u.core c).mode = .parked ∧
      tells (u.core c) (if k.ha then 2 ^ 14 + 2 ^ 15 else 0)) ∧
    (¬handled → r.pers = false → (u.core c).run = none ∧ (u.core c).mode = .free ∧ (u.core c).pend = [])

/-- ERET restores what was set aside, clears HA, and goes on at FF.FE, after it for TRAP and BREAK (4 cycles: log entry 88;
results not due: 93) (R129, R257). From every state in which ERET starts: with no handler active it raises ILLEGAL; with one
active and instructions still in the engines it waits; otherwise exec answers the next state in which HA is cleared and CAUSE
otherwise kept, the queues and the region that the handler's entry set aside are restored, the frame is gone, PCFE is FF.FE, or
FF.FE + 4 when the cause was TRAP or BREAK of the FE, and the instruction there starts 4 cycles after the drain (R257; R100's 2
cycles give way, log entry 88). The handler's own FE results that are not yet due stay so when the restored region is static,
and are made when it is interlocked (log entry 93, the model's reading). -/
def Obligations.EretReturnsToTheFrame : Prop :=
  ∀ (s : State) (tok : Tok) (k : Core) (t : Nat), s.feBegins (.eret tok) = some (k, t) →
    (k.ha = false → exec (.eret tok) s = .next (s.feTraps k ⟨.illegal, .fe, 0, 0⟩)) ∧
    (k.ha = true → k.idle = false → exec (.eret tok) s = .next (s.feWaits k)) ∧
    (k.ha = true → k.idle = true → ∀ f, k.frame = some f → ∃ q, exec (.eret tok) s = .next (s.setCore s.cur q) ∧
      q.getSr 0x002 = k.getSr 0x002 &&& ~~~0x8000#64 ∧ q.ha = false ∧ q.frame = none ∧ q.interlocked = f.region ∧
      q.eng.ld = f.eng.ld ∧ q.eng.ex = f.eng.ex ∧ q.eng.st = f.eng.st ∧ q.eng.due = (if f.region then [] else k.eng.due) ∧
      q.eng.cyc = t + 4 ∧
      q.r.pc = k.getSr 0x003 + (if (bits (k.getSr 0x002) 7 0 = 0x40 ∨ bits (k.getSr 0x002) 7 0 = 0x41) ∧
        bits (k.getSr 0x002) 11 10 = 0 then 4 else 0) ∧
      q.run = k.run ∧ q.v = k.v ∧ q.pend = k.pend ∧ ∀ r, q.getS r = (if f.region then k.flushAll else k).getS r)

/-- REGION waits for the engines, then switches STAT.REG (R41, R43, R119). From every state in which REGION n starts: while an
engine queue of its core is not empty it waits at its address with no effect; when all are empty exec answers the next state in
which STAT.REG is n (1 interlocked, 0 static), the rest of STAT as before. FE results that are not yet due are made when the
region that begins is interlocked, and stay so when it is static (the model's choice, log entry 93). -/
def Obligations.RegionWaitsThenSwitches : Prop :=
  ∀ (s : State) (tok : Tok) (n : Bool) (k : Core) (t : Nat), s.feBegins (.region tok n) = some (k, t) →
    let made := if n then k.flushAll else k
    (k.idle = false → exec (.region tok n) s = .next (s.feWaits k)) ∧
    (k.idle = true → ∃ q, exec (.region tok n) s = .next (s.setCore s.cur (q.feDone tok (t + 1))) ∧
      q = made.setSr 0x001 (q.getSr 0x001) ∧ q.interlocked = n ∧ q.eng.due = (if n then [] else k.eng.due) ∧
      ∀ j, j ≠ 8 → (q.getSr 0x001).getLsbD j = (made.getSr 0x001).getLsbD j)

/-- MOVSR completes with the register's value, is ILLEGAL for an unassigned number, and waits where R42 says (CYC's value: log
entries 14 and 36) (R42, R60, R61, R116, R118, R340, R386). On a live core whose unit may name it, a number that no rule assigns
raises ILLEGAL at decode, before any wait. From every state in which MOVSR d, n starts: a register that an EX instruction in
flight may still write makes it wait; otherwise exec answers the next state in which s[d] holds what a read of the register
returns (readSr), reading ENR.LO copies the high half of the energy counter into the core's shadow, and reading CYC, when the
order log is off, returns the later of the die's clock and the instruction's start cycle (the model's clocks, log entries 14 and
36) and counts as one order-revealing event of the attempt. -/
def Obligations.SpecialRegistersAreRead : Prop :=
  ∀ (s : State) (tok : Tok) (d : Sreg) (n : BitVec 14),
    ((s.core s.cur).live = true → (n.toNat < 0x200 ∨ (s.core s.cur).isPriv = true) → srInfo n.toNat = none →
      exec (.movsr tok d n) s = .next (raise s.cur ⟨.illegal, .fe, 0, 0⟩ s)) ∧
    ∀ (k : Core) (t : Nat), s.feBegins (.movsr tok d n) = some (k, t) →
    let s1 := s.setCore s.cur k
    let ends (u : State) (v : W64) : State := (u.upCore s.cur (fun q => q.result t 1 d v)).upCore s.cur (fun q => q.feDone tok (t + 1))
    srInfo n.toNat ≠ none ∧
    (k.srWaits n.toNat = true → exec (.movsr tok d n) s = .next (s.feWaits k)) ∧
    (k.srWaits n.toNat = false → n.toNat ≠ 0x010 → n.toNat ≠ 0x105 →
      exec (.movsr tok d n) s = .next (ends s1 (s1.readSr s.cur s.pcNow n.toNat))) ∧
    (n.toNat = 0x105 → k.srWaits 0x105 = false →
      exec (.movsr tok d n) s = .next (ends (s1.setCore s.cur { k with enrHi := BitVec.ofNat 32 (s.ik.energy / 2 ^ 32) })
        (BitVec.ofNat 64 (s.ik.energy % 2 ^ 32)))) ∧
    (n.toNat = 0x010 → k.srWaits 0x010 = false → (s.part (s.partNo s.cur)).logMode = 0 →
      exec (.movsr tok d n) s = .next (ends (s1.setCore s.cur { k with run := k.run.map (fun r => { r with events := r.events + 1 }) })
        (BitVec.ofNat 64 (max (s.cycOf s.cur) t))))

/-- MOVRS writes the RW bits and clears the W1C bits of its register, and is ILLEGAL for a read-only or unassigned one (R7, R32,
R43, R60, R61, R116, R255, R353). On a live core whose unit may name it, a number that no rule assigns and a register with no
writable bit raise ILLEGAL at decode, before any wait. From every state in which MOVRS d, n starts: a register that waits for
the engines (R116, R308) makes it wait; otherwise exec answers the next state with the register written. For STAT, HANDLER, HRB
and LTAG that state is spelled out: STAT loses exactly the sticky flags whose bits of s[d] are 1; where their reserved bits
stand at 0, HANDLER takes s[d] with bits 1:0 zero, HRB its EN and BASE, LTAG bits 3:0; no other register of the core changes,
and a read of each gives what was stored. -/
def Obligations.SpecialRegistersAreWritten : Prop :=
  ∀ (s : State) (tok : Tok) (d : Sreg) (n : BitVec 14),
    ((s.core s.cur).live = true → (n.toNat < 0x200 ∨ (s.core s.cur).isPriv = true) →
      (srInfo n.toNat = none ∨ srInfo n.toNat = some (0, 0)) →
      exec (.movrs tok d n) s = .next (raise s.cur ⟨.illegal, .fe, 0, 0⟩ s)) ∧
    (∀ (k : Core) (t : Nat), s.feBegins (.movrs tok d n) = some (k, t) →
    let s1 := s.setCore s.cur k
    let v := k.getS d
    let gives (m : Nat) (w : W64) : Prop := n.toNat = m → exec (.movrs tok d n) s = .next (s.setCore s.cur ((k.setSr m w).feDone tok (t + 1)))
    (∃ i, srInfo n.toNat = some i ∧ i ≠ (0, 0) ∧
      (k.srHolds n.toNat = true → exec (.movrs tok d n) s = .next (s.feWaits k)) ∧
      (k.srHolds n.toNat = false → exec (.movrs tok d n) s =
        .next ((s1.writeSr s.cur n.toNat i v).upCore s.cur (fun q => q.feDone tok (t + 1))))) ∧
    gives 0x001 (k.getSr 0x001 &&& ~~~(v &&& 0x1F)) ∧ (k.getSr 0x009 &&& 3#64 = 0 → gives 0x009 (v &&& ~~~3#64)) ∧
    (k.getSr 0x00A &&& ~~~0x10F#64 = 0 → gives 0x00A (v &&& 0x10F)) ∧ (k.getSr 0x00B &&& ~~~0xF#64 = 0 → gives 0x00B (v &&& 0xF))) ∧
    ∀ (k : Core) m w, (k.setSr m w).getSr m = w ∧ ∀ j, j ≠ m → (k.setSr m w).getSr j = k.getSr j

/-- WAITA returns 0 when its word meets the condition, 2 when an abort line is up, and otherwise sleeps (R54, R120, R340). From
every state in which WAITA d, a, v, u starts with no time limit (s[u] = 0), and whose address can be read (waitaPlace: a double
of its scratchpad or of Crock memory) with no early read: when the condition holds of the word and s[v], exec answers the next
state with s[d] = 0; when it does not and an abort line of the unit is asserted, with s[d] = 2; otherwise the FE sleeps at the
WAITA with the address, the reference, the condition and the cycle of its start. An address that is not a multiple of 8 raises
ALIGN with FF.ADDR holding it. -/
def Obligations.WaitaReturnsOrSleeps : Prop :=
  ∀ (s : State) (tok : Tok) (d a v u : Sreg) (cond : Cond) (k : Core) (t : Nat), s.feBegins (.waita tok d a v u cond) = some (k, t) →
    let addr := k.getS a
    (addr.toNat % 8 ≠ 0 → exec (.waita tok d a v u cond) s = .next (s.feTraps k ⟨.align, .fe, addr, 0⟩)) ∧
    (∀ s1 pad pa, waitaPlace (s.setCore s.cur k) s.cur addr = .ok (s1, pad, pa) →
      (pad = true → (k.earlyPad .fe false t addr.toNat 8).isNone = true) → k.getS u = 0 →
      let met := condInt cond (s1.waitaWord s.cur t addr pad pa) (k.getS v)
      let ends (st : W64) : State := (s1.upCore s.cur (fun q => q.result t 1 d st)).upCore s.cur (fun q => q.feDone tok (t + 1))
      (met = true → exec (.waita tok d a v u cond) s = .next (ends 0)) ∧
      (met = false → s1.abrt s.cur ≠ 0 → exec (.waita tok d a v u cond) s = .next (ends 2)) ∧
      (met = false → s1.abrt s.cur = 0 → exec (.waita tok d a v u cond) s = .next ((s1.upCore s.cur (fun q => { q with
        sleep := .waita tok d addr pad pa (k.getS v) cond 0 t false false })).upCore s.cur (fun q => q.setPc s.pcNow))))

/-- POLL copies ABRT into its register with latency 1 and does not stop the unit (R121). POLL s5 is the word 0x02814000; format
S with opcode 0x28 and n zero. From every state in which it starts, POLL answers the next state in which s[d] holds the abort
lines of the unit as they stand, with the unit still running on the core; the register numbered 0x04B reads the same. -/
def Obligations.PollReadsTheAbortLines : Prop :=
  encode0 (.poll {} 5) = 0x02814000#32 ∧ (∀ (tok : Tok) (d : Sreg), encode0 (.poll tok d) = tok.bits ++ 0x28#8 ++ d ++ 0#14) ∧
  ∀ (s : State) (tok : Tok) (d : Sreg) (k : Core) (t : Nat), s.feBegins (.poll tok d) = some (k, t) →
    let lines := (s.setCore s.cur k).abrt s.cur
    exec (.poll tok d) s = .next (s.setCore s.cur ((k.result t 1 d lines).feDone tok (t + 1))) ∧
    (d ≠ 0 → (k.result t 1 d lines).getS d = lines) ∧ ((k.result t 1 d lines).feDone tok (t + 1)).run = k.run ∧
    (s.setCore s.cur k).readSr s.cur s.pcNow 0x04B = lines

/-- ABORT and CANCEL complete: they assert the line of the launch, phase, graph, job or unit they name, and what lies in its
scope ends (log entries 28 and 106) (R126, R127, R324, R334). From every state in which it starts, ABORT n answers the next
state in which the line of the unit's own launch (0), open phase (1), graph (2) or job (3) is asserted, and CANCEL the one in
which the line of the object named by s[a] is, or, with d at level 0, of the one unit s[d] of that launch; in each case on
behalf of the issuing core, which is spared. What asserting comes to, in a partition whose launches are told apart and of which
no other core has a persistent unit in the line's scope: the line of a launch makes that launch aborted, and every running unit
of it sees bit 0 of ABRT; the line of the open phase or the next (no other, log entry 28) joins the asserted phases, and every
unit sees bit 1 while its phase is open; the line of a graph of a launch that has not ended joins the asserted graphs, and its
units see bit 2; the line of the job is set, and every unit sees bit 3. The launches in the scope that have not ended then have
no unit left to dispatch, and have ended unless a unit of theirs runs; every other launch is as it was, and every core runs what
it ran. The line of one unit takes a re-queued unit from its queue, marks a running one, whose ABRT shows bit 4, and one not yet
dispatched as dropped. A persistent unit of a launch whose line is asserted, on another core with nothing in its engines, ends:
its core runs nothing and is free. CANCEL at level 0 means the launches that the identifier names (one, but for the twins of log
entry 106). Asserting a line already asserted, or of an object that is not there or has ended, changes nothing. -/
def Obligations.AbortAndCancelAssertLines : Prop :=
  (∀ (s : State) (tok : Tok) (lvl : BitVec 2) (k : Core) (t : Nat) (r : Running), s.feBegins (.abort tok lvl) = some (k, t) → k.run = some r →
    let p := s.partNo s.cur
    let s1 := s.setCore s.cur k
    let ends (u : State) : Host.Outcome State Fault Refusal := .next (u.upCore s.cur (fun q => q.feDone tok (t + 1)))
    (lvl = 0 → exec (.abort tok lvl) s = ends (s1.abortLaunch p (some s.cur) r.ref)) ∧
    (lvl = 1 → exec (.abort tok lvl) s = ends (s1.abortPhase p (some s.cur) (s.part p).phase)) ∧
    (lvl = 2 → exec (.abort tok lvl) s = ends (s1.abortGraph p (some s.cur) (k.getSr 0x048))) ∧
    (lvl = 3 → exec (.abort tok lvl) s = ends (s1.abortJob p (some s.cur) (s.part p).job))) ∧
  (∀ (s : State) (tok : Tok) (d a : Sreg) (lvl : BitVec 2) (k : Core) (t : Nat), s.feBegins (.cancel tok d a lvl) = some (k, t) →
    let p := s.partNo s.cur
    let s1 := s.setCore s.cur k
    let ends (u : State) : Host.Outcome State Fault Refusal := .next (u.upCore s.cur (fun q => q.feDone tok (t + 1)))
    (lvl = 0 → d = 0 → exec (.cancel tok d a lvl) s = ends (s1.cancelLaunch p (some s.cur) (k.getS a))) ∧
    (lvl = 0 → d ≠ 0 → exec (.cancel tok d a lvl) s = ends (s1.cancelUnit p (some s.cur) (k.getS a) (k.getS d).toNat)) ∧
    (lvl = 1 → exec (.cancel tok d a lvl) s = ends (s1.abortPhase p (some s.cur) (k.getS a).toNat)) ∧
    (lvl = 2 → exec (.cancel tok d a lvl) s = ends (s1.abortGraph p (some s.cur) (k.getS a))) ∧
    (lvl = 3 → exec (.cancel tok d a lvl) s = ends (s1.abortJob p (some s.cur) (k.getS a)))) ∧
  (∀ (s : State) (p : Nat) (sp : Option Nat) (id : W64) (ord u : Nat) (r : LRef),
    let ls := (s.part p).launches
    ((s.part p).named id = [] → s.cancelLaunch p sp id = s ∧ s.cancelUnit p sp id u = s) ∧
    ((s.part p).named id = [r] → s.cancelLaunch p sp id = s.abortLaunch p sp r ∧ s.cancelUnit p sp id u = s.abortUnit p sp r u) ∧
    ((s.part p).launch r = none → s.abortLaunch p sp r = s ∧ s.abortUnit p sp r u = s) ∧
    (∀ l, (s.part p).launch r = some l → ((l.ended || l.aborted) = true → s.abortLaunch p sp r = s) ∧
      ((l.ended = true ∨ (∃ n, l.total = some n ∧ n ≤ u)) → s.abortUnit p sp r u = s)) ∧
    ((s.part p).abPhases.contains ord = true → s.abortPhase p sp ord = s) ∧
    (ord ≠ (s.part p).phase → ord ≠ (s.part p).phase + 1 → s.abortPhase p sp ord = s) ∧
    ((id = 0 ∨ (s.part p).abGraphs.contains id = true ∨ ls.all (fun l => l.ended || l.graph != id) = true) → s.abortGraph p sp id = s) ∧
    ((id ≠ (s.part p).job ∨ (s.part p).abJob = true) → s.abortJob p sp id = s) ∧
    ((ls.map Launch.ref).Nodup →
      (∀ l, (s.part p).launch r = some l → l.ended = false → l.aborted = false →
        let v := s.abortLaunch p sp r
        (s.quiet p sp.toList (fun x => x.ref == r) = true →
          (v.part p).launches = ls.map (fun x => if x.ref = r then Launch.stopped { x with aborted := true } else x) ∧ s.runsAs v ∧
          ∀ c x, s.partNo c = p → (s.core c).run = some x → x.ref = r → (v.abrt c).getLsbD 0 = true) ∧
        (∀ c x, c ∈ (s.part p).coreList → some c ≠ sp → s.quiet p (c :: sp.toList) (fun x => x.ref == r) = true →
          (s.core c).run = some x → x.pers = true → x.ref = r → (s.core c).idle = true → (v.core c).run = none ∧ (v.core c).mode = .free)) ∧
      ((ord = (s.part p).phase ∨ ord = (s.part p).phase + 1) → (s.part p).abPhases.contains ord = false →
        s.quiet p sp.toList (fun x => x.phase == ord && !x.ended) = true →
        let v := s.abortPhase p sp ord
        (v.part p).abPhases = (s.part p).abPhases ++ [ord] ∧
        (v.part p).launches = ls.map (fun x => if x.phase = ord ∧ x.ended = false then x.stopped else x) ∧ s.runsAs v ∧
        ∀ c x, s.partNo c = p → (s.core c).run = some x → ord = (s.part p).phase → (v.abrt c).getLsbD 1 = true) ∧
      (id ≠ 0 → (s.part p).abGraphs.contains id = false → ls.any (fun l => l.graph == id && !l.ended) = true →
        s.quiet p sp.toList (fun x => x.graph == id && !x.ended) = true →
        let v := s.abortGraph p sp id
        (v.part p).abGraphs = (s.part p).abGraphs ++ [id] ∧
        (v.part p).launches = ls.map (fun x => if x.graph = id ∧ x.ended = false then x.stopped else x) ∧ s.runsAs v ∧
        ∀ c x, s.partNo c = p → (s.core c).run = some x → (s.core c).getSr 0x048 = id → (v.abrt c).getLsbD 2 = true) ∧
      (id = (s.part p).job → (s.part p).abJob = false → s.quiet p sp.toList (fun x => !x.ended) = true →
        let v := s.abortJob p sp id
        (v.part p).abJob = true ∧ (v.part p).launches = ls.map (fun x => if x.ended = false then x.stopped else x) ∧ s.runsAs v ∧
        ∀ c x, s.partNo c = p → (s.core c).run = some x → (v.abrt c).getLsbD 3 = true) ∧
      (∀ l, (s.part p).launch r = some l → l.ended = false → (∀ n, l.total = some n → u < n) → s.quiet p sp.toList (fun x => x.ref == r) = true →
        let v := s.abortUnit p sp r u
        let waits := l.requeue.any (fun q => q.unit = u)
        (waits = true → s.runsAs v ∧ (v.part p).launches = ls.map (fun x => if x.ref = r then
          (let y := { x with requeue := x.requeue.filter (fun q => q.unit ≠ u) }; { y with ended := y.finished }) else x)) ∧
        (waits = false →
          (v.part p).launches = ls.map (fun x => if x.ref = r ∧ (x.total = none ∨ x.next ≤ u) ∧ x.dropped.contains u = false
            then { x with dropped := x.dropped ++ [u] } else x) ∧
          (∀ c x, c ∈ (s.part p).coreList → (s.core c).run = some x → x.ref = r → x.unit = u →
            (v.core c).run = some { x with aborted := true } ∧ (v.abrt c).getLsbD 4 = true) ∧
          (∀ c x, (s.core c).run = some x → (x.ref ≠ r ∨ x.unit ≠ u) → (v.core c).run = some x)))))

/-- PHASE is ILLEGAL in an idempotent unit, reports a persistent one, and returns 0 once the phase has changed (when an abort
line is looked at: log entry 107) (R122, R285). From every state in which PHASE d starts: in a unit that is not persistent it
raises ILLEGAL; in a persistent unit whose engines are not empty and whose PHASE has not reported it waits; with empty engines
it reports, unless the unit has reported in this phase already: its pending set ends with its writer key and an empty one
begins; it has then reported in the open phase, and returns 2 when an abort line is asserted (log entry 107), or waits at its
address; a PHASE that has reported in phase o returns 0, with UNIT's phase register the new ordinal, when the open phase is
another, 2 when an abort line is asserted, and otherwise waits. -/
def Obligations.PhaseCrossesTheBoundary : Prop :=
  ∀ (s : State) (tok : Tok) (d : Sreg) (k : Core) (t : Nat), s.feBegins (.phase tok d) = some (k, t) →
    let s1 := s.setCore s.cur k
    let p := s.partNo s.cur
    (k.isPers = false → exec (.phase tok d) s = .next (s.feTraps k ⟨.illegal, .fe, 0, 0⟩)) ∧
    (∀ r, k.run = some r → r.pers = true →
      (r.phaseAt = none → k.idle = false → exec (.phase tok d) s = .next (s.feWaits k)) ∧
      (r.phaseAt = none → k.idle = true →
        let ends : State := if r.reported then s
          else s.upPart p (fun pt => { pt with ended := pt.ended ++ [⟨(0, r.ordinal, r.unit, bits r.launch 63 48), k.pend⟩] })
        let q : Core := { k with pend := if r.reported then k.pend else [] }
        (s1.abrt s.cur = 0 → exec (.phase tok d) s = .next (ends.setCore s.cur
          ({ q with run := some { r with reported := true, phaseAt := some (s.part p).phase } }.setPc s.pcNow))) ∧
        (s1.abrt s.cur ≠ 0 → exec (.phase tok d) s = .next (ends.setCore s.cur
          ((Core.result { q with run := some { r with reported := true, phaseAt := none } } t 1 d 2).feDone tok (t + 1))))) ∧
      (∀ ord, r.phaseAt = some ord →
        ((s.part p).phase ≠ ord → exec (.phase tok d) s = .next (s.setCore s.cur
          ((Core.result { (k.setSr 0x047 (BitVec.ofNat 64 (s.part p).phase)) with run := some { r with phaseAt := none } } t 1 d 0).feDone
            tok (t + 1)))) ∧
        ((s.part p).phase = ord → s1.abrt s.cur ≠ 0 → exec (.phase tok d) s = .next (s.setCore s.cur
          ((Core.result { k with run := some { r with phaseAt := none } } t 1 d 2).feDone tok (t + 1)))) ∧
        ((s.part p).phase = ord → s1.abrt s.cur = 0 → exec (.phase tok d) s = .next (s.feWaits k))))

/-- LAUNCH of a well-formed record creates a launch of the next phase and returns its identifier (its graph: log entry 26;
twins: log entry 106) (R124, R125, R126, R323, R324, R334). From every state in which LAUNCH d, a starts: an address that is not
a multiple of 64 raises ALIGN; when the record's address translates for reading to an address x that no store on its way meets
and no uncorrectable word holds, then, with the record read there (one failed bit of it is corrected), a reason of R323 raises
RECORD with FF.INFO the reason, and otherwise exec answers the next state in which s[d] is the identifier made of the next
phase, the creating launch's ordinal, the unit and the number of launches its attempt created before, and the launch is made
(newLaunch). Making it, when no launch of that identifier by that creator's phase is known (log entry 106) and it lies in the
scope of no asserted line, puts at the end of the partition's launches a new one of that record for the next phase, in the
unit's graph (log entry 26, DEDUCED), held by the unit until an idempotent attempt is DONE. -/
def Obligations.LaunchCreatesALaunch : Prop :=
  (∀ (s : State) (tok : Tok) (d a : Sreg) (k : Core) (t : Nat), s.feBegins (.launch tok d a) = some (k, t) →
    let va := k.getS a
    let p := s.partNo s.cur
    (va.toNat % 64 ≠ 0 → exec (.launch tok d a) s = .next (s.feTraps k ⟨.align, .fe, va, 0⟩)) ∧
    (∀ x tlb r, va.toNat % 64 = 0 → translate s.mem ((s.setCore s.cur k).env s.cur) k.tlb [] va needR = (.ok x, tlb) → k.run = some r →
      let s1 := s.setCore s.cur { k with tlb := tlb }
      s1.storeMeets s.cur (t + 1) [x.pa / 64] = false → s1.memBad x.pa 64 = false →
      let rc := recordOf va (s1.loadBytes s.cur x.pa 64)
      let s2 := s1.corrMem x.pa 64
      let why := (s.part p).refuse rc k.isPriv r.created
      (why ≠ 0 → exec (.launch tok d a) s =
        .next (raise s.cur ⟨.record, .fe, va, BitVec.ofNat 64 why⟩ (s2.upCore s.cur (fun q => q.setPc s.pcNow)))) ∧
      (why = 0 →
        let id := launchId ((s.part p).phase + 1) r.ordinal r.unit r.created
        exec (.launch tok d a) s = .next ((s2.newLaunch p (id, bits r.launch 63 48) rc (k.getSr 0x048) (if r.pers then none
            else some (r.launch, r.born, r.unit))).setCore
            s.cur ((Core.result { k with tlb := tlb, run := some { r with created := r.created + 1 } } t 1 d id).feDone tok (t + 1)))))) ∧
  (∀ (s : State) (p : Nat) (r : LRef) (graph : W64) (rc : Record) (held : Option (W64 × Nat × Nat)),
    let l : Launch := ⟨r.1, r.2, (s.part p).phase + 1, 0, rc, graph, false, none, 0, [], 0, false, [], 0, false, held, false⟩
    (s.part p).launch r = none → (s.part p).lineOn l = false →
      s.newLaunch p r rc graph held = s.upPart p (fun pt => { pt with launches := pt.launches ++ [l] }))

/-- DONE and HALT end the unit once its engines are empty, and drain first when they are not (R18, R123, R125, R131). From every
state in which DONE starts, or HALT (in a privileged unit): with instructions still in the engines the core drains, its FE
stopped at the instruction (in the body of a speculative region DONE waits instead); with empty engines exec answers the next
state in which the core runs no unit, its pending set has passed to the phase under the unit's writer key, and the core is free
(DONE) or halted (HALT). -/
def Obligations.DoneAndHaltEndTheUnit : Prop :=
  ∀ (s : State) (tok : Tok) (k : Core) (t : Nat) (r : Running), k.run = some r →
    let p := s.partNo s.cur
    let over' (u : State) (m : Mode) : Prop := (u.core s.cur).run = none ∧ (u.core s.cur).mode = m ∧ (u.core s.cur).pend = [] ∧
      (u.part p).ended = (s.part p).ended ++ [⟨(0, r.ordinal, r.unit, bits r.launch 63 48), k.pend⟩]
    (s.feBegins (.done tok) = some (k, t) →
      (k.idle = false → k.spec.st ≠ .body → exec (.done tok) s = .next (s.setCore s.cur ({ k with mode := .drain false }.setPc s.pcNow))) ∧
      (k.idle = false → k.spec.st = .body → exec (.done tok) s = .next (s.feWaits k)) ∧
      (k.idle = true → ∃ u, exec (.done tok) s = .next u ∧ over' u .free)) ∧
    (s.feBegins (.halt tok) = some (k, t) →
      (k.idle = false → exec (.halt tok) s = .next (s.setCore s.cur ({ k with mode := .drain true }.setPc s.pcNow))) ∧
      (k.idle = true → ∃ u, exec (.halt tok) s = .next u ∧ over' u .halted))

/-- TLBI completes on empty copy queues and leaves no held translation in its scope (R132, R280, R307, R310). From every state
in which TLBI a, b, scope starts on a core whose LD and ST queues are empty and not held back by the schedule, exec answers the
next state in which the core's data and instruction translations are those it held outside the scope, and nothing else of the
core but PCFE and its clock has changed; its queues count as full only while instructions that have run still take their room,
and without such the FE goes on in the next cycle. Scope 2 drops all; scope 1 those of the identifier in s[b]; scope 0 those of
the page of s[a] under it. With something in the LD queue its markers stand behind what stands in both queues, the FE's
translations leave, the data translations stay, and the TLBI waits at its address. -/
def Obligations.TlbiDropsTranslations : Prop :=
  ∀ (s : State) (tok : Tok) (a b : Sreg) (scope : BitVec 2) (k : Core) (t : Nat), s.feBegins (.tlbi tok a b scope) = some (k, t) →
    let asid := (k.getS b).toNat % 2 ^ 16
    let gone (l : List ((Nat × Nat) × W64)) := tlbDrop l scope.toNat asid (k.getS a).toNat
    (k.eng.ld = [] → k.eng.st = [] → k.eng.holdLd = false → k.eng.holdSt = false → ∃ n, t ≤ n ∧ (k.eng.left = [] → n = t) ∧
      exec (.tlbi tok a b scope) s = .next (s.setCore s.cur (Core.feDone { k with
        tlb := gone k.tlb, itlb := gone k.itlb, eng := { k.eng with cyc := n + 1 } } tok (t + 1)))) ∧
    (k.eng.ld ≠ [] → (k.eng.ld ++ k.eng.st).any Entry.marker = false →
      k.roomAt .ld (.tlbi tok a b scope) t ≠ none → k.roomAt .st (.tlbi tok a b scope) t ≠ none →
      ∃ q en m, exec (.tlbi tok a b scope) s = .next (s.setCore s.cur q) ∧ en.i = .tlbi tok a b scope ∧ en.sv = [k.getS a, k.getS b] ∧
        q.eng.ld = k.eng.ld ++ [en] ∧ q.eng.st = k.eng.st ++ [{ en with mark := m }] ∧ q.r.pc = s.pcNow ∧
        q.itlb = gone k.itlb ∧ q.tlb = k.tlb) ∧
    (scope = 2 → ∀ l, gone l = []) ∧ (scope = 1 → ∀ l e, e ∈ gone l ↔ e ∈ l ∧ e.1.1 ≠ asid) ∧
    (scope = 0 → ∀ l e, e ∈ gone l ↔ e ∈ l ∧ ¬(e.1.1 = asid ∧ (k.getS a).toNat / pageSize (e.1.2 % 4) = e.1.2 / 4))

/-- PWR.DECL grants a ticket, sleeps or raises PWR.OVER; PWR.ACQ activates or sleeps; PWR.REL ends the declaration (the clocks:
log entries 14 and 36) (R370, R371, R372, R373, R374). From every state in which it starts: PWR.DECL waits a step for its own
cycle, in which its declaration is ordered among the die's (the model's clocks, log entries 14 and 36); it raises PWR.OVER when
the core already has 4 declarations outstanding or its intensities would exceed 15; when the cluster's sum then admits the
intensity, exec answers the next state in which s[d] is the ticket (core and serial) and the core's declarations, those that
have lapsed or run out marked so, end with the new one, granted, with its beats; otherwise the FE sleeps. PWR.ACQ of a ticket
that names no outstanding declaration completes with no effect; of one whose start has come it ends the core's other active
declarations and makes it active; otherwise the FE sleeps. PWR.REL ends the named declaration, or none. -/
def Obligations.PowerDeclarations : Prop :=
  ∀ (s : State) (tok : Tok) (d a : Sreg) (len onset : BitVec 14) (int : BitVec 4) (k : Core) (t : Nat),
    let s1 := s.setCore s.cur k
    let back (u : State) : State := u.upCore s.cur (fun q => q.setPc s.pcNow)
    let ends (u : State) : State := u.upCore s.cur (fun q => q.feDone tok (t + 1))
    (s.feBegins (.pwrDecl tok d len onset int) = some (k, t) →
      (s.cycOf s.cur < t → exec (.pwrDecl tok d len onset int) s =
        .next (back (s.setCore s.cur { k with eng := { k.eng with cyc := t } }))) ∧
      (t ≤ s.cycOf s.cur → (4 ≤ (s1.outs s.cur).length ∨ 15 < s1.ownSum s.cur + int.toNat) →
        exec (.pwrDecl tok d len onset int) s = .next (s.feTraps k ⟨.pwrOver, .fe, 0, 0⟩)) ∧
      (t ≤ s.cycOf s.cur → (s1.outs s.cur).length < 4 → s1.ownSum s.cur + int.toNat ≤ 15 → 15 < s1.cluSum (s.cur / 4) + int.toNat →
        exec (.pwrDecl tok d len onset int) s =
          .next (back (s.setCore s.cur { k with sleep := .decl tok d onset.toNat int.toNat len.toNat }))) ∧
      (t ≤ s.cycOf s.cur → (s1.outs s.cur).length < 4 → s1.ownSum s.cur + int.toNat ≤ 15 → s1.cluSum (s.cur / 4) + int.toNat ≤ 15 →
        ∃ u coll collK,
        exec (.pwrDecl tok d len onset int) s = .next u ∧
        (u.core s.cur).decls = s1.declsNow s.cur ++ [⟨s1.serial s.cur, int.toNat, len.toNat, s1.grantAt s.cur t onset.toNat int.toNat, false, true,
          coll, collK, 0, false, 0, 0⟩] ∧ (d ≠ 0 → (u.core s.cur).getS d = BitVec.ofNat 64 (256 * s.cur + s1.serial s.cur)))) ∧
    (s.feBegins (.pwrAcq tok a) = some (k, t) →
      (s1.declIx s.cur (k.getS a) = none → exec (.pwrAcq tok a) s = .next (ends s1)) ∧
      (∀ j, s1.declIx s.cur (k.getS a) = some j →
        let s2 := s.setCore s.cur (k.endOthers j)
        (s2.hasStarted s.cur (k.decl j) = true →
          exec (.pwrAcq tok a) s = .next (ends (s.setCore s.cur ((k.endOthers j).activate j)))) ∧
        (s2.hasStarted s.cur (k.decl j) = false → exec (.pwrAcq tok a) s =
          .next (back (s.setCore s.cur { (k.endOthers j) with sleep := .acq tok (k.decl j).serial }))))) ∧
    (∀ j i, i < k.decls.length → ((k.endOthers j).activate j).decl i =
      (if i = j then { k.decl i with active := true } else if (k.decl i).out && (k.decl i).active then { k.decl i with out := false, active := false }
        else k.decl i) ∧
      (k.endDecl j).decl i = (if i = j then { k.decl i with out := false, active := false } else k.decl i)) ∧
    (s.feBegins (.pwrRel tok a) = some (k, t) →
      (s1.declIx s.cur (k.getS a) = none → exec (.pwrRel tok a) s = .next (ends s1)) ∧
      (∀ j, s1.declIx s.cur (k.getS a) = some j → exec (.pwrRel tok a) s = .next (ends (s.setCore s.cur (k.endDecl j)))))

/-- SPEC.BEGIN opens a region and goes to the guess routine, SPEC.GO enters the body, SPEC.COMMIT and SPEC.ABORT close it (R350,
R351, R362, R363). From every state in which it starts (and so in the speculation state it needs, the two carry handles of
SPEC.BEGIN having passed their check, with w more rows each): SPEC.BEGIN answers the next state in the guessing state with
SPEC.W = w, SPEC.ACC = 1, SPEC.RET the address behind it and PCFE its own address + 4 × off28; SPEC.GO the one in the body state
with PCFE = SPEC.RET; SPEC.ABORT, with empty engines, the one in the closed state in which the green sets, held commands and
deferred ones are gone and the descriptors are closed with no lane kept; SPEC.COMMIT, with empty engines and when the held
commands of its A kept lanes re-issue (none held: always), the closed state in which the kept green sets have joined the pending
set lane by lane and the kept deferral entries stand in the ST queue, placed one in a cycle. -/
def Obligations.SpeculativeRegionOpensAndCloses : Prop :=
  ∀ (s : State) (tok : Tok) (hc hg : Hreg) (wm1 : BitVec 3) (off : BitVec 28) (k : Core) (t : Nat),
    let ren := (s.core s.cur).ren
    let ends (u : State) : State := u.upCore s.cur (fun q => q.feDone tok (t + 1))
    (s.feBegins (.specBegin tok (ren hc) (ren hg) wm1 off) = some (k, t) → ∃ q, exec (.specBegin tok hc hg wm1 off) s = .next (s.setCore s.cur q) ∧
        q.spec = { Spec.reset with st := .guessing } ∧ q.getSr 0x0C1 = BitVec.ofNat 64 (wm1.toNat + 1) ∧ q.getSr 0x0C2 = 1 ∧
        q.getSr 0x0C5 = s.pcNow + 8 ∧ q.r.pc = BitVec.ofInt 64 (s.pcNow.toNat + 4 * off.toInt) ∧ q.r.s = k.r.s ∧ q.r.h = k.r.h) ∧
    (s.feBegins (.specGo tok) = some (k, t) → ∃ q, exec (.specGo tok) s = .next (s.setCore s.cur q) ∧
        q.spec = { k.spec with st := .body } ∧ q.r.pc = k.getSr 0x0C5 ∧ q.r.s = k.r.s ∧ q.r.h = k.r.h ∧ q.r.sr = k.r.sr) ∧
    (s.feBegins (.specAbort tok) = some (k, t) → k.idle = true → ∃ u, exec (.specAbort tok) s = .next u ∧
        (u.core s.cur).spec = .reset ∧ (u.core s.cur).pend = k.pend ∧ u.mem = ((s.setCore s.cur k).closeDescs s.cur 0).mem ∧
        (u.core s.cur).getSr 0x0C3 = BitVec.ofNat 64 (k.spec.held.length % 2 ^ 16) ∧ (u.core s.cur).eng.st = []) ∧
    (s.feBegins (.specCommit tok) = some (k, t) → k.idle = true →
      let a := bits (k.getSr 0x0C2) 3 0
      ∀ x, reissueAll s.cur t (heldBelow a k.spec.held) (s.setCore s.cur k) = .ok x →
        exec (.specCommit tok) s = .next (ends ((x.closeDescs s.cur a).upCore s.cur (fun q => q.commitLanes a))) ∧
        (k.spec.held = [] → x = s.setCore s.cur k ∧ (k.commitLanes a).spec = .reset ∧
          (k.commitLanes a).pend = (List.range a).foldl (fun l j => pendAll l (mget [] k.spec.green j)) k.pend ∧
          (k.commitLanes a).getSr 0x0C3 = 0 ∧ (k.commitLanes a).eng.st =
            ((List.range a).flatMap (fun j => (k.spec.defer.filter (fun d => d.1 = j)).map (·.2))).zipIdx.map (fun y =>
              { y.1 with routed := k.eng.cyc + 7 + k.spec.descs.length + y.2 })))

/-- An instruction of the LD, EX or ST class is routed to the end of its engine's queue with its operands as they stand (R20,
R22, R24, R32, R45, R101). For every instruction of an engine (all 123 that engOf gives one): whenever it can be routed (routes:
live core, privilege, registers and earlier stores there, FE checks passed, room) and its queue was not empty or is held back by
the schedule, exec answers the next state in which the queue of that engine has the new entry at its end, with the physical
handle names, the instruction's address, no progress and no token taken, and, when no write is pending, the scalar values as
they stand; the other two queues are as before and PCFE is behind the instruction. -/
def Obligations.RoutedInstructionsJoinTheirQueue : Prop :=
  ∀ (s : State) (i : Instr) (e : Eng) (en : Entry) (s1 : State), engOf i = some e →
    s.routes e (s.named i) (feCheck i) = some (en, s1) → ((s.core s.cur).queue e ≠ [] ∨ (s.core s.cur).holds e = true) →
    let k := s.core s.cur
    let q := s1.core s.cur
    exec i s = .next s1 ∧ q.queue e = k.queue e ++ [en] ∧ (∀ e', e' ≠ e → q.queue e' = k.queue e') ∧
    en.i = s.named i ∧ en.pc = s.pcNow ∧ en.mark = .fresh ∧ en.waited = false ∧
    (k.eng.due = [] → en.sv = (sReads (s.named i)).map k.getS) ∧ q.r.pc = s.pcNow + BitVec.ofNat 64 i.size ∧
    s1 = s.setCore s.cur q ∧ q.run = k.run ∧ q.v = k.v

/-- MPUSH, MINV, MPOP, MSET, MGET and VSKIP complete with the mask stack R143 gives, or raise MASK at its ends (R141, R142,
R143, R144, R145). From every state in which it begins at the EX (begins), with d the depth and the top entry as found: MPUSH
below depth 15 pushes top AND CMK, and at depth 15 raises MASK with FF.INFO the depth; MINV, MPOP and MSET at depth 0 raise
MASK; above it MINV gives the top entry the entry below AND NOT top, MPOP drops it, MSET writes its scalar into all four
quarters or into quarter q; MGET sets MK.CNT to the depth and the number of ones and MK.ANY to whether there is one; VSKIP n
sets the skip counter to n when the top entry is 0, and otherwise changes nothing. Entries below the top never change. -/
def Obligations.MaskInstructionsWorkOnTheStack : Prop :=
  ∀ (s : State) (tok : Tok) (d : Sreg) (fl : Bool) (q : BitVec 2) (n : BitVec 12) (b : Begun),
    let k := b.core
    let dep := k.v.depth
    let below (k' : Core) (m : Nat) : Prop := k' = { k with v := { k.v with stack := k'.v.stack, depth := k'.v.depth } } ∧
      ∀ j, j < m → k'.maskAt j = k.maskAt j
    let stops (i : Instr) : Prop :=
      exec i s = .next (b.traps ⟨.mask, .ex, 0, BitVec.ofNat 64 dep⟩)
    (s.begins (.mpush tok) = some b →
      (dep = 15 → stops (.mpush tok)) ∧
      (dep ≠ 15 → ∃ k', exec (.mpush tok) s = .next (b.ends 1 k') ∧ below k' (dep + 1) ∧ k'.v.depth = dep + 1 ∧
        k'.top = k.top &&& k.v.cmk)) ∧
    (s.begins (.minv tok) = some b →
      (dep = 0 → stops (.minv tok)) ∧
      (dep ≠ 0 → ∃ k', exec (.minv tok) s = .next (b.ends 1 k') ∧ below k' dep ∧ k'.v.depth = dep ∧
        k'.top = k.maskAt (dep - 1) &&& ~~~k.top)) ∧
    (s.begins (.mpop tok) = some b →
      (dep = 0 → stops (.mpop tok)) ∧
      (dep ≠ 0 → ∃ k', exec (.mpop tok) s = .next (b.ends 1 k') ∧ below k' (dep + 1) ∧ k'.v.depth = dep - 1)) ∧
    (s.begins (.mset tok d fl q) = some b →
      (dep = 0 → stops (.mset tok d fl q)) ∧
      (dep ≠ 0 → ∃ k', exec (.mset tok d fl q) s = .next (b.ends 1 k') ∧ below k' dep ∧ k'.v.depth = dep ∧
        ∀ j, j < 256 → k'.top.getLsbD j =
          if fl = true ∨ j / 64 = q.toNat then (b.en.s 0).getLsbD (j % 64) else k.top.getLsbD j)) ∧
    (s.begins (.mget tok) = some b →
      exec (.mget tok) s = .next (b.ends 1 ((k.setSr 0x148 (BitVec.ofNat 64
        (((List.range 256).filter (fun j => k.top.getLsbD j)).length + 2 ^ 16 * dep))).setSr 0x149 (if k.top = 0 then 0 else 1)))) ∧
    (s.begins (.vskip tok n) = some b →
      exec (.vskip tok n) s = .next (b.ends 1 (if k.top = 0 then { k with v := { k.v with skip := n.toNat } } else k)))

/-- One repetition of a lane-wise vector instruction writes each active lane's result and advances its streams (R35, R38, R43,
R134, R135, R136, R137, R138, R146, R148, R149, R156). For VADD VSUB VMUL VFMA VDIV VMIN VMAX VABS VNEG VAND VOR VXOR VSHL VSHR
VSRA VMOV VLOG2 VEXP2 VRCP VRSQ VSQRT VTANH without a repeat suffix: whenever one begins at the EX, its streams open (R134), its
formats suit its type (R137), and no tracked granule that its active lanes write is still full once those it reads are emptied
(R35), exec answers the next state in which, lane by lane over the active lanes, the destination's elements hold the lane's
result rounded to the destination's format, due after the latency of R38, the flags of the lanes are due in STAT with them, and
every stream has advanced by its own count. The other clauses give a lane's result by its operands: in a floating type the exact
sum, difference, product, fused sum, quotient, reciprocal, root and reciprocal root of R148 and R156 rounded once (a root by a
rational on the same side of every value with 200 bits, log entry 5; a zero sum is +0 unless both are -0, for a difference log
entry 85), log2 of the powers of two and the powers of two themselves, the special cases of zeros, infinities and NaN with NV
and DZ, minimum and maximum with -0 below +0; in an integer type every operation of R148 and R149 modulo 2^width. -/
def Obligations.LaneWiseVectorResults : Prop :=
  (∀ (s : State) (i : Instr) (b : Begun) (o : LaneOp) (v : VIn), s.begins i = some b → laneOp (s.named i) = some o → o.rp = .x1 →
    let rs := o.src.map (fun r => (r, o.ty.lanes))
    vOpen b.core b.t none rs [(o.hd, o.ty.lanes)] = .ok v → fmtStop o.ty v.l o.src [o.hd] = none →
    let d := srcOf v.l o.hd
    let lane (j : Nat) : Lane × Fl := o.op (o.src.map (fun r => nth (.i 0) (lanesOf o.ty v.m (srcOf v.l r)) j))
    let act := actives b.core true o.ty.lanes v.l
    let k0 := vTake b.core v rs
    (∀ x ∈ v.l, x.reg = o.hd → k0.fetWrite x.h (x.h.spans (act.map x.h.along) (act.map (nth 0 x.ads))) = false) →
    let k1 := writeEls k0 (b.t + o.lat) d (act.map (fun j => (j, (writeLane o.ty d.h.fmt (lane j).1).1)))
    let f : Fl := act.foldl (fun g j => g ||| ((lane j).2 ||| (writeLane o.ty d.h.fmt (lane j).1).2)) 0
    exec i s = .next (b.ends o.lat ((vClose k1 v.l o.src.head?).1.flagsAt (b.t + o.lat) f))) ∧
  (∀ (ty : VTy) (x y z : Nat) (tok : Tok) (d a c : Hreg) (rp : Rep), ty.isFloat = false → x < 2 ^ ty.bitsN → y < 2 ^ ty.bitsN →
    z < 2 ^ ty.bitsN →
    let w := 2 ^ ty.bitsN
    let sh := y % ty.bitsN
    let bitwise (i : Instr) : Option (Lane × Fl) := (laneOp i).map (fun o => o.op [.i x, .i y])
    (opAdd ty [.i x, .i y]).1 = .i ((x + y) % w) ∧ (opSub ty [.i x, .i y]).1 = .i ((x + w - y) % w) ∧
    (opMul ty [.i x, .i y]).1 = .i (x * y % w) ∧ (opFma ty [.i x, .i y, .i z]).1 = .i ((z + x * y) % w) ∧
    opMin ty [.i x, .i y] = (.i (if sgnIn ty y < sgnIn ty x then y else x), 0) ∧
    opMax ty [.i x, .i y] = (.i (if sgnIn ty x < sgnIn ty y then y else x), 0) ∧
    opAbs ty [.i x] = (.i ((sgnIn ty x).natAbs % w), 0) ∧ opNeg ty [.i x] = (.i ((w - x) % w), 0) ∧
    bitwise (.vand tok d a c ty rp) = some (.i (x &&& y), 0) ∧ bitwise (.vor tok d a c ty rp) = some (.i (x ||| y), 0) ∧
    bitwise (.vxor tok d a c ty rp) = some (.i (x ^^^ y), 0) ∧
    opShl ty [.i x, .i y] = (.i (x * 2 ^ sh % w), 0) ∧ opShr ty [.i x, .i y] = (.i (x / 2 ^ sh), 0) ∧
    (ty ≠ .n32 → ty ≠ .n8 → opSra ty [.i x, .i y] = (.i ((sgnIn ty x / 2 ^ sh) % w).toNat, 0))) ∧
  (∀ (ty : VTy) (sa sb sd : Bool) (na nb nd da db dd : Nat), ty.isFloat = true → 0 < da → 0 < db → 0 < dd →
    let a : Lane := .f (.fin sa na da)
    let b : Lane := .f (.fin sb nb db)
    let d : Lane := .f (.fin sd nd dd)
    let va : Int := if sa then -(na : Int) else na
    let vb : Int := if sb then -(nb : Int) else nb
    let vd : Int := if sd then -(nd : Int) else nd
    (∃ z : Ex, z.is (va * db + vb * da) (da * db) ∧ (va * db + vb * da = 0 → z.neg = (sa && sb)) ∧ opAdd ty [a, b] = laneRound ty z 0) ∧
    (∃ z : Ex, z.is (va * db - vb * da) (da * db) ∧ (va * db - vb * da = 0 → z.neg = (sa && !sb)) ∧ opSub ty [a, b] = laneRound ty z 0) ∧
    opMul ty [a, b] = laneRound ty (.fin (sa != sb) (na * nb) (da * db)) 0 ∧
    (∃ z : Ex, z.is (vd * (da * db : Nat) + va * vb * dd) (dd * (da * db)) ∧
      (vd * (da * db : Nat) + va * vb * dd = 0 → z.neg = (sd && (sa != sb))) ∧ opFma ty [a, b, d] = laneRound ty z 0) ∧
    opDiv ty [a, b] = (if nb = 0 then (if na = 0 then (.f .nan, fNV) else (.f (.inf (sa != sb)), fDZ))
      else laneRound ty (.fin (sa != sb) (na * db) (da * nb)) 0) ∧
    opMin ty [a, b] = (if vb * da < va * db ∨ (va * db = vb * da ∧ sb = true ∧ sa = false) then b else a, 0) ∧
    opMax ty [a, b] = (if va * db < vb * da ∨ (va * db = vb * da ∧ sa = true ∧ sb = false) then b else a, 0) ∧
    opAbs ty [a] = (.f (.fin false na da), 0) ∧ opNeg ty [a] = (.f (.fin (!sa) na da), 0)) ∧
  (∀ (ty : VTy) (x y z : Ex) (s : Bool) (n e : Nat), ty.isFloat = true →
    ((x = .nan ∨ y = .nan) → opAdd ty [.f x, .f y] = (.f .nan, 0) ∧ opSub ty [.f x, .f y] = (.f .nan, 0) ∧
      opMul ty [.f x, .f y] = (.f .nan, 0) ∧ opFma ty [.f x, .f y, .f z] = (.f .nan, 0) ∧ opDiv ty [.f x, .f y] = (.f .nan, 0) ∧
      opMin ty [.f x, .f y] = (.f .nan, 0) ∧ opMax ty [.f x, .f y] = (.f .nan, 0)) ∧
    opAdd ty [.f (.inf s), .f (.inf (!s))] = (.f .nan, fNV) ∧ opSub ty [.f (.inf s), .f (.inf s)] = (.f .nan, fNV) ∧
    opMul ty [.f (.inf s), .f (.fin false 0 e)] = (.f .nan, fNV) ∧ opDiv ty [.f (.inf s), .f (.inf true)] = (.f .nan, fNV) ∧
    opAdd ty [.f (.inf s), .f (.fin false n e)] = (.f (.inf s), 0) ∧ opDiv ty [.f (.fin false n e), .f (.inf s)] = laneRound ty (.fin s 0 1) 0) ∧
  (∀ (ty : VTy) (tok : Tok) (d a : Hreg) (rp : Rep) (s : Bool) (n e : Nat), ty.isFloat = true → 0 < e →
    let fn (i : Instr) (x : Ex) : Option (Lane × Fl) := (laneOp i).map (fun o => o.op [.f x])
    let x : Ex := .fin s n e
    let bad : Lane × Fl := (.f .nan, fNV)
    let root (n e : Nat) (q : Lane × Fl) : Prop := ∃ (z : Ex) (r : Nat), r * r ≤ n * e * 2 ^ 400 ∧ n * e * 2 ^ 400 < (r + 1) * (r + 1) ∧
      z.is (if r * r = n * e * 2 ^ 400 then 2 * r else 2 * r + 1 : Nat) (2 * (e * 2 ^ 200)) ∧ q = laneRound ty z 0
    fn (.vrcp tok d a ty rp) x = some (if n = 0 then (.f (.inf s), fDZ) else laneRound ty (.fin s e n) 0) ∧
    (∃ q, fn (.vsqrt tok d a ty rp) x = some q ∧ (n = 0 → q = laneRound ty (.fin s 0 1) 0) ∧ (n ≠ 0 → s = true → q = bad) ∧
      (n ≠ 0 → s = false → root n e q)) ∧
    (∃ q, fn (.vrsq tok d a ty rp) x = some q ∧ (n = 0 → q = (.f (.inf s), fDZ)) ∧ (n ≠ 0 → s = true → q = bad) ∧
      (n ≠ 0 → s = false → root e n q)) ∧
    (n = 0 → fn (.vlog2 tok d a ty rp) x = some (.f (.inf true), fDZ)) ∧
    (n ≠ 0 → s = true → fn (.vlog2 tok d a ty rp) x = some bad) ∧
    (∀ m, s = false → n ≠ 0 → (n = e * 2 ^ m → fn (.vlog2 tok d a ty rp) x = some (laneRound ty (.fin false m 1) 0)) ∧
      (e = n * 2 ^ m → fn (.vlog2 tok d a ty rp) x = some (laneRound ty (.fin (decide (0 < m)) m 1) 0))) ∧
    (∀ m, m < 2000 → n = e * m → ∃ z : Ex, fn (.vexp2 tok d a ty rp) x = some (laneRound ty z 0) ∧
      if s then z.is 1 (2 ^ m) else z.is (2 ^ m) 1) ∧
    (n = 0 → fn (.vtanh tok d a ty rp) x = some (laneRound ty (.fin s 0 1) 0)) ∧
    fn (.vrcp tok d a ty rp) (.inf s) = some (laneRound ty (.fin s 0 1) 0) ∧
    fn (.vsqrt tok d a ty rp) (.inf s) = some (if s then bad else (.f (.inf false), 0)) ∧
    fn (.vrsq tok d a ty rp) (.inf s) = some (if s then bad else laneRound ty (.fin false 0 1) 0) ∧
    fn (.vlog2 tok d a ty rp) (.inf s) = some (if s then bad else (.f (.inf false), 0)) ∧
    fn (.vexp2 tok d a ty rp) (.inf s) = some (if s then laneRound ty (.fin false 0 1) 0 else (.f (.inf false), 0)) ∧
    fn (.vtanh tok d a ty rp) (.inf s) = some (laneRound ty (.fin s 1 1) 0) ∧
    (∀ i ∈ [Instr.vrcp tok d a ty rp, .vsqrt tok d a ty rp, .vrsq tok d a ty rp, .vlog2 tok d a ty rp, .vexp2 tok d a ty rp,
      .vtanh tok d a ty rp], fn i .nan = some (.f .nan, 0)))

/-- A vector instruction runs its repetitions one per cycle and completes after the last (R37, R43, R53, R147, R150, R153, R158,
R160, R164, R167). For every vector instruction (the lane-wise ones, VCMP VSEL VCVT VQNT VDQNT VCLASS VRED.SUM VRED.MAX VRED.MIN
VRED.MAXI VXRD VSCAN VPERM VBCAST VIOTA VRNG VEXPMAX VMAXI) with any repeat code (1, 4, 16, or until the first operand's end):
when it begins at the EX and its first repetition goes on, exec answers the next state in which it has completed, its latency
after that repetition's start and with its flags due then, when that was its last repetition, and otherwise the one in which its
entry holds the number of repetitions still to run with the flags so far and the EX may start the next in the cycle after.
INSTR_COMPLETE runs a later repetition in the same way, and completes it after the last with the flags of all. The other clauses
say when one repetition of VCMP goes on, and what it gives: CMK gets the active lanes whose comparison holds, and no other; what
each comparison is by the values of its operands (finite and NaN values, integers of each type, R54); and that a repetition of
VRED SUM adds the exact sum of its active lanes to XR while that stays in range. -/
def Obligations.VectorInstructionsRunTheirRepetitions : Prop :=
  (∀ (s : State) (i : Instr) (b : Begun) (rp : Rep) (lat : Nat) (rep : Option Mem → Core → Nat → VOut) (k' : Core) (e : Bool) (f : Fl),
    s.begins i = some b → vecOp b.en (s.named i) = some (rp, lat, rep) → rep none b.core b.t = .done k' e f →
    ((rp = .x1 ∨ (rp = .xend ∧ e = true)) → exec i s = .next (b.ends lat (k'.flagsAt (b.t + lat) f))) ∧
    (rp ≠ .x1 → ¬(rp = .xend ∧ e = true) →
      exec i s = .next (b.repeats ((match rp with | .x1 => 1 | .x4 => 4 | .x16 => 16 | .xend => 2 ^ 60) - 1) f k'))) ∧
  (∀ (x : State) (c : Nat) (b : Begun) (rp : Rep) (lat n : Nat) (rep : Option Mem → Core → Nat → VOut) (g : Fl) (seen : Option Mem)
      (k' : Core) (e : Bool) (f : Fl),
    x.heads c .ex = some b → b.unheld = true → vecOp b.en b.en.i = some (rp, lat, rep) → b.en.mark = .reps n g seen →
    rep seen b.core b.t = .done k' e f →
    ((n ≤ 1 ∨ (rp = .xend ∧ e = true)) →
      exec (.instrComplete c .ex) x = .next (b.ends lat (k'.flagsAt (b.t + lat) (g ||| f)))) ∧
    (1 < n → ¬(rp = .xend ∧ e = true) → exec (.instrComplete c .ex) x = .next (b.repeats (n - 1) (g ||| f) k'))) ∧
  (∀ (k : Core) (now : Nat) (ty : VTy) (un : Bool) (cc : Cond) (a c : Hreg) (v : VIn),
    vOpen k now none [(a, ty.lanes), (c, ty.lanes)] [] = .ok v → fmtStop ty v.l [a, c] [] = none →
    ∃ k' e, repCmp k now none ty un cc a c = .done k' e 0 ∧ (∀ j, j < 256 → (k'.v.cmk.getLsbD j = true ↔
      j ∈ actives k true ty.lanes v.l ∧ condLane ty cc un (nth (.i 0) (lanesOf ty v.m (srcOf v.l a)) j)
        (nth (.i 0) (lanesOf ty v.m (srcOf v.l c)) j) = true))) ∧
  (∀ (ty : VTy) (un : Bool) (cc : Cond) (sx sy : Bool) (nx ny dx dy : Nat), ty.isFloat = true → 0 < dx → 0 < dy →
    let x : Lane := .f (.fin sx nx dx)
    let y : Lane := .f (.fin sy ny dy)
    let l : Int := (if sx then -(nx : Int) else nx) * dy
    let r : Int := (if sy then -(ny : Int) else ny) * dx
    (condLane ty .eq un x y = true ↔ l = r) ∧ (condLane ty .ne un x y = true ↔ l ≠ r) ∧ (condLane ty .lt un x y = true ↔ l < r) ∧
    (condLane ty .le un x y = true ↔ l ≤ r) ∧ (condLane ty .gt un x y = true ↔ r < l) ∧ (condLane ty .ge un x y = true ↔ r ≤ l) ∧
    (∀ z : Lane, condLane ty cc un (.f .nan) z = (un || cc == .ne) ∨ ty.isFloat = false) ∧
    condLane ty .lt un x (.f (.inf false)) = true ∧ condLane ty .lt un (.f (.inf true)) x = true ∧
    (condLane ty cc un x (.f .nan) = true ↔ un = true ∨ cc = .ne)) ∧
  (∀ (ty : VTy) (un : Bool) (x y : Nat), ty.isFloat = false → x < 2 ^ ty.bitsN → y < 2 ^ ty.bitsN →
    let c (cc : Cond) : Bool := condLane ty cc un (.i x) (.i y)
    let l := sgnIn ty x
    let r := sgnIn ty y
    (c .eq = true ↔ x = y) ∧ (c .ne = true ↔ x ≠ y) ∧ (c .lt = true ↔ l < r) ∧ (c .le = true ↔ l ≤ r) ∧ (c .gt = true ↔ r < l) ∧
    (c .ge = true ↔ r ≤ l) ∧ (c .ltn = true ↔ x < y) ∧ (c .len = true ↔ x ≤ y) ∧ (c .gtn = true ↔ y < x) ∧ (c .gen = true ↔ y ≤ x) ∧
    (c .any = true ↔ x &&& y ≠ 0) ∧ (c .all = true ↔ x &&& y = y)) ∧
  (∀ (k : Core) (now : Nat) (ty : VTy) (a : Hreg) (v : VIn) (w : Nat → Int),
    vOpen k now none [(a, ty.lanes)] [] = .ok v → fmtStop ty v.l [a] [] = none →
    let act := actives k true ty.lanes v.l
    (∀ j ∈ act, ((nth (.i 0) (lanesOf ty v.m (srcOf v.l a)) j).ex ty).is (w j) (2 ^ 149)) →
    k.v.xrF.natAbs + (act.map (fun j => (w j).natAbs)).sum < 2 ^ 319 →
    ∃ k' e, repSum k now none ty a = .done k' e 0 ∧ k'.v.xrF = k.v.xrF + (act.map w).sum ∧ k'.v.xrSt = k.v.xrSt)

/-- A vector instruction changes only its streams, vector state, flags and the scratchpad, and stores only to its destination
(R19, R43, R134, R142, R143). For every vector instruction whose first repetition goes on: in the next state that exec answers,
nothing outside the core has changed since the body found it, in particular no byte of committed memory; on the core the
scalars, PCFE, spill slots, every special register but 0x14A, which VRED.MAXI writes (flags of STAT become due), every handle
that is not one of its streams, the tiles, anchors, speculation, declarations, unit and pending set are as found; one-bit words
of what it reads may have been corrected. For one repetition of any vector instruction (vecOp: lane-wise, VSEL VCVT VQNT VDQNT
VRED VXRD VSCAN VPERM VBCAST VIOTA VRNG VEXPMAX; VCMP, VCLASS, VRED.SUM and VMAXI write no stream), every scratchpad byte
outside the elements of the streams it writes, and outside their scale words where the format is block-scaled, reads, in any
cycle, as it would have read. -/
def Obligations.VectorInstructionsFrame : Prop :=
  (∀ (s : State) (i : Instr) (b : Begun) (rp : Rep) (lat : Nat) (rep : Option Mem → Core → Nat → VOut) (k' : Core) (e : Bool) (f : Fl),
    s.begins i = some b → vecOp b.en (s.named i) = some (rp, lat, rep) → rep none b.core b.t = .done k' e f →
    ∃ u, exec i s = .next u ∧ u = b.s.setCore b.c (u.core b.c) ∧ (∀ a, rd u.mem a = rd b.s.mem a) ∧
      let q := u.core b.c
      q = { b.core with
        r := { b.core.r with h := q.r.h, sr := q.r.sr }, pad := q.pad, v := q.v, eng := q.eng, bad := q.bad, weak := q.weak, ce := q.ce,
        sleep := q.sleep } ∧
      (∀ h, h ∉ hStreams (s.named i) → q.getH h = b.core.getH h) ∧ (∀ m, m ≠ 0x14A → q.getSr m = b.core.getSr m) ∧
      q.eng.ld = b.core.eng.ld ∧ q.eng.st = b.core.eng.st ∧ q.v.stack = b.core.v.stack ∧ q.v.depth = b.core.v.depth) ∧
  (∀ (k : Core) (now lat : Nat) (ty : VTy) (hd : Hreg) (rs : List Hreg) (op : List Lane → Lane × Fl) (v : VIn) (k' : Core) (e : Bool)
      (f : Fl),
    vOpen k now none (rs.map (fun r => (r, ty.lanes))) [(hd, ty.lanes)] = .ok v → laneWise k now lat none ty hd rs op = .done k' e f →
    ∀ at' a, (srcOf v.l hd).clear a = true → rd (k'.padAt at') a = rd (k.padAt at') a) ∧
  (∀ (i : Instr) (en : Entry) (k : Core) (now lat : Nat) (rp : Rep) (rep : Option Mem → Core → Nat → VOut) (rs ws : List (Hreg × Nat))
      (v : VIn) (k' : Core) (e : Bool) (f : Fl),
    vecOp en i = some (rp, lat, rep) → vecStreams i = some (rs, ws) → vOpen k now none rs ws = .ok v → rep none k now = .done k' e f →
    ∀ at' a, (∀ r ∈ ws, (srcOf v.l r.1).clearAll a = true) → rd (k'.padAt at') a = rd (k.padAt at') a)

/-- MLEASE, MREL, MANC, MCLR, RDACC and MSTAT complete with the lease, anchors, tile or record their rules give (R195, R196,
R197, R198, R203, R205, R208, R211, R212, R213, R216, R217). From every state in which it begins at the EX: MLEASE sets HELD
when it is clear; MREL, when it is set, clears the lease register and leaves nothing of its grant, which ends with the last
occupancy; MCLR at its tile's start leaves the tile of R205, ownership apart; MANC scan gives row anchor i the anchor of row i
of its region, when the region can be read; MANC load gives the 128 row anchors, and column mode the 128 column anchors of panel
q of a valid slot, the values read, saturated; RDACC writes the raw elements of its region; MSTAT writes the record of the tile
(summary, row or column exponents), of the row anchors, of the slot descriptor or of a panel's column anchors, when its
addresses are good. A core that is granted the array may use it no earlier than it asks and no earlier than the last occupancy
ends. Each statement's conditions are the tile's or slot's start, the addresses and the reads of its region. -/
def Obligations.LeaseAnchorsAndTilesAreWritten : Prop :=
  ∀ (s : State) (tok : Tok) (acc : BitVec 1) (g : Gslot) (h : Hreg) (q6 : BitVec 6) (q5 : BitVec 5) (w : BitVec 2) (sm sn : Sreg) (b : Begun),
    let k := b.core
    let hd := HD.of (b.en.h 0)
    let r := (s.core s.cur).ren h
    let u := b.s.clu (b.c / 4)
    let sl := u.slot g.toNat
    (s.begins (.mlease tok) = some b →
      exec (.mlease tok) s = .next (b.ends 1 (if k.heldLease then k else k.setSr 0x140 (k.getSr 0x140 ||| 0x100)))) ∧
    (s.begins (.mrel tok) = some b → exec (.mrel tok) s =
      .next (b.leaves b.t 1 (if k.heldLease then (b.s.setCore b.c (k.setSr 0x140 0)).upClu (b.c / 4) (fun u =>
        if u.holder = some (b.c % 4) then { u with left := 0 } else u) else b.s))) ∧
    (∀ need t s' t0, s.lease b.c need t = (s', some t0) →
      t ≤ t0 ∧ (s.clu (b.c / 4)).arrayAt ≤ t0 ∧ (s'.clu (b.c / 4)).holder = some (b.c % 4)) ∧
    (s.begins (.mclr tok acc) = some b → ∀ t, tileStart k acc false b.t = .ok t → ∃ k', exec (.mclr tok acc) s = .next (b.endsAt t 1 k') ∧
      (k'.tile acc).el = [] ∧ (k'.tile acc).terms = 0 ∧ (k'.tile acc).sides = none ∧ (k'.tile acc).w = 0 ∧ (k'.tile acc).rnf = [] ∧
      (k'.tile acc).cnf = [] ∧ ∀ acc', acc' ≠ acc → k'.tile acc' = k.tile acc') ∧
    (s.begins (.mancScan tok h) = some b →
      let n := hd.e 0 - hd.i 0
      let m := min 128 (hd.e 1 - hd.i 1)
      ∀ els, matRead k b.t r hd (hd.region m n) = .ok els → ∃ k', exec (.mancScan tok h) s =
        .next (b.ends (6 + m * cdiv ((n * hd.half + 1) / 2) 256) k') ∧ k' = { k.corrTile hd (hd.region m n) with anch := k'.anch } ∧
        (∀ j, j < m → mget 0 k'.anch j = anchorOf hd.fmt ((fmtW hd.fmt).getD 0) ((els.drop (j * n)).take n)) ∧
        ∀ j, m ≤ j → mget 0 k'.anch j = 0) ∧
    (s.begins (.mancLoad tok h) = some b → ∀ vs sat, anchVals k b.t r hd = .ok (vs, sat) → ∃ k', exec (.mancLoad tok h) s = .next (b.ends 6 k') ∧
      k' = { (k.corrTile hd ((upto 128).map (hd.at 0))).mxFlagsAt (b.t + 6) (if sat then 1 else 0) with anch := k'.anch } ∧ ∀ j, j < 128 → mget 0 k'.anch j = nth 0 vs j) ∧
    (s.begins (.mancColumn tok g h q6) = some b → u.slotOk g.toNat = true → q6.toNat < min sl.panels 256 →
      ∀ t vs sat, slotStart b.s b.c g.toNat b.t = .ok (some t) → anchVals k t r hd = .ok (vs, sat) →
        ∃ s', exec (.mancColumn tok g h q6) s = .next (b.leaves t 6 s') ∧ s'.core b.c = (k.corrTile hd ((upto 128).map (hd.at 0))).mxFlagsAt (t + 6) (if sat then 1 else 0) ∧
          ∀ j, j < 128 → ((s'.clu (b.c / 4)).slot g.toNat).anchor q6.toNat j = nth 0 vs j) ∧
    (s.begins (.rdacc tok acc h sm sn) = some b →
      let m := (b.en.s 0).toNat
      let n := (b.en.s 1).toNat
      ∀ t ads, tileStart k acc false b.t = .ok t → matAddrs r hd (hd.region m n) = .ok ads →
        let els := (List.range m).flatMap (fun i => (List.range n).map (fun j => (k.tile acc).get i j))
        exec (.rdacc tok acc h sm sn) s = .next (finishHead b.c b.e b.en ⟨b.s.setCore b.c
          (((matWrite k (t + 2 * m + 12) r hd ads (els.map rawElem)).mxFlagsAt (t + 2 * m + 12) (if els.any (fun e => !checkElem e) then 4 else 0)).setTile acc
            ((k.tile acc).own t (t + 2 * m + 12) b.en.pc false)), t + 1, t + 2 * m + 12⟩)) ∧
    (s.begins (.mstatTile tok acc h w) = some b → ∀ t k1, tileStart k acc false b.t = .ok t →
      putRecord k (t + 6) r hd (if w = 0 then (k.tile acc).summary else if w = 1 then int16s (fun j => mget 0 (k.tile acc).xa j)
        else int16s (fun j => mget 0 (k.tile acc).xb j)) = .ok k1 →
      exec (.mstatTile tok acc h w) s = .next (b.endsAt t 6 (k1.setTile acc ((k.tile acc).own t (t + 6) b.en.pc false)))) ∧
    (s.begins (.mstatRowanc tok h) = some b → ∀ k1, putRecord k (b.t + 6) r hd (int16s (fun j => mget 0 k.anch j)) = .ok k1 →
      exec (.mstatRowanc tok h) s = .next (b.ends 6 k1)) ∧
    (s.begins (.mstatDesc tok g h) = some b → ∀ t k1, slotStart b.s b.c g.toNat b.t = .ok (some t) →
      putRecord k (t + 6) r hd (toLE 64 (slotDouble u g.toNat)) = .ok k1 → exec (.mstatDesc tok g h) s = .next (b.endsAt t 6 k1)) ∧
    (s.begins (.mstatColanc tok g h q5) = some b → u.slotOk g.toNat = true → q5.toNat < sl.panels →
      ∀ t k1, slotStart b.s b.c g.toNat b.t = .ok (some t) → putRecord k (t + 6) r hd (int16s (sl.anchor q5.toNat)) = .ok k1 →
        exec (.mstatColanc tok g h q5) s = .next (b.endsAt t 6 k1))

/-- MMA adds its depth block to the tile's residues; MEPI and MTOPK read the tile out (R43, R94, R194, R204, R207, R208, R214,
R215, R319, R376). From every state in which it begins at the EX: MMA, when its tile and slot may start, the slot is valid with
panel and depth enough, the formats match each other and the open chain, the chain's limit holds, the Kiln passes it, the array
is granted from a cycle t0 on and its operands can be read then, answers the next state in which the tile has the block's terms
added and, at each active (i, j), the residues of the element increased by the exact dot product of the rows' and columns'
mantissas, for a chain it opens or continues, RNF and CNF set for the active rows and columns that hold a NaN or an infinity,
and NONFIN (when there is one) and AS (when a mantissa of an active row or column saturates) due in MX.STAT. MEPI, when its tile
may start, its addresses are good, its bias can be read and every element of its region passes its check, writes the region's
values (as R215 computes them, epiVal), makes their flags due in STAT and SAT due in MX.STAT, and, when clr is set, leaves the
tile in the whole state of R205 but for its ownership: in a block-scaled format, where elements and scale words lie apart, each
element reads at the end as the mantissa and each scale word as the scale that QuantBlock gives the 32 columns of its block.
MTOPK, under the same checks, leaves row i of the top-k state with the pairs of the row's values inserted, 8 at most. -/
def Obligations.MatrixMultiplyAndEpilogue : Prop :=
  ∀ (s : State) (tok : Tok) (acc : BitVec 1) (g : Gslot) (ha hx : Hreg) (q : BitVec 8) (sm sn sk : Sreg) (act : Act) (bias : Option Hreg)
    (scale : Option Sreg) (clr emit new : Bool) (k1 : BitVec 3) (b : Begun),
    let k := b.core
    let h := HD.of (b.en.h 0)
    let r := (s.core s.cur).ren ha
    let m := (b.en.s 0).toNat
    let n := (b.en.s 1).toNat
    let kk := (b.en.s 2).toNat
    let tl := k.tile acc
    (s.begins (.mma tok acc g ha q sm sn sk) = some b →
      let u := b.s.clu (b.c / 4)
      let d := u.slot g.toNat
      ∀ t1 t2 els B, tileStart k acc true b.t = .ok t1 → slotStart b.s b.c g.toNat b.t = .ok (some t2) →
        u.slotOk g.toNat = true → q.toNat < min d.panels 256 → h.i 0 + kk ≤ d.depth → h.half = fmtHalf d.fmt → (fmtW d.fmt).isSome = true →
        (tl.w ≠ 0 → tl.sides = some (sideOf h.fmt, sideOf d.fmt)) →
        tl.terms + kk ≤ tMax (max tl.w (max ((fmtW h.fmt).getD 0) ((fmtW d.fmt).getD 0))) →
        kilnCheck b.s b.c b.en (measured n h.half) = none → kilnWait b.s b.c b.en = false →
        ∀ s1 t0, b.s.lease b.c 1 (max (max t1 t2) (if tl.w = 0 then mget 0 k.v.rdy 4 else 0)) = (s1, some t0) →
        matRead k t0 r h (h.region m kk) = .ok els → slotCols b.s b.c d q.toNat (h.i 0) kk (upto n) = .ok B →
        let rows := (upto m).map (fun i => (els.drop (i * kk)).take kk)
        let o := if tl.w = 0 then tl.openChain k.anch d q.toNat h.fmt d.fmt else tl
        let mant (f : Nat) (x : Int) (l : List AEl) : List Int := l.map (fun e => (entryMant f ((fmtW f).getD 0) x e.x).1)
        ∃ s', exec (.mma tok acc g ha q sm sn sk) s = .next (b.leaves t0 (occupancy h.half + 10) s') ∧
          ((s'.core b.c).tile acc).terms = tl.terms + kk ∧ ((s'.core b.c).tile acc).sides = some (sideOf h.fmt, sideOf d.fmt) ∧
          (∀ i j, i < m → j < n → ((s'.core b.c).tile acc).get i j =
            (tl.get i j).add (dotInt (mant h.fmt (mget 0 o.xa i) (nth [] rows i)) (mant d.fmt (mget 0 o.xb j) (nth [] B j)))) ∧
          (∀ i j, j < 128 → ¬(i < m ∧ j < n) → ((s'.core b.c).tile acc).get i j = tl.get i j) ∧
          (let wild (l : List AEl) : Bool := l.any (fun e => !exFin e.x)
          let sat (f : Nat) (x : Int) (l : List AEl) : Bool := l.any (fun e => (entryMant f ((fmtW f).getD 0) x e.x).2)
          (∀ i, i ∈ ((s'.core b.c).tile acc).rnf ↔ i ∈ tl.rnf ∨ (i < m ∧ wild (nth [] rows i) = true)) ∧
          (∀ j, j ∈ ((s'.core b.c).tile acc).cnf ↔ j ∈ tl.cnf ∨ (j < n ∧ wild (nth [] B j) = true)) ∧
          ∃ fl : BitVec 4, (s'.core b.c).eng.due = (k.mxFlagsAt (t0 + occupancy h.half + 10) fl).eng.due ∧
            (fl.getLsbD 1 = true ↔ (∃ i, i < m ∧ wild (nth [] rows i) = true) ∨ ∃ j, j < n ∧ wild (nth [] B j) = true) ∧
            (fl.getLsbD 0 = true ↔ 0 < m ∧ 0 < n ∧ ((∃ i, i < m ∧ sat h.fmt (mget 0 o.xa i) (nth [] rows i) = true) ∨
              ∃ j, j < n ∧ sat d.fmt (mget 0 o.xb j) (nth [] B j) = true)) ∧
            fl.getLsbD 2 = false ∧ fl.getLsbD 3 = false)) ∧
    (s.begins (.mepi tok acc ha act bias sm sn scale clr) = some b → ∀ t ads bs, tileStart k acc false b.t = .ok t →
      matAddrs r h (h.region m n) = .ok ads → tl.checkFail m n = none →
      (match bias with
        | none => bs = []
        | some x => ∃ l, matRead k t ((s.core s.cur).ren x) (HD.of (b.en.h 1)) ((upto n).map ((HD.of (b.en.h 1)).at 0)) = .ok l ∧
          bs = l.map (fun e => val32 (rne32 e.x).1)) →
      let val (i j : Nat) : Ex × Fl := epiVal tl (if bias.isSome then some (nth .nan bs j) else none)
        (if scale.isSome then some (val32 ((b.en.s 2).setWidth 32)) else none) act (val32 ((k.getSr 0x086).setWidth 32))
        (val32 ((k.getSr 0x087).setWidth 32)) i j
      let vals := (upto m).flatMap (fun i => (upto n).map (val i))
      let out := vals.map (fun v => epiBits h.fmt v.1)
      let fl : Fl := vals.foldl (fun f v => f ||| v.2) 0 ||| out.foldl (fun f o => f ||| o.2.1) 0
      let fin := t + m + 12
      let kb := if bias.isSome then k.corrTile (HD.of (b.en.h 1)) ((upto n).map ((HD.of (b.en.h 1)).at 0)) else k
      let ends (k1 : Core) (fl : Fl) (sat : Bool) (tl' : Tile) : Prop :=
        exec (.mepi tok acc ha act bias sm sn scale clr) s = .next (finishHead b.c b.e b.en ⟨b.s.setCore b.c
          (((k1.flagsAt fin fl).mxFlagsAt fin (if sat then 8 else 0)).setTile acc tl'), t + 1, fin⟩) ∧
        { tl' with busy := [] } = { (if clr then Tile.reset else tl) with busy := [] }
      (fmtBk h.fmt = false → ∃ tl', ends (matWrite kb fin r h ads (out.map (·.1))) fl (out.any (fun o => o.2.2)) tl') ∧
      (fmtBk h.fmt = true → h.i 0 % 32 = 0 →
        let blk (i x : Nat) : Nat × List Int × Fl := quantBlock h.fmt ((upto (min 32 (n - 32 * x))).map (fun l => (val i (32 * x + l)).1))
        let scale (i x : Nat) : Nat := h.scaleAddr (h.at i (32 * x))
        let runs : List (Nat × Nat) := ads.map (fun a => (a, h.half)) ++
          (upto m).flatMap (fun i => (upto (cdiv n 32)).map (fun x => (2 * scale i x, 4)))
        ∃ (k1 : Core) (q : Fl) (tl' : Tile), ends k1 (vals.foldl (fun f v => f ||| v.2) 0 ||| q) (q &&& fNV != 0) tl' ∧
          (∀ l : Nat, q.getLsbD l = true ↔ ∃ i x, i < m ∧ x < cdiv n 32 ∧ (blk i x).2.2.getLsbD l = true) ∧
          (runs.Pairwise (fun x y => apart x.1 x.2 y.1 y.2 = true) → ∀ i, i < m →
            (∀ j, j < n → elBits (k1.padAt fin) (nth 0 ads (i * n + j)) h.half = intBits (fmtBits h.fmt) (nth 0 (blk i (j / 32)).2.1 (j % 32))) ∧
            ∀ x, x < cdiv n 32 → leNat (rdN (k1.padAt fin) (scale i x) 2) = (blk i x).1))) ∧
    (s.begins (.mtopk tok acc ha emit new k1 hx sm sn sk) = some b → ∀ t ads axs, tileStart k acc false b.t = .ok t →
      (if emit then matAddrs r h (h.region m (k1.toNat + 1)) else .ok []) = .ok ads →
      (if emit then matAddrs ((s.core s.cur).ren hx) (HD.of (b.en.h 1)) ((HD.of (b.en.h 1)).region m (k1.toNat + 1)) else .ok []) = .ok axs →
      tl.checkFail m n = none → ∃ k', exec (.mtopk tok acc ha emit new k1 hx sm sn sk) s =
          .next (finishHead b.c b.e b.en ⟨b.s.setCore b.c k', t + 1, t + m + 12⟩) ∧
        (∀ i, i < m → mget [] k'.tk i = (upto n).foldl (fun l j =>
          (tkInsert (rne32 (tl.y32 i j).1).1 ((b.en.s 2).setWidth 32 + BitVec.ofNat 32 j) l).take 8) (if new then [] else mget [] k.tk i)) ∧
        (∀ i, m ≤ i → mget [] k'.tk i = if new then [] else mget [] k.tk i) ∧
        (emit = false → k'.pad = k.pad ∧ ∃ f, k'.eng = (k.flagsAt (t + m + 12) f).eng) ∧ (k'.tile acc).el = tl.el)

/-- RELAX goes to Finish with no row, starts with rows, iterates as R226 to R228 say, and finishes when no row is active (R224,
R225, R229, R231, R237, R238, R240, R242, R243, R361). For RELAX and RELAX.B whose tile and slot may start, whose shape is good
(rxShape none) and whose streams lie in the scratchpad: with no participating row under the top mask entry, exec answers the
next state in which its entry stays at the head of the EX queue in its Finish, whose cycles have begun; with rows, when the Kiln
passes it and the array is granted, exec answers the next state in which its entry stays at the head, marked as running with its
participating rows active. INSTR_COMPLETE of a running one with no active row begins its Finish, and of one whose Finish has
taken its cycles completes it: the entry leaves the queue and RLX.STAT counts the rows that have not settled. One with active
rows below its limit, whose checks hold and whose columns and rows can be read, runs one iteration: z' and v of every active row
and column are those of R226 (relaxAt), z' is in the state area when the iteration ends, count, residual, retirement, DIV,
RLX.RES, RLX.ITN, NACT and the row's AHR are those of R228 and R232, its beats are charged unless they were, and nothing outside
the state area changes in the scratchpad. RDAHR writes rows of AHR through its handle, WRAHR reads them back, and ACCEPT sets
SPEC.ACC to the number of rows that match, plus one. -/
def Obligations.RelaxRunsAndItsHistoryMoves : Prop :=
  (∀ (s : State) (i : Instr) (f : RForm) (b : Begun), s.begins i = some b →
    (rxForm (s.named i) = some f →
      ∀ t1 t2, tileStart b.core f.acc false b.t = .ok t1 → slotStart b.s b.c f.g.toNat b.t = .ok (some t2) →
      ((b.s.clu (b.c / 4)).slotOk f.g.toNat = true → ((b.s.clu (b.c / 4)).slot f.g.toNat).fmt = 1) →
      rxShape f b.core (b.s.clu (b.c / 4)) b.en = none →
      rxOut b.en (rxRows b.core b.en) (rxAreas f b.en) = none →
      let fresh := rxFresh f b.en b.core
      let stays (u : State) (ok : RelaxProg → Prop) : Prop := ∃ en p, (u.core b.c).queue .ex = [en] ∧ en.i = s.named i ∧ en.waited = true ∧
        en.mark = .relax p ∧ p.started = true ∧ ok p
      (rxRows b.core b.en = [] → ∃ u, exec i s = .next u ∧ u = (rxFinishing f b.c fresh.1 false (max t1 t2) (b.s.setCore b.c fresh.2)).2.1 ∧
        stays u (fun p => p.fin = some false)) ∧
      (rxRows b.core b.en ≠ [] → kilnCheck b.s b.c b.en (measured (min (rxN b.en) 128) 8) = none → kilnWait b.s b.c b.en = false →
        ∀ s1 t0, rxLease b.s b.c (max t1 t2) = (s1, some t0) → ∃ u, exec i s = .next u ∧
          stays u (fun p => p.fin = none ∧ p.actives = rxRows b.core b.en))) ∧
    (∀ tok h, (i = .rdahr tok h ∨ i = .wrahr tok h) → let hd := HD.of (b.en.h 0)
      let m := min 128 (hd.e 1 - hd.i 1)
      let r := (s.core s.cur).ren h
      ∀ ads, matAddrs r hd (hd.region m 4) = .ok ads →
        (i = .rdahr tok h → exec i s = .next (finishHead b.c b.e b.en ⟨b.s.setCore b.c (matWrite b.core (b.t + m + 6) r hd ads
          ((upto m).flatMap (fun j => (upto 4).map (fun l => (nth 0 (b.core.ahrRow j) l).toNat)))), b.t + 1, b.t + m + 6⟩)) ∧
        (i = .wrahr tok h → readChecks b.core b.t [⟨r, 0, hd, ads⟩] = none → ∃ k', exec i s =
          .next (finishHead b.c b.e b.en ⟨b.s.setCore b.c k', b.t + 1, b.t + m + 6⟩) ∧ k' = { b.core.corrTile hd (hd.region m 4) with ahr := k'.ahr } ∧
          (∀ j, j < m → k'.ahrRow j = (upto 4).map (fun l => BitVec.ofNat 32 (elBits (b.core.padAt b.t) (nth 0 ads (4 * j + l)) 8))) ∧
          ∀ j, m ≤ j → k'.ahrRow j = b.core.ahrRow j)) ∧
    (∀ tok hc hg mode e, i = .accept tok hc hg mode e → ∀ n, acceptLoop b.core b.t ((s.core s.cur).ren hc) ((s.core s.cur).ren hg)
      (HD.of (b.en.h 0)) (HD.of (b.en.h 1)) mode (val32 ((b.en.s 0).setWidth 32)) ((HD.of (b.en.h 0)).e 0 - (HD.of (b.en.h 0)).i 0)
      (b.core.specW - 1) 0 = .ok n →
      let n0 := (HD.of (b.en.h 0)).e 0 - (HD.of (b.en.h 0)).i 0
      let k1 := (upto (min n (b.core.specW - 1))).foldl (fun k j =>
        (k.corrTile (HD.of (b.en.h 1)) ((upto n0).map ((HD.of (b.en.h 1)).at (j + 1)))).corrTile (HD.of (b.en.h 0))
          ((upto n0).map ((HD.of (b.en.h 0)).at j))) b.core
      exec i s = .next (b.ends (b.core.specW + 6) (k1.setSr 0x0C2 (BitVec.ofNat 64 n))))) ∧
  (∀ (x : State) (c : Nat) (b : Begun) (f : RForm) (p : RelaxProg), x.heads c .ex = some b → b.unheld = true → rxForm b.en.i = some f →
    b.en.mark = .relax p → p.started = true →
    (p.fin = none → p.actives ≠ [] → (b.core.sr32 0x082).toNat < (b.core.sr32 0x083).toNat →
      let k := b.core
      let n := rxN b.en
      let d := (b.s.clu (c / 4)).slot f.g.toNat
      rxCheckFail k f p n = none → ∀ (col : Nat → List AEl) (z u dr : Nat → List Ex),
      (∀ j, j < n → slotCol b.s c d (j / 128) (j % 128) 0 n = .ok (col j)) →
      (∀ i ∈ p.actives, rxRead k b.t b.en 0 n i = .ok (z i) ∧ rxRead k b.t b.en 1 n i = .ok (u i) ∧
        (if f.bwd then rxRead k b.t b.en 3 n i = .ok (dr i) else dr i = [])) →
      let out (i j : Nat) : BitVec 32 × BitVec 32 := relaxAt f p (val32 (nth 0 (k.ahrRow i) 3)) (col j)
        (d.anchor (j / 128) (j % 128)) (z i) (u i) (dr i) j
      let wild (i : Nat) : Bool := (upto n).any (fun j => !exFin (val32 (out i j).2))
      let gap (i j : Nat) : Ex := exAbs (exSub (val32 (out i j).2) (nth .nan (z i) j)).1
      let le (x y : Ex) : Bool := exLt x y || exEq x y
      let fin := b.t + rxCycles n p.actives.length
      let area (i j : Nat) : Except Nat Nat := (HD.of (b.en.h 0)).addr ((HD.of (b.en.h 0)).at i j)
      ∃ (v : State) (en : Entry) (p' : RelaxProg) (r : Nat → Ex), exec (.instrComplete c .ex) x = .next v ∧
        (v.core c).queue .ex = en :: (b.core.queue .ex).tail ∧ en.mark = .relax p' ∧ (v.core c).eng.exAt = fin ∧ p'.paid = false ∧
        (∀ i, i ∈ p.actives → (if wild i then r i = .nan
          else (∀ j, j < n → le (gap i j) (r i) = true) ∧ (r i = .fin false 0 1 ∨ ∃ j, j < n ∧ r i = gap i j)) ∧
          let w := p'.row i
          let h := k.ahrRow i
          w.count = (p.row i).count + 1 ∧ w.lastV = (upto n).map (fun j => (out i j).1) ∧ w.res = some (r i) ∧
          (w.settled = true ↔ wild i = false ∧ max (k.sr32 0x084).toNat 1 ≤ w.count ∧ le (r i) (val32 (k.sr32 0x085)) = true) ∧
          (w.active = true ↔ wild i = false ∧ w.settled = false) ∧
          (v.core c).ahrRow i = [(rne32 (r i)).1, nth 0 h 0, nth 0 h 1, betaNext p.mode h (rne32 (r i)).1] ∧
          ∀ j, j < n → ∀ a, area i j = .ok a →
            (∀ i' j' a', i' ∈ p.actives → j' < n → (i', j') ≠ (i, j) → area i' j' = .ok a' → apart a 8 a' 8 = true) →
            elBits ((v.core c).padAt fin) a 8 = (out i j).2.toNat) ∧
        (∀ i, i ∉ p.actives → p'.row i = p.row i ∧ (v.core c).ahrRow i = k.ahrRow i) ∧
        (∀ t a, (∀ i j a', i ∈ p.actives → j < n → area i j = .ok a' → a < a' / 2 ∨ a' / 2 + 4 ≤ a) →
          rd ((v.core c).padAt t) a = rd (k.padAt t) a) ∧
        (v.core c).getSr 0x082 = BitVec.ofNat 64 ((k.sr32 0x082).toNat + 1) ∧
        (if p.actives.any wild then (v.core c).getSr 0x081 = 0x7FC00000
          else ∃ g : Ex, (∀ i ∈ p.actives, le (r i) g = true) ∧ (g = .fin false 0 1 ∨ ∃ i ∈ p.actives, g = r i) ∧
            (v.core c).getSr 0x081 = ((rne32 g).1).setWidth 64) ∧
        (((v.core c).getSr 0x080).getLsbD 3 = true ↔ (k.getSr 0x080).getLsbD 3 = true ∨ p.actives.any wild = true) ∧
        bits ((v.core c).getSr 0x089) 7 0 = p'.actives.length ∧
        (((v.core c).getSr 0x141).getLsbD 1 = true ↔ (k.getSr 0x141).getLsbD 1 = true ∨
          (∃ i ∈ p.actives, (relaxW f (z i) (dr i)).any (fun x => !exFin x) = true) ∨ ∃ j, j < n ∧ (col j).any (fun e => !exFin e.x) = true) ∧
        (v.core c).undecl = ((if p.paid then b.s else kilnCharge b.s c b.en (rxBeats n) b.t (b.t + rxOcc n)).core c).undecl) ∧
    (p.fin = none → p.actives = [] → ∃ u en, exec (.instrComplete c .ex) x = .next u ∧
      (u.core c).queue .ex = en :: (b.core.queue .ex).tail ∧ en.mark = .relax { p with fin := some false }) ∧
    (p.fin ≠ none → ∃ u, exec (.instrComplete c .ex) x = .next u ∧ (u.core c).queue .ex = (b.core.queue .ex).tail ∧
      bits ((u.core c).getSr 0x080) 15 8 = ((p.parts.filter (fun j => !(p.row j).settled)).length) % 256))

/-- LD.T, LD.X, LD.GR, ST.T, ST.PART and ST.X complete, move each element as their formats say, and change nothing else (R171,
R173, R174, R175, R177, R178, R183, R184, R185, R274, R280, R320). Whenever one of them begins at its engine and nothing stops
or holds its acts (parts read and granules landed for a load, parts translated, granules read and parts stored for a store), it
answers the next state of its end: segments left, flags due, and then the flag word and completion, or, while an older command
it waits for is not complete, flight. A part of a load is translated element by element, in one page format that the pair of
formats accepts, and each of its lines is read once, when no older store has bytes of them to land, as the core sees it (its
pending byte, else the snapshot's). An element of LD.GR is the sum of weight times element over its row's ranks, exact and
rounded once (R320). A granule that lands takes exactly the bits of its pieces, or their writes join those pending. The source
of a store is the handle's elements as they stand when their granules are read. A stored element, in a page format without
blocks, then reads as its conversion, no pending byte outside changes, and the first element of ST.T in a line enters as 0 the
bytes of that line that no element covers. Frame: on the core only scratchpad, translations, failed words, a WAITA's hit, clocks
and queues (STAT once the flags are due) and, for a store, the pending or green set change; a store leaves the scratchpad but
for the flag word, a load leaves its bytes outside its elements, their scale words and the flag word; committed memory changes
in BUSY counts alone, clusters and dies in their counts of corrections. -/
def Obligations.CopiesMoveTheirTile : Prop :=
  (∀ (s : State) (i : Instr) (b : Begun) (x : CSt), s.begins i = some b → b.copied = some x → ∃ u,
    exec i s = .next u ∧ u = b.settles x ∧
      let q := u.core b.c
      let fa := (b.en.s 3).toNat
      let off (a : Nat) : Prop := faOf b.en.i = 0 ∨ a < fa ∨ fa + 8 ≤ a
      u = { (b.s.setCore b.c q) with mem := u.mem, parts := u.parts, weak := u.weak, clusters := u.clusters, dies := u.dies } ∧
      b.s.sameButCe u ∧
      q = { b.core with
        pad := q.pad, tlb := q.tlb, bad := q.bad, weak := q.weak, ce := q.ce, sleep := q.sleep, eng := q.eng, pend := q.pend,
        spec := q.spec } ∧
      (∀ a, (b.s.env b.c).busyByte a = false → rd u.mem a = rd b.s.mem a) ∧
      (b.e = .ld → u.parts = b.s.parts ∧ q.pend = b.core.pend ∧ q.spec = b.core.spec ∧ ∀ x0, b.indexed = some x0 →
        let h := (HD.of (b.en.h 0)).as (b.elements x0).1
        ∀ a, off a → (∀ e ∈ (b.elements x0).2, (a < e.a2 / 2 ∨ (e.a2 + h.half + 1) / 2 ≤ a) ∧
          (fmtBk h.fmt = true → a < h.scaleAddr e.ix ∨ h.scaleAddr e.ix + 2 ≤ a)) →
        rd q.pad.mem a = rd b.core.pad.mem a) ∧
      (b.e = .st → (∀ p, u.part p = { b.s.part p with charges := (u.part p).charges }) ∧
        ∀ a, off a → rd q.pad.mem a = rd b.core.pad.mem a)) ∧
  (∀ (x x1 : CSt) (c routed : Nat) (ok : Bool) (pf mh : Nat) (p : CPart), loadPart c routed ok pf mh p x = .ok x1 → ok = true ∧ ∃ ls y,
    ls.map Loc.el = p.els ∧ placesFrom c needR p.ord .ld mh ls x y ∧ (∀ l ∈ ls, l.tr.fmt = pf ∧ l.tr2.fmt = pf) ∧
    y.s.storeMeets c routed (ls.flatMap (fun l => (l.reads pf mh).flatMap (fun r => linesOf r.1 r.2))) = false ∧
    x1 = { s := y.s.corrAll (ls.flatMap (fun l => l.reads pf mh)), m := x1.m } ∧ x1.m = { y.m with vals := x1.m.vals, stash := x1.m.stash } ∧
    x1.m.vals = x.m.vals ++ ls.map (fun l => l.val pf mh x1.m.stash) ∧
    ∀ l ∈ ls, ∀ r ∈ l.reads pf mh, x.s.memBad r.1 r.2 = false ∧ ∀ n ∈ linesOf r.1 r.2,
      mfind x1.m.stash n = some ((mfind x.m.stash n).getD
        (leNat (seenN (x.s.core c).pend (x.s.part (x.s.partNo c)).snap (64 * n) 64)))) ∧
  (∀ (x : CSt) (c t : Nat) (h : HD) (v : Visit) (val : Nat → Nat), (x.s.core c).fetWrite h v.spans = false →
    ∃ x1, landVisit c t h v val x = .ok x1 ∧
      let k := x.s.core c
      let q := x1.s.core c
      let new (p : Piece) : Nat := val p.key / 16 ^ p.off % 16 ^ p.n
      x1 = { x with s := x.s.setCore c q } ∧
      (∀ a, (∀ p ∈ v.ps, a < p.span.1 ∨ p.span.1 + p.span.2 ≤ a) → rd (q.padAt t) a = rd (k.padAt t) a) ∧
      (k.memDue = false → v.ps.Pairwise (fun p r => apart p.a2 p.n r.a2 r.n = true) → ∀ p ∈ v.ps, wholeRun p.a2 p.n = true →
        elBits q.pad.mem p.a2 p.n = new p) ∧
      (k.memDue = true → ∀ p ∈ v.ps, (p.n = 1 → ⟨t, .ld, .nib p.a2 (new p)⟩ ∈ q.eng.due) ∧
        (p.n ≠ 1 → ⟨t, .ld, .mem (p.a2 / 2) (toLE (p.n / 2) (new p))⟩ ∈ q.eng.due))) ∧
  (∀ (x x1 : CSt) (c t : Nat) (src : Strm) (h : HD) (part : Option (W64 × Nat)) (els : List (List Nat × Nat)), h.fet = false →
    (∀ e ∈ els, wholeRun e.2 h.half = true) → x.m.stash = [] →
    copyLoop (takeVisit c t src h part) ((x.s.core c).takes h false els) x = .ok x1 →
      (x1.s.core c).taken h false els x1.m = els.map (fun e => (elBits ((x.s.core c).padAt t) e.2 h.half, 0))) ∧
  (∀ (x x1 : CSt) (c : Nat) (f : SForm) (vals : List (Nat × Nat)) (p : CPart), storePart c f vals p x = .ok x1 →
    fmtBk f.pf = false → (∀ e ∈ f.els, f.laneOf e.ix = none) → (∀ e ∈ p.els, e ∈ f.els ∧ wholeRun e.va2 f.mh = true) →
    ∃ ls y, ls.map Loc.el = p.els ∧ placesFrom c needW p.ord .st f.mh ls x y ∧ stFmtOk f.h.fmt f.pf = true ∧
      (∀ l ∈ ls, l.tr.fmt = f.pf ∧ l.tr2.fmt = f.pf) ∧
      let hit (l : Loc) (a : Nat) : Prop := ∃ r ∈ l.ranges f.mh, r.1 ≤ a ∧ a < r.1 + r.2
      let pend (z : CSt) (a : Nat) : Option Byte := mfind (z.s.core c).pend a
      (∀ n l, ls[n]? = some l → (l.halves f.mh).Pairwise (fun r q => apart r.1 r.2 q.1 q.2 = true) →
        (∀ m l', ls[m]? = some l' → m ≠ n → ∀ r ∈ l.halves f.mh, ∀ q ∈ l'.halves f.mh, apart r.1 r.2 q.1 q.2 = true) →
        leNat ((l.ranges f.mh).flatMap (fun r => x1.s.loadBytes c r.1 r.2)) / (if l.el.va2 % 2 = 0 then 1 else 16) % 16 ^ f.mh =
          (convEl f.h.fmt f.pf ⟨(nth (0, 0) vals (p.k0 + n)).1, (nth (0, 0) vals (p.k0 + n)).2⟩).1.b % 16 ^ f.mh) ∧
      (∀ a, (∀ l ∈ ls, ¬hit l a) → f.whole = false → pend x1 a = pend x a) ∧
      (f.whole = true → ∀ l ∈ ls, ∀ line ∈ l.el.lines f.mh, (f.els.find? (fun e => (e.lines f.mh).contains line)) = some l.el →
        let pa := if line / 1024 = l.el.va2 / 131072 then l.tr.pa / 64 * 64 + 64 * line - l.el.va2 / 128 * 64
          else l.tr2.pa / 64 * 64 + 64 * line - (l.el.va2 + f.mh - 1) / 128 * 64
        ∀ o, o < 64 → (∀ e ∈ f.els, apart e.va2 f.mh (line * 128 + 2 * o) 2 = true) → (∀ l' ∈ ls, ¬hit l' (pa + o)) →
          pend x1 (pa + o) = some 0)) ∧
  (∀ (b : Begun) (x y : CSt), b.gathers x = some y → (x.s.core b.c).memDue = false →
    let h := HD.of (b.en.h 0)
    let srcs := grSources h ((HD.of (b.en.h 1)).e 0 / 2) x.m.rows
    let pf := match srcs.head? with
      | some q => x.s.firstFmt b.c h (b.en.s 0) (b.en.s 1) q.2.2.1
      | none => x.s.pageFmt b.c h (b.en.s 0)
    let parts := grParts h (memHalf h pf) ((HD.of (b.en.h 1)).e 0 / 2) (b.en.s 0) (b.en.s 1) srcs 0
    h.places.Pairwise (fun e q => apart e.2 h.half q.2 h.half = true) → (∀ e ∈ h.places, wholeRun e.2 h.half = true) →
    ∀ (n r j : Nat) (e : List Nat × Nat), h.places[n]? = some e → (grDests h)[n]? = some (r, j) →
      elBits (y.s.core b.c).pad.mem e.2 h.half = (grSum (((srcs.zip parts).filter (fun q => q.1.1 == r)).map (fun q =>
        let v := nth (0, 0) y.m.vals (q.2.k0 + j)
        (val32 (BitVec.ofNat 32 q.1.2.2.2), CVal.ex pf ⟨v.1, v.2⟩)))).1.toNat % 16 ^ h.half) ∧
  (∀ (ps : List (Ex × Ex × Int × Int)) (d e : Nat), 0 < d → 0 < e → (∀ p ∈ ps, p.1.is p.2.2.1 d ∧ p.2.1.is p.2.2.2 e) →
    let n : Int := (ps.map (fun p => p.2.2.1 * p.2.2.2)).sum
    ∃ z : Ex, z.is n (d * e) ∧ (n = 0 → z.neg = (!ps.isEmpty && ps.all (fun p => p.1.neg != p.2.1.neg))) ∧
      grSum (ps.map (fun p => (p.1, p.2.1))) = rne32 z) ∧
  (∀ (ps : List (Ex × Ex)) (p : Ex × Ex), p ∈ ps → (p.1 = .nan ∨ p.2 = .nan ∨ (exZero p.1 = true ∧ ∃ s, p.2 = .inf s) ∨
    (exZero p.2 = true ∧ ∃ s, p.1 = .inf s)) → grSum ps = (0x7FC00000, fNV))

/-- LD.G and LD.GT fill their slot, LD.SP copies in the scratchpad, ST.RMT and ST.MC reach other cores, PREF only completes
(R186, R187, R188, R189, R190, R200, R201, R284). From every state in which it begins: LD.G and LD.GT, aligned and held back by
no older store, whose parts can all be read, answer the next state of their end, as a copy's, in which the slot's descriptor has
the handle's format, N / 128 panels (rounded up), depth K and the offset s[e], its column anchors are the exponents of the
columns as stored, each element (k, j) in a format without blocks stands at its place in column stack j mod 128 with the bits of
its conversion, no stack byte outside the slot's area and no other slot changes. LD.SP, whose formats convert and whose granules
can be read and landed, answers the state in which each element of the destination has the conversion of the source's element as
it stood before. ST.RMT and ST.MC, once their source is read and every granule and flag has been delivered, complete with the
conversion's flags; ST.MC then holds in s[b] the mask of the destinations in service whose write path lands the whole payload (a
free value says which fail). PREF completes with no effect, or waits in flight for older commands. Delivering one element of a
channel writes exactly its runs of half-bytes in its destination's scratchpad, behind the writes pending there. -/
def Obligations.GlazeLoadsAndScratchpadCopies : Prop :=
  (∀ (s : State) (tok : Tok) (hh : Hreg) (a p e fa fv : Sreg) (g : Gslot) (tr : Bool) (b : Begun) (x : CSt),
    let i : Instr := if tr then .ldGt tok hh a p e fa fv g else .ldG tok hh a p e fa fv g
    s.begins i = some b →
    let f := glazeForm b.s b.c b.en tr
    let h := f.1
    let pf := f.2.1
    let mh := memHalf h pf
    alignAt .ld h pf (b.en.s 0) (b.en.s 1) = none →
    doneAll (fun x p => loadPart b.c b.en.routed (ldFmtOk pf h.fmt) pf mh p x) (b.s.partsOf b.c mh f.2.2) b.copy0 = some x → ∃ u,
      exec i s = .next u ∧
      let z := u.clu (b.c / 4)
      let z0 := b.s.clu (b.c / 4)
      let d := z.slot g.toNat
      (∃ fl, u = b.settles { s := (x.s.setClu (b.c / 4) z).renew (glazeWhole (b.c / 4) (h.e 0) { d with anch := [] })
                             m := { x.m with fl := fl } }) ∧
      z = { z0 with slots := z.slots, cols := z.cols, ce := z.ce } ∧
      z.slotOk g.toNat = true ∧ d.fmt = h.fmt ∧ d.panels = (h.e 0 + 127) / 128 ∧ d.depth = h.e 1 ∧ d.off = (b.en.s 2).toNat ∧
      (∀ g', g' ≠ g.toNat → mfind z.slots g' = mfind z0.slots g') ∧
      (∀ j, j < h.e 0 → d.anchor (j / 128) (j % 128) =
        anchorOf h.fmt ((fmtW h.fmt).getD 0) ((upto (h.e 1)).map (d.el (z.col (j % 128)) (j / 128)))) ∧
      (fmtBk h.fmt = false → ∀ k j, k < h.e 1 → j < h.e 0 → elBits (z.col (j % 128)) (d.elAt (j / 128) k) (fmtHalf h.fmt) =
        (convEl (endFmt pf h.fmt) h.fmt ⟨(nth (0, 0) x.m.vals (k * h.e 0 + j)).1, (nth (0, 0) x.m.vals (k * h.e 0 + j)).2⟩).1.b %
          2 ^ (4 * fmtHalf h.fmt)) ∧
      (∀ j v, j < 128 → (v < d.off ∨ d.off + d.panels * slotKp h.fmt (h.e 1) ≤ v) → rd (z.col j) v = rd (z0.col j) v)) ∧
  (∀ (s : State) (tok : Tok) (hh : Hreg) (a fa fv : Sreg) (b : Begun) (x : CSt), s.begins (.ldSp tok hh a fa fv) = some b →
    b.copiedIn = some x → exec (.ldSp tok hh a fa fv) s = .next (b.settles x) ∧
    let dst := HD.of (b.en.h 0)
    let src := HD.of (b.en.h 1)
    let hs := src.as dst.fmt
    let d := dst.as src.fmt
    (fmtBk src.fmt = false → fmtBk dst.fmt = false → src.fet = false → b.core.memDue = false →
      (∀ e ∈ hs.places, wholeRun e.2 hs.half = true) → (∀ e ∈ d.places, wholeRun e.2 d.half = true) →
      d.places.Pairwise (fun e q => apart e.2 d.half q.2 d.half = true) → ∀ (n : Nat) (e q : List Nat × Nat), hs.places[n]? = some e → d.places[n]? = some q →
        elBits (x.s.core b.c).pad.mem q.2 d.half =
          (convEl src.fmt dst.fmt ⟨elBits (b.core.padAt b.t) e.2 hs.half, 0⟩).1.b % 16 ^ d.half)) ∧
  (∀ (s : State) (tok : Tok) (hh : Hreg) (a p e fa fv : Sreg) (die : BitVec 2) (b : Begun) (fl : Fl) (s1 : State),
    (s.begins (.stRmt tok hh a e fa fv) = some b →
      b.shipped [(b.en.s 2).toNat] (fun _ => none) = some (fl, s1) →
      exec (.stRmt tok hh a e fa fv) s = .next (b.leaves b.t 1 (s1.upCore b.c (fun k => k.flagsAt (b.t + 1) fl)))) ∧
    (s.begins (.stMc tok hh a p e fa fv die) = some b →
      let ds := (mcDests die.toNat (b.en.s 2)).filter (fun d => !b.s.ik.retired.contains (d / 4))
      let lim := b.s.mcLands b.c b.en
      b.shipped ds lim = some (fl, s1) → exec (.stMc tok hh a p e fa fv die) s =
        .next (b.leaves b.t 1 ((s1.upCore b.c (fun k => k.setS p (BitVec.ofNat 64 (ds.foldl (fun m d =>
          if (lim d).isNone then m + 2 ^ (d % 64) else m) 0)))).upCore b.c (fun k => k.flagsAt (b.t + 1) fl)))) ∧
    (s.begins (.pref tok a p) = some b → exec (.pref tok a p) s = .next (b.closes b.s))) ∧
  (∀ (s : State) (d : Nat) (e : ChanEl),
    (e.fet = true → e.inter = true → ∀ w ∈ e.ws, ∀ g ∈ granLow (nibSpan w).1 (nibSpan w).2, (s.core d).pad.full.contains g = false) →
    ∃ u, deliverEl s d e = some u ∧ u = s.setCore d (u.core d) ∧ (u.core d).r = (s.core d).r ∧
      let k := s.core d
      (∀ a, (∀ w ∈ e.ws, a < (nibSpan w).1 ∨ (nibSpan w).1 + (nibSpan w).2 ≤ a) → rd (u.core d).pad.mem a = rd k.pad.mem a) ∧
      (k.memDue = false → e.ws.Pairwise (fun w q => apart w.1 w.2.1 q.1 q.2.1 = true) → ∀ w ∈ e.ws, wholeRun w.1 w.2.1 = true →
        elBits (u.core d).pad.mem w.1 w.2.1 = w.2.2 % 16 ^ w.2.1) ∧
      (k.memDue = true → ∀ w ∈ e.ws, (w.2.1 = 1 → ⟨k.eng.cyc, .st, .nib w.1 w.2.2⟩ ∈ (u.core d).eng.due) ∧
        (w.2.1 ≠ 1 → ⟨k.eng.cyc, .st, .mem (w.1 / 2) (toLE (w.2.1 / 2) w.2.2)⟩ ∈ (u.core d).eng.due)))

/-- ST.APP, its query, LD.NET, ST.NET and MIGR complete with the effect their descriptor or segment calls for (R191, R192, R193,
R313, R314, R358, R359, R360). From every state in which it begins: ST.APP outside a region, whose descriptor is good and free,
reads its tile, reads LEN again, raises HANDLE when the rows do not fit and otherwise claims them (LEN grows by the tile's rows)
and completes when they have landed; in a region's body it makes its rows green (OWN, the lanes' counts, the descriptor among
the region's), then lands them. Its query gives LEN, with the green rows of the lanes up to its own when its own core holds
them. LD.NET of an empty queue gives all ones in s[b]; of one whose head slot is there, it takes the entry: HEAD + 1, the
payload's first bytes in the tile, the slot's full bit cleared, its length in s[b] and its tag in s[e]. ST.NET whose tile is
larger than a slot raises HANDLE; to a full queue it counts a drop and gives 1; to one with room it reads its tile and claims a
slot (TAIL + 1), in the other order where granules are waited for (log entry 105), writes the entry and gives 0. MIGR of a
segment that is not held, whose target is good, that no transfer uses and in which no word is uncorrectable, completes: the
bytes stand at the target, everything else but the segment's own entry is as before, and the entry names the target with HOLD
clear; a bad target raises PERM with subcause 3. -/
def Obligations.AppendsQueuesAndMigration : Prop :=
  (∀ (s : State) (tok : Tok) (hh : Hreg) (a e fa fv : Sreg) (b : Begun) (x : CSt) (pa : Nat) (d : AppendQ),
    (s.begins (.stApp tok hh a fa fv) = some b → appendDesc b.c (b.en.s 0) needRW b.copy0 = (.ok x, some (pa, d)) →
      let h := HD.of (b.en.h 0)
      appendStop x.s b.c b.en d d.len.toNat = none →
      (8 < b.en.lane → ∀ x1,
        let f := appendForm x.s b.c b.en d d.len.toNat
        doneAll (storeAct b.c b.t f) ((f.acts x.s b.c).filter (fun a => match a with | .store _ => false | _ => true)) x = some x1 →
        ∀ x2 pa2 d2, appendDesc b.c (b.en.s 0) needRW x1 = (.ok x2, some (pa2, d2)) → d2.own = 0 →
        (d2.cap < d2.len.toNat + h.rows → exec (.stApp tok hh a fa fv) s =
          .next (b.trapsIn (stopH .st (hReg b.en.i 0) 0) ((x1.leave b.c).s.setMark b.c .st .fresh))) ∧
        (d2.len.toNat + h.rows ≤ d2.cap → appendStop x2.s b.c b.en d2 d2.len.toNat = none →
          let f2 := appendForm x2.s b.c b.en d2 d2.len.toNat
          let vals := (x2.s.core b.c).taken (f2.h.as f2.pf) (fmtBk f2.h.fmt) f2.pads x2.m
          ∀ y, copyLoop (fun x p => storePart b.c f2 vals p x) (x2.s.partsOf b.c f2.mh f2.els)
              { x2 with s := x2.s.writeMem (pa2 + 0x10) (toLE 8 (d2.len.toNat + h.rows)) } = .ok y →
            exec (.stApp tok hh a fa fv) s = .next (b.settles y))) ∧
      (b.en.lane ≤ 8 → d.own = 0 → (x.s.core b.c).spec.descs.length < 8 →
        d.len.toNat + ((List.range 8).map (laneRows b.en h)).sum ≤ d.cap → ∀ g y,
        g = (upto 8).foldl (fun a j => a + laneRows b.en h j % 2 ^ 16 * 2 ^ (16 * j)) 0 →
        let s2 := ((x.s.writeMem (pa + 0x18) (toLE 8 (b.c + 1))).writeMem (pa + 0x20) (toLE 16 g)).upCore b.c (fun k =>
          { k with spec := { k.spec with descs := k.spec.descs ++ [(pa, b.en.s 0)] } })
        let f := appendForm s2 b.c b.en d d.len.toNat
        doneAll (storeAct b.c b.t f) (f.acts s2 b.c) { s := s2, m := { x.m with rows := [d.len.toNat + 1] } } = some y →
          exec (.stApp tok hh a fa fv) s = .next (b.settles y))) ∧
    (s.begins (.stAppQuery tok a e) = some b → appendDesc b.c (b.en.s 0) needR b.copy0 = (.ok x, some (pa, d)) →
      exec (.stAppQuery tok a e) s = .next (b.closes ((x.leave b.c).s.upCore b.c (fun k => k.setS e (d.len + BitVec.ofNat 64
        (if d.own = b.c + 1 ∧ b.en.lane < 8 then (d.green.take (b.en.lane + 1)).sum else 0))))))) ∧
  (∀ (s : State) (tok : Tok) (hh : Hreg) (a p e fa fv : Sreg) (b : Begun) (x : CSt) (pa : Nat) (d : PortQ),
    s.begins (.ldNet tok hh a p e fa fv) = some b → portDesc b.c .ld (b.en.s 0) false b.copy0 = (.ok x, some (pa, d)) →
    let h := HD.of (b.en.h 0)
    let head : Option W64 := if d.head.toNat < d.tail.toNat then some d.head else none
    (∀ s1 fc, portTurn x.s b.c 6 head = (s1, some none, fc) → exec (.ldNet tok hh a p e fa fv) s =
      .next (b.settlesAs (.ldNet (tokOf b.en.i) 0 0 p e 0 0) { x with s := s1.upCore b.c (fun k => k.setS p (BitVec.allOnes 64)) })) ∧
    (∀ s1 n fc x1 hd x2 pas y, portTurn x.s b.c 6 head = (s1, some (some n), fc) →
      xlateRange b.c needW .ld (d.slotVa n) 1 0 { x with s := s1 } [] = .ok (x1, hd) →
      let bs := rdN x1.s.mem (hd.headD 0) 16
      let len := leNat (bs.take 4)
      let m := min (min len (tileBytes h)) (d.slot - 64)
      let full := (bs.drop 8).headD 0
      xlateRange b.c needW .ld (d.slotVa n + 64) ((m + 63) / 64) 0 x1 [] = .ok (x2, pas) →
      badPiece x2.s hd 16 = none → badPiece x2.s pas m = none → (fc = true → full.getLsbD 0 = true) →
      let s3 := (x2.s.corrAll ((hd.headD 0, 16) :: piecesRead pas m)).writeMem (pa + 0x10) (toLE 8 (d.head + 1).toNat)
      let vs := (s3.core b.c).landings h (fillPieces h (2 * m))
      let v := leNat (readPieces x2.s.mem pas m)
      doneAll (fun x w => landVisit b.c b.t h w (payloadVal h v) x) vs { s := s3, m := { x2.m with
        rows := [hd.headD 0 + 8, len, leNat ((bs.drop 4).take 4), m], stash := [(0, v)], gs := granulesOf vs } } = some y →
      exec (.ldNet tok hh a p e fa fv) s = .next (b.settles { y with
        s := (y.s.writeMem (hd.headD 0 + 8) [rd y.s.mem (hd.headD 0 + 8) &&& 0xFE]).upCore b.c (fun k =>
          (k.setS p (BitVec.ofNat 64 len)).setS e (BitVec.ofNat 64 (leNat ((bs.drop 4).take 4)))) }))) ∧
  (∀ (s : State) (tok : Tok) (hh : Hreg) (a p e fa fv : Sreg) (b : Begun) (x : CSt) (pa : Nat) (d : PortQ),
    s.begins (.stNet tok hh a p e fa fv) = some b → portDesc b.c .st (b.en.s 0) true b.copy0 = (.ok x, some (pa, d)) →
    let h := HD.of (b.en.h 0)
    let tail : Option W64 := if (d.tail - d.head).toNat < d.cap % 2 ^ 64 then some d.tail else none
    (d.slot - 64 < tileBytes h → exec (.stNet tok hh a p e fa fv) s = .next (b.traps (stopH .st (hReg b.en.i 0) 0))) ∧
    (tileBytes h ≤ d.slot - 64 → (b.core.tracks h = true ∨ tail = none) →
      (∀ s1 fc, portTurn x.s b.c 7 tail = (s1, some none, fc) → exec (.stNet tok hh a p e fa fv) s = .next (b.drops p pa d x s1)) ∧
      (∀ s1 n fc x2 y, portTurn x.s b.c 7 tail = (s1, some (some n), fc) → b.claims pa d x s1 n fc = some x2 →
        doneAll (takeVisit b.c b.t .st h none) ((x2.s.core b.c).takes h false h.places) x2 = some y →
        exec (.stNet tok hh a p e fa fv) s = .next (b.settles (b.posts p ((y.s.core b.c).taken h false h.places y.m) y)))) ∧
    (tileBytes h ≤ d.slot - 64 → b.core.tracks h = false → tail ≠ none → ∀ z z1 pa1 d1,
      doneAll (takeVisit b.c b.t .st h none) ((x.s.core b.c).takes h false h.places) x = some z →
      portDesc b.c .st (b.en.s 0) true z = (.ok z1, some (pa1, d1)) →
      let tail1 : Option W64 := if (d1.tail - d1.head).toNat < d1.cap % 2 ^ 64 then some d1.tail else none
      (∀ s1 fc, portTurn z1.s b.c 7 tail1 = (s1, some none, fc) → exec (.stNet tok hh a p e fa fv) s = .next (b.drops p pa1 d1 z1 s1)) ∧
      (∀ s1 n fc x2, portTurn z1.s b.c 7 tail1 = (s1, some (some n), fc) → b.claims pa1 d1 z1 s1 n fc = some x2 →
        exec (.stNet tok hh a p e fa fv) s = .next (b.settles (b.posts p ((z.s.core b.c).taken h false h.places z.m) x2))))) ∧
  (∀ (s : State) (tok : Tok) (a p fa fv : Sreg) (b : Begun), s.begins (.migr tok a p fa fv) = some b →
    let e := b.s.env b.c
    let sg := (b.en.s 0).toNat
    let to' := (b.en.s 1).toNat
    let n := segAt b.s.mem e sg
    let len := n.len * 65536
    let own (v : Nat) : Prop := segAddr e sg ≤ v ∧ v < segAddr e sg + 8
    ¬(sg < e.segn ∧ n.hold = true) →
    (migrBad e n sg to' = true → exec (.migr tok a p fa fv) s = .next (b.traps ⟨.perm, .st, 0, 0x300⟩)) ∧
    (migrBad e n sg to' = false → n.busy = 0 →
      (∀ w ∈ b.s.badMem, w.arr = .memory → ¬(n.base ≤ 8 * w.idx ∧ 8 * w.idx < n.base + len)) → ∃ u,
      exec (.migr tok a p fa fv) s = .next u ∧ (segAt u.mem e sg).hold = false ∧ (segAt u.mem e sg).base = to' / 65536 * 65536 ∧
      (∀ v, v < len → ¬own (n.base + v) → ¬own (to' + v) → rd u.mem (to' + v) = rd b.s.mem (n.base + v)) ∧
      (∀ v, (v < to' ∨ to' + len ≤ v) → ¬own v → rd u.mem v = rd b.s.mem v)))

/-- LINK.SEND, LINK.RED and LINK.RECV complete; sends, hops, arrivals and combinations go through the slots and ports of their
routes (R409, R410, R412, R413, R414, R415, R416, R417, R418, R423, R425). From every state in which it begins: LINK.SEND whose
tile can be read, and LINK.RED without IN or with a good partial of its length on its channel, admit their transfer (the bytes;
the partial, the arriving one added block by block, narrowed when RQ is set) and leave in the slot chosen: the requested slot
when it is still to come, otherwise the first later one of its residue, counted LATE; a partial of another length raises HANDLE
(log entry 44), a bad one MEM.UE with interrupt 6 (log entry 73). They complete, or wait in flight for older commands (log entry
76). The transfer leaves its first port with the route, tenant and slot. LINK.RECV of a held transfer lands as many blocks as
the tile holds (log entry 44); a bad one raises MEM.UE, a partial for another format FORMAT; without one it waits in flight. A
hop turns to the exit port of its turn; turn 3, a dead port and a lost slot discard it and count DISC; after HOPS turns it
arrives: a core outside the tenant or holding four discards it, any other holds it in slot order, its resent beats counted in
the partition there (log entry 45). LINK_SEND_SLOT, LINK_RED_COMBINE and LINK_SLOT_BOUNDARY do their part of this. When the slot
counter moves (log entry 14), waiting schedule writes take effect once a slot with q mod 64 = 0 begins, and at most one
collective record leaves each port in a slot, the first in rank first. Blocks of one scale add mantissa by mantissa. -/
def Obligations.LinksSendHopAndReceive : Prop :=
  (∀ (s : State) (tok : Tok) (hh : Hreg) (a p fa fv : Sreg) (rq : Bool) (b : Begun) (vals : List (Nat × Nat)) (x : CSt),
    let h := HD.of (b.en.h 0)
    let sends (s1 : State) (body : LinkBody) : State := b.closes ((s1.linkAdmit b.c b.en body).linkLeft b.c)
    let sum (l : List BkBlock) : LinkBody := .part (!rq) (if rq then l.map blockNarrow else l)
    (s.begins (.linkSend tok hh a p fa fv) = some b → b.reads h false h.places = some (vals, x) → let v := tileNum h vals
      exec (.linkSend tok hh a p fa fv) s = .next (sends x.s (.plain (toLE v.2 v.1)))) ∧
    (b.reads h true h.places = some (vals, x) →
      let mine := partialOf h vals
      (s.begins (.linkRed tok hh a p fa fv rq false) = some b →
        exec (.linkRed tok hh a p fa fv rq false) s = .next (sends x.s (sum mine))) ∧
      (s.begins (.linkRed tok hh a p fa fv rq true) = some b → ∀ y, x.s.linkFirst b.c (routeChan (b.en.s 0)) true = some y →
        (y.bad = true → exec (.linkRed tok hh a p fa fv rq true) s =
          .next (b.trapsIn ⟨.memUe, .st, 0, 9⟩ (((x.s.setMark b.c .st .fresh).linkTake b.c y).irq 6))) ∧
        (∀ w bs, y.bad = false → y.body = .part w bs →
          (bs.length = mine.length → exec (.linkRed tok hh a p fa fv rq true) s =
            .next (sends (x.s.linkTake b.c y) (sum ((mine.zip bs).map (fun q => blockAdd q.1 q.2))))) ∧
          (bs.length ≠ mine.length → exec (.linkRed tok hh a p fa fv rq true) s =
            .next (b.trapsIn (stopH .st (hReg b.en.i 0) 0) ((x.leave b.c).s.setMark b.c .st .fresh))))))) ∧
  (∀ (s : State) (c port : Nat) (en : Entry) (body : LinkBody),
    let p := s.partNo c
    let q := sendSlot s.links.lsc (en.s 1).toNat
    let x : LinkXfer := ⟨en.s 0, 1, q.1, p, ((s.part p).getSr 0x260).toNat % 2 ^ 16, routeOrg (en.s 0), body, 0, false⟩
    let s1 := (if q.2 then s.linkStat p 0 1 else s).reachSlot q.1
    let u := (s.linkAdmit c en body).linkLeft c
    firstPort (en.s 0) = some port → Config.deadPort port = false → (∀ o ∈ s.links.out, o.1 = port → o.2.slot ≠ q.1) →
      u.links = { s1.links with out := s.links.out ++ [(port, x)], sends := mdel s.links.sends c } ∧ u.parts = s1.parts ∧
      u.mem = s.mem ∧ (∀ d, d ≠ c → u.core d = s.core d) ∧
      (p < noPart → ((s.linkStat p 0 1).part p).getSr 0x1E3 = linkCount 0 1 ((s.part p).getSr 0x1E3))) ∧
  (∀ now q : Nat, let r := sendSlot now q
    now < r.1 ∧ r.1 % 64 = q % 64 ∧ q ≤ r.1 ∧ (r.2 = true ↔ q ≤ now) ∧ (r.2 = false → r.1 = q) ∧ (r.2 = true → r.1 ≤ now + 64)) ∧
  (∀ (s : State) (tok : Tok) (hh : Hreg) (a p fa fv : Sreg) (b : Begun) (x : LinkXfer), s.begins (.linkRecv tok hh a p fa fv) = some b →
    (b.s.recvOf b.c b.en = none → exec (.linkRecv tok hh a p fa fv) s =
      .next (b.s.upCore b.c (fun k => k.fly .ld { b.en with mark := .await } b.t))) ∧
    (b.s.recvOf b.c b.en = some x →
    let h := HD.of (b.en.h 0)
    let s1 := b.s.linkTake b.c x
    let lands (st n : Nat) (ps : List Piece) (vals : List (Nat × Nat)) (fl : Fl) : Prop :=
      let vs := (s1.core b.c).landings h ps
      let val (key : Nat) : Nat := if key % 2 = 0 then (nth (0, 0) vals (key / 2)).1 else (nth (0, 0) vals (key / 2)).2
      ∀ y, doneAll (fun z v => landVisit b.c b.t h v val z) vs
          { s := s1, m := { rows := [st, n], vals := vals, fl := fl, gs := granulesOf vs } } = some y →
        exec (.linkRecv tok hh a p fa fv) s = .next (b.settles { y with s := y.s.upCore b.c (fun k => k.setS p (BitVec.ofNat 64 st)) })
    (x.bad = true → exec (.linkRecv tok hh a p fa fv) s = .next (b.trapsIn ⟨.memUe, .ld, 0, 9⟩ (s1.irq 6))) ∧
    (x.bad = false →
      (∀ bs, x.body = .plain bs →
        let n := min bs.length (tileBytes h)
        lands (bs.length + if tileBytes h < bs.length then 2 ^ 63 else 0) (2 * (2 * n)) (fillPieces h (2 * n))
          ((upto h.places.length).map (fun k => (payloadVal h (leNat (bs.take n)) (2 * k), 0))) 0) ∧
      (∀ wide bs, x.body = .part wide bs →
        let r := ((tileBlocks h).zip bs).map (fun q => blockVals h wide q.1 q.2)
        let vals := r.flatMap (fun q => q.1)
        ((h.fmt = 0x10 ∨ h.fmt = 1) → lands bs.length (2 * vals.length + 1) (h.pieces (fmtBk h.fmt) true (h.places.take vals.length)) vals
          (r.foldl (fun f q => f ||| q.2) 0)) ∧
        (h.fmt ≠ 0x10 ∧ h.fmt ≠ 1 → exec (.linkRecv tok hh a p fa fv) s = .next (b.traps (stopF .ld h.fmt))))))) ∧
  (∀ (s : State) (x : LinkXfer) (port : Nat),
    let y : LinkXfer := { x with entry := port, hop := x.hop + 1 }
    let turn := exitPort x.route (x.hop + 1) port
    let lost : Out := .next (s.linkStat x.part 16 1)
    let leaves (q : Nat) (l : List (Nat × LinkXfer)) : State := { s with links := { s.links with out := l ++ [(q, y)] } }
    (routeHops x.route ≤ x.hop → exec (.linkHop x port) s = exec (.linkArrive x port) s) ∧
    (x.hop < routeHops x.route →
      (turn = none → exec (.linkHop x port) s = lost) ∧
      (∀ q, turn = some q →
        (Config.deadPort q = true → exec (.linkHop x port) s = lost) ∧
        (Config.deadPort q = false →
          let same (o : Nat × LinkXfer) : Bool := o.1 == q && o.2.slot == x.slot
          (s.links.out.find? same = none → exec (.linkHop x port) s = .next (leaves q s.links.out)) ∧
          (∀ o, s.links.out.find? same = some o →
            (xferRank o.2 ≤ xferRank y → exec (.linkHop x port) s = lost) ∧
            (xferRank y < xferRank o.2 → exec (.linkHop x port) s =
              .next ((leaves q (s.links.out.filter (fun z => !same z))).linkStat o.2.part 16 1))))))) ∧
  (∀ (s : State) (x : LinkXfer) (port : Nat),
    let d := routeCore x.route
    let p := s.partNo d
    let held := mget [] s.links.held d
    let refused : Prop := p = noPart ∨ ((s.part p).getSr 0x260).toNat % 2 ^ 16 ≠ x.tenant ∨ 4 ≤ held.length
    (refused → exec (.linkArrive x port) s = .next (s.linkStat x.part 16 1)) ∧
    (¬refused → ∃ u, exec (.linkArrive x port) s = .next u ∧ mget [] u.links.held d = linkIns { x with entry := port } held ∧
      (∀ c, c ≠ d → mget [] u.links.held c = mget [] s.links.held c) ∧ u.links.out = s.links.out ∧ u.cores = s.cores ∧ u.mem = s.mem ∧
      ((p < noPart ∧ x.resent ≠ 0) → (u.part p).getSr 0x1E3 = linkCount 32 x.resent ((s.part p).getSr 0x1E3)) ∧
      (x.resent = 0 → u.parts = s.parts))) ∧
  (∀ (s : State) (c : Nat) (b : Begun), s.heads c .st = some b → b.unheld = true →
    (∀ q, b.en.mark = .slotted q → (∃ tok hh a p fa fv, b.en.i = .linkSend tok hh a p fa fv) →
      exec (.linkSendSlot c) s = .next (b.closes (b.s.linkLeft c))) ∧
    (∀ tok hh a p fa fv rq vals x y w bs, b.en.i = .linkRed tok hh a p fa fv rq true → b.en.mark = .fresh →
      let h := HD.of (b.en.h 0)
      let mine := partialOf h vals
      b.reads h true h.places = some (vals, x) → x.s.linkFirst c (routeChan (b.en.s 0)) true = some y → y.bad = false →
      y.body = .part w bs → bs.length = mine.length →
      let l := (mine.zip bs).map (fun q => blockAdd q.1 q.2)
      exec (.linkRedCombine c) s =
        .next ((x.s.linkTake c y).linkAdmit c b.en (.part (!rq) (if rq then l.map blockNarrow else l))))) ∧
  (∀ s : State, exec .linkSlotBoundary s = .next (s.reachSlot (s.links.lsc / 64 * 64 + 64))) ∧
  (∀ (s : State) (q : Nat), let u := s.reachSlot q
    let cross : Prop := s.links.lsc / 64 ≠ q / 64
    (q ≤ s.links.lsc → u = s) ∧
    (s.links.lsc < q →
      u = { s with links := { u.links with held := s.links.held, sends := s.links.sends, out := s.links.out }, parts := u.parts } ∧
      u.links.lsc = q ∧ (¬cross → u.parts = s.parts ∧ u.links.later = s.links.later) ∧
      (cross → u.links.later = [] ∧ ∀ l w, s.links.later = l ++ [w] → (u.part w.1).getSr w.2.1 = w.2.2) ∧
      (∀ p n, (∀ w ∈ s.links.later, w.1 = p → w.2.1 ≠ n) → (u.part p).getSr n = (s.part p).getSr n) ∧
      ∃ l, u.links.recOut = s.links.recOut ++ l ∧ (u.links.recs ++ l.map (fun x => (x.1, x.2.2))).Perm s.links.recs ∧
        (∀ x ∈ l, s.links.lsc ≤ x.2.1 ∧ x.2.1 < q) ∧ l.Pairwise (fun x y => (x.1, x.2.1) ≠ (y.1, y.2.1)) ∧
        ∀ x ∈ l, x.2.1 = s.links.lsc → ∀ y ∈ s.links.recs, y.1 = x.1 → recRank x.2.2 ≤ recRank y.2)) ∧
  (∀ a b : BkBlock, a.scale = b.scale → a.scale < 511 → a.m.length = b.m.length →
    blockAdd a b = ⟨a.scale, List.zipWith (· + ·) a.m b.m⟩)

/-- A scalar bank operation leaves its word's new value by the table of R297, returns the old one where it returns a value, and
changes nothing else (R96, R97, R98, R173, R292, R294, R296, R297, R298, R299, R300, R305). For each scalar form (BADD BAND BOR
BXOR BMIN BMAX BMINN BMAXN BFMIN BFMAX BMAXI BXADD BXRD BFAA BCAS BLD BST BHIST BAXPY, and BPFX of one bin): from every state in
which it begins, with an aligned word that translates, lies in the Crock or belongs to a privileged unit, holds no uncorrectable
word and no BUSY count, whose bank's FIFO is empty, outside record and replay and with a reserve line free, exec answers the
next state in which the word holds what the operation table gives (an exact cell the sum and status, or zeros when CLR is set),
every special register but STAT, every byte of the scratchpad but the flag word, and every other byte of memory but BUSY counts
is as before, STAT takes the NV of a reading alone, and the ST queue is empty. The result scalar holds the old value (a cell's
rounded value, BPFX's sum) and every other scalar is as before, or, while a flag word waits for older commands (R173), no scalar
has changed and the operation is in flight. An address that is not a multiple of the word's size raises ALIGN, of the stream ST
(log entry 20). The other clauses give the table by the operands for all words: sums and products modulo 2^n, bitwise
operations, signed and unsigned least and greatest, FP32 least and greatest with the canonical NaN and -0 below +0, the order of
index pairs, compare and swap, stores, the saturating histogram, BPFX's sum, adding to a cell and reading one. -/
def Obligations.BankOperationsOnOneWord : Prop :=
  (∀ (s : State) (i : Instr) (f : BForm) (b : Begun), s.begins i = some b → bankForm i = some f → f.stream = false →
    ((b.en.s 0).toNat % bankSize f.op f.ty ≠ 0 → exec i s = .next (b.traps ⟨.align, .st, b.en.s 0, 0⟩)) ∧
    ((b.en.s 0).toNat % bankSize f.op f.ty = 0 → ∀ (el : BEl) (x y : CSt) (tr : Xlated), b.words f = some ([el], x) →
      x.xlate b.c el.2.1 (bankNeed f.op f.clr) 0 .st = (.ok y, some tr) → (tr.ent.home = 2 ∨ b.core.isPriv = true) →
      b.s.lagBanks = false → mget [] b.s.fifos (bankOf tr.pa) = [] → (b.s.part (b.s.partNo b.c)).logMode = 0 →
      let n := bankBytes f.op f.ty
      let word := rdN b.s.mem tr.pa n
      let old := b.s.bankWord tr.pa n
      let cell := b.s.cell tr.pa
      let fa := (b.en.s 3).toNat
      b.s.memBad tr.pa n = false → b.s.reserve (dieOf (tr.pa / 64 * 64)) < 2 ^ 24 →
      (∀ j, j < n → (b.s.env b.c).busyByte (tr.pa + j) = false) → ∃ u, exec i s = .next u ∧
        (f.op.cell = false → bankWrites f.op f.clr = true → rdN u.mem tr.pa n = toLE n (bankNew f.op f.ty old el.2.2 (b.en.s 2)).toNat) ∧
        (f.op = .xadd → let z := cellAdd cell.1 cell.2 (val32 (el.2.2.setWidth 32))
          rdN u.mem tr.pa 48 = toLE 40 (intBits 320 z.1) ++ toLE 8 z.2.toNat) ∧
        (f.op = .xrd → f.clr = true → rdN u.mem tr.pa 48 = List.replicate 48 0) ∧
        (bankWrites f.op f.clr = false → rdN u.mem tr.pa n = word) ∧
        (b.first b.s = true → bankReturns f.op = true → f.d ≠ 0 → (u.core b.c).getS f.d =
          if f.op = .xrd then (rne32 (cellRead cell.1 cell.2).1).1.setWidth 64 else bankGives f.op f.ty old) ∧
        (b.first b.s = false → (∀ r, (u.core b.c).getS r = b.core.getS r) ∧
          ∃ en, (u.core b.c).eng.flight = b.core.eng.flight ++ [en] ∧ en.i = b.en.i ∧ en.routed = b.en.routed) ∧
        (∀ r, (bankReturns f.op = false ∨ r ≠ f.d) → (u.core b.c).getS r = b.core.getS r) ∧
        (∀ m, m ≠ 0x001 → (u.core b.c).getSr m = b.core.getSr m) ∧
        (u.core b.c).getSr 0x001 = (b.core.flags (if f.op = .xrd then (cellRead cell.1 cell.2).2 else 0)).getSr 0x001 ∧
        (∀ a, (faOf b.en.i = 0 ∨ a < fa ∨ fa + 8 ≤ a) → rd (u.core b.c).pad.mem a = rd b.core.pad.mem a) ∧
        (∀ a, (b.s.env b.c).busyByte a = false → (a < tr.pa ∨ tr.pa + n ≤ a) → rd u.mem a = rd b.s.mem a) ∧
        (u.core b.c).eng.st = [])) ∧
  (∀ (ty : BTy) (old x e : W64),
    let n : Nat := if ty = .d then 64 else 32
    let o := old.toNat % 2 ^ n
    let v := x.toNat % 2 ^ n
    let sg (m : Nat) : Int := if m < 2 ^ (n - 1) then m else (m : Int) - 2 ^ n
    let new (op : BOp) : Nat := (bankNew op ty old x e).toNat
    new .add = (o + v) % 2 ^ n ∧ new .faa = (o + v) % 2 ^ n ∧ new .axpy = (o + e.toNat * v) % 2 ^ n ∧
    new .band = o &&& v ∧ new .bor = o ||| v ∧ new .bxor = o ^^^ v ∧
    new .min = (if sg v < sg o then v else o) ∧ new .max = (if sg o < sg v then v else o) ∧
    new .minn = min o v ∧ new .maxn = max o v ∧ new .bst = v ∧ new .cas = (if o = e.toNat % 2 ^ n then v else o) ∧
    bankGives .faa ty old = BitVec.ofNat 64 o ∧ bankGives .cas ty old = BitVec.ofNat 64 o ∧ bankGives .bld ty old = BitVec.ofNat 64 o) ∧
  (∀ (old x : BitVec 32),
    let lo := bankNew .fmin .f (old.setWidth 64) (x.setWidth 64) 0
    let hi := bankNew .fmax .f (old.setWidth 64) (x.setWidth 64) 0
    let o64 : W64 := old.setWidth 64
    let x64 : W64 := x.setWidth 64
    ((val32 old = .nan ∨ val32 x = .nan) → lo = 0x7FC00000 ∧ hi = 0x7FC00000) ∧
    (∀ g, val32 old = .inf g → val32 x ≠ .nan → lo = (if g then o64 else x64) ∧ hi = (if g then x64 else o64)) ∧
    (∀ g, val32 x = .inf g → val32 old ≠ .nan → lo = (if g then x64 else o64) ∧ hi = (if g then o64 else x64)) ∧
    (∀ sa na da sb nb db, val32 old = .fin sa na da → val32 x = .fin sb nb db →
      let a : Int := (if sa then -(na : Int) else na) * db
      let c : Int := (if sb then -(nb : Int) else nb) * da
      lo = (if c < a ∨ (a = c ∧ sb = true ∧ sa = false) then x64 else o64) ∧
      hi = (if a < c ∨ (a = c ∧ sa = true ∧ sb = false) then x64 else o64))) ∧
  (∀ (old x e : W64), bankNew .maxi .d old x e =
      if totalGreater (val32 (x.setWidth 32)) (x.toNat / 2 ^ 32) (val32 (old.setWidth 32)) (old.toNat / 2 ^ 32) then x else old) ∧
  (∀ (a c : Ex) (g h : Bool) (i j na da nb db : Nat), 0 < da → 0 < db →
    let va : Int := (if g then -(na : Int) else na) * db
    let vb : Int := (if h then -(nb : Int) else nb) * da
    totalGreater .nan i .nan j = decide (i < j) ∧ (a ≠ .nan → totalGreater a i .nan j = true ∧ totalGreater .nan i a j = false) ∧
    totalGreater (.inf g) i (.inf h) j = (if g = h then decide (i < j) else !g) ∧
    totalGreater (.inf g) i (.fin h nb db) j = !g ∧ totalGreater (.fin g na da) i (.inf h) j = h ∧
    totalGreater (.fin g na da) i (.fin h nb db) j = decide (vb < va ∨ (va = vb ∧ i < j))) ∧
  (∀ (old x e : W64),
    let n := old.toNat % 2 ^ 32 + x.toNat % 2 ^ 32
    let new := bankNew .hist .d old x e
    new.toNat % 2 ^ 32 = min n 0xFFFFFFFF ∧ new.getLsbD 32 = (old.getLsbD 32 || decide (0xFFFFFFFF ≤ n)) ∧
    new.toNat / 2 ^ 33 = old.toNat / 2 ^ 33) ∧
  (∀ l : List W64, let sum := (l.map (fun v => v.toNat % 2 ^ 32)).sum
    prefixOf l = if (∃ v ∈ l, v.getLsbD 32 = true) ∨ 0xFFFFFFFF ≤ sum then 0x1FFFFFFFF else BitVec.ofNat 64 sum) ∧
  (∀ (F q : Int) (st : BitVec 4) (x : Ex) (g : Bool), cellAdd F st .nan = (F, st ||| 1) ∧
    cellAdd F st (.inf g) = (F, st ||| if g then 4 else 2) ∧
    (x.is q (2 ^ 149) → ∃ t : Int, cellAdd F st x = (t, if t = F + q then st else st ||| 8) ∧ -(2 ^ 319) ≤ t ∧ t < 2 ^ 319 ∧
      (t - (F + q)) % 2 ^ 320 = 0)) ∧
  (∀ (F : Int) (st : BitVec 4),
    let nan := st.getLsbD 0 || st.getLsbD 3 || (st.getLsbD 1 && st.getLsbD 2)
    (nan = true → cellRead F st = (.nan, fNV)) ∧
    (nan = false → st.getLsbD 1 = true → cellRead F st = (.inf false, 0)) ∧
    (nan = false → st.getLsbD 2 = true → cellRead F st = (.inf true, 0)) ∧
    (st = 0 → ∃ z, cellRead F st = (z, 0) ∧ z.is F (2 ^ 149) ∧ (F = 0 → z.neg = false)))

/-- Bank operations of every form complete when their banks have performed all elements, word by word (R25, R173, R280, R292,
R294, R296, R297, R299, R300, R301, R305, R340). For each bank operation, stream forms and BPFX included: from every state in
which it begins, passes the checks at its engine, and all its elements are read, translated, sent and performed with none
failing (banked), exec answers a next state: of its completion, in which the segments are left, what was returned stands in the
result scalar or over the stream's elements, a class-O stream under record has logged what it returned, one entry per element in
position order, from the count of events at its Send (log entry 104), and the flag word is written; or, while a granule it
returns to is still full or its flag word waits for older commands, the operation has left its queue and is in flight. When the
FIFOs of its banks were empty, no log is in force and no word holds a BUSY count, every byte of memory outside the words and the
BUSY counts is as before, and a word that no other element touches holds the operation table's new value
(BankOperationsOnOneWord gives the table by its operands) and returned its old one. Element j of a stream works, with the
operand its element gives, on the word at s[a] + size × j; BHIST on the bin its element names, 0xFFFFFFFF naming none. -/
def Obligations.BankOperationsOnStreams : Prop :=
  (∀ (s : State) (i : Instr) (f : BForm) (b : Begun) (x : CSt) (l : List (BEl × Nat)) (s2 : State) (rets : Map W64) (segs : List Nat),
    s.begins i = some b → bankForm i = some f → bankStart f b.en = none → b.s.lagBanks = false →
    b.placed f = some (x, l) → b.banked f = some (s2, rets, [], segs) →
    let h := HD.of (b.en.h 0)
    let s3 := match bankKind f.op f.clr with
      | some kind => if f.stream = true ∧ (s2.part (s2.partNo b.c)).logMode = 1
        then rets.zipIdx.foldl (fun s e => s.logAt b.c kind ((x.s.core b.c).events + e.2) e.1.2) s2 else s2
      | none => s2
    let u := finishHead b.c b.e b.en (finAt b.t ((((⟨s3, { segs := segs }⟩ : CSt).leave b.c).s.upCore b.c
      (bankReturn f b.t h rets)).ownFlag b.c b.t b.en))
    exec i s = .next (if bankHeld f (s2.core b.c) h rets = false ∧ b.first s2 = true then u
      else s2.upCore b.c (fun k => k.flyHead b.t)) ∧
    ((∀ q ∈ l, mget [] b.s.fifos (bankOf q.2) = []) → (b.s.part (b.s.partNo b.c)).logMode = 0 →
      let n := bankBytes f.op f.ty
      (∀ q ∈ l, ∀ j, j < n → (b.s.env b.c).busyByte (q.2 + j) = false) →
      (∀ a, (b.s.env b.c).busyByte a = false → (bankWrites f.op f.clr = false ∨ ∀ q ∈ l, a < q.2 ∨ q.2 + n ≤ a) →
        rd u.mem a = rd b.s.mem a ∧ rd s2.mem a = rd b.s.mem a) ∧
      (∀ l1 q l2, l = l1 ++ q :: l2 → (∀ r ∈ l1 ++ l2, r.2 + n ≤ q.2 ∨ q.2 + n ≤ r.2) → f.op.cell = false →
        (bankWrites f.op f.clr = true →
          rdN s2.mem q.2 n = toLE n (bankNew f.op f.ty (b.s.bankWord q.2 n) q.1.2.2 (b.en.s 2)).toNat ∧ rdN u.mem q.2 n = rdN s2.mem q.2 n) ∧
        mfind rets q.1.1 = some (byTy f.ty (b.s.bankWord q.2 n))))) ∧
  (∀ (op : BOp) (ty : BTy) (sh : Nat) (h : HD) (a x : W64) (vals : List (Nat × Nat)),
    let e (j : Nat) : Nat := (nth (0, 0) vals j).1
    (∀ el ∈ streamEls op ty sh h a x vals, el.1 < h.total - h.pos ∧
      el.2.2 = (if op = .maxi then BitVec.ofNat 64 (e el.1 % 2 ^ 32 + x.toNat % 2 ^ 32 * 2 ^ 32)
        else if op = .hist then BitVec.ofNat 64 (x.toNat % 2 ^ 32)
        else if op = .xadd then (rne32 (decElem h.fmt (e el.1))).1.setWidth 64
        else if h.fmt = 6 ∧ ty = .d then BitVec.ofInt 64 (sext 32 (e el.1)) else BitVec.ofNat 64 (e el.1 % 2 ^ 32)) ∧
      (op ≠ .hist → el.2.1 = a + BitVec.ofNat 64 (bankSize op ty * el.1)) ∧
      (op = .hist → e el.1 ≠ 0xFFFFFFFF ∧ el.2.1 = a + BitVec.ofNat 64 (8 * 2 ^ sh * e el.1))) ∧
    (∀ j, j < h.total - h.pos → (op = .hist → e j ≠ 0xFFFFFFFF) → ∃ el ∈ streamEls op ty sh h a x vals, el.1 = j))

/-- Slot boundaries, energy, temperature, gating, throttle and sag events happen under their conditions and change only their
own state (R336, R337, R367, R369, R373, R377, R380, R381, R384, R385, R386, R388). SLOT_BOUNDARY brings all dies to the die's
next multiple of 64 cycles (log entry 14) and applies the slot-table writes and, for each partition with a cluster on a die that
reaches a boundary or with none (log entry 46), the DSP.CTL, LQ.PRI and PWR.CFG writes that wait, the last write winning; its
clusters' throttles that are due turn on, wakes that are due end, and they take the pulse counts of the period that begins.
ENR_LO_READ gives the register the low 32 bits of the energy counter and latches the high ones; ENERGY_UPDATE adds modulo 2^64.
THERMAL_READ gives each group its reading and step: step k from 75 + 10k °C on, left only 3 °C below, and an interrupt where
step 3 is entered or left. CLUSTER_GATE gates a cluster idle for 4,096 cycles, CLUSTER_WAKE ends a wake after 4,200;
UNDECL_THROTTLE_END and SAG_HOLD_END end a throttle or a hold whose time has come; DECL_LAPSE ends a declaration not acquired
1,024 granules after its start. SAG_EVENT counts, holds the die and raises its interrupt, and stops each busy core of its
fixed-latency partitions, in partition and core order. Without the condition nothing changes. -/
def Obligations.ClocksPowerAndThermalEvents : Prop :=
  (∀ (s : State) (die : Nat), die < 4 → ∃ u, exec (.slotBoundary die) s = .next u ∧
    (s.die die).cyc < (u.die die).cyc ∧ (u.die die).cyc ≤ (s.die die).cyc + 64 ∧ (u.die die).cyc % 64 = 0 ∧ (u.die die).later = [] ∧
    (∀ d, d < 4 → (u.die d).cyc + (s.die die).cyc = (s.die d).cyc + (u.die die).cyc) ∧
    (∀ l w, (s.die die).later = l ++ [w] → mget 0 (u.die die).slt w.1 = w.2) ∧
    (∀ j, (∀ w ∈ (s.die die).later, w.1 ≠ j) → mget 0 (u.die die).slt j = mget 0 (s.die die).slt j) ∧
    u.cores = s.cores ∧ u.mem = s.mem ∧
    (∀ k, k / 16 = die → u.clu k = { ((s.clu k).throttled (u.die die).cyc).woken (u.die die).cyc with pulse := (u.clu k).pulse }) ∧
    (∀ p, ∀ k ∈ (u.part p).clusters, k / 16 = die → (u.clu k).pulse = u.pulses k) ∧
    (s.links.later = [] → ∀ p, let x := s.part p
      let now := x.later.filter (fun w => w.1 ≠ 0x252)
      if x.clusters.isEmpty || x.clusters.any (fun k => decide (k / 16 < 4 ∧ (s.die (k / 16)).cyc / 64 < (u.die (k / 16)).cyc / 64)) then
        (∀ l w, now = l ++ [w] → (u.part p).getSr w.1 = w.2) ∧
        (∀ n, (∀ w ∈ now, w.1 ≠ n) → (u.part p).getSr n = x.getSr n) ∧ (u.part p).later = x.later.filter (fun w => w.1 = 0x252)
      else u.part p = x)) ∧
  (∀ (s : State) (c : Nat) (d : Sreg), ∃ k, exec (.enrLoRead c d) s = .next (s.setCore c k) ∧
    k.enrHi = BitVec.ofNat 32 (s.ik.energy / 2 ^ 32) ∧ (d ≠ 0 → k.getS d = BitVec.ofNat 64 (s.ik.energy % 2 ^ 32)) ∧
    (∀ r, r ≠ d → k.getS r = (s.core c).getS r) ∧ k = { s.core c with enrHi := k.enrHi, r := { (s.core c).r with s := k.r.s } }) ∧
  (∀ (s : State) (uj : Nat), exec (.energyUpdate uj) s = .next { s with ik := { s.ik with energy := (s.ik.energy + uj) % 2 ^ 64 } }) ∧
  (∀ (s : State) (rs : List Nat), ∃ u, exec (.thermalRead rs) s = .next u ∧
    u = { s with ik := { s.ik with temps := u.ik.temps, steps := u.ik.steps, irqs := u.ik.irqs } } ∧
    (∀ g, g < 32 → mget 0 u.ik.temps g = nth 0 rs g ∧ ∀ k, 1 ≤ k → k ≤ 3 →
      (k ≤ mget 0 u.ik.steps g ↔ 75 + 10 * k ≤ nth 0 rs g ∨ (k ≤ mget 0 s.ik.steps g ∧ 75 + 10 * k ≤ nth 0 rs g + 2))) ∧
    u.ik.irqs = s.ik.irqs ++ List.replicate ((List.range 32).filter (fun g =>
      mget 0 s.ik.steps g ≠ mget 0 u.ik.steps g ∧ (mget 0 s.ik.steps g = 3 ∨ mget 0 u.ik.steps g = 3))).length 3) ∧
  (∀ (s : State) (k : Nat),
    let u := s.clu k
    let now := (s.die (k / 16)).cyc
    let idle : Prop := ∀ j, j < 4 → (s.core (4 * k + j)).run = none ∧ s.outs (4 * k + j) = []
    let gates : Prop := idle ∧ u.gated = false ∧ u.idleFrom + 4096 ≤ now
    let wakes : Prop := u.gated = true ∧ u.waking = true ∧ u.idleFrom + 4200 ≤ now
    let ends : Prop := u.und = true ∧ u.undTo ≤ now
    (gates → exec (.clusterGate k) s = .next (s.setClu k { u with gated := true, waking := false })) ∧
    (¬gates → exec (.clusterGate k) s = .next s) ∧
    (wakes → exec (.clusterWake k) s = .next (s.setClu k { u with gated := false, waking := false, idleFrom := now })) ∧
    (¬wakes → exec (.clusterWake k) s = .next s) ∧
    (ends → exec (.undeclThrottleEnd k) s = .next (s.setClu k { u with und := false, undTo := 0 })) ∧
    (¬ends → exec (.undeclThrottleEnd k) s = .next (s.setClu k u))) ∧
  (∀ (s : State) (die : Nat),
    let d := s.die die
    let stops := (s.flOn die).flatMap s.busyCores
    let s1 := (s.setDie die { d with sagn := d.sagn + 1, sag := true, sagAt := d.cyc }).irq 4
    exec (.sagEvent die) s = .next (stops.foldl (fun u c => stopCore c ⟨.pwrBreach, .fe, 0, 0⟩ u) s1) ∧
    ((d.sag = true ∧ d.sagAt + 256 ≤ d.cyc) → exec (.sagHoldEnd die) s = .next (s.setDie die { d with sag := false })) ∧
    (¬(d.sag = true ∧ d.sagAt + 256 ≤ d.cyc) → exec (.sagHoldEnd die) s = .next s)) ∧
  (∀ (s : State) (c n : Nat),
    let ds := (s.core c).decls
    let due (d : Decl) : Prop := d.out = true ∧ d.serial = n ∧ d.active = false ∧ ∃ g, s.startOf c d = some g ∧
      g + 1024 ≤ (s.die (c / 64)).cyc / 64
    (∀ l1 d l2, ds = l1 ++ d :: l2 → due d → (∀ x ∈ l1, ¬due x) →
      exec (.declLapse c n) s = .next (s.setCore c { s.core c with decls := l1 ++ { d with out := false, active := false } :: l2 })) ∧
    ((∀ d ∈ ds, ¬due d) → exec (.declLapse c n) s = .next s)) ∧
  (∀ (u : Cluster) (t : Nat),
    let on : Prop := ∃ x ∈ u.undFrom, x.1 ≤ t
    let wakes : Prop := u.gated = true ∧ u.waking = true ∧ u.idleFrom + 4200 ≤ t
    (on → (u.throttled t).und = true ∧ (∀ x ∈ u.undFrom, x.1 ≤ t → x.2 ≤ (u.throttled t).undTo) ∧
      (u.throttled t).undFrom = u.undFrom.filter (fun x => t < x.1)) ∧ (¬on → u.throttled t = u) ∧
    (wakes → u.woken t = { u with gated := false, waking := false, idleFrom := t }) ∧ (¬wakes → u.woken t = u))

/-- Waiting declarations are admitted and activated, grants take the first granule with room, and collective records are kept
and sent on (R370, R371, R372, R373, R374, R383, R410, R424, R425). DECL_ADMIT of a core that sleeps at PWR.DECL: when the
cluster's sum admits the intensity, the declaration is made with its grant and the FE goes on behind the instruction with the
ticket in its register; a collective one counts its ordinal in the group and sends its grant record. Otherwise nothing changes.
The grant is the first granule, from the next one plus the onset (66 at least), in which the die's sum stays at most 16.
DECL_ACTIVATE of a core that sleeps at PWR.ACQ: when the start has come the declaration is active and the FE goes on; when the
declaration is gone the FE goes on. COLL_OFFER, at most 48 granules before the agreed start, fixes the member's offer and sends
it; COLL_MISSING, 48 granules after the member's own grant without the others', or at the start without their offers, lets it go
on alone with its own offer as its count, and counts the lack once. A record that is sent turns to its route's first port, and
waits there for a slot; a port that is retired or uncabled and turn 3 drop it. COLL_RECORD of a record with turns left turns it
to its next port; at the end of its turns its member keeps it in its valid group and sends it on unless the next member is its
origin; otherwise it is dropped. -/
def Obligations.DeclarationAndCollectiveEvents : Prop :=
  let sent (s : State) (x : CollHop) (port : Option Nat) (u : State) : Prop := match port with
    | none => u = s
    | some q => u = if Config.deadPort q then s else { s with links := { s.links with recs := s.links.recs ++ [(q, { x with hop := x.hop + 1 })] } }
  let issued (s : State) (gr : Group) (r : CollRec) (u : State) : Prop := sent s ⟨gr.route, 0, routeOrg gr.route, r⟩ (firstPort gr.route) u
  (∀ (s : State) (c : Nat) (tok : Tok) (d : Sreg) (onset int len : Nat), (s.core c).sleep = .decl tok d onset int len →
    (15 < s.cluSum (c / 4) + int → exec (.declAdmit c) s = .next s) ∧
    (s.cluSum (c / 4) + int ≤ 15 → let g := s.grantAt c (s.die (c / 64)).cyc onset int
      let p := s.partNo c
      let gr := (s.part p).group (s.collOf c)
      ∃ u, exec (.declAdmit c) s = .next u ∧
      (u.core c).decls = s.declsNow c ++ [⟨s.serial c, int, len, g, false, true, s.collOf c, gr.made + 1, 0, false, 0, 0⟩] ∧
      (u.core c).sleep = .awake ∧ (u.core c).r.pc = (s.core c).r.pc + 8 ∧
      (d ≠ 0 → (u.core c).getS d = BitVec.ofNat 64 (256 * c + s.serial c)) ∧
      mget 0 (u.die (c / 64)).sums g = mget 0 (s.die (c / 64)).sums g + int ∧
      (∀ e, e ≠ c → u.core e = s.core e) ∧ u.mem = s.mem ∧ (s.collOf c = 0 → u.links = s.links) ∧
      (s.collOf c ≠ 0 → (u.part p).group (s.collOf c) = { gr with made := gr.made + 1 } ∧
        ∃ v, issued s gr ⟨false, cgRank gr.cfg, s.collOf c, (gr.made + 1) % 2 ^ 32, g⟩ v ∧ u.links = v.links))) ∧
  (∀ (s : State) (c t onset int : Nat), int ≤ 16 →
    let sums := (s.die (c / 64)).sums
    let lo := (t + 63) / 64 + max onset 66
    let g := s.grantAt c t onset int
    lo ≤ g ∧ mget 0 sums g + int ≤ 16 ∧ ∀ x, lo ≤ x → x < g → 16 < mget 0 sums x + int) ∧
  (∀ (s : State) (c : Nat) (tok : Tok) (n : Nat), (s.core c).sleep = .acq tok n →
    let found := s.outIx c n
    (found = none → exec (.declActivate c) s = .next (s.setCore c ((s.core c).wakeUp tok 4))) ∧
    (∀ j, found = some j → let d := (s.core c).decl j
      ((∃ g, s.startOf c d = some g ∧ g ≤ (s.die (c / 64)).cyc / 64) →
        exec (.declActivate c) s = .next (s.setCore c (((s.core c).activate j).wakeUp tok 4))) ∧
      ((∀ g, s.startOf c d = some g → (s.die (c / 64)).cyc / 64 < g) → exec (.declActivate c) s = .next s))) ∧
  (∀ (s : State) (c : Nat), (s.core c).sleep = .awake → exec (.declAdmit c) s = .next s ∧ exec (.declActivate c) s = .next s) ∧
  (∀ (s : State) (c n : Nat), s.outIx c n = none → exec (.collOffer c n) s = .next s ∧ exec (.collMissing c n) s = .next s) ∧
  (∀ (s : State) (c n j : Nat), s.outIx c n = some j →
    let d := (s.core c).decl j
    let gr := (s.part (s.partNo c)).group d.coll
    let now := (s.die (c / 64)).cyc / 64
    let val := s.offerOf c
    let noted (f : Decl → Decl) : State := s.setCore c ((s.core c).upDecl j f)
    (∀ g, s.startOf c d = some g → d.coll ≠ 0 → d.offer = 0 → g ≤ now + 48 → ∃ u, exec (.collOffer c n) s = .next u ∧
      issued (noted (fun d => { d with offer := val })) gr ⟨true, cgRank gr.cfg, d.coll, d.collK % 2 ^ 32, val⟩ u) ∧
    ((d.coll = 0 ∨ d.offer ≠ 0 ∨ (∀ g, s.startOf c d = some g → now + 48 < g)) → exec (.collOffer c n) s = .next s) ∧
    let own := if d.offer = 0 then val else d.offer
    let lacks : Prop := gr.others false d.collK = none ∧ d.start + 48 ≤ now ∨
      (∃ g, s.startOf c d = some g ∧ g ≤ now) ∧ d.offer ≠ 0 ∧ gr.others true d.collK = none
    ((d.coll ≠ 0 ∧ d.alone = false ∧ lacks) → exec (.collMissing c n) s =
      .next ((noted (fun d => { d with alone := true, offer := own, count := own })).linkStat (s.partNo c) 16 1)) ∧
    (¬(d.coll ≠ 0 ∧ d.alone = false ∧ lacks) → exec (.collMissing c n) s = .next s)) ∧
  (∀ (s : State) (x : CollHop) (port : Nat),
    let r := x.r
    let p := s.partNo (routeCore x.route)
    let gr := (s.part p).group r.grp
    let keep := s.setPart p { s.part p with groups := mset (s.part p).groups r.grp { gr with recs := gr.recs ++ [r] } }
    let gone : Prop := r.grp = 0 ∨ p = noPart ∨ cgValid gr.cfg = false
    let last : Prop := (cgRank gr.cfg + 1) % (cgMemb gr.cfg + 1) = r.rank
    (x.hop < routeHops x.route → ∃ u, exec (.collRecord x port) s = .next u ∧
      sent s { x with entry := port } (exitPort x.route (x.hop + 1) port) u) ∧
    (routeHops x.route ≤ x.hop → (gone → exec (.collRecord x port) s = .next s) ∧
      (¬gone → last → exec (.collRecord x port) s = .next keep) ∧
      (¬gone → ¬last → ∃ u, exec (.collRecord x port) s = .next u ∧ issued keep gr r u)))

/-- DISPATCH starts the next unit of the chosen queue on a free core, COUNT_READ enumerates a launch, UNIT_END frees a drained
core (R16, R18, R326, R327, R328, R329, R330, R331, R332, R334). DISPATCH of an open partition with a free core and a queue
ready: the queue is one of the highest priority among those ready, the unit the lowest re-queued one that is ready, else the
next new one, and the core is free, in service and not gated. When the launch is not in the scope of an abort line and its
argument block can be read, exec answers the next state in which the core runs that unit from its CODE address, with cleared
scalars, null handles and empty queues, its unit number, indices and identifiers in its special registers and the argument block
at ADST, while memory and every other core are as before; a gated cluster is woken instead; a unit in scope is counted as
cancelled. Without a queue ready, a free core or an open phase nothing changes. COUNT_READ gives the head launch the tiles of
its cells, and drops it unread in the scope of an abort line. UNIT_END of a drained core whose engines are idle and that does
not stop ends the unit: the core is free (halted after HALT) and the pending set has joined the ended ones. -/
def Obligations.DispatcherStartsUnits : Prop :=
  (∀ (s : State) (p q : Nat) (pt : Part) (l : Launch),
    let s1 := s.setPart p (s.part p).fillQueues
    let t := l.takeUnit
    let u := t.1.1
    (s1.part p).closing = false → s1.freeCores p ≠ [] → (s1.part p).selectQueue = some (q, pt) → pt.headLaunch q = some l →
    (pt.inScope l u = false →
      (∀ c bs, s1.place p l = .core c →
        s1.argBytes p l (l.rc.alen / 64) 0 = .ok bs →
        ∃ v, exec (.dispatch p) s = .next v ∧
          let k := v.core c
          k.mode = .running ∧ k.sleep = .awake ∧ k.run = some ⟨l.id, l.born, l.ord, u, t.1.2, l.rc.pers, l.rc.priv, 0, 0, false, false, none⟩ ∧
          k.r.pc = l.rc.w 0 ∧ (∀ r, k.getS r = 0) ∧ (∀ h, k.getH h = nullH) ∧ (∀ e, k.queue e = []) ∧
          k.getSr 0x040 = BitVec.ofNat 64 u ∧ (∀ d, d < 5 → k.getSr (0x041 + d) = BitVec.ofNat 64 (nth 0 (l.ix u) d)) ∧
          k.getSr 0x046 = l.id ∧ k.getSr 0x047 = BitVec.ofNat 64 pt.phase ∧ k.getSr 0x049 = pt.job ∧
          rdN k.pad.mem l.rc.adst bs.length = bs ∧
          (∀ a, (a < l.rc.adst ∨ l.rc.adst + bs.length ≤ a) → rd k.pad.mem a = rd (s.core c).pad.mem a) ∧
          (∀ e, e ≠ c → v.core e = s.core e) ∧ v.mem = s.mem) ∧
      (∀ k, s1.place p l = .wake k → (s1.clu k).waking = false →
        exec (.dispatch p) s = .next (s1.setClu k { s1.clu k with waking := true, idleFrom := (s.die (k / 16)).cyc }))) ∧
    (pt.inScope l u = true → exec (.dispatch p) s = .next ((((s1.setPart p (pt.upLaunch l.ref (fun _ =>
      { t.2 with running := l.running }))).ctr p l (.cancel 1)).launchEnd p l.ref)))) ∧
  (∀ (s : State) (p : Nat), let s1 := s.setPart p (s.part p).fillQueues
    ((s1.part p).closing = true ∨ s1.freeCores p = [] ∨ (s1.part p).selectQueue = none) → exec (.dispatch p) s = .next s) ∧
  (∀ (pt pt' : Part) (q : Nat), pt.selectQueue = some (q, pt') →
    q < 16 ∧ pt.ready q = true ∧ ∀ q', q' < 16 → pt.ready q' = true → pt.pri q' ≤ pt.pri q) ∧
  (∀ l : Launch, let u := l.takeUnit.1.1
    ((∀ x ∈ l.requeue, x.ready = false) → l.takeUnit.1 = (l.next, 0)) ∧
    ((∃ x ∈ l.requeue, x.ready = true) → (∃ x ∈ l.requeue, x.ready = true ∧ x.unit = u) ∧ ∀ x ∈ l.requeue, x.ready = true → u ≤ x.unit)) ∧
  (∀ (s : State) (p c : Nat) (l : Launch), s.place p l = .core c → c ∈ (s.part p).coreList ∧ (s.core c).run = none ∧
    ((s.core c).mode = .free ∨ (s.core c).mode = .halted) ∧ s.ik.retired.contains (c / 4) = false ∧ (s.clu (c / 4)).gated = false) ∧
  (∀ (s : State) (p q : Nat), let s1 := s.setPart p (s.part p).fillQueues
    (∀ l ts, (s1.part p).headLaunch q = some l → l.total = none → (s1.part p).closing = false → (s1.part p).lineOn l = false → s1.entryTiles p l l.rc.nent 0 = .ok ts →
      ts.foldl (· + ·) 0 * l.rc.perTile ≤ 2 ^ 24 →
      exec (.countRead p q) s = .next (((s1.corrCells p l).upPart p (fun x => x.upLaunch l.ref (fun y => { y with tiles := some ts }))).launchEnd p l.ref)) ∧
    (∀ l, (s1.part p).headLaunch q = some l → l.total = none → (s1.part p).closing = false → (s1.part p).lineOn l = true →
      exec (.countRead p q) s = .next (s1.dropUnstarted p l.ref)) ∧
    (((s1.part p).headLaunch q = none ∨ (s1.part p).closing = true) → exec (.countRead p q) s = .next s)) ∧
  (∀ (s : State) (c : Nat) (halt : Bool),
    ((s.core c).mode = .drain halt → (s.core c).idle = true → (s.core c).halting = none → ∀ r, (s.core c).run = some r → ∃ u, exec (.unitEnd c) s = .next u ∧
      (u.core c).run = none ∧ (u.core c).mode = (if halt then .halted else .free) ∧ (∀ e, (u.core c).queue e = []) ∧
      (u.part (s.partNo c)).ended = (s.part (s.partNo c)).ended ++ [⟨r.key, (s.core c).pend⟩]) ∧
    ((s.core c).mode = .drain halt → ((s.core c).idle = false ∨ (s.core c).halting ≠ none) → exec (.unitEnd c) s = .next s) ∧
    ((∀ x, (s.core c).mode ≠ .drain x) → exec (.unitEnd c) s = .next s))

/-- PHASE_CLOSING, PHASE_CLOSE, JOB_START and PHASE_ADV complete under their conditions; a Close commits each byte's last writer
by key (R277, R285, R286, R324, R329, R332, R333). PHASE_CLOSING starts the Close exactly when the partition's phase holds no
launch that keeps it open, every unit is a persistent one that has reported, and the phase is not empty or the next has a
launch: the pending sets of application cores and root ports join the ended sets. PHASE_CLOSE of a closing partition that a
replayed log does not make wait answers the next state in which the phase number is one more, the phase is open and no set is
ended; outside record mode each byte of the new snapshot holds the value of the winning set, or its old one (the winning set of
a byte is the one of greatest key among those that hold it; the keys of two units with the same ordinals differ by the phases of
their launches, log entry 108), and without completion counters and writes that wait committed memory is that snapshot and no
line is charged. A partition that is not closing is as before. JOB_START of a partition that holds no unit and no launch, and
whose open phase has nothing to commit or closes at once (the second is log entry 82), opens phase 0 of the job with no launch,
record or abort line, and with no write waiting on the memory as it was; it writes PH.CTL's job field in any case. PHASE_ADV
closes an empty open phase. Without the condition nothing changes. -/
def Obligations.PhasesCloseAndJobsStart : Prop :=
  (∀ (s : State) (p : Nat),
    let pt := s.part p
    let may : Prop := pt.closing = false ∧ (∀ l ∈ pt.launches, l.phase = pt.phase → l.holdsPhase = false) ∧
      (∀ k ∈ s.units p, ∀ r, k.run = some r → r.pers = true ∧ r.reported = true) ∧
      (s.emptyPhase p = false ∨ ∃ l ∈ pt.launches, l.phase = pt.phase + 1 ∧ l.held = none ∧ l.gone = false)
    let starts : State := s.setPart p { pt with
      closing := true
      ended := pt.ended ++ pt.acPend.map (fun x => ⟨(1, x.1, 0, 0), x.2⟩) ++ pt.portPend.map (fun x => ⟨(2, x.1, 0, 0), x.2⟩)
      acPend := []
      portPend := [] }
    (may → exec (.phaseClosing p) s = .next starts) ∧ (¬may → exec (.phaseClosing p) s = .next s) ∧
    ((s.emptyPhase p = true ∧ pt.closing = false) → exec (.phaseAdv p) s = .next starts) ∧
    (¬(s.emptyPhase p = true ∧ pt.closing = false) → exec (.phaseAdv p) s = .next s) ∧
    (pt.closing = false → exec (.phaseClose p) s = .next s) ∧
    (pt.closing = true → (s.logAsk p 0 pt.phase).2 = .wait → exec (.phaseClose p) s = .next (s.logAsk p 0 pt.phase).1) ∧
    (pt.closing = true → (s.logAsk p 0 pt.phase).2 ≠ .wait → ∃ u, exec (.phaseClose p) s = .next u ∧ (u.part p).phase = pt.phase + 1 ∧
      (u.part p).closing = false ∧ (u.part p).ended = [] ∧
      (pt.logMode ≠ 1 → ∀ a, rd (u.part p).snap a = (mfind (resolve pt.ended) a).getD (rd s.mem a)) ∧
      (pt.getSr 0x232 = 0 → pt.getSr 0x233 = 0 → s.ik.heldWr = [] → (u.part p).snap = u.mem ∧ (u.part p).charges = []))) ∧
  (∀ (es : List EndedSet) (e : EndedSet) (a : Nat) (v : Byte), (∀ x ∈ es, (x.bytes.map (·.1)).Nodup) → e ∈ es → mfind e.bytes a = some v →
    (∀ x ∈ es, mfind x.bytes a ≠ none → x = e ∨ keyLt x.key e.key = true) → mfind (resolve es) a = some v) ∧
  (∀ (es : List EndedSet) (a : Nat), (∀ x ∈ es, mfind x.bytes a = none) → mfind (resolve es) a = none) ∧
  (∀ (s : State) (p : Nat) (job : W64),
    let s1 := s.setPart p ((s.part p).setSr 0x235 (job <<< 32))
    let idle : Prop := s.units p = [] ∧ ∀ l ∈ (s.part p).launches, l.ended = true
    (¬idle → exec (.jobStart p job) s = .next s1) ∧
    (idle → (s1.part p).closing = false → s1.mayClose p = false → s1.settlePhase p = s1) ∧
    (idle → ((s1.settlePhase p).part p).closing = true → exec (.jobStart p job) s = .next s1) ∧
    (idle → ((s1.settlePhase p).part p).closing = false → ∃ u, exec (.jobStart p job) s = .next u ∧
      (u.part p).job = BitVec.ofNat 64 (job.toNat % 2 ^ 32) ∧ (u.part p).phase = 0 ∧
      (u.part p).closing = false ∧ (u.part p).launches = [] ∧ (u.part p).recs = [] ∧ (u.part p).abJob = false ∧
      (u.part p).abPhases = [] ∧ (u.part p).abGraphs = [] ∧
      ((s1.settlePhase p).ik.heldWr = [] → (u.part p).snap = u.mem ∧ u.mem = (s1.settlePhase p).mem)))

/-- WAITA wakes with its status; a stop, a release, a failure, a pre-emption and a swap act on the unit they name, or not at all
(R120, R247, R261, R262, R264, R265, R266, R267, R268, R387). WAITA_WAKE of a sleeping WAITA: when its condition has held, in
the scratchpad after any write that has become due since it started, it returns 0, else, outside a replay that forces the
condition (log entry 52), 2 when an abort line is up, 1 when its limit has passed, and otherwise sleeps on. CORE_STOP raises its
cause on a busy core; where nothing has begun in the engines (log entry 42), a stop for a cause, pre-emption, cancellation or
swap takes effect at once, and a reason that ends or aborts the unit is not replaced by another. PK_RELEASE of the record SEQ
makes a held unit ready or resumes a parked one at FF.FE with HA clear (log entry 32); PK_FAIL drops a held unit, counted as
cancelled, or ends a parked one, whose pending set joins the ended ones; both act on a unit that is swapped out where it is
saved (log entry 78); a SEQ without a record does nothing. PREEMPT_ABORT sends a running idempotent unit back to its queue,
ready, with one attempt more. PARTITION_SWAP halts the busy cores of the partition in order, each with its frame recorded and
its lease ended; SWAP_CONTEXT of a quiet partition saves the outgoing tenant's cores and lets the incoming one's take their
place, those it had stopped running again, FF.FE to FF.ST as before the swap; a gated cluster that gets a unit is woken first.
-/
def Obligations.StopsParkedUnitsAndSwaps : Prop :=
  (∀ (s : State) (c : Nat) (tok : Tok) (d : Sreg) (addr : W64) (pad : Bool) (pa : Nat) (v : W64) (cond : Cond) (limit : W64) (start : Nat)
    (hit forced : Bool), (s.core c).sleep = .waita tok d addr pad pa v cond limit start hit forced →
    let met : Prop := hit = true ∨ (if pad then (s.core c).padMet addr.toNat start (s.cycOf c) (fun w => condInt cond w v) = true
      else condInt cond (rd64 s.mem pa) v = true)
    let late : Prop := limit ≠ 0 ∧ start + limit.toNat ≤ s.cycOf c
    let wakes (st : W64) : Prop := ∃ u, exec (.waitaWake c) s = .next u ∧ (u.core c).sleep = .awake ∧
      (u.core c).r.pc = (s.core c).r.pc + 8 ∧ (d ≠ 0 → (u.core c).getS d = st) ∧ (∀ r, r ≠ d → (u.core c).getS r = (s.core c).getS r) ∧
      (∀ e, e ≠ c → u.core e = s.core e) ∧ (limit = 0 → u.mem = s.mem)
    (met → wakes 0) ∧ (¬met → forced = false → s.abrt c ≠ 0 → wakes 2) ∧
    (¬met → forced = false → s.abrt c = 0 → late → wakes 1) ∧
    (¬met → (forced = true ∨ (s.abrt c = 0 ∧ ¬late)) → exec (.waitaWake c) s = .next s)) ∧
  (∀ (k : Core) (a start now : Nat) (ok : W64 → Bool),
    ((∀ d ∈ k.eng.due, ¬(start < d.due ∧ d.due ≤ now)) → k.padMet a start now ok = ok (rd64 (k.padAt start) a)) ∧
    (∀ d, k.eng.due.filter (fun d => start < d.due ∧ d.due ≤ now) = [d] →
      k.padMet a start now ok = (ok (rd64 (k.padAt start) a) || ok (rd64 (overlay (k.padAt start) [d] now) a)))) ∧
  (∀ (s : State) (c : Nat) (x : Stop), ((s.core c).busy = true → exec (.coreStop c x) s = .next (raise c x s)) ∧
    ((s.core c).busy = false → exec (.coreStop c x) s = .next s)) ∧
  (∀ (s : State) (c : Nat) (h : Halting), (s.core c).eng.flight = [] → (∀ e, ((s.core c).queue e).head?.any Entry.begun = false) →
    let h' := match (s.core c).halting with
      | some x => if h.rank < x.rank then x else h
      | none => h
    let s1 := s.upCore c (fun k => { k with halting := some h' })
    let s2 := ((s1.setBack c .ld).setBack c .st).upCore c Core.flightBack
    s.stopFor c h = (match h' with
      | .cause x => s2.takeStop c x
      | .preempt => ((s2.unwait c).upCore c Core.hushed).requeue c true
      | .cancel => ((s2.unwait c).upCore c Core.hushed).endUnit c false false
      | .swap => (((s2.unwait c).endLease c).upClu (c / 4) (fun u => { u with idleFrom := s1.cycOf c })).upCore c Core.swappedOut)) ∧
  (∀ (s : State) (p seq : Nat), (s.part p).recNo seq = none → exec (.pkRelease p seq) s = .next s ∧ exec (.pkFail p seq) s = .next s) ∧
  (∀ (s : State) (p seq : Nat) (r : FaultRec), (s.part p).recNo seq = some r →
    let pt := (s.part p).dropRec seq
    let s1 := s.setPart p pt
    let k := s.core r.core
    (r.parked = false → exec (.pkRelease p seq) s = .next (s.setPart p (pt.upLaunch (r.launch, r.born) (fun l =>
      { l with requeue := l.requeue.map (fun q => if q.unit = r.unit then { q with ready := true } else q) })))) ∧
    (r.parked = true → r.isUnit k = true → ∃ u, exec (.pkRelease p seq) s = .next u ∧ (u.core r.core).mode = .running ∧
      (u.core r.core).r.pc = k.getSr 0x003 ∧ (u.core r.core).r.s = k.r.s ∧ (u.core r.core).run = k.run ∧
      (u.core r.core).ha = false ∧ u.mem = s.mem ∧ (u.part p).recs = pt.recs) ∧
    (∀ l, r.parked = false → (s.part p).launch (r.launch, r.born) = some l → (∃ q ∈ l.requeue, q.unit = r.unit ∧ q.ready = false) →
      exec (.pkFail p seq) s = .next (((s.setPart p (pt.upLaunch (r.launch, r.born) (fun l =>
        { l with requeue := l.requeue.filter (fun q => q.unit ≠ r.unit) }))).ctr p l (.cancel 1)).launchEnd p (r.launch, r.born))) ∧
    (∀ ru, r.parked = true → r.isUnit k = true → k.run = some ru → exec (.pkFail p seq) s = .next ((s1.upPart (s1.partNo r.core) (fun q =>
      { q with ended := q.ended ++ [⟨ru.key, k.pend⟩] })).endUnit r.core false false))) ∧
  (∀ (s : State) (c : Nat),
    (((s.core c).busy = true ∧ (s.core c).isPers = false) → exec (.preemptAbort c) s = .next (s.stopFor c .preempt)) ∧
    (¬((s.core c).busy = true ∧ (s.core c).isPers = false) → exec (.preemptAbort c) s = .next s)) ∧
  (∀ (s : State) (c : Nat) (ready : Bool) (r : Running), (s.core c).run = some r →
    let u := s.requeue c ready
    (u.core c).run = none ∧ (u.core c).mode = .free ∧ (u.core c).pend = [] ∧ (∀ e, (u.core c).queue e = []) ∧
    let pt := s.part (s.partNo c)
    let who := (r.launch, r.born, r.unit)
    (∀ l, (s.core c).undecl = 0 → pt.launch (r.launch, r.born) = some l → (ready = true ∨ (pt.inScope l r.unit = false ∧ r.aborted = false)) →
      (u.part (s.partNo c)).launches = ((pt.launches.filter (fun l => l.held ≠ some who || l.ended)).map
        (fun l => if l.held = some who then { l with held := none, gone := true } else l)).map (fun l => if l.id = r.launch ∧ l.born = r.born then
          { l with running := l.running - 1, requeue := l.requeue ++ [⟨r.unit, r.attempt + 1, ready⟩],
                   dropped := if r.aborted = true ∧ r.unit ∉ l.dropped then l.dropped ++ [r.unit] else l.dropped } else l))) ∧
  (∀ (s : State) (p : Nat), exec (.partitionSwap p) s = .next ((s.part p).coreList.foldl (fun s c => s.haltCore c) s)) ∧
  (∀ (s : State) (c : Nat), ((s.core c).busy = false → s.haltCore c = s) ∧
    ((s.core c).busy = true → (s.core c).halting = none → (s.core c).eng.ld = [] → (s.core c).eng.ex = [] → (s.core c).eng.st = [] → (s.core c).eng.flight = [] →
      ∃ u, s.haltCore c = u ∧ u.mem = s.mem ∧ u.parts = s.parts ∧ (∀ d, d ≠ c → u.core d = s.core d) ∧
      (u.clu (c / 4)).holder = (if (s.clu (c / 4)).holder = some (c % 4) then none else (s.clu (c / 4)).holder) ∧
      c % 4 ∉ (u.clu (c / 4)).waiting ∧ (u.clu (c / 4)).idleFrom = s.cycOf c ∧
      (u.core c).mode = .swapped ∧ (u.core c).sleep = .awake ∧ (u.core c).halting = none ∧ (u.core c).run = (s.core c).run ∧
      (u.core c).pend = (s.core c).pend ∧ (u.core c).r.pc = (s.core c).r.pc ∧
      (∀ n, 3 ≤ n → n ≤ 6 → (u.core c).getSr n = (s.core c).r.pc &&& ~~~3#64) ∧
      (u.core c).ff = [3, 4, 5, 6].map (s.core c).getSr)) ∧
  (∀ (s : State) (p tenant : Nat),
    let pt := s.part p
    let cs := pt.coreList
    let comes (c : Nat) : Core := if tenant = pt.tenant then s.core c else pt.tenantCore tenant c
    ((∃ c ∈ cs, (s.core c).busy = true) → exec (.swapContext p tenant) s = .next s) ∧
    ((∀ c ∈ cs, (s.core c).busy = false) → ∃ u, exec (.swapContext p tenant) s = .next u ∧ (u.part p).tenant = tenant ∧
      (tenant ≠ pt.tenant → mfind (u.part p).saved pt.tenant = some (cs.map (fun c => (c, { s.core c with decls := s.declsNow c })))) ∧
      (∀ c ∈ cs, (u.core c).pad = (comes c).pad ∧ (u.core c).run = (comes c).run ∧
        (u.core c).mode = (if (comes c).mode = .swapped then .running else (comes c).mode) ∧
        ((comes c).mode ≠ .swapped → (u.core c).r = (comes c).r) ∧
        ((comes c).mode = .swapped → (u.core c).r.s = (comes c).r.s ∧ (u.core c).r.h = (comes c).r.h ∧
          (u.core c).r.pc = (comes c).getSr 3 ∧
          ((comes c).ff.length ≤ 4 → ∀ n, (n < 3 ∨ 6 < n) → (u.core c).getSr n = (comes c).getSr n) ∧
          ∀ v0 v1 v2 v3, (comes c).ff = [v0, v1, v2, v3] → [3, 4, 5, 6].map (u.core c).getSr = [v0, v1, v2, v3]) ∧
        ((comes c).run ≠ none → (s.clu (c / 4)).gated = true → (u.clu (c / 4)).waking = true) ∧
        ((comes c).mode = .swapped → (comes c).run ≠ none → (s.clu (c / 4)).gated = true → (s.clu (c / 4)).waking = false →
          (s.die (c / 64)).cyc + 4200 ≤ (u.core c).eng.cyc)) ∧
      (∀ c, c ∉ cs → u.core c = s.core c) ∧ u.mem = s.mem))

/-- Latches drain, leases are granted, markers drop translations, failed bits are kept, corrected or reported, and resets clear
what they name (R16, R17, R26, R46, R131, R195, R307, R310, R389, R390, R420, R421). SIGNAL_LATCH_DRAIN pushes a held signal
when its queue has room, after its completion and the take that made room; its stream goes on no sooner. LEASE_GRANT, once the
last grant has ended, gives a cluster's array to the next waiting core after the last holder with its budget. TABLE_WALK only
fills the core's translations (log entry 67). TLBI_MARK of a core that does not stop takes the marker at its engine's head; the
second one drops the translations in scope and both markers leave. STORED_BIT_FAILURE keeps a word correctable or makes it
uncorrectable where its array is kept, token and command queues included; a read of memory corrects in place and counts the
correctable words it meets, in the die that holds them; SCRUB corrects and counts a correctable word of memory or of the glaze
and reports an uncorrectable one with its array and address. PARTITION_CREATION gives a cluster whose cores run nothing to the
partition, cleared but for DBG (log entry 19), and takes it from every other; CORE_RESET frees a halted core with its
scratchpad's bytes (log entry 58). PACKAGE_RESET empties memory (log entry 1), keeps the fuses (log entry 55) and leaves the
package up, with all cores halted, when image A or else B is accepted, and otherwise in recovery mode. -/
def Obligations.LatchesLeasesFailuresAndResets : Prop :=
  (∀ (s : State) (c : Nat) (dir : Dir), let k := s.core c
    (∀ t0, mfind k.eng.latch (dirNo dir) = some t0 → (k.tok dir).length < 15 →
      let t := max t0 (mget 0 k.eng.taken (dirNo dir) + 1)
      let after (x : Strm) (n : Nat) : Nat := if dirStrm dir = x then max n t else n
      ∃ q, exec (.signalLatchDrain c dir) s = .next (s.setCore c q) ∧ q.tok dir = k.tok dir ++ [t] ∧
      mfind q.eng.latch (dirNo dir) = none ∧
      (∀ x, x ≠ dir → q.tok x = k.tok x ∧ mfind q.eng.latch (dirNo x) = mfind k.eng.latch (dirNo x)) ∧
      q = { k with eng := { k.eng with
        toks := q.eng.toks, latch := q.eng.latch, cyc := after .fe k.eng.cyc, ldAt := after .ld k.eng.ldAt
        exAt := after .ex k.eng.exAt, stAt := after .st k.eng.stAt } }) ∧
    ((mfind k.eng.latch (dirNo dir) = none ∨ 15 ≤ (k.tok dir).length) → exec (.signalLatchDrain c dir) s = .next (s.setCore c k))) ∧
  (∀ (s : State) (k : Nat), let u := s.clu k
    let held : Prop := u.holder ≠ none ∧ ¬(u.left = 0 ∧ u.arrayAt ≤ s.cycOf (4 * k))
    (held → exec (.leaseGrant k) s = .next s) ∧
    (¬held → (∀ w ∈ u.waiting, 4 ≤ w) → exec (.leaseGrant k) s = .next s) ∧
    (¬held → u.last < 4 → (∃ w ∈ u.waiting, w < 4) → ∃ t w, exec (.leaseGrant k) s = .next t ∧ w < 4 ∧ w ∈ u.waiting ∧
      (t.clu k).holder = some w ∧ (t.clu k).last = w ∧ w ∉ (t.clu k).waiting ∧
      (∀ x ∈ u.waiting, x < 4 → (w + 3 - u.last) % 4 ≤ (x + 3 - u.last) % 4) ∧
      (t.clu k).left = (if (s.core (4 * k + w)).heldLease then
        (if (s.core (4 * k + w)).share ≤ (s.core (4 * k + w)).budget then (s.core (4 * k + w)).budget else 64)
        else (s.core (4 * k + w)).share) ∧
      t.cores = s.cores ∧ t.mem = s.mem)) ∧
  (∀ (s : State) (c : Nat) (va : W64), exec (.tableWalk c va) s =
    .next (s.setCore c { s.core c with tlb := (leafOf s.mem (s.env c) (s.core c).tlb va.toNat).2 })) ∧
  (∀ (s : State) (c : Nat) (e : Eng), ((s.core c).busy = false ∨ (s.core c).halting ≠ none) → exec (.tlbiMark c e) s = .next s) ∧
  (∀ (s : State) (c : Nat) (e : Eng) (a b : Entry) (l r : List Entry) (tok : Tok) (x y : Sreg) (scope : BitVec 2), (s.core c).busy = true → (s.core c).halting = none →
    (s.core c).eng.ld = a :: l → (s.core c).eng.st = b :: r → a.i = .tlbi tok x y scope → b.i = .tlbi tok x y scope →
    (if e = .ld then b.mark = .shipped 0 else e = .st ∧ a.mark = .shipped 0) → ∃ u, exec (.tlbiMark c e) s = .next u ∧
      (u.core c).eng.ld = l ∧ (u.core c).eng.st = r ∧ (u.core c).tlb = tlbDrop (s.core c).tlb scope.toNat (bits (a.s 1) 15 0) (a.s 0).toNat ∧
      (u.core c).r.pc = (if (s.core c).r.pc = a.pc then a.pc + 4 else (s.core c).r.pc) ∧ (∀ d, d ≠ c → u.core d = s.core d) ∧ u.mem = s.mem) ∧
  (∀ (s : State) (c n j : Nat) (ok : Bool),
    let w : ProtWord := ⟨.memory, n⟩
    let v : ProtWord := ⟨.scratchpad c, n⟩
    let t : ProtWord := ⟨.tile c j, n⟩
    let g : ProtWord := ⟨.glaze c j, n⟩
    let q : ProtWord := ⟨.queue c, n⟩
    let k := s.core c
    let fails (x : ProtWord) : State := { s with weak := s.weak.filter (· ≠ x) }
    let e : Eng := if n < 64 then .ld else if n < 128 then .ex else .st
    (∀ x ∈ [w, g], s.weak.contains x = false → s.badMem.contains x = false →
      exec (.storedBitFailure x true) s = .next { s with weak := s.weak ++ [x] }) ∧
    (∀ x ∈ [v, ⟨.spill c, n⟩, ⟨.handle c, n⟩, ⟨.tokens c, n⟩], k.bad.contains x = false →
      (k.weak.contains x = false → exec (.storedBitFailure x true) s = .next (s.setCore c { k with weak := k.weak ++ [x] })) ∧
      exec (.storedBitFailure x false) s = .next (s.setCore c { k with bad := k.bad ++ [x], weak := k.weak.filter (· ≠ x) })) ∧
    exec (.storedBitFailure ⟨.fetch, n⟩ true) s = .next s ∧
    (∀ x ∈ [w, g], s.badMem.contains x = false → exec (.storedBitFailure x false) s = .next { fails x with badMem := s.badMem ++ [x] }) ∧
    (∃ u, exec (.storedBitFailure t ok) s = .next u ∧ u = s.setCore c (u.core c) ∧
      let hit := if j = 0 then (u.core c).acc0 else (u.core c).acc1
      let old := if j = 0 then (s.core c).acc0 else (s.core c).acc1
      let el := mget ⟨0, 0, 0, 0⟩ old.el n
      hit = { old with el := mset old.el n { el with c4 := el.c4 + 1 } }) ∧
    (∀ l1 en l2, n < 192 → k.queue e = l1 ++ en :: l2 → l1.length = n % 64 → ∃ u, exec (.storedBitFailure q false) s = .next (s.setCore c u) ∧
      u.queue e = l1 ++ { en with mark := .broken } :: l2 ∧ ∀ x, x ≠ e → u.queue x = k.queue x) ∧
    (∀ x ∈ [w, g], s.badMem.contains x = true → exec (.scrub x) s =
      .next { s with ik := { s.ik with ueReports := s.ik.ueReports ++ [(x.arr, 8 * n)], irqs := s.ik.irqs ++ [5] } }) ∧
    (s.badMem.contains w = false → s.weak.filter (· == w) = [w] → exec (.scrub w) s = .next ((fails w).setDie (dieOf (8 * n))
      { s.die (dieOf (8 * n)) with ce := min 0xFFFFFFFF ((s.die (dieOf (8 * n))).ce + 1) })) ∧
    (s.badMem.contains g = false → s.weak.filter (· == g) = [g] → exec (.scrub g) s = .next ((fails g).setClu c
      { s.clu c with ce := min 0xFFFFFFFF ((s.clu c).ce + 1) })) ∧
    (∀ x, s.weak.contains x = false → s.badMem.contains x = false → exec (.scrub x) s = .next s)) ∧
  (∀ (s : State) (pa n : Nat), let u := s.corrMem pa n
    let met := s.weak.filter (fun w => w.arr == .memory && decide (pa < 8 * w.idx + 8 ∧ 8 * w.idx < pa + n))
    u = { s with weak := u.weak, dies := u.dies } ∧ u.weak = s.weak.filter (fun w => !met.contains w) ∧
    ∀ d, (s.die d).ce ≤ 0xFFFFFFFF → u.die d =
      { s.die d with ce := min 0xFFFFFFFF ((s.die d).ce + (met.filter (fun w => dieOf (8 * w.idx) = d)).length) }) ∧
  (∀ (s : State) (p k : Nat) (dbg : Bool),
    ((∃ j, j < 4 ∧ (s.core (4 * k + j)).run ≠ none) → exec (.partitionCreation p k dbg) s = .next s) ∧
    ((∀ j, j < 4 → (s.core (4 * k + j)).run = none) → ∃ u, exec (.partitionCreation p k dbg) s = .next u ∧
      k ∈ (u.part p).clusters ∧ (∀ q, q ≠ p → (u.part q).clusters = (s.part q).clusters.filter (· ≠ k)) ∧
      (∀ j, j < 4 → let c := u.core (4 * k + j)
        c.mode = .free ∧ c.run = none ∧ c.getSr 0x001 = (if dbg then 0x300#64 else 0x100#64) ∧ (∀ r, c.getS r = 0) ∧
        (∀ a, rd c.pad.mem a = 0) ∧ c.pend = []) ∧
      (u.clu k).slots = [] ∧ (u.clu k).cols = [] ∧ (u.clu k).holder = none ∧ u.mem = s.mem ∧
      ((s.part p).clusters = [] → (u.part p).clusters = [k] ∧ (u.part p).phase = 0 ∧ (u.part p).launches = [] ∧ (u.part p).snap = s.mem))) ∧
  (∀ (s : State) (c : Nat), ((s.core c).mode ≠ .halted → exec (.coreReset c) s = .next s) ∧
    ((s.core c).mode = .halted → ∃ k, exec (.coreReset c) s = .next (s.setCore c k) ∧ k.mode = .free ∧ k.run = none ∧ (∀ r, k.getS r = 0) ∧
      (∀ h, k.getH h = nullH) ∧ k.getSr 0x001 = (if (s.core c).debug then 0x300#64 else 0x100#64) ∧ k.pad.mem = (s.core c).pad.mem ∧
      k.pad.full = [] ∧ k.pend = [] ∧ k.bad = (s.core c).bad ∧ k.weak = (s.core c).weak ∧ k.inbox = (s.core c).inbox)) ∧
  (∀ s : State, ∃ u, exec .packageReset s = .next u ∧
    let k : Ik := { Ik.reset with antiRoll := s.ik.antiRoll, revoked := s.ik.revoked }
    let a := Config.flashSlot false
    let b := Config.flashSlot true
    let rom := extend 0 Config.romRecord
    u.mem = [] ∧ u.parts = [] ∧ u.fifos = [] ∧ u.ik.energy = 0 ∧ u.ik.revoked = s.ik.revoked ∧ mget 0 u.ik.m 0 = rom ∧
    (if k.imageOk a || k.imageOk b then
      let img := if k.imageOk a then a else b
      u.ik.boot = .up ∧ (∀ c, c < 256 → u.core c = { Core.reset with mode := .halted }) ∧ mget 0 u.ik.m 1 = extend 0 img ∧
      mget 0 u.ik.m 2 = extend 0 (Config.imageRuntime img) ∧ u.ik.antiRoll = max s.ik.antiRoll (Config.imageSvn img) ∧
      mget 0 u.ik.m 3 = extend 0 (Config.configRecord [u.ik.fuses]) ∧ u.ik.retired = Config.deadClusters ∧ u.ik.deadStacks = Config.badStacks ∧
      u.ik.deadChans = Config.badChannels ∧ u.ik.deadFar = Config.badFar
    else u.ik.boot = .recovery ∧ (∀ c, u.core c = .reset) ∧ (∀ j, j ≠ 0 → mget 0 u.ik.m j = 0) ∧ u.ik.antiRoll = s.ik.antiRoll))

/-- Engine events run the instruction at the head of its queue as its body does; a bank and a channel perform what stands at
their head (R25, R171, R173, R225, R229, R248, R280, R284, R292, R296, R297, R313). For an instruction at the head of its queue
that begins now (heads) and is held back by nothing: INSTR_COMPLETE, COPY_COMPLETE of a copy under way, MIGR_MOVE of a migration
that holds its segment, RELAX_ITERATION of a RELAX, LOAD and LAND with one part and BANK_SEND with the banks lagging run its
body: when the body ends they answer the next state in which the instruction has completed, when it waits the one it leaves, and
when it stops its cause is raised, once the FE cannot start anything by that cycle (R248). A core that stops goes on with what
has begun alone; an empty queue or an idle core leaves everything as it is. INSTR_COMPLETE of a copy engine lets its commands in
flight end first: a copy that has moved its bytes writes its flag word and completes, a remote copy goes on, a bank operation
whose banks have performed it completes or raises its cause, a LINK.RECV without a transfer waits; none writes what a running
RELAX owns. BANK_PERFORM of a bank whose FIFO has an operation of a core at its head performs it: the word holds its new value,
the FIFO has lost its head and the entry holds the old value. REMOTE_DELIVER delivers the head of its channel, or nothing while
the head waits for its granule. -/
def Obligations.EngineEventsRunTheirHead : Prop :=
  (∀ (s : State) (c : Nat) (e : Eng) (b : Begun), s.heads c e = some b → b.unheld = true →
    let run (x : State) : Res Fin := bodyOf b.en.i c b.en b.t x
    let ends (i : Instr) : Prop := (∀ f, run b.s = .ok f → exec i s = .next (finishHead c e b.en f)) ∧
      (∀ f, run b.s = .wait f → exec i s = .next f.s) ∧ (∀ x f, run b.s = .stop x f → exec i s = .next (if s.feFirst c e then s else raise c x f.s))
    let one := { b.s with onePart := true }
    let part (i : Instr) : Prop := (∀ f, run one = .ok f → exec i s = .next { (finishHead c e b.en f) with onePart := false }) ∧
      (∀ f, run one = .wait f → exec i s = .next { f.s with onePart := false }) ∧
      (∀ x f, run one = .stop x f → exec i s = .next (if s.feFirst c e then s else raise c x { f.s with onePart := false }))
    ends (.instrComplete c e) ∧
    (e ≠ .ex → b.en.mark ≠ .fresh → ends (.copyComplete c e)) ∧
    (e = .ld → part (.load c .ld)) ∧ (e = .st → part (.land c .st)) ∧
    (e = .st → b.en.mark ≠ .fresh → (∃ tok x y fa fv, b.en.i = .migr tok x y fa fv) → ends (.migrMove c)) ∧
    (e = .st → isBank b.en.i = true → ∀ f,
      (run { b.s with lagBanks := true } = .ok f → exec (.bankSend c) s = .next { (finishHead c e b.en f) with lagBanks := s.lagBanks }) ∧
      (run { b.s with lagBanks := true } = .wait f → exec (.bankSend c) s = .next { f.s with lagBanks := s.lagBanks }) ∧
      (∀ x, run { b.s with lagBanks := true } = .stop x f → exec (.bankSend c) s = .next (if s.feFirst c e then s else raise c x { f.s with lagBanks := s.lagBanks })))) ∧
  (∀ (s : State) (c : Nat) (b : Begun) (g : RForm) (f : Fin), s.heads c .ex = some b → rxForm b.en.i = some g →
    (bRelax g c b.en b.t b.s = .ok f → exec (.relaxIteration c) s = .next (finishHead c .ex b.en f)) ∧
    (bRelax g c b.en b.t b.s = .wait f → exec (.relaxIteration c) s = .next f.s) ∧
    (∀ x, bRelax g c b.en b.t b.s = .stop x f → exec (.relaxIteration c) s = .next (if s.feFirst c .ex then s else raise c x f.s))) ∧
  (∀ (s : State) (c : Nat) (e : Eng), (s.core c).halting ≠ none →
    (((s.core c).queue e).head?.any Entry.marker = false → exec (.instrComplete c e) s = .next (s.settle c)) ∧
    (((s.core c).queue e).head?.any Entry.marker = true → exec (.instrComplete c e) s = .next s) ∧
    exec (.copyComplete c e) s = .next (s.settle c) ∧ exec (.load c .ld) s = .next (s.settle c) ∧
    exec (.land c .st) s = .next (s.settle c) ∧ exec (.bankSend c) s = .next (s.settle c) ∧ exec (.migrMove c) s = .next (s.settle c) ∧
    exec (.relaxIteration c) s = .next (s.settle c)) ∧
  (∀ (s : State) (c : Nat) (en : Entry), (s.core c).busy = true → (s.core c).halting = none → (s.core c).eng.flight = [en] →
    (en.eng = .ld ∨ en.eng = .st) → (s.core c).queue en.eng = [] →
    let e := en.eng
    let t := max ((s.core c).engAt e) (s.cycOf c)
    let room := (s.core c).canSignal (engStrm e) en.tok
    let done (x : State) (f : Fin) : State := x.upCore c (fun k => k.landed en f)
    let quiet (x : State) : Prop := (x.core c).busy = true ∧ (x.core c).halting = none ∧ (x.core c).queue e = []
    (∀ g, en.mark = .landed g → exec (.instrComplete c e) s =
      .next (if room = false ∨ s.flagHeld c en = true then s else done (s.ownFlag c t en) (finAt t s))) ∧
    (en.mark = .await → e = .ld → s.recvOf c en = none → exec (.instrComplete c e) s = .next s) ∧
    (∀ n, en.mark = .shipped n → e = .st → (sendsHome c en && s.relaxHolds c en) = false →
      (∀ f, bodyOf en.i c en t s = .ok f → quiet f.s → exec (.instrComplete c e) s = .next (done f.s f)) ∧
      (∀ f, bodyOf en.i c en t s = .wait f → quiet f.s → exec (.instrComplete c e) s = .next f.s)) ∧
    (∀ u p rets fails segs, en.mark = .bank u p rets fails segs → e = .st →
      let goes : Prop := en.flown = true ∧ room = true ∧ s.relaxHolds c en = false
      (¬goes → exec (.instrComplete c e) s = .next s) ∧
      (∀ f, goes → bodyOf en.i c en t s = .ok f → quiet f.s → exec (.instrComplete c e) s = .next (done f.s f)) ∧
      (∀ x f, goes → bodyOf en.i c en t s = .stop x f → exec (.instrComplete c e) s =
        .next ((f.s.upCore c (fun k => { k with eng := { k.eng with flight := k.eng.flight.map (fun y =>
          if y.routed = en.routed then { y with mark := en.failMark } else y) } })).stopFor c (.cause x))))) ∧
  (∀ (s : State) (c : Nat) (e : Eng), (s.core c).halting = none → (e ≠ .ex → (s.core c).busy = true → (s.core c).eng.flight = []) →
    ((s.core c).busy = false ∨ (s.core c).queue e = []) →
    exec (.instrComplete c e) s = .next s ∧ exec (.copyComplete c e) s = .next s ∧
    (e = .ld → exec (.load c e) s = .next s) ∧ (e ≠ .ld → exec (.load c e) s = .next s) ∧
    (e = .st → exec (.land c e) s = .next s ∧ exec (.bankSend c) s = .next s ∧ exec (.migrMove c) s = .next s) ∧
    (e ≠ .st → exec (.land c e) s = .next s) ∧ (e = .ex → exec (.relaxIteration c) s = .next s)) ∧
  (∀ (s : State) (bank : Nat),
    (mget [] s.fifos bank = [] → exec (.bankPerform bank) s = .next s) ∧
    (∀ (r : BankReq) (rest : List BankReq),
      mget [] s.fifos bank = r :: rest → r.agent < 256 → r.op.cell = false → r.logged = none → (s.part (s.partNo r.agent)).logMode = 0 →
      s.memBad r.pa (bankBytes r.op r.ty) = false → s.reserve (dieOf (r.pa / 64 * 64)) < 2 ^ 24 →
      let n := bankBytes r.op r.ty
      let old := s.bankWord r.pa n
      ∃ u, exec (.bankPerform bank) s = .next u ∧ mget [] u.fifos bank = rest ∧
        (bankWrites r.op r.clr = true → rdN u.mem r.pa n = toLE n (bankNew r.op r.ty old r.x r.e).toNat) ∧
        (∀ a, (bankWrites r.op r.clr = false ∨ a < r.pa ∨ r.pa + n ≤ a) → rd u.mem a = rd s.mem a) ∧
        (let done (en : Entry) : Entry := match en.mark with
          | .bank un p rets fails segs => if en.routed = r.ser then
              { en with mark := .bank un (p.filter (fun e => e.1 ≠ r.idx)) (mset rets r.idx (byTy r.ty old)) fails segs } else en
          | _ => en
         (u.core r.agent).eng.st = (s.core r.agent).eng.st.map done ∧ (u.core r.agent).eng.flight = (s.core r.agent).eng.flight.map done) ∧
        (u.core r.agent).r = (s.core r.agent).r)) ∧
  (∀ (s : State) (src dst : Nat),
    (mget [] (s.core dst).inbox src = [] → exec (.remoteDeliver src dst) s = .next s) ∧
    (∀ e rest, mget [] (s.core dst).inbox src = e :: rest →
      (deliverEl s dst e = none → exec (.remoteDeliver src dst) s = .next s) ∧
      (∀ u, deliverEl s dst e = some u →
        exec (.remoteDeliver src dst) s = .next (u.upCore dst (fun k => { k with inbox := mput [] k.inbox src rest })))))

/-- Each bank-port operation performs on its word for its application core and leaves code and result in the window; bad ones
leave their cause (R294, R295, R297, R299, R300, R305, R311, R399). For each of the twenty operations of the bank port (BP_BADD
to BP_BAXPY, with BXRD's CLR), of an application core with no operation in progress (BUSY 0) and a partition, whose type the
operation accepts and whose operand address is aligned: when the one word translates, holds no uncorrectable word and no BUSY
count, its bank's FIFO is empty, no log is in force and a reserve line is free, exec answers the next state in which BP.CMD has
code 0 and is not busy, BP.RES holds what the operation returns (0 when it returns nothing), the word holds its new value and
every other byte of memory but BUSY counts is as before. The operation table by its operands is that of BankOperationsOnOneWord.
A type that the operation does not accept gives ILLEGAL, no partition PERM with subcause 4 (log entry 61), a bad alignment
ALIGN, more than 4,096 cells HANDLE, each with the address as result and no effect on memory. On a held segment the operation
waits with BUSY 1 and its operands kept; a start while BUSY is 1 does nothing. -/
def Obligations.BankPortPerforms : Prop :=
  ∀ (s : State) (i : Instr) (ac : Nat) (op : BOp) (tyc : BitVec 2) (clr : Bool), bpForm i = some (ac, op, tyc, clr) →
    let a := s.appCore ac
    let ty := bankTy tyc
    let va := a.w 0x040
    let ends (code : Nat) : Prop := ∃ u, exec i s = .next u ∧ (u.appCore ac).w 0x058 = BitVec.ofNat 64 code ∧ (u.appCore ac).w 0x060 = va ∧
      u.mem = s.mem ∧ u.cores = s.cores
    ((64 ≤ ac ∨ a.busy 0x058 = true) → exec i s = .next s) ∧
    (ac < 64 → a.busy 0x058 = false →
      (bankTyOk op tyc = false → ends 0x01) ∧ (bankTyOk op tyc = true → a.valid = false → ends (4 * 256 + 0x11)) ∧
      (bankTyOk op tyc = true → a.valid = true → va.toNat % bankSize op ty ≠ 0 → ends 0x03) ∧
      (bankTyOk op tyc = true → a.valid = true → va.toNat % bankSize op ty = 0 → op = .pfx → 4096 < (a.w 0x048).toNat → ends (causeCode .handle)) ∧
      (bankTyOk op tyc = true → a.valid = true → va.toNat % bankSize op ty = 0 → (op = .pfx → (a.w 0x048).toNat ≤ 4096) →
        acElems (s.acEnv ac) (bankNeed op clr) (scalarEls op va (a.w 0x048)) s.mem a.tlb [] [] = .error .hold → ∃ u, exec i s = .next u ∧
        (u.appCore ac).busy 0x058 = true ∧ (u.appCore ac).bpWait = some ⟨op, tyc, clr, va, a.w 0x048, a.w 0x050⟩ ∧ u.mem = s.mem ∧ u.cores = s.cores) ∧
      (bankTyOk op tyc = true → a.valid = true → va.toNat % bankSize op ty = 0 → ∀ el pa m t segs,
        scalarEls op va (a.w 0x048) = [el] →
        acElems (s.acEnv ac) (bankNeed op clr) [el] s.mem a.tlb [] [] = .ok ([(el, pa)], m, t, segs) →
        (s.part a.part).logMode = 0 → s.lagBanks = false → mget [] s.fifos (bankOf pa) = [] →
        let n := bankBytes op ty
        let old := s.bankWord pa n
        let cell := s.cell pa
        s.memBad pa n = false → s.reserve (dieOf (pa / 64 * 64)) < 2 ^ 24 → (∀ j, j < n → (s.acEnv ac).busyByte (pa + j) = false) →
        ∃ u, exec i s = .next u ∧ (u.appCore ac).w 0x058 = 0 ∧ (u.appCore ac).pending = [] ∧
          (u.appCore ac).w 0x060 = (if bankReturns op = false then 0 else if op = .xrd then (rne32 (cellRead cell.1 cell.2).1).1.setWidth 64
            else bankGives op ty old) ∧
          (op.cell = false → bankWrites op clr = true → rdN u.mem pa n = toLE n (bankNew op ty old el.2.2 (a.w 0x050)).toNat) ∧
          (op = .xadd → let z := cellAdd cell.1 cell.2 (val32 (el.2.2.setWidth 32))
            rdN u.mem pa 48 = toLE 40 (intBits 320 z.1) ++ toLE 8 z.2.toNat) ∧
          (op = .xrd → clr = true → rdN u.mem pa 48 = List.replicate 48 0) ∧
          (∀ x, (s.acEnv ac).busyByte x = false → (bankWrites op clr = false ∨ x < pa ∨ pa + n ≤ x) → rd u.mem x = rd s.mem x)))

/-- Mailbox commands answer with their result and bytes; the SMBus target moves its pointer, its bytes and the status (R392,
R404, R405, R406). REPORT with 48 bytes answers the signed report of 512 bytes (version, package, firmware version, counter,
nonce, measurements, zeros, 96 bytes of signature) and counts it; MEAS and IDENT without bytes answer the measurements and the
identity; RWRITE in recovery mode writes its bytes into the recovery area when they fit, RBOOT starts an accepted recovery image
or answers 5. Another length answers 3, another boot state 4. An answer sets MB.STAT to result and length and puts its bytes at
the buffer's start. SMB_SET_POINTER takes a pointer below 4,096; SMB_BLOCK_WRITE and SMB_BLOCK_READ move 1 to 255 bytes at the
pointer, which wraps at 4,096 and moves on; SMB_COMMAND writes MB.CMD and rings the doorbell, SMB_STATUS reads MB.STAT. A write
of a mailbox register stores the command, rings the doorbell or stores a double of the buffer. The pointer's wrap is log entry
17, that a command is served at once log entry 16. -/
def Obligations.MailboxesAndManagementBus : Prop :=
  (∀ (s : State) (m : MbInst),
    let x := s.mbox m
    let gives (t : State) (r : Nat) (bs : List Byte) : Out := .next (t.setMbox m (x.answer r bs))
    let nonce := rdN x.buf 0 48
    let body := toLE 8 1 ++ toLE 8 pkgId.toNat ++ toLE 8 s.ik.fwVer.toNat ++ toLE 8 s.ik.reports ++ nonce ++ s.ik.measured ++ List.replicate 144 0
    let off := (rd64 x.buf 0).toNat
    let n := x.len - 8
    let img := s.ik.recoveryImage
    (x.len = 48 → exec (.report m) s = gives { s with ik := { s.ik with reports := s.ik.reports + 1 } } 0
      (body ++ toLE 96 (Config.deviceSign (Config.sha384 body)).toNat) ∧ (body ++ toLE 96 (Config.deviceSign (Config.sha384 body)).toNat).length = 512) ∧
    (x.len ≠ 48 → exec (.report m) s = gives s 3 []) ∧
    (x.len = 0 → exec (.meas m) s = gives s 0 s.ik.measured ∧ exec (.ident m) s = gives s 0
      (toLE 8 pkgId.toNat ++ toLE 8 s.ik.fwVer.toNat ++ toLE 96 Config.devicePub.toNat ++ Config.vendorCert.take 3984)) ∧
    (x.len ≠ 0 → exec (.meas m) s = gives s 3 [] ∧ exec (.ident m) s = gives s 3 []) ∧
    (s.ik.boot ≠ .recovery → exec (.rwrite m) s = gives s 4 [] ∧ exec (.rboot m) s = gives s 4 []) ∧
    (s.ik.boot = .recovery → 9 ≤ x.len → x.len ≤ 4096 → off + n ≤ 64 * 2 ^ 20 → exec (.rwrite m) s =
      gives { s with ik := { s.ik with recovery := wrL s.ik.recovery off (rdN x.buf 8 n), recoveryLen := max s.ik.recoveryLen (off + n) } } 0 []) ∧
    img = rdN s.ik.recovery 0 s.ik.recoveryLen ∧
    (s.ik.boot = .recovery → (x.len < 9 ∨ 4096 < x.len ∨ 64 * 2 ^ 20 < off + n) → exec (.rwrite m) s = gives s 3 []) ∧
    (s.ik.boot = .recovery → x.len = 0 → exec (.rboot m) s =
      if s.ik.imageOk img then gives (s.release (s.ik.started img)) 0 [] else gives s 5 []) ∧
    (s.ik.boot = .recovery → x.len ≠ 0 → exec (.rboot m) s = gives s 3 [])) ∧
  (∀ (x : Mailbox) (r : Nat) (bs : List Byte), let y := x.answer r bs
    y.stat = BitVec.ofNat 64 (bs.length * 2 ^ 16 + r) ∧ y.cmd = x.cmd ∧ rdN y.buf 0 bs.length = bs ∧
    ∀ a, bs.length ≤ a → rd y.buf a = rd x.buf a) ∧
  (∀ (s : State) (v : BitVec 16), exec (.smbSetPointer v) s =
    .next (if v.toNat < 4096 then { s with ik := { s.ik with smbPtr := v.toNat } } else s)) ∧
  (∀ (s : State) (bs : List Byte) (n : Nat),
    let at' (j : Nat) : Nat := (s.ik.smbPtr + j) % 4096
    let x := s.mbox .mgmt
    (1 ≤ bs.length → bs.length ≤ 255 → ∃ u, exec (.smbBlockWrite bs) s = .next u ∧
      u = { s with ik := { s.ik with mb := u.ik.mb, smbPtr := at' bs.length } } ∧
      (∀ j (h : j < bs.length), rd (u.mbox .mgmt).buf (at' j) = bs[j]) ∧
      (∀ a, (∀ j, j < bs.length → at' j ≠ a) → rd (u.mbox .mgmt).buf a = rd x.buf a)) ∧
    ((bs.length = 0 ∨ 255 < bs.length) → exec (.smbBlockWrite bs) s = .next s) ∧
    (1 ≤ n → n ≤ 255 → exec (.smbBlockRead n) s = .next { s with ik := { s.ik with
      smbOut := (List.range n).map (fun j => rd x.buf (at' j)), smbPtr := at' n } }) ∧
    ((n = 0 ∨ 255 < n) → exec (.smbBlockRead n) s = .next s) ∧
    exec .smbStatus s = .next { s with ik := { s.ik with smbOut := toLE 8 x.stat.toNat } }) ∧
  (∀ (s : State) (m : MbInst) (v : BitVec 32) (w : W64) (off : Nat),
    let t := s.setMbox m { s.mbox m with cmd := w &&& 0xFFFF00FF }
    let rings (u : State) : Out := match bits (u.mbox m).cmd 7 0 with
      | 1 => exec (.report m) u
      | 2 => exec (.meas m) u
      | 3 => exec (.ident m) u
      | 16 => exec (.rwrite m) u
      | 17 => exec (.rboot m) u
      | _ => .next (u.setMbox m ((u.mbox m).answer 2 []))
    exec (.registerWrite (.mb m 0) w) s = .next t ∧ exec (.registerWrite (.mb m 8) w) s = rings s ∧
    (m = .mgmt → w = v.setWidth 64 → exec (.smbCommand v) s = rings t) ∧
    (0x1000 ≤ off → off ≤ 0x1FF8 → off % 8 = 0 →
      exec (.registerWrite (.mb m off) w) s = .next (s.setMbox m { s.mbox m with buf := wr64 (s.mbox m).buf (off - 0x1000) w })) ∧
    ((off ≠ 0 ∧ off ≠ 8 ∧ (off < 0x1000 ∨ 0x1FF8 < off ∨ off % 8 ≠ 0)) → exec (.registerWrite (.mb m off) w) s = .next s))

/-- DMA, card, host-queue, application-core, launch, core-access and special-register accesses act where their tables let them,
or report why not (R7, R191, R285, R288, R312, R394, R395, R397, R400, R401, R402, R407). DMA, card and port accesses of a
requester that the table names translate under its partition: a write joins the root port's pending set, a read returns the
snapshot, but bytes of a port queue's ring (log entry 109) are written and read at memory; a packet is put into its receive
queue or counted as a drop (log entry 63), a full entry of a transmit queue leaves (what cards and readers got: log entry 57); a
fault is recorded, and one without an entry has no effect (a read returns none; log entry 59). Host queues stage bytes, post and
complete, and their apertures read slot HEAD and HQ.TXI, or all ones (log entry 109). AC_LOAD returns what the core sees, and
waits while the phase closes; AC_STORE joins its pending set, a fault latches AC.FAULT (no partition: log entry 61); AC_TLBI
drops its translations. While the phase closes, the agent has a write held or no reserve line is free, stores are held (log
entry 60) and count in BUSY; a held write lands and leaves its segments when it can. LP_LAUNCH adds a launch of the next phase
with graph 0 (log entry 26), or leaves CODE and reason (log entry 62), or waits with BUSY 1. CA_READ and CA_WRITE reach the
items of a parked or halted core of the partition, SR_READ and SR_WRITE its registers, each with status 0, or with the status of
what forbids it (ST 3: log entry 65); a read of CYC is an event of the order log and may wait with BUSY 1; a change of the
measured configuration extends M(3) (log entry 66). A register written from outside keeps its read-only bits. -/
def Obligations.PortsOfTheIkilithDie : Prop :=
  (∀ (s : State) (port : Nat) (rid : BitVec 16) (va : W64) (tag : BitVec 32) (bs : List Byte) (n : Nat),
    (s.requester port rid = none → exec (.dmaWrite port rid va bs) s = .next s ∧
      exec (.dmaRead port rid va n) s = .next { s with ik := { s.ik with dmaOut := none } } ∧
      exec (.cardDeliver port rid va tag bs) s = .next s ∧ exec (.portTransmit port rid va) s = .next s) ∧
    (∀ p e, s.requester port rid = some (p, e) →
      let ps := piecesOf va bs.length
      let served (u : State) : State := if u.ik.queues.contains (p, va) then u else { u with ik := { u.ik with queues := u.ik.queues ++ [(p, va)] } }
      (∀ l, (xlatePieces s.mem e needW ps []).1 = .ok l → bs ≠ [] →
        ((∀ q ∈ ps, s.inRing p e q.1 = false) → exec (.dmaWrite port rid va bs) s =
          .next (s.plainStore p 2 port (pieceSegs s.mem e needW ps []) (placeBytes l bs))) ∧
        ((∀ q ∈ ps, s.inRing p e q.1 = true) → exec (.dmaWrite port rid va bs) s =
          .next ((l.zip (cutBytes ps bs)).foldl (fun u x => u.writeMem x.1.1 x.2) s))) ∧
      (∀ x, (xlatePieces s.mem e needW ps []).1 = .error x → exec (.dmaWrite port rid va bs) s = .next (s.dmaFault p x)) ∧
      (∀ l, (xlatePieces s.mem e needR (piecesOf va n) []).1 = .ok l → (∀ q ∈ l, s.memBad q.1 q.2 = false) →
        exec (.dmaRead port rid va n) s = .next (let t := s.corrAll l
          { t with ik := { t.ik with dmaOut := some (((piecesOf va n).zip l).flatMap (fun x =>
            rdN (if s.inRing p e x.1.1 = true then s.mem else (s.part p).snap) x.2.1 x.2.2)) } })) ∧
      ((xlatePieces s.mem e needR (piecesOf va n) []).1 = .error .hold → exec (.dmaRead port rid va n) s = .next s) ∧
      (∀ t, s.deliverTo e va tag bs = .ok t → exec (.cardDeliver port rid va tag bs) s = .next (served t)) ∧
      (∀ x, s.deliverTo e va tag bs = .error x → exec (.cardDeliver port rid va tag bs) s = .next (s.dmaFault p x)) ∧
      (∀ tg pay t, s.consume e va = .ok (some (tg, pay, t)) → exec (.portTransmit port rid va) s =
        .next (served { t with ik := { t.ik with cards := t.ik.cards ++ [(port, tg, pay)] } })) ∧
      (s.consume e va = .ok none → exec (.portTransmit port rid va) s = .next (served s)))) ∧
  (∀ (s : State) (p : Nat) (e : Env) (va : W64), s.inRing p e va = true ↔
    (∃ q ∈ s.ik.queues, q.1 = p ∧ (s.ringOf e q.2).1 ≤ va.toNat ∧ va.toNat < (s.ringOf e q.2).1 + (s.ringOf e q.2).2) ∨
    ((s.appCore 0).part = p ∧ ∃ j < 128, let q := s.table (0x600 + 8 * j)
      q ≠ 0 ∧ (s.ringOf (s.acEnv 0) q).1 ≤ va.toNat ∧ va.toNat < (s.ringOf (s.acEnv 0) q).1 + (s.ringOf (s.acEnv 0) q).2)) ∧
  (∀ (s : State) (e : Env) (va : W64) (tag : BitVec 32) (bs : List Byte) (pa : Nat) (d : PortQ), s.queueAt e va = .ok (pa, d) →
    let drops (u : State) : State := u.writeMem (pa + 0x20) (toLE 8 (d.drop + 1).toNat)
    let good : Prop := d.bad = false ∧ d.dir = false ∧ bs.length ≤ d.slot - 64 ∧ (d.tail - d.head).toNat < d.cap % 2 ^ 64
    (¬good → s.deliverTo e va tag bs = .ok (drops s)) ∧
    (good → ∀ l, s.slotAt e d d.tail needRW = .ok l →
      let at' := (l.headD (0, 0)).1 + 8
      let full := (rd s.mem at').getLsbD 0
      let t := s.corrMem at' 1
      s.memBad at' 1 = false → s.deliverTo e va tag bs = .ok (if full then drops t else ((t.ringWrite (l.drop 1) bs).ringWrite (l.take 1)
        (toLE 4 bs.length ++ toLE 4 tag.toNat ++ [1])).writeMem (pa + 0x18) (toLE 8 (d.tail + 1).toNat))) ∧
    (d.bad = false → d.dir = true → d.head.toNat < d.tail.toNat → ∀ l, s.slotAt e d d.head needRW = .ok l →
      let at' := (l.headD (0, 0)).1
      let len := leNat (rdN s.mem at' 4)
      let tg := BitVec.ofNat 32 (leNat (rdN s.mem (at' + 4) 4))
      let pay := payPieces (l.drop 1) (min len (d.slot - 64))
      s.memBad at' 16 = false →
      ((rd s.mem (at' + 8)).getLsbD 0 = false → s.consume e va = .ok none) ∧
      ((rd s.mem (at' + 8)).getLsbD 0 = true → (∀ q ∈ pay, s.memBad q.1 q.2 = false) → s.consume e va = .ok (some (tg,
        pay.flatMap (fun q => rdN s.mem q.1 q.2), ((s.corrAll ((at', 16) :: pay)).writeMem (at' + 8) [rd s.mem (at' + 8) &&& 0xFE]).writeMem
          (pa + 0x10) (toLE 8 (d.head + 1).toNat)))))) ∧
  (∀ (s : State) (p kind no : Nat) (segs : List Nat) (bs : List (Nat × Byte)),
    let waits : Prop := (s.part p).closing = true ∨ ∃ w ∈ s.ik.heldWr, w.part = p ∧ w.kind = kind ∧ w.no = no
    let held (told : Bool) : State := { s with
      mem := enterAll s.mem (s.penv p true) segs
      ik := { s.ik with heldWr := s.ik.heldWr ++ [⟨p, kind, no, bs, segs, told⟩] } }
    let lands := s.chargeAll p (kind, no, 0, 0) ((bs.map (fun b => b.1 / 64)).foldl sins [])
    (waits → s.plainStore p kind no segs bs = held false) ∧
    (¬waits → lands = none → s.plainStore p kind no segs bs = (held true).irq 2) ∧
    (¬waits → ∀ t, lands = some t →
      (kind = 1 → mget [] ((s.plainStore p kind no segs bs).part p).acPend no = pendAll (mget [] (s.part p).acPend no) bs) ∧
      (kind = 2 → mget [] ((s.plainStore p kind no segs bs).part p).portPend no = pendAll (mget [] (s.part p).portPend no) bs) ∧
      (s.plainStore p kind no segs bs).mem = s.mem) ∧
    (∀ told, let w : HeldWr := ⟨p, kind, no, bs, segs, told⟩
      let again (x : Bool) : State := { s with ik := { s.ik with heldWr := s.ik.heldWr ++ [{ w with told := x }] } }
      (waits → s.heldWrite w = again told) ∧
      (¬waits → lands = none → s.heldWrite w = if told then again true else (again true).irq 2) ∧
      (¬waits → ∀ t, lands = some t → (s.heldWrite w).mem = leaveAll s.mem (s.penv p true) segs ∧
        (kind = 1 → mget [] ((s.heldWrite w).part p).acPend no = pendAll (mget [] (s.part p).acPend no) bs) ∧
        (kind = 2 → mget [] ((s.heldWrite w).part p).portPend no = pendAll (mget [] (s.part p).portPend no) bs)))) ∧
  (∀ (s : State) (q off : Nat) (bs : List Byte) (v : W64),
    (∀ va, s.hostQueue q 0 = some va →
      (off + bs.length ≤ 0xFF00 → exec (.hqStage q off bs) s =
        .next { s with ik := { s.ik with stage := mset s.ik.stage q (wrL (mget [] s.ik.stage q) off bs) } }) ∧
      (v.toNat % 2 ^ 32 ≤ 0xFF00 → ∀ t, s.deliverTo (s.acEnv 0) va (BitVec.ofNat 32 (v.toNat / 2 ^ 32))
        (rdN (mget [] s.ik.stage q) 0 (v.toNat % 2 ^ 32)) = .ok t → exec (.hqPost q v) s = .next t) ∧
      (0xFF00 < v.toNat % 2 ^ 32 → ∀ pa d, s.queueAt (s.acEnv 0) va = .ok (pa, d) →
        exec (.hqPost q v) s = .next (s.writeMem (pa + 0x20) (toLE 8 (d.drop + 1).toNat)))) ∧
    (∀ va, s.hostQueue q 8 = some va →
      (∀ tg pay t, s.consume (s.acEnv 0) va = .ok (some (tg, pay, t)) → exec (.hqTxc q) s = .next t) ∧
      (s.consume (s.acEnv 0) va = .ok none → exec (.hqTxc q) s = .next s)) ∧
    (s.hostQueue q 0 = none → exec (.hqStage q off bs) s = .next s ∧ exec (.hqPost q v) s = .next s) ∧
    (s.hostQueue q 8 = none → exec (.hqTxc q) s = .next s) ∧
    (∀ n, (s.hostQueue q 8 = none → s.hqRead q off n = List.replicate n 255) ∧
      (∀ va, s.hostQueue q 8 = some va → (∀ pa d l len tg, s.headSlot (s.acEnv 0) va = .ok (some (pa, d, l, len, tg)) →
          s.hqRead q 0xFF08 8 = toLE 4 len ++ toLE 4 tg.toNat) ∧
        (s.headSlot (s.acEnv 0) va = .ok none → s.hqRead q 0xFF08 8 = List.replicate 8 255) ∧
        (∀ pa d l, s.queueAt (s.acEnv 0) va = .ok (pa, d) → s.slotAt (s.acEnv 0) d d.head needRW = .ok l →
          (∀ x ∈ l.drop 1, s.memBad x.1 x.2 = false) → let pay := (l.drop 1).flatMap (fun x => rdN s.mem x.1 x.2)
          off + n ≤ pay.length → off + n ≤ 0xFF00 → s.hqRead q off n = (pay.drop off).take n)))) ∧
  (∀ (s : State) (ac : Nat) (va : W64) (n : Nat) (bs : List Byte), ac < 64 →
    let a := s.appCore ac
    let pt := s.part a.part
    exec (.acTlbi ac) s = .next (s.setApp ac { a with tlb := [] }) ∧
    (a.valid = false → ∃ u, exec (.acLoad ac va n) s = .next u ∧ u.ik.acOut = List.replicate n 255 ∧
      (a.w 0x020 = 0 → (u.appCore ac).w 0x020 = 0x8000000000000411#64 ∧ (u.appCore ac).w 0x028 = va) ∧ u.mem = s.mem) ∧
    (a.valid = true → ∀ l t, xlatePieces s.mem (s.acEnv ac) needR (piecesOf va n) a.tlb = (.ok l, t) → pt.closing = false →
      (∀ q ∈ l, s.memBad q.1 q.2 = false) → ∃ u, exec (.acLoad ac va n) s = .next u ∧
        u.ik.acOut = l.flatMap (fun q => seenN (mget [] pt.acPend ac) pt.snap q.1 q.2) ∧ u.parts = s.parts ∧ u.mem = s.mem) ∧
    (a.valid = true → ∀ l t, xlatePieces s.mem (s.acEnv ac) needR (piecesOf va n) a.tlb = (.ok l, t) → pt.closing = true →
      exec (.acLoad ac va n) s = .next s) ∧
    (a.valid = true → ∀ l t, xlatePieces s.mem (s.acEnv ac) needW (piecesOf va bs.length) a.tlb = (.ok l, t) →
      exec (.acStore ac va bs) s = .next ((s.setApp ac { a with tlb := t }).plainStore a.part 1 ac
        (pieceSegs s.mem (s.acEnv ac) needW (piecesOf va bs.length) a.tlb) (placeBytes l bs)))) ∧
  (∀ (s : State) (ac : Nat), ac < 64 →
    let a := s.appCore ac
    let va := a.w 0x080
    let pt := s.part a.part
    let ends (code : Nat) : Prop := exec (.lpLaunch ac) s = .next (s.setApp ac { a.setW 0x088 (BitVec.ofNat 64 code) with lpWait := none })
    let waits : Prop := ∃ u, exec (.lpLaunch ac) s = .next u ∧ (u.appCore ac).busy 0x088 = true ∧ (u.appCore ac).lpWait = some va ∧
      u.parts = s.parts ∧ u.mem = s.mem
    (a.busy 0x088 = true → exec (.lpLaunch ac) s = .next s) ∧
    (a.busy 0x088 = false → a.valid = false → ends 0x411) ∧ (a.busy 0x088 = false → a.valid = true → va.toNat % 64 ≠ 0 → ends 0x03) ∧
    (a.busy 0x088 = false → a.valid = true → va.toNat % 64 = 0 →
      (xlatePieces s.mem (s.acEnv ac) needR (piecesOf va 64) a.tlb).1 = .error .hold → waits) ∧
    (a.busy 0x088 = false → a.valid = true → va.toNat % 64 = 0 → ∀ l t, xlatePieces s.mem (s.acEnv ac) needR (piecesOf va 64) a.tlb = (.ok l, t) →
      (pt.closing = true → waits) ∧ (pt.closing = false → (∀ q ∈ l, s.memBad q.1 q.2 = false) →
      let made := mget 0 pt.acMade ac
      let rc := Sys2Proof.Machine.recordOf va (l.flatMap (fun q => seenN (mget [] pt.acPend ac) pt.snap q.1 q.2))
      let why := pt.refuse rc true made
      let id := launchId (pt.phase + 1) 0xFFF ac made
      ∃ u, exec (.lpLaunch ac) s = .next u ∧
        (why ≠ 0 → (u.appCore ac).w 0x088 = BitVec.ofNat 64 (why * 256 + 0x38) ∧ u.parts = s.parts ∧ u.mem = s.mem) ∧
        (why = 0 → (u.appCore ac).w 0x088 = 0 ∧ (u.appCore ac).w 0x090 = id) ∧
        (why = 0 → pt.abJob = false → pt.abPhases.contains (pt.phase + 1) = false → (∀ l ∈ pt.launches, l.id ≠ id) → u.mem = s.mem ∧
          u.part a.part = { pt.addLaunch (id, pt.phase % 2 ^ 16) rc 0 none with acMade := mset pt.acMade ac (made + 1) })))) ∧
  (∀ (s : State) (ac : Nat), ac < 64 →
    let a := s.appCore ac
    let c := (a.w 0x0C0).toNat % 256
    let it := a.w 0x0C8
    let mine : Prop := a.valid = true ∧ s.partNo c = a.part
    let still : Prop := (s.core c).mode = .parked ∨ (s.core c).mode = .halted
    let done (u : State) (st : Nat) : State := u.setApp ac { (u.appCore ac).setW 0x0D8 (BitVec.ofNat 64 st) with caWait := none }
    let fails (st : Nat) : Prop := exec (.caRead ac) s = .next (done s st) ∧ exec (.caWrite ac) s = .next (done s st)
    (a.busy 0x0D8 = true → exec (.caRead ac) s = .next s ∧ exec (.caWrite ac) s = .next s) ∧ (a.busy 0x0D8 = false →
    (¬mine → fails 2) ∧ (mine → ¬still → fails 1) ∧ (mine → still → s.caItem c it = none → fails 3) ∧
    (mine → still → ¬(it.toNat / 2 ^ 61 = 1 ∧ it.toNat % 2 ^ 14 = 0x010) → ∀ v, s.caItem c it = some v → ∃ u, exec (.caRead ac) s = .next u ∧ (u.appCore ac).w 0x0D0 = v ∧
      (u.appCore ac).w 0x0D8 = 0 ∧ u.mem = s.mem ∧ ∀ r, (u.core c).getS r = (s.core c).getS r) ∧
    (mine → still → it.toNat / 2 ^ 61 = 1 → it.toNat % 2 ^ 14 = 0x010 → (s.part a.part).logMode ≤ 1 →
      let now := BitVec.ofNat 64 (s.cycOf c)
      exec (.caRead ac) s = .next (let u := s.acLog a.part ac 1 now
        done (u.setApp ac ((u.appCore ac).setW 0x0D0 now)) 0)) ∧
    (mine → still → it.toNat / 2 ^ 61 = 1 → it.toNat % 2 ^ 14 = 0x010 → s.acCyc ac c = none → ∃ u, exec (.caRead ac) s = .next u ∧
      (u.appCore ac).busy 0x0D8 = true ∧ (u.appCore ac).caWait = some c ∧ u.parts = s.parts) ∧
    (mine → still → ∀ t, s.caPut c it (a.w 0x0D0) = some t → exec (.caWrite ac) s = .next (done (t.remeasured s) 0))) ∧
    (it.toNat / 2 ^ 61 = 0 → s.caPut c it (a.w 0x0D0) = some (s.setCore c ((s.core c).setS (BitVec.ofNat 6 (it.toNat % 64)) (a.w 0x0D0)))) ∧
    (it.toNat / 2 ^ 61 = 3 → s.caItem c it = some (rd64 (s.core c).pad.mem (8 * (it.toNat % 2 ^ 19))))) ∧
  (∀ (s : State) (ac : Nat), ac < 64 →
    let a := s.appCore ac
    let n := (a.w 0x100).toNat % 2 ^ 14
    let d := (a.w 0x100).toNat / 2 ^ 16 % 4
    let ends (t : State) (st : Nat) : State := t.setApp ac ((t.appCore ac).setW 0x110 (BitVec.ofNat 64 st))
    ((a.valid = false ∨ srPortHas n = false) → exec (.srRead ac) s = .next (ends s 3) ∧ exec (.srWrite ac) s = .next (ends s 3)) ∧
    (a.valid = true → srPortHas n = true →
      exec (.srRead ac) s = .next (ends (s.setApp ac (a.setW 0x108 (if srDie n then mget 0 (s.die d).slt (n - 0x280)
        else if n = 0x214 then BitVec.ofNat 64 (s.reserve d) else s.readPart a.part n))) 0) ∧
      (∀ i, srInfo n = some i → i ≠ (0, 0) → exec (.srWrite ac) s =
        .next (ends (State.remeasured (if srDie n then s.writeSlt d n (a.w 0x108) else s.writePart a.part n i (a.w 0x108)) s) 0)) ∧
      (srInfo n = some (0, 0) → exec (.srWrite ac) s = .next (ends s 0)))) ∧
  (∀ (s : State) (c n : Nat) (v : W64),
    ((srInfo n = none ∨ srInfo n = some (0, 0)) → exec (.registerWrite (.sr c n) v) s = .next s) ∧
    (∀ i, srInfo n = some i → i ≠ (0, 0) → srPart n = false → srDie n = false → ∃ k,
      exec (.registerWrite (.sr c n) v) s = .next (s.setCore c k) ∧
      k.getSr n = (((s.core c).getSr n &&& ~~~i.1) ||| (v &&& i.1)) &&& ~~~(v &&& i.2) ∧ ∀ j, j ≠ n → k.getSr j = (s.core c).getSr j)) ∧
  (∀ (s : State) (ac : Nat) (v : W64), ac < 64 →
    exec (.registerWrite (.ac ac 0x0D8) 1) s = exec (.caRead ac) s ∧ exec (.registerWrite (.ac ac 0x0D8) 2) s = exec (.caWrite ac) s ∧
    exec (.registerWrite (.ac ac 0x110) 1) s = exec (.srRead ac) s ∧ exec (.registerWrite (.ac ac 0x110) 2) s = exec (.srWrite ac) s ∧
    exec (.registerWrite (.ac ac 0x018) v) s = exec (.acTlbi ac) s ∧ exec (.registerWrite (.ac ac 0x088) 1) s = exec (.lpLaunch ac) s ∧
    exec (.registerWrite (.ac ac 0x0D0) v) s = .next (s.setApp ac ((s.appCore ac).setW 0x0D0 v)) ∧
    exec (.registerWrite (.ac ac 0x0C0) v) s = .next (s.setApp ac ((s.appCore ac).setW 0x0C0 (v &&& 0xFF))))
end

