-- ==== Sys2Proof/Laws/Bits.lean ====
section
/-!
SUPPORT. Sys2Proof/Laws/Bits.lean: fields of concatenated words, and the codes that are read back as they are written.
-/

namespace Sys2Proof

theorem fld_self {w : Nat} (x : BitVec w) : fld 0 w x = x := by simp [fld]
theorem fld_hi {a b lo n : Nat} (x : BitVec a) (y : BitVec b) (h : b ≤ lo) : fld lo n (x ++ y) = fld (lo - b) n x := by
  apply BitVec.eq_of_getLsbD_eq
  intro i hi
  simp [fld, BitVec.getLsbD_append, hi]
  rw [if_neg (by omega)]
  congr 1; omega
theorem fld_lo {a b lo n : Nat} (x : BitVec a) (y : BitVec b) (h : lo + n ≤ b) : fld lo n (x ++ y) = fld lo n y := by
  apply BitVec.eq_of_getLsbD_eq
  intro i hi
  simp [fld, BitVec.getLsbD_append, hi]
  omega
/-- The two lowest pieces of a word as one field. -/
theorem fld_pair {a b c : Nat} (x : BitVec a) (y : BitVec b) (z : BitVec c) : fld 0 (b + c) (x ++ y ++ z) = y ++ z := by
  apply BitVec.eq_of_getLsbD_eq
  intro i hi
  simp only [fld, BitVec.getLsbD_extractLsb', BitVec.getLsbD_append, hi]
  by_cases h : i < c
  · simp [h]
  · simp [h, show i - c < b by omega]

@[simp] theorem tok_ofBits_bits (t : Tok) : Tok.ofBits t.bits = t := by
  obtain ⟨a, b, c, d⟩ := t
  revert a b c d; decide
@[simp] theorem vty_ofBits_bits (t : VTy) : VTy.ofBits t.bits = t := by cases t <;> rfl
@[simp] theorem rep_ofBits_bits (t : Rep) : Rep.ofBits t.bits = t := by cases t <;> rfl
@[simp] theorem cond_ofBits_bits (t : Cond) : Cond.ofBits t.bits = t := by cases t <;> rfl
@[simp] theorem rmode_ofBits_bits (t : RMode) : RMode.ofBits t.bits = t := by cases t <;> rfl
@[simp] theorem bty_ofBits_bits (t : BTy) : BTy.ofBits t.bits = t := by cases t <;> rfl
@[simp] theorem act_ofBits_bits (t : Act) : Act.ofBits t.bits = t := by cases t <;> rfl
@[simp] theorem bit_eq_one (b : Bool) : (bit b == 1#1) = b := by cases b <;> rfl
@[simp] theorem opt_bit {n : Nat} (b : Bool) (v : BitVec n) : opt (bit b) v = if b then some v else none := by cases b <;> rfl

/-- The fields of an encoded first word are its token bits, its opcode and its body (R44). -/
theorem fieldsOf_encode0 (i : Instr) (w1 : BitVec 32) : fieldsOf (encode0 i) w1 =
    (match (fld 6 2 (opOf i)).toNat with
    | 0 => fieldsFE (fld 0 6 (opOf i)).toNat (tokOf i) (encBody i) (fld 0 28 w1)
    | 1 => fieldsLD (fld 0 6 (opOf i)).toNat (tokOf i) (encBody i) (fld 0 28 w1)
    | 2 => fieldsEX (fld 0 6 (opOf i)).toNat (tokOf i) (encBody i) (fld 0 28 w1)
    | _ => fieldsST (fld 0 6 (opOf i)).toNat (tokOf i) (encBody i) (fld 0 28 w1)) := by
  unfold fieldsOf encode0
  have h1 : fld 28 4 ((tokOf i).bits ++ opOf i ++ encBody i) = (tokOf i).bits := by
    rw [fld_hi _ _ (by decide), fld_hi _ _ (by decide)]; exact fld_self _
  have h2 : fld 20 6 ((tokOf i).bits ++ opOf i ++ encBody i) = fld 0 6 (opOf i) := by
    rw [fld_hi _ _ (by decide), fld_lo _ _ (by decide)]
  have h3 : fld 26 2 ((tokOf i).bits ++ opOf i ++ encBody i) = fld 6 2 (opOf i) := by
    rw [fld_hi _ _ (by decide), fld_lo _ _ (by decide)]
  have h4 : fld 0 20 ((tokOf i).bits ++ opOf i ++ encBody i) = encBody i := by
    rw [fld_lo _ _ (by decide)]; exact fld_self _
  simp only [h1, h2, h3, h4, tok_ofBits_bits]
  all_goals rfl

theorem fieldsOf_fe (i : Instr) (w1 : BitVec 32) (o : BitVec 8) (t : Tok) (b : BitVec 20) (n : Nat) (ho : opOf i = o)
    (ht : tokOf i = t) (hb : encBody i = b) (hq : (fld 6 2 o).toNat = 0) (hn : (fld 0 6 o).toNat = n) :
    fieldsOf (encode0 i) w1 = fieldsFE n t b (fld 0 28 w1) := by
  rw [fieldsOf_encode0, ho, hq, hn, ht, hb]; rfl
theorem fieldsOf_ld (i : Instr) (w1 : BitVec 32) (o : BitVec 8) (t : Tok) (b : BitVec 20) (n : Nat) (ho : opOf i = o)
    (ht : tokOf i = t) (hb : encBody i = b) (hq : (fld 6 2 o).toNat = 1) (hn : (fld 0 6 o).toNat = n) :
    fieldsOf (encode0 i) w1 = fieldsLD n t b (fld 0 28 w1) := by
  rw [fieldsOf_encode0, ho, hq, hn, ht, hb]; rfl
theorem fieldsOf_ex (i : Instr) (w1 : BitVec 32) (o : BitVec 8) (t : Tok) (b : BitVec 20) (n : Nat) (ho : opOf i = o)
    (ht : tokOf i = t) (hb : encBody i = b) (hq : (fld 6 2 o).toNat = 2) (hn : (fld 0 6 o).toNat = n) :
    fieldsOf (encode0 i) w1 = fieldsEX n t b (fld 0 28 w1) := by
  rw [fieldsOf_encode0, ho, hq, hn, ht, hb]; rfl
theorem fieldsOf_st (i : Instr) (w1 : BitVec 32) (o : BitVec 8) (t : Tok) (b : BitVec 20) (n : Nat) (ho : opOf i = o)
    (ht : tokOf i = t) (hb : encBody i = b) (hq : (fld 6 2 o).toNat = 3) (hn : (fld 0 6 o).toNat = n) :
    fieldsOf (encode0 i) w1 = fieldsST n t b (fld 0 28 w1) := by
  rw [fieldsOf_encode0, ho, hq, hn, ht, hb]; rfl

end Sys2Proof
end

