-- ==== Sys2Proof/Laws/Maps.lean ====
section
/-!
SUPPORT. Sys2Proof/Laws/Maps.lean: reading back what was written in a map or a memory, what a write leaves alone, and the
canonical form, which every operation keeps.
-/

namespace Sys2Proof.Machine
open Sys2Proof

variable {α : Type}

theorem mfind_mset_same (m : Map α) (k : Nat) (v : α) : mfind (mset m k v) k = some v := by
  induction m with
  | nil => simp [mset, mfind]
  | cons x t ih =>
    obtain ⟨a, u⟩ := x
    simp only [mset]
    split
    · simp [mfind]
    · split
      · simp [mfind]
      · simp [mfind, *]
theorem mfind_mset_ne (m : Map α) {k j : Nat} (v : α) (h : j ≠ k) : mfind (mset m k v) j = mfind m j := by
  induction m with
  | nil => simp [mset, mfind, Ne.symm h]
  | cons x t ih =>
    obtain ⟨a, u⟩ := x
    simp only [mset]
    split
    · simp [mfind, Ne.symm h]
    · split
      · subst_vars; simp [mfind, Ne.symm h]
      · simp [mfind, ih]
theorem mfind_mdel_same (m : Map α) (k : Nat) : mfind (mdel m k) k = none := by
  induction m with
  | nil => rfl
  | cons x t ih =>
    simp only [mdel]
    split
    · exact ih
    · simp [mfind, *]
theorem mfind_mdel_ne (m : Map α) {k j : Nat} (h : j ≠ k) : mfind (mdel m k) j = mfind m j := by
  induction m with
  | nil => rfl
  | cons x t ih =>
    obtain ⟨a, u⟩ := x
    simp only [mdel]
    split
    · subst_vars; simp [mfind, Ne.symm h, ih]
    · simp [mfind, ih]
@[simp] theorem mget_mset_same (d : α) (m : Map α) (k : Nat) (v : α) : mget d (mset m k v) k = v := by
  simp [mget, mfind_mset_same]
theorem mget_mset_ne (d : α) (m : Map α) {k j : Nat} (v : α) (h : j ≠ k) : mget d (mset m k v) j = mget d m j := by
  simp [mget, mfind_mset_ne m v h]
@[simp] theorem mset_mset_same (m : Map α) (k : Nat) (v w : α) : mset (mset m k v) k w = mset m k w := by
  induction m with
  | nil => simp [mset]
  | cons x t ih =>
    obtain ⟨a, u⟩ := x
    by_cases h1 : k < a
    · simp [mset, h1]
    · by_cases h2 : a = k
      · subst h2; simp [mset]
      · simp [mset, h1, h2, ih]
@[simp] theorem mget_mput_same [DecidableEq α] (d : α) (m : Map α) (k : Nat) (v : α) : mget d (mput d m k v) k = v := by
  unfold mput
  split
  · simp [mget, mfind_mdel_same, *]
  · exact mget_mset_same d m k v
theorem mget_mput_ne [DecidableEq α] (d : α) (m : Map α) {k j : Nat} (v : α) (h : j ≠ k) :
    mget d (mput d m k v) j = mget d m j := by
  unfold mput
  split
  · simp [mget, mfind_mdel_ne m h]
  · exact mget_mset_ne d m v h
theorem mfind_mput_ne [DecidableEq α] (d : α) (m : Map α) {k j : Nat} (v : α) (h : j ≠ k) :
    mfind (mput d m k v) j = mfind m j := by
  unfold mput
  split
  · exact mfind_mdel_ne m h
  · exact mfind_mset_ne m v h

/-! ### The canonical form -/

/-- Every key of the list is above k. -/
def above (k : Nat) (m : Map α) : Prop := ∀ x ∈ m, k < x.1
theorem mwf_cons [DecidableEq α] (d : α) (a : Nat) (v : α) (t : Map α) :
    mwf d ((a, v) :: t) = true ↔ v ≠ d ∧ above a t ∧ mwf d t = true := by
  induction t generalizing a v with
  | nil => simp [mwf, above]
  | cons x t ih =>
    obtain ⟨b, u⟩ := x
    simp only [mwf, Bool.and_eq_true, decide_eq_true_eq]
    constructor
    · rintro ⟨⟨h1, h2⟩, h3⟩
      refine ⟨h2, ?_, h3⟩
      intro y hy
      rcases List.mem_cons.mp hy with rfl | hy
      · exact h1
      · exact Nat.lt_trans h1 (((ih b u).mp h3).2.1 y hy)
    · rintro ⟨h1, h2, h3⟩
      exact ⟨⟨h2 (b, u) (by simp), h1⟩, h3⟩
theorem above_mset {k j : Nat} {m : Map α} (v : α) (h : above k m) (hj : k < j) : above k (mset m j v) := by
  induction m with
  | nil => intro x hx; simp [mset] at hx; subst hx; exact hj
  | cons x t ih =>
    obtain ⟨a, u⟩ := x
    have ht : above k t := fun y hy => h y (by simp [hy])
    have ha : k < a := h (a, u) (by simp)
    simp only [mset]
    intro y hy
    split at hy
    · rcases List.mem_cons.mp hy with rfl | hy
      · exact hj
      · exact h y hy
    · split at hy
      · rcases List.mem_cons.mp hy with rfl | hy
        · exact hj
        · exact ht y hy
      · rcases List.mem_cons.mp hy with rfl | hy
        · exact ha
        · exact ih ht y hy
theorem above_mdel {k : Nat} {m : Map α} (j : Nat) (h : above k m) : above k (mdel m j) := by
  induction m with
  | nil => exact h
  | cons x t ih =>
    have ht : above k t := fun y hy => h y (by simp [hy])
    simp only [mdel]
    split
    · exact ih ht
    · intro y hy
      rcases List.mem_cons.mp hy with rfl | hy
      · exact h _ (by simp)
      · exact ih ht y hy
theorem mwf_mset [DecidableEq α] {d : α} {m : Map α} (k : Nat) {v : α} (hv : v ≠ d) (h : mwf d m = true) :
    mwf d (mset m k v) = true := by
  induction m with
  | nil => simp [mset, mwf, hv]
  | cons x t ih =>
    obtain ⟨a, u⟩ := x
    have h' := (mwf_cons d a u t).mp h
    simp only [mset]
    split
    · rename_i hk
      exact (mwf_cons d k v _).mpr ⟨hv, fun y hy => by
        rcases List.mem_cons.mp hy with rfl | hy
        · exact hk
        · exact Nat.lt_trans hk (h'.2.1 y hy), h⟩
    · split
      · subst_vars; exact (mwf_cons d _ v t).mpr ⟨hv, h'.2.1, h'.2.2⟩
      · exact (mwf_cons d a u _).mpr ⟨h'.1, above_mset v h'.2.1 (by omega), ih h'.2.2⟩
theorem mwf_mdel [DecidableEq α] {d : α} {m : Map α} (k : Nat) (h : mwf d m = true) : mwf d (mdel m k) = true := by
  induction m with
  | nil => exact h
  | cons x t ih =>
    obtain ⟨a, u⟩ := x
    have h' := (mwf_cons d a u t).mp h
    simp only [mdel]
    split
    · exact ih h'.2.2
    · exact (mwf_cons d a u _).mpr ⟨h'.1, above_mdel k h'.2.1, ih h'.2.2⟩
theorem mwf_mput [DecidableEq α] {d : α} {m : Map α} (k : Nat) (v : α) (h : mwf d m = true) :
    mwf d (mput d m k v) = true := by
  unfold mput
  split
  · exact mwf_mdel k h
  · exact mwf_mset k ‹_› h

/-! ### Memories -/

/-- A read after a write of the same address gives what was written. -/
@[simp] theorem rd_wr_same (m : Mem) (a : Nat) (b : Byte) : rd (wr m a b) a = b := mget_mput_same 0 m a b
/-- A write leaves every other address alone. -/
theorem rd_wr_ne (m : Mem) {a x : Nat} (b : Byte) (h : x ≠ a) : rd (wr m a b) x = rd m x := mget_mput_ne 0 m b h
/-- Bytes outside a range that is written keep their values. -/
theorem rd_wrL_out (m : Mem) (a : Nat) (bs : List Byte) {x : Nat} (h : x < a ∨ a + bs.length ≤ x) :
    rd (wrL m a bs) x = rd m x := by
  induction bs generalizing m a with
  | nil => rfl
  | cons b t ih =>
    simp only [List.length_cons] at h
    rw [wrL, ih _ _ (by omega), rd_wr_ne _ _ (by omega)]
/-- Bytes written are read back. -/
theorem rdN_wrL (m : Mem) (a : Nat) (bs : List Byte) : rdN (wrL m a bs) a bs.length = bs := by
  induction bs generalizing m a with
  | nil => rfl
  | cons b t ih =>
    rw [List.length_cons, rdN, wrL, ih, rd_wrL_out _ _ _ (by omega), rd_wr_same]
theorem wf_wr {m : Mem} (a : Nat) (b : Byte) (h : Memory.wf m = true) : Memory.wf (wr m a b) = true := mwf_mput a b h
theorem wf_wrL {m : Mem} (a : Nat) (bs : List Byte) (h : Memory.wf m = true) : Memory.wf (wrL m a bs) = true := by
  induction bs generalizing m a with
  | nil => exact h
  | cons b t ih => exact ih _ (wf_wr a b h)
theorem wf_wr64 {m : Mem} (a : Nat) (v : W64) (h : Memory.wf m = true) : Memory.wf (wr64 m a v) = true := wf_wrL _ _ h
theorem wf_commitAll {m : Mem} (q : List (Nat × Byte)) (h : Memory.wf m = true) : Memory.wf (commitAll m q) = true := by
  induction q generalizing m with
  | nil => exact h
  | cons x t ih => exact ih (wf_wr x.1 x.2 h)
/-- Two memories that hold the same bytes, written in the canonical form, are equal: the empty memory has it. -/
theorem wf_nil : Memory.wf [] = true := rfl

/-! ### Little-endian numbers (R5) -/

@[simp] theorem toLE_length (n v : Nat) : (toLE n v).length = n := by
  induction n generalizing v with
  | zero => rfl
  | succ n ih => simp [toLE, ih]
theorem leNat_toLE (n v : Nat) : leNat (toLE n v) = v % 256 ^ n := by
  induction n generalizing v with
  | zero => simp [toLE, leNat, Nat.mod_one]
  | succ n ih =>
    rw [toLE, leNat, ih]
    simp only [BitVec.toNat_ofNat]
    rw [show (2 : Nat) ^ 8 = 256 by rfl, show 256 ^ (n + 1) = 256 * 256 ^ n by rw [Nat.pow_succ, Nat.mul_comm]]
    rw [Nat.mod_mul]
/-- A double is read back as it was written. -/
@[simp] theorem rd64_wr64 (m : Mem) (a : Nat) (v : W64) : rd64 (wr64 m a v) a = v := by
  have h := rdN_wrL m a (toLE 8 v.toNat)
  rw [toLE_length] at h
  apply BitVec.eq_of_toNat_eq
  simp only [rd64, wr64, h, leNat_toLE, BitVec.toNat_ofNat]
  have := v.isLt
  omega

end Sys2Proof.Machine
end

