-- ==== Sys2Proof/Laws/PerInstr.lean ====
section
/-!
SUPPORT. Sys2Proof/Laws/PerInstr.lean: for every instruction, the fields read from its words are the instruction (R44 to R63): no
bit of an encoding is dropped.
-/

namespace Sys2Proof.Laws.Fields
open Sys2Proof

/-- The opcode map reads an instruction back from its words. -/
def Statement (i : Instr) : Prop :=
  i.isEvent = false → i.wf = true → ∀ w1, (∀ x, encode1 i = some x → w1 = x) → fieldsOf (encode0 i) w1 = some i


theorem add (t : Tok) (d : Sreg) (a : Sreg) (b : Sreg) : Statement (.add t d a b) := by
  intro _ _ w1 _
  rw [fieldsOf_fe (.add t d a b : Instr) w1 0x00#8 t (d ++ a ++ b ++ 0#2) 0x00 rfl rfl rfl (by decide) (by decide)]
  (simp (disch := decide) only [fieldsFE, fld_lo, fld_hi, fld_self, Nat.reduceSub, Nat.sub_self]; try simp)

theorem sub (t : Tok) (d : Sreg) (a : Sreg) (b : Sreg) : Statement (.sub t d a b) := by
  intro _ _ w1 _
  rw [fieldsOf_fe (.sub t d a b : Instr) w1 0x00#8 t (d ++ a ++ b ++ 1#2) 0x00 rfl rfl rfl (by decide) (by decide)]
  (simp (disch := decide) only [fieldsFE, fld_lo, fld_hi, fld_self, Nat.reduceSub, Nat.sub_self]; try simp)

theorem and (t : Tok) (d : Sreg) (a : Sreg) (b : Sreg) : Statement (.and t d a b) := by
  intro _ _ w1 _
  rw [fieldsOf_fe (.and t d a b : Instr) w1 0x00#8 t (d ++ a ++ b ++ 2#2) 0x00 rfl rfl rfl (by decide) (by decide)]
  (simp (disch := decide) only [fieldsFE, fld_lo, fld_hi, fld_self, Nat.reduceSub, Nat.sub_self]; try simp)

theorem or (t : Tok) (d : Sreg) (a : Sreg) (b : Sreg) : Statement (.or t d a b) := by
  intro _ _ w1 _
  rw [fieldsOf_fe (.or t d a b : Instr) w1 0x00#8 t (d ++ a ++ b ++ 3#2) 0x00 rfl rfl rfl (by decide) (by decide)]
  (simp (disch := decide) only [fieldsFE, fld_lo, fld_hi, fld_self, Nat.reduceSub, Nat.sub_self]; try simp)

theorem xor (t : Tok) (d : Sreg) (a : Sreg) (b : Sreg) : Statement (.xor t d a b) := by
  intro _ _ w1 _
  rw [fieldsOf_fe (.xor t d a b : Instr) w1 0x01#8 t (d ++ a ++ b ++ 0#2) 0x01 rfl rfl rfl (by decide) (by decide)]
  (simp (disch := decide) only [fieldsFE, fld_lo, fld_hi, fld_self, Nat.reduceSub, Nat.sub_self]; try simp)

theorem shl (t : Tok) (d : Sreg) (a : Sreg) (b : Sreg) : Statement (.shl t d a b) := by
  intro _ _ w1 _
  rw [fieldsOf_fe (.shl t d a b : Instr) w1 0x01#8 t (d ++ a ++ b ++ 1#2) 0x01 rfl rfl rfl (by decide) (by decide)]
  (simp (disch := decide) only [fieldsFE, fld_lo, fld_hi, fld_self, Nat.reduceSub, Nat.sub_self]; try simp)

theorem shr (t : Tok) (d : Sreg) (a : Sreg) (b : Sreg) : Statement (.shr t d a b) := by
  intro _ _ w1 _
  rw [fieldsOf_fe (.shr t d a b : Instr) w1 0x01#8 t (d ++ a ++ b ++ 2#2) 0x01 rfl rfl rfl (by decide) (by decide)]
  (simp (disch := decide) only [fieldsFE, fld_lo, fld_hi, fld_self, Nat.reduceSub, Nat.sub_self]; try simp)

theorem sra (t : Tok) (d : Sreg) (a : Sreg) (b : Sreg) : Statement (.sra t d a b) := by
  intro _ _ w1 _
  rw [fieldsOf_fe (.sra t d a b : Instr) w1 0x01#8 t (d ++ a ++ b ++ 3#2) 0x01 rfl rfl rfl (by decide) (by decide)]
  (simp (disch := decide) only [fieldsFE, fld_lo, fld_hi, fld_self, Nat.reduceSub, Nat.sub_self]; try simp)

theorem slt (t : Tok) (d : Sreg) (a : Sreg) (b : Sreg) : Statement (.slt t d a b) := by
  intro _ _ w1 _
  rw [fieldsOf_fe (.slt t d a b : Instr) w1 0x02#8 t (d ++ a ++ b ++ 0#2) 0x02 rfl rfl rfl (by decide) (by decide)]
  (simp (disch := decide) only [fieldsFE, fld_lo, fld_hi, fld_self, Nat.reduceSub, Nat.sub_self]; try simp)

theorem sltn (t : Tok) (d : Sreg) (a : Sreg) (b : Sreg) : Statement (.sltn t d a b) := by
  intro _ _ w1 _
  rw [fieldsOf_fe (.sltn t d a b : Instr) w1 0x02#8 t (d ++ a ++ b ++ 1#2) 0x02 rfl rfl rfl (by decide) (by decide)]
  (simp (disch := decide) only [fieldsFE, fld_lo, fld_hi, fld_self, Nat.reduceSub, Nat.sub_self]; try simp)

theorem seq (t : Tok) (d : Sreg) (a : Sreg) (b : Sreg) : Statement (.seq t d a b) := by
  intro _ _ w1 _
  rw [fieldsOf_fe (.seq t d a b : Instr) w1 0x02#8 t (d ++ a ++ b ++ 2#2) 0x02 rfl rfl rfl (by decide) (by decide)]
  (simp (disch := decide) only [fieldsFE, fld_lo, fld_hi, fld_self, Nat.reduceSub, Nat.sub_self]; try simp)

theorem sel (t : Tok) (d : Sreg) (a : Sreg) (b : Sreg) : Statement (.sel t d a b) := by
  intro _ _ w1 _
  rw [fieldsOf_fe (.sel t d a b : Instr) w1 0x02#8 t (d ++ a ++ b ++ 3#2) 0x02 rfl rfl rfl (by decide) (by decide)]
  (simp (disch := decide) only [fieldsFE, fld_lo, fld_hi, fld_self, Nat.reduceSub, Nat.sub_self]; try simp)

theorem min (t : Tok) (d : Sreg) (a : Sreg) (b : Sreg) : Statement (.min t d a b) := by
  intro _ _ w1 _
  rw [fieldsOf_fe (.min t d a b : Instr) w1 0x03#8 t (d ++ a ++ b ++ 0#2) 0x03 rfl rfl rfl (by decide) (by decide)]
  (simp (disch := decide) only [fieldsFE, fld_lo, fld_hi, fld_self, Nat.reduceSub, Nat.sub_self]; try simp)

theorem max (t : Tok) (d : Sreg) (a : Sreg) (b : Sreg) : Statement (.max t d a b) := by
  intro _ _ w1 _
  rw [fieldsOf_fe (.max t d a b : Instr) w1 0x03#8 t (d ++ a ++ b ++ 1#2) 0x03 rfl rfl rfl (by decide) (by decide)]
  (simp (disch := decide) only [fieldsFE, fld_lo, fld_hi, fld_self, Nat.reduceSub, Nat.sub_self]; try simp)

theorem minn (t : Tok) (d : Sreg) (a : Sreg) (b : Sreg) : Statement (.minn t d a b) := by
  intro _ _ w1 _
  rw [fieldsOf_fe (.minn t d a b : Instr) w1 0x03#8 t (d ++ a ++ b ++ 2#2) 0x03 rfl rfl rfl (by decide) (by decide)]
  (simp (disch := decide) only [fieldsFE, fld_lo, fld_hi, fld_self, Nat.reduceSub, Nat.sub_self]; try simp)

theorem maxn (t : Tok) (d : Sreg) (a : Sreg) (b : Sreg) : Statement (.maxn t d a b) := by
  intro _ _ w1 _
  rw [fieldsOf_fe (.maxn t d a b : Instr) w1 0x03#8 t (d ++ a ++ b ++ 3#2) 0x03 rfl rfl rfl (by decide) (by decide)]
  (simp (disch := decide) only [fieldsFE, fld_lo, fld_hi, fld_self, Nat.reduceSub, Nat.sub_self]; try simp)

theorem mul (t : Tok) (d : Sreg) (a : Sreg) (b : Sreg) : Statement (.mul t d a b) := by
  intro _ _ w1 _
  rw [fieldsOf_fe (.mul t d a b : Instr) w1 0x04#8 t (d ++ a ++ b ++ 0#2) 0x04 rfl rfl rfl (by decide) (by decide)]
  (simp (disch := decide) only [fieldsFE, fld_lo, fld_hi, fld_self, Nat.reduceSub, Nat.sub_self]; try simp)

theorem mulh (t : Tok) (d : Sreg) (a : Sreg) (b : Sreg) : Statement (.mulh t d a b) := by
  intro _ _ w1 _
  rw [fieldsOf_fe (.mulh t d a b : Instr) w1 0x04#8 t (d ++ a ++ b ++ 1#2) 0x04 rfl rfl rfl (by decide) (by decide)]
  (simp (disch := decide) only [fieldsFE, fld_lo, fld_hi, fld_self, Nat.reduceSub, Nat.sub_self]; try simp)

theorem mulhn (t : Tok) (d : Sreg) (a : Sreg) (b : Sreg) : Statement (.mulhn t d a b) := by
  intro _ _ w1 _
  rw [fieldsOf_fe (.mulhn t d a b : Instr) w1 0x04#8 t (d ++ a ++ b ++ 2#2) 0x04 rfl rfl rfl (by decide) (by decide)]
  (simp (disch := decide) only [fieldsFE, fld_lo, fld_hi, fld_self, Nat.reduceSub, Nat.sub_self]; try simp)

theorem div (t : Tok) (d : Sreg) (a : Sreg) (b : Sreg) : Statement (.div t d a b) := by
  intro _ _ w1 _
  rw [fieldsOf_fe (.div t d a b : Instr) w1 0x05#8 t (d ++ a ++ b ++ 0#2) 0x05 rfl rfl rfl (by decide) (by decide)]
  (simp (disch := decide) only [fieldsFE, fld_lo, fld_hi, fld_self, Nat.reduceSub, Nat.sub_self]; try simp)

theorem divn (t : Tok) (d : Sreg) (a : Sreg) (b : Sreg) : Statement (.divn t d a b) := by
  intro _ _ w1 _
  rw [fieldsOf_fe (.divn t d a b : Instr) w1 0x05#8 t (d ++ a ++ b ++ 1#2) 0x05 rfl rfl rfl (by decide) (by decide)]
  (simp (disch := decide) only [fieldsFE, fld_lo, fld_hi, fld_self, Nat.reduceSub, Nat.sub_self]; try simp)

theorem rem (t : Tok) (d : Sreg) (a : Sreg) (b : Sreg) : Statement (.rem t d a b) := by
  intro _ _ w1 _
  rw [fieldsOf_fe (.rem t d a b : Instr) w1 0x05#8 t (d ++ a ++ b ++ 2#2) 0x05 rfl rfl rfl (by decide) (by decide)]
  (simp (disch := decide) only [fieldsFE, fld_lo, fld_hi, fld_self, Nat.reduceSub, Nat.sub_self]; try simp)

theorem remn (t : Tok) (d : Sreg) (a : Sreg) (b : Sreg) : Statement (.remn t d a b) := by
  intro _ _ w1 _
  rw [fieldsOf_fe (.remn t d a b : Instr) w1 0x05#8 t (d ++ a ++ b ++ 3#2) 0x05 rfl rfl rfl (by decide) (by decide)]
  (simp (disch := decide) only [fieldsFE, fld_lo, fld_hi, fld_self, Nat.reduceSub, Nat.sub_self]; try simp)

theorem clz (t : Tok) (d : Sreg) (a : Sreg) : Statement (.clz t d a) := by
  intro _ _ w1 _
  rw [fieldsOf_fe (.clz t d a : Instr) w1 0x06#8 t (d ++ a ++ 0#6 ++ 0#2) 0x06 rfl rfl rfl (by decide) (by decide)]
  (simp (disch := decide) only [fieldsFE, fld_lo, fld_hi, fld_self, Nat.reduceSub, Nat.sub_self]; try simp)

theorem ctz (t : Tok) (d : Sreg) (a : Sreg) : Statement (.ctz t d a) := by
  intro _ _ w1 _
  rw [fieldsOf_fe (.ctz t d a : Instr) w1 0x06#8 t (d ++ a ++ 0#6 ++ 1#2) 0x06 rfl rfl rfl (by decide) (by decide)]
  (simp (disch := decide) only [fieldsFE, fld_lo, fld_hi, fld_self, Nat.reduceSub, Nat.sub_self]; try simp)

theorem popc (t : Tok) (d : Sreg) (a : Sreg) : Statement (.popc t d a) := by
  intro _ _ w1 _
  rw [fieldsOf_fe (.popc t d a : Instr) w1 0x06#8 t (d ++ a ++ 0#6 ++ 2#2) 0x06 rfl rfl rfl (by decide) (by decide)]
  (simp (disch := decide) only [fieldsFE, fld_lo, fld_hi, fld_self, Nat.reduceSub, Nat.sub_self]; try simp)

theorem addi (t : Tok) (d : Sreg) (a : Sreg) (imm : BitVec 8) : Statement (.addi t d a imm) := by
  intro _ _ w1 _
  rw [fieldsOf_fe (.addi t d a imm : Instr) w1 0x08#8 t (d ++ a ++ imm) 0x08 rfl rfl rfl (by decide) (by decide)]
  (simp (disch := decide) only [fieldsFE, fld_lo, fld_hi, fld_self, Nat.reduceSub, Nat.sub_self]; try simp)

theorem andi (t : Tok) (d : Sreg) (a : Sreg) (imm : BitVec 8) : Statement (.andi t d a imm) := by
  intro _ _ w1 _
  rw [fieldsOf_fe (.andi t d a imm : Instr) w1 0x09#8 t (d ++ a ++ imm) 0x09 rfl rfl rfl (by decide) (by decide)]
  (simp (disch := decide) only [fieldsFE, fld_lo, fld_hi, fld_self, Nat.reduceSub, Nat.sub_self]; try simp)

theorem ori (t : Tok) (d : Sreg) (a : Sreg) (imm : BitVec 8) : Statement (.ori t d a imm) := by
  intro _ _ w1 _
  rw [fieldsOf_fe (.ori t d a imm : Instr) w1 0x0A#8 t (d ++ a ++ imm) 0x0A rfl rfl rfl (by decide) (by decide)]
  (simp (disch := decide) only [fieldsFE, fld_lo, fld_hi, fld_self, Nat.reduceSub, Nat.sub_self]; try simp)

theorem xori (t : Tok) (d : Sreg) (a : Sreg) (imm : BitVec 8) : Statement (.xori t d a imm) := by
  intro _ _ w1 _
  rw [fieldsOf_fe (.xori t d a imm : Instr) w1 0x0B#8 t (d ++ a ++ imm) 0x0B rfl rfl rfl (by decide) (by decide)]
  (simp (disch := decide) only [fieldsFE, fld_lo, fld_hi, fld_self, Nat.reduceSub, Nat.sub_self]; try simp)

theorem shli (t : Tok) (d : Sreg) (a : Sreg) (imm : BitVec 6) : Statement (.shli t d a imm) := by
  intro _ _ w1 _
  rw [fieldsOf_fe (.shli t d a imm : Instr) w1 0x0C#8 t (d ++ a ++ 0#2 ++ imm) 0x0C rfl rfl rfl (by decide) (by decide)]
  (simp (disch := decide) only [fieldsFE, fld_lo, fld_hi, fld_self, Nat.reduceSub, Nat.sub_self]; try simp)

theorem shri (t : Tok) (d : Sreg) (a : Sreg) (imm : BitVec 6) : Statement (.shri t d a imm) := by
  intro _ _ w1 _
  rw [fieldsOf_fe (.shri t d a imm : Instr) w1 0x0D#8 t (d ++ a ++ 0#2 ++ imm) 0x0D rfl rfl rfl (by decide) (by decide)]
  (simp (disch := decide) only [fieldsFE, fld_lo, fld_hi, fld_self, Nat.reduceSub, Nat.sub_self]; try simp)

theorem srai (t : Tok) (d : Sreg) (a : Sreg) (imm : BitVec 6) : Statement (.srai t d a imm) := by
  intro _ _ w1 _
  rw [fieldsOf_fe (.srai t d a imm : Instr) w1 0x0E#8 t (d ++ a ++ 0#2 ++ imm) 0x0E rfl rfl rfl (by decide) (by decide)]
  (simp (disch := decide) only [fieldsFE, fld_lo, fld_hi, fld_self, Nat.reduceSub, Nat.sub_self]; try simp)

theorem slti (t : Tok) (d : Sreg) (a : Sreg) (imm : BitVec 8) : Statement (.slti t d a imm) := by
  intro _ _ w1 _
  rw [fieldsOf_fe (.slti t d a imm : Instr) w1 0x0F#8 t (d ++ a ++ imm) 0x0F rfl rfl rfl (by decide) (by decide)]
  (simp (disch := decide) only [fieldsFE, fld_lo, fld_hi, fld_self, Nat.reduceSub, Nat.sub_self]; try simp)

theorem movi (t : Tok) (d : Sreg) (hi : BitVec 14) (lo : BitVec 28) : Statement (.movi t d hi lo) := by
  intro _ _ w1 hw
  rw [hw _ rfl, fieldsOf_fe (.movi t d hi lo : Instr) _ 0x10#8 t (d ++ hi) 0x10 rfl rfl rfl (by decide) (by decide)]
  show fieldsFE 0x10 t (d ++ hi) (fld 0 28 (0#4 ++ ((lo)))) = _
  (simp (disch := decide) only [fieldsFE, fld_lo, fld_hi, fld_self, Nat.reduceSub, Nat.sub_self]; try simp)

theorem movhi (t : Tok) (d : Sreg) (hi : BitVec 14) (lo : BitVec 8) : Statement (.movhi t d hi lo) := by
  intro _ _ w1 hw
  rw [hw _ rfl, fieldsOf_fe (.movhi t d hi lo : Instr) _ 0x11#8 t (d ++ hi) 0x11 rfl rfl rfl (by decide) (by decide)]
  show fieldsFE 0x11 t (d ++ hi) (fld 0 28 (0#4 ++ ((lo ++ 0#20)))) = _
  (simp (disch := decide) only [fieldsFE, fld_lo, fld_hi, fld_self, Nat.reduceSub, Nat.sub_self]; try simp)

theorem j (t : Tok) (off : BitVec 20) : Statement (.j t off) := by
  intro _ _ w1 _
  rw [fieldsOf_fe (.j t off : Instr) w1 0x12#8 t (off) 0x12 rfl rfl rfl (by decide) (by decide)]
  (simp (disch := decide) only [fieldsFE, fld_lo, fld_hi, fld_self, Nat.reduceSub, Nat.sub_self]; try simp)

theorem jl (t : Tok) (off : BitVec 20) : Statement (.jl t off) := by
  intro _ _ w1 _
  rw [fieldsOf_fe (.jl t off : Instr) w1 0x13#8 t (off) 0x13 rfl rfl rfl (by decide) (by decide)]
  (simp (disch := decide) only [fieldsFE, fld_lo, fld_hi, fld_self, Nat.reduceSub, Nat.sub_self]; try simp)

theorem jr (t : Tok) (a : Sreg) : Statement (.jr t a) := by
  intro _ _ w1 _
  rw [fieldsOf_fe (.jr t a : Instr) w1 0x14#8 t (0#6 ++ a ++ 0#8) 0x14 rfl rfl rfl (by decide) (by decide)]
  (simp (disch := decide) only [fieldsFE, fld_lo, fld_hi, fld_self, Nat.reduceSub, Nat.sub_self]; try simp)

theorem bz (t : Tok) (a : Sreg) (off : BitVec 13) : Statement (.bz t a off) := by
  intro _ _ w1 _
  rw [fieldsOf_fe (.bz t a off : Instr) w1 0x15#8 t (a ++ 0#1 ++ off) 0x15 rfl rfl rfl (by decide) (by decide)]
  (simp (disch := decide) only [fieldsFE, fld_lo, fld_hi, fld_self, Nat.reduceSub, Nat.sub_self]; try simp)

theorem bnz (t : Tok) (a : Sreg) (off : BitVec 13) : Statement (.bnz t a off) := by
  intro _ _ w1 _
  rw [fieldsOf_fe (.bnz t a off : Instr) w1 0x16#8 t (a ++ 0#1 ++ off) 0x16 rfl rfl rfl (by decide) (by decide)]
  (simp (disch := decide) only [fieldsFE, fld_lo, fld_hi, fld_self, Nat.reduceSub, Nat.sub_self]; try simp)

theorem bltz (t : Tok) (a : Sreg) (off : BitVec 13) : Statement (.bltz t a off) := by
  intro _ _ w1 _
  rw [fieldsOf_fe (.bltz t a off : Instr) w1 0x17#8 t (a ++ 0#1 ++ off) 0x17 rfl rfl rfl (by decide) (by decide)]
  (simp (disch := decide) only [fieldsFE, fld_lo, fld_hi, fld_self, Nat.reduceSub, Nat.sub_self]; try simp)

theorem bgez (t : Tok) (a : Sreg) (off : BitVec 13) : Statement (.bgez t a off) := by
  intro _ _ w1 _
  rw [fieldsOf_fe (.bgez t a off : Instr) w1 0x18#8 t (a ++ 0#1 ++ off) 0x18 rfl rfl rfl (by decide) (by decide)]
  (simp (disch := decide) only [fieldsFE, fld_lo, fld_hi, fld_self, Nat.reduceSub, Nat.sub_self]; try simp)

theorem loop (t : Tok) (a : Sreg) (rot : Bool) (off : BitVec 13) : Statement (.loop t a rot off) := by
  intro _ _ w1 _
  rw [fieldsOf_fe (.loop t a rot off : Instr) w1 0x19#8 t (a ++ (bit rot) ++ off) 0x19 rfl rfl rfl (by decide) (by decide)]
  (simp (disch := decide) only [fieldsFE, fld_lo, fld_hi, fld_self, Nat.reduceSub, Nat.sub_self]; try simp)

theorem spill (t : Tok) (d : Sreg) (slot : BitVec 9) : Statement (.spill t d slot) := by
  intro _ _ w1 _
  rw [fieldsOf_fe (.spill t d slot : Instr) w1 0x1A#8 t (d ++ 0#5 ++ slot) 0x1A rfl rfl rfl (by decide) (by decide)]
  (simp (disch := decide) only [fieldsFE, fld_lo, fld_hi, fld_self, Nat.reduceSub, Nat.sub_self]; try simp)

theorem fill (t : Tok) (d : Sreg) (slot : BitVec 9) : Statement (.fill t d slot) := by
  intro _ _ w1 _
  rw [fieldsOf_fe (.fill t d slot : Instr) w1 0x1B#8 t (d ++ 0#5 ++ slot) 0x1B rfl rfl rfl (by decide) (by decide)]
  (simp (disch := decide) only [fieldsFE, fld_lo, fld_hi, fld_self, Nat.reduceSub, Nat.sub_self]; try simp)

theorem lds (t : Tok) (d : Sreg) (a : Sreg) (imm : BitVec 8) : Statement (.lds t d a imm) := by
  intro _ _ w1 _
  rw [fieldsOf_fe (.lds t d a imm : Instr) w1 0x1C#8 t (d ++ a ++ imm) 0x1C rfl rfl rfl (by decide) (by decide)]
  (simp (disch := decide) only [fieldsFE, fld_lo, fld_hi, fld_self, Nat.reduceSub, Nat.sub_self]; try simp)

theorem sts (t : Tok) (d : Sreg) (a : Sreg) (imm : BitVec 8) : Statement (.sts t d a imm) := by
  intro _ _ w1 _
  rw [fieldsOf_fe (.sts t d a imm : Instr) w1 0x1D#8 t (d ++ a ++ imm) 0x1D rfl rfl rfl (by decide) (by decide)]
  (simp (disch := decide) only [fieldsFE, fld_lo, fld_hi, fld_self, Nat.reduceSub, Nat.sub_self]; try simp)

theorem hset (t : Tok) (hd : Hreg) (a : Sreg) (f : BitVec 5) : Statement (.hset t hd a f) := by
  intro _ _ w1 _
  rw [fieldsOf_fe (.hset t hd a f : Instr) w1 0x1E#8 t (hd ++ a ++ 0#4 ++ f) 0x1E rfl rfl rfl (by decide) (by decide)]
  (simp (disch := decide) only [fieldsFE, fld_lo, fld_hi, fld_self, Nat.reduceSub, Nat.sub_self]; try simp)

theorem hget (t : Tok) (hd : Hreg) (a : Sreg) (f : BitVec 5) : Statement (.hget t hd a f) := by
  intro _ _ w1 _
  rw [fieldsOf_fe (.hget t hd a f : Instr) w1 0x1F#8 t (hd ++ a ++ 0#4 ++ f) 0x1F rfl rfl rfl (by decide) (by decide)]
  (simp (disch := decide) only [fieldsFE, fld_lo, fld_hi, fld_self, Nat.reduceSub, Nat.sub_self]; try simp)

theorem hmov (t : Tok) (hd : Hreg) (ha : Hreg) : Statement (.hmov t hd ha) := by
  intro _ _ w1 _
  rw [fieldsOf_fe (.hmov t hd ha : Instr) w1 0x20#8 t (hd ++ ha ++ 0#10) 0x20 rfl rfl rfl (by decide) (by decide)]
  (simp (disch := decide) only [fieldsFE, fld_lo, fld_hi, fld_self, Nat.reduceSub, Nat.sub_self]; try simp)

theorem hld (t : Tok) (hd : Hreg) (a : Sreg) (off : BitVec 8) : Statement (.hld t hd a off) := by
  intro _ _ w1 _
  rw [fieldsOf_fe (.hld t hd a off : Instr) w1 0x21#8 t (hd ++ a ++ 0#1 ++ off) 0x21 rfl rfl rfl (by decide) (by decide)]
  (simp (disch := decide) only [fieldsFE, fld_lo, fld_hi, fld_self, Nat.reduceSub, Nat.sub_self]; try simp)

theorem hldSpill (t : Tok) (hd : Hreg) (slot4 : BitVec 7) : Statement (.hldSpill t hd slot4) := by
  intro _ _ w1 _
  rw [fieldsOf_fe (.hldSpill t hd slot4 : Instr) w1 0x21#8 t (hd ++ 0#6 ++ 1#1 ++ 0#1 ++ slot4) 0x21 rfl rfl rfl (by decide) (by decide)]
  (simp (disch := decide) only [fieldsFE, fld_lo, fld_hi, fld_self, Nat.reduceSub, Nat.sub_self]; try simp)

theorem hst (t : Tok) (hd : Hreg) (a : Sreg) (off : BitVec 8) : Statement (.hst t hd a off) := by
  intro _ _ w1 _
  rw [fieldsOf_fe (.hst t hd a off : Instr) w1 0x22#8 t (hd ++ a ++ 0#1 ++ off) 0x22 rfl rfl rfl (by decide) (by decide)]
  (simp (disch := decide) only [fieldsFE, fld_lo, fld_hi, fld_self, Nat.reduceSub, Nat.sub_self]; try simp)

theorem hstSpill (t : Tok) (hd : Hreg) (slot4 : BitVec 7) : Statement (.hstSpill t hd slot4) := by
  intro _ _ w1 _
  rw [fieldsOf_fe (.hstSpill t hd slot4 : Instr) w1 0x22#8 t (hd ++ 0#6 ++ 1#1 ++ 0#1 ++ slot4) 0x22 rfl rfl rfl (by decide) (by decide)]
  (simp (disch := decide) only [fieldsFE, fld_lo, fld_hi, fld_self, Nat.reduceSub, Nat.sub_self]; try simp)

theorem hadv (t : Tok) (hd : Hreg) (a : Sreg) (dim : BitVec 3) : Statement (.hadv t hd a dim) := by
  intro _ _ w1 _
  rw [fieldsOf_fe (.hadv t hd a dim : Instr) w1 0x23#8 t (hd ++ a ++ 0#6 ++ dim) 0x23 rfl rfl rfl (by decide) (by decide)]
  (simp (disch := decide) only [fieldsFE, fld_lo, fld_hi, fld_self, Nat.reduceSub, Nat.sub_self]; try simp)

theorem movsr (t : Tok) (d : Sreg) (n : BitVec 14) : Statement (.movsr t d n) := by
  intro _ _ w1 _
  rw [fieldsOf_fe (.movsr t d n : Instr) w1 0x24#8 t (d ++ n) 0x24 rfl rfl rfl (by decide) (by decide)]
  (simp (disch := decide) only [fieldsFE, fld_lo, fld_hi, fld_self, Nat.reduceSub, Nat.sub_self]; try simp)

theorem movrs (t : Tok) (d : Sreg) (n : BitVec 14) : Statement (.movrs t d n) := by
  intro _ _ w1 _
  rw [fieldsOf_fe (.movrs t d n : Instr) w1 0x25#8 t (d ++ n) 0x25 rfl rfl rfl (by decide) (by decide)]
  (simp (disch := decide) only [fieldsFE, fld_lo, fld_hi, fld_self, Nat.reduceSub, Nat.sub_self]; try simp)

theorem region (t : Tok) (n : Bool) : Statement (.region t n) := by
  intro _ _ w1 _
  rw [fieldsOf_fe (.region t n : Instr) w1 0x26#8 t (0#6 ++ 0#13 ++ (bit n)) 0x26 rfl rfl rfl (by decide) (by decide)]
  (simp (disch := decide) only [fieldsFE, fld_lo, fld_hi, fld_self, Nat.reduceSub, Nat.sub_self]; try simp)

theorem waita (t : Tok) (d : Sreg) (a : Sreg) (v : Sreg) (u : Sreg) (cond : Cond) : Statement (.waita t d a v u cond) := by
  intro _ _ w1 hw
  rw [hw _ rfl, fieldsOf_fe (.waita t d a v u cond : Instr) _ 0x27#8 t (d ++ a ++ 0#8) 0x27 rfl rfl rfl (by decide) (by decide)]
  show fieldsFE 0x27 t (d ++ a ++ 0#8) (fld 0 28 (0#4 ++ ((v ++ u ++ cond.bits ++ 0#12)))) = _
  (simp (disch := decide) only [fieldsFE, fld_lo, fld_hi, fld_self, Nat.reduceSub, Nat.sub_self]; try simp)

theorem poll (t : Tok) (d : Sreg) : Statement (.poll t d) := by
  intro _ _ w1 _
  rw [fieldsOf_fe (.poll t d : Instr) w1 0x28#8 t (d ++ 0#14) 0x28 rfl rfl rfl (by decide) (by decide)]
  (simp (disch := decide) only [fieldsFE, fld_lo, fld_hi, fld_self, Nat.reduceSub, Nat.sub_self]; try simp)

theorem abort (t : Tok) (lvl : BitVec 2) : Statement (.abort t lvl) := by
  intro _ _ w1 _
  rw [fieldsOf_fe (.abort t lvl : Instr) w1 0x29#8 t (0#6 ++ 0#12 ++ lvl) 0x29 rfl rfl rfl (by decide) (by decide)]
  (simp (disch := decide) only [fieldsFE, fld_lo, fld_hi, fld_self, Nat.reduceSub, Nat.sub_self]; try simp)

theorem phase (t : Tok) (d : Sreg) : Statement (.phase t d) := by
  intro _ _ w1 _
  rw [fieldsOf_fe (.phase t d : Instr) w1 0x2A#8 t (d ++ 0#14) 0x2A rfl rfl rfl (by decide) (by decide)]
  (simp (disch := decide) only [fieldsFE, fld_lo, fld_hi, fld_self, Nat.reduceSub, Nat.sub_self]; try simp)

theorem done (t : Tok) : Statement (.done t) := by
  intro _ _ w1 _
  rw [fieldsOf_fe (.done t : Instr) w1 0x2B#8 t (0#20) 0x2B rfl rfl rfl (by decide) (by decide)]
  (simp (disch := decide) only [fieldsFE, fld_lo, fld_hi, fld_self, Nat.reduceSub, Nat.sub_self]; try simp)

theorem launch (t : Tok) (d : Sreg) (a : Sreg) : Statement (.launch t d a) := by
  intro _ _ w1 _
  rw [fieldsOf_fe (.launch t d a : Instr) w1 0x2C#8 t (d ++ a ++ 0#8) 0x2C rfl rfl rfl (by decide) (by decide)]
  (simp (disch := decide) only [fieldsFE, fld_lo, fld_hi, fld_self, Nat.reduceSub, Nat.sub_self]; try simp)

theorem cancel (t : Tok) (d : Sreg) (a : Sreg) (lvl : BitVec 2) : Statement (.cancel t d a lvl) := by
  intro _ _ w1 _
  rw [fieldsOf_fe (.cancel t d a lvl : Instr) w1 0x2D#8 t (d ++ a ++ 0#6 ++ lvl) 0x2D rfl rfl rfl (by decide) (by decide)]
  (simp (disch := decide) only [fieldsFE, fld_lo, fld_hi, fld_self, Nat.reduceSub, Nat.sub_self]; try simp)

theorem trap (t : Tok) (n : BitVec 14) : Statement (.trap t n) := by
  intro _ _ w1 _
  rw [fieldsOf_fe (.trap t n : Instr) w1 0x2E#8 t (0#6 ++ n) 0x2E rfl rfl rfl (by decide) (by decide)]
  (simp (disch := decide) only [fieldsFE, fld_lo, fld_hi, fld_self, Nat.reduceSub, Nat.sub_self]; try simp)

theorem brk (t : Tok) : Statement (.brk t) := by
  intro _ _ w1 _
  rw [fieldsOf_fe (.brk t : Instr) w1 0x2F#8 t (0#20) 0x2F rfl rfl rfl (by decide) (by decide)]
  (simp (disch := decide) only [fieldsFE, fld_lo, fld_hi, fld_self, Nat.reduceSub, Nat.sub_self]; try simp)

theorem eret (t : Tok) : Statement (.eret t) := by
  intro _ _ w1 _
  rw [fieldsOf_fe (.eret t : Instr) w1 0x30#8 t (0#20) 0x30 rfl rfl rfl (by decide) (by decide)]
  (simp (disch := decide) only [fieldsFE, fld_lo, fld_hi, fld_self, Nat.reduceSub, Nat.sub_self]; try simp)

theorem nop (t : Tok) : Statement (.nop t) := by
  intro _ _ w1 _
  rw [fieldsOf_fe (.nop t : Instr) w1 0x31#8 t (0#20) 0x31 rfl rfl rfl (by decide) (by decide)]
  (simp (disch := decide) only [fieldsFE, fld_lo, fld_hi, fld_self, Nat.reduceSub, Nat.sub_self]; try simp)

theorem halt (t : Tok) : Statement (.halt t) := by
  intro _ _ w1 _
  rw [fieldsOf_fe (.halt t : Instr) w1 0x32#8 t (0#20) 0x32 rfl rfl rfl (by decide) (by decide)]
  (simp (disch := decide) only [fieldsFE, fld_lo, fld_hi, fld_self, Nat.reduceSub, Nat.sub_self]; try simp)

theorem pwrDecl (t : Tok) (d : Sreg) (len : BitVec 14) (onset : BitVec 14) (int : BitVec 4) : Statement (.pwrDecl t d len onset int) := by
  intro _ _ w1 hw
  rw [hw _ rfl, fieldsOf_fe (.pwrDecl t d len onset int : Instr) _ 0x33#8 t (d ++ len) 0x33 rfl rfl rfl (by decide) (by decide)]
  show fieldsFE 0x33 t (d ++ len) (fld 0 28 (0#4 ++ ((onset ++ int ++ 0#10)))) = _
  (simp (disch := decide) only [fieldsFE, fld_lo, fld_hi, fld_self, Nat.reduceSub, Nat.sub_self]; try simp)

theorem pwrAcq (t : Tok) (a : Sreg) : Statement (.pwrAcq t a) := by
  intro _ _ w1 _
  rw [fieldsOf_fe (.pwrAcq t a : Instr) w1 0x34#8 t (0#6 ++ a ++ 0#8) 0x34 rfl rfl rfl (by decide) (by decide)]
  (simp (disch := decide) only [fieldsFE, fld_lo, fld_hi, fld_self, Nat.reduceSub, Nat.sub_self]; try simp)

theorem pwrRel (t : Tok) (a : Sreg) : Statement (.pwrRel t a) := by
  intro _ _ w1 _
  rw [fieldsOf_fe (.pwrRel t a : Instr) w1 0x35#8 t (0#6 ++ a ++ 0#8) 0x35 rfl rfl rfl (by decide) (by decide)]
  (simp (disch := decide) only [fieldsFE, fld_lo, fld_hi, fld_self, Nat.reduceSub, Nat.sub_self]; try simp)

theorem specBegin (t : Tok) (hc : Hreg) (hg : Hreg) (wm1 : BitVec 3) (off : BitVec 28) : Statement (.specBegin t hc hg wm1 off) := by
  intro _ _ w1 hw
  rw [hw _ rfl, fieldsOf_fe (.specBegin t hc hg wm1 off : Instr) _ 0x36#8 t (hc ++ hg ++ wm1 ++ 0#7) 0x36 rfl rfl rfl (by decide) (by decide)]
  show fieldsFE 0x36 t (hc ++ hg ++ wm1 ++ 0#7) (fld 0 28 (0#4 ++ ((off)))) = _
  (simp (disch := decide) only [fieldsFE, fld_lo, fld_hi, fld_self, Nat.reduceSub, Nat.sub_self]; try simp)

theorem specGo (t : Tok) : Statement (.specGo t) := by
  intro _ _ w1 _
  rw [fieldsOf_fe (.specGo t : Instr) w1 0x37#8 t (0#20) 0x37 rfl rfl rfl (by decide) (by decide)]
  (simp (disch := decide) only [fieldsFE, fld_lo, fld_hi, fld_self, Nat.reduceSub, Nat.sub_self]; try simp)

theorem specCommit (t : Tok) : Statement (.specCommit t) := by
  intro _ _ w1 _
  rw [fieldsOf_fe (.specCommit t : Instr) w1 0x38#8 t (0#20) 0x38 rfl rfl rfl (by decide) (by decide)]
  (simp (disch := decide) only [fieldsFE, fld_lo, fld_hi, fld_self, Nat.reduceSub, Nat.sub_self]; try simp)

theorem specAbort (t : Tok) : Statement (.specAbort t) := by
  intro _ _ w1 _
  rw [fieldsOf_fe (.specAbort t : Instr) w1 0x39#8 t (0#20) 0x39 rfl rfl rfl (by decide) (by decide)]
  (simp (disch := decide) only [fieldsFE, fld_lo, fld_hi, fld_self, Nat.reduceSub, Nat.sub_self]; try simp)

theorem tlbi (t : Tok) (a : Sreg) (b : Sreg) (scope : BitVec 2) : Statement (.tlbi t a b scope) := by
  intro _ _ w1 _
  rw [fieldsOf_fe (.tlbi t a b scope : Instr) w1 0x3A#8 t (0#6 ++ a ++ b ++ scope) 0x3A rfl rfl rfl (by decide) (by decide)]
  (simp (disch := decide) only [fieldsFE, fld_lo, fld_hi, fld_self, Nat.reduceSub, Nat.sub_self]; try simp)

theorem vadd (t : Tok) (hd : Hreg) (ha : Hreg) (hb : Hreg) (ty : VTy) (rp : Rep) : Statement (.vadd t hd ha hb ty rp) := by
  intro _ _ w1 _
  rw [fieldsOf_ex (.vadd t hd ha hb ty rp : Instr) w1 0x80#8 t (hd ++ ha ++ hb ++ ty.bits ++ rp.bits) 0x00 rfl rfl rfl (by decide) (by decide)]
  (simp (disch := decide) only [fieldsEX, fld_lo, fld_hi, fld_self, Nat.reduceSub, Nat.sub_self]; try simp)

theorem vsub (t : Tok) (hd : Hreg) (ha : Hreg) (hb : Hreg) (ty : VTy) (rp : Rep) : Statement (.vsub t hd ha hb ty rp) := by
  intro _ _ w1 _
  rw [fieldsOf_ex (.vsub t hd ha hb ty rp : Instr) w1 0x81#8 t (hd ++ ha ++ hb ++ ty.bits ++ rp.bits) 0x01 rfl rfl rfl (by decide) (by decide)]
  (simp (disch := decide) only [fieldsEX, fld_lo, fld_hi, fld_self, Nat.reduceSub, Nat.sub_self]; try simp)

theorem vmul (t : Tok) (hd : Hreg) (ha : Hreg) (hb : Hreg) (ty : VTy) (rp : Rep) : Statement (.vmul t hd ha hb ty rp) := by
  intro _ _ w1 _
  rw [fieldsOf_ex (.vmul t hd ha hb ty rp : Instr) w1 0x82#8 t (hd ++ ha ++ hb ++ ty.bits ++ rp.bits) 0x02 rfl rfl rfl (by decide) (by decide)]
  (simp (disch := decide) only [fieldsEX, fld_lo, fld_hi, fld_self, Nat.reduceSub, Nat.sub_self]; try simp)

theorem vfma (t : Tok) (hd : Hreg) (ha : Hreg) (hb : Hreg) (ty : VTy) (rp : Rep) : Statement (.vfma t hd ha hb ty rp) := by
  intro _ _ w1 _
  rw [fieldsOf_ex (.vfma t hd ha hb ty rp : Instr) w1 0x83#8 t (hd ++ ha ++ hb ++ ty.bits ++ rp.bits) 0x03 rfl rfl rfl (by decide) (by decide)]
  (simp (disch := decide) only [fieldsEX, fld_lo, fld_hi, fld_self, Nat.reduceSub, Nat.sub_self]; try simp)

theorem vdiv (t : Tok) (hd : Hreg) (ha : Hreg) (hb : Hreg) (ty : VTy) (rp : Rep) : Statement (.vdiv t hd ha hb ty rp) := by
  intro _ _ w1 _
  rw [fieldsOf_ex (.vdiv t hd ha hb ty rp : Instr) w1 0x84#8 t (hd ++ ha ++ hb ++ ty.bits ++ rp.bits) 0x04 rfl rfl rfl (by decide) (by decide)]
  (simp (disch := decide) only [fieldsEX, fld_lo, fld_hi, fld_self, Nat.reduceSub, Nat.sub_self]; try simp)

theorem vmin (t : Tok) (hd : Hreg) (ha : Hreg) (hb : Hreg) (ty : VTy) (rp : Rep) : Statement (.vmin t hd ha hb ty rp) := by
  intro _ _ w1 _
  rw [fieldsOf_ex (.vmin t hd ha hb ty rp : Instr) w1 0x85#8 t (hd ++ ha ++ hb ++ ty.bits ++ rp.bits) 0x05 rfl rfl rfl (by decide) (by decide)]
  (simp (disch := decide) only [fieldsEX, fld_lo, fld_hi, fld_self, Nat.reduceSub, Nat.sub_self]; try simp)

theorem vmax (t : Tok) (hd : Hreg) (ha : Hreg) (hb : Hreg) (ty : VTy) (rp : Rep) : Statement (.vmax t hd ha hb ty rp) := by
  intro _ _ w1 _
  rw [fieldsOf_ex (.vmax t hd ha hb ty rp : Instr) w1 0x86#8 t (hd ++ ha ++ hb ++ ty.bits ++ rp.bits) 0x06 rfl rfl rfl (by decide) (by decide)]
  (simp (disch := decide) only [fieldsEX, fld_lo, fld_hi, fld_self, Nat.reduceSub, Nat.sub_self]; try simp)

theorem vabs (t : Tok) (hd : Hreg) (ha : Hreg) (ty : VTy) (rp : Rep) : Statement (.vabs t hd ha ty rp) := by
  intro _ _ w1 _
  rw [fieldsOf_ex (.vabs t hd ha ty rp : Instr) w1 0x87#8 t (hd ++ ha ++ 0#5 ++ ty.bits ++ rp.bits) 0x07 rfl rfl rfl (by decide) (by decide)]
  (simp (disch := decide) only [fieldsEX, fld_lo, fld_hi, fld_self, Nat.reduceSub, Nat.sub_self]; try simp)

theorem vneg (t : Tok) (hd : Hreg) (ha : Hreg) (ty : VTy) (rp : Rep) : Statement (.vneg t hd ha ty rp) := by
  intro _ _ w1 _
  rw [fieldsOf_ex (.vneg t hd ha ty rp : Instr) w1 0x88#8 t (hd ++ ha ++ 0#5 ++ ty.bits ++ rp.bits) 0x08 rfl rfl rfl (by decide) (by decide)]
  (simp (disch := decide) only [fieldsEX, fld_lo, fld_hi, fld_self, Nat.reduceSub, Nat.sub_self]; try simp)

theorem vand (t : Tok) (hd : Hreg) (ha : Hreg) (hb : Hreg) (ty : VTy) (rp : Rep) : Statement (.vand t hd ha hb ty rp) := by
  intro _ _ w1 _
  rw [fieldsOf_ex (.vand t hd ha hb ty rp : Instr) w1 0x89#8 t (hd ++ ha ++ hb ++ ty.bits ++ rp.bits) 0x09 rfl rfl rfl (by decide) (by decide)]
  (simp (disch := decide) only [fieldsEX, fld_lo, fld_hi, fld_self, Nat.reduceSub, Nat.sub_self]; try simp)

theorem vor (t : Tok) (hd : Hreg) (ha : Hreg) (hb : Hreg) (ty : VTy) (rp : Rep) : Statement (.vor t hd ha hb ty rp) := by
  intro _ _ w1 _
  rw [fieldsOf_ex (.vor t hd ha hb ty rp : Instr) w1 0x8A#8 t (hd ++ ha ++ hb ++ ty.bits ++ rp.bits) 0x0A rfl rfl rfl (by decide) (by decide)]
  (simp (disch := decide) only [fieldsEX, fld_lo, fld_hi, fld_self, Nat.reduceSub, Nat.sub_self]; try simp)

theorem vxor (t : Tok) (hd : Hreg) (ha : Hreg) (hb : Hreg) (ty : VTy) (rp : Rep) : Statement (.vxor t hd ha hb ty rp) := by
  intro _ _ w1 _
  rw [fieldsOf_ex (.vxor t hd ha hb ty rp : Instr) w1 0x8B#8 t (hd ++ ha ++ hb ++ ty.bits ++ rp.bits) 0x0B rfl rfl rfl (by decide) (by decide)]
  (simp (disch := decide) only [fieldsEX, fld_lo, fld_hi, fld_self, Nat.reduceSub, Nat.sub_self]; try simp)

theorem vshl (t : Tok) (hd : Hreg) (ha : Hreg) (hb : Hreg) (ty : VTy) (rp : Rep) : Statement (.vshl t hd ha hb ty rp) := by
  intro _ _ w1 _
  rw [fieldsOf_ex (.vshl t hd ha hb ty rp : Instr) w1 0x8C#8 t (hd ++ ha ++ hb ++ ty.bits ++ rp.bits) 0x0C rfl rfl rfl (by decide) (by decide)]
  (simp (disch := decide) only [fieldsEX, fld_lo, fld_hi, fld_self, Nat.reduceSub, Nat.sub_self]; try simp)

theorem vshr (t : Tok) (hd : Hreg) (ha : Hreg) (hb : Hreg) (ty : VTy) (rp : Rep) : Statement (.vshr t hd ha hb ty rp) := by
  intro _ _ w1 _
  rw [fieldsOf_ex (.vshr t hd ha hb ty rp : Instr) w1 0x8D#8 t (hd ++ ha ++ hb ++ ty.bits ++ rp.bits) 0x0D rfl rfl rfl (by decide) (by decide)]
  (simp (disch := decide) only [fieldsEX, fld_lo, fld_hi, fld_self, Nat.reduceSub, Nat.sub_self]; try simp)

theorem vsra (t : Tok) (hd : Hreg) (ha : Hreg) (hb : Hreg) (ty : VTy) (rp : Rep) : Statement (.vsra t hd ha hb ty rp) := by
  intro _ _ w1 _
  rw [fieldsOf_ex (.vsra t hd ha hb ty rp : Instr) w1 0x8E#8 t (hd ++ ha ++ hb ++ ty.bits ++ rp.bits) 0x0E rfl rfl rfl (by decide) (by decide)]
  (simp (disch := decide) only [fieldsEX, fld_lo, fld_hi, fld_self, Nat.reduceSub, Nat.sub_self]; try simp)

theorem vcmp (t : Tok) (un : Bool) (cond : Cond) (ha : Hreg) (hb : Hreg) (ty : VTy) (rp : Rep) : Statement (.vcmp t un cond ha hb ty rp) := by
  intro _ _ w1 _
  rw [fieldsOf_ex (.vcmp t un cond ha hb ty rp : Instr) w1 0x8F#8 t ((bit un) ++ cond.bits ++ ha ++ hb ++ ty.bits ++ rp.bits) 0x0F rfl rfl rfl (by decide) (by decide)]
  (simp (disch := decide) only [fieldsEX, fld_lo, fld_hi, fld_self, Nat.reduceSub, Nat.sub_self]; try simp)

theorem vsel (t : Tok) (hd : Hreg) (ha : Hreg) (hb : Hreg) (ty : VTy) (rp : Rep) : Statement (.vsel t hd ha hb ty rp) := by
  intro _ _ w1 _
  rw [fieldsOf_ex (.vsel t hd ha hb ty rp : Instr) w1 0x90#8 t (hd ++ ha ++ hb ++ ty.bits ++ rp.bits) 0x10 rfl rfl rfl (by decide) (by decide)]
  (simp (disch := decide) only [fieldsEX, fld_lo, fld_hi, fld_self, Nat.reduceSub, Nat.sub_self]; try simp)

theorem vmov (t : Tok) (hd : Hreg) (ha : Hreg) (ty : VTy) (rp : Rep) : Statement (.vmov t hd ha ty rp) := by
  intro _ _ w1 _
  rw [fieldsOf_ex (.vmov t hd ha ty rp : Instr) w1 0x91#8 t (hd ++ ha ++ 0#5 ++ ty.bits ++ rp.bits) 0x11 rfl rfl rfl (by decide) (by decide)]
  (simp (disch := decide) only [fieldsEX, fld_lo, fld_hi, fld_self, Nat.reduceSub, Nat.sub_self]; try simp)

theorem vcvt (t : Tok) (hd : Hreg) (ha : Hreg) (sat : Bool) (mode : RMode) (ty : VTy) (rp : Rep) : Statement (.vcvt t hd ha sat mode ty rp) := by
  intro _ _ w1 _
  rw [fieldsOf_ex (.vcvt t hd ha sat mode ty rp : Instr) w1 0x92#8 t (hd ++ ha ++ 0#1 ++ (bit sat) ++ mode.bits ++ ty.bits ++ rp.bits) 0x12 rfl rfl rfl (by decide) (by decide)]
  (simp (disch := decide) only [fieldsEX, fld_lo, fld_hi, fld_self, Nat.reduceSub, Nat.sub_self]; try simp)

theorem vqnt (t : Tok) (hd : Hreg) (ha : Hreg) (hb : Hreg) (ty : VTy) (rp : Rep) : Statement (.vqnt t hd ha hb ty rp) := by
  intro _ _ w1 _
  rw [fieldsOf_ex (.vqnt t hd ha hb ty rp : Instr) w1 0x93#8 t (hd ++ ha ++ hb ++ ty.bits ++ rp.bits) 0x13 rfl rfl rfl (by decide) (by decide)]
  (simp (disch := decide) only [fieldsEX, fld_lo, fld_hi, fld_self, Nat.reduceSub, Nat.sub_self]; try simp)

theorem vdqnt (t : Tok) (hd : Hreg) (ha : Hreg) (hb : Hreg) (ty : VTy) (rp : Rep) : Statement (.vdqnt t hd ha hb ty rp) := by
  intro _ _ w1 _
  rw [fieldsOf_ex (.vdqnt t hd ha hb ty rp : Instr) w1 0x94#8 t (hd ++ ha ++ hb ++ ty.bits ++ rp.bits) 0x14 rfl rfl rfl (by decide) (by decide)]
  (simp (disch := decide) only [fieldsEX, fld_lo, fld_hi, fld_self, Nat.reduceSub, Nat.sub_self]; try simp)

theorem vlog2 (t : Tok) (hd : Hreg) (ha : Hreg) (ty : VTy) (rp : Rep) : Statement (.vlog2 t hd ha ty rp) := by
  intro _ _ w1 _
  rw [fieldsOf_ex (.vlog2 t hd ha ty rp : Instr) w1 0x95#8 t (hd ++ ha ++ 0#5 ++ ty.bits ++ rp.bits) 0x15 rfl rfl rfl (by decide) (by decide)]
  (simp (disch := decide) only [fieldsEX, fld_lo, fld_hi, fld_self, Nat.reduceSub, Nat.sub_self]; try simp)

theorem vexp2 (t : Tok) (hd : Hreg) (ha : Hreg) (ty : VTy) (rp : Rep) : Statement (.vexp2 t hd ha ty rp) := by
  intro _ _ w1 _
  rw [fieldsOf_ex (.vexp2 t hd ha ty rp : Instr) w1 0x96#8 t (hd ++ ha ++ 0#5 ++ ty.bits ++ rp.bits) 0x16 rfl rfl rfl (by decide) (by decide)]
  (simp (disch := decide) only [fieldsEX, fld_lo, fld_hi, fld_self, Nat.reduceSub, Nat.sub_self]; try simp)

theorem vrcp (t : Tok) (hd : Hreg) (ha : Hreg) (ty : VTy) (rp : Rep) : Statement (.vrcp t hd ha ty rp) := by
  intro _ _ w1 _
  rw [fieldsOf_ex (.vrcp t hd ha ty rp : Instr) w1 0x97#8 t (hd ++ ha ++ 0#5 ++ ty.bits ++ rp.bits) 0x17 rfl rfl rfl (by decide) (by decide)]
  (simp (disch := decide) only [fieldsEX, fld_lo, fld_hi, fld_self, Nat.reduceSub, Nat.sub_self]; try simp)

theorem vrsq (t : Tok) (hd : Hreg) (ha : Hreg) (ty : VTy) (rp : Rep) : Statement (.vrsq t hd ha ty rp) := by
  intro _ _ w1 _
  rw [fieldsOf_ex (.vrsq t hd ha ty rp : Instr) w1 0x98#8 t (hd ++ ha ++ 0#5 ++ ty.bits ++ rp.bits) 0x18 rfl rfl rfl (by decide) (by decide)]
  (simp (disch := decide) only [fieldsEX, fld_lo, fld_hi, fld_self, Nat.reduceSub, Nat.sub_self]; try simp)

theorem vsqrt (t : Tok) (hd : Hreg) (ha : Hreg) (ty : VTy) (rp : Rep) : Statement (.vsqrt t hd ha ty rp) := by
  intro _ _ w1 _
  rw [fieldsOf_ex (.vsqrt t hd ha ty rp : Instr) w1 0x99#8 t (hd ++ ha ++ 0#5 ++ ty.bits ++ rp.bits) 0x19 rfl rfl rfl (by decide) (by decide)]
  (simp (disch := decide) only [fieldsEX, fld_lo, fld_hi, fld_self, Nat.reduceSub, Nat.sub_self]; try simp)

theorem vtanh (t : Tok) (hd : Hreg) (ha : Hreg) (ty : VTy) (rp : Rep) : Statement (.vtanh t hd ha ty rp) := by
  intro _ _ w1 _
  rw [fieldsOf_ex (.vtanh t hd ha ty rp : Instr) w1 0x9A#8 t (hd ++ ha ++ 0#5 ++ ty.bits ++ rp.bits) 0x1A rfl rfl rfl (by decide) (by decide)]
  (simp (disch := decide) only [fieldsEX, fld_lo, fld_hi, fld_self, Nat.reduceSub, Nat.sub_self]; try simp)

theorem vclass (t : Tok) (ha : Hreg) (set : BitVec 5) (ty : VTy) (rp : Rep) : Statement (.vclass t ha set ty rp) := by
  intro _ _ w1 _
  rw [fieldsOf_ex (.vclass t ha set ty rp : Instr) w1 0x9B#8 t (0#5 ++ ha ++ set ++ ty.bits ++ rp.bits) 0x1B rfl rfl rfl (by decide) (by decide)]
  (simp (disch := decide) only [fieldsEX, fld_lo, fld_hi, fld_self, Nat.reduceSub, Nat.sub_self]; try simp)

theorem vredSum (t : Tok) (ha : Hreg) (ty : VTy) (rp : Rep) : Statement (.vredSum t ha ty rp) := by
  intro _ _ w1 _
  rw [fieldsOf_ex (.vredSum t ha ty rp : Instr) w1 0x9C#8 t (0#5 ++ ha ++ 0#5 ++ ty.bits ++ rp.bits) 0x1C rfl rfl rfl (by decide) (by decide)]
  (simp (disch := decide) only [fieldsEX, fld_lo, fld_hi, fld_self, Nat.reduceSub, Nat.sub_self]; try simp)

theorem vredMax (t : Tok) (hd : Hreg) (ha : Hreg) (ty : VTy) (rp : Rep) : Statement (.vredMax t hd ha ty rp) := by
  intro _ _ w1 _
  rw [fieldsOf_ex (.vredMax t hd ha ty rp : Instr) w1 0x9C#8 t (hd ++ ha ++ 1#5 ++ ty.bits ++ rp.bits) 0x1C rfl rfl rfl (by decide) (by decide)]
  (simp (disch := decide) only [fieldsEX, fld_lo, fld_hi, fld_self, Nat.reduceSub, Nat.sub_self]; try simp)

theorem vredMin (t : Tok) (hd : Hreg) (ha : Hreg) (ty : VTy) (rp : Rep) : Statement (.vredMin t hd ha ty rp) := by
  intro _ _ w1 _
  rw [fieldsOf_ex (.vredMin t hd ha ty rp : Instr) w1 0x9C#8 t (hd ++ ha ++ 2#5 ++ ty.bits ++ rp.bits) 0x1C rfl rfl rfl (by decide) (by decide)]
  (simp (disch := decide) only [fieldsEX, fld_lo, fld_hi, fld_self, Nat.reduceSub, Nat.sub_self]; try simp)

theorem vredMaxi (t : Tok) (hd : Hreg) (rp : Rep) : Statement (.vredMaxi t hd rp) := by
  intro _ _ w1 _
  rw [fieldsOf_ex (.vredMaxi t hd rp : Instr) w1 0x9C#8 t (hd ++ 0#5 ++ 3#5 ++ 6#3 ++ rp.bits) 0x1C rfl rfl rfl (by decide) (by decide)]
  (simp (disch := decide) only [fieldsEX, fld_lo, fld_hi, fld_self, Nat.reduceSub, Nat.sub_self]; try simp)

theorem vxrd (t : Tok) (hd : Hreg) (ty : VTy) (rp : Rep) : Statement (.vxrd t hd ty rp) := by
  intro _ _ w1 _
  rw [fieldsOf_ex (.vxrd t hd ty rp : Instr) w1 0x9D#8 t (hd ++ 0#10 ++ ty.bits ++ rp.bits) 0x1D rfl rfl rfl (by decide) (by decide)]
  (simp (disch := decide) only [fieldsEX, fld_lo, fld_hi, fld_self, Nat.reduceSub, Nat.sub_self]; try simp)

theorem vscan (t : Tok) (hd : Hreg) (ha : Hreg) (ty : VTy) (rp : Rep) : Statement (.vscan t hd ha ty rp) := by
  intro _ _ w1 _
  rw [fieldsOf_ex (.vscan t hd ha ty rp : Instr) w1 0x9E#8 t (hd ++ ha ++ 0#5 ++ ty.bits ++ rp.bits) 0x1E rfl rfl rfl (by decide) (by decide)]
  (simp (disch := decide) only [fieldsEX, fld_lo, fld_hi, fld_self, Nat.reduceSub, Nat.sub_self]; try simp)

theorem vperm (t : Tok) (hd : Hreg) (ha : Hreg) (hb : Hreg) (ty : VTy) (rp : Rep) : Statement (.vperm t hd ha hb ty rp) := by
  intro _ _ w1 _
  rw [fieldsOf_ex (.vperm t hd ha hb ty rp : Instr) w1 0x9F#8 t (hd ++ ha ++ hb ++ ty.bits ++ rp.bits) 0x1F rfl rfl rfl (by decide) (by decide)]
  (simp (disch := decide) only [fieldsEX, fld_lo, fld_hi, fld_self, Nat.reduceSub, Nat.sub_self]; try simp)

theorem vbcast (t : Tok) (hd : Hreg) (a : Sreg) (ty : VTy) (rp : Rep) : Statement (.vbcast t hd a ty rp) := by
  intro _ _ w1 _
  rw [fieldsOf_ex (.vbcast t hd a ty rp : Instr) w1 0xA0#8 t (hd ++ a ++ 0#4 ++ ty.bits ++ rp.bits) 0x20 rfl rfl rfl (by decide) (by decide)]
  (simp (disch := decide) only [fieldsEX, fld_lo, fld_hi, fld_self, Nat.reduceSub, Nat.sub_self]; try simp)

theorem viota (t : Tok) (hd : Hreg) (ty : VTy) (rp : Rep) : Statement (.viota t hd ty rp) := by
  intro _ _ w1 _
  rw [fieldsOf_ex (.viota t hd ty rp : Instr) w1 0xA1#8 t (hd ++ 0#10 ++ ty.bits ++ rp.bits) 0x21 rfl rfl rfl (by decide) (by decide)]
  (simp (disch := decide) only [fieldsEX, fld_lo, fld_hi, fld_self, Nat.reduceSub, Nat.sub_self]; try simp)

theorem vrng (t : Tok) (hd : Hreg) (ha : Hreg) (hb : Hreg) (rp : Rep) : Statement (.vrng t hd ha hb rp) := by
  intro _ _ w1 _
  rw [fieldsOf_ex (.vrng t hd ha hb rp : Instr) w1 0xA2#8 t (hd ++ ha ++ hb ++ 0#3 ++ rp.bits) 0x22 rfl rfl rfl (by decide) (by decide)]
  (simp (disch := decide) only [fieldsEX, fld_lo, fld_hi, fld_self, Nat.reduceSub, Nat.sub_self]; try simp)

theorem vexpmax (t : Tok) (hd : Hreg) (ha : Hreg) (ty : VTy) (rp : Rep) : Statement (.vexpmax t hd ha ty rp) := by
  intro _ _ w1 _
  rw [fieldsOf_ex (.vexpmax t hd ha ty rp : Instr) w1 0xA3#8 t (hd ++ ha ++ 0#5 ++ ty.bits ++ rp.bits) 0x23 rfl rfl rfl (by decide) (by decide)]
  (simp (disch := decide) only [fieldsEX, fld_lo, fld_hi, fld_self, Nat.reduceSub, Nat.sub_self]; try simp)

theorem vmaxi (t : Tok) (ha : Hreg) (rp : Rep) : Statement (.vmaxi t ha rp) := by
  intro _ _ w1 _
  rw [fieldsOf_ex (.vmaxi t ha rp : Instr) w1 0xA4#8 t (0#5 ++ ha ++ 0#5 ++ 0#3 ++ rp.bits) 0x24 rfl rfl rfl (by decide) (by decide)]
  (simp (disch := decide) only [fieldsEX, fld_lo, fld_hi, fld_self, Nat.reduceSub, Nat.sub_self]; try simp)

theorem mpush (t : Tok) : Statement (.mpush t) := by
  intro _ _ w1 _
  rw [fieldsOf_ex (.mpush t : Instr) w1 0xA6#8 t (0#20) 0x26 rfl rfl rfl (by decide) (by decide)]
  (simp (disch := decide) only [fieldsEX, fld_lo, fld_hi, fld_self, Nat.reduceSub, Nat.sub_self]; try simp)

theorem minv (t : Tok) : Statement (.minv t) := by
  intro _ _ w1 _
  rw [fieldsOf_ex (.minv t : Instr) w1 0xA7#8 t (0#20) 0x27 rfl rfl rfl (by decide) (by decide)]
  (simp (disch := decide) only [fieldsEX, fld_lo, fld_hi, fld_self, Nat.reduceSub, Nat.sub_self]; try simp)

theorem mpop (t : Tok) : Statement (.mpop t) := by
  intro _ _ w1 _
  rw [fieldsOf_ex (.mpop t : Instr) w1 0xA8#8 t (0#20) 0x28 rfl rfl rfl (by decide) (by decide)]
  (simp (disch := decide) only [fieldsEX, fld_lo, fld_hi, fld_self, Nat.reduceSub, Nat.sub_self]; try simp)

theorem mset (t : Tok) (d : Sreg) (fl : Bool) (q : BitVec 2) : Statement (.mset t d fl q) := by
  intro _ _ w1 _
  rw [fieldsOf_ex (.mset t d fl q : Instr) w1 0xA9#8 t (d ++ 0#11 ++ (bit fl) ++ q) 0x29 rfl rfl rfl (by decide) (by decide)]
  (simp (disch := decide) only [fieldsEX, fld_lo, fld_hi, fld_self, Nat.reduceSub, Nat.sub_self]; try simp)

theorem mget (t : Tok) : Statement (.mget t) := by
  intro _ _ w1 _
  rw [fieldsOf_ex (.mget t : Instr) w1 0xAA#8 t (0#20) 0x2A rfl rfl rfl (by decide) (by decide)]
  (simp (disch := decide) only [fieldsEX, fld_lo, fld_hi, fld_self, Nat.reduceSub, Nat.sub_self]; try simp)

theorem vskip (t : Tok) (n : BitVec 12) : Statement (.vskip t n) := by
  intro _ _ w1 _
  rw [fieldsOf_ex (.vskip t n : Instr) w1 0xAB#8 t (0#6 ++ 0#2 ++ n) 0x2B rfl rfl rfl (by decide) (by decide)]
  (simp (disch := decide) only [fieldsEX, fld_lo, fld_hi, fld_self, Nat.reduceSub, Nat.sub_self]; try simp)

theorem mlease (t : Tok) : Statement (.mlease t) := by
  intro _ _ w1 _
  rw [fieldsOf_ex (.mlease t : Instr) w1 0xAC#8 t (0#20) 0x2C rfl rfl rfl (by decide) (by decide)]
  (simp (disch := decide) only [fieldsEX, fld_lo, fld_hi, fld_self, Nat.reduceSub, Nat.sub_self]; try simp)

theorem mrel (t : Tok) : Statement (.mrel t) := by
  intro _ _ w1 _
  rw [fieldsOf_ex (.mrel t : Instr) w1 0xAD#8 t (0#20) 0x2D rfl rfl rfl (by decide) (by decide)]
  (simp (disch := decide) only [fieldsEX, fld_lo, fld_hi, fld_self, Nat.reduceSub, Nat.sub_self]; try simp)

theorem mancScan (t : Tok) (ha : Hreg) : Statement (.mancScan t ha) := by
  intro _ _ w1 _
  rw [fieldsOf_ex (.mancScan t ha : Instr) w1 0xAE#8 t (0#7 ++ ha ++ 0#6 ++ 0#2) 0x2E rfl rfl rfl (by decide) (by decide)]
  (simp (disch := decide) only [fieldsEX, fld_lo, fld_hi, fld_self, Nat.reduceSub, Nat.sub_self]; try simp)

theorem mancLoad (t : Tok) (ha : Hreg) : Statement (.mancLoad t ha) := by
  intro _ _ w1 _
  rw [fieldsOf_ex (.mancLoad t ha : Instr) w1 0xAE#8 t (0#7 ++ ha ++ 0#6 ++ 1#2) 0x2E rfl rfl rfl (by decide) (by decide)]
  (simp (disch := decide) only [fieldsEX, fld_lo, fld_hi, fld_self, Nat.reduceSub, Nat.sub_self]; try simp)

theorem mancColumn (t : Tok) (g : Gslot) (ha : Hreg) (q : BitVec 6) : Statement (.mancColumn t g ha q) := by
  intro _ _ w1 _
  rw [fieldsOf_ex (.mancColumn t g ha q : Instr) w1 0xAE#8 t (0#1 ++ g ++ ha ++ q ++ 2#2) 0x2E rfl rfl rfl (by decide) (by decide)]
  (simp (disch := decide) only [fieldsEX, fld_lo, fld_hi, fld_self, Nat.reduceSub, Nat.sub_self]; try simp)

theorem mclr (t : Tok) (acc : BitVec 1) : Statement (.mclr t acc) := by
  intro _ _ w1 _
  rw [fieldsOf_ex (.mclr t acc : Instr) w1 0xAF#8 t (acc ++ 0#19) 0x2F rfl rfl rfl (by decide) (by decide)]
  (simp (disch := decide) only [fieldsEX, fld_lo, fld_hi, fld_self, Nat.reduceSub, Nat.sub_self]; try simp)

theorem mma (t : Tok) (acc : BitVec 1) (g : Gslot) (ha : Hreg) (q : BitVec 8) (sm : Sreg) (sn : Sreg) (sk : Sreg) : Statement (.mma t acc g ha q sm sn sk) := by
  intro _ _ w1 hw
  rw [hw _ rfl, fieldsOf_ex (.mma t acc g ha q sm sn sk : Instr) _ 0xB0#8 t (acc ++ g ++ ha ++ q) 0x30 rfl rfl rfl (by decide) (by decide)]
  show fieldsEX 0x30 t (acc ++ g ++ ha ++ q) (fld 0 28 (0#4 ++ ((0#5 ++ sm ++ sn ++ sk ++ 0#5)))) = _
  (simp (disch := decide) only [fieldsEX, fld_lo, fld_hi, fld_self, Nat.reduceSub, Nat.sub_self]; try simp)

theorem mepi (t : Tok) (acc : BitVec 1) (hd : Hreg) (act : Act) (bias : Option Hreg) (sm : Sreg) (sn : Sreg) (scale : Option Sreg) (clr : Bool) : Statement (.mepi t acc hd act bias sm sn scale clr) := by
  intro _ _ w1 hw
  rw [hw _ rfl, fieldsOf_ex (.mepi t acc hd act bias sm sn scale clr : Instr) _ 0xB1#8 t (acc ++ 0#6 ++ hd ++ 0#3 ++ (bit scale.isSome) ++ (bit bias.isSome) ++ act.bits) 0x31 rfl rfl rfl (by decide) (by decide)]
  show fieldsEX 0x31 t (acc ++ 0#6 ++ hd ++ 0#3 ++ (bit scale.isSome) ++ (bit bias.isSome) ++ act.bits) (fld 0 28 (0#4 ++ (((bias.getD 0) ++ sm ++ sn ++ (scale.getD 0) ++ 0#4 ++ (bit clr))))) = _
  cases bias <;> cases scale <;> (simp (disch := decide) only [fieldsEX, fld_lo, fld_hi, fld_self, Nat.reduceSub, Nat.sub_self]; try simp)

theorem mtopk (t : Tok) (acc : BitVec 1) (hd : Hreg) (emit : Bool) (new : Bool) (k : BitVec 3) (hx : Hreg) (sm : Sreg) (sn : Sreg) (base : Sreg) : Statement (.mtopk t acc hd emit new k hx sm sn base) := by
  intro _ _ w1 hw
  rw [hw _ rfl, fieldsOf_ex (.mtopk t acc hd emit new k hx sm sn base : Instr) _ 0xB2#8 t (acc ++ 0#6 ++ hd ++ 0#3 ++ (bit emit) ++ (bit new) ++ k) 0x32 rfl rfl rfl (by decide) (by decide)]
  show fieldsEX 0x32 t (acc ++ 0#6 ++ hd ++ 0#3 ++ (bit emit) ++ (bit new) ++ k) (fld 0 28 (0#4 ++ ((hx ++ sm ++ sn ++ base ++ 0#5)))) = _
  (simp (disch := decide) only [fieldsEX, fld_lo, fld_hi, fld_self, Nat.reduceSub, Nat.sub_self]; try simp)

theorem rdacc (t : Tok) (acc : BitVec 1) (hd : Hreg) (sm : Sreg) (sn : Sreg) : Statement (.rdacc t acc hd sm sn) := by
  intro _ _ w1 hw
  rw [hw _ rfl, fieldsOf_ex (.rdacc t acc hd sm sn : Instr) _ 0xB3#8 t (acc ++ 0#6 ++ hd ++ 0#8) 0x33 rfl rfl rfl (by decide) (by decide)]
  show fieldsEX 0x33 t (acc ++ 0#6 ++ hd ++ 0#8) (fld 0 28 (0#4 ++ ((0#5 ++ sm ++ sn ++ 0#11)))) = _
  (simp (disch := decide) only [fieldsEX, fld_lo, fld_hi, fld_self, Nat.reduceSub, Nat.sub_self]; try simp)

theorem mstatTile (t : Tok) (acc : BitVec 1) (hd : Hreg) (which : BitVec 2) : Statement (.mstatTile t acc hd which) := by
  intro _ hf w1 _
  rw [fieldsOf_ex (.mstatTile t acc hd which : Instr) w1 0xB4#8 t (acc ++ 0#6 ++ hd ++ 0#5 ++ 0#1 ++ which) 0x34 rfl rfl rfl (by decide) (by decide)]
  simp (disch := decide) only [fieldsEX, fld_lo, fld_hi, fld_self, Nat.reduceSub, Nat.sub_self]
  rw [show fld 0 3 (acc ++ 0#6 ++ hd ++ 0#5 ++ 0#1 ++ which) = 0#1 ++ which from fld_pair _ _ _]
  have hc : which = 0 ∨ which = 1 ∨ which = 2 := by
    simp only [Instr.wf, bne_iff_ne] at hf
    bv_omega
  rcases hc with rfl | rfl | rfl <;> simp

theorem mstatRowanc (t : Tok) (hd : Hreg) : Statement (.mstatRowanc t hd) := by
  intro _ _ w1 _
  rw [fieldsOf_ex (.mstatRowanc t hd : Instr) w1 0xB4#8 t (0#7 ++ hd ++ 0#5 ++ 3#3) 0x34 rfl rfl rfl (by decide) (by decide)]
  (simp (disch := decide) only [fieldsEX, fld_lo, fld_hi, fld_self, Nat.reduceSub, Nat.sub_self]; try simp)

theorem mstatDesc (t : Tok) (g : Gslot) (hd : Hreg) : Statement (.mstatDesc t g hd) := by
  intro _ _ w1 _
  rw [fieldsOf_ex (.mstatDesc t g hd : Instr) w1 0xB4#8 t (0#1 ++ g ++ hd ++ 0#5 ++ 4#3) 0x34 rfl rfl rfl (by decide) (by decide)]
  (simp (disch := decide) only [fieldsEX, fld_lo, fld_hi, fld_self, Nat.reduceSub, Nat.sub_self]; try simp)

theorem mstatColanc (t : Tok) (g : Gslot) (hd : Hreg) (q : BitVec 5) : Statement (.mstatColanc t g hd q) := by
  intro _ _ w1 _
  rw [fieldsOf_ex (.mstatColanc t g hd q : Instr) w1 0xB4#8 t (0#1 ++ g ++ hd ++ q ++ 5#3) 0x34 rfl rfl rfl (by decide) (by decide)]
  (simp (disch := decide) only [fieldsEX, fld_lo, fld_hi, fld_self, Nat.reduceSub, Nat.sub_self]; try simp)

theorem relax (t : Tok) (acc : BitVec 1) (g : Gslot) (hr : Hreg) (f : Act) (hz : Hreg) (hu : Hreg) (der : Option Hreg) (cnt : Option Hreg) (warm : Bool) : Statement (.relax t acc g hr f hz hu der cnt warm) := by
  intro _ _ w1 hw
  rw [hw _ rfl, fieldsOf_ex (.relax t acc g hr f hz hu der cnt warm : Instr) _ 0xB5#8 t (acc ++ g ++ hr ++ 0#3 ++ (bit cnt.isSome) ++ (bit der.isSome) ++ f.bits) 0x35 rfl rfl rfl (by decide) (by decide)]
  show fieldsEX 0x35 t (acc ++ g ++ hr ++ 0#3 ++ (bit cnt.isSome) ++ (bit der.isSome) ++ f.bits) (fld 0 28 (0#4 ++ ((hz ++ hu ++ (der.getD 0) ++ (cnt.getD 0) ++ 0#6 ++ 0#1 ++ (bit warm))))) = _
  cases der <;> cases cnt <;> (simp (disch := decide) only [fieldsEX, fld_lo, fld_hi, fld_self, Nat.reduceSub, Nat.sub_self]; try simp)

theorem relaxB (t : Tok) (acc : BitVec 1) (hr : Hreg) (hz : Hreg) (hu : Hreg) (hd : Hreg) (cnt : Option Hreg) (g : Gslot) (warm : Bool) : Statement (.relaxB t acc hr hz hu hd cnt g warm) := by
  intro _ _ w1 hw
  rw [hw _ rfl, fieldsOf_ex (.relaxB t acc hr hz hu hd cnt g warm : Instr) _ 0xB6#8 t (acc ++ 0#6 ++ hr ++ 0#3 ++ (bit cnt.isSome) ++ 0#4) 0x36 rfl rfl rfl (by decide) (by decide)]
  show fieldsEX 0x36 t (acc ++ 0#6 ++ hr ++ 0#3 ++ (bit cnt.isSome) ++ 0#4) (fld 0 28 (0#4 ++ ((hz ++ hu ++ hd ++ (cnt.getD 0) ++ g ++ 0#1 ++ (bit warm))))) = _
  cases cnt <;> (simp (disch := decide) only [fieldsEX, fld_lo, fld_hi, fld_self, Nat.reduceSub, Nat.sub_self]; try simp)

theorem rdahr (t : Tok) (hd : Hreg) : Statement (.rdahr t hd) := by
  intro _ _ w1 _
  rw [fieldsOf_ex (.rdahr t hd : Instr) w1 0xB7#8 t (hd ++ 0#15) 0x37 rfl rfl rfl (by decide) (by decide)]
  (simp (disch := decide) only [fieldsEX, fld_lo, fld_hi, fld_self, Nat.reduceSub, Nat.sub_self]; try simp)

theorem wrahr (t : Tok) (ha : Hreg) : Statement (.wrahr t ha) := by
  intro _ _ w1 _
  rw [fieldsOf_ex (.wrahr t ha : Instr) w1 0xB8#8 t (0#5 ++ ha ++ 0#10) 0x38 rfl rfl rfl (by decide) (by decide)]
  (simp (disch := decide) only [fieldsEX, fld_lo, fld_hi, fld_self, Nat.reduceSub, Nat.sub_self]; try simp)

theorem accept (t : Tok) (hc : Hreg) (hg : Hreg) (mode : BitVec 2) (e : Sreg) : Statement (.accept t hc hg mode e) := by
  intro _ _ w1 hw
  rw [hw _ rfl, fieldsOf_ex (.accept t hc hg mode e : Instr) _ 0xB9#8 t (0#5 ++ hc ++ hg ++ 0#3 ++ mode) 0x39 rfl rfl rfl (by decide) (by decide)]
  show fieldsEX 0x39 t (0#5 ++ hc ++ hg ++ 0#3 ++ mode) (fld 0 28 (0#4 ++ ((e ++ 0#22)))) = _
  (simp (disch := decide) only [fieldsEX, fld_lo, fld_hi, fld_self, Nat.reduceSub, Nat.sub_self]; try simp)

theorem ldT (t : Tok) (h : Hreg) (a : Sreg) (b : Sreg) (fa : Sreg) (fv : Sreg) : Statement (.ldT t h a b fa fv) := by
  intro _ _ w1 hw
  rw [hw _ rfl, fieldsOf_ld (.ldT t h a b fa fv : Instr) _ 0x40#8 t (h ++ a ++ b ++ 0#3) 0x00 rfl rfl rfl (by decide) (by decide)]
  show fieldsLD 0x00 t (h ++ a ++ b ++ 0#3) (fld 0 28 (0#4 ++ ((0#6 ++ fa ++ fv ++ 0#10)))) = _
  (simp (disch := decide) only [fieldsLD, fld_lo, fld_hi, fld_self, Nat.reduceSub, Nat.sub_self]; try simp)

theorem ldX (t : Tok) (h : Hreg) (a : Sreg) (b : Sreg) (hx : Hreg) (fa : Sreg) (fv : Sreg) : Statement (.ldX t h a b hx fa fv) := by
  intro _ _ w1 hw
  rw [hw _ rfl, fieldsOf_ld (.ldX t h a b hx fa fv : Instr) _ 0x41#8 t (h ++ a ++ b ++ 0#3) 0x01 rfl rfl rfl (by decide) (by decide)]
  show fieldsLD 0x01 t (h ++ a ++ b ++ 0#3) (fld 0 28 (0#4 ++ ((0#1 ++ hx ++ fa ++ fv ++ 0#10)))) = _
  (simp (disch := decide) only [fieldsLD, fld_lo, fld_hi, fld_self, Nat.reduceSub, Nat.sub_self]; try simp)

theorem ldGr (t : Tok) (h : Hreg) (a : Sreg) (b : Sreg) (hx : Hreg) (fa : Sreg) (fv : Sreg) : Statement (.ldGr t h a b hx fa fv) := by
  intro _ _ w1 hw
  rw [hw _ rfl, fieldsOf_ld (.ldGr t h a b hx fa fv : Instr) _ 0x42#8 t (h ++ a ++ b ++ 0#3) 0x02 rfl rfl rfl (by decide) (by decide)]
  show fieldsLD 0x02 t (h ++ a ++ b ++ 0#3) (fld 0 28 (0#4 ++ ((0#1 ++ hx ++ fa ++ fv ++ 0#10)))) = _
  (simp (disch := decide) only [fieldsLD, fld_lo, fld_hi, fld_self, Nat.reduceSub, Nat.sub_self]; try simp)

theorem ldG (t : Tok) (h : Hreg) (a : Sreg) (b : Sreg) (e : Sreg) (fa : Sreg) (fv : Sreg) (g : Gslot) : Statement (.ldG t h a b e fa fv g) := by
  intro _ _ w1 hw
  rw [hw _ rfl, fieldsOf_ld (.ldG t h a b e fa fv g : Instr) _ 0x43#8 t (h ++ a ++ b ++ 0#3) 0x03 rfl rfl rfl (by decide) (by decide)]
  show fieldsLD 0x03 t (h ++ a ++ b ++ 0#3) (fld 0 28 (0#4 ++ ((e ++ fa ++ fv ++ 0#4 ++ g)))) = _
  (simp (disch := decide) only [fieldsLD, fld_lo, fld_hi, fld_self, Nat.reduceSub, Nat.sub_self]; try simp)

theorem ldGt (t : Tok) (h : Hreg) (a : Sreg) (b : Sreg) (e : Sreg) (fa : Sreg) (fv : Sreg) (g : Gslot) : Statement (.ldGt t h a b e fa fv g) := by
  intro _ _ w1 hw
  rw [hw _ rfl, fieldsOf_ld (.ldGt t h a b e fa fv g : Instr) _ 0x44#8 t (h ++ a ++ b ++ 0#3) 0x04 rfl rfl rfl (by decide) (by decide)]
  show fieldsLD 0x04 t (h ++ a ++ b ++ 0#3) (fld 0 28 (0#4 ++ ((e ++ fa ++ fv ++ 0#4 ++ g)))) = _
  (simp (disch := decide) only [fieldsLD, fld_lo, fld_hi, fld_self, Nat.reduceSub, Nat.sub_self]; try simp)

theorem ldSp (t : Tok) (h : Hreg) (a : Sreg) (fa : Sreg) (fv : Sreg) : Statement (.ldSp t h a fa fv) := by
  intro _ _ w1 hw
  rw [hw _ rfl, fieldsOf_ld (.ldSp t h a fa fv : Instr) _ 0x45#8 t (h ++ a ++ 0#6 ++ 0#3) 0x05 rfl rfl rfl (by decide) (by decide)]
  show fieldsLD 0x05 t (h ++ a ++ 0#6 ++ 0#3) (fld 0 28 (0#4 ++ ((0#6 ++ fa ++ fv ++ 0#10)))) = _
  (simp (disch := decide) only [fieldsLD, fld_lo, fld_hi, fld_self, Nat.reduceSub, Nat.sub_self]; try simp)

theorem ldNet (t : Tok) (h : Hreg) (a : Sreg) (b : Sreg) (e : Sreg) (fa : Sreg) (fv : Sreg) : Statement (.ldNet t h a b e fa fv) := by
  intro _ _ w1 hw
  rw [hw _ rfl, fieldsOf_ld (.ldNet t h a b e fa fv : Instr) _ 0x46#8 t (h ++ a ++ b ++ 0#3) 0x06 rfl rfl rfl (by decide) (by decide)]
  show fieldsLD 0x06 t (h ++ a ++ b ++ 0#3) (fld 0 28 (0#4 ++ ((e ++ fa ++ fv ++ 0#10)))) = _
  (simp (disch := decide) only [fieldsLD, fld_lo, fld_hi, fld_self, Nat.reduceSub, Nat.sub_self]; try simp)

theorem pref (t : Tok) (a : Sreg) (b : Sreg) : Statement (.pref t a b) := by
  intro _ _ w1 hw
  rw [hw _ rfl, fieldsOf_ld (.pref t a b : Instr) _ 0x47#8 t (0#5 ++ a ++ b ++ 0#3) 0x07 rfl rfl rfl (by decide) (by decide)]
  show fieldsLD 0x07 t (0#5 ++ a ++ b ++ 0#3) (fld 0 28 (0#4 ++ ((0#28)))) = _
  (simp (disch := decide) only [fieldsLD, fld_lo, fld_hi, fld_self, Nat.reduceSub, Nat.sub_self]; try simp)

theorem linkRecv (t : Tok) (h : Hreg) (a : Sreg) (b : Sreg) (fa : Sreg) (fv : Sreg) : Statement (.linkRecv t h a b fa fv) := by
  intro _ _ w1 hw
  rw [hw _ rfl, fieldsOf_ld (.linkRecv t h a b fa fv : Instr) _ 0x48#8 t (h ++ a ++ b ++ 0#3) 0x08 rfl rfl rfl (by decide) (by decide)]
  show fieldsLD 0x08 t (h ++ a ++ b ++ 0#3) (fld 0 28 (0#4 ++ ((0#6 ++ fa ++ fv ++ 0#10)))) = _
  (simp (disch := decide) only [fieldsLD, fld_lo, fld_hi, fld_self, Nat.reduceSub, Nat.sub_self]; try simp)

theorem stT (t : Tok) (h : Hreg) (a : Sreg) (b : Sreg) (fa : Sreg) (fv : Sreg) : Statement (.stT t h a b fa fv) := by
  intro _ _ w1 hw
  rw [hw _ rfl, fieldsOf_st (.stT t h a b fa fv : Instr) _ 0xC0#8 t (h ++ a ++ b ++ 0#3) 0x00 rfl rfl rfl (by decide) (by decide)]
  show fieldsST 0x00 t (h ++ a ++ b ++ 0#3) (fld 0 28 (0#4 ++ ((0#6 ++ fa ++ fv ++ 0#10)))) = _
  (simp (disch := decide) only [fieldsST, fld_lo, fld_hi, fld_self, Nat.reduceSub, Nat.sub_self]; try simp)

theorem stPart (t : Tok) (h : Hreg) (a : Sreg) (b : Sreg) (fa : Sreg) (fv : Sreg) : Statement (.stPart t h a b fa fv) := by
  intro _ _ w1 hw
  rw [hw _ rfl, fieldsOf_st (.stPart t h a b fa fv : Instr) _ 0xC1#8 t (h ++ a ++ b ++ 0#3) 0x01 rfl rfl rfl (by decide) (by decide)]
  show fieldsST 0x01 t (h ++ a ++ b ++ 0#3) (fld 0 28 (0#4 ++ ((0#6 ++ fa ++ fv ++ 0#10)))) = _
  (simp (disch := decide) only [fieldsST, fld_lo, fld_hi, fld_self, Nat.reduceSub, Nat.sub_self]; try simp)

theorem stX (t : Tok) (h : Hreg) (a : Sreg) (b : Sreg) (hx : Hreg) (fa : Sreg) (fv : Sreg) : Statement (.stX t h a b hx fa fv) := by
  intro _ _ w1 hw
  rw [hw _ rfl, fieldsOf_st (.stX t h a b hx fa fv : Instr) _ 0xC2#8 t (h ++ a ++ b ++ 0#3) 0x02 rfl rfl rfl (by decide) (by decide)]
  show fieldsST 0x02 t (h ++ a ++ b ++ 0#3) (fld 0 28 (0#4 ++ ((0#1 ++ hx ++ fa ++ fv ++ 0#10)))) = _
  (simp (disch := decide) only [fieldsST, fld_lo, fld_hi, fld_self, Nat.reduceSub, Nat.sub_self]; try simp)

theorem stApp (t : Tok) (h : Hreg) (a : Sreg) (fa : Sreg) (fv : Sreg) : Statement (.stApp t h a fa fv) := by
  intro _ _ w1 hw
  rw [hw _ rfl, fieldsOf_st (.stApp t h a fa fv : Instr) _ 0xC3#8 t (h ++ a ++ 0#6 ++ 0#2 ++ 0#1) 0x03 rfl rfl rfl (by decide) (by decide)]
  show fieldsST 0x03 t (h ++ a ++ 0#6 ++ 0#2 ++ 0#1) (fld 0 28 (0#4 ++ ((0#6 ++ fa ++ fv ++ 0#10)))) = _
  (simp (disch := decide) only [fieldsST, fld_lo, fld_hi, fld_self, Nat.reduceSub, Nat.sub_self]; try simp)

theorem stAppQuery (t : Tok) (a : Sreg) (d : Sreg) : Statement (.stAppQuery t a d) := by
  intro _ _ w1 hw
  rw [hw _ rfl, fieldsOf_st (.stAppQuery t a d : Instr) _ 0xC3#8 t (0#5 ++ a ++ d ++ 0#2 ++ 1#1) 0x03 rfl rfl rfl (by decide) (by decide)]
  show fieldsST 0x03 t (0#5 ++ a ++ d ++ 0#2 ++ 1#1) (fld 0 28 (0#4 ++ ((0#28)))) = _
  (simp (disch := decide) only [fieldsST, fld_lo, fld_hi, fld_self, Nat.reduceSub, Nat.sub_self]; try simp)

theorem stRmt (t : Tok) (h : Hreg) (a : Sreg) (e : Sreg) (fa : Sreg) (fv : Sreg) : Statement (.stRmt t h a e fa fv) := by
  intro _ _ w1 hw
  rw [hw _ rfl, fieldsOf_st (.stRmt t h a e fa fv : Instr) _ 0xC4#8 t (h ++ a ++ 0#6 ++ 0#3) 0x04 rfl rfl rfl (by decide) (by decide)]
  show fieldsST 0x04 t (h ++ a ++ 0#6 ++ 0#3) (fld 0 28 (0#4 ++ ((e ++ fa ++ fv ++ 0#10)))) = _
  (simp (disch := decide) only [fieldsST, fld_lo, fld_hi, fld_self, Nat.reduceSub, Nat.sub_self]; try simp)

theorem stMc (t : Tok) (h : Hreg) (a : Sreg) (b : Sreg) (e : Sreg) (fa : Sreg) (fv : Sreg) (die : BitVec 2) : Statement (.stMc t h a b e fa fv die) := by
  intro _ _ w1 hw
  rw [hw _ rfl, fieldsOf_st (.stMc t h a b e fa fv die : Instr) _ 0xC5#8 t (h ++ a ++ b ++ 0#3) 0x05 rfl rfl rfl (by decide) (by decide)]
  show fieldsST 0x05 t (h ++ a ++ b ++ 0#3) (fld 0 28 (0#4 ++ ((e ++ fa ++ fv ++ 0#8 ++ die)))) = _
  (simp (disch := decide) only [fieldsST, fld_lo, fld_hi, fld_self, Nat.reduceSub, Nat.sub_self]; try simp)

theorem stNet (t : Tok) (h : Hreg) (a : Sreg) (b : Sreg) (e : Sreg) (fa : Sreg) (fv : Sreg) : Statement (.stNet t h a b e fa fv) := by
  intro _ _ w1 hw
  rw [hw _ rfl, fieldsOf_st (.stNet t h a b e fa fv : Instr) _ 0xC6#8 t (h ++ a ++ b ++ 0#3) 0x06 rfl rfl rfl (by decide) (by decide)]
  show fieldsST 0x06 t (h ++ a ++ b ++ 0#3) (fld 0 28 (0#4 ++ ((e ++ fa ++ fv ++ 0#10)))) = _
  (simp (disch := decide) only [fieldsST, fld_lo, fld_hi, fld_self, Nat.reduceSub, Nat.sub_self]; try simp)

theorem linkSend (t : Tok) (h : Hreg) (a : Sreg) (b : Sreg) (fa : Sreg) (fv : Sreg) : Statement (.linkSend t h a b fa fv) := by
  intro _ _ w1 hw
  rw [hw _ rfl, fieldsOf_st (.linkSend t h a b fa fv : Instr) _ 0xC7#8 t (h ++ a ++ b ++ 0#3) 0x07 rfl rfl rfl (by decide) (by decide)]
  show fieldsST 0x07 t (h ++ a ++ b ++ 0#3) (fld 0 28 (0#4 ++ ((0#6 ++ fa ++ fv ++ 0#10)))) = _
  (simp (disch := decide) only [fieldsST, fld_lo, fld_hi, fld_self, Nat.reduceSub, Nat.sub_self]; try simp)

theorem linkRed (t : Tok) (h : Hreg) (a : Sreg) (b : Sreg) (fa : Sreg) (fv : Sreg) (rq : Bool) (inn : Bool) : Statement (.linkRed t h a b fa fv rq inn) := by
  intro _ _ w1 hw
  rw [hw _ rfl, fieldsOf_st (.linkRed t h a b fa fv rq inn : Instr) _ 0xC8#8 t (h ++ a ++ b ++ 0#3) 0x08 rfl rfl rfl (by decide) (by decide)]
  show fieldsST 0x08 t (h ++ a ++ b ++ 0#3) (fld 0 28 (0#4 ++ ((0#6 ++ fa ++ fv ++ 0#8 ++ (bit rq) ++ (bit inn))))) = _
  (simp (disch := decide) only [fieldsST, fld_lo, fld_hi, fld_self, Nat.reduceSub, Nat.sub_self]; try simp)

theorem migr (t : Tok) (a : Sreg) (b : Sreg) (fa : Sreg) (fv : Sreg) : Statement (.migr t a b fa fv) := by
  intro _ _ w1 hw
  rw [hw _ rfl, fieldsOf_st (.migr t a b fa fv : Instr) _ 0xC9#8 t (0#5 ++ a ++ b ++ 0#3) 0x09 rfl rfl rfl (by decide) (by decide)]
  show fieldsST 0x09 t (0#5 ++ a ++ b ++ 0#3) (fld 0 28 (0#4 ++ ((0#6 ++ fa ++ fv ++ 0#10)))) = _
  (simp (disch := decide) only [fieldsST, fld_lo, fld_hi, fld_self, Nat.reduceSub, Nat.sub_self]; try simp)

theorem badd (t : Tok) (a : Sreg) (b : Sreg) (fa : Sreg) (fv : Sreg) (ty : BTy) : Statement (.badd t a b fa fv ty) := by
  intro _ _ w1 hw
  rw [hw _ rfl, fieldsOf_st (.badd t a b fa fv ty : Instr) _ 0xD0#8 t (0#5 ++ a ++ b ++ 0#2 ++ 0#1) 0x10 rfl rfl rfl (by decide) (by decide)]
  show fieldsST 0x10 t (0#5 ++ a ++ b ++ 0#2 ++ 0#1) (fld 0 28 (0#4 ++ ((0#6 ++ fa ++ fv ++ 0#7 ++ 0#1 ++ ty.bits)))) = _
  (simp (disch := decide) only [fieldsST, fld_lo, fld_hi, fld_self, Nat.reduceSub, Nat.sub_self]; try simp)

theorem baddStream (t : Tok) (h : Hreg) (a : Sreg) (fa : Sreg) (fv : Sreg) (ty : BTy) : Statement (.baddStream t h a fa fv ty) := by
  intro _ _ w1 hw
  rw [hw _ rfl, fieldsOf_st (.baddStream t h a fa fv ty : Instr) _ 0xD0#8 t (h ++ a ++ 0#6 ++ 0#2 ++ 1#1) 0x10 rfl rfl rfl (by decide) (by decide)]
  show fieldsST 0x10 t (h ++ a ++ 0#6 ++ 0#2 ++ 1#1) (fld 0 28 (0#4 ++ ((0#6 ++ fa ++ fv ++ 0#7 ++ 0#1 ++ ty.bits)))) = _
  (simp (disch := decide) only [fieldsST, fld_lo, fld_hi, fld_self, Nat.reduceSub, Nat.sub_self]; try simp)

theorem band (t : Tok) (a : Sreg) (b : Sreg) (fa : Sreg) (fv : Sreg) (ty : BTy) : Statement (.band t a b fa fv ty) := by
  intro _ _ w1 hw
  rw [hw _ rfl, fieldsOf_st (.band t a b fa fv ty : Instr) _ 0xD1#8 t (0#5 ++ a ++ b ++ 0#2 ++ 0#1) 0x11 rfl rfl rfl (by decide) (by decide)]
  show fieldsST 0x11 t (0#5 ++ a ++ b ++ 0#2 ++ 0#1) (fld 0 28 (0#4 ++ ((0#6 ++ fa ++ fv ++ 0#7 ++ 0#1 ++ ty.bits)))) = _
  (simp (disch := decide) only [fieldsST, fld_lo, fld_hi, fld_self, Nat.reduceSub, Nat.sub_self]; try simp)

theorem bandStream (t : Tok) (h : Hreg) (a : Sreg) (fa : Sreg) (fv : Sreg) (ty : BTy) : Statement (.bandStream t h a fa fv ty) := by
  intro _ _ w1 hw
  rw [hw _ rfl, fieldsOf_st (.bandStream t h a fa fv ty : Instr) _ 0xD1#8 t (h ++ a ++ 0#6 ++ 0#2 ++ 1#1) 0x11 rfl rfl rfl (by decide) (by decide)]
  show fieldsST 0x11 t (h ++ a ++ 0#6 ++ 0#2 ++ 1#1) (fld 0 28 (0#4 ++ ((0#6 ++ fa ++ fv ++ 0#7 ++ 0#1 ++ ty.bits)))) = _
  (simp (disch := decide) only [fieldsST, fld_lo, fld_hi, fld_self, Nat.reduceSub, Nat.sub_self]; try simp)

theorem bor (t : Tok) (a : Sreg) (b : Sreg) (fa : Sreg) (fv : Sreg) (ty : BTy) : Statement (.bor t a b fa fv ty) := by
  intro _ _ w1 hw
  rw [hw _ rfl, fieldsOf_st (.bor t a b fa fv ty : Instr) _ 0xD2#8 t (0#5 ++ a ++ b ++ 0#2 ++ 0#1) 0x12 rfl rfl rfl (by decide) (by decide)]
  show fieldsST 0x12 t (0#5 ++ a ++ b ++ 0#2 ++ 0#1) (fld 0 28 (0#4 ++ ((0#6 ++ fa ++ fv ++ 0#7 ++ 0#1 ++ ty.bits)))) = _
  (simp (disch := decide) only [fieldsST, fld_lo, fld_hi, fld_self, Nat.reduceSub, Nat.sub_self]; try simp)

theorem borStream (t : Tok) (h : Hreg) (a : Sreg) (fa : Sreg) (fv : Sreg) (ty : BTy) : Statement (.borStream t h a fa fv ty) := by
  intro _ _ w1 hw
  rw [hw _ rfl, fieldsOf_st (.borStream t h a fa fv ty : Instr) _ 0xD2#8 t (h ++ a ++ 0#6 ++ 0#2 ++ 1#1) 0x12 rfl rfl rfl (by decide) (by decide)]
  show fieldsST 0x12 t (h ++ a ++ 0#6 ++ 0#2 ++ 1#1) (fld 0 28 (0#4 ++ ((0#6 ++ fa ++ fv ++ 0#7 ++ 0#1 ++ ty.bits)))) = _
  (simp (disch := decide) only [fieldsST, fld_lo, fld_hi, fld_self, Nat.reduceSub, Nat.sub_self]; try simp)

theorem bxor (t : Tok) (a : Sreg) (b : Sreg) (fa : Sreg) (fv : Sreg) (ty : BTy) : Statement (.bxor t a b fa fv ty) := by
  intro _ _ w1 hw
  rw [hw _ rfl, fieldsOf_st (.bxor t a b fa fv ty : Instr) _ 0xD3#8 t (0#5 ++ a ++ b ++ 0#2 ++ 0#1) 0x13 rfl rfl rfl (by decide) (by decide)]
  show fieldsST 0x13 t (0#5 ++ a ++ b ++ 0#2 ++ 0#1) (fld 0 28 (0#4 ++ ((0#6 ++ fa ++ fv ++ 0#7 ++ 0#1 ++ ty.bits)))) = _
  (simp (disch := decide) only [fieldsST, fld_lo, fld_hi, fld_self, Nat.reduceSub, Nat.sub_self]; try simp)

theorem bxorStream (t : Tok) (h : Hreg) (a : Sreg) (fa : Sreg) (fv : Sreg) (ty : BTy) : Statement (.bxorStream t h a fa fv ty) := by
  intro _ _ w1 hw
  rw [hw _ rfl, fieldsOf_st (.bxorStream t h a fa fv ty : Instr) _ 0xD3#8 t (h ++ a ++ 0#6 ++ 0#2 ++ 1#1) 0x13 rfl rfl rfl (by decide) (by decide)]
  show fieldsST 0x13 t (h ++ a ++ 0#6 ++ 0#2 ++ 1#1) (fld 0 28 (0#4 ++ ((0#6 ++ fa ++ fv ++ 0#7 ++ 0#1 ++ ty.bits)))) = _
  (simp (disch := decide) only [fieldsST, fld_lo, fld_hi, fld_self, Nat.reduceSub, Nat.sub_self]; try simp)

theorem bmin (t : Tok) (a : Sreg) (b : Sreg) (fa : Sreg) (fv : Sreg) (ty : BTy) : Statement (.bmin t a b fa fv ty) := by
  intro _ _ w1 hw
  rw [hw _ rfl, fieldsOf_st (.bmin t a b fa fv ty : Instr) _ 0xD4#8 t (0#5 ++ a ++ b ++ 0#2 ++ 0#1) 0x14 rfl rfl rfl (by decide) (by decide)]
  show fieldsST 0x14 t (0#5 ++ a ++ b ++ 0#2 ++ 0#1) (fld 0 28 (0#4 ++ ((0#6 ++ fa ++ fv ++ 0#7 ++ 0#1 ++ ty.bits)))) = _
  (simp (disch := decide) only [fieldsST, fld_lo, fld_hi, fld_self, Nat.reduceSub, Nat.sub_self]; try simp)

theorem bminStream (t : Tok) (h : Hreg) (a : Sreg) (fa : Sreg) (fv : Sreg) (ty : BTy) : Statement (.bminStream t h a fa fv ty) := by
  intro _ _ w1 hw
  rw [hw _ rfl, fieldsOf_st (.bminStream t h a fa fv ty : Instr) _ 0xD4#8 t (h ++ a ++ 0#6 ++ 0#2 ++ 1#1) 0x14 rfl rfl rfl (by decide) (by decide)]
  show fieldsST 0x14 t (h ++ a ++ 0#6 ++ 0#2 ++ 1#1) (fld 0 28 (0#4 ++ ((0#6 ++ fa ++ fv ++ 0#7 ++ 0#1 ++ ty.bits)))) = _
  (simp (disch := decide) only [fieldsST, fld_lo, fld_hi, fld_self, Nat.reduceSub, Nat.sub_self]; try simp)

theorem bmax (t : Tok) (a : Sreg) (b : Sreg) (fa : Sreg) (fv : Sreg) (ty : BTy) : Statement (.bmax t a b fa fv ty) := by
  intro _ _ w1 hw
  rw [hw _ rfl, fieldsOf_st (.bmax t a b fa fv ty : Instr) _ 0xD5#8 t (0#5 ++ a ++ b ++ 0#2 ++ 0#1) 0x15 rfl rfl rfl (by decide) (by decide)]
  show fieldsST 0x15 t (0#5 ++ a ++ b ++ 0#2 ++ 0#1) (fld 0 28 (0#4 ++ ((0#6 ++ fa ++ fv ++ 0#7 ++ 0#1 ++ ty.bits)))) = _
  (simp (disch := decide) only [fieldsST, fld_lo, fld_hi, fld_self, Nat.reduceSub, Nat.sub_self]; try simp)

theorem bmaxStream (t : Tok) (h : Hreg) (a : Sreg) (fa : Sreg) (fv : Sreg) (ty : BTy) : Statement (.bmaxStream t h a fa fv ty) := by
  intro _ _ w1 hw
  rw [hw _ rfl, fieldsOf_st (.bmaxStream t h a fa fv ty : Instr) _ 0xD5#8 t (h ++ a ++ 0#6 ++ 0#2 ++ 1#1) 0x15 rfl rfl rfl (by decide) (by decide)]
  show fieldsST 0x15 t (h ++ a ++ 0#6 ++ 0#2 ++ 1#1) (fld 0 28 (0#4 ++ ((0#6 ++ fa ++ fv ++ 0#7 ++ 0#1 ++ ty.bits)))) = _
  (simp (disch := decide) only [fieldsST, fld_lo, fld_hi, fld_self, Nat.reduceSub, Nat.sub_self]; try simp)

theorem bminn (t : Tok) (a : Sreg) (b : Sreg) (fa : Sreg) (fv : Sreg) (ty : BTy) : Statement (.bminn t a b fa fv ty) := by
  intro _ _ w1 hw
  rw [hw _ rfl, fieldsOf_st (.bminn t a b fa fv ty : Instr) _ 0xD6#8 t (0#5 ++ a ++ b ++ 0#2 ++ 0#1) 0x16 rfl rfl rfl (by decide) (by decide)]
  show fieldsST 0x16 t (0#5 ++ a ++ b ++ 0#2 ++ 0#1) (fld 0 28 (0#4 ++ ((0#6 ++ fa ++ fv ++ 0#7 ++ 0#1 ++ ty.bits)))) = _
  (simp (disch := decide) only [fieldsST, fld_lo, fld_hi, fld_self, Nat.reduceSub, Nat.sub_self]; try simp)

theorem bminnStream (t : Tok) (h : Hreg) (a : Sreg) (fa : Sreg) (fv : Sreg) (ty : BTy) : Statement (.bminnStream t h a fa fv ty) := by
  intro _ _ w1 hw
  rw [hw _ rfl, fieldsOf_st (.bminnStream t h a fa fv ty : Instr) _ 0xD6#8 t (h ++ a ++ 0#6 ++ 0#2 ++ 1#1) 0x16 rfl rfl rfl (by decide) (by decide)]
  show fieldsST 0x16 t (h ++ a ++ 0#6 ++ 0#2 ++ 1#1) (fld 0 28 (0#4 ++ ((0#6 ++ fa ++ fv ++ 0#7 ++ 0#1 ++ ty.bits)))) = _
  (simp (disch := decide) only [fieldsST, fld_lo, fld_hi, fld_self, Nat.reduceSub, Nat.sub_self]; try simp)

theorem bmaxn (t : Tok) (a : Sreg) (b : Sreg) (fa : Sreg) (fv : Sreg) (ty : BTy) : Statement (.bmaxn t a b fa fv ty) := by
  intro _ _ w1 hw
  rw [hw _ rfl, fieldsOf_st (.bmaxn t a b fa fv ty : Instr) _ 0xD7#8 t (0#5 ++ a ++ b ++ 0#2 ++ 0#1) 0x17 rfl rfl rfl (by decide) (by decide)]
  show fieldsST 0x17 t (0#5 ++ a ++ b ++ 0#2 ++ 0#1) (fld 0 28 (0#4 ++ ((0#6 ++ fa ++ fv ++ 0#7 ++ 0#1 ++ ty.bits)))) = _
  (simp (disch := decide) only [fieldsST, fld_lo, fld_hi, fld_self, Nat.reduceSub, Nat.sub_self]; try simp)

theorem bmaxnStream (t : Tok) (h : Hreg) (a : Sreg) (fa : Sreg) (fv : Sreg) (ty : BTy) : Statement (.bmaxnStream t h a fa fv ty) := by
  intro _ _ w1 hw
  rw [hw _ rfl, fieldsOf_st (.bmaxnStream t h a fa fv ty : Instr) _ 0xD7#8 t (h ++ a ++ 0#6 ++ 0#2 ++ 1#1) 0x17 rfl rfl rfl (by decide) (by decide)]
  show fieldsST 0x17 t (h ++ a ++ 0#6 ++ 0#2 ++ 1#1) (fld 0 28 (0#4 ++ ((0#6 ++ fa ++ fv ++ 0#7 ++ 0#1 ++ ty.bits)))) = _
  (simp (disch := decide) only [fieldsST, fld_lo, fld_hi, fld_self, Nat.reduceSub, Nat.sub_self]; try simp)

theorem bfmin (t : Tok) (a : Sreg) (b : Sreg) (fa : Sreg) (fv : Sreg) : Statement (.bfmin t a b fa fv) := by
  intro _ _ w1 hw
  rw [hw _ rfl, fieldsOf_st (.bfmin t a b fa fv : Instr) _ 0xD8#8 t (0#5 ++ a ++ b ++ 0#2 ++ 0#1) 0x18 rfl rfl rfl (by decide) (by decide)]
  show fieldsST 0x18 t (0#5 ++ a ++ b ++ 0#2 ++ 0#1) (fld 0 28 (0#4 ++ ((0#6 ++ fa ++ fv ++ 0#7 ++ 0#1 ++ 2#2)))) = _
  (simp (disch := decide) only [fieldsST, fld_lo, fld_hi, fld_self, Nat.reduceSub, Nat.sub_self]; try simp)

theorem bfminStream (t : Tok) (h : Hreg) (a : Sreg) (fa : Sreg) (fv : Sreg) : Statement (.bfminStream t h a fa fv) := by
  intro _ _ w1 hw
  rw [hw _ rfl, fieldsOf_st (.bfminStream t h a fa fv : Instr) _ 0xD8#8 t (h ++ a ++ 0#6 ++ 0#2 ++ 1#1) 0x18 rfl rfl rfl (by decide) (by decide)]
  show fieldsST 0x18 t (h ++ a ++ 0#6 ++ 0#2 ++ 1#1) (fld 0 28 (0#4 ++ ((0#6 ++ fa ++ fv ++ 0#7 ++ 0#1 ++ 2#2)))) = _
  (simp (disch := decide) only [fieldsST, fld_lo, fld_hi, fld_self, Nat.reduceSub, Nat.sub_self]; try simp)

theorem bfmax (t : Tok) (a : Sreg) (b : Sreg) (fa : Sreg) (fv : Sreg) : Statement (.bfmax t a b fa fv) := by
  intro _ _ w1 hw
  rw [hw _ rfl, fieldsOf_st (.bfmax t a b fa fv : Instr) _ 0xD9#8 t (0#5 ++ a ++ b ++ 0#2 ++ 0#1) 0x19 rfl rfl rfl (by decide) (by decide)]
  show fieldsST 0x19 t (0#5 ++ a ++ b ++ 0#2 ++ 0#1) (fld 0 28 (0#4 ++ ((0#6 ++ fa ++ fv ++ 0#7 ++ 0#1 ++ 2#2)))) = _
  (simp (disch := decide) only [fieldsST, fld_lo, fld_hi, fld_self, Nat.reduceSub, Nat.sub_self]; try simp)

theorem bfmaxStream (t : Tok) (h : Hreg) (a : Sreg) (fa : Sreg) (fv : Sreg) : Statement (.bfmaxStream t h a fa fv) := by
  intro _ _ w1 hw
  rw [hw _ rfl, fieldsOf_st (.bfmaxStream t h a fa fv : Instr) _ 0xD9#8 t (h ++ a ++ 0#6 ++ 0#2 ++ 1#1) 0x19 rfl rfl rfl (by decide) (by decide)]
  show fieldsST 0x19 t (h ++ a ++ 0#6 ++ 0#2 ++ 1#1) (fld 0 28 (0#4 ++ ((0#6 ++ fa ++ fv ++ 0#7 ++ 0#1 ++ 2#2)))) = _
  (simp (disch := decide) only [fieldsST, fld_lo, fld_hi, fld_self, Nat.reduceSub, Nat.sub_self]; try simp)

theorem bmaxi (t : Tok) (a : Sreg) (b : Sreg) (fa : Sreg) (fv : Sreg) : Statement (.bmaxi t a b fa fv) := by
  intro _ _ w1 hw
  rw [hw _ rfl, fieldsOf_st (.bmaxi t a b fa fv : Instr) _ 0xDA#8 t (0#5 ++ a ++ b ++ 0#2 ++ 0#1) 0x1A rfl rfl rfl (by decide) (by decide)]
  show fieldsST 0x1A t (0#5 ++ a ++ b ++ 0#2 ++ 0#1) (fld 0 28 (0#4 ++ ((0#6 ++ fa ++ fv ++ 0#7 ++ 0#1 ++ 0#2)))) = _
  (simp (disch := decide) only [fieldsST, fld_lo, fld_hi, fld_self, Nat.reduceSub, Nat.sub_self]; try simp)

theorem bmaxiStream (t : Tok) (h : Hreg) (a : Sreg) (b : Sreg) (fa : Sreg) (fv : Sreg) : Statement (.bmaxiStream t h a b fa fv) := by
  intro _ _ w1 hw
  rw [hw _ rfl, fieldsOf_st (.bmaxiStream t h a b fa fv : Instr) _ 0xDA#8 t (h ++ a ++ b ++ 0#2 ++ 1#1) 0x1A rfl rfl rfl (by decide) (by decide)]
  show fieldsST 0x1A t (h ++ a ++ b ++ 0#2 ++ 1#1) (fld 0 28 (0#4 ++ ((0#6 ++ fa ++ fv ++ 0#7 ++ 0#1 ++ 0#2)))) = _
  (simp (disch := decide) only [fieldsST, fld_lo, fld_hi, fld_self, Nat.reduceSub, Nat.sub_self]; try simp)

theorem bxadd (t : Tok) (a : Sreg) (b : Sreg) (fa : Sreg) (fv : Sreg) : Statement (.bxadd t a b fa fv) := by
  intro _ _ w1 hw
  rw [hw _ rfl, fieldsOf_st (.bxadd t a b fa fv : Instr) _ 0xDB#8 t (0#5 ++ a ++ b ++ 0#2 ++ 0#1) 0x1B rfl rfl rfl (by decide) (by decide)]
  show fieldsST 0x1B t (0#5 ++ a ++ b ++ 0#2 ++ 0#1) (fld 0 28 (0#4 ++ ((0#6 ++ fa ++ fv ++ 0#7 ++ 0#1 ++ 2#2)))) = _
  (simp (disch := decide) only [fieldsST, fld_lo, fld_hi, fld_self, Nat.reduceSub, Nat.sub_self]; try simp)

theorem bxaddStream (t : Tok) (h : Hreg) (a : Sreg) (fa : Sreg) (fv : Sreg) : Statement (.bxaddStream t h a fa fv) := by
  intro _ _ w1 hw
  rw [hw _ rfl, fieldsOf_st (.bxaddStream t h a fa fv : Instr) _ 0xDB#8 t (h ++ a ++ 0#6 ++ 0#2 ++ 1#1) 0x1B rfl rfl rfl (by decide) (by decide)]
  show fieldsST 0x1B t (h ++ a ++ 0#6 ++ 0#2 ++ 1#1) (fld 0 28 (0#4 ++ ((0#6 ++ fa ++ fv ++ 0#7 ++ 0#1 ++ 2#2)))) = _
  (simp (disch := decide) only [fieldsST, fld_lo, fld_hi, fld_self, Nat.reduceSub, Nat.sub_self]; try simp)

theorem bxrd (t : Tok) (a : Sreg) (e : Sreg) (fa : Sreg) (fv : Sreg) (clr : Bool) : Statement (.bxrd t a e fa fv clr) := by
  intro _ _ w1 hw
  rw [hw _ rfl, fieldsOf_st (.bxrd t a e fa fv clr : Instr) _ 0xDC#8 t (0#5 ++ a ++ 0#6 ++ 0#2 ++ 0#1) 0x1C rfl rfl rfl (by decide) (by decide)]
  show fieldsST 0x1C t (0#5 ++ a ++ 0#6 ++ 0#2 ++ 0#1) (fld 0 28 (0#4 ++ ((e ++ fa ++ fv ++ 0#7 ++ (bit clr) ++ 2#2)))) = _
  (simp (disch := decide) only [fieldsST, fld_lo, fld_hi, fld_self, Nat.reduceSub, Nat.sub_self]; try simp)

theorem bxrdStream (t : Tok) (h : Hreg) (a : Sreg) (fa : Sreg) (fv : Sreg) (clr : Bool) : Statement (.bxrdStream t h a fa fv clr) := by
  intro _ _ w1 hw
  rw [hw _ rfl, fieldsOf_st (.bxrdStream t h a fa fv clr : Instr) _ 0xDC#8 t (h ++ a ++ 0#6 ++ 0#2 ++ 1#1) 0x1C rfl rfl rfl (by decide) (by decide)]
  show fieldsST 0x1C t (h ++ a ++ 0#6 ++ 0#2 ++ 1#1) (fld 0 28 (0#4 ++ ((0#6 ++ fa ++ fv ++ 0#7 ++ (bit clr) ++ 2#2)))) = _
  (simp (disch := decide) only [fieldsST, fld_lo, fld_hi, fld_self, Nat.reduceSub, Nat.sub_self]; try simp)

theorem bfaa (t : Tok) (a : Sreg) (b : Sreg) (e : Sreg) (fa : Sreg) (fv : Sreg) (ty : BTy) : Statement (.bfaa t a b e fa fv ty) := by
  intro _ _ w1 hw
  rw [hw _ rfl, fieldsOf_st (.bfaa t a b e fa fv ty : Instr) _ 0xDD#8 t (0#5 ++ a ++ b ++ 0#2 ++ 0#1) 0x1D rfl rfl rfl (by decide) (by decide)]
  show fieldsST 0x1D t (0#5 ++ a ++ b ++ 0#2 ++ 0#1) (fld 0 28 (0#4 ++ ((e ++ fa ++ fv ++ 0#7 ++ 0#1 ++ ty.bits)))) = _
  (simp (disch := decide) only [fieldsST, fld_lo, fld_hi, fld_self, Nat.reduceSub, Nat.sub_self]; try simp)

theorem bfaaStream (t : Tok) (h : Hreg) (a : Sreg) (fa : Sreg) (fv : Sreg) (ty : BTy) : Statement (.bfaaStream t h a fa fv ty) := by
  intro _ _ w1 hw
  rw [hw _ rfl, fieldsOf_st (.bfaaStream t h a fa fv ty : Instr) _ 0xDD#8 t (h ++ a ++ 0#6 ++ 0#2 ++ 1#1) 0x1D rfl rfl rfl (by decide) (by decide)]
  show fieldsST 0x1D t (h ++ a ++ 0#6 ++ 0#2 ++ 1#1) (fld 0 28 (0#4 ++ ((0#6 ++ fa ++ fv ++ 0#7 ++ 0#1 ++ ty.bits)))) = _
  (simp (disch := decide) only [fieldsST, fld_lo, fld_hi, fld_self, Nat.reduceSub, Nat.sub_self]; try simp)

theorem bcas (t : Tok) (a : Sreg) (b : Sreg) (e : Sreg) (fa : Sreg) (fv : Sreg) (ty : BTy) : Statement (.bcas t a b e fa fv ty) := by
  intro _ _ w1 hw
  rw [hw _ rfl, fieldsOf_st (.bcas t a b e fa fv ty : Instr) _ 0xDE#8 t (0#5 ++ a ++ b ++ 0#2 ++ 0#1) 0x1E rfl rfl rfl (by decide) (by decide)]
  show fieldsST 0x1E t (0#5 ++ a ++ b ++ 0#2 ++ 0#1) (fld 0 28 (0#4 ++ ((e ++ fa ++ fv ++ 0#7 ++ 0#1 ++ ty.bits)))) = _
  (simp (disch := decide) only [fieldsST, fld_lo, fld_hi, fld_self, Nat.reduceSub, Nat.sub_self]; try simp)

theorem bld (t : Tok) (a : Sreg) (e : Sreg) (fa : Sreg) (fv : Sreg) (ty : BTy) : Statement (.bld t a e fa fv ty) := by
  intro _ _ w1 hw
  rw [hw _ rfl, fieldsOf_st (.bld t a e fa fv ty : Instr) _ 0xDF#8 t (0#5 ++ a ++ 0#6 ++ 0#2 ++ 0#1) 0x1F rfl rfl rfl (by decide) (by decide)]
  show fieldsST 0x1F t (0#5 ++ a ++ 0#6 ++ 0#2 ++ 0#1) (fld 0 28 (0#4 ++ ((e ++ fa ++ fv ++ 0#7 ++ 0#1 ++ ty.bits)))) = _
  (simp (disch := decide) only [fieldsST, fld_lo, fld_hi, fld_self, Nat.reduceSub, Nat.sub_self]; try simp)

theorem bldStream (t : Tok) (h : Hreg) (a : Sreg) (fa : Sreg) (fv : Sreg) (ty : BTy) : Statement (.bldStream t h a fa fv ty) := by
  intro _ _ w1 hw
  rw [hw _ rfl, fieldsOf_st (.bldStream t h a fa fv ty : Instr) _ 0xDF#8 t (h ++ a ++ 0#6 ++ 0#2 ++ 1#1) 0x1F rfl rfl rfl (by decide) (by decide)]
  show fieldsST 0x1F t (h ++ a ++ 0#6 ++ 0#2 ++ 1#1) (fld 0 28 (0#4 ++ ((0#6 ++ fa ++ fv ++ 0#7 ++ 0#1 ++ ty.bits)))) = _
  (simp (disch := decide) only [fieldsST, fld_lo, fld_hi, fld_self, Nat.reduceSub, Nat.sub_self]; try simp)

theorem bst (t : Tok) (a : Sreg) (b : Sreg) (fa : Sreg) (fv : Sreg) (ty : BTy) : Statement (.bst t a b fa fv ty) := by
  intro _ _ w1 hw
  rw [hw _ rfl, fieldsOf_st (.bst t a b fa fv ty : Instr) _ 0xE0#8 t (0#5 ++ a ++ b ++ 0#2 ++ 0#1) 0x20 rfl rfl rfl (by decide) (by decide)]
  show fieldsST 0x20 t (0#5 ++ a ++ b ++ 0#2 ++ 0#1) (fld 0 28 (0#4 ++ ((0#6 ++ fa ++ fv ++ 0#7 ++ 0#1 ++ ty.bits)))) = _
  (simp (disch := decide) only [fieldsST, fld_lo, fld_hi, fld_self, Nat.reduceSub, Nat.sub_self]; try simp)

theorem bstStream (t : Tok) (h : Hreg) (a : Sreg) (fa : Sreg) (fv : Sreg) (ty : BTy) : Statement (.bstStream t h a fa fv ty) := by
  intro _ _ w1 hw
  rw [hw _ rfl, fieldsOf_st (.bstStream t h a fa fv ty : Instr) _ 0xE0#8 t (h ++ a ++ 0#6 ++ 0#2 ++ 1#1) 0x20 rfl rfl rfl (by decide) (by decide)]
  show fieldsST 0x20 t (h ++ a ++ 0#6 ++ 0#2 ++ 1#1) (fld 0 28 (0#4 ++ ((0#6 ++ fa ++ fv ++ 0#7 ++ 0#1 ++ ty.bits)))) = _
  (simp (disch := decide) only [fieldsST, fld_lo, fld_hi, fld_self, Nat.reduceSub, Nat.sub_self]; try simp)

theorem bhist (t : Tok) (a : Sreg) (b : Sreg) (fa : Sreg) (fv : Sreg) : Statement (.bhist t a b fa fv) := by
  intro _ _ w1 hw
  rw [hw _ rfl, fieldsOf_st (.bhist t a b fa fv : Instr) _ 0xE1#8 t (0#5 ++ a ++ b ++ 0#2 ++ 0#1) 0x21 rfl rfl rfl (by decide) (by decide)]
  show fieldsST 0x21 t (0#5 ++ a ++ b ++ 0#2 ++ 0#1) (fld 0 28 (0#4 ++ ((0#6 ++ fa ++ fv ++ 0#7 ++ 0#1 ++ 0#2)))) = _
  (simp (disch := decide) only [fieldsST, fld_lo, fld_hi, fld_self, Nat.reduceSub, Nat.sub_self]; try simp)

theorem bhistStream (t : Tok) (h : Hreg) (a : Sreg) (b : Sreg) (fa : Sreg) (fv : Sreg) (sh : BitVec 5) : Statement (.bhistStream t h a b fa fv sh) := by
  intro _ _ w1 hw
  rw [hw _ rfl, fieldsOf_st (.bhistStream t h a b fa fv sh : Instr) _ 0xE1#8 t (h ++ a ++ b ++ 0#2 ++ 1#1) 0x21 rfl rfl rfl (by decide) (by decide)]
  show fieldsST 0x21 t (h ++ a ++ b ++ 0#2 ++ 1#1) (fld 0 28 (0#4 ++ ((0#6 ++ fa ++ fv ++ 0#1 ++ sh ++ 0#1 ++ 0#1 ++ 0#2)))) = _
  (simp (disch := decide) only [fieldsST, fld_lo, fld_hi, fld_self, Nat.reduceSub, Nat.sub_self]; try simp)

theorem bpfx (t : Tok) (a : Sreg) (b : Sreg) (e : Sreg) (fa : Sreg) (fv : Sreg) : Statement (.bpfx t a b e fa fv) := by
  intro _ _ w1 hw
  rw [hw _ rfl, fieldsOf_st (.bpfx t a b e fa fv : Instr) _ 0xE2#8 t (0#5 ++ a ++ b ++ 0#2 ++ 0#1) 0x22 rfl rfl rfl (by decide) (by decide)]
  show fieldsST 0x22 t (0#5 ++ a ++ b ++ 0#2 ++ 0#1) (fld 0 28 (0#4 ++ ((e ++ fa ++ fv ++ 0#7 ++ 0#1 ++ 0#2)))) = _
  (simp (disch := decide) only [fieldsST, fld_lo, fld_hi, fld_self, Nat.reduceSub, Nat.sub_self]; try simp)

theorem baxpy (t : Tok) (a : Sreg) (b : Sreg) (e : Sreg) (fa : Sreg) (fv : Sreg) (ty : BTy) : Statement (.baxpy t a b e fa fv ty) := by
  intro _ _ w1 hw
  rw [hw _ rfl, fieldsOf_st (.baxpy t a b e fa fv ty : Instr) _ 0xE3#8 t (0#5 ++ a ++ b ++ 0#2 ++ 0#1) 0x23 rfl rfl rfl (by decide) (by decide)]
  show fieldsST 0x23 t (0#5 ++ a ++ b ++ 0#2 ++ 0#1) (fld 0 28 (0#4 ++ ((e ++ fa ++ fv ++ 0#7 ++ 0#1 ++ ty.bits)))) = _
  (simp (disch := decide) only [fieldsST, fld_lo, fld_hi, fld_self, Nat.reduceSub, Nat.sub_self]; try simp)

theorem baxpyStream (t : Tok) (h : Hreg) (a : Sreg) (e : Sreg) (fa : Sreg) (fv : Sreg) (ty : BTy) : Statement (.baxpyStream t h a e fa fv ty) := by
  intro _ _ w1 hw
  rw [hw _ rfl, fieldsOf_st (.baxpyStream t h a e fa fv ty : Instr) _ 0xE3#8 t (h ++ a ++ 0#6 ++ 0#2 ++ 1#1) 0x23 rfl rfl rfl (by decide) (by decide)]
  show fieldsST 0x23 t (h ++ a ++ 0#6 ++ 0#2 ++ 1#1) (fld 0 28 (0#4 ++ ((e ++ fa ++ fv ++ 0#7 ++ 0#1 ++ ty.bits)))) = _
  (simp (disch := decide) only [fieldsST, fld_lo, fld_hi, fld_self, Nat.reduceSub, Nat.sub_self]; try simp)

theorem waitaWake (c : Nat) : Statement (.waitaWake c) := fun h => nomatch h

theorem decodeFault (c : Nat) : Statement (.decodeFault c) := fun h => nomatch h

theorem instrComplete (c : Nat) (e : Eng) : Statement (.instrComplete c e) := fun h => nomatch h

theorem signalLatchDrain (c : Nat) (dir : Dir) : Statement (.signalLatchDrain c dir) := fun h => nomatch h

theorem leaseGrant (k : Nat) : Statement (.leaseGrant k) := fun h => nomatch h

theorem bankPerform (bank : Nat) : Statement (.bankPerform bank) := fun h => nomatch h

theorem remoteDeliver (src : Nat) (dst : Nat) : Statement (.remoteDeliver src dst) := fun h => nomatch h

theorem dispatch (p : Nat) : Statement (.dispatch p) := fun h => nomatch h

theorem countRead (p : Nat) (q : Nat) : Statement (.countRead p q) := fun h => nomatch h

theorem unitEnd (c : Nat) : Statement (.unitEnd c) := fun h => nomatch h

theorem phaseClosing (p : Nat) : Statement (.phaseClosing p) := fun h => nomatch h

theorem phaseClose (p : Nat) : Statement (.phaseClose p) := fun h => nomatch h

theorem clusterWake (k : Nat) : Statement (.clusterWake k) := fun h => nomatch h

theorem slotBoundary (die : Nat) : Statement (.slotBoundary die) := fun h => nomatch h

theorem declAdmit (c : Nat) : Statement (.declAdmit c) := fun h => nomatch h

theorem declActivate (c : Nat) : Statement (.declActivate c) := fun h => nomatch h

theorem declLapse (c : Nat) (serial : Nat) : Statement (.declLapse c serial) := fun h => nomatch h

theorem undeclThrottleEnd (k : Nat) : Statement (.undeclThrottleEnd k) := fun h => nomatch h

theorem sagHoldEnd (die : Nat) : Statement (.sagHoldEnd die) := fun h => nomatch h

theorem collOffer (c : Nat) (serial : Nat) : Statement (.collOffer c serial) := fun h => nomatch h

theorem collMissing (c : Nat) (serial : Nat) : Statement (.collMissing c serial) := fun h => nomatch h

theorem packageReset : Statement (.packageReset) := fun h => nomatch h

theorem linkSlotBoundary : Statement (.linkSlotBoundary) := fun h => nomatch h

theorem relaxIteration (c : Nat) : Statement (.relaxIteration c) := fun h => nomatch h

theorem tableWalk (c : Nat) (va : W64) : Statement (.tableWalk c va) := fun h => nomatch h

theorem load (c : Nat) (e : Eng) : Statement (.load c e) := fun h => nomatch h

theorem land (c : Nat) (e : Eng) : Statement (.land c e) := fun h => nomatch h

theorem copyComplete (c : Nat) (e : Eng) : Statement (.copyComplete c e) := fun h => nomatch h

theorem bankSend (c : Nat) : Statement (.bankSend c) := fun h => nomatch h

theorem tlbiMark (c : Nat) (e : Eng) : Statement (.tlbiMark c e) := fun h => nomatch h

theorem migrMove (c : Nat) : Statement (.migrMove c) := fun h => nomatch h

theorem coreStop (c : Nat) (x : Stop) : Statement (.coreStop c x) := fun h => nomatch h

theorem pkRelease (p : Nat) (seq : Nat) : Statement (.pkRelease p seq) := fun h => nomatch h

theorem pkFail (p : Nat) (seq : Nat) : Statement (.pkFail p seq) := fun h => nomatch h

theorem preemptAbort (c : Nat) : Statement (.preemptAbort c) := fun h => nomatch h

theorem partitionSwap (p : Nat) : Statement (.partitionSwap p) := fun h => nomatch h

theorem swapContext (p : Nat) (tenant : Nat) : Statement (.swapContext p tenant) := fun h => nomatch h

theorem jobStart (p : Nat) (job : W64) : Statement (.jobStart p job) := fun h => nomatch h

theorem phaseAdv (p : Nat) : Statement (.phaseAdv p) := fun h => nomatch h

theorem registerWrite (r : RegTarget) (v : W64) : Statement (.registerWrite r v) := fun h => nomatch h

theorem enrLoRead (c : Nat) (d : Sreg) : Statement (.enrLoRead c d) := fun h => nomatch h

theorem clusterGate (k : Nat) : Statement (.clusterGate k) := fun h => nomatch h

theorem sagEvent (die : Nat) : Statement (.sagEvent die) := fun h => nomatch h

theorem thermalRead (readings : List Nat) : Statement (.thermalRead readings) := fun h => nomatch h

theorem energyUpdate (uj : Nat) : Statement (.energyUpdate uj) := fun h => nomatch h

theorem collRecord (x : CollHop) (port : Nat) : Statement (.collRecord x port) := fun h => nomatch h

theorem report (m : MbInst) : Statement (.report m) := fun h => nomatch h

theorem meas (m : MbInst) : Statement (.meas m) := fun h => nomatch h

theorem ident (m : MbInst) : Statement (.ident m) := fun h => nomatch h

theorem rwrite (m : MbInst) : Statement (.rwrite m) := fun h => nomatch h

theorem rboot (m : MbInst) : Statement (.rboot m) := fun h => nomatch h

theorem smbSetPointer (v : BitVec 16) : Statement (.smbSetPointer v) := fun h => nomatch h

theorem smbBlockWrite (bs : List Byte) : Statement (.smbBlockWrite bs) := fun h => nomatch h

theorem smbBlockRead (n : Nat) : Statement (.smbBlockRead n) := fun h => nomatch h

theorem smbCommand (v : BitVec 32) : Statement (.smbCommand v) := fun h => nomatch h

theorem smbStatus : Statement (.smbStatus) := fun h => nomatch h

theorem dmaWrite (port : Nat) (rid : BitVec 16) (va : W64) (bs : List Byte) : Statement (.dmaWrite port rid va bs) := fun h => nomatch h

theorem dmaRead (port : Nat) (rid : BitVec 16) (va : W64) (n : Nat) : Statement (.dmaRead port rid va n) := fun h => nomatch h

theorem cardDeliver (port : Nat) (rid : BitVec 16) (desc : W64) (tag : BitVec 32) (bs : List Byte) : Statement (.cardDeliver port rid desc tag bs) := fun h => nomatch h

theorem portTransmit (port : Nat) (rid : BitVec 16) (desc : W64) : Statement (.portTransmit port rid desc) := fun h => nomatch h

theorem hqStage (q : Nat) (off : Nat) (bs : List Byte) : Statement (.hqStage q off bs) := fun h => nomatch h

theorem hqPost (q : Nat) (v : W64) : Statement (.hqPost q v) := fun h => nomatch h

theorem hqTxc (q : Nat) : Statement (.hqTxc q) := fun h => nomatch h

theorem acLoad (ac : Nat) (va : W64) (n : Nat) : Statement (.acLoad ac va n) := fun h => nomatch h

theorem acStore (ac : Nat) (va : W64) (bs : List Byte) : Statement (.acStore ac va bs) := fun h => nomatch h

theorem acTlbi (ac : Nat) : Statement (.acTlbi ac) := fun h => nomatch h

theorem bpBadd (ac : Nat) (ty : BitVec 2) : Statement (.bpBadd ac ty) := fun h => nomatch h

theorem bpBand (ac : Nat) (ty : BitVec 2) : Statement (.bpBand ac ty) := fun h => nomatch h

theorem bpBor (ac : Nat) (ty : BitVec 2) : Statement (.bpBor ac ty) := fun h => nomatch h

theorem bpBxor (ac : Nat) (ty : BitVec 2) : Statement (.bpBxor ac ty) := fun h => nomatch h

theorem bpBmin (ac : Nat) (ty : BitVec 2) : Statement (.bpBmin ac ty) := fun h => nomatch h

theorem bpBmax (ac : Nat) (ty : BitVec 2) : Statement (.bpBmax ac ty) := fun h => nomatch h

theorem bpBminn (ac : Nat) (ty : BitVec 2) : Statement (.bpBminn ac ty) := fun h => nomatch h

theorem bpBmaxn (ac : Nat) (ty : BitVec 2) : Statement (.bpBmaxn ac ty) := fun h => nomatch h

theorem bpBfmin (ac : Nat) (ty : BitVec 2) : Statement (.bpBfmin ac ty) := fun h => nomatch h

theorem bpBfmax (ac : Nat) (ty : BitVec 2) : Statement (.bpBfmax ac ty) := fun h => nomatch h

theorem bpBmaxi (ac : Nat) (ty : BitVec 2) : Statement (.bpBmaxi ac ty) := fun h => nomatch h

theorem bpBxadd (ac : Nat) (ty : BitVec 2) : Statement (.bpBxadd ac ty) := fun h => nomatch h

theorem bpBxrd (ac : Nat) (ty : BitVec 2) (clr : Bool) : Statement (.bpBxrd ac ty clr) := fun h => nomatch h

theorem bpBfaa (ac : Nat) (ty : BitVec 2) : Statement (.bpBfaa ac ty) := fun h => nomatch h

theorem bpBcas (ac : Nat) (ty : BitVec 2) : Statement (.bpBcas ac ty) := fun h => nomatch h

theorem bpBld (ac : Nat) (ty : BitVec 2) : Statement (.bpBld ac ty) := fun h => nomatch h

theorem bpBst (ac : Nat) (ty : BitVec 2) : Statement (.bpBst ac ty) := fun h => nomatch h

theorem bpBhist (ac : Nat) (ty : BitVec 2) : Statement (.bpBhist ac ty) := fun h => nomatch h

theorem bpBpfx (ac : Nat) (ty : BitVec 2) : Statement (.bpBpfx ac ty) := fun h => nomatch h

theorem bpBaxpy (ac : Nat) (ty : BitVec 2) : Statement (.bpBaxpy ac ty) := fun h => nomatch h

theorem lpLaunch (ac : Nat) : Statement (.lpLaunch ac) := fun h => nomatch h

theorem caRead (ac : Nat) : Statement (.caRead ac) := fun h => nomatch h

theorem caWrite (ac : Nat) : Statement (.caWrite ac) := fun h => nomatch h

theorem srRead (ac : Nat) : Statement (.srRead ac) := fun h => nomatch h

theorem srWrite (ac : Nat) : Statement (.srWrite ac) := fun h => nomatch h

theorem linkSendSlot (c : Nat) : Statement (.linkSendSlot c) := fun h => nomatch h

theorem linkHop (x : LinkXfer) (port : Nat) : Statement (.linkHop x port) := fun h => nomatch h

theorem linkArrive (x : LinkXfer) (port : Nat) : Statement (.linkArrive x port) := fun h => nomatch h

theorem linkRedCombine (c : Nat) : Statement (.linkRedCombine c) := fun h => nomatch h

theorem scrub (w : ProtWord) : Statement (.scrub w) := fun h => nomatch h

theorem storedBitFailure (w : ProtWord) (correctable : Bool) : Statement (.storedBitFailure w correctable) := fun h => nomatch h

theorem partitionCreation (p : Nat) (k : Nat) (dbg : Bool) : Statement (.partitionCreation p k dbg) := fun h => nomatch h

theorem coreReset (c : Nat) : Statement (.coreReset c) := fun h => nomatch h

end Sys2Proof.Laws.Fields
end

