-- ==== Sys2Proof/Laws/State.lean ====
section
/-!
SUPPORT. Sys2Proof/Laws/State.lean: what each update of the state and of a core changes, field by field, so that no proof
unfolds a record update.
-/

namespace Sys2Proof.Machine
open Sys2Proof

/-! ### The package -/

@[simp] theorem setCore_cur (s : State) (c : Nat) (x : Core) : (s.setCore c x).cur = s.cur := rfl
@[simp] theorem setCore_turn (s : State) (c : Nat) (x : Core) : (s.setCore c x).turn = s.turn := rfl
@[simp] theorem setCore_agenda (s : State) (c : Nat) (x : Core) : (s.setCore c x).agenda = s.agenda := rfl
@[simp] theorem setCore_lagBanks (s : State) (c : Nat) (x : Core) : (s.setCore c x).lagBanks = s.lagBanks := rfl
@[simp] theorem setCore_lagDeliver (s : State) (c : Nat) (x : Core) : (s.setCore c x).lagDeliver = s.lagDeliver := rfl
@[simp] theorem setCore_onePart (s : State) (c : Nat) (x : Core) : (s.setCore c x).onePart = s.onePart := rfl
@[simp] theorem setCore_clusters (s : State) (c : Nat) (x : Core) : (s.setCore c x).clusters = s.clusters := rfl
@[simp] theorem setCore_dies (s : State) (c : Nat) (x : Core) : (s.setCore c x).dies = s.dies := rfl
@[simp] theorem setCore_parts (s : State) (c : Nat) (x : Core) : (s.setCore c x).parts = s.parts := rfl
@[simp] theorem setCore_mem (s : State) (c : Nat) (x : Core) : (s.setCore c x).mem = s.mem := rfl
@[simp] theorem setCore_badMem (s : State) (c : Nat) (x : Core) : (s.setCore c x).badMem = s.badMem := rfl
@[simp] theorem setCore_weak (s : State) (c : Nat) (x : Core) : (s.setCore c x).weak = s.weak := rfl
@[simp] theorem setCore_fifos (s : State) (c : Nat) (x : Core) : (s.setCore c x).fifos = s.fifos := rfl
@[simp] theorem setCore_ik (s : State) (c : Nat) (x : Core) : (s.setCore c x).ik = s.ik := rfl
@[simp] theorem setCore_links (s : State) (c : Nat) (x : Core) : (s.setCore c x).links = s.links := rfl
@[simp] theorem setCore_free (s : State) (c : Nat) (x : Core) : (s.setCore c x).free = s.free := rfl
@[simp] theorem setClu_cur (s : State) (k : Nat) (x : Cluster) : (s.setClu k x).cur = s.cur := rfl
@[simp] theorem setClu_turn (s : State) (k : Nat) (x : Cluster) : (s.setClu k x).turn = s.turn := rfl
@[simp] theorem setClu_agenda (s : State) (k : Nat) (x : Cluster) : (s.setClu k x).agenda = s.agenda := rfl
@[simp] theorem setClu_lagBanks (s : State) (k : Nat) (x : Cluster) : (s.setClu k x).lagBanks = s.lagBanks := rfl
@[simp] theorem setClu_lagDeliver (s : State) (k : Nat) (x : Cluster) : (s.setClu k x).lagDeliver = s.lagDeliver := rfl
@[simp] theorem setClu_onePart (s : State) (k : Nat) (x : Cluster) : (s.setClu k x).onePart = s.onePart := rfl
@[simp] theorem setClu_cores (s : State) (k : Nat) (x : Cluster) : (s.setClu k x).cores = s.cores := rfl
@[simp] theorem setClu_dies (s : State) (k : Nat) (x : Cluster) : (s.setClu k x).dies = s.dies := rfl
@[simp] theorem setClu_parts (s : State) (k : Nat) (x : Cluster) : (s.setClu k x).parts = s.parts := rfl
@[simp] theorem setClu_mem (s : State) (k : Nat) (x : Cluster) : (s.setClu k x).mem = s.mem := rfl
@[simp] theorem setClu_badMem (s : State) (k : Nat) (x : Cluster) : (s.setClu k x).badMem = s.badMem := rfl
@[simp] theorem setClu_weak (s : State) (k : Nat) (x : Cluster) : (s.setClu k x).weak = s.weak := rfl
@[simp] theorem setClu_fifos (s : State) (k : Nat) (x : Cluster) : (s.setClu k x).fifos = s.fifos := rfl
@[simp] theorem setClu_ik (s : State) (k : Nat) (x : Cluster) : (s.setClu k x).ik = s.ik := rfl
@[simp] theorem setClu_links (s : State) (k : Nat) (x : Cluster) : (s.setClu k x).links = s.links := rfl
@[simp] theorem setClu_free (s : State) (k : Nat) (x : Cluster) : (s.setClu k x).free = s.free := rfl
@[simp] theorem setDie_cur (s : State) (d : Nat) (x : Die) : (s.setDie d x).cur = s.cur := rfl
@[simp] theorem setDie_turn (s : State) (d : Nat) (x : Die) : (s.setDie d x).turn = s.turn := rfl
@[simp] theorem setDie_agenda (s : State) (d : Nat) (x : Die) : (s.setDie d x).agenda = s.agenda := rfl
@[simp] theorem setDie_lagBanks (s : State) (d : Nat) (x : Die) : (s.setDie d x).lagBanks = s.lagBanks := rfl
@[simp] theorem setDie_lagDeliver (s : State) (d : Nat) (x : Die) : (s.setDie d x).lagDeliver = s.lagDeliver := rfl
@[simp] theorem setDie_onePart (s : State) (d : Nat) (x : Die) : (s.setDie d x).onePart = s.onePart := rfl
@[simp] theorem setDie_cores (s : State) (d : Nat) (x : Die) : (s.setDie d x).cores = s.cores := rfl
@[simp] theorem setDie_clusters (s : State) (d : Nat) (x : Die) : (s.setDie d x).clusters = s.clusters := rfl
@[simp] theorem setDie_parts (s : State) (d : Nat) (x : Die) : (s.setDie d x).parts = s.parts := rfl
@[simp] theorem setDie_mem (s : State) (d : Nat) (x : Die) : (s.setDie d x).mem = s.mem := rfl
@[simp] theorem setDie_badMem (s : State) (d : Nat) (x : Die) : (s.setDie d x).badMem = s.badMem := rfl
@[simp] theorem setDie_weak (s : State) (d : Nat) (x : Die) : (s.setDie d x).weak = s.weak := rfl
@[simp] theorem setDie_fifos (s : State) (d : Nat) (x : Die) : (s.setDie d x).fifos = s.fifos := rfl
@[simp] theorem setDie_ik (s : State) (d : Nat) (x : Die) : (s.setDie d x).ik = s.ik := rfl
@[simp] theorem setDie_links (s : State) (d : Nat) (x : Die) : (s.setDie d x).links = s.links := rfl
@[simp] theorem setDie_free (s : State) (d : Nat) (x : Die) : (s.setDie d x).free = s.free := rfl
@[simp] theorem setPart_cur (s : State) (p : Nat) (x : Part) : (s.setPart p x).cur = s.cur := rfl
@[simp] theorem setPart_turn (s : State) (p : Nat) (x : Part) : (s.setPart p x).turn = s.turn := rfl
@[simp] theorem setPart_agenda (s : State) (p : Nat) (x : Part) : (s.setPart p x).agenda = s.agenda := rfl
@[simp] theorem setPart_lagBanks (s : State) (p : Nat) (x : Part) : (s.setPart p x).lagBanks = s.lagBanks := rfl
@[simp] theorem setPart_lagDeliver (s : State) (p : Nat) (x : Part) : (s.setPart p x).lagDeliver = s.lagDeliver := rfl
@[simp] theorem setPart_onePart (s : State) (p : Nat) (x : Part) : (s.setPart p x).onePart = s.onePart := rfl
@[simp] theorem setPart_cores (s : State) (p : Nat) (x : Part) : (s.setPart p x).cores = s.cores := rfl
@[simp] theorem setPart_clusters (s : State) (p : Nat) (x : Part) : (s.setPart p x).clusters = s.clusters := rfl
@[simp] theorem setPart_dies (s : State) (p : Nat) (x : Part) : (s.setPart p x).dies = s.dies := rfl
@[simp] theorem setPart_mem (s : State) (p : Nat) (x : Part) : (s.setPart p x).mem = s.mem := rfl
@[simp] theorem setPart_badMem (s : State) (p : Nat) (x : Part) : (s.setPart p x).badMem = s.badMem := rfl
@[simp] theorem setPart_weak (s : State) (p : Nat) (x : Part) : (s.setPart p x).weak = s.weak := rfl
@[simp] theorem setPart_fifos (s : State) (p : Nat) (x : Part) : (s.setPart p x).fifos = s.fifos := rfl
@[simp] theorem setPart_ik (s : State) (p : Nat) (x : Part) : (s.setPart p x).ik = s.ik := rfl
@[simp] theorem setPart_links (s : State) (p : Nat) (x : Part) : (s.setPart p x).links = s.links := rfl
@[simp] theorem setPart_free (s : State) (p : Nat) (x : Part) : (s.setPart p x).free = s.free := rfl
@[simp] theorem core_setCore_same (s : State) (c : Nat) (x : Core) : (s.setCore c x).core c = x := mget_mset_same _ _ _ _
theorem core_setCore_ne (s : State) {c j : Nat} (x : Core) (h : j ≠ c) : (s.setCore c x).core j = s.core j := mget_mset_ne _ _ _ h
@[simp] theorem clu_setCore (s : State) (c j : Nat) (x : Core) : (s.setCore c x).clu j = s.clu j := rfl
@[simp] theorem die_setCore (s : State) (c j : Nat) (x : Core) : (s.setCore c x).die j = s.die j := rfl
@[simp] theorem part_setCore (s : State) (c j : Nat) (x : Core) : (s.setCore c x).part j = s.part j := rfl
@[simp] theorem setCore_setCore (s : State) (c : Nat) (x y : Core) : (s.setCore c x).setCore c y = s.setCore c y := by
  simp [State.setCore]
@[simp] theorem clu_setClu_same (s : State) (k : Nat) (x : Cluster) : (s.setClu k x).clu k = x := mget_mset_same _ _ _ _
theorem clu_setClu_ne (s : State) {k j : Nat} (x : Cluster) (h : j ≠ k) : (s.setClu k x).clu j = s.clu j := mget_mset_ne _ _ _ h
@[simp] theorem core_setClu (s : State) (k j : Nat) (x : Cluster) : (s.setClu k x).core j = s.core j := rfl
@[simp] theorem die_setClu (s : State) (k j : Nat) (x : Cluster) : (s.setClu k x).die j = s.die j := rfl
@[simp] theorem part_setClu (s : State) (k j : Nat) (x : Cluster) : (s.setClu k x).part j = s.part j := rfl
@[simp] theorem setClu_setClu (s : State) (k : Nat) (x y : Cluster) : (s.setClu k x).setClu k y = s.setClu k y := by
  simp [State.setClu]
@[simp] theorem die_setDie_same (s : State) (d : Nat) (x : Die) : (s.setDie d x).die d = x := mget_mset_same _ _ _ _
theorem die_setDie_ne (s : State) {d j : Nat} (x : Die) (h : j ≠ d) : (s.setDie d x).die j = s.die j := mget_mset_ne _ _ _ h
@[simp] theorem core_setDie (s : State) (d j : Nat) (x : Die) : (s.setDie d x).core j = s.core j := rfl
@[simp] theorem clu_setDie (s : State) (d j : Nat) (x : Die) : (s.setDie d x).clu j = s.clu j := rfl
@[simp] theorem part_setDie (s : State) (d j : Nat) (x : Die) : (s.setDie d x).part j = s.part j := rfl
@[simp] theorem setDie_setDie (s : State) (d : Nat) (x y : Die) : (s.setDie d x).setDie d y = s.setDie d y := by
  simp [State.setDie]
@[simp] theorem part_setPart_same (s : State) (p : Nat) (x : Part) : (s.setPart p x).part p = x := mget_mset_same _ _ _ _
theorem part_setPart_ne (s : State) {p j : Nat} (x : Part) (h : j ≠ p) : (s.setPart p x).part j = s.part j := mget_mset_ne _ _ _ h
@[simp] theorem core_setPart (s : State) (p j : Nat) (x : Part) : (s.setPart p x).core j = s.core j := rfl
@[simp] theorem clu_setPart (s : State) (p j : Nat) (x : Part) : (s.setPart p x).clu j = s.clu j := rfl
@[simp] theorem die_setPart (s : State) (p j : Nat) (x : Part) : (s.setPart p x).die j = s.die j := rfl
@[simp] theorem setPart_setPart (s : State) (p : Nat) (x y : Part) : (s.setPart p x).setPart p y = s.setPart p y := by
  simp [State.setPart]
@[simp] theorem upCore_cur (s : State) (c : Nat) (f : Core → Core) : (s.upCore c f).cur = s.cur := rfl
@[simp] theorem upCore_turn (s : State) (c : Nat) (f : Core → Core) : (s.upCore c f).turn = s.turn := rfl
@[simp] theorem upCore_agenda (s : State) (c : Nat) (f : Core → Core) : (s.upCore c f).agenda = s.agenda := rfl
@[simp] theorem upCore_lagBanks (s : State) (c : Nat) (f : Core → Core) : (s.upCore c f).lagBanks = s.lagBanks := rfl
@[simp] theorem upCore_lagDeliver (s : State) (c : Nat) (f : Core → Core) : (s.upCore c f).lagDeliver = s.lagDeliver := rfl
@[simp] theorem upCore_onePart (s : State) (c : Nat) (f : Core → Core) : (s.upCore c f).onePart = s.onePart := rfl
@[simp] theorem upCore_clusters (s : State) (c : Nat) (f : Core → Core) : (s.upCore c f).clusters = s.clusters := rfl
@[simp] theorem upCore_dies (s : State) (c : Nat) (f : Core → Core) : (s.upCore c f).dies = s.dies := rfl
@[simp] theorem upCore_parts (s : State) (c : Nat) (f : Core → Core) : (s.upCore c f).parts = s.parts := rfl
@[simp] theorem upCore_mem (s : State) (c : Nat) (f : Core → Core) : (s.upCore c f).mem = s.mem := rfl
@[simp] theorem upCore_badMem (s : State) (c : Nat) (f : Core → Core) : (s.upCore c f).badMem = s.badMem := rfl
@[simp] theorem upCore_weak (s : State) (c : Nat) (f : Core → Core) : (s.upCore c f).weak = s.weak := rfl
@[simp] theorem upCore_fifos (s : State) (c : Nat) (f : Core → Core) : (s.upCore c f).fifos = s.fifos := rfl
@[simp] theorem upCore_ik (s : State) (c : Nat) (f : Core → Core) : (s.upCore c f).ik = s.ik := rfl
@[simp] theorem upCore_links (s : State) (c : Nat) (f : Core → Core) : (s.upCore c f).links = s.links := rfl
@[simp] theorem upCore_free (s : State) (c : Nat) (f : Core → Core) : (s.upCore c f).free = s.free := rfl
@[simp] theorem core_upCore_same (s : State) (c : Nat) (f : Core → Core) : (s.upCore c f).core c = f (s.core c) := mget_mset_same _ _ _ _
theorem core_upCore_ne (s : State) {c j : Nat} (f : Core → Core) (h : j ≠ c) : (s.upCore c f).core j = s.core j := mget_mset_ne _ _ _ h
@[simp] theorem upCore_setCore (s : State) (c : Nat) (x : Core) (f : Core → Core) : (s.setCore c x).upCore c f = s.setCore c (f x) := by
  simp [State.upCore]
@[simp] theorem upClu_cur (s : State) (k : Nat) (f : Cluster → Cluster) : (s.upClu k f).cur = s.cur := rfl
@[simp] theorem upClu_turn (s : State) (k : Nat) (f : Cluster → Cluster) : (s.upClu k f).turn = s.turn := rfl
@[simp] theorem upClu_agenda (s : State) (k : Nat) (f : Cluster → Cluster) : (s.upClu k f).agenda = s.agenda := rfl
@[simp] theorem upClu_lagBanks (s : State) (k : Nat) (f : Cluster → Cluster) : (s.upClu k f).lagBanks = s.lagBanks := rfl
@[simp] theorem upClu_lagDeliver (s : State) (k : Nat) (f : Cluster → Cluster) : (s.upClu k f).lagDeliver = s.lagDeliver := rfl
@[simp] theorem upClu_onePart (s : State) (k : Nat) (f : Cluster → Cluster) : (s.upClu k f).onePart = s.onePart := rfl
@[simp] theorem upClu_cores (s : State) (k : Nat) (f : Cluster → Cluster) : (s.upClu k f).cores = s.cores := rfl
@[simp] theorem upClu_dies (s : State) (k : Nat) (f : Cluster → Cluster) : (s.upClu k f).dies = s.dies := rfl
@[simp] theorem upClu_parts (s : State) (k : Nat) (f : Cluster → Cluster) : (s.upClu k f).parts = s.parts := rfl
@[simp] theorem upClu_mem (s : State) (k : Nat) (f : Cluster → Cluster) : (s.upClu k f).mem = s.mem := rfl
@[simp] theorem upClu_badMem (s : State) (k : Nat) (f : Cluster → Cluster) : (s.upClu k f).badMem = s.badMem := rfl
@[simp] theorem upClu_weak (s : State) (k : Nat) (f : Cluster → Cluster) : (s.upClu k f).weak = s.weak := rfl
@[simp] theorem upClu_fifos (s : State) (k : Nat) (f : Cluster → Cluster) : (s.upClu k f).fifos = s.fifos := rfl
@[simp] theorem upClu_ik (s : State) (k : Nat) (f : Cluster → Cluster) : (s.upClu k f).ik = s.ik := rfl
@[simp] theorem upClu_links (s : State) (k : Nat) (f : Cluster → Cluster) : (s.upClu k f).links = s.links := rfl
@[simp] theorem upClu_free (s : State) (k : Nat) (f : Cluster → Cluster) : (s.upClu k f).free = s.free := rfl
@[simp] theorem clu_upClu_same (s : State) (k : Nat) (f : Cluster → Cluster) : (s.upClu k f).clu k = f (s.clu k) := mget_mset_same _ _ _ _
theorem clu_upClu_ne (s : State) {k j : Nat} (f : Cluster → Cluster) (h : j ≠ k) : (s.upClu k f).clu j = s.clu j := mget_mset_ne _ _ _ h
@[simp] theorem upClu_setClu (s : State) (k : Nat) (x : Cluster) (f : Cluster → Cluster) : (s.setClu k x).upClu k f = s.setClu k (f x) := by
  simp [State.upClu]
@[simp] theorem upPart_cur (s : State) (p : Nat) (f : Part → Part) : (s.upPart p f).cur = s.cur := rfl
@[simp] theorem upPart_turn (s : State) (p : Nat) (f : Part → Part) : (s.upPart p f).turn = s.turn := rfl
@[simp] theorem upPart_agenda (s : State) (p : Nat) (f : Part → Part) : (s.upPart p f).agenda = s.agenda := rfl
@[simp] theorem upPart_lagBanks (s : State) (p : Nat) (f : Part → Part) : (s.upPart p f).lagBanks = s.lagBanks := rfl
@[simp] theorem upPart_lagDeliver (s : State) (p : Nat) (f : Part → Part) : (s.upPart p f).lagDeliver = s.lagDeliver := rfl
@[simp] theorem upPart_onePart (s : State) (p : Nat) (f : Part → Part) : (s.upPart p f).onePart = s.onePart := rfl
@[simp] theorem upPart_cores (s : State) (p : Nat) (f : Part → Part) : (s.upPart p f).cores = s.cores := rfl
@[simp] theorem upPart_clusters (s : State) (p : Nat) (f : Part → Part) : (s.upPart p f).clusters = s.clusters := rfl
@[simp] theorem upPart_dies (s : State) (p : Nat) (f : Part → Part) : (s.upPart p f).dies = s.dies := rfl
@[simp] theorem upPart_mem (s : State) (p : Nat) (f : Part → Part) : (s.upPart p f).mem = s.mem := rfl
@[simp] theorem upPart_badMem (s : State) (p : Nat) (f : Part → Part) : (s.upPart p f).badMem = s.badMem := rfl
@[simp] theorem upPart_weak (s : State) (p : Nat) (f : Part → Part) : (s.upPart p f).weak = s.weak := rfl
@[simp] theorem upPart_fifos (s : State) (p : Nat) (f : Part → Part) : (s.upPart p f).fifos = s.fifos := rfl
@[simp] theorem upPart_ik (s : State) (p : Nat) (f : Part → Part) : (s.upPart p f).ik = s.ik := rfl
@[simp] theorem upPart_links (s : State) (p : Nat) (f : Part → Part) : (s.upPart p f).links = s.links := rfl
@[simp] theorem upPart_free (s : State) (p : Nat) (f : Part → Part) : (s.upPart p f).free = s.free := rfl
@[simp] theorem part_upPart_same (s : State) (p : Nat) (f : Part → Part) : (s.upPart p f).part p = f (s.part p) := mget_mset_same _ _ _ _
theorem part_upPart_ne (s : State) {p j : Nat} (f : Part → Part) (h : j ≠ p) : (s.upPart p f).part j = s.part j := mget_mset_ne _ _ _ h
@[simp] theorem upPart_setPart (s : State) (p : Nat) (x : Part) (f : Part → Part) : (s.setPart p x).upPart p f = s.setPart p (f x) := by
  simp [State.upPart]
@[simp] theorem partNo_setCore (s : State) (c d : Nat) (x : Core) : (s.setCore c x).partNo d = s.partNo d := rfl
@[simp] theorem cycOf_setCore (s : State) (c d : Nat) (x : Core) : (s.setCore c x).cycOf d = s.cycOf d := rfl

/-! ### The registers of a core -/

/-- s0 reads as 0 (R28). -/
@[simp] theorem getS_zero (k : Core) : k.getS 0 = 0 := rfl
/-- A write of s0 is discarded (R28). -/
@[simp] theorem setS_zero (k : Core) (v : W64) : k.setS 0 v = k := rfl
/-- A scalar other than s0 reads as it was written. -/
theorem getS_setS_same (k : Core) {d : Sreg} (v : W64) (h : d ≠ 0) : (k.setS d v).getS d = v := by
  unfold Core.setS Core.getS
  rw [if_neg h, if_neg h]
  exact mget_mput_same _ _ _ _
/-- A scalar write leaves the other scalars alone. -/
theorem getS_setS_ne (k : Core) {d r : Sreg} (v : W64) (h : r ≠ d) : (k.setS d v).getS r = k.getS r := by
  unfold Core.setS
  split
  · rfl
  · unfold Core.getS
    split
    · rfl
    · exact mget_mput_ne _ _ _ (fun e => h (BitVec.eq_of_toNat_eq e))
@[simp] theorem getSr_setSr_same (k : Core) (n : Nat) (v : W64) : (k.setSr n v).getSr n = v := mget_mput_same _ _ _ _
theorem getSr_setSr_ne (k : Core) {n m : Nat} (v : W64) (h : m ≠ n) : (k.setSr n v).getSr m = k.getSr m := by
  simp [Core.getSr, Core.setSr, mget, mfind_mput_ne _ _ _ h]

@[simp] theorem setS_pad (k : Core) (d : Sreg) (x : W64) : (k.setS d x).pad = k.pad := by unfold Core.setS; split <;> rfl
@[simp] theorem setS_v (k : Core) (d : Sreg) (x : W64) : (k.setS d x).v = k.v := by unfold Core.setS; split <;> rfl
@[simp] theorem setS_acc0 (k : Core) (d : Sreg) (x : W64) : (k.setS d x).acc0 = k.acc0 := by unfold Core.setS; split <;> rfl
@[simp] theorem setS_acc1 (k : Core) (d : Sreg) (x : W64) : (k.setS d x).acc1 = k.acc1 := by unfold Core.setS; split <;> rfl
@[simp] theorem setS_anch (k : Core) (d : Sreg) (x : W64) : (k.setS d x).anch = k.anch := by unfold Core.setS; split <;> rfl
@[simp] theorem setS_tk (k : Core) (d : Sreg) (x : W64) : (k.setS d x).tk = k.tk := by unfold Core.setS; split <;> rfl
@[simp] theorem setS_ahr (k : Core) (d : Sreg) (x : W64) : (k.setS d x).ahr = k.ahr := by unfold Core.setS; split <;> rfl
@[simp] theorem setS_eng (k : Core) (d : Sreg) (x : W64) : (k.setS d x).eng = k.eng := by unfold Core.setS; split <;> rfl
@[simp] theorem setS_frame (k : Core) (d : Sreg) (x : W64) : (k.setS d x).frame = k.frame := by unfold Core.setS; split <;> rfl
@[simp] theorem setS_spec (k : Core) (d : Sreg) (x : W64) : (k.setS d x).spec = k.spec := by unfold Core.setS; split <;> rfl
@[simp] theorem setS_decls (k : Core) (d : Sreg) (x : W64) : (k.setS d x).decls = k.decls := by unfold Core.setS; split <;> rfl
@[simp] theorem setS_nextSerial (k : Core) (d : Sreg) (x : W64) : (k.setS d x).nextSerial = k.nextSerial := by unfold Core.setS; split <;> rfl
@[simp] theorem setS_undecl (k : Core) (d : Sreg) (x : W64) : (k.setS d x).undecl = k.undecl := by unfold Core.setS; split <;> rfl
@[simp] theorem setS_enrHi (k : Core) (d : Sreg) (x : W64) : (k.setS d x).enrHi = k.enrHi := by unfold Core.setS; split <;> rfl
@[simp] theorem setS_mode (k : Core) (d : Sreg) (x : W64) : (k.setS d x).mode = k.mode := by unfold Core.setS; split <;> rfl
@[simp] theorem setS_halting (k : Core) (d : Sreg) (x : W64) : (k.setS d x).halting = k.halting := by unfold Core.setS; split <;> rfl
@[simp] theorem setS_sleep (k : Core) (d : Sreg) (x : W64) : (k.setS d x).sleep = k.sleep := by unfold Core.setS; split <;> rfl
@[simp] theorem setS_run (k : Core) (d : Sreg) (x : W64) : (k.setS d x).run = k.run := by unfold Core.setS; split <;> rfl
@[simp] theorem setS_pend (k : Core) (d : Sreg) (x : W64) : (k.setS d x).pend = k.pend := by unfold Core.setS; split <;> rfl
@[simp] theorem setS_tlb (k : Core) (d : Sreg) (x : W64) : (k.setS d x).tlb = k.tlb := by unfold Core.setS; split <;> rfl
@[simp] theorem setS_itlb (k : Core) (d : Sreg) (x : W64) : (k.setS d x).itlb = k.itlb := by unfold Core.setS; split <;> rfl
@[simp] theorem setS_weak (k : Core) (d : Sreg) (x : W64) : (k.setS d x).weak = k.weak := by unfold Core.setS; split <;> rfl
@[simp] theorem setS_ff (k : Core) (d : Sreg) (x : W64) : (k.setS d x).ff = k.ff := by unfold Core.setS; split <;> rfl
@[simp] theorem setS_ce (k : Core) (d : Sreg) (x : W64) : (k.setS d x).ce = k.ce := by unfold Core.setS; split <;> rfl
@[simp] theorem setS_inbox (k : Core) (d : Sreg) (x : W64) : (k.setS d x).inbox = k.inbox := by unfold Core.setS; split <;> rfl
@[simp] theorem setS_bad (k : Core) (d : Sreg) (x : W64) : (k.setS d x).bad = k.bad := by unfold Core.setS; split <;> rfl
@[simp] theorem setS_r_h (k : Core) (d : Sreg) (x : W64) : (k.setS d x).r.h = k.r.h := by unfold Core.setS; split <;> rfl
@[simp] theorem setS_r_spill (k : Core) (d : Sreg) (x : W64) : (k.setS d x).r.spill = k.r.spill := by unfold Core.setS; split <;> rfl
@[simp] theorem setS_r_sr (k : Core) (d : Sreg) (x : W64) : (k.setS d x).r.sr = k.r.sr := by unfold Core.setS; split <;> rfl
@[simp] theorem setS_r_pc (k : Core) (d : Sreg) (x : W64) : (k.setS d x).r.pc = k.r.pc := by unfold Core.setS; split <;> rfl
@[simp] theorem setSr_pad (k : Core) (n : Nat) (x : W64) : (k.setSr n x).pad = k.pad := rfl
@[simp] theorem setSr_v (k : Core) (n : Nat) (x : W64) : (k.setSr n x).v = k.v := rfl
@[simp] theorem setSr_acc0 (k : Core) (n : Nat) (x : W64) : (k.setSr n x).acc0 = k.acc0 := rfl
@[simp] theorem setSr_acc1 (k : Core) (n : Nat) (x : W64) : (k.setSr n x).acc1 = k.acc1 := rfl
@[simp] theorem setSr_anch (k : Core) (n : Nat) (x : W64) : (k.setSr n x).anch = k.anch := rfl
@[simp] theorem setSr_tk (k : Core) (n : Nat) (x : W64) : (k.setSr n x).tk = k.tk := rfl
@[simp] theorem setSr_ahr (k : Core) (n : Nat) (x : W64) : (k.setSr n x).ahr = k.ahr := rfl
@[simp] theorem setSr_eng (k : Core) (n : Nat) (x : W64) : (k.setSr n x).eng = k.eng := rfl
@[simp] theorem setSr_frame (k : Core) (n : Nat) (x : W64) : (k.setSr n x).frame = k.frame := rfl
@[simp] theorem setSr_spec (k : Core) (n : Nat) (x : W64) : (k.setSr n x).spec = k.spec := rfl
@[simp] theorem setSr_decls (k : Core) (n : Nat) (x : W64) : (k.setSr n x).decls = k.decls := rfl
@[simp] theorem setSr_nextSerial (k : Core) (n : Nat) (x : W64) : (k.setSr n x).nextSerial = k.nextSerial := rfl
@[simp] theorem setSr_undecl (k : Core) (n : Nat) (x : W64) : (k.setSr n x).undecl = k.undecl := rfl
@[simp] theorem setSr_enrHi (k : Core) (n : Nat) (x : W64) : (k.setSr n x).enrHi = k.enrHi := rfl
@[simp] theorem setSr_mode (k : Core) (n : Nat) (x : W64) : (k.setSr n x).mode = k.mode := rfl
@[simp] theorem setSr_halting (k : Core) (n : Nat) (x : W64) : (k.setSr n x).halting = k.halting := rfl
@[simp] theorem setSr_sleep (k : Core) (n : Nat) (x : W64) : (k.setSr n x).sleep = k.sleep := rfl
@[simp] theorem setSr_run (k : Core) (n : Nat) (x : W64) : (k.setSr n x).run = k.run := rfl
@[simp] theorem setSr_pend (k : Core) (n : Nat) (x : W64) : (k.setSr n x).pend = k.pend := rfl
@[simp] theorem setSr_tlb (k : Core) (n : Nat) (x : W64) : (k.setSr n x).tlb = k.tlb := rfl
@[simp] theorem setSr_itlb (k : Core) (n : Nat) (x : W64) : (k.setSr n x).itlb = k.itlb := rfl
@[simp] theorem setSr_weak (k : Core) (n : Nat) (x : W64) : (k.setSr n x).weak = k.weak := rfl
@[simp] theorem setSr_ff (k : Core) (n : Nat) (x : W64) : (k.setSr n x).ff = k.ff := rfl
@[simp] theorem setSr_ce (k : Core) (n : Nat) (x : W64) : (k.setSr n x).ce = k.ce := rfl
@[simp] theorem setSr_inbox (k : Core) (n : Nat) (x : W64) : (k.setSr n x).inbox = k.inbox := rfl
@[simp] theorem setSr_bad (k : Core) (n : Nat) (x : W64) : (k.setSr n x).bad = k.bad := rfl
@[simp] theorem setSr_r_s (k : Core) (n : Nat) (x : W64) : (k.setSr n x).r.s = k.r.s := rfl
@[simp] theorem setSr_r_h (k : Core) (n : Nat) (x : W64) : (k.setSr n x).r.h = k.r.h := rfl
@[simp] theorem setSr_r_spill (k : Core) (n : Nat) (x : W64) : (k.setSr n x).r.spill = k.r.spill := rfl
@[simp] theorem setSr_r_pc (k : Core) (n : Nat) (x : W64) : (k.setSr n x).r.pc = k.r.pc := rfl
@[simp] theorem setPc_pad (k : Core) (x : W64) : (k.setPc x).pad = k.pad := rfl
@[simp] theorem setPc_v (k : Core) (x : W64) : (k.setPc x).v = k.v := rfl
@[simp] theorem setPc_acc0 (k : Core) (x : W64) : (k.setPc x).acc0 = k.acc0 := rfl
@[simp] theorem setPc_acc1 (k : Core) (x : W64) : (k.setPc x).acc1 = k.acc1 := rfl
@[simp] theorem setPc_anch (k : Core) (x : W64) : (k.setPc x).anch = k.anch := rfl
@[simp] theorem setPc_tk (k : Core) (x : W64) : (k.setPc x).tk = k.tk := rfl
@[simp] theorem setPc_ahr (k : Core) (x : W64) : (k.setPc x).ahr = k.ahr := rfl
@[simp] theorem setPc_eng (k : Core) (x : W64) : (k.setPc x).eng = k.eng := rfl
@[simp] theorem setPc_frame (k : Core) (x : W64) : (k.setPc x).frame = k.frame := rfl
@[simp] theorem setPc_spec (k : Core) (x : W64) : (k.setPc x).spec = k.spec := rfl
@[simp] theorem setPc_decls (k : Core) (x : W64) : (k.setPc x).decls = k.decls := rfl
@[simp] theorem setPc_nextSerial (k : Core) (x : W64) : (k.setPc x).nextSerial = k.nextSerial := rfl
@[simp] theorem setPc_undecl (k : Core) (x : W64) : (k.setPc x).undecl = k.undecl := rfl
@[simp] theorem setPc_enrHi (k : Core) (x : W64) : (k.setPc x).enrHi = k.enrHi := rfl
@[simp] theorem setPc_mode (k : Core) (x : W64) : (k.setPc x).mode = k.mode := rfl
@[simp] theorem setPc_halting (k : Core) (x : W64) : (k.setPc x).halting = k.halting := rfl
@[simp] theorem setPc_sleep (k : Core) (x : W64) : (k.setPc x).sleep = k.sleep := rfl
@[simp] theorem setPc_run (k : Core) (x : W64) : (k.setPc x).run = k.run := rfl
@[simp] theorem setPc_pend (k : Core) (x : W64) : (k.setPc x).pend = k.pend := rfl
@[simp] theorem setPc_tlb (k : Core) (x : W64) : (k.setPc x).tlb = k.tlb := rfl
@[simp] theorem setPc_itlb (k : Core) (x : W64) : (k.setPc x).itlb = k.itlb := rfl
@[simp] theorem setPc_weak (k : Core) (x : W64) : (k.setPc x).weak = k.weak := rfl
@[simp] theorem setPc_ff (k : Core) (x : W64) : (k.setPc x).ff = k.ff := rfl
@[simp] theorem setPc_ce (k : Core) (x : W64) : (k.setPc x).ce = k.ce := rfl
@[simp] theorem setPc_inbox (k : Core) (x : W64) : (k.setPc x).inbox = k.inbox := rfl
@[simp] theorem setPc_bad (k : Core) (x : W64) : (k.setPc x).bad = k.bad := rfl
@[simp] theorem setPc_r_s (k : Core) (x : W64) : (k.setPc x).r.s = k.r.s := rfl
@[simp] theorem setPc_r_h (k : Core) (x : W64) : (k.setPc x).r.h = k.r.h := rfl
@[simp] theorem setPc_r_spill (k : Core) (x : W64) : (k.setPc x).r.spill = k.r.spill := rfl
@[simp] theorem setPc_r_sr (k : Core) (x : W64) : (k.setPc x).r.sr = k.r.sr := rfl
@[simp] theorem setPc_pc (k : Core) (x : W64) : (k.setPc x).r.pc = x := rfl
@[simp] theorem getS_setPc (k : Core) (x : W64) (r : Sreg) : (k.setPc x).getS r = k.getS r := rfl
@[simp] theorem getS_setSr (k : Core) (n : Nat) (x : W64) (r : Sreg) : (k.setSr n x).getS r = k.getS r := rfl
@[simp] theorem getSr_setS (k : Core) (d : Sreg) (x : W64) (n : Nat) : (k.setS d x).getSr n = k.getSr n := by
  simp [Core.getSr]
@[simp] theorem getSr_setPc (k : Core) (x : W64) (n : Nat) : (k.setPc x).getSr n = k.getSr n := rfl
@[simp] theorem getH_setS (k : Core) (d : Sreg) (x : W64) (h : Hreg) : (k.setS d x).getH h = k.getH h := by simp [Core.getH]
@[simp] theorem getH_setPc (k : Core) (x : W64) (h : Hreg) : (k.setPc x).getH h = k.getH h := rfl
@[simp] theorem getH_setSr (k : Core) (n : Nat) (x : W64) (h : Hreg) : (k.setSr n x).getH h = k.getH h := rfl
@[simp] theorem getH_setH_same (k : Core) (h : Hreg) (v : W256) : (k.setH h v).getH h = v := by
  simp [Core.getH, Core.setH, Core.clearBad]; split <;> simp
theorem getH_setH_ne (k : Core) {h j : Hreg} (v : W256) (e : j ≠ h) : (k.setH h v).getH j = k.getH j := by
  have hn : j.toNat ≠ h.toNat := fun x => e (BitVec.eq_of_toNat_eq x)
  simp [Core.getH, Core.setH, Core.clearBad]; split <;> simp [mget_mput_ne _ _ _ hn]
@[simp] theorem getS_setH (k : Core) (h : Hreg) (v : W256) (r : Sreg) : (k.setH h v).getS r = k.getS r := by
  unfold Core.setH Core.clearBad Core.getS
  split
  · rfl
  · split <;> rfl

end Sys2Proof.Machine
end

