-- ==== Sys2Proof/Laws/Shared.lean ====
section
/-!
SUPPORT. Sys2Proof/Laws/Shared.lean: what the shared operations can do: an FE instruction that starts, and an instruction that
is routed and begins at its engine.
-/

namespace Sys2Proof.Machine
open Sys2Proof

/-! ### Writes that fall due -/

@[simp] theorem clearBad_eng (k : Core) (f : ProtArr → Bool) (lo n : Nat) : (k.clearBad f lo n).eng = k.eng := by
  unfold Core.clearBad; split <;> rfl
@[simp] theorem clearBad_v (k : Core) (f : ProtArr → Bool) (lo n : Nat) : (k.clearBad f lo n).v = k.v := by
  unfold Core.clearBad; split <;> rfl
@[simp] theorem setH_eng (k : Core) (h : Hreg) (v : W256) : (k.setH h v).eng = k.eng := by simp [Core.setH]
@[simp] theorem setH_v (k : Core) (h : Hreg) (v : W256) : (k.setH h v).v = k.v := by simp [Core.setH]
@[simp] theorem watch_eng (k : Core) (a n : Nat) : (k.watch a n).eng = k.eng := by
  unfold Core.watch
  split
  · split <;> rfl
  · rfl
@[simp] theorem watch_v (k : Core) (a n : Nat) : (k.watch a n).v = k.v := by
  unfold Core.watch
  split
  · split <;> rfl
  · rfl
@[simp] theorem store_eng (k : Core) (b : Bool) (a : Nat) (bs : List Byte) : (k.store b a bs).eng = k.eng := by
  simp [Core.store]
@[simp] theorem store_v (k : Core) (b : Bool) (a : Nat) (bs : List Byte) : (k.store b a bs).v = k.v := by
  simp [Core.store]
@[simp] theorem orSr_eng (k : Core) (n : Nat) (v : W64) : (k.orSr n v).eng = k.eng := rfl
@[simp] theorem orSr_v (k : Core) (n : Nat) (v : W64) : (k.orSr n v).v = k.v := rfl
@[simp] theorem storeWhen_eng (k : Core) (n a : Nat) (bs : List Byte) : (k.storeWhen n a bs).eng = k.eng := by
  unfold Core.storeWhen; simp only []; split <;> split <;> simp
@[simp] theorem storeWhen_v (k : Core) (n a : Nat) (bs : List Byte) : (k.storeWhen n a bs).v = k.v := by
  unfold Core.storeWhen; simp only []; split <;> split <;> simp
@[simp] theorem apply_eng (k : Core) (d : Due) : (k.apply d).eng = k.eng := by
  unfold Core.apply; split <;> simp [Core.setS] <;> split <;> rfl
@[simp] theorem apply_v (k : Core) (d : Due) : (k.apply d).v = k.v := by
  unfold Core.apply; split <;> simp [Core.setS] <;> split <;> rfl
theorem applyAll_eng (ds : List Due) (k : Core) : (Core.applyAll ds k).eng = k.eng := by
  induction ds generalizing k with
  | nil => rfl
  | cons d t ih => rw [Core.applyAll, ih]; dsimp only; split <;> simp
theorem applyAll_v (ds : List Due) (k : Core) : (Core.applyAll ds k).v = k.v := by
  induction ds generalizing k with
  | nil => rfl
  | cons d t ih => rw [Core.applyAll, ih]; dsimp only; split <;> simp
@[simp] theorem flush_holds (k : Core) (r : Strm) (t : Nat) (e : Eng) : (k.flush r t).holds e = k.holds e := by
  cases e <;> simp [Core.flush, Core.flushIf, Core.holds, applyAll_eng]

/-! ### An FE instruction that starts (R20 to R26, R60, R100) -/

/-- What running an FE instruction that starts comes to: its body, from the core that `feBegins` gives. -/
theorem feRunK_begins {last : Core → Nat → Core} {i : Instr} {body : Nat → State → Res State} {s : State} {k : Core} {t : Nat}
    (h : s.feBegins i = some (k, t)) :
    feRunK last i body s =
      (match body t (s.setCore s.cur k) with
      | .ok x => .next (x.upCore s.cur (fun q => last q (t + feLat i)))
      | .stop y x => .next (raise s.cur y (x.upCore s.cur (fun q => q.setPc s.pcNow)))
      | .wait x => .next (x.upCore s.cur (fun q => q.setPc s.pcNow))
      | .fault f => .fault f) := by
  unfold State.feBegins at h
  simp only [] at h
  split at h
  · rename_i hl
    simp only [Bool.and_eq_true, Bool.not_eq_true', Option.isNone_iff_eq_none] at hl
    split at h
    · cases h
    · rename_i k1 t' hs
      split at h
      · rename_i he
        simp only [Option.isNone_iff_eq_none] at he
        cases h
        unfold feRunK
        simp only [hl.1.1, hl.1.2, hl.2, hs, he, Bool.not_true, Bool.or_false, Bool.false_eq_true, if_false]
        rfl
      · cases h
  · cases h
/-- An FE instruction whose body only changes its core, and neither stops nor waits. -/
theorem feRun_core {i : Instr} {f : Nat → Core → Res Core} {s : State} {k k' : Core} {t : Nat}
    (h : s.feBegins i = some (k, t)) (hf : f t k = .ok k') : feRun i (feCore f s.cur) s = .next (s.feEnds i t k') := by
  unfold feRun
  rw [feRunK_begins h]
  simp [feCore, hf, Res.map, State.feEnds]
/-- An FE instruction whose body completes. -/
theorem feRun_ok {i : Instr} {body : Nat → State → Res State} {s x : State} {k : Core} {t : Nat}
    (h : s.feBegins i = some (k, t)) (hb : body t (s.setCore s.cur k) = .ok x) :
    feRun i body s = .next (x.upCore s.cur (fun q => q.feDone (tokOf i) (t + feLat i))) := by
  unfold feRun
  rw [feRunK_begins h, hb]
/-- An FE instruction whose body stops raises its cause with PCFE at it. -/
theorem feRun_stop {i : Instr} {body : Nat → State → Res State} {s x : State} {y : Stop} {k : Core} {t : Nat}
    (h : s.feBegins i = some (k, t)) (hb : body t (s.setCore s.cur k) = .stop y x) :
    feRun i body s = .next (raise s.cur y (x.upCore s.cur (fun q => q.setPc s.pcNow))) := by
  unfold feRun
  rw [feRunK_begins h, hb]
/-- An FE instruction whose body waits leaves PCFE at it. -/
theorem feRun_wait {i : Instr} {body : Nat → State → Res State} {s x : State} {k : Core} {t : Nat}
    (h : s.feBegins i = some (k, t)) (hb : body t (s.setCore s.cur k) = .wait x) :
    feRun i body s = .next (x.upCore s.cur (fun q => q.setPc s.pcNow)) := by
  unfold feRun
  rw [feRunK_begins h, hb]

/-! ### A routed instruction (R22, R60, R101) -/

/-- The queue of the core that routing makes. -/
theorem routed_queue (k : Core) (e : Eng) (q : List Entry) (n t : Nat) (b : Bool) (x : Spec) :
    Core.queue { ((k.setQueue e q).skip n) with
      eng := { (k.setQueue e q).eng with cyc := t, satisfied := b }, spec := x } e = q := by
  cases e <;> rfl
/-- Routing leaves a schedule's holds as they are. -/
theorem routed_holds (k : Core) (e : Eng) (q : List Entry) (n t : Nat) (b : Bool) (x : Spec) :
    Core.holds { ((k.setQueue e q).skip n) with
      eng := { (k.setQueue e q).eng with cyc := t, satisfied := b }, spec := x } e = k.holds e := by
  cases e <;> rfl

/-- What routing an instruction that is routed comes to. -/
theorem route_routes {e : Eng} {i : Instr} {chk : Nat → Entry → State → Option Stop} {s s1 : State} {en : Entry}
    (h : s.routes e i chk = some (en, s1)) :
    route e i chk s =
      if (s1.core s.cur).queue e = [en] ∧ !(s1.core s.cur).holds e then ran s.cur e s1 id (runEngine s.cur e s1) else .next s1 := by
  unfold State.routes at h
  simp only [] at h
  split at h
  · cases h
  · rename_i h1
    simp only [Bool.or_eq_true, Bool.not_eq_true', not_or, Bool.not_eq_true, Bool.not_eq_false] at h1
    obtain ⟨⟨⟨hl, hp⟩, hg⟩, hw⟩ := h1
    split at h
    · cases h
    · rename_i t hroom
      split at h
      · cases h
      · rename_i he
        simp only [Bool.not_eq_true, Option.isSome_eq_false_iff, Option.isNone_iff_eq_none] at he
        split at h
        · cases h
        · rename_i hv hi
          split at h
          · cases h
          · rename_i hc
            simp only [Bool.or_eq_true, not_or, Bool.not_eq_true, decide_eq_true_eq, Decidable.not_not,
              Option.isSome_eq_false_iff, Option.isNone_iff_eq_none] at hc
            split at h
            · cases h
            · rename_i lane hlane
              split at h
              · cases h
              · rename_i hr
                simp only [Bool.not_eq_true, Option.isSome_eq_false_iff, Option.isNone_iff_eq_none] at hr
                cases h
                have hp' : ¬(privileged i = true ∧ (!(s.core s.cur).isPriv) = true) := by
                  simpa using hp
                unfold route
                simp only [hl, hg, hw, hroom, he, hi, hc.1, hc.2, hlane, hr, Bool.not_true, Bool.false_eq_true, if_false,
                  Bool.or_self, if_neg hp', Option.getD_some, Option.isNone_some]
                rw [core_setCore_same]
                refine if_congr ?_ rfl rfl
                rw [routed_queue, routed_holds]
                simp [List.isEmpty_iff]

/-- An entry made by routing is fresh and has taken no token. -/
theorem routes_fresh {e : Eng} {i : Instr} {chk : Nat → Entry → State → Option Stop} {s s1 : State} {en : Entry}
    (h : s.routes e i chk = some (en, s1)) : en.mark = .fresh ∧ en.waited = false ∧ en.i = i := by
  unfold State.routes at h
  simp only [] at h
  split at h
  · cases h
  · split at h
    · cases h
    · split at h
      · cases h
      · split at h
        · cases h
        · split at h
          · cases h
          · split at h
            · cases h
            · split at h
              · cases h
              · cases h; exact ⟨rfl, rfl, rfl⟩
/-- Running the entry at the head of a queue, when it starts: neither its tokens nor the skip counter keep it from its body. -/
theorem runHead_starts {body : EBody} {c : Nat} {e : Eng} {s : State} {en : Entry} {l : List Entry}
    (hq : (s.core c).queue e = en :: l) (hr : (s.core c).headReady e en = true) (hm : (s.starts c e en).sound = true)
    (hs : ¬(e = .ex ∧ (s.core c).v.skip ≠ 0 ∧ en.mark = .fresh)) :
    runHead body c e s =
      (match body c (s.starts c e en).en (s.starts c e en).t (s.starts c e en).s with
      | .ok f => .ok (finishHead c e (s.starts c e en).en f)
      | .stop x f => .stop x f.s
      | .wait f => .wait f.s
      | .fault x => .fault x) := by
  have h1 : ((s.core c).headStop e en).isNone = true ∧
      (((s.core c).opened e en (goesAt s c en (startAt (s.core c) e en ((s.core c).tokAt e en)))).streamStop e en.i).isNone = true := by
    simpa [Begun.sound, State.starts, hq] using hm
  unfold runHead
  simp only [hq, hr, Bool.not_true, Bool.false_eq_true, if_false, Option.isNone_iff_eq_none.mp h1.1,
    Option.isNone_iff_eq_none.mp h1.2, if_neg hs]
  rfl
/-- A body that nothing holds back runs. -/
theorem gated_unheld {b : Begun} (h : b.unheld = true) (body : EBody) (x : State) (hx : x = b.s) :
    gated body b.c b.en b.t x = body b.c b.en b.t x := by
  subst hx
  unfold Begun.unheld at h
  simp only [Bool.not_eq_true', Bool.or_eq_false_iff, Bool.and_eq_false_iff, decide_eq_false_iff_not] at h
  unfold gated
  rw [if_neg (by rintro ⟨h1, h2⟩; rcases h.1 with h3 | h3 <;> simp_all),
    if_neg (by rintro ⟨h1, h2⟩; rcases h.2 with h3 | h3 <;> simp_all)]
/-- A routed instruction that begins in the same step runs its body. -/
theorem routed_begins {e : Eng} {i : Instr} {s : State} {b : Begun} (he : engOf i = some e) (h : s.begins i = some b) :
    routed e i (feCheck i) s = b.done (bodyOf b.en.i b.c b.en b.t b.s) := by
  unfold State.begins at h
  rw [he] at h
  simp only [] at h
  split at h
  · cases h
  · rename_i en s1 hr
    split at h
    · cases h
    · rename_i hq
      split at h
      · rename_i hg
        cases h
        obtain ⟨hm, hw, hi⟩ := routes_fresh hr
        simp only [Bool.or_eq_true, decide_eq_true_eq, not_or, Bool.not_eq_true, Bool.not_eq_true', Bool.not_eq_false,
          Decidable.not_not, Bool.and_eq_true, beq_iff_eq, not_and] at hq
        obtain ⟨⟨⟨hq1, hq2⟩, hq3⟩, hq4⟩ := hq
        unfold routed
        rw [route_routes hr, if_pos ⟨hq1, by simp [hq2]⟩]
        simp only [Bool.and_eq_true] at hg
        unfold runEngine
        rw [hq1]
        simp only []
        rw [runHead_starts hq1 hq3 hg.1 (by rintro ⟨h1, h2, _⟩; exact h2 (hq4 h1))]
        rw [show gated (bodyOf en.i) s.cur (s1.starts s.cur e en).en (s1.starts s.cur e en).t (s1.starts s.cur e en).s =
          bodyOf en.i s.cur (s1.starts s.cur e en).en (s1.starts s.cur e en).t (s1.starts s.cur e en).s from
            gated_unheld (b := s1.starts s.cur e en) hg.2 (bodyOf en.i) _ rfl]
        unfold Begun.done ran
        show _ = ((match bodyOf en.i s.cur (s1.starts s.cur e en).en (s1.starts s.cur e en).t (s1.starts s.cur e en).s with
          | .ok f => .next (finishHead s.cur e (s1.starts s.cur e en).en f)
          | .stop x f => .next (if s1.feFirst s.cur e then s1 else raise s.cur x f.s)
          | .wait f => .next f.s
          | .fault z => .fault z) : Out)
        cases bodyOf en.i s.cur (s1.starts s.cur e en).en (s1.starts s.cur e en).t (s1.starts s.cur e en).s <;> rfl
      · cases h
/-- INSTR_COMPLETE of a head that begins or goes on runs its body. -/
theorem instrComplete_heads {c : Nat} {e : Eng} {s : State} {b : Begun} (h : s.heads c e = some b) (hu : b.unheld = true) :
    execInstrComplete c e s = b.done (bodyOf b.en.i b.c b.en b.t b.s) := by
  unfold State.heads at h
  simp only [] at h
  split at h
  · cases h
  · rename_i en l hq
    split at h
    · cases h
    · rename_i h1
      cases h
      simp only [Bool.or_eq_true, not_or, Bool.not_eq_true, Bool.not_eq_true', Bool.not_eq_false, Bool.and_eq_true,
        beq_iff_eq, decide_eq_true_eq, not_and, Option.isSome_eq_false_iff, Option.isNone_iff_eq_none, List.isEmpty_iff] at h1
      obtain ⟨⟨⟨⟨⟨⟨hb, hh⟩, hf⟩, hk⟩, hr⟩, hm⟩, hs⟩ := h1
      have hfl : (if (decide (e ≠ .ex) && (s.core c).busy && (s.core c).halting.isNone) = true then
          ((if e = .ld then (s.flightTurn c e).1.recvBack c else (s.flightTurn c e).1), (s.flightTurn c e).2) else (s, none)) = (s, none) := by
        by_cases he : e = .ex
        · simp [he]
        · have hf' : (s.core c).eng.flight = [] := hf (by simpa using he)
          have h1 : s.flightTurn c e = (s, none) := by simp [State.flightTurn, hf']
          have h2 : s.recvBack c = s := by simp [State.recvBack, hf']
          simp [he, hb, hh, h1, h2]
      unfold execInstrComplete
      simp only [hfl]
      rw [hq]
      simp only [List.head?_cons, Option.any_some, hk, Bool.false_eq_true, if_false]
      unfold headRun
      simp only [hh, Option.isSome_none, Bool.false_eq_true, if_false, hb, if_true, hq, id]
      rw [runHead_starts hq hr hm (by rintro ⟨h1, h2, h3⟩; exact absurd h3 (by simpa using hs ⟨h1, h2⟩))]
      unfold bodyAt
      rw [show gated (bodyOf en.i) c (s.starts c e en).en (s.starts c e en).t (s.starts c e en).s =
          bodyOf en.i c (s.starts c e en).en (s.starts c e en).t (s.starts c e en).s from
            gated_unheld (b := s.starts c e en) hu (bodyOf en.i) _ rfl]
      unfold Begun.done ran
      show _ = ((match bodyOf en.i c (s.starts c e en).en (s.starts c e en).t (s.starts c e en).s with
          | .ok f => .next (finishHead c e (s.starts c e en).en f)
          | .stop x f => .next (if s.feFirst c e then s else raise c x f.s)
          | .wait f => .next f.s
          | .fault z => .fault z) : Out)
      cases bodyOf en.i c (s.starts c e en).en (s.starts c e en).t (s.starts c e en).s <;> rfl

end Sys2Proof.Machine
end

