-- ==== Sys2Proof/Tests/Slice0.lean ====
section
/-!
SUPPORT. Sys2Proof/Tests/Slice0.lean: tests: terms that WellFormed refuses, words of the spec as the decoder reads them, and for
every obligation with hypotheses the states and operands that meet them. The words' sources are the worked examples of the
sections named.
-/

namespace Sys2Proof.Tests
open Sys2Proof Sys2Proof.Machine
set_option Elab.async false

/-! ### WellFormed refuses what R48 and R52 to R60 leave unassigned -/

theorem test_wf_refuses_fe : ([.loop {} 0 true 5, .hset {} 1 2 25, .hget {} 1 2 31, .hadv {} 1 2 5, .cancel {} 1 2 1,
    .pwrDecl {} 1 5 5 0, .pwrDecl {} 1 0 5 3, .specBegin {} 1 2 0 8, .tlbi {} 1 2 3] : List Instr).any (·.wf) = false := by decide
theorem test_wf_refuses_types : ([.vdiv {} 1 2 3 .i32 .x1, .vand {} 1 2 3 .f32 .x1, .vor {} 1 2 3 .f16 .x1, .vxor {} 1 2 3 .b16 .x1,
    .vshl {} 1 2 3 .f32 .x1, .vshr {} 1 2 3 .f16 .x1, .vsra {} 1 2 3 .n32 .x1, .vcmp {} false .ltn 2 3 .f32 .x1,
    .vcmp {} true .lt 2 3 .i32 .x1, .vqnt {} 1 2 3 .i8 .x1, .vdqnt {} 1 2 3 .n8 .x1, .vlog2 {} 1 2 .i32 .x1,
    .vexp2 {} 1 2 .i16 .x1, .vrcp {} 1 2 .n32 .x1, .vrsq {} 1 2 .i8 .x1, .vsqrt {} 1 2 .n8 .x1, .vtanh {} 1 2 .i32 .x1,
    .vclass {} 2 3 .i32 .x1, .vexpmax {} 1 2 .n32 .x1] : List Instr).any (·.wf) = false := by decide
theorem test_wf_refuses_repeats : ([.vredMaxi {} 1 .xend, .vxrd {} 1 .f32 .xend, .vbcast {} 1 2 .f32 .xend, .viota {} 1 .i32 .xend,
    .mset {} 1 true 2, .vskip {} 0, .mstatTile {} 0 1 3, .relax {} 0 1 2 .relu 3 4 none none false, .accept {} 1 2 3 0,
    .accept {} 1 2 0 5] : List Instr).any (·.wf) = false := by decide
theorem test_wf_refuses_bank_types : ([.badd {} 1 2 0 0 .f, .baddStream {} 1 2 0 0 .f, .band {} 1 2 0 0 .f, .bandStream {} 1 2 0 0 .f,
    .bor {} 1 2 0 0 .f, .borStream {} 1 2 0 0 .f, .bxor {} 1 2 0 0 .f, .bxorStream {} 1 2 0 0 .f, .bmin {} 1 2 0 0 .f,
    .bminStream {} 1 2 0 0 .f, .bmax {} 1 2 0 0 .f, .bmaxStream {} 1 2 0 0 .f, .bminn {} 1 2 0 0 .f, .bminnStream {} 1 2 0 0 .f,
    .bmaxn {} 1 2 0 0 .f, .bmaxnStream {} 1 2 0 0 .f, .bfaa {} 1 2 3 0 0 .f, .bfaaStream {} 1 2 0 0 .f, .bcas {} 1 2 3 0 0 .f,
    .bld {} 1 2 0 0 .f, .bldStream {} 1 2 0 0 .f, .bst {} 1 2 0 0 .f, .bstStream {} 1 2 0 0 .f, .baxpy {} 1 2 3 0 0 .f,
    .baxpyStream {} 1 2 3 0 0 .f] : List Instr).any (·.wf) = false := by decide

/-! ### Words of the spec -/

theorem test_decode_scalar : decode 0x00010309#32 0 = some (.sub {} 4 3 2) ∧ decode 0x0040C108#32 0 = some (.mul {} 3 1 2) ∧
    decode 0x0082C148#32 0 = some (.addi {} 11 1 72) ∧ decode 0x01117FFF#32 0x0FF00000#32 = some (.movhi {} 5 0x3FFF 0xFF) := by decide
theorem test_decode_memory : decode 0x01AFC005#32 0 = some (.spill {} 63 5) ∧ decode 0x01BFC005#32 0 = some (.fill {} 63 5) ∧
    decode 0x01E10E04#32 0 = some (.hset {} 2 7 4) ∧ decode 0x02110204#32 0 = some (.hld {} 2 1 4) ∧
    decode 0x02218103#32 0 = some (.hstSpill {} 3 3) := by decide
theorem test_decode_control : decode 0x01200000#32 0 = some (.j {} 0) ∧ decode 0x0240404A#32 0 = some (.movsr {} 1 0x4A) ∧
    decode 0x02600001#32 0 = some (.region {} true) ∧ decode 0x02700B00#32 0x03000000#32 = some (.waita {} 0 11 12 0 .eq) ∧
    decode 0x02A08000#32 0 = some (.phase {} 2) ∧ decode 0x02C18300#32 0 = some (.launch {} 6 3) ∧
    decode 0x02D1C600#32 0 = some (.cancel {} 7 6 0) ∧ decode 0x02E00005#32 0 = some (.trap {} 5) ∧
    decode 0x03A0020C#32 0 = some (.tlbi {} 2 3 0) := by decide
theorem test_decode_vector : decode 0x08028842#32 0 = some (.vadd {} 5 2 2 .f32 .x16) ∧
    decode 0x09228914#32 0 = some (.vcvt {} 5 2 true .rne .i8 .x1) ∧ decode 0x09B00864#32 0 = some (.vclass {} 2 3 .f16 .x1) ∧
    decode 0x09C00800#32 0 = some (.vredSum {} 2 .f32 .x1) ∧ decode 0x09C28078#32 0 = some (.vredMaxi {} 5 .x1) ∧
    decode 0x0A028E00#32 0 = some (.vbcast {} 5 7 .f32 .x1) ∧ decode 0x0A12800C#32 0 = some (.viota {} 5 .i32 .x1) := by decide
theorem test_decode_matrix : decode 0x8AE00200#32 0 = some (.mancScan ⟨true, false, false, false⟩ 2) ∧
    decode 0x0AE0A706#32 0 = some (.mancColumn {} 5 7 1) ∧ decode 0x0AF80000#32 0 = some (.mclr {} 1) ∧
    decode 0x0B100419#32 0x048A3101#32 = some (.mepi {} 0 4 .relu (some 9) 5 6 (some 8) true) ∧
    decode 0x0B380A00#32 0x000A3000#32 = some (.rdacc {} 1 10 5 6) ∧ decode 0x0B404A04#32 0 = some (.mstatDesc {} 2 10) ∧
    decode 0x0B280209#32 0x01A628C0#32 = some (.mtopk {} 1 2 false true 1 3 19 5 6) ∧ decode 0x0B802000#32 0 = some (.wrahr {} 8) := by
  decide
theorem test_decode_copies : decode 0x8C120850#32 0x000B3000#32 = some (.stPart ⟨true, false, false, false⟩ 4 4 10 11 12) ∧
    decode 0x04130648#32 0x01CB3000#32 = some (.ldX {} 6 3 9 7 11 12) ∧ decode 0x04418648#32 0x03800005#32 =
      some (.ldGt {} 3 3 9 14 0 0 5) ∧ decode 0x54700850#32 0 = some (.pref ⟨false, true, false, true⟩ 4 10) ∧
    decode 0x0C428C00#32 0x01C82400#32 = some (.stRmt {} 5 6 7 8 9) ∧ decode 0x046328A8#32 0x05800000#32 =
      some (.ldNet {} 6 20 21 22 0 0) ∧ decode 0x94210430#32 0x00400000#32 = some (.ldGr ⟨true, false, false, true⟩ 2 2 6 1 0 0) ∧
    decode 0x0C300849#32 0 = some (.stAppQuery {} 4 9) := by decide
theorem test_decode_banks_links : decode 0x0E128621#32 0x00000010#32 = some (.bhistStream {} 5 3 4 0 0 1) ∧
    decode 0x0E200C38#32 0x02400000#32 = some (.bpfx {} 6 7 9 0 0) ∧ decode 0x0C728C38#32 0x00082400#32 =
      some (.linkSend {} 5 6 7 8 9) ∧ decode 0x04830620#32 0 = some (.linkRecv {} 6 3 4 0 0) ∧
    decode 0x0C810C38#32 0x00000003#32 = some (.linkRed {} 2 6 7 0 0 true true) := by decide

/-! ### States that meet the hypotheses of the obligations

A witness is a conjunction, one conjunct for each clause; `on` and `at'` ask that an instruction starts and that a condition holds
of what it finds. -/

def met {α : Type} (o : Option α) (p : α → Bool) : Bool := match o with | some x => p x | none => false
/-- A persistent privileged unit, and an idempotent unprivileged one. -/
def tRun : Running := ⟨0, 0, 0, 0, 0, true, true, 0, 0, false, false, none⟩
def tRunI : Running := { tRun with pers := false, priv := false }
def tCore : Core := { Core.reset with mode := .running, run := some tRun }
def tStat : Core := tCore.setSr 0x001 0
def tC (l : List (Sreg × W64)) : Core := l.foldl (fun k x => k.setS x.1 x.2) tCore
def tS (k : Core) : State :=
  { State.reset with cores := [(0, k)], parts := [(0, { Part.reset with clusters := [0] })], ik := { Ik.reset with boot := .up } }
def on (k : Core) (i : Instr) (p : Core → Nat → Bool) : Bool := met ((tS k).feBegins i) (fun q => p q.1 q.2)
def starts (k : Core) (i : Instr) : Bool := on k i (fun _ _ => true)
def tEntry (i : Instr) : Entry := ⟨i, 0, [], [], false, .fresh, 0, 15, 0, 0, false⟩
/-- The core with an instruction in the ST queue. -/
def tBusy (k : Core) : Core := { k with eng := { k.eng with st := [tEntry (.bst {} 1 2 0 0 .d)] } }

def tAlu : List Instr := [.add {} 1 2 3, .sub {} 1 2 3, .and {} 1 2 3, .or {} 1 2 3, .xor {} 1 2 3, .shl {} 1 2 3, .shr {} 1 2 3,
  .sra {} 1 2 3, .slt {} 1 2 3, .sltn {} 1 2 3, .seq {} 1 2 3, .sel {} 1 2 3, .min {} 1 2 3, .max {} 1 2 3, .minn {} 1 2 3,
  .maxn {} 1 2 3, .mul {} 1 2 3, .mulh {} 1 2 3, .mulhn {} 1 2 3, .div {} 1 2 3, .divn {} 1 2 3, .rem {} 1 2 3, .remn {} 1 2 3,
  .clz {} 1 2, .ctz {} 1 2, .popc {} 1 2, .addi {} 1 2 3, .andi {} 1 2 3, .ori {} 1 2 3, .xori {} 1 2 3, .shli {} 1 2 3,
  .shri {} 1 2 3, .srai {} 1 2 3, .slti {} 1 2 3, .movi {} 1 2 3, .movhi {} 1 2 3]
def tFe : List Instr := [.j {} 1, .jl {} 1, .jr {} 2, .bz {} 1 2, .bnz {} 1 2, .bltz {} 1 2, .bgez {} 1 2, .loop {} 1 true 2, .nop {},
  .spill {} 1 511, .fill {} 1 511, .lds {} 1 2 1, .sts {} 1 2 1, .hset {} 1 2 24, .hget {} 1 2 24, .hmov {} 1 2, .hld {} 1 2 1,
  .hldSpill {} 1 127, .hst {} 1 2 1, .hstSpill {} 1 127, .hadv {} 1 2 4]

theorem witness_DecodeInvertsEncode : (Instr.stMc {} 5 6 10 7 8 9 1).isEvent = false ∧ (Instr.stMc {} 5 6 10 7 8 9 1).wf = true ∧
    encode1 (.stMc {} 5 6 10 7 8 9 1) = some 0x01C82401#32 := by decide
theorem witness_DecodeAcceptsOnlyEncodings : (decode 0x00010309#32 0).isSome = true := by decide
theorem witness_StepRunsTheDecodedInstruction :
    (let s := State.reset.withFetchWord 32 0x00010309
     (match s.todo with | .fetch c => c == 0 | _ => false) && (match (s.moving.fetch 0).1 with | .got i => i == .sub {} 4 3 2 | _ => false)
      && (match s.agenda with | .run c :: _ => c == 0 | _ => false) && (s.core 0).mode == .running && (s.core 0).sleep == .awake &&
      (s.core 0).halting.isNone && (Instr.phaseAdv 0).isEvent) = true := by decide +kernel
theorem witness_FetchFailureRaisesItsCause :
    (let s := State.reset.withFetchWord 32 0x0BF00000
     (wideOf 0x0BF00000#32).isNone && (match (s.fetchWord 0 (s.core 0).itlb (s.core 0).r.pc).1 with
        | .word w => w == 0x0BF00000#32 | _ => false) && (s.core 0).live &&
      (match (s.fetch 0).1 with | .stop _ => true | _ => false) && (match s.todo with | .fetch c => c == 0 | _ => false) &&
      (match (s.moving.fetch 0).1 with | .stop _ => true | _ => false) && (s.moving.core 0).live) = true := by decide +kernel
theorem witness_MemoryStaysCanonical :
    (let s := State.reset.withFetchWord 32 0x00010309
     Memory.wf s.mem && (match step s with | .next _ => true | _ => false)) = true := by decide +kernel
theorem witness_ScalarResults : tAlu.all (fun i => on tCore i (fun k _ => (aluSpec k i).isSome)) = true := by decide +kernel
theorem witness_DivisionNeverTraps :
    (let l := [Instr.div {} 4 5 6, .divn {} 4 5 6, .rem {} 4 5 6, .remn {} 4 5 6]
     l.all (fun i => on (tC [(5, 7)]) i (fun k _ => k.getS 6 == 0)) && l.all (fun i => on (tC [(5, 7), (6, 2)]) i (fun k _ =>
       k.getS 6 != 0)) && l.all (fun i => on (tC [(5, 0x8000000000000000#64), (6, 0xFFFFFFFFFFFFFFFF#64)]) i (fun k _ =>
       decide ((k.getS 5).toInt = -2 ^ 63 ∧ (k.getS 6).toInt = -1)))) = true := by decide +kernel
theorem witness_WritesAreSeenWhenDue : tCore.interlocked = true ∧ tStat.interlocked = false ∧ tStat.eng.due = [] ∧ tCore.eng.due = [] ∧
    (3 : Nat) > 1 ∧ (5 : Nat) < 4 + 3 ∧ 4 + 3 ≤ (7 : Nat) ∧ (9 : Nat) ≤ 9 ∧ (8 : Nat) < 9 := by decide +kernel
theorem witness_TransfersOfControl :
    ([.j {} 1, .jl {} 1, .bz {} 1 2, .bnz {} 1 2, .bltz {} 1 2, .bgez {} 1 2, .loop {} 1 true 2].all (starts tCore) &&
      on (tC [(5, 0x1004)]) (.jr {} 5) (fun k _ => decide ((k.getS 5).toNat % 4 = 0)) &&
      on (tC [(5, 0x1006)]) (.jr {} 5) (fun k _ => decide ((k.getS 5).toNat % 4 ≠ 0))) = true := by decide +kernel
theorem witness_NopOnlyMovesTokens :
    (starts tCore (.nop {}) && !tCore.eng.satisfied && on (tCore.setTok .ldFe [0]) (.nop ⟨false, true, false, true⟩) (fun k _ =>
      k.run.isSome && decide ((k.tok .feLd).length < 15))) = true := by decide +kernel
theorem witness_SpillAndFillMoveScalars : (starts tCore (.spill {} 63 511) && starts tCore (.spill {} 0 0) &&
    on tCore (.fill {} 63 511) (fun k _ => (k.spillBad 511 1).isNone) && on tCore (.fill {} 0 0) (fun k _ => (k.spillBad 0 1).isNone)) =
    true := by decide +kernel
theorem witness_ScratchpadLoadsAndStores :
    (let x (v : W64) (p : Core → Nat → W64 → Bool) := [Instr.lds {} 1 2 1, .sts {} 1 2 1].all (fun i =>
       on (tC [(2, v)]) i (fun k t => p k t (k.getS 2 + BitVec.ofInt 64 8)))
     x 0x3FFFF0 (fun k t a => k.padReadable t a 8 && k.padOpen a 8 && a == 0x3FFFF8) && x 0x3FFFF4 (fun _ _ a => decide (a.toNat % 8 ≠ 0)) &&
      x 0x3FFFF8 (fun _ _ a => decide (a.toNat % 8 = 0 ∧ 0x3FFFF8 < a.toNat))) = true := by decide +kernel
theorem witness_HandleFieldsSetAndGet : fieldSpec 9 = some (92, 16, true) ∧ fieldSpec 24 = some (192, 64, false) ∧
    (let h := tCore.ren 3
     starts tCore (.hset {} h 2 9) && on tCore (.hget {} h 2 24) (fun k _ => (k.handleBad h).isNone)) = true := by decide +kernel
theorem witness_HandlesAreCopied :
    on tCore (.hmov {} (tCore.ren 5) (tCore.ren 2)) (fun k _ => (k.handleBad (tCore.ren 2)).isNone) = true := by decide +kernel
theorem witness_HandleImagesMove :
    (let x (v : W64) (p : Core → Nat → W64 → Bool) := [Instr.hld {} (tCore.ren 1) 2 1, .hst {} (tCore.ren 1) 2 1].all (fun i =>
       on (tC [(2, v)]) i (fun k t => p k t (k.getS 2 + BitVec.ofNat 64 32) && (k.handleBad (tCore.ren 1)).isNone))
     x 0x3FFFC0 (fun k t a => k.padReadable t a 32 && k.padOpen a 32 && a == 0x3FFFE0) && x 0x3FFFC8 (fun _ _ a => decide (a.toNat % 32 ≠ 0)) &&
      x 0x3FFFE0 (fun _ _ a => decide (a.toNat % 32 = 0 ∧ 0x3FFFE0 < a.toNat)) &&
      on tCore (.hldSpill {} (tCore.ren 1) 127) (fun k _ => (k.spillBad 508 4).isNone) &&
      on tCore (.hstSpill {} (tCore.ren 1) 127) (fun k _ => (k.handleBad (tCore.ren 1)).isNone)) = true := by decide +kernel
/-- h1 has extents 2, 3, 1, 1, 1 and, where asked, SAE. -/
def tHadv (sae : Nat) (v : W64) : Core := (tC [(2, v)]).setH 1 (BitVec.ofNat 256
  (2 * 2 ^ 32 + 3 * 2 ^ 44 + 2 ^ 56 + 2 ^ 68 + 2 ^ 80 + sae * 2 ^ 232))
theorem witness_CursorsAdvanceAsMixedRadix :
    (let x (sae : Nat) (v : W64) (p : W256 → Bool) := on (tHadv sae v) (.hadv {} (tCore.ren 1) 2 0) (fun k _ =>
       (k.handleBad (tCore.ren 1)).isNone && p (k.getH (tCore.ren 1)))
     x 0 6 (fun h => !h.getLsbD 232) && x 1 5 (fun h => h.getLsbD 232 && (hAdv h 5 0).isSome) &&
      x 1 6 (fun h => h.getLsbD 232 && (hAdv h 6 0).isNone)) = true := by decide +kernel
theorem witness_CoreOnlyInstructionsFrame : (tAlu ++ tFe).all (fun i => on tCore ((tS tCore).named i) (fun k t =>
    feAllowed k t ((tS tCore).named i))) = true := by decide +kernel
/-- The state with segment 0 of two HBM pages at codeBase, mapped with R, W and X at virtual 0, and the core's translations of it. -/
def tM (k : Core) : State :=
  let s := tS { k with tlb := [((0, 0), codeLeaf 0), ((0, 4), codeLeaf 1)] }
  { s with mem := wrL [] 0x1000000 codeSeg, parts := [(0, ({ Part.reset with clusters := [0] }.setSr 0x222 0x1000000).setSr 0x223 1)] }
def onS (s : State) (i : Instr) (p : Core → Nat → Bool) : Bool := met (s.feBegins i) (fun q => p q.1 q.2)
def tSpec (k : Core) (st : SpecSt) : Core := { k with spec := { Spec.reset with st := st } }
def tHa (k : Core) : Core := k.setSr 0x002 0x8000

/-- An F32 stream of 8 rows of one element. -/
def tRows : W256 := BitVec.ofNat 256 (2 ^ 32 + 8 * 2 ^ 44 + 2 ^ 56 + 2 ^ 68 + 2 ^ 80)

theorem witness_PrivilegedInstructionsTrap : (let k := (tS { tCore with run := some tRunI }).core 0
    k.live && !k.isPriv) = true ∧ 0x200 ≤ (0x200#14).toNat := by decide +kernel
theorem witness_SpeculationStateGates :
    (let a := (tS tCore).core 0
     let b := (tS (tSpec tCore .body)).core 0
     let h := (tS (tHa tCore)).core 0
     let g := tSpec ((tCore.setH 5 tRows).setH 6 tRows) .body
     let sb (k : Core) : Instr := .specBegin {} (k.ren 5) (k.ren 6) 7 8
     a.live && !a.ha && a.spec.st == .closed && b.live && !b.ha && b.spec.st == .body && h.live && h.ha && !a.regWait (sb a) &&
      (a.carryCheck (sb a)).isSome && g.live && !g.regWait (sb g) && (g.carryCheck (sb g)).isNone && g.spec.st != .closed) = true := by
  decide +kernel
theorem witness_TrapAndBreakEnterTheHandler : [Instr.trap {} 5, .brk {}].all (fun i => on (tCore.setSr 0x009 0x2000) i (fun k _ =>
    k.eng.ld.isEmpty && k.eng.ex.isEmpty && k.eng.st.isEmpty && !k.ha && k.getSr 0x009 != 0)) = true := by decide +kernel
theorem witness_StopsEndOrParkTheUnit :
    (let x : Stop := ⟨.align, .fe, 6, 0⟩
     let w (k : Core) (q : Core → Bool) : Bool := q ((tS k).core 0).settled && ((tS k).core 0).run.isSome
     w (tCore.setSr 0x009 0x2000) (fun k => !causeSys x.cause && !k.ha && k.getSr 0x009 != 0) &&
      w tCore (fun k => k.getSr 0x009 == 0 && !k.ha && met k.run (·.pers)) && w (tHa tCore) (fun k => k.ha && met k.run (·.pers)) &&
      w { tCore with run := some tRunI } (fun k => k.getSr 0x009 == 0 && met k.run (fun r => !r.pers))) = true := by decide +kernel
theorem witness_EretReturnsToTheFrame :
    (on tCore (.eret {}) (fun k _ => !k.ha) && on (tHa (tBusy tCore)) (.eret {}) (fun k _ => k.ha && !k.idle) &&
      on { tHa tCore with frame := some ⟨Engines.reset, true⟩ } (.eret {}) (fun k _ => k.ha && k.idle && k.frame.isSome)) = true := by
  decide +kernel
theorem witness_RegionWaitsThenSwitches : (on (tBusy tCore) (.region {} false) (fun k _ => !k.idle) &&
    on tCore (.region {} false) (fun k _ => k.idle)) = true := by decide +kernel
theorem witness_SpecialRegistersAreRead :
    (((tS tCore).core 0).live && ((tS tCore).core 0).isPriv && (srInfo 0x3FF).isNone && on (tBusy tCore) (.movsr {} 1 0x00C) (fun k _ =>
        (srInfo 0x00C).isSome && k.srWaits 0x00C) &&
      on tCore (.movsr {} 1 0x04A) (fun k _ => (srInfo 0x04A).isSome && !k.srWaits 0x04A) &&
      on tCore (.movsr {} 1 0x105) (fun k _ => !k.srWaits 0x105) && on tCore (.movsr {} 1 0x010) (fun k _ =>
        !k.srWaits 0x010 && ((tS tCore).part ((tS tCore).partNo 0)).logMode == 0)) = true := by decide +kernel
theorem witness_SpecialRegistersAreWritten :
    (((tS tCore).core 0).live && ((tS tCore).core 0).isPriv && (srInfo 0x3FF).isNone && srInfo 0x002 == some (0, 0) &&
      on (tBusy tCore) (.movrs {} 1 0x220) (fun k _ => k.srHolds 0x220 && srInfo 0x220 != some (0, 0)) &&
      [0x001#14, 0x009#14, 0x00A#14, 0x00B#14].all (fun n => on tCore (.movrs {} 1 n) (fun k _ => !k.srHolds n.toNat &&
        srInfo n.toNat != some (0, 0) && k.getSr 0x009 &&& 3#64 == 0 &&
        k.getSr 0x00A &&& ~~~0x10F#64 == 0 && k.getSr 0x00B &&& ~~~0xF#64 == 0))) = true := by decide +kernel
theorem witness_WaitaReturnsOrSleeps :
    (let x (run : Running) (a : W64) (cond : Cond) (p : State → Bool → Nat → Nat → Bool) :=
       let k0 : Core := { tC [(11, a), (12, 0)] with run := some run }
       on k0 (.waita {} 1 11 12 0 cond) (fun k t => match waitaPlace ((tS k0).setCore 0 k) 0 (k.getS 11) with
         | .ok (s1, pad, pa) => p s1 pad pa t && (k.earlyPad .fe false t (k.getS 11).toNat 8).isNone && k.getS 0 == 0
         | _ => false)
     let m (c : Cond) (s1 : State) (pad : Bool) (pa t : Nat) := condInt c (s1.waitaWord 0 t 0x3FFFF8 pad pa) 0
     on (tC [(11, 4)]) (.waita {} 1 11 12 0 .eq) (fun k _ => decide ((k.getS 11).toNat % 8 ≠ 0)) &&
      x tRun 0x3FFFF8 .eq (fun s1 pad pa t => pad && m .eq s1 pad pa t) &&
      x { tRun with aborted := true } 0x3FFFF8 .ne (fun s1 pad pa t => !m .ne s1 pad pa t && s1.abrt 0 != 0) &&
      x tRun 0x3FFFF8 .ne (fun s1 pad pa t => !m .ne s1 pad pa t && s1.abrt 0 == 0)) = true := by decide +kernel
theorem witness_PollReadsTheAbortLines : starts tCore (.poll {} 5) = true := by decide +kernel
/-- A launch of 8 units without a work list; core 0 runs a unit of none, core 1 a persistent unit of launch 5. -/
def tL (id : W64) (born phase : Nat) (graph : W64) : Launch :=
  ⟨id, born, phase, 0, ⟨0, [0, 0, 0, 0x1000000000000008]⟩, graph, true, none, 2, [], 0, false, [], 0, false, none, false⟩
def tLs (l : List Launch) (k1 : Core) : State :=
  { ((tS tCore).upPart 0 (fun q => { q with launches := l })) with cores := [(0, tCore), (1, k1)] }
def tK5 (unit : Nat) : Core := { tCore with run := some { tRun with launch := 5, born := 1, unit := unit } }
theorem witness_AbortAndCancelAssertLines :
    (on tCore (.abort {} 3) (fun k _ => k.run.isSome) && starts tCore (.cancel {} 1 2 0) && starts tCore (.cancel {} 0 2 0) &&
      (((tS tCore).part 0).named 5).isEmpty && (((tS tCore).part 0).launch (5, 1)).isNone && !((tS tCore).part 0).abJob) = true ∧
    (let f (l : Launch) (g : Launch → Bool) : Bool := met (((tLs [l] .reset).part 0).launch (5, 1)) g
     f { tL 5 1 0 3 with ended := true } (·.ended) && f { tL 5 1 0 3 with aborted := true } (·.aborted) &&
      f (tL 5 1 0 3) (fun l => met l.total (fun n => decide (n ≤ 9))) &&
      { Part.reset with abPhases := [0] }.abPhases.contains 0 && { Part.reset with abGraphs := [3] }.abGraphs.contains 3 &&
      { Part.reset with abJob := true }.abJob) = true ∧
    (let z := tLs [tL 5 1 0 3, tL 7 2 1 3] (tK5 0)
     let w := tLs [{ tL 5 1 0 3 with requeue := [⟨3, 1, false⟩] }, tL 7 2 1 3] (tK5 0)
     let q := z.part 0
     q.named 5 == [(5, 1)] && decide ((q.launches.map Launch.ref).Nodup) && met (q.launch (5, 1)) (fun l => !l.ended && !l.aborted) &&
      z.quiet 0 [0] (fun x => x.ref == (7, 2)) && met (q.launch (7, 2)) (fun l => !l.ended && !l.aborted) &&
      q.coreList.contains 1 && z.partNo 1 == 0 && z.quiet 0 [1, 0] (fun x => x.ref == (5, 1)) && met (z.core 1).run (fun x => x.pers &&
        x.ref == (5, 1)) && (z.core 1).idle && z.quiet 0 [1] (fun x => x.ref == (5, 1)) && !q.abPhases.contains 0 && !q.abPhases.contains 1 &&
      z.quiet 0 [1] (fun x => x.phase == 0 && !x.ended) && z.quiet 0 [1] (fun x => x.phase == 1 && !x.ended) && q.phase == 0 &&
      !q.abGraphs.contains 3 && q.launches.any (fun l => l.graph == 3 && !l.ended) && z.quiet 0 [1] (fun x => x.graph == 3 && !x.ended) &&
      q.job == 0 && !q.abJob && z.quiet 0 [1] (fun x => !x.ended) && met (q.launch (5, 1)) (fun l => met l.total (fun n => decide (0 < n) &&
        decide (3 < n)) && !l.requeue.any (fun y => y.unit == 0)) && met ((w.part 0).launch (5, 1)) (fun l => l.requeue.any (fun y => y.unit == 3))
      && w.quiet 0 [1] (fun x => x.ref == (5, 1))) = true := by decide +kernel
theorem witness_PhaseCrossesTheBoundary :
    (let x (q : Running) (k : Core) (p : Core → Bool) := on { k with run := some q } (.phase {} 2) (fun k _ => p k)
     let ab (q : Running) := (tS { tCore with run := some q }).abrt 0
     let up (q : Running) : Running := { q with aborted := true }
     let back := { tRun with reported := true }
     let w := { tRun with phaseAt := some 0 }
     x tRunI tCore (fun k => !k.isPers) && x tRun (tBusy tCore) (fun k => k.isPers && !k.idle) &&
      [tRun, back].all (fun q => x q tCore (fun k => k.idle && k.isPers) && ab q == 0 && ab (up q) != 0) &&
      x { tRun with phaseAt := some 7 } tCore (fun k => k.isPers) && ((tS tCore).part 0).phase == 0 && x w tCore (fun k => k.isPers) &&
      ab w == 0 && x (up w) tCore (fun k => k.isPers) && ab (up w) != 0) = true := by decide +kernel
theorem witness_LaunchCreatesALaunch :
    (let x (m : Mem) (p : Nat → Bool) :=
       let s0 : State := (tM (tC [(3, 0x40)])).upPart 0 (fun q => { q with snap := m })
       onS s0 (.launch {} 6 3) (fun k t => match translate s0.mem ((s0.setCore 0 k).env 0) k.tlb [] (k.getS 3) needR with
         | (.ok a, tlb) =>
           let s1 := s0.setCore 0 { k with tlb := tlb }
           met k.run (fun r => decide ((k.getS 3).toNat % 64 = 0) && !s1.storeMeets 0 (t + 1) [a.pa / 64] && !s1.memBad a.pa 64 &&
             p ((s0.part 0).refuse (recordOf (k.getS 3) (s1.loadBytes 0 a.pa 64)) k.isPriv r.created))
         | _ => false)
     x [] (· == 0) && x (wrL [] (codeBase + 0x40) [1]) (· != 0) && on (tC [(3, 0x48)]) (.launch {} 6 3) (fun k _ =>
       decide ((k.getS 3).toNat % 64 ≠ 0)) && (((tS tCore).part 0).launch (5, 1)).isNone && !((tS tCore).part 0).lineOn
         ⟨5, 1, 1, 0, recordOf 0 [], 0, false, none, 0, [], 0, false, [], 0, false, none, false⟩) = true := by decide +kernel
theorem witness_DoneAndHaltEndTheUnit :
    [Instr.done {}, .halt {}].all (fun i => on tCore i (fun k _ => k.idle && k.run.isSome) && on (tBusy tCore) i (fun k _ =>
      !k.idle && k.run.isSome && k.spec.st == .closed)) = true ∧
    on (tSpec (tBusy tCore) .body) (.done {}) (fun k _ => !k.idle && k.spec.st == .body) = true := by decide +kernel
theorem witness_TlbiDropsTranslations : (on tCore (.tlbi {} 1 2 1) (fun k _ =>
      k.eng.ld.isEmpty && k.eng.st.isEmpty && !k.eng.holdLd && !k.eng.holdSt && k.eng.left.isEmpty) &&
    on { tCore with eng := { tCore.eng with ld := [tEntry (.ldT {} 1 2 3 0 0)] } } (.tlbi {} 1 2 1) (fun k t =>
      !k.eng.ld.isEmpty && !(k.eng.ld ++ k.eng.st).any Entry.marker && (k.roomAt .ld (.tlbi {} 1 2 1) t).isSome &&
      (k.roomAt .st (.tlbi {} 1 2 1) t).isSome)) = true := by decide +kernel
def tDecl (n int start : Nat) : Decl := ⟨n, int, 4, start, false, true, 0, 0, 0, false, 0, 0⟩
theorem witness_PowerDeclarations :
    (let d4 := { tCore with decls := [tDecl 1 1 0, tDecl 2 1 0, tDecl 3 1 0, tDecl 4 1 0] }
     let d1 := { tC [(1, 1)] with decls := [tDecl 1 15 0] }
     let full : State := { tS tCore with cores := [(0, tCore), (1, d1)] }
     let late := { tC [(1, 1)] with decls := [tDecl 1 15 9] }
     let early := { tCore with eng := { tCore.eng with cyc := 9 } }
     let z (s : State) (i : Instr) (p : State → Bool) : Bool := onS s i (fun k t => decide (t ≤ s.cycOf 0) && p (s.setCore 0 k))
     let of (s : State) : Option Nat := s.declIx 0 ((s.core 0).getS 1)
     let st (s : State) (j : Nat) : Bool := (s.setCore 0 ((s.core 0).endOthers j)).hasStarted 0 ((s.core 0).decl j)
     on early (.pwrDecl {} 1 5 5 1) (fun _ t => decide ((tS early).cycOf 0 < t)) &&
      z (tS d4) (.pwrDecl {} 1 5 5 1) (fun s => decide (4 ≤ (s.outs 0).length)) &&
      z (tS d1) (.pwrDecl {} 1 5 5 1) (fun s => decide (15 < s.ownSum 0 + 1)) &&
      z full (.pwrDecl {} 1 5 5 1) (fun s => decide ((s.outs 0).length < 4 ∧ s.ownSum 0 + 1 ≤ 15 ∧ 15 < s.cluSum 0 + 1)) &&
      z (tS tCore) (.pwrDecl {} 1 5 5 15) (fun s => decide ((s.outs 0).length < 4 ∧ s.ownSum 0 + 15 ≤ 15 ∧ s.cluSum 0 + 15 ≤ 15)) &&
      [Instr.pwrAcq {} 1, .pwrRel {} 1].all (fun i => z (tS tCore) i (fun s => (of s).isNone) && z (tS d1) i (fun s => (of s).isSome)) &&
      decide (0 < d1.decls.length) && z (tS d1) (.pwrAcq {} 1) (fun s => met (of s) (st s)) &&
      z (tS late) (.pwrAcq {} 1) (fun s => met (of s) (fun j => !st s j))) = true := by decide +kernel
def tCarry : Core := (tCore.setH 5 tRows).setH 6 tRows
theorem witness_SpeculativeRegionOpensAndCloses :
    (on tCarry (.specBegin {} (tCarry.ren 5) (tCarry.ren 6) 7 8) (fun k _ => (carryStop k 8 (tCarry.ren 5)).isNone &&
        (carryStop k 8 (tCarry.ren 6)).isNone) && starts (tSpec tCore .guessing) (.specGo {}) &&
      on (tSpec tCore .body) (.specAbort {}) (fun k _ => k.idle) && on ((tSpec tCore .body).setSr 0x0C2 2) (.specCommit {}) (fun k t =>
        k.idle && k.spec.held.isEmpty && (match reissueAll 0 t (heldBelow 2 k.spec.held) ((tS tCore).setCore 0 k) with
          | .ok _ => true | _ => false))) = true := by decide +kernel
/-- A handle of two dimensions: its base, format, extents and strides. -/
def tH (base fmt e0 e1 s0 s1 : Nat) : W256 := BitVec.ofNat 256
  (base + fmt * 2 ^ 24 + e0 * 2 ^ 32 + e1 * 2 ^ 44 + 2 ^ 56 + 2 ^ 68 + 2 ^ 80 + s0 * 2 ^ 92 + s1 * 2 ^ 108)
def withH (k : Core) (l : List (Hreg × W256)) : Core := l.foldl (fun k x => k.setH x.1 x.2) k
/-- FP32 streams in h1 to h3, INT32 in h4 to h6, INT8 in h7, NAT32 in h8, raw in h9. -/
def tVecC : Core := withH (tC [(1, 2), (2, 2), (3, 4), (4, 0x80)]) [(1, tH 0x1000 1 8 4 1 8), (2, tH 0x2000 1 8 4 1 8), (3, tH 0x3000 1 8 4 1 8),
  (4, tH 0x4000 6 8 4 1 8), (5, tH 0x5000 6 8 4 1 8), (6, tH 0x6000 6 8 4 1 8), (7, tH 0x7000 8 8 4 1 8),
  (8, tH 0x8000 10 8 4 1 8), (9, tH 0x9000 0 512 1 1 0)]
def tLane : List Instr := [.vadd {} 1 2 3 .f32 .x1, .vsub {} 1 2 3 .f32 .x1, .vmul {} 1 2 3 .f32 .x1, .vfma {} 1 2 3 .f32 .x1,
  .vdiv {} 1 2 3 .f32 .x1, .vmin {} 1 2 3 .f32 .x1, .vmax {} 1 2 3 .f32 .x1, .vabs {} 1 2 .f32 .x1, .vneg {} 1 2 .f32 .x1,
  .vand {} 4 5 6 .i32 .x1, .vor {} 4 5 6 .i32 .x1, .vxor {} 4 5 6 .i32 .x1, .vshl {} 4 5 6 .i32 .x1, .vshr {} 4 5 6 .i32 .x1,
  .vsra {} 4 5 6 .i32 .x1, .vmov {} 1 2 .f32 .x1, .vlog2 {} 1 2 .f32 .x1, .vexp2 {} 1 2 .f32 .x1, .vrcp {} 1 2 .f32 .x1,
  .vrsq {} 1 2 .f32 .x1, .vsqrt {} 1 2 .f32 .x1, .vtanh {} 1 2 .f32 .x1]
def tVecOther : List Instr := [.vcmp {} false .lt 2 3 .f32 .x1, .vsel {} 1 2 3 .f32 .x1, .vcvt {} 1 2 false .rne .f32 .x1,
  .vqnt {} 7 2 3 .f32 .x1, .vdqnt {} 1 7 3 .f32 .x1, .vclass {} 2 3 .f32 .x1, .vredSum {} 2 .f32 .x1, .vredMax {} 1 2 .f32 .x1,
  .vredMin {} 1 2 .f32 .x1, .vredMaxi {} 8 .x1, .vxrd {} 1 .f32 .x1, .vscan {} 1 2 .f32 .x1, .vperm {} 1 2 8 .f32 .x1,
  .vbcast {} 1 1 .f32 .x1, .viota {} 4 .i32 .x1, .vrng {} 1 8 8 .x1, .vexpmax {} 4 2 .f32 .x1, .vmaxi {} 2 .x1]
/-- A repetition that ends, and whether it is the last of the form's own accord. -/
def ends1 (o : VOut) (p : Bool → Bool) : Bool := match o with | .done _ e _ => p e | _ => false
def repGo (i : Instr) (p : Rep → Bool → Bool) : Bool := met ((tS tVecC).begins i) (fun b => met (vecOp b.en ((tS tVecC).named i)) (fun o =>
  ends1 (o.2.2 none b.core b.t) (p o.1)))
/-- The core as before with one instruction at the head of its EX queue. -/
def tHead (k : Core) (i : Instr) (m : Mark) : State :=
  let k1 := { k with eng := { k.eng with ex := [{ tEntry i with mark := m, waited := true, hv := (hStreams i).map k.getH }] } }
  tS k1
def repOn (i : Instr) (n : Nat) (p : Rep → Bool → Bool) : Bool := met ((tHead tVecC i (.reps n 0 none)).heads 0 .ex) (fun b => b.unheld &&
  met (vecOp b.en b.en.i) (fun o => ends1 (o.2.2 none b.core b.t) (p o.1)))
def okE {α : Type} (x : Except Stop α) (p : α → Bool) : Bool := match x with | .ok v => p v | .error _ => false
def okV {α : Type} (x : Except (Option Stop) α) (p : α → Bool) : Bool := match x with | .ok v => p v | .error _ => false
def okR {α : Type} (x : Res α) (p : α → Bool) : Bool := match x with | .ok v => p v | _ => false
/-- An instruction begins in a state, and a condition holds of it. -/
def begun (s : State) (i : Instr) (p : Begun → Bool) : Bool := met (s.begins i) p

theorem witness_RoutedInstructionsJoinTheirQueue :
    (let x (k : Core) (i : Instr) (e : Eng) := engOf i == some e && ((tS k).routes e ((tS k).named i) (feCheck i)).isSome &&
        (!((tS k).core 0).eng.st.isEmpty && e == .st || ((tS k).core 0).holds e)
     let h := { tVecC with eng := { tVecC.eng with holdLd := true, holdEx := true } }
     x h (.ldT {} 1 10 10 0 0) .ld && x h (.pref {} 10 10) .ld && x h (.vadd {} 1 2 3 .f32 .x1) .ex && x h (.mpush {}) .ex &&
      x (tBusy tVecC) (.stT {} 1 10 10 0 0) .st && x (tBusy tVecC) (.badd {} 10 1 0 0 .d) .st) = true := by decide +kernel
def tMask (n : Nat) : State := tS { tCore with v := { VecSt.reset with depth := n } }
theorem witness_MaskInstructionsWorkOnTheStack :
    (let x (n : Nat) (i : Instr) := begun (tMask n) i (fun b => b.core.v.depth == n)
     [0, 14, 15].all (fun n => x n (.mpush {})) && [Instr.minv {}, .mpop {}, .mset {} 1 false 3, .mset {} 1 true 0].all (fun i =>
       x 0 i && x 1 i && x 15 i) && x 0 (.mget {}) && x 15 (.mget {}) && x 0 (.vskip {} 4095)) = true := by decide +kernel
theorem witness_LaneWiseVectorResults : tLane.all (fun i => begun (tS tVecC) i (fun b =>
    met (laneOp ((tS tVecC).named i)) (fun o => o.rp == .x1 && okV (vOpen b.core b.t none (o.src.map (fun r => (r, o.ty.lanes)))
      [(o.hd, o.ty.lanes)]) (fun v => (fmtStop o.ty v.l o.src [o.hd]).isNone && v.l.all (fun x => x.reg != o.hd ||
        !(vTake b.core v (o.src.map (fun r => (r, o.ty.lanes)))).fetWrite x.h (x.h.spans ((actives b.core true o.ty.lanes v.l).map x.h.along)
          ((actives b.core true o.ty.lanes v.l).map (nth 0 x.ads)))))))) = true ∧
    VTy.i8.isFloat = false ∧ (255 : Nat) < 2 ^ VTy.i8.bitsN ∧ VTy.f32.isFloat = true ∧ (0 : Nat) < 3 ∧ VTy.i8 ≠ .n32 ∧ VTy.i8 ≠ .n8 ∧
    (8 = 1 * 2 ^ 3 ∧ (1 : Nat) ≠ 0 ∧ (6 = 2 * 3) ∧ 3 < 2000) := by decide +kernel
theorem witness_VectorInstructionsRunTheirRepetitions : (tLane ++ tVecOther).all (fun i => repGo i (fun rp _ => rp == .x1)) = true ∧
    okV (vOpen tVecC 0 none [(2, VTy.f32.lanes), (3, VTy.f32.lanes)] []) (fun v => (fmtStop .f32 v.l [2, 3] []).isNone) = true ∧
    okV (vOpen tVecC 0 none [(2, VTy.f32.lanes)] []) (fun v => (fmtStop .f32 v.l [2] []).isNone &&
      !(actives tVecC true VTy.f32.lanes v.l).isEmpty && (actives tVecC true VTy.f32.lanes v.l).all (fun j =>
        (match (nth (.i 0) (lanesOf .f32 v.m (srcOf v.l 2)) j).ex .f32 with | .fin _ m e => m == 0 && decide (0 < e) | _ => false))) = true ∧
    tVecC.v.xrF.natAbs < 2 ^ 319 ∧ VTy.f32.isFloat = true ∧ VTy.i8.isFloat = false := by decide +kernel
theorem witness_VectorInstructionsRepeat :
    ([Instr.vadd {} 1 2 3 .f32 .x4, .vadd {} 1 2 3 .f32 .xend, .vbcast {} 1 1 .f32 .x4].all (fun i =>
        repGo i (fun rp e => rp != .x1 && !(rp == .xend && e)) && repOn i 2 (fun rp e => !(rp == .xend && e))) &&
      repOn (.vadd {} 1 2 3 .f32 .x4) 1 (fun _ _ => true)) = true := by decide +kernel
theorem witness_VectorInstructionsFrame : okV (vOpen tVecC 0 none [(2, VTy.f32.lanes), (3, VTy.f32.lanes)] [(1, VTy.f32.lanes)]) (fun v =>
      (srcOf v.l 1).clear 0x2000) = true ∧ ends1 (laneWise tVecC 0 6 none .f32 1 [2, 3] (opAdd .f32)) (fun _ => true) = true ∧
    (tLane ++ tVecOther).all (fun i => begun (tS tVecC) i (fun b => met (vecOp b.en ((tS tVecC).named i)) (fun o =>
      met (vecStreams ((tS tVecC).named i)) (fun x => okV (vOpen b.core b.t none x.1 x.2) (fun v =>
        ends1 (o.2.2 none b.core b.t) (fun _ => true) && x.2.all (fun r => (srcOf v.l r.1).clearAll 0xF000)))))) = true := by decide +kernel
/-- Slot 3 holds one FP32 panel of depth 8; h10 is 128 INT16, h11 raw elements, h12 one column of FP32, h13 counts. -/
def tMx : State :=
  let k := withH tVecC [(10, tH 0xA000 7 128 1 1 0), (11, tH 0x10000 0x19 8 4 1 8), (12, tH 0xB000 1 1 4 1 1), (13, tH 0xC000 6 1 4 1 1),
    (14, tH 0xD000 1 4 8 1 4), (15, tH 0xE000 10 1 8 1 1)]
  { tS k with clusters := [(0, { Cluster.reset with slots := [(3, ⟨1, 1, 8, 0, [], []⟩)] })] }
theorem witness_LeaseAnchorsAndTilesAreWritten :
    (let x := begun tMx
     let d := (tMx.clu 0).slot 3
     let st (b : Begun) := okE (slotStart b.s b.c 3 b.t)
     x (.mlease {}) (fun b => (b.s.lease b.c 1 b.t).2.isSome) && x (.mrel {}) (fun _ => true) && x (.mclr {} 1) (fun b => okE (tileStart b.core 1 false b.t) (fun _ => true)) &&
      x (.mancScan {} 1) (fun b => let h := HD.of (b.en.h 0)
        okE (matRead b.core b.t 1 h (h.region (min 128 (h.e 1 - h.i 1)) (h.e 0 - h.i 0))) (fun _ => true)) &&
      x (.mancLoad {} 10) (fun b => okE (anchVals b.core b.t 10 (HD.of (b.en.h 0))) (fun _ => true)) &&
      x (.mancColumn {} 3 10 0) (fun b => (b.s.clu 0).slotOk 3 && decide (0 < min d.panels 256) && st b (fun t => met t (fun t =>
        okE (anchVals b.core t 10 (HD.of (b.en.h 0))) (fun _ => true)))) &&
      x (.rdacc {} 0 11 1 2) (fun b => let h := HD.of (b.en.h 0)
        okE (tileStart b.core 0 false b.t) (fun _ => true) && okE (matAddrs 11 h (h.region 2 2)) (fun _ => true)) &&
      x (.mstatTile {} 0 9 0) (fun b => okE (putRecord b.core (b.t + 6) 9 (HD.of (b.en.h 0)) (b.core.tile 0).summary) (fun _ => true)) &&
      x (.mstatTile {} 0 9 2) (fun b => okE (putRecord b.core (b.t + 6) 9 (HD.of (b.en.h 0)) (int16s (fun j => mget 0 (b.core.tile 0).xb j)))
        (fun _ => true)) &&
      x (.mstatRowanc {} 9) (fun b => okE (putRecord b.core (b.t + 6) 9 (HD.of (b.en.h 0)) (int16s (fun j => mget 0 b.core.anch j))) (fun _ => true))
      && x (.mstatDesc {} 3 9) (fun b => st b (fun t => met t (fun t => okE (putRecord b.core (t + 6) 9 (HD.of (b.en.h 0))
        (toLE 64 (slotDouble (b.s.clu 0) 3))) (fun _ => true)))) &&
      x (.mstatColanc {} 3 9 0) (fun b => (b.s.clu 0).slotOk 3 && decide (0 < d.panels) && st b (fun t => met t (fun t =>
        okE (putRecord b.core (t + 6) 9 (HD.of (b.en.h 0)) (int16s (d.anchor 0))) (fun _ => true))))) = true := by decide +kernel
theorem witness_MatrixMultiplyAndEpilogue_mma :
    begun tMx (.mma {} 0 3 1 0 1 2 3) (fun b =>
      let h := HD.of (b.en.h 0)
      let d := (b.s.clu 0).slot 3
      let tl := b.core.tile 0
      okE (tileStart b.core 0 true b.t) (fun t1 => okE (slotStart b.s b.c 3 b.t) (fun t2 => met t2 (fun t2 =>
        (b.s.clu 0).slotOk 3 && decide (0 < min d.panels 256 ∧ h.i 0 + 4 ≤ d.depth ∧ h.half = fmtHalf d.fmt ∧ tl.w = 0 ∧
          tl.terms + 4 ≤ tMax (max tl.w (max ((fmtW h.fmt).getD 0) ((fmtW d.fmt).getD 0)))) && (fmtW d.fmt).isSome &&
        (kilnCheck b.s b.c b.en (measured 2 h.half)).isNone && !kilnWait b.s b.c b.en &&
        met (b.s.lease b.c 1 (max (max t1 t2) (mget 0 b.core.v.rdy 4))).2 (fun t0 =>
         okE (matRead b.core t0 1 h (h.region 2 4)) (fun _ => true) && okE (slotCols b.s b.c d 0 (h.i 0) 4 (upto 2)) (fun _ => true)))))) =
    true := by decide +kernel
/-- The same with 4 rows of 64 elements of BK8 in h16, their scale words 512 bytes on. -/
def tMxBk : State := tMx.upCore 0 (fun k => k.setH 16 (tH 0x5000 0x10 64 4 1 64 + BitVec.ofNat 256 (8 * 2 ^ 240)))
theorem witness_MatrixMultiplyAndEpilogue_out :
    (let chk (b : Begun) := okE (tileStart b.core 0 false b.t) (fun _ => true) && ((b.core.tile 0).checkFail 2 2).isNone
     let reg (j m n : Nat) (b : Begun) := let h := HD.of (b.en.h j); okE (matAddrs 1 h (h.region m n)) (fun _ => true)
     begun tMx (.mepi {} 0 1 .relu none 1 2 none true) (fun b => chk b && reg 0 2 2 b && !fmtBk (HD.of (b.en.h 0)).fmt) &&
      begun tMx (.mepi {} 0 1 .clamp (some 2) 1 2 (some 3) false) (fun b => chk b && reg 0 2 2 b &&
        okE (matRead b.core b.t 2 (HD.of (b.en.h 1)) ((upto 2).map ((HD.of (b.en.h 1)).at 0))) (fun _ => true)) &&
      begun tMxBk (.mepi {} 0 16 .relu none 1 2 none true) (fun b => chk b && reg 0 2 2 b && fmtBk (HD.of (b.en.h 0)).fmt &&
        (HD.of (b.en.h 0)).i 0 == 0 && (let h := HD.of (b.en.h 0)
          met (match matAddrs 16 h (h.region 2 2) with | .ok l => some l | .error _ => none) (fun l =>
            let runs := l.map (fun a => (a, h.half)) ++ (upto 2).map (fun i => (2 * h.scaleAddr (h.at i 0), 4))
            (upto runs.length).all (fun x => (upto x).all (fun y => apart (nth (0, 0) runs y).1 (nth (0, 0) runs y).2 (nth (0, 0) runs x).1
              (nth (0, 0) runs x).2))))) &&
      begun tMx (.mtopk {} 0 1 true true 1 4 1 2 3) (fun b => chk b && reg 0 2 2 b && reg 1 2 2 b) &&
      begun tMx (.mtopk {} 0 1 false false 7 4 1 2 3) chk) = true := by decide +kernel
/-- The core as before with the top mask entry 0. -/
def tMx0 : State := { tMx with cores := [(0, { tMx.core 0 with v := { VecSt.reset with depth := 1, stack := [(1, 0)] } })] }
def rxMeets (s : State) (i : Instr) (some' : Bool) : Bool := met (rxForm (s.named i)) (fun f => begun s i (fun b =>
  okE (tileStart b.core f.acc false b.t) (fun _ => true) && okE (slotStart b.s b.c f.g.toNat b.t) (·.isSome) &&
  ((b.s.clu (b.c / 4)).slot f.g.toNat).fmt == 1 && (rxShape f b.core (b.s.clu (b.c / 4)) b.en).isNone &&
  (rxOut b.en (rxRows b.core b.en) (rxAreas f b.en)).isNone && (rxRows b.core b.en).isEmpty != some' &&
  (!some' || (kilnCheck b.s b.c b.en (measured (min (rxN b.en) 128) 8)).isNone && !kilnWait b.s b.c b.en &&
    (rxLease b.s b.c b.t).2.isSome)))
def rxGoesOn (p : RelaxProg) : Bool := met ((tHead (tMx.core 0) (.relax {} 0 3 12 .identity 1 2 none none false) (.relax p)).heads 0 .ex)
  (fun b => b.unheld && (rxForm b.en.i).isSome && b.en.mark == .relax p && p.started)
/-- The state after a RELAX has started. -/
def rxStarted : State := match exec (.relax {} 0 3 12 .identity 1 2 none none false) tMx with | .next u => u | _ => tMx
theorem witness_RelaxRunsAndItsHistoryMoves_iteration :
    met (rxStarted.heads 0 .ex) (fun b => b.unheld && met (rxForm b.en.i) (fun f => match b.en.mark with
      | .relax p => p.started && p.fin.isNone && !p.actives.isEmpty && decide ((b.core.sr32 0x082).toNat < (b.core.sr32 0x083).toNat) &&
          (rxCheckFail b.core f p (rxN b.en)).isNone && (upto (rxN b.en)).all (fun j =>
            okE (slotCol b.s 0 ((b.s.clu 0).slot f.g.toNat) (j / 128) (j % 128) 0 (rxN b.en)) (fun _ => true)) && p.actives.all (fun i =>
            okE (rxRead b.core b.t b.en 0 (rxN b.en) i) (fun _ => true) && okE (rxRead b.core b.t b.en 1 (rxN b.en) i) (fun _ => true)) &&
          (let area (i j : Nat) : Except Nat Nat := (HD.of (b.en.h 0)).addr ((HD.of (b.en.h 0)).at i j)
           match area 0 0, area 3 7 with | .ok a, .ok c => apart a 8 c 8 | _, _ => false)
      | _ => false)) = true := by decide +kernel
theorem witness_RelaxRunsAndItsHistoryMoves :
    (let p : RelaxProg := ⟨[], 0, 0, 0, 0, false, true, false, false, 0, none⟩
     rxGoesOn p && p.fin.isNone && p.actives.isEmpty && rxGoesOn { p with fin := some true } &&
      begun tMx (.rdahr {} 14) (fun b => let h := HD.of (b.en.h 0); okE (matAddrs 14 h (h.region (min 128 (h.e 1 - h.i 1)) 4)) (fun _ => true)) &&
      begun tMx (.wrahr {} 14) (fun b => let h := HD.of (b.en.h 0); okE (matAddrs 14 h (h.region (min 128 (h.e 1 - h.i 1)) 4)) (fun l =>
        (readChecks b.core b.t [⟨14, 0, h, l⟩]).isNone)) &&
      begun (tMx.setCore 0 (tSpec ((tMx.core 0).setSr 0x0C1 2) .body)) (.accept {} 15 15 0 1) (fun b => let h := HD.of (b.en.h 0)
        okE (acceptLoop b.core b.t 15 15 h h 0 (val32 ((b.en.s 0).setWidth 32)) (h.e 0 - h.i 0) (b.core.specW - 1) 0) (fun _ => true)) &&
      rxMeets tMx (.relax {} 0 3 12 .identity 1 2 none none false) true && rxMeets tMx0 (.relax {} 0 3 12 .identity 1 2 none none false) false &&
      rxMeets tMx (.relaxB {} 0 12 1 2 3 none 3 false) true && rxMeets tMx0 (.relaxB {} 0 12 1 2 3 none 3 false) false) = true := by
  decide +kernel
/-- The state with segment 0 of two pages at codeBase in HBM, or at the start of the Crock, mapped at virtual 0; m is committed
memory besides the segment table, n the phase snapshot. -/
def tT (crock : Bool) (k : Core) (m n : Mem) : State :=
  let s := tM k
  let seg := if crock then toLE 8 (2 ^ 63 + 2 * 2 ^ 60 + 0x20000000000) ++ toLE 8 2 ++ toLE 16 0 else codeSeg
  { s with mem := wrL m 0x1000000 seg, parts := s.parts.map (fun p => (p.1, { p.2 with snap := n })) }
/-- Doubles as bytes. -/
def dbl (l : List Nat) : List Byte := l.flatMap (toLE 8)
/-- h8 holds row numbers 1 and 2; the handle image at 0x80 is that of a stream at 0x3000; s10 is 0x400. -/
def tCp : Core :=
  let k := withH (tVecC.setS 10 0x400) [(14, tH 0x5000 8 8 8 1 8), (15, tH 0x6000 0x10 32 1 1 32)]
  { k with pad := { k.pad with mem := wrL (wrL [] 0x8000 (toLE 4 1 ++ toLE 4 2)) 0x80 (toLE 32 (tH 0x3000 1 8 4 1 8).toNat) } }
/-- The pages' format made f. -/
def tFmt (f : Nat) (s : State) : State := s.upCore 0 (fun k => { k with tlb := k.tlb.map (fun x => (x.1, x.2 ||| BitVec.ofNat 64 (f * 2 ^ 50))) })
def tCopies : List Instr := [.ldT {} 1 10 0 0 0, .ldX {} 1 10 0 8 0 0, .ldGr {} 1 10 0 8 0 0, .stT {} 1 10 0 0 0, .stPart {} 1 10 0 0 0,
  .stX {} 1 10 0 8 0 0]
/-- The core in a static region with a scratchpad write due. -/
def tDueC : Core := { tCp.setSr 0x001 0 with eng := { tCp.eng with due := [⟨1000, .ex, .mem 0x100 [1]⟩] } }
theorem witness_CopiesMoveTheirTile_run : tCopies.all (fun i => begun (tFmt 1 (tT false tCp [] [])) i (fun b => b.copied.isSome)) = true :=
  by decide +kernel
/-- The pieces of a plain copy of s[10] and h1. -/
def copyPf (b : Begun) : Nat := (b.elements b.copy0).1
def copyEls (b : Begun) : List CEl := (b.elements b.copy0).2
def copyMh (b : Begun) : Nat := memHalf (HD.of (b.en.h 0)) (copyPf b)
def copyPart (b : Begun) : Option CPart := (b.s.partsOf b.c (copyMh b) (copyEls b)).head?
def copyForm (b : Begun) (whole : Bool) : SForm := ⟨HD.of (b.en.h 0), copyPf b, copyEls b, whole, false, elLane b.en, b.en.routed, []⟩
theorem witness_CopiesMoveTheirTile_load :
    begun (tT false tCp [] (wrL [] 0x100400 (dbl [7, 9]))) (.ldT {} 1 10 0 0 0) (fun b => met (copyPart b) (fun p =>
      okR (loadPart b.c b.en.routed true (copyPf b) (copyMh b) p b.copy0) (fun x => !x.m.vals.isEmpty))) = true := by decide +kernel
theorem witness_CopiesMoveTheirTile_gather :
    begun (tFmt 1 (tT false tCp [] [])) (.ldGr {} 1 10 0 8 0 0) (fun b => met b.indexed (fun x => (b.gathers x).isSome &&
      !(x.s.core b.c).memDue && (let h := HD.of (b.en.h 0)
        decide (h.places.Pairwise (fun e q => apart e.2 h.half q.2 h.half = true)) && h.places.all (fun e => wholeRun e.2 h.half) &&
          (h.places[5]?).isSome && ((grDests h)[5]?).isSome))) = true ∧
    (0 : Nat) < 1 ∧ (Ex.nan, Ex.fin false 1 1) ∈ [(Ex.nan, Ex.fin false 1 1)] := by decide +kernel
theorem witness_CopiesMoveTheirTile_visit :
    (let x (k : Core) (due : Bool) := begun (tT false k [] []) (.ldT {} 1 10 0 0 0) (fun b =>
       let h := HD.of (b.en.h 0)
       met ((b.core.putsOf h false ((copyEls b).map CEl.pad)).head?) (fun v => !b.core.fetWrite h v.spans && b.core.memDue == due &&
         v.ps.all (fun p => wholeRun p.a2 p.n) && decide (v.ps.Pairwise (fun p r => apart p.a2 p.n r.a2 r.n = true))))
     x tCp false && x tDueC true) = true := by decide +kernel
theorem witness_CopiesMoveTheirTile_take :
    begun (tT false tCp [] []) (.stT {} 1 10 0 0 0) (fun b =>
      let h := HD.of (b.en.h 0)
      !h.fet && h.places.all (fun e => wholeRun e.2 h.half) && b.copy0.m.stash.isEmpty &&
        okR (copyLoop (takeVisit b.c b.t .st h none) (b.core.takes h false h.places) b.copy0) (fun _ => true)) = true := by decide +kernel
theorem witness_CopiesMoveTheirTile_store :
    [false, true].all (fun whole => begun (tT false tCp [] []) (.stT {} 1 10 0 0 0) (fun b =>
      let f := copyForm b whole
      !fmtBk f.pf && f.whole == whole && f.els.all (fun e => (f.laneOf e.ix).isNone) && met (copyPart b) (fun p =>
        p.els.all (fun e => f.els.contains e && wholeRun e.va2 f.mh) && okR (storePart b.c f [] p b.copy0) (fun _ => true)))) = true := by
  decide +kernel
theorem witness_GlazeLoadsAndScratchpadCopies_glaze :
    [false, true].all (fun tr => begun (tT false tCp [] []) (if tr then .ldGt {} 1 10 0 0 0 0 3 else .ldG {} 1 10 0 0 0 0 3) (fun b =>
      let f := glazeForm b.s b.c b.en tr
      let mh := memHalf f.1 f.2.1
      (alignAt .ld f.1 f.2.1 (b.en.s 0) (b.en.s 1)).isNone && !fmtBk f.1.fmt &&
        (doneAll (fun x p => loadPart b.c b.en.routed (ldFmtOk f.2.1 f.1.fmt) f.2.1 mh p x) (b.s.partsOf b.c mh f.2.2) b.copy0).isSome)) = true := by
  decide +kernel
theorem witness_GlazeLoadsAndScratchpadCopies_pad :
    (let ships (dsts : Begun → List Nat) (lim : Begun → Nat → Option Nat) (b : Begun) : Bool := (b.shipped (dsts b) (lim b)).isSome
     let ds (b : Begun) := (mcDests 0 (b.en.s 2)).filter (fun d => !b.s.ik.retired.contains (d / 4))
     begun (tT false tCp [] []) (.ldSp {} 1 4 0 0) (fun b =>
        let dst := HD.of (b.en.h 0)
        let src := HD.of (b.en.h 1)
        let hs := src.as dst.fmt
        let d := dst.as src.fmt
        b.copiedIn.isSome && !fmtBk src.fmt && !fmtBk dst.fmt && !src.fet && !b.core.memDue && hs.places.all (fun e => wholeRun e.2 hs.half) &&
          d.places.all (fun e => wholeRun e.2 d.half) && decide (d.places.Pairwise (fun e q => apart e.2 d.half q.2 d.half = true)) &&
          (hs.places[3]?).isSome && (d.places[3]?).isSome) &&
      begun (tT false (tCp.setS 5 1) [] []) (.stRmt {} 1 4 5 0 0) (ships (fun b => [(b.en.s 2).toNat]) (fun _ _ => none)) &&
      begun (let s := tT false (tCp.setS 5 6) [] []; { s with ik := { s.ik with retired := [0] } }) (.stMc {} 1 4 6 5 0 0 0)
        (ships ds (fun b => b.s.mcLands b.c b.en)) &&
      begun (tT false tCp [] []) (.pref {} 10 0) (fun _ => true)) = true := by decide +kernel
theorem witness_GlazeLoadsAndScratchpadCopies_deliver :
    (let e : ChanEl := ⟨0, [(0x200, 4, 7), (0x204, 1, 3)], some 0, true, true⟩
     [(tCp, false), (tDueC, true)].all (fun k => e.fet && e.inter && e.ws.all (fun w => (granLow (nibSpan w).1 (nibSpan w).2).all (fun g =>
         !((tS k.1).core 0).pad.full.contains g) && wholeRun w.1 w.2.1) && ((tS k.1).core 0).memDue == k.2 &&
       decide (e.ws.Pairwise (fun w q => apart w.1 w.2.1 q.1 q.2.1 = true)))) = true := by decide +kernel
/-- An append descriptor at virtual 0x400 of the Crock: rows of 32 bytes at virtual 0x800, capacity c, length n. -/
def tApp (k : Core) (c n : Nat) : State := tT true k (wrL [] 0x20000000400 (dbl [0x800, c * 2 ^ 32 + 32, n])) []
/-- In the body of a speculative region of two lanes, stores going to lane 1. -/
def tBody : Core := tSpec ((tCp.setSr 0x0C1 2).setSr 0x00B 1) .body
theorem witness_AppendsQueuesAndMigration_append :
    (let x (s : State) (p : Begun → CSt → Nat → AppendQ → HD → Bool) := begun s (.stApp {} 1 10 0 0) (fun b =>
       match appendDesc b.c (b.en.s 0) needRW b.copy0 with
       | (.ok x, some (pa, d)) => (appendStop x.s b.c b.en d d.len.toNat).isNone && p b x pa d (HD.of (b.en.h 0))
       | _ => false)
     let plain (c : Nat) (p : Begun → CSt → Nat → AppendQ → HD → Bool) := x (tApp tCp c 2) (fun b x _ d h => decide (8 < b.en.lane) &&
       (let f := appendForm x.s b.c b.en d d.len.toNat
        met (doneAll (storeAct b.c b.t f) ((f.acts x.s b.c).filter (fun a => match a with | .store _ => false | _ => true)) x) (fun x1 =>
          match appendDesc b.c (b.en.s 0) needRW x1 with
          | (.ok x2, some (pa2, d2)) => d2.own == 0 && p b x2 pa2 d2 h
          | _ => false)))
     plain 5 (fun _ _ _ d h => decide (d.cap < d.len.toNat + h.rows)) && plain 6 (fun b x pa d h => decide (d.len.toNat + h.rows ≤ d.cap) &&
        (appendStop x.s b.c b.en d d.len.toNat).isNone && (let f := appendForm x.s b.c b.en d d.len.toNat
          okR (copyLoop (fun x p => storePart b.c f ((x.s.core b.c).taken (f.h.as f.pf) (fmtBk f.h.fmt) f.pads x.m) p x)
            (x.s.partsOf b.c f.mh f.els) { x with s := x.s.writeMem (pa + 0x10) (toLE 8 (d.len.toNat + h.rows)) }) (fun _ => true))) &&
      x (tApp tBody 6 2) (fun b x pa d h => decide (b.en.lane ≤ 8) && d.own == 0 && decide ((x.s.core b.c).spec.descs.length < 8) &&
        decide (d.len.toNat + ((List.range 8).map (laneRows b.en h)).sum ≤ d.cap) &&
        (let g := (upto 8).foldl (fun a j => a + laneRows b.en h j % 2 ^ 16 * 2 ^ (16 * j)) 0
         let s2 := ((x.s.writeMem (pa + 0x18) (toLE 8 (b.c + 1))).writeMem (pa + 0x20) (toLE 16 g)).upCore b.c (fun k =>
           { k with spec := { k.spec with descs := k.spec.descs ++ [(pa, b.en.s 0)] } })
         let f := appendForm s2 b.c b.en d d.len.toNat
         (doneAll (storeAct b.c b.t f) (f.acts s2 b.c) { s := s2, m := { x.m with rows := [d.len.toNat + 1] } }).isSome)) &&
      begun (tApp tCp 6 2) (.stAppQuery {} 10 9) (fun b => match appendDesc b.c (b.en.s 0) needR b.copy0 with
        | (.ok _, some _) => true
        | _ => false)) = true := by decide +kernel
/-- A port queue at virtual 0x400 of the Crock: 2 slots of 512 bytes at virtual 0x1000; its head, tail and direction. -/
def tPortQ (hd tl dir : Nat) : State :=
  tT true tCp (wrL [] 0x20000000400 (dbl [0x1000, 2 * 2 ^ 16 + 2, hd, tl, 0, dir * 256])) []
theorem witness_AppendsQueuesAndMigration_ldNet :
    (let rd' (s : State) (p : Begun → CSt → Nat → PortQ → Option W64 → Bool) := begun s (.ldNet {} 1 10 5 6 0 0) (fun b =>
       match portDesc b.c .ld (b.en.s 0) false b.copy0 with
       | (.ok x, some (pa, d)) => p b x pa d (if d.head.toNat < d.tail.toNat then some d.head else none)
       | _ => false)
     rd' (tPortQ 3 3 0) (fun b x _ _ h => (portTurn x.s b.c 6 h).2.1 == some none) && rd' (tPortQ 3 4 0) (fun b x pa d hq =>
        let r := portTurn x.s b.c 6 hq
        let h := HD.of (b.en.h 0)
        met r.2.1 (fun n => met n (fun n => okR (xlateRange b.c needW .ld (d.slotVa n) 1 0 { x with s := r.1 } []) (fun y =>
          let hd := y.2
          let bs := rdN y.1.s.mem (hd.headD 0) 16
          let len := leNat (bs.take 4)
          let m := min (min len (tileBytes h)) (d.slot - 64)
          okR (xlateRange b.c needW .ld (d.slotVa n + 64) ((m + 63) / 64) 0 y.1 []) (fun z =>
            (badPiece z.1.s hd 16).isNone && (badPiece z.1.s z.2 m).isNone && hq.isSome && (!r.2.2 || ((bs.drop 8).headD 0).getLsbD 0) &&
            (let s3 := (z.1.s.corrAll ((hd.headD 0, 16) :: piecesRead z.2 m)).writeMem (pa + 0x10) (toLE 8 (d.head + 1).toNat)
             let vs := (s3.core b.c).landings h (fillPieces h (2 * m))
             let v := leNat (readPieces z.1.s.mem z.2 m)
             let m3 : Moving := { z.1.m with
               rows := [hd.headD 0 + 8, len, leNat ((bs.drop 4).take 4), m], stash := [(0, v)], gs := granulesOf vs }
             (doneAll (fun x w => landVisit b.c b.t h w (payloadVal h v) x) vs ⟨s3, m3⟩).isSome))))))) = true := by decide +kernel
/-- A tracked tile: every granule that an ST.NET reads is full. -/
def tNetF (s : State) : State := s.upCore 0 (fun k =>
  { (k.setH 1 (k.getH 1 ||| BitVec.ofNat 256 (2 ^ 233))) with pad := { k.pad with full := [16] } })
/-- Core 0's tables: four nodes in segment 1 map the page at virtual 0 to segment 0. -/
def tTables (s : State) : State :=
  let ptr (n : Nat) : List Byte := dbl [2 ^ 63 + 2 ^ 32 + n]
  let m := wrL (wrL s.mem 0x1000020 (dbl [2 ^ 63 + 0x2000000, 1, 0, 0])) 0x2003000 (dbl [(codeLeaf 0).toNat])
  { (s.upCore 0 (fun k => k.setSr 0x221 0x100000000)) with
    mem := wrL (wrL (wrL m 0x2000000 (ptr 1)) 0x2001000 (ptr 2)) 0x2002000 (ptr 3)
    parts := s.parts.map (fun p => (p.1, p.2.setSr 0x223 2)) }
/-- Replay of a log at virtual 0x600 whose one entry says that the core's first ST.NET found no room. -/
def tNetLog : State :=
  let s := tTables (tPortQ 3 4 1)
  { s with mem := wrL s.mem 0x20000000600 (dbl [7 * 2 ^ 56, 2 ^ 64 - 1])
           parts := s.parts.map (fun p => (p.1, { ((p.2.setSr 0x250 0x600).setSr 0x251 1) with logMode := 2 })) }
theorem witness_AppendsQueuesAndMigration_stNet :
    (let wr' (s : State) (p : Begun → CSt → Nat → PortQ → Option W64 → Bool) := begun s (.stNet {} 1 10 5 6 0 0) (fun b =>
       match portDesc b.c .st (b.en.s 0) true b.copy0 with
       | (.ok x, some (pa, d)) => p b x pa d (if (d.tail - d.head).toNat < d.cap % 2 ^ 64 then some d.tail else none)
       | _ => false)
     let tile (b : Begun) (x : CSt) (p : CSt → Bool) : Bool := let h := HD.of (b.en.h 0)
       met (doneAll (takeVisit b.c b.t .st h none) ((x.s.core b.c).takes h false h.places) x) p
     let fits (b : Begun) (d : PortQ) (tr : Bool) : Bool := decide (tileBytes (HD.of (b.en.h 0)) ≤ d.slot - 64) &&
       b.core.tracks (HD.of (b.en.h 0)) == tr
     let room (b : Begun) (pa : Nat) (d : PortQ) (x : CSt) (tl : Option W64) (p : CSt → Bool) : Bool := let r := portTurn x.s b.c 7 tl
       met r.2.1 (fun n => met n (fun n => met (b.claims pa d x r.1 n r.2.2) p))
     wr' (tPortQ 3 5 1) (fun b x _ d tl => fits b d false && tl.isNone && (portTurn x.s b.c 7 tl).2.1 == some none) &&
      wr' (tNetF (tPortQ 3 4 1)) (fun b x pa d tl => fits b d true && room b pa d x tl (fun x2 => tile b x2 (fun _ => true))) &&
      [tPortQ 3 4 1, tNetLog].all (fun s => wr' s (fun b x _ d tl => fits b d false && tl.isSome && tile b x (fun z =>
        match portDesc b.c .st (b.en.s 0) true z with
        | (.ok z1, some (pa1, d1)) =>
          let tl1 : Option W64 := if (d1.tail - d1.head).toNat < d1.cap % 2 ^ 64 then some d1.tail else none
          if (s.part 0).logMode = 2 then (portTurn z1.s b.c 7 tl1).2.1 == some none else room b pa1 d1 z1 tl1 (fun _ => true)
        | _ => false)))) = true := by decide +kernel
theorem witness_AppendsQueuesAndMigration_migr :
    (let x (target : W64) (p : Begun → SegEnt → Bool) := begun (tT false (tCp.setS 6 target) [] []) (.migr {} 0 6 0 0) (fun b =>
       let n := segAt b.s.mem (b.s.env b.c) 0
       !n.hold && b.s.badMem.isEmpty && decide (n.busy = 0) && p b n)
     x 0x200000 (fun b n => !migrBad (b.s.env b.c) n 0 0x200000) && x 0x110000 (fun b n => migrBad (b.s.env b.c) n 0 0x110000)) = true := by
  decide +kernel
def tBank1 : List Instr := [.badd {} 10 1 0 0 .d, .badd {} 10 1 0 0 .w, .band {} 10 1 0 0 .d, .bor {} 10 1 0 0 .d, .bxor {} 10 1 0 0 .w,
  .bmin {} 10 1 0 0 .d, .bmax {} 10 1 0 0 .w, .bminn {} 10 1 0 0 .d, .bmaxn {} 10 1 0 0 .w, .bfmin {} 10 1 0 0, .bfmax {} 10 1 0 0,
  .bmaxi {} 10 1 0 0, .bxadd {} 10 1 0 0, .bxrd {} 10 9 0 0 false, .bxrd {} 10 9 0 0 true, .bfaa {} 10 1 9 0 0 .d, .bcas {} 10 1 9 0 0 .d,
  .bld {} 10 9 0 0 .d, .bst {} 10 1 0 0 .d, .bhist {} 10 1 0 0, .bpfx {} 10 11 9 0 0, .baxpy {} 10 1 9 0 0 .d]
def tBankN : List Instr := [.baddStream {} 4 10 0 0 .w, .bandStream {} 4 10 0 0 .w, .borStream {} 4 10 0 0 .w, .bxorStream {} 4 10 0 0 .w,
  .bminStream {} 4 10 0 0 .w, .bmaxStream {} 4 10 0 0 .w, .bminnStream {} 8 10 0 0 .w, .bmaxnStream {} 8 10 0 0 .w, .bfminStream {} 1 10 0 0,
  .bfmaxStream {} 1 10 0 0, .bmaxiStream {} 1 10 1 0 0, .bxaddStream {} 1 10 0 0, .bxrdStream {} 1 10 0 0 false, .bfaaStream {} 4 10 0 0 .w,
  .bldStream {} 4 10 0 0 .w, .bstStream {} 4 10 0 0 .w, .bhistStream {} 8 10 1 0 0 3, .baxpyStream {} 4 10 1 0 0 .w]
/-- The one row of h4, h8 and h1 begins at their third: two elements remain, so that a stream is short. -/
def tBk : Core := withH (tCp.setS 11 1) [(4, tH 0x4000 6 2 1 1 1), (8, tH 0x8000 10 2 1 1 1), (1, tH 0x1000 1 2 1 1 1)]
def tBankS : State := tT true tBk [] []
theorem witness_BankOperationsOnOneWord : tBank1.all (fun i => met (bankForm i) (fun f => !f.stream && begun tBankS i (fun b =>
    let n := bankBytes f.op f.ty
    decide ((b.en.s 0).toNat % bankSize f.op f.ty = 0) && (match b.words f with
      | some ([el], x) => (match x.xlate b.c el.2.1 (bankNeed f.op f.clr) 0 .st with
        | (.ok _, some tr) => tr.ent.home == 2 && !b.s.lagBanks && (mget [] b.s.fifos (bankOf tr.pa)).isEmpty &&
            (b.s.part (b.s.partNo b.c)).logMode == 0 && !b.s.memBad tr.pa n && decide (b.s.reserve (dieOf (tr.pa / 64 * 64)) < 2 ^ 24) &&
            (upto n).all (fun j => !(b.s.env b.c).busyByte (tr.pa + j))
        | _ => false)
      | _ => false)))) = true := by decide +kernel
/-- An older store is in flight, and s20 names a flag word that must wait for it. -/
def tBankFl : State := tBankS.upCore 0 (fun k => { (k.setS 20 0x60) with
  eng := { k.eng with cyc := 50, flight := [{ tEntry (.stT {} 1 10 0 0 0) with mark := .landed [] }] } })
theorem witness_BankOperationsOnOneWord_flight : [Instr.badd {} 10 1 20 0 .d, .bld {} 10 9 20 0 .d].all (fun i => begun tBankFl i (fun b =>
    !b.first b.s && !(b.core.eng.flight.isEmpty))) = true ∧ [Instr.badd {} 10 1 20 0 .d, .bld {} 10 9 0 0 .d].all (fun i =>
      begun tBankS i (fun b => b.first b.s && !b.s.lagBanks)) = true := by decide +kernel
theorem witness_BankOperationsOnOneWord_table :
    val32 0x7FC00000 = .nan ∧ val32 0xFF800000 = .inf true ∧ val32 0x80000000 ≠ .nan ∧ exFin (val32 0x3F800000) = true ∧
    (∃ v ∈ [(0x100000000 : W64)], v.getLsbD 32 = true) ∧ (Ex.fin true 0 1).is 0 (2 ^ 149) ∧
    (2#4).getLsbD 1 = true ∧ (4#4).getLsbD 2 = true ∧ (6#4).getLsbD 0 = false := by
  refine ⟨by decide, by decide, by decide, by decide, ⟨_, List.mem_singleton_self _, by decide⟩, ?_, by decide, by decide, by decide⟩
  simp [Ex.is]
theorem witness_BankOperationsOnOneWord_align : begun (tT true (tBk.setS 10 0x404) [] []) (.badd {} 10 1 0 0 .d) (fun b =>
    decide ((b.en.s 0).toNat % bankSize .add .d ≠ 0)) = true := by decide +kernel
def bankedGoes (s : State) (rec held first : Bool) (i : Instr) : Bool := met (bankForm i) (fun f => begun s i (fun b =>
  (bankStart f b.en).isNone && !b.s.lagBanks && met (b.banked f) (fun r => r.2.2.1.isEmpty &&
    ((r.1.part (r.1.partNo b.c)).logMode == 1) == rec && bankHeld f (r.1.core b.c) (HD.of (b.en.h 0)) r.2.1 == held && b.first r.1 == first &&
    ((b.s.part (b.s.partNo b.c)).logMode == 0 || rec) &&
    met (b.placed f) (fun l => l.2.all (fun q => (mget [] b.s.fifos (bankOf q.2)).isEmpty &&
      (upto (bankBytes f.op f.ty)).all (fun j => !(b.s.env b.c).busyByte (q.2 + j)))))))
/-- The partition records at virtual 0x600. -/
def tBankRec : State :=
  let s := tTables tBankS
  { s with parts := s.parts.map (fun p => (p.1, { ((p.2.setSr 0x250 0x600).setSr 0x251 8) with logMode := 1 })) }
/-- The granule that BFAA's stream returns to is full. -/
def tBankHeld : State := tBankS.upCore 0 (fun k =>
  { (k.setH 4 (k.getH 4 ||| BitVec.ofNat 256 (2 ^ 233))) with pad := { k.pad with full := [0x40] } })
theorem witness_BankOperationsOnStreams : (tBankN ++ [Instr.bpfx {} 10 11 9 0 0, .badd {} 10 1 0 0 .d]).all (bankedGoes tBankS false false true) =
    true := by decide +kernel
theorem witness_BankOperationsOnStreams_waits : bankedGoes tBankRec true false true (.bfaaStream {} 4 10 0 0 .w) &&
    bankedGoes tBankHeld false true true (.bfaaStream {} 4 10 0 0 .w) && bankedGoes tBankFl false false false (.bpfx {} 10 11 9 20 0) = true := by
  decide +kernel
theorem witness_BankOperationsOnStreams_elements : (streamEls .add .w 0 (HD.of (tH 0x4000 6 2 1 1 1)) 0x400 0 [(5, 0), (6, 0)]).isEmpty = false ∧
    (streamEls .hist .d 3 (HD.of (tH 0x8000 10 2 1 1 1)) 0x400 1 [(1, 0), (2, 0)]).isEmpty = false := by decide +kernel
/-- One hop straight on from port 2 to core 1 on channel 5; s12 is the route word, every slot of every port is the partition's, and
a plain and a partial transfer wait at core 0. -/
def tRoute (hops : Nat) : W64 := BitVec.ofNat 64 (2 ^ 56 + 5 * 2 ^ 48 + hops * 2 ^ 38 + 2 * 2 ^ 34)
def tXfer (body : LinkBody) (bad : Bool) : LinkXfer := ⟨tRoute 1, 1, 7, 0, 0, 4, body, 0, bad⟩
def tBlk : BkBlock := ⟨127, List.replicate 32 1⟩
def tLink (held : List LinkXfer) : State :=
  let s := tT false ((tCp.setS 12 (tRoute 1)).setS 13 5) [] []
  { s with parts := s.parts.map (fun p => (p.1, (upto 12).foldl (fun q j => q.setSr (0x261 + j) (BitVec.allOnes 64)) p.2))
           links := { s.links with held := [(0, held)] } }
theorem witness_LinksSendHopAndReceive_send :
    (let s := tLink [tXfer (.part true [tBlk]) false]
     let rdy (bk : Bool) (b : Begun) := let h := HD.of (b.en.h 0); (b.reads h bk h.places).isSome
     let red (x : LinkXfer) (p : LinkXfer → Nat → Bool) := begun (tLink [x]) (.linkRed {} 15 12 0 0 0 false true) (fun b =>
       let h := HD.of (b.en.h 0)
       met (b.reads h true h.places) (fun r => met (r.2.s.linkFirst b.c (routeChan (b.en.s 0)) true) (fun y => p y (partialOf h r.1).length)))
     let blocks (y : LinkXfer) : Nat := match y.body with | .part _ bs => bs.length | .plain _ => 0
     begun s (.linkSend {} 1 12 0 0 0) (rdy false) && begun s (.linkRed {} 15 12 0 0 0 true false) (rdy true) &&
        red (tXfer (.part true [tBlk]) false) (fun y n => !y.bad && y.body == .part true [tBlk] && blocks y == n) &&
        red (tXfer (.part true [tBlk, tBlk]) false) (fun y n => !y.bad && y.body == .part true [tBlk, tBlk] && blocks y != n) &&
        red (tXfer (.part true [tBlk]) true) (fun y _ => y.bad) &&
      (firstPort (tRoute 1)).isSome && s.links.out.isEmpty && decide (s.partNo 0 < noPart) && (sendSlot 5 5).2 && !(sendSlot 5 6).2) =
    true := by decide +kernel
theorem witness_LinksSendHopAndReceive_receive :
    (let lands (b : Begun) (z : LinkXfer) (ps : List Piece) (vals : List (Nat × Nat)) : Bool :=
       let h := HD.of (b.en.h 0)
       let s1 := b.s.linkTake b.c z
       let vs := (s1.core b.c).landings h ps
       let val (key : Nat) : Nat := if key % 2 = 0 then (nth (0, 0) vals (key / 2)).1 else (nth (0, 0) vals (key / 2)).2
       !vs.isEmpty && (doneAll (fun z v => landVisit b.c b.t h v val z) vs
         { s := s1, m := { rows := [3, 12], vals := vals, gs := granulesOf vs } }).isSome
     let x (h : Hreg) (y : LinkXfer) (p : Begun → LinkXfer → Bool) := begun (tLink [y]) (.linkRecv {} h 13 9 0 0) (fun b =>
       met (b.s.recvOf b.c b.en) (fun z => p b z))
     begun (tLink []) (.linkRecv {} 1 13 9 0 0) (fun b => (b.s.recvOf b.c b.en).isNone) &&
      x 1 (tXfer (.plain [1, 2, 3]) true) (fun _ z => z.bad) && x 1 (tXfer (.plain [1, 2, 3]) false) (fun b z => !z.bad &&
        z.body == .plain [1, 2, 3] && (let h := HD.of (b.en.h 0)
          lands b z (fillPieces h 6) ((upto h.places.length).map (fun k => (payloadVal h 0x30201 (2 * k), 0))))) &&
      x 15 (tXfer (.part true [tBlk]) false) (fun b z => let h := HD.of (b.en.h 0); !z.bad && h.fmt == 0x10 && z.body == .part true [tBlk] &&
        (let vals := ((tileBlocks h).zip [tBlk]).flatMap (fun q => (blockVals h true q.1 q.2).1)
         lands b z (h.pieces true true (h.places.take vals.length)) vals)) &&
      x 4 (tXfer (.part true [tBlk]) false) (fun b z => !z.bad && z.body == .part true [tBlk] && (HD.of (b.en.h 0)).fmt != 0x10 &&
        (HD.of (b.en.h 0)).fmt != 1)) = true := by decide +kernel
/-- Which ports are dead is an open value of the package (R410): each port meets one of the two hypotheses on it. -/
theorem witness_LinksSendHopAndReceive_hop :
    (let x := { tXfer (.plain []) false with route := tRoute 2 }
     let lost := { x with route := tRoute 2 ||| 12 }
     decide (routeHops (tRoute 1) ≤ 1 ∧ 1 < routeHops (tRoute 2)) && exitPort (tRoute 2) 2 4 == some 10 &&
      (exitPort lost.route 2 4).isNone &&
      xferRank ({ x with hop := 2, entry := 4 }) == 16 && xferRank x == 4) = true := by decide +kernel
theorem witness_LinksSendHopAndReceive_slots :
    (let s := tLink []
     let t := { s with links := { s.links with lsc := 60, later := [(0, 0x261, 1), (0, 0x262, 2)] } }
     decide (t.links.lsc < 62 ∧ t.links.lsc / 64 = 62 / 64 ∧ t.links.lsc < 70 ∧ t.links.lsc / 64 ≠ 70 / 64 ∧ (60 : Nat) ≤ t.links.lsc) &&
      t.links.later == [(0, 0x261, 1)] ++ [(0, 0x262, 2)] && t.links.later.all (fun w => w.2.1 != 0x263)) = true := by decide +kernel
theorem witness_LinksSendHopAndReceive_arrive :
    (let s := tLink []
     let full := (upto 4).map (fun _ => tXfer (.plain []) false)
     decide (s.partNo 200 = noPart ∧ s.partNo (routeCore (tRoute 1)) = 0 ∧ (mget [] s.links.held 1).length < 4 ∧ full.length = 4) &&
      ((s.part 0).getSr 0x260).toNat % 2 ^ 16 == 0) = true := by decide +kernel
/-- The state after the instruction has begun and waits at the head of the ST queue. -/
def tAfter (s : State) (i : Instr) (m : Mark) : State := match s.begins i with
  | some b => b.s.upCore 0 (fun k => { k with eng := { k.eng with st := [{ b.en with mark := m }] } })
  | none => s
theorem witness_LinksSendHopAndReceive_events :
    (let s := tLink [tXfer (.part true [tBlk]) false]
     met ((tAfter s (.linkSend {} 1 12 0 0 0) (.slotted 9)).heads 0 .st) (fun b => b.unheld && b.en.mark == .slotted 9) &&
      met ((tAfter s (.linkRed {} 15 12 0 0 0 true true) .fresh).heads 0 .st) (fun b => b.unheld && b.en.mark == .fresh &&
        (let h := HD.of (b.en.h 0)
         met (b.reads h true h.places) (fun r => (partialOf h r.1).length == 1 &&
           met (r.2.s.linkFirst 0 (routeChan (b.en.s 0)) true) (fun y => !y.bad && y.body == .part true [tBlk])))) &&
      (tBlk.scale == 127)) = true := by decide +kernel
/-- No core runs a unit; die 0 stands at cycle n. -/
def tI (n : Nat) (u : Cluster) : State :=
  { State.reset with parts := [(0, { Part.reset with clusters := [0], later := [(0x230, 1)] })], ik := { Ik.reset with boot := .up }
                     dies := [(0, { Die.reset with cyc := n, later := [(3, 9)] })], clusters := [(0, u)] }
theorem witness_ClocksPowerAndThermalEvents :
    (let s := tI 5000 .reset
     let fl : State := { s with parts := [(0, { Part.reset with clusters := [0] })] }
     let run (j : Nat) : State := { s with cores := [(j, tCore)] }
     (s.die 0).later == [] ++ [(3, 9)] && (s.part 0).later == [] ++ [(0x230, 1)] && decide ((s.clu 0).idleFrom + 4096 ≤ (s.die 0).cyc) &&
      [0, 1, 2, 3].all (fun j => (s.core j).run.isNone && (s.outs j).isEmpty) && !(s.clu 0).gated && (run 3 |>.core 3).run.isSome &&
      (let w := tI 5000 { Cluster.reset with gated := true, waking := true, idleFrom := 800 }
       (w.clu 0).gated && (w.clu 0).waking && decide ((w.clu 0).idleFrom + 4200 ≤ (w.die 0).cyc)) &&
      (let w := tI 5000 { Cluster.reset with und := true, undTo := 5000 }
       (w.clu 0).und && decide ((w.clu 0).undTo ≤ (w.die 0).cyc)) &&
      ((fl.flOn 0).flatMap fl.busyCores).isEmpty &&
      (let w : State := { run 2 with parts := [(0, ({ Part.reset with clusters := [0] }).setSr 0x230 2)] }
       (w.flOn 0).flatMap w.busyCores == [2]) &&
      (let d : Die := { Die.reset with cyc := 300, sag := true, sagAt := 44 }
       d.sag && decide (d.sagAt + 256 ≤ d.cyc)) &&
      (let w : State := { s with cores := [(0, tCore), (3, tCore)], parts := [(0, ({ Part.reset with clusters := [0] }).setSr 0x230 2)] }
       (w.flOn 0).flatMap w.busyCores == [0, 3]) &&
      (let u : Cluster := { Cluster.reset with undFrom := [(5, 9), (7, 11)] }
       u.undFrom.any (fun x => decide (x.1 ≤ 5)) && u.undFrom.all (fun x => !decide (x.1 ≤ 4))) &&
      (s.part 0).clusters.any (fun k => decide (k / 16 < 4 ∧ (s.die 0).cyc / 64 < 5056 / 64)) && s.links.later.isEmpty &&
      (let w : State := { tI 70000 .reset with cores := [(0, { tCore with decls := [tDecl 1 3 5] })] }
       met ((w.core 0).decls.find? (fun d => d.serial = 1)) (fun d => d.out && !d.active && met (w.startOf 0 d) (fun g =>
         decide (g + 1024 ≤ (w.die 0).cyc / 64))))) = true := by decide +kernel
/-- Group 3 of two members, of rank 0, on a route. -/
def tColl (recs : List CollRec) (d : Decl) : State :=
  { tI 5120 .reset with cores := [(0, { tCore with decls := [d] })]
                        parts := [(0, { Part.reset with clusters := [0], groups := [(3, ⟨0x8000000000000001#64, tRoute 1, 1, recs⟩)] })] }
theorem witness_DeclarationAndCollectiveEvents_sleepers :
    (let dec : Core := { tCore with sleep := .decl {} 1 5 9 4 }
     let full : State := { tS dec with cores := [(0, dec), (1, { tCore with decls := [tDecl 1 7 0] })] }
     let acq (l : List Decl) (n : Nat) : State := tS { tCore with sleep := .acq {} n, decls := l }
     decide ((tS dec).cluSum 0 + 9 ≤ 15) && decide (15 < full.cluSum 0 + 9) && !((acq [] 1).outs 0).any (·.serial == 1) &&
      (let s := acq [tDecl 1 3 0] 1
       met ((s.outs 0).find? (fun d => d.serial = 1)) (fun d => met (s.startOf 0 d) (fun g => decide (g ≤ (s.die 0).cyc / 64)))) &&
      (let s := acq [tDecl 1 3 9] 1
       met ((s.outs 0).find? (fun d => d.serial = 1)) (fun d => met (s.startOf 0 d) (fun g => decide ((s.die 0).cyc / 64 < g)))) &&
      (tCore.sleep == .awake)) = true := by decide +kernel
theorem witness_DeclarationAndCollectiveEvents_record :
    (let d := tDecl 1 3 30
     let s := tColl [] d
     let member : State := { (s.upCore 0 (fun k => k.setSr 0x107 3)) with cores := [(0, { (tCore.setSr 0x107 3) with sleep := .decl {} 1 5 9 4 })] }
     let hop (n : Nat) (r : Nat) : CollHop := ⟨tRoute 1, n, 0, ⟨false, r, 3, 1, 30⟩⟩
     let gr := (s.part (s.partNo (routeCore (hop 1 0).route))).group 3
     member.collOf 0 == 3 && (tS { tCore with sleep := .decl {} 1 5 9 4 }).collOf 0 == 0 && decide ((hop 0 0).hop < routeHops (hop 0 0).route) &&
      decide (routeHops (hop 1 0).route ≤ (hop 1 0).hop) && cgValid gr.cfg && (cgRank gr.cfg + 1) % (cgMemb gr.cfg + 1) == 1 &&
      s.partNo (routeCore (hop 1 0).route) == 0 && (s.outIx 0 1).isSome && (s.outIx 0 2).isNone &&
      (exitPort (tRoute 2) 2 4).isSome) = true ∧ (3 : Nat) ≤ 16 := by decide +kernel
theorem witness_DeclarationAndCollectiveEvents_collective :
    (let d : Decl := { tDecl 1 3 30 with coll := 3, collK := 1 }
     let x (recs : List CollRec) (d : Decl) (p : State → Decl → Group → Bool) := let s := tColl recs d
       met ((s.outs 0).find? (fun y => y.serial = 1)) (fun y => p s y ((s.part (s.partNo 0)).group y.coll))
     x [⟨false, 1, 3, 1, 30⟩] d (fun s y g => y.offer == 0 && met (s.startOf 0 y) (fun t => decide (t ≤ 80 + 48)) && (firstPort g.route).isSome) &&
      x [] { d with coll := 0 } (fun _ y _ => y.coll == 0) && x [] d (fun s y g => !y.alone && (g.others false y.collK).isNone &&
        decide (y.start + 48 ≤ (s.die 0).cyc / 64)) &&
      x [⟨false, 1, 3, 1, 30⟩] { d with offer := 7 } (fun s y g => (g.others false y.collK).isSome && met (s.startOf 0 y) (fun t =>
        decide (t ≤ (s.die 0).cyc / 64)) && y.count == 0 && y.offer != 0 && (g.others true y.collK).isNone) &&
      (let g := ((tColl [] d).part 0).group 3
       cgValid g.cfg && !cgValid 0 && (cgRank g.cfg + 1) % (cgMemb g.cfg + 1) == 1 && (firstPort g.route).isSome)) = true := by decide +kernel
/-- A launch of the open phase from a record with n bytes of arguments at virtual 0x40; q is its queue. -/
def tLaunch (alen q : Nat) : Launch :=
  ⟨5, 0, 0, 1, recordOf 0 (dbl [0x100, 0x40, q * 2 ^ 56 + 2 * 2 ^ 16 + alen]), 0, true, none, 0, [], 0, false, [], 0, false, none, false⟩
def tDisp (l : Launch) (u : Cluster) : State :=
  let s := tT true Core.reset [] []
  tTables { s with cores := [(1, { Core.reset with mode := .free })], clusters := [(0, u)]
                   parts := s.parts.map (fun p => (p.1, { p.2 with launches := [l] })) }
theorem witness_DispatcherStartsUnits :
    (let x (s : State) (p : State → Part → Launch → Bool) := let s1 := s.setPart 0 (s.part 0).fillQueues
       !(s1.part 0).closing && !(s1.freeCores 0).isEmpty && met (s1.part 0).selectQueue (fun r => met (r.2.headLaunch r.1) (fun l =>
         p s1 r.2 l && r.1 == 3))
     x (tDisp (tLaunch 1 3) .reset) (fun s1 pt l => !pt.inScope l l.takeUnit.1.1 && (match s1.place 0 l with | .core c => c == 1 | _ => false) &&
        (match s1.argBytes 0 l (l.rc.alen / 64) 0 with | .ok bs => bs.length == 64 | _ => false)) &&
      x (tDisp (tLaunch 1 3) { Cluster.reset with gated := true }) (fun s1 pt l => !pt.inScope l l.takeUnit.1.1 && (match s1.place 0 l with
        | .wake k => k == 0 && !(s1.clu 0).waking | _ => false)) &&
      x (tDisp { tLaunch 1 3 with dropped := [0] } .reset) (fun _ pt l => pt.inScope l l.takeUnit.1.1) &&
      ((tS tCore).part 0).fillQueues.selectQueue.isNone) = true ∧
    ({ tLaunch 0 3 with requeue := [⟨4, 1, false⟩, ⟨2, 1, true⟩] } : Launch).takeUnit.1.1 = 2 := by decide +kernel
theorem witness_DispatcherStartsUnits_counts :
    (let l : Launch := { tLaunch 0 3 with rc := recordOf 0 (dbl [0, 0, 3 * 2 ^ 56, 0, 2 ^ 15 + 4 * 2 ^ 16 + 2 ^ 32 + 2 ^ 44, 0x400]) }
     let s := tDisp l .reset
     let s : State := s.setPart 0 (s.part 0).fillQueues
     let t := tDisp { l with aborted := true } .reset
     let t : State := t.setPart 0 (t.part 0).fillQueues
     met ((t.part 0).headLaunch 3) (fun l => l.total.isNone && !(t.part 0).closing && (t.part 0).lineOn l) &&
     met ((s.part 0).headLaunch 3) (fun l => l.total.isNone && !(s.part 0).closing && !(s.part 0).lineOn l && (match s.entryTiles 0 l l.rc.nent 0 with
       | .ok ts => decide (ts.foldl (· + ·) 0 * l.rc.perTile ≤ 2 ^ 24) | _ => false)) &&
      (let k := (tS { tCore with mode := .drain true }).core 0
       k.mode == .drain true && k.idle && k.run.isSome && k.halting.isNone) && !((tS (tBusy { tCore with mode := .drain false })).core 0).idle) = true := by
  decide +kernel
/-- The partition is closing and replays a log, at virtual 0x400, whose next entry is the close of phase 9. -/
def tReplay : State :=
  let s := tDisp (tLaunch 1 3) .reset
  { s with mem := wrL s.mem 0x20000000400 (dbl [9, 0])
           parts := s.parts.map (fun p => (p.1, { ((p.2.setSr 0x250 0x400).setSr 0x251 1) with launches := [], closing := true, logMode := 2 })) }
theorem witness_PhasesCloseAndJobsStart :
    (let done := tS { tCore with run := some { tRun with reported := true } }
     let shut : Part := { Part.reset with clusters := [0], closing := true }
     let next : State := { tI 0 .reset with parts := [(0, { Part.reset with clusters := [0], launches := [{ tLaunch 0 3 with phase := 1 }] })] }
     done.mayClose 0 && !(tS tCore).mayClose 0 && (tI 0 .reset).emptyPhase 0 && !((tI 0 .reset).part 0).closing && !(tS tCore).emptyPhase 0 &&
      shut.closing && shut.logMode == 0 && shut.getSr 0x232 == 0 && shut.getSr 0x233 == 0 && (tS tCore).ik.heldWr.isEmpty &&
      next.mayClose 0 && next.emptyPhase 0 && (tReplay.part 0).closing && (tReplay.logAsk 0 0 (tReplay.part 0).phase).2 == .wait &&
      (tReplay.units 0).isEmpty && ((tReplay.settlePhase 0).part 0).closing && !(tI 0 .reset).mayClose 0 &&
      !(((tI 0 .reset).settlePhase 0).part 0).closing &&
      (({ tI 0 .reset with parts := [(0, shut)] } : State).logAsk 0 0 0).2 != .wait &&
      ((tI 0 .reset).units 0).isEmpty && !((tS tCore).units 0).isEmpty &&
      (let a : EndedSet := ⟨(0, 1, 2, 0), [(5, 7)]⟩
       let b : EndedSet := ⟨(0, 2, 0, 0), [(5, 9)]⟩
       keyLt a.key b.key && mfind b.bytes 5 == some 9 && mfind (resolve [a, b]) 5 == some 9 && (mfind (resolve [a, b]) 6).isNone)) =
    true := by decide +kernel
/-- A WAITA of a scratchpad double that is not 0, with a limit of 9 cycles. -/
def tWait (hit : Bool) (limit : W64) (r : Running) : State :=
  tS { tCore with run := some r, sleep := .waita {} 1 0x100 true 0 0 .ne limit 0 hit false }
theorem witness_StopsParkedUnitsAndSwaps :
    (let rec' (parked : Bool) : FaultRec := ⟨9, 0, 0, 0, 0, parked⟩
     let pt : Part := { Part.reset with clusters := [0], recs := [rec' true] }
     let k := { tCore with mode := .parked }
     let q : Launch := { tLaunch 0 3 with id := 0, requeue := [⟨0, 1, false⟩] }
     let held : Part := { Part.reset with launches := [q], recs := [rec' false] }
     (tWait true 0 tRun).abrt 0 == 0 && (tWait false 0 { tRun with aborted := true }).abrt 0 != 0 &&
      decide ((9#64 : W64) ≠ 0 ∧ 0 + (9#64).toNat ≤ ({ tWait false 9 tRun with dies := [(0, { Die.reset with cyc := 9 })] } : State).cycOf 0) &&
      condInt .ne (rd64 [] 0x100) 0 == false && ((tS tCore).core 0).busy && !((tI 0 .reset).core 0).busy &&
      (pt.recNo 8).isNone && met (pt.recNo 9) (fun r => r.parked && r.isUnit k) && met (held.recNo 9) (fun r => !r.parked &&
        met (held.launch (r.launch, r.born)) (fun l => l.requeue.any (fun x => x.unit == r.unit && !x.ready))) &&
      (let k := (tS { tCore with run := some tRunI }).core 0
       k.busy && !k.isPers && k.undecl == 0 && k.idle) &&
      ((tS tCore).part 0).coreList.any (fun c => ((tS tCore).core c).busy) &&
      ((tI 0 .reset).part 0).coreList.all (fun c => !((tI 0 .reset).core c).busy)) = true := by decide +kernel
/-- Core 0's cluster is gated; tenant 1 is saved with a unit that a swap has stopped. -/
def tSwapped : Core := { tCore with mode := .swapped, ff := [1, 2, 3, 4] }
def tSwap : State := { tI 5000 { Cluster.reset with gated := true } with
  parts := [(0, { Part.reset with clusters := [0], saved := [(1, [(0, tSwapped)])] })] }
theorem witness_StopsParkedUnitsAndSwaps_swap :
    (let q := (tSwap.part 0).tenantCore 1 0
     let s := tS tCore
     (tSwap.part 0).coreList.all (fun c => !(tSwap.core c).busy) && q.mode == .swapped && q.run.isSome && q.ff == [1, 2, 3, 4] &&
      (tSwap.clu 0).gated && !(tSwap.clu 0).waking && (tSwap.part 0).tenant == 0 && ((tSwap.part 0).tenantCore 1 1).mode == .free &&
      (s.core 0).busy && (s.core 0).halting.isNone && (s.core 0).eng.flight.isEmpty &&
      [Eng.ld, .ex, .st].all (fun e => !((s.core 0).queue e).head?.any Entry.begun) && (s.core 0).undecl == 0 &&
      ({ tCore with halting := some .cancel } : Core).halting == some .cancel && decide (Halting.rank .swap < Halting.rank .cancel) &&
      !decide (Halting.rank .preempt < Halting.rank .swap)) = true ∧
    (let s := tDisp { tLaunch 0 3 with running := 1 } .reset
     let s : State := s.upCore 0 (fun k => { k with mode := .running, run := some { tRunI with launch := 5 } })
     met (s.core 0).run (fun r => (s.core 0).undecl == 0 && ((s.part (s.partNo 0)).launch (r.launch, r.born)).isSome)) = true := by decide +kernel
theorem witness_StopsParkedUnitsAndSwaps_due :
    (let due (l : List Nat) : Core := { tCore with eng := { tCore.eng with due := l.map (fun t => ⟨t, .ex, .mem 0x100 [1]⟩) } }
     let ok (v : W64) := condInt .ne v 0
     let now (d : Due) : Bool := decide (0 < d.due ∧ d.due ≤ 9)
     (due [12]).eng.due.all (fun d => !now d) && (match (due [4, 12]).eng.due.filter now with | [d] => d.due == 4 | _ => false) &&
      (due [4]).padMet 0x100 0 9 ok && !(due [12]).padMet 0x100 0 9 ok) = true := by decide +kernel
theorem witness_StopsParkedUnitsAndSwaps_ends :
    (let s := tDisp { tLaunch 0 3 with running := 1 } .reset
     let s : State := s.upCore 0 (fun k => { k with mode := .running, run := some { tRunI with launch := (tLaunch 0 3).id } })
     let k := s.core 0
     k.busy && !k.isPers && k.eng.flight.isEmpty && [Eng.ld, .ex, .st].all (fun e => (k.queue e).isEmpty) && k.undecl == 0 &&
      met k.run (fun r => !r.aborted && met ((s.part (s.partNo 0)).launch (r.launch, r.born)) (fun l => !(s.part 0).inScope l r.unit)) &&
      (let r : FaultRec := ⟨9, 0, 0, 0, 0, true⟩
       let t : State := tS { tCore with mode := .parked }
       let t : State := t.setPart 0 { t.part 0 with recs := [r] }
       met ((t.part 0).recNo 9) (fun r => r.parked && r.isUnit (t.core r.core) && (t.core r.core).run == some tRun))) = true := by
  decide +kernel
theorem witness_LatchesLeasesFailuresAndResets :
    (let k : Core := { tCore with eng := { tCore.eng with latch := [(dirNo .feLd, 7)] } }
     let u : Cluster := { Cluster.reset with waiting := [2, 0] }
     let m (mark : Mark) : Entry := { tEntry (.tlbi {} 1 2 1) with mark := mark }
     let t : Core := { tCore with eng := { tCore.eng with ld := [m .fresh], st := [m (.shipped 0)] } }
     let bad : State := { tS tCore with badMem := [⟨.memory, 4⟩], weak := [⟨.memory, 5⟩, ⟨.scratchpad 0, 6⟩] }
     mfind k.eng.latch (dirNo .feLd) == some 7 && decide ((k.tok .feLd).length < 15) && (mfind tCore.eng.latch (dirNo .feLd)).isNone &&
      (let g (left at' : Nat) : Bool := let s := tI 0 { u with holder := some 1, left := left, arrayAt := at' }
        decide ((s.clu 0).holder ≠ none ∧ ¬((s.clu 0).left = 0 ∧ (s.clu 0).arrayAt ≤ s.cycOf 0))
       g 1 0 && g 0 5 && !g 0 0) &&
      u.holder.isNone && decide (u.last < 4) && u.waiting.any (fun w => decide (w < 4)) && t.busy && t.halting.isNone && (match t.eng.ld, t.eng.st with
        | [a], [b] => a.i == b.i && b.mark == .shipped 0 && a.i == .tlbi {} 1 2 1 | _, _ => false) &&
      bad.weak.contains ⟨.memory, 5⟩ && bad.weak.contains ⟨.scratchpad 0, 6⟩ && !bad.weak.contains ⟨.memory, 4⟩ &&
      bad.badMem.contains ⟨.memory, 4⟩ && !bad.badMem.contains ⟨.memory, 6⟩ && !((bad.core 0).bad.contains ⟨.scratchpad 0, 4⟩) &&
      [0, 1, 2, 3].all (fun j => ((tI 0 .reset).core j).run.isNone) && ((tS tCore).core 0).run.isSome &&
      ((tS { tCore with mode := .halted }).core 0).mode == .halted && ((tI 0 .reset).part 1).clusters.isEmpty) = true := by decide +kernel
theorem witness_LatchesLeasesFailuresAndResets_arrays :
    (let bad : State := { tS (tBusy tCore) with badMem := [⟨.memory, 4⟩, ⟨.glaze 0 1, 4⟩], weak := [⟨.memory, 5⟩, ⟨.glaze 0 1, 5⟩] }
     let k := bad.core 0
     !bad.badMem.contains ⟨.memory, 5⟩ && bad.weak.filter (· == ⟨.memory, 5⟩) == [⟨.memory, 5⟩] &&
      bad.weak.filter (· == ⟨.glaze 0 1, 5⟩) == [⟨.glaze 0 1, 5⟩] && bad.badMem.contains ⟨.glaze 0 1, 4⟩ && !bad.badMem.contains ⟨.glaze 0 1, 5⟩ &&
      !bad.weak.contains ⟨.glaze 0 1, 6⟩ && !k.bad.contains ⟨.tokens 0, 3⟩ && !k.weak.contains ⟨.tokens 0, 3⟩ && decide (128 < 192) &&
      (match k.queue .st with | en :: l2 => ([] : List Entry) ++ en :: l2 == k.queue .st && ([] : List Entry).length == 128 % 64 | _ => false) &&
      decide ((bad.die 0).ce ≤ 0xFFFFFFFF)) = true := by decide +kernel
/-- The instruction has begun and stands at the head of its queue with a mark. -/
def tFirst (s : State) (i : Instr) (m : Mark) : State := match s.begins i with
  | some b => b.s.upCore 0 (fun k => k.setHead b.e { b.en with mark := m })
  | none => s
def headed (s : State) (e : Eng) (p : Begun → Bool) : Bool := met (s.heads 0 e) (fun b => b.unheld && p b)
def bodyEnds (b : Begun) (x : State) : Bool := okR (bodyOf b.en.i b.c b.en b.t x) (fun _ => true)
def bodyWaits (b : Begun) (x : State) : Bool := match bodyOf b.en.i b.c b.en b.t x with | .wait _ => true | _ => false
theorem witness_EngineEventsRunTheirHead_bodies :
    (let s := tT false tCp [] []
     let crock := tT true tBk [] []
     let one (b : Begun) : State := { b.s with onePart := true }
     let lag (b : Begun) : State := { b.s with lagBanks := true }
     let started (m : Mark) : Bool := m != .fresh
     headed (tFirst s (.mpush {}) .fresh) .ex (fun b => bodyEnds b b.s) && headed (tFirst s (.ldT {} 1 10 0 0 0) (.copy {})) .ld (fun b =>
        started b.en.mark && bodyEnds b b.s && bodyWaits b (one b) || bodyEnds b (one b)) &&
      headed (tFirst s (.stT {} 1 10 0 0 0) (.copy {})) .st (fun b => started b.en.mark && bodyEnds b b.s) &&
      headed (tFirst (tT false (tCp.setS 6 0x200000) [] []) (.migr {} 0 6 0 0) (.copy {})) .st (fun b => started b.en.mark) &&
      headed (tFirst crock (.badd {} 10 1 0 0 .d) .fresh) .st (fun b => isBank b.en.i && bodyWaits b (lag b)) &&
      (let r := tFirst tMx (.relax {} 0 3 12 .identity 1 2 none none false) .fresh
       met (r.heads 0 .ex) (fun b => (rxForm b.en.i).isSome)) && ((tI 0 .reset).core 0).busy == false) = true := by decide +kernel
theorem witness_EngineEventsRunTheirHead_flight :
    (let en (rets : Map W64) (fails : List (BEl × Stop)) : Entry :=
       { tEntry (.badd {} 10 1 0 0 .d) with mark := .bank [] [] rets fails [] }
     let s (e : Entry) : State := tT true { tBk with eng := { tBk.eng with flight := [e] } } [] []
     let x (e : Entry) (p : Res Fin → Bool) : Bool := ((s e).core 0).busy && ((s e).core 0).halting.isNone && ((s e).core 0).eng.st.isEmpty &&
       e.flown && ((s e).core 0).canSignal .st e.tok && p (bodyOf e.i 0 e (max (((s e).core 0).engAt .st) ((s e).cycOf 0)) (s e))
     x (en [(0, 5)] []) (fun r => match r with
        | .ok f => (f.s.core 0).busy && (f.s.core 0).halting.isNone && (f.s.core 0).eng.st.isEmpty
        | _ => false) &&
      x (en [] [((0, 0x400, 1), ⟨.memUe, .st, 0x400, 0⟩)]) (fun r => match r with | .stop _ _ => true | _ => false) &&
      !(tEntry (.badd {} 10 1 0 0 .d)).flown && !(tEntry (.badd {} 10 1 0 0 .d)).marker && (tEntry (.tlbi {} 1 2 1)).marker &&
      ((tS { tCore with halting := some .swap }).core 0).halting != none) = true := by decide +kernel
theorem witness_EngineEventsRunTheirHead_copies :
    (let s (i : Instr) (m : Mark) : State := tT false { tCp with eng := { tCp.eng with flight := [{ tEntry i with mark := m }] } } [] []
     let x (s : State) (e : Eng) (p : Entry → Bool) : Bool := (s.core 0).busy && (s.core 0).halting.isNone && ((s.core 0).queue e).isEmpty &&
       (match (s.core 0).eng.flight with | [en] => en.eng == e && p en | _ => false)
     let run (s : State) (en : Entry) : Res Fin := bodyOf en.i 0 en (max ((s.core 0).engAt en.eng) (s.cycOf 0)) s
     let home : State := s (.stRmt {} 1 4 5 0 0) (.shipped 32)
     let away : State := { home with lagDeliver := true, cores := home.cores.map (fun k => (k.1, { k.2 with inbox := [(0, [⟨0, [], none, true, true⟩])] })) }
     x (s (.ldT {} 1 10 0 0 0) (.landed [])) .ld (fun en => (s (.ldT {} 1 10 0 0 0) (.landed [])).flagHeld 0 en == false) &&
      x (s (.linkRecv {} 1 13 9 0 0) .await) .ld (fun en => ((s (.linkRecv {} 1 13 9 0 0) .await).recvOf 0 en).isNone) &&
      x home .st (fun en => !(sendsHome 0 en && home.relaxHolds 0 en) && (match run home en with
        | .ok f => (f.s.core 0).busy && (f.s.core 0).halting.isNone && ((f.s.core 0).queue .st).isEmpty | _ => false)) &&
      x away .st (fun en => !(sendsHome 0 en && away.relaxHolds 0 en) && (match run away en with
        | .wait f => (f.s.core 0).busy && (f.s.core 0).halting.isNone && ((f.s.core 0).queue .st).isEmpty | _ => false))) = true := by
  decide +kernel
theorem witness_EngineEventsRunTheirHead_banks :
    (let r : BankReq := ⟨0, 0, 0, 0, 0, 0x20000000400, 0x400, .add, .d, false, 1, 0, none⟩
     let s : State := { tT true (tBusy tBk) [] [] with fifos := [(3, [r])] }
     let s1 := s.upCore 0 (fun k => k.setHead .st { tEntry (.badd {} 10 1 0 0 .d) with mark := .bank [] [(0, 0x400, 1)] [] [] [] })
     (mget [] s.fifos 4).isEmpty && mget [] s1.fifos 3 == [r] && decide (r.agent < 256) && !r.op.cell && r.logged.isNone &&
      (s1.part (s1.partNo 0)).logMode == 0 && !s1.memBad r.pa (bankBytes r.op r.ty) && decide (s1.reserve (dieOf (r.pa / 64 * 64)) < 2 ^ 24) &&
      ((s1.core 0).eng.st.head?.map (·.mark)) == some (.bank [] [(0, 0x400, 1)] [] [] []) &&
      (let e : ChanEl := ⟨0, [(0x2000, 2, 1)], none, true, true⟩
       (deliverEl (tS tCore) 0 e).isSome && (deliverEl (tS { tCore with pad := { tCore.pad with full := [0x10] } }) 0 e).isNone)) = true := by
  decide +kernel
/-- Application core 0 acts for partition 0 under core 0's tables; s is its window besides. -/
def tAc (crock : Bool) (win : List (Nat × W64)) : State :=
  let s := tTables (tT crock Core.reset [] [])
  s.setApp 0 (win.foldl (fun a x => a.setW x.1 x.2) ((AppCore.reset.setW 0 0x8000000000000000#64).setW 0x010 0x100000000))
/-- Segment 0 is held. -/
def tHold (s : State) : State := { s with mem := wr64 s.mem 0x1000000 (rd64 s.mem 0x1000000 ||| 0x4000000000000000#64) }
theorem witness_BankPortPerforms :
    (let s := tAc true [(0x040, 0x400), (0x048, 1)]
     let a := s.appCore 0
     a.valid && a.pending.isEmpty && ([.bpBadd 0 0, .bpBand 0 0, .bpBor 0 1, .bpBxor 0 0, .bpBmin 0 0, .bpBmax 0 1, .bpBminn 0 0, .bpBmaxn 0 0, .bpBfmin 0 2,
       .bpBfmax 0 2, .bpBmaxi 0 0, .bpBxadd 0 2, .bpBxrd 0 2 true, .bpBfaa 0 0, .bpBcas 0 1, .bpBld 0 0, .bpBst 0 0, .bpBhist 0 0, .bpBpfx 0 0,
       .bpBaxpy 0 0] : List Instr).all (fun i => met (bpForm i) (fun f => bankTyOk f.2.1 f.2.2.1 &&
        decide ((a.w 0x040).toNat % bankSize f.2.1 (bankTy f.2.2.1) = 0) && (match scalarEls f.2.1 (a.w 0x040) (a.w 0x048) with
          | [el] => (match acElems (s.acEnv 0) (bankNeed f.2.1 f.2.2.2) [el] s.mem a.tlb [] [] with
            | .ok ([(_, pa)], _, _, _) => (mget [] s.fifos (bankOf pa)).isEmpty && !s.memBad pa (bankBytes f.2.1 (bankTy f.2.2.1)) &&
                decide (s.reserve (dieOf (pa / 64 * 64)) < 2 ^ 24) &&
                (upto (bankBytes f.2.1 (bankTy f.2.2.1))).all (fun j => !(s.acEnv 0).busyByte (pa + j))
            | _ => false)
          | _ => false))) &&
      (let h := tHold s
       let b := h.setApp 0 (a.setW 0x058 busyWord)
       (match acElems (h.acEnv 0) (bankNeed .add false) (scalarEls .add (a.w 0x040) (a.w 0x048)) h.mem a.tlb [] [] with
         | .error .hold => true | _ => false) && (b.appCore 0).busy 0x058 && !a.busy 0x058) &&
      !bankTyOk .fmin 0 && !(State.reset.appCore 0).valid && !s.lagBanks && (s.part a.part).logMode == 0 &&
      decide ((0x404#64).toNat % bankSize .add .d ≠ 0)) = true := by decide +kernel
theorem witness_MailboxesAndManagementBus :
    (let rec' : State := { State.reset with ik := { Ik.reset with boot := .recovery } }
     let n (l : Nat) : Mailbox := { Mailbox.reset with cmd := BitVec.ofNat 64 (l * 65536) }
     (n 48).len == 48 && (n 0).len == 0 && (n 9).len == 9 && (n 4096).len == 4096 && rec'.ik.boot == .recovery && State.reset.ik.boot != .recovery &&
      decide ((rd64 (n 9).buf 0).toNat + ((n 9).len - 8) ≤ 64 * 2 ^ 20)) = true := by decide +kernel
/-- Root port 1 with requester 7 of partition 0, and host queue 2, in the shared tables. -/
def tPort (s : State) (q : W64) : State :=
  { s with ik := { s.ik with shared := [(0x210, 0x8000010000000007#64), (0x218, 0x100000000), (0x620, q), (0x628, q)] } }
/-- A port queue at virtual 0x400 as in `tPortQ`, under the tables of core 0 and application core 0. -/
def tRing (hd tl dir slot0 : Nat) : State :=
  let s := tAc true []
  tPort { s with mem := wrL (wrL s.mem 0x20000000400 (dbl [0x1000, 2 * 2 ^ 16 + 2, hd, tl, 0, dir * 256])) 0x20000001000 (dbl [5, slot0]) } 0x400
theorem witness_PortsOfTheIkilithDie_dma :
    (let s := tPort (tAc false []) 0
     let q := tRing 2 2 0 0
     (s.requester 1 8).isNone && met (s.requester 1 7) (fun r => r.1 == 0 &&
        (match (xlatePieces s.mem r.2 needW (piecesOf 0x40 8) []).1, (xlatePieces s.mem r.2 needR (piecesOf 0x40 8) []).1 with
          | .ok _, .ok l => l.all (fun z => !s.memBad z.1 z.2) | _, _ => false) &&
        (match (xlatePieces s.mem r.2 needW (piecesOf 0x10000000 8) []).1 with | .error _ => true | .ok _ => false)) &&
      met (q.requester 1 7) (fun r => (match q.queueAt r.2 0x400 with
          | .ok (_, d) => !d.bad && !d.dir && decide (8 ≤ d.slot - 64 ∧ (d.tail - d.head).toNat < d.cap % 2 ^ 64) &&
              (match q.slotAt r.2 d d.tail needRW with | .ok _ => true | .error _ => false)
          | .error _ => false) && (match q.deliverTo r.2 0x400 3 [1, 2] with | .ok _ => true | .error _ => false) &&
        (match q.deliverTo r.2 0x404 3 [1, 2] with | .ok _ => false | .error _ => true)) &&
      (let t := tRing 2 3 1 1
       met (t.requester 1 7) (fun r => match t.consume r.2 0x400 with | .ok (some _) => true | _ => false)) &&
      (let t := tRing 3 3 1 1
       met (t.requester 1 7) (fun r => match t.consume r.2 0x400 with | .ok none => true | _ => false)) &&
      (let t := tRing 2 4 0 0
       match t.queueAt (t.acEnv 0) 0x400 with | .ok (_, d) => !decide ((d.tail - d.head).toNat < d.cap % 2 ^ 64) | .error _ => false)) =
    true := by decide +kernel
theorem witness_PortsOfTheIkilithDie_queues :
    (let q := tRing 2 2 0 0
     q.hostQueue 2 0 == some 0x400 && q.hostQueue 2 8 == some 0x400 && (q.hostQueue 3 0).isNone && (q.hostQueue 3 8).isNone &&
      (match q.deliverTo (q.acEnv 0) 0x400 3 [1, 2] with | .ok _ => true | .error _ => false) &&
      (match q.queueAt (q.acEnv 0) 0x400 with | .ok _ => true | .error _ => false) &&
      (let t := tRing 2 3 1 1
       match t.consume (t.acEnv 0) 0x400 with | .ok (some _) => true | _ => false) &&
      (let t := tRing 3 3 1 1
       match t.consume (t.acEnv 0) 0x400 with | .ok none => true | _ => false) &&
      (let s := tAc false []
       !(s.part 0).closing && s.ik.heldWr.isEmpty && (s.chargeAll 0 (1, 0, 0, 0) [5]).isSome && ({ Part.reset with closing := true } : Part).closing)) =
    true := by decide +kernel
theorem witness_PortsOfTheIkilithDie_cores :
    (let s := tAc false [(0x080, 0x40), (0x0C0, 1), (0x0C8, 5)]
     let a := s.appCore 0
     let halted : State := { s with cores := mset s.cores 1 { Core.reset with mode := .halted } }
     a.valid && !(State.reset.appCore 0).valid && (match xlatePieces s.mem (s.acEnv 0) needR (piecesOf 0x40 64) a.tlb with
        | (.ok l, _) => l.all (fun z => !s.memBad z.1 z.2) &&
            (s.part 0).refuse (recordOf 0x40 (l.flatMap (fun z => seenN [] (s.part 0).snap z.1 z.2))) true 0 == 0
        | _ => false) && (match xlatePieces s.mem (s.acEnv 0) needW (piecesOf 0x40 8) a.tlb with | (.ok _, _) => true | _ => false) &&
      decide ((a.w 0x080).toNat % 64 = 0) && s.partNo 1 == 0 && !(s.core 1).mode == .halted && (s.core 1).mode != .parked &&
      (halted.part (halted.appCore 0).part).logMode == 0 && halted.partNo 1 == 0 && (halted.core 1).mode == .halted && (halted.caItem 1 5).isSome && (halted.caItem 1 0xE000000000000000#64).isNone &&
      (halted.caPut 1 5 9).isSome && srPortHas 0x230 && !srPortHas 0x001 && srInfo 0x230 == some (3, 0) && srInfo 0x214 == some (0, 0) &&
      srPortHas 0x214 && (srInfo 0x3FF).isNone && !srPart 0x00A && !srDie 0x00A && srInfo 0x00A != some (0, 0)) = true := by decide +kernel
theorem witness_PortsOfTheIkilithDie_rings :
    (let q := tRing 2 3 1 1
     let e := q.acEnv 0
     let t : State := { q with ik := { q.ik with queues := [(0, 0x400)] } }
     let dark := tPort (tAc false []) 0
     (piecesOf 0x1000 8).all (fun x => q.inRing 0 e x.1) && (piecesOf 0x40 8).all (fun x => !dark.inRing 0 (dark.acEnv 0) x.1) &&
      t.ik.queues.contains (0, 0x400) && met (q.requester 1 7) (fun r => match (xlatePieces q.mem r.2 needW (piecesOf 0x1000 8) []).1 with
        | .ok _ => true | _ => false) && (let h := tHold dark
      met (h.requester 1 7) (fun r => match (xlatePieces h.mem r.2 needR (piecesOf 0x40 8) []).1 with | .error .hold => true | _ => false)) &&
      (match q.queueAt e 0x400, q.headSlot e 0x400 with
        | .ok (_, d), .ok (some _) => !d.bad && d.dir && decide (d.head.toNat < d.tail.toNat) && (match q.slotAt e d d.head needRW with
          | .ok l => !q.memBad (l.headD (0, 0)).1 16 && (rd q.mem ((l.headD (0, 0)).1 + 8)).getLsbD 0 &&
              (payPieces (l.drop 1) (min 5 (d.slot - 64))).all (fun x => !q.memBad x.1 x.2) && (l.drop 1).all (fun x => !q.memBad x.1 x.2) &&
              decide (16 + 8 ≤ ((l.drop 1).flatMap (fun x => rdN q.mem x.1 x.2)).length)
          | _ => false)
        | _, _ => false) &&
      (let r := tRing 3 4 0 0
       match r.queueAt (r.acEnv 0) 0x400 with
       | .ok (_, d) => !d.bad && !d.dir && decide (2 ≤ d.slot - 64 ∧ (d.tail - d.head).toNat < d.cap % 2 ^ 64) &&
           (match r.slotAt (r.acEnv 0) d d.tail needRW with | .ok l => !r.memBad ((l.headD (0, 0)).1 + 8) 1 | _ => false)
       | _ => false) &&
      (let r := tRing 3 4 1 0
       match r.headSlot (r.acEnv 0) 0x400 with | .ok none => true | _ => false)) = true := by decide +kernel
theorem witness_PortsOfTheIkilithDie_waits :
    (let s := tAc false [(0x080, 0x40), (0x0C0, 1), (0x0C8, 0x2000000000000010)]
     let a := s.appCore 0
     let h := tHold s
     let shut := s.upPart 0 (fun pt => { pt with closing := true })
     let w : HeldWr := ⟨0, 1, 0, [(0x40, 1)], [0], true⟩
     let wait := { s with ik := { s.ik with heldWr := [w] } }
     let halted : State := { s with cores := mset s.cores 1 { Core.reset with mode := .halted } }
     let replay : State := { (halted.upPart 0 (fun pt => { ((pt.setSr 0x250 0x600).setSr 0x251 1) with logMode := 2 })) with
       mem := wrL s.mem 0x100600 (dbl [9, 0]) }
     a.valid && !a.busy 0x088 && !a.busy 0x0D8 && (match (xlatePieces h.mem (h.acEnv 0) needR (piecesOf 0x40 64) a.tlb).1 with
        | .error .hold => true | _ => false) && (shut.part 0).closing && wait.ik.heldWr.any (fun w => w.part == 0 && w.kind == 1 && w.no == 0) &&
      ((s.setApp 0 (a.setW 0x088 busyWord)).appCore 0).busy 0x088 && ((s.setApp 0 (a.setW 0x0D8 busyWord)).appCore 0).busy 0x0D8 &&
      (halted.core 1).mode == .halted && halted.partNo 1 == 0 && decide ((halted.part 0).logMode ≤ 1) && (replay.acCyc 0 1).isNone &&
      ((a.w 0x0C8).toNat / 2 ^ 61 == 1) && ((a.w 0x0C8).toNat % 2 ^ 14 == 0x010)) = true := by decide +kernel
/-- Line 5 of die 0 holds every reserve line. -/
def tFull (n : Nat) : State :=
  { tI 0 .reset with parts := [(0, { Part.reset with clusters := [0], charges := [(5, List.replicate n (9, 0, 0, 0))] })] }
theorem tFull_reserve (n : Nat) : (tFull n).reserve 0 = n := by
  have h : (dieOf (5 * 64) = 0) = True := by decide
  simp only [State.reserve, tFull, List.foldl_cons, List.foldl_nil, List.filter_cons, h, decide_true, if_true, List.filter_nil,
    List.length_replicate, Nat.zero_add]
theorem tFull_full (n : Nat) (h : 2 ^ 24 ≤ n) : (tFull n).chargeAll 0 (1, 0, 0, 0) [7] = none ∧ ((tFull n).part 0).closing = false ∧
    (tFull n).ik.heldWr = [] := by
  refine ⟨?_, rfl, rfl⟩
  have e : mget [] ((tFull n).part 0).charges 7 = [] := rfl
  have d : dieOf (7 * 64) = 0 := by decide
  have q : (tFull n).charge 0 7 (1, 0, 0, 0) false = none := by
    simp only [State.charge, e, d, tFull_reserve, Nat.not_lt.mpr h, if_false, ne_eq, not_true_eq_false, and_false, List.contains_nil,
      Bool.false_eq_true, or_self, if_false]
  rw [State.chargeAll, q]
theorem witness_PortsOfTheIkilithDie_full : (tFull (2 ^ 24)).chargeAll 0 (1, 0, 0, 0) [7] = none ∧ ((tFull (2 ^ 24)).part 0).closing = false ∧
    (tFull (2 ^ 24)).ik.heldWr = [] := tFull_full _ (Nat.le_refl _)

end Sys2Proof.Tests
end

section
/-!
PROOFS. MOVRS (O27): a stop of decoding is raised before any wait, and a body that has no cause to wait writes its register.
-/

namespace Sys2Proof.Machine
open Sys2Proof

/-- A cause of decoding is raised by a live core before any wait (R60), unless the instruction waits for its handles (R22). -/
theorem feRun_decodeStop {i : Instr} {body : Nat → State → Res State} {s : State} {x : Stop} (hl : (s.core s.cur).live = true)
    (hw : (s.core s.cur).decodeWaits i = false) (hx : (s.core s.cur).decodeStop i 0 = some x) :
    feRun i body s = .next (raise s.cur x s) := by
  have hs : (s.core s.cur).feStop i = some x := by rw [Core.feStop, hx]; rfl
  simp only [feRun, feRunK, hl, hw, hs, Bool.not_true, Bool.or_false, Bool.false_eq_true, if_false]
/-- An FE instruction that starts has no cause of decoding. -/
theorem decodeStop_of_feBegins {s : State} {i : Instr} {b : Core × Nat} (h : s.feBegins i = some b) :
    (s.core s.cur).decodeStop i 0 = none := by
  unfold State.feBegins at h
  simp only [] at h
  split at h
  · rename_i hl
    simp only [Bool.and_eq_true, Option.isNone_iff_eq_none, Core.feStop, Option.orElse_eq_or, Option.or_eq_none_iff] at hl
    exact hl.2.1
  · cases h
/-- MOVRS finds its register unwritable exactly when no rule assigns its number or every field is read-only (R60, R116). -/
theorem srIllegal_movrs {tok : Tok} {d : Sreg} {n : BitVec 14} :
    srIllegal (.movrs tok d n) = true ↔ (srInfo n.toNat = none ∨ srInfo n.toNat = some (0, 0)) := by
  cases h : srInfo n.toNat with
  | none => simp [srIllegal, h]
  | some i => simp [srIllegal, h]
/-- MOVRS of an unwritable register that the unit may name raises ILLEGAL. -/
theorem movrs_illegal {s : State} {tok : Tok} {d : Sreg} {n : BitVec 14} (hl : (s.core s.cur).live = true)
    (hp : n.toNat < 0x200 ∨ (s.core s.cur).isPriv = true) (hi : srIllegal (.movrs tok d n) = true) :
    exec (.movrs tok d n) s = .next (raise s.cur ⟨.illegal, .fe, 0, 0⟩ s) := by
  have hpriv : ¬(privileged (.movrs tok d n) = true ∧ (!(s.core s.cur).isPriv) = true) := by
    rcases hp with h | h
    · simp [privileged, h]
    · simp [h]
  exact feRun_decodeStop hl rfl (by rw [Core.decodeStop, if_neg hpriv, if_pos hi]; rfl)
/-- The register of a MOVRS that starts has a field to write. -/
theorem srInfo_of_movrs_begins {s : State} {tok : Tok} {d : Sreg} {n : BitVec 14} {b : Core × Nat}
    (h : s.feBegins (.movrs tok d n) = some b) : ∃ i, srInfo n.toNat = some i ∧ i ≠ (0, 0) := by
  have hd := decodeStop_of_feBegins h
  have hi : ¬srIllegal (.movrs tok d n) = true := by
    intro hi
    rw [Core.decodeStop, if_pos hi] at hd
    split at hd <;> cases hd
  rw [srIllegal_movrs, not_or] at hi
  obtain ⟨i, e⟩ := Option.ne_none_iff_exists'.mp hi.1
  exact ⟨i, e, fun h => hi.2 (by rw [e, h])⟩
/-- A MOVRS that starts and whose register the engines hold waits at its address (R116). -/
theorem movrs_waits {s : State} {tok : Tok} {d : Sreg} {n : BitVec 14} {k : Core} {t : Nat}
    (h : s.feBegins (.movrs tok d n) = some (k, t)) (hh : k.srHolds n.toNat = true) :
    exec (.movrs tok d n) s = .next (s.feWaits k) := by
  have hb : movrsBody d n.toNat t (s.setCore s.cur k) = .wait (s.setCore s.cur k) := by simp [movrsBody, hh]
  exact (feRun_wait h hb).trans (by rw [upCore_setCore, State.feWaits])
/-- A MOVRS that starts and does not wait writes its register and completes one cycle later (R116). -/
theorem movrs_writes {s : State} {tok : Tok} {d : Sreg} {n : BitVec 14} {k : Core} {t : Nat} {i : W64 × W64}
    (h : s.feBegins (.movrs tok d n) = some (k, t)) (hi : srInfo n.toNat = some i) (hh : k.srHolds n.toNat = false) :
    exec (.movrs tok d n) s =
      .next (((s.setCore s.cur k).writeSr s.cur n.toNat i (k.getS d)).upCore s.cur (fun q => q.feDone tok (t + 1))) := by
  have hb : movrsBody d n.toNat t (s.setCore s.cur k) = .ok ((s.setCore s.cur k).writeSr s.cur n.toNat i (k.getS d)) := by
    simp [movrsBody, hh, hi]
  exact feRun_ok h hb
/-- A MOVRS of a register of the core alone leaves the rest of its core as it finds it. -/
theorem movrs_writes_core {s : State} {tok : Tok} {d : Sreg} {n : BitVec 14} {k : Core} {t m : Nat} {i : W64 × W64}
    (h : s.feBegins (.movrs tok d n) = some (k, t)) (hn : n.toNat = m) (hi : srInfo m = some i) (hh : k.srHolds m = false)
    (hp : srPart m = false) (hd : srDie m = false) :
    exec (.movrs tok d n) s = .next (s.setCore s.cur ((k.setSr m (srWrite i (k.getSr m) (k.getS d))).feDone tok (t + 1))) := by
  subst hn
  rw [movrs_writes h hi hh]
  simp [State.writeSr, hp, hd]

/-! ### What a write stores -/

/-- A register of W1C bits alone loses those that are written with 1 (R7). -/
theorem srWrite_w1c (c old v : W64) : srWrite (0, c) old v = old &&& ~~~(v &&& c) := by
  simp only [srWrite, BitVec.ofNat_eq_ofNat, BitVec.not_zero, BitVec.and_allOnes, BitVec.and_zero, BitVec.or_zero]
/-- A register of RW bits whose other bits stand at 0 takes the RW bits of the value (R7). -/
theorem srWrite_rw {m old : W64} (v : W64) (h : old &&& ~~~m = 0#64) : srWrite (m, 0) old v = v &&& m := by
  simp only [srWrite, h, BitVec.ofNat_eq_ofNat, BitVec.and_zero, BitVec.not_zero, BitVec.zero_or, BitVec.and_allOnes]

/-- A MOVRS of a register of the core alone whose bits outside its RW field stand at 0 stores the RW field. -/
theorem movrs_writes_rw {s : State} {tok : Tok} {d : Sreg} {n : BitVec 14} {k : Core} {t m : Nat} {r : W64}
    (h : s.feBegins (.movrs tok d n) = some (k, t)) (hn : n.toNat = m) (hi : srInfo m = some (r, 0)) (hh : k.srHolds m = false)
    (hp : srPart m = false) (hd : srDie m = false) (h0 : k.getSr m &&& ~~~r = 0#64) :
    exec (.movrs tok d n) s = .next (s.setCore s.cur ((k.setSr m (k.getS d &&& r)).feDone tok (t + 1))) := by
  rw [movrs_writes_core h hn hi hh hp hd, srWrite_rw _ h0]

/-- Settles O27: decoding raises ILLEGAL by `movrs_illegal`; a MOVRS that starts waits or writes by `movrs_waits` and
`movrs_writes`, and what is stored is `srWrite` of the register's RW and W1C bits. -/
theorem specialRegistersAreWritten : Obligations.SpecialRegistersAreWritten := by
  unfold Obligations.SpecialRegistersAreWritten
  intro s tok d n
  refine ⟨fun hl hp hi => movrs_illegal hl hp (srIllegal_movrs.mpr hi), fun k t h => ⟨?_, ?_, ?_, ?_, ?_⟩,
    fun k m w => ⟨getSr_setSr_same k m w, fun j hj => getSr_setSr_ne k w hj⟩⟩
  · obtain ⟨i, hi, h0⟩ := srInfo_of_movrs_begins h
    exact ⟨i, hi, h0, movrs_waits h, movrs_writes h hi⟩
  · intro hn
    rw [movrs_writes_core h hn (i := (0, statW1c)) rfl rfl rfl rfl, srWrite_w1c]
    rfl
  · exact fun h0 hn => movrs_writes_rw h hn rfl rfl rfl rfl (by simpa using h0)
  · exact fun h0 hn => movrs_writes_rw h hn rfl rfl rfl rfl h0
  · exact fun h0 hn => movrs_writes_rw h hn rfl rfl rfl rfl h0

end Sys2Proof.Machine
end

section
/-!
PROOFS. The Ikilith die's state: what its updates leave unchanged, and fields of its registers (R398, R421).
-/

namespace Sys2Proof.Machine
open Sys2Proof

/-! ### Small lists and fields -/

theorem upto_eq_range (n : Nat) : upto n = List.range n := by
  induction n with
  | zero => rfl
  | succ n ih => rw [upto, ih, List.range_succ]
/-- A field from bit 0 on is a remainder. -/
theorem bits_low (v : W64) (hi : Nat) : bits v hi 0 = v.toNat % 2 ^ (hi + 1) := by simp [bits]
/-- A field up to bit 63 is a quotient. -/
theorem bits_high (v : W64) (lo : Nat) (h : lo ≤ 64) : bits v 63 lo = v.toNat / 2 ^ lo := by
  refine Nat.mod_eq_of_lt (Nat.div_lt_of_lt_mul ?_)
  rw [← pow_add, Nat.add_sub_cancel' h]
  exact v.isLt
/-- What every step of a fold keeps, the fold keeps. -/
theorem foldl_keeps {α β γ : Type} {f : α → β → α} {g : α → γ} (h : ∀ a b, g (f a b) = g a) (l : List β) (a : α) :
    g (l.foldl f a) = g a := by
  induction l generalizing a with
  | nil => rfl
  | cons b t ih => rw [List.foldl_cons, ih, h]

/-! ### Corrections of memory words (R421) -/

/-- What a correction counts in lies in a cluster or a die. -/
theorem countCe_frame (s : State) (w : ProtWord) :
    (s.countCe w).parts = s.parts ∧ (s.countCe w).mem = s.mem ∧ (s.countCe w).ik = s.ik := by
  unfold State.countCe
  split <;> exact ⟨rfl, rfl, rfl⟩
theorem correct_frame (s : State) (p : ProtWord → Bool) :
    (s.correct p).parts = s.parts ∧ (s.correct p).mem = s.mem ∧ (s.correct p).ik = s.ik := by
  unfold State.correct
  split
  · exact ⟨rfl, rfl, rfl⟩
  · exact ⟨foldl_keeps (g := State.parts) (fun a b => (countCe_frame a b).1) _ _,
      foldl_keeps (g := State.mem) (fun a b => (countCe_frame a b).2.1) _ _,
      foldl_keeps (g := State.ik) (fun a b => (countCe_frame a b).2.2) _ _⟩
theorem corrAll_frame (s : State) (l : List (Nat × Nat)) :
    (s.corrAll l).parts = s.parts ∧ (s.corrAll l).mem = s.mem ∧ (s.corrAll l).ik = s.ik := by
  unfold State.corrAll
  split
  · exact ⟨rfl, rfl, rfl⟩
  · exact ⟨foldl_keeps (g := State.parts) (fun a b => (correct_frame a _).1) _ _,
      foldl_keeps (g := State.mem) (fun a b => (correct_frame a _).2.1) _ _,
      foldl_keeps (g := State.ik) (fun a b => (correct_frame a _).2.2) _ _⟩
@[simp] theorem corrAll_parts (s : State) (l : List (Nat × Nat)) : (s.corrAll l).parts = s.parts := (corrAll_frame s l).1
@[simp] theorem corrAll_mem (s : State) (l : List (Nat × Nat)) : (s.corrAll l).mem = s.mem := (corrAll_frame s l).2.1
@[simp] theorem corrAll_ik (s : State) (l : List (Nat × Nat)) : (s.corrAll l).ik = s.ik := (corrAll_frame s l).2.2
@[simp] theorem part_corrAll (s : State) (l : List (Nat × Nat)) (p : Nat) : (s.corrAll l).part p = s.part p := by
  simp [State.part]
@[simp] theorem appCore_corrAll (s : State) (l : List (Nat × Nat)) (i : Nat) : (s.corrAll l).appCore i = s.appCore i := by
  simp [State.appCore]

/-! ### The windows of the application cores -/

@[simp] theorem setApp_parts (s : State) (i : Nat) (a : AppCore) : (s.setApp i a).parts = s.parts := rfl
@[simp] theorem setApp_mem (s : State) (i : Nat) (a : AppCore) : (s.setApp i a).mem = s.mem := rfl
@[simp] theorem part_setApp (s : State) (i p : Nat) (a : AppCore) : (s.setApp i a).part p = s.part p := rfl
@[simp] theorem core_setApp (s : State) (i c : Nat) (a : AppCore) : (s.setApp i a).core c = s.core c := rfl
@[simp] theorem memBad_setApp (s : State) (i pa n : Nat) (a : AppCore) : (s.setApp i a).memBad pa n = s.memBad pa n := rfl
@[simp] theorem appCore_setApp (s : State) (i : Nat) (a : AppCore) : (s.setApp i a).appCore i = a := mget_mset_same _ _ _ _
@[simp] theorem appCore_setPart (s : State) (p i : Nat) (x : Part) : (s.setPart p x).appCore i = s.appCore i := rfl
@[simp] theorem appCore_upPart (s : State) (p i : Nat) (f : Part → Part) : (s.upPart p f).appCore i = s.appCore i := rfl
@[simp] theorem setApp_setApp (s : State) (i : Nat) (a b : AppCore) : (s.setApp i a).setApp i b = s.setApp i b := by
  simp [State.setApp]
@[simp] theorem w_setW_same (a : AppCore) (off : Nat) (v : W64) : (a.setW off v).w off = v := mget_mput_same _ _ _ _
theorem w_setW_ne (a : AppCore) {off x : Nat} (v : W64) (h : x ≠ off) : (a.setW off v).w x = a.w x := mget_mput_ne _ _ _ h
/-- BUSY set by itself reads as BUSY. -/
@[simp] theorem busy_setW_busyWord (a : AppCore) (off : Nat) : (a.setW off busyWord).busy off = true := by
  rw [AppCore.busy, w_setW_same]; decide

/-! ### Translated pieces of an access -/

/-- Translating pieces keeps their counts. -/
theorem xlatePieces_counts {m : Mem} {e : Env} {need : Need} {ps : List (W64 × Nat)} {t : Tlb} {l : List (Nat × Nat)}
    (h : (xlatePieces m e need ps t).1 = .ok l) : l.map (·.2) = ps.map (·.2) := by
  induction ps generalizing t l with
  | nil => cases h; rfl
  | cons q ps ih =>
    obtain ⟨va, k⟩ := q
    rw [xlatePieces] at h
    split at h
    · cases h
    · cases h
    · simp only [] at h
      split at h
      · rename_i l' hl
        cases h
        simp [ih hl]
      · cases h
/-- Bytes that are there meet a line. -/
theorem piecesOf_ne_nil (va : W64) {n : Nat} (h : n ≠ 0) : piecesOf va n ≠ [] := by
  simp [piecesOf, linePieces, h]
/-- No uncorrectable word lies under the pieces (R420). -/
theorem piecesBad_none {s : State} {l : List (Nat × Nat)} (va : W64) (h : ∀ q ∈ l, s.memBad q.1 q.2 = false) :
    s.piecesBad va l = none := by
  have : l.any (fun p => s.memBad p.1 p.2) = false := by simpa using h
  simp [State.piecesBad, this]

end Sys2Proof.Machine
end

section
/-!
PROOFS. DMA, port queues and host queues (O60: R191, R394, R395, R407).
-/

namespace Sys2Proof.Machine
open Sys2Proof

/-! ### DMA (R394) -/

theorem zip_upto_eq_take_zipIdx (pa k : Nat) (bs : List Byte) :
    ((upto k).zip bs).map (fun p => (pa + p.1, p.2)) = ((bs.take k).zipIdx).map (fun b => (pa + b.2, b.1)) := by
  rw [upto_eq_range]
  apply List.ext_getElem
  · simp
  · intro i h1 h2
    simp
/-- The bytes of a store, cut at its pieces, lie at the pieces' physical addresses. -/
theorem flatMap_cutBytes {ps : List (W64 × Nat)} {l : List (Nat × Nat)} (bs : List Byte) (h : l.map (·.2) = ps.map (·.2)) :
    (l.zip (cutBytes ps bs)).flatMap (fun x => (x.2.zipIdx).map (fun b => (x.1.1 + b.2, b.1))) = placeBytes l bs := by
  induction l generalizing ps bs with
  | nil => rfl
  | cons q l ih =>
    obtain ⟨pa, k⟩ := q
    cases ps with
    | nil => cases h
    | cons p ps =>
      obtain ⟨va, k'⟩ := p
      simp only [List.map_cons, List.cons.injEq] at h
      obtain ⟨rfl, h⟩ := h
      rw [cutBytes, List.zip_cons_cons, List.flatMap_cons, ih _ h, placeBytes, zip_upto_eq_take_zipIdx]
theorem cutBytes_length (ps : List (W64 × Nat)) (bs : List Byte) : (cutBytes ps bs).length = ps.length := by
  induction ps generalizing bs with
  | nil => rfl
  | cons p ps ih => simp [cutBytes, ih]

section
variable {s : State} {p : Nat} {e : Env} {va : W64} {l : List (Nat × Nat)} {bs : List Byte} {ring : Bool}

/-- Where every piece lies on one side, that side has all of them. -/
theorem dmaPart_all (hc : l.map (·.2) = (piecesOf va bs.length).map (·.2))
    (h : ∀ q ∈ piecesOf va bs.length, s.inRing p e q.1 = ring) :
    s.dmaPart p e ring va l bs = (l.zip (cutBytes (piecesOf va bs.length) bs)).map (fun x => (x.1.1, x.2)) := by
  have hlen : l.length ≤ (piecesOf va bs.length).length := by simpa using (congrArg List.length hc).le
  have hl : l = ((piecesOf va bs.length).zip l).map Prod.snd := (List.map_snd_zip hlen).symm
  conv => rhs; rw [hl, List.zip_map_left, List.map_map]
  rw [State.dmaPart, ← List.filterMap_eq_map]
  refine List.filterMap_congr (fun x hx => ?_)
  rw [if_pos (h _ (List.of_mem_zip (List.of_mem_zip hx).1).1)]
  rfl
/-- Where every piece lies on one side, the other side has none. -/
theorem dmaPart_none (h : ∀ q ∈ piecesOf va bs.length, s.inRing p e q.1 = !ring) : s.dmaPart p e ring va l bs = [] := by
  refine List.filterMap_eq_nil_iff.mpr (fun x hx => if_neg ?_)
  rw [h _ (List.of_mem_zip (List.of_mem_zip hx).1).1]
  cases ring <;> decide
end

section
variable {s : State} {port : Nat} {rid : BitVec 16} {va : W64} {tag : BitVec 32} {bs : List Byte} {n p : Nat} {e : Env}
  {l : List (Nat × Nat)}

/-- A DMA write that lies outside the rings joins the root port's pending set. -/
theorem dmaWrite_plain (hr : s.requester port rid = some (p, e))
    (hx : (xlatePieces s.mem e needW (piecesOf va bs.length) []).1 = .ok l) (hb : bs ≠ [])
    (h : ∀ q ∈ piecesOf va bs.length, s.inRing p e q.1 = false) :
    execDmaWrite port rid va bs s =
      .next (s.plainStore p 2 port (pieceSegs s.mem e needW (piecesOf va bs.length) []) (placeBytes l bs)) := by
  have hc := xlatePieces_counts hx
  have hne : (l.zip (cutBytes (piecesOf va bs.length) bs)).map (fun x => (x.1.1, x.2)) ≠ [] := by
    have hp : piecesOf va bs.length ≠ [] := piecesOf_ne_nil va (by simpa using hb)
    have hl : l.length = (piecesOf va bs.length).length := by simpa using congrArg List.length hc
    rw [← List.length_pos_iff] at hp ⊢
    simpa [cutBytes_length, hl] using hp
  unfold execDmaWrite
  simp only [hr, hx, dmaPart_all hc h, dmaPart_none (ring := true) h, if_neg hne, List.foldl_nil, List.flatMap_map,
    flatMap_cutBytes bs hc]
/-- A DMA write that lies in the rings is made at memory. -/
theorem dmaWrite_ring (hr : s.requester port rid = some (p, e))
    (hx : (xlatePieces s.mem e needW (piecesOf va bs.length) []).1 = .ok l)
    (h : ∀ q ∈ piecesOf va bs.length, s.inRing p e q.1 = true) :
    execDmaWrite port rid va bs s =
      .next ((l.zip (cutBytes (piecesOf va bs.length) bs)).foldl (fun u x => u.writeMem x.1.1 x.2) s) := by
  unfold execDmaWrite
  simp only [hr, hx, dmaPart_all (xlatePieces_counts hx) h, dmaPart_none (ring := false) h, if_true, List.foldl_map]
theorem dmaWrite_fault {x : Missed} (hr : s.requester port rid = some (p, e))
    (hx : (xlatePieces s.mem e needW (piecesOf va bs.length) []).1 = .error x) :
    execDmaWrite port rid va bs s = .next (s.dmaFault p x) := by
  simp only [execDmaWrite, hr, hx]
/-- A DMA read returns the snapshot's bytes, or memory's in a ring. -/
theorem dmaRead_ok (hr : s.requester port rid = some (p, e)) (hx : (xlatePieces s.mem e needR (piecesOf va n) []).1 = .ok l)
    (hb : ∀ q ∈ l, s.memBad q.1 q.2 = false) :
    execDmaRead port rid va n s = .next ((s.corrAll l).setDma (some (s.dmaBytes p e va n l))) := by
  simp only [execDmaRead, hr, hx, piecesBad_none va hb]
theorem dmaRead_hold (hr : s.requester port rid = some (p, e)) (hx : (xlatePieces s.mem e needR (piecesOf va n) []).1 = .error .hold) :
    execDmaRead port rid va n s = .next s := by
  simp only [execDmaRead, hr, hx]
theorem cardDeliver_ok {t : State} (hr : s.requester port rid = some (p, e)) (hd : s.deliverTo e va tag bs = .ok t) :
    execCardDeliver port rid va tag bs s = .next (t.serves p va) := by
  simp only [execCardDeliver, hr, hd]
theorem cardDeliver_fault {x : Missed} (hr : s.requester port rid = some (p, e)) (hd : s.deliverTo e va tag bs = .error x) :
    execCardDeliver port rid va tag bs s = .next (s.dmaFault p x) := by
  simp only [execCardDeliver, hr, hd]
/-- A full entry of a transmit queue leaves by its port (R395). -/
theorem portTransmit_full {tg : BitVec 32} {pay : List Byte} {t : State} (hr : s.requester port rid = some (p, e))
    (hc : s.consume e va = .ok (some (tg, pay, t))) : execPortTransmit port rid va s =
      .next (State.serves { t with ik := { t.ik with cards := t.ik.cards ++ [(port, tg, pay)] } } p va) := by
  simp only [execPortTransmit, hr, hc]
theorem portTransmit_empty (hr : s.requester port rid = some (p, e)) (hc : s.consume e va = .ok none) :
    execPortTransmit port rid va s = .next (s.serves p va) := by
  simp only [execPortTransmit, hr, hc]
/-- An access of a requester that the table does not name has no effect; a read returns none (R394). -/
theorem requester_none (h : s.requester port rid = none) :
    execDmaWrite port rid va bs s = .next s ∧ execDmaRead port rid va n s = .next (s.setDma none) ∧
    execCardDeliver port rid va tag bs s = .next s ∧ execPortTransmit port rid va s = .next s := by
  simp only [execDmaWrite, execDmaRead, execCardDeliver, execPortTransmit, h, and_self]
end

/-- An address lies in a ring: of a queue that a root port has served, or of one of the 128 queues of the host (log entry 109). -/
theorem inRing_iff (s : State) (p : Nat) (e : Env) (va : W64) : s.inRing p e va = true ↔
    (∃ q ∈ s.ik.queues, q.1 = p ∧ (s.ringOf e q.2).1 ≤ va.toNat ∧ va.toNat < (s.ringOf e q.2).1 + (s.ringOf e q.2).2) ∨
    ((s.appCore 0).part = p ∧ ∃ j < 128, let q := s.table (0x600 + 8 * j)
      q ≠ 0 ∧ (s.ringOf (s.acEnv 0) q).1 ≤ va.toNat ∧ va.toNat < (s.ringOf (s.acEnv 0) q).1 + (s.ringOf (s.acEnv 0) q).2) := by
  simp only [State.inRing, upto_eq_range, Bool.or_eq_true, Bool.and_eq_true, List.any_eq_true, List.mem_range, beq_iff_eq,
    decide_eq_true_eq]

/-! ### Port queues (R191, R395) -/

section
variable {s : State} {e : Env} {va : W64} {tag : BitVec 32} {bs : List Byte} {pa : Nat} {d : PortQ} {l : List (Nat × Nat)}

/-- A packet that the queue takes: the queue is a receive queue in order, has room, and the packet fits its slots. -/
def PortQ.takes (d : PortQ) (n : Nat) : Prop :=
  d.bad = false ∧ d.dir = false ∧ n ≤ d.slot - 64 ∧ (d.tail - d.head).toNat < d.cap % 2 ^ 64
theorem not_takes_iff (d : PortQ) (n : Nat) :
    (d.bad ∨ d.dir ∨ d.slot - 64 < n ∨ !(d.tail - d.head).ult (BitVec.ofNat 64 d.cap)) ↔ ¬d.takes n := by
  simp only [PortQ.takes, BitVec.ult, BitVec.toNat_ofNat, Bool.not_eq_true', decide_eq_false_iff_not, not_and_or, Bool.not_eq_false,
    Nat.not_le]
/-- A packet that the queue does not take counts as a drop. -/
theorem deliverTo_drop (hq : s.queueAt e va = .ok (pa, d)) (h : ¬d.takes bs.length) :
    s.deliverTo e va tag bs = .ok (s.qDrop pa d) := by
  simp only [State.deliverTo, hq, if_pos ((not_takes_iff d bs.length).mpr h)]
/-- A packet that the queue takes fills the slot at TAIL, or counts as a drop while that slot is full. -/
theorem deliverTo_slot (hq : s.queueAt e va = .ok (pa, d)) (h : d.takes bs.length) (hs : s.slotAt e d d.tail needRW = .ok l)
    (hb : s.memBad ((l.headD (0, 0)).1 + 8) 1 = false) :
    let at' := (l.headD (0, 0)).1 + 8
    let t := s.corrMem at' 1
    s.deliverTo e va tag bs = .ok (if (rd s.mem at').getLsbD 0 then t.qDrop pa d else
      ((t.ringWrite (l.drop 1) bs).ringWrite (l.take 1) (toLE 4 bs.length ++ toLE 4 tag.toNat ++ [1])).writeMem (pa + 0x18)
        (toLE 8 (d.tail + 1).toNat)) := by
  intro at' t
  simp only [State.deliverTo, hq, if_neg (mt (not_takes_iff d bs.length).mp (not_not_intro h)), hs, hb, Bool.false_eq_true, if_false]
  split <;> rfl

variable (hq : s.queueAt e va = .ok (pa, d)) (h1 : d.bad = false) (h2 : d.dir = true) (h3 : d.head.toNat < d.tail.toNat)
  (hs : s.slotAt e d d.head needRW = .ok l) (hb : s.memBad (l.headD (0, 0)).1 16 = false)
include hq h1 h2 h3 hs hb

/-- The entry at HEAD of a transmit queue that holds one: none while it is not full. -/
theorem headSlot_eq :
    let h := (l.headD (0, 0)).1
    s.headSlot e va = .ok (if !(rd s.mem (h + 8)).getLsbD 0 then none
      else some (pa, d, l, leNat (rdN s.mem h 4), BitVec.ofNat 32 (leNat (rdN s.mem (h + 4) 4)))) := by
  have hn : ¬(d.bad ∨ !d.dir ∨ !d.head.ult d.tail) := by simp [h1, h2, BitVec.ult, h3]
  have hp : s.piecesBad (d.slotVa d.head) [((l.headD (0, 0)).1, 16)] = none := piecesBad_none _ (by simpa using hb)
  intro h
  simp only [State.headSlot, hq, if_neg hn, hs, hp]
  split <;> rfl
theorem consume_none (hf : (rd s.mem ((l.headD (0, 0)).1 + 8)).getLsbD 0 = false) : s.consume e va = .ok none := by
  simp only [State.consume, headSlot_eq hq h1 h2 h3 hs hb, hf, Bool.not_false, if_true]
/-- A full entry leaves: its payload is read, its flag cleared and HEAD moves on. -/
theorem consume_full (hf : (rd s.mem ((l.headD (0, 0)).1 + 8)).getLsbD 0 = true) :
    let h := (l.headD (0, 0)).1
    let pay := payPieces (l.drop 1) (min (leNat (rdN s.mem h 4)) (d.slot - 64))
    (∀ q ∈ pay, s.memBad q.1 q.2 = false) → s.consume e va = .ok (some (BitVec.ofNat 32 (leNat (rdN s.mem (h + 4) 4)),
      pay.flatMap (fun q => rdN s.mem q.1 q.2), ((s.corrAll ((h, 16) :: pay)).writeMem (h + 8) [rd s.mem (h + 8) &&& 0xFE]).writeMem
        (pa + 0x10) (toLE 8 (d.head + 1).toNat))) := by
  intro h pay hp
  simp only [State.consume, headSlot_eq hq h1 h2 h3 hs hb, hf, Bool.not_true, Bool.false_eq_true, if_false]
  rw [piecesBad_none _ hp]
end

/-! ### Plain stores of agents other than cores (R276, R285, R288) -/

/-- Charging a line changes the partition's charges and nothing else. -/
theorem charge_eq {s t : State} {p line : Nat} {agent : AgentKey} {perform : Bool} (h : s.charge p line agent perform = some t) :
    t = s ∨ ∃ c, t = s.setPart p { s.part p with charges := c } := by
  unfold State.charge at h
  simp only [] at h
  split at h
  · exact .inl (Option.some.inj h).symm
  · split at h
    · exact .inr ⟨_, (Option.some.inj h).symm⟩
    · cases h
theorem chargeAll_eq {s t : State} {p : Nat} {agent : AgentKey} {ls : List Nat} (h : s.chargeAll p agent ls = some t) :
    t = s ∨ ∃ c, t = s.setPart p { s.part p with charges := c } := by
  induction ls generalizing s with
  | nil => exact .inl (Option.some.inj h).symm
  | cons x ls ih =>
    rw [State.chargeAll] at h
    split at h
    · cases h
    · rename_i u hu
      rcases charge_eq hu with rfl | ⟨c, rfl⟩
      · exact ih h
      · rcases ih h with rfl | ⟨c', rfl⟩
        · exact .inr ⟨c, rfl⟩
        · exact .inr ⟨c', by simp⟩
/-- Charging leaves memory and the pending sets. -/
theorem chargeAll_frame {s t : State} {p : Nat} {agent : AgentKey} {ls : List Nat} (h : s.chargeAll p agent ls = some t) :
    t.mem = s.mem ∧ (t.part p).acPend = (s.part p).acPend ∧ (t.part p).portPend = (s.part p).portPend := by
  rcases chargeAll_eq h with rfl | ⟨c, rfl⟩
  · exact ⟨rfl, rfl, rfl⟩
  · simp

theorem holds_iff (s : State) (p kind no : Nat) :
    s.holds p kind no = true ↔ ∃ w ∈ s.ik.heldWr, w.part = p ∧ w.kind = kind ∧ w.no = no := by
  simp [State.holds, and_assoc]
theorem acPend_plainLand (pt : Part) (no : Nat) (bs : List (Nat × Byte)) :
    mget [] (pt.plainLand 1 no bs).acPend no = pendAll (mget [] pt.acPend no) bs := by simp [Part.plainLand]
theorem portPend_plainLand (pt : Part) (no : Nat) (bs : List (Nat × Byte)) :
    mget [] (pt.plainLand 2 no bs).portPend no = pendAll (mget [] pt.portPend no) bs := by simp [Part.plainLand]

section
variable {s : State} {p kind no : Nat} {segs : List Nat} {bs : List (Nat × Byte)}

/-- The write of an agent waits: the phase closes, or an older write of the agent waits (R278, R285). -/
def State.mustWait (s : State) (p kind no : Nat) : Prop :=
  (s.part p).closing = true ∨ ∃ w ∈ s.ik.heldWr, w.part = p ∧ w.kind = kind ∧ w.no = no
theorem mustWait_iff : s.mustWait p kind no ↔ (s.part p).closing = true ∨ s.holds p kind no = true := by
  rw [State.mustWait, holds_iff]
theorem plainStore_waits (h : s.mustWait p kind no) :
    s.plainStore p kind no segs bs = { s with mem := enterAll s.mem (s.penv p true) segs }.holdWrite ⟨p, kind, no, bs, segs, false⟩ := by
  simp only [State.plainStore, if_pos (mustWait_iff.mp h)]
theorem plainStore_full (h : ¬s.mustWait p kind no) (hc : s.chargeAll p (kind, no, 0, 0) (byteLines bs) = none) :
    s.plainStore p kind no segs bs =
      ({ s with mem := enterAll s.mem (s.penv p true) segs }.holdWrite ⟨p, kind, no, bs, segs, true⟩).irq 2 := by
  simp only [State.plainStore, if_neg (mt mustWait_iff.mpr h), hc]
theorem plainStore_lands {t : State} (h : ¬s.mustWait p kind no) (hc : s.chargeAll p (kind, no, 0, 0) (byteLines bs) = some t) :
    s.plainStore p kind no segs bs = t.upPart p (fun pt => pt.plainLand kind no bs) := by
  simp only [State.plainStore, if_neg (mt mustWait_iff.mpr h), hc]
theorem heldWrite_waits {told : Bool} (h : s.mustWait p kind no) :
    s.heldWrite ⟨p, kind, no, bs, segs, told⟩ = s.holdWrite ⟨p, kind, no, bs, segs, told⟩ := by
  have h' := mustWait_iff.mp h
  rw [← Bool.or_eq_true] at h'
  simp only [State.heldWrite, if_pos h']
theorem heldWrite_full {told : Bool} (h : ¬s.mustWait p kind no) (hc : s.chargeAll p (kind, no, 0, 0) (byteLines bs) = none) :
    s.heldWrite ⟨p, kind, no, bs, segs, told⟩ =
      if told then s.holdWrite ⟨p, kind, no, bs, segs, true⟩ else (s.holdWrite ⟨p, kind, no, bs, segs, true⟩).irq 2 := by
  have h' := mt mustWait_iff.mpr h
  rw [← Bool.or_eq_true] at h'
  simp only [State.heldWrite, if_neg h', hc]
theorem heldWrite_lands {told : Bool} {t : State} (h : ¬s.mustWait p kind no)
    (hc : s.chargeAll p (kind, no, 0, 0) (byteLines bs) = some t) :
    s.heldWrite ⟨p, kind, no, bs, segs, told⟩ =
      { t with mem := leaveAll t.mem (s.penv p true) segs }.upPart p (fun pt => pt.plainLand kind no bs) := by
  have h' := mt mustWait_iff.mpr h
  rw [← Bool.or_eq_true] at h'
  simp only [State.heldWrite, if_neg h', hc]
/-- What lands joins the pending set of an application core (kind 1) or a root port (kind 2). -/
theorem landed_pend {t u : State} (hc : s.chargeAll p (kind, no, 0, 0) (byteLines bs) = some t) (hu : u.part p = t.part p) :
    let u' := u.upPart p (fun pt => pt.plainLand kind no bs)
    (kind = 1 → mget [] (u'.part p).acPend no = pendAll (mget [] (s.part p).acPend no) bs) ∧
    (kind = 2 → mget [] (u'.part p).portPend no = pendAll (mget [] (s.part p).portPend no) bs) := by
  obtain ⟨-, ha, hp⟩ := chargeAll_frame hc
  simp only [part_upPart_same, hu]
  constructor
  · rintro rfl; rw [acPend_plainLand, ha]
  · rintro rfl; rw [portPend_plainLand, hp]
end

/-! ### Host queues (R407) -/

section
variable {s : State} {q off n : Nat} {bs : List Byte} {v va : W64}

theorem hqStage_present (h : s.hostQueue q 0 = some va) (hn : off + bs.length ≤ 0xFF00) : execHqStage q off bs s =
    .next { s with ik := { s.ik with stage := mset s.ik.stage q (wrL (mget [] s.ik.stage q) off bs) } } := by
  have hn : ¬((s.hostQueue q 0).isNone ∨ stageBytes < off + bs.length) := by simpa [h, stageBytes] using hn
  rw [execHqStage, if_neg hn]
theorem hqPost_delivers {t : State} (h : s.hostQueue q 0 = some va) (hn : v.toNat % 2 ^ 32 ≤ 0xFF00)
    (hd : s.deliverTo (s.acEnv 0) va (BitVec.ofNat 32 (v.toNat / 2 ^ 32))
      (rdN (mget [] s.ik.stage q) 0 (v.toNat % 2 ^ 32)) = .ok t) : execHqPost q v s = .next t := by
  have hs : ¬stageBytes < v.toNat % 2 ^ 32 := Nat.not_lt.mpr hn
  simp only [execHqPost, h, bits_low v 31, bits_high v 32 (by decide), Nat.reduceAdd, if_neg hs, hd]
theorem hqPost_drops {pa : Nat} {d : PortQ} (h : s.hostQueue q 0 = some va) (hn : 0xFF00 < v.toNat % 2 ^ 32)
    (hq : s.queueAt (s.acEnv 0) va = .ok (pa, d)) : execHqPost q v s = .next (s.qDrop pa d) := by
  have hs : stageBytes < v.toNat % 2 ^ 32 := hn
  simp only [execHqPost, h, bits_low v 31, Nat.reduceAdd, if_pos hs, hq]
theorem hqTxc_full {tg : BitVec 32} {pay : List Byte} {t : State} (h : s.hostQueue q 8 = some va)
    (hc : s.consume (s.acEnv 0) va = .ok (some (tg, pay, t))) : execHqTxc q s = .next t := by
  simp only [execHqTxc, h, hc]
theorem hqTxc_empty (h : s.hostQueue q 8 = some va) (hc : s.consume (s.acEnv 0) va = .ok none) : execHqTxc q s = .next s := by
  simp only [execHqTxc, h, hc]
/-- A receive queue that is absent stages and posts nothing. -/
theorem hq_absent (h : s.hostQueue q 0 = none) : execHqStage q off bs s = .next s ∧ execHqPost q v s = .next s := by
  simp only [execHqStage, execHqPost, h, Option.isNone_none, true_or, if_true, and_self]
theorem hqTxc_absent (h : s.hostQueue q 8 = none) : execHqTxc q s = .next s := by
  simp only [execHqTxc, h]
theorem hqRead_absent (h : s.hostQueue q 8 = none) : s.hqRead q off n = List.replicate n 255 := by simp only [State.hqRead, h]
/-- HQ.TXI of a full entry: its LEN and its tag. -/
theorem hqRead_txi {pa len : Nat} {d : PortQ} {l : List (Nat × Nat)} {tg : BitVec 32} (h : s.hostQueue q 8 = some va)
    (hs : s.headSlot (s.acEnv 0) va = .ok (some (pa, d, l, len, tg))) : s.hqRead q 0xFF08 8 = toLE 4 len ++ toLE 4 tg.toNat := by
  simp only [State.hqRead, h, if_true, hs]
  exact List.take_of_length_le (by simp)
theorem hqRead_txi_empty (h : s.hostQueue q 8 = some va) (hs : s.headSlot (s.acEnv 0) va = .ok none) :
    s.hqRead q 0xFF08 8 = List.replicate 8 255 := by
  simp only [State.hqRead, h, if_true, hs]
/-- Bytes below 0xFF00 that lie in the payload of slot HEAD are read as memory holds them. -/
theorem hqRead_payload {pa : Nat} {d : PortQ} {l : List (Nat × Nat)} (h : s.hostQueue q 8 = some va)
    (hq : s.queueAt (s.acEnv 0) va = .ok (pa, d)) (hs : s.slotAt (s.acEnv 0) d d.head needRW = .ok l)
    (hb : ∀ x ∈ l.drop 1, s.memBad x.1 x.2 = false) (hp : off + n ≤ ((l.drop 1).flatMap (fun x => rdN s.mem x.1 x.2)).length)
    (hn : off + n ≤ 0xFF00) : s.hqRead q off n = (((l.drop 1).flatMap (fun x => rdN s.mem x.1 x.2)).drop off).take n := by
  have h1 : off ≠ 0xFF08 := by omega
  have h2 : ¬stageBytes < off + n := Nat.not_lt.mpr hn
  simp only [State.hqRead, h, if_neg h1, if_neg h2, hq, hs, piecesBad_none _ hb]
  rw [List.take_append_of_le_length]
  rw [List.length_drop]
  omega
end

end Sys2Proof.Machine
end

section
/-!
PROOFS. The application cores' ports (O60: R397, R398, R400, R401, R402).
-/

namespace Sys2Proof.Machine
open Sys2Proof

/-! ### Loads and stores (R397) -/

section
variable {s : State} {ac n : Nat} {va : W64} {bs : List Byte} {need : Need} {l : List (Nat × Nat)} {t : Tlb} (hac : ac < 64)

/-- The partition and the validity of a window lie in its registers, whatever its translations. -/
theorem acXlate_ok (hv : (s.appCore ac).valid = true)
    (hx : xlatePieces s.mem (s.acEnv ac) need (piecesOf va n) (s.appCore ac).tlb = (.ok l, t)) :
    s.acXlate ac need va n = (.ok l, s.setApp ac { s.appCore ac with tlb := t }) := by
  simp only [State.acXlate, hv, hx, Bool.not_true, Bool.false_eq_true, if_false]
theorem acXlate_hold (hv : (s.appCore ac).valid = true)
    (hx : (xlatePieces s.mem (s.acEnv ac) need (piecesOf va n) (s.appCore ac).tlb).1 = .error .hold) :
    (s.acXlate ac need va n).1 = .error .hold := by
  simp only [State.acXlate, hv, hx, Bool.not_true, Bool.false_eq_true, if_false]
theorem acXlate_invalid (hv : (s.appCore ac).valid = false) : s.acXlate ac need va n = (.error (noPartFault va), s) := by
  simp only [State.acXlate, hv, Bool.not_false, if_true]
/-- Bytes as the core's loads see them depend neither on corrections nor on its translations. -/
theorem acBytes_corrAll (l' : List (Nat × Nat)) : (s.corrAll l).acBytes ac l' = s.acBytes ac l' := by
  simp only [State.acBytes, appCore_corrAll, part_corrAll]
theorem acBytes_setApp : (s.setApp ac { s.appCore ac with tlb := t }).acBytes ac l =
    l.flatMap (fun q => seenN (mget [] (s.part (s.appCore ac).part).acPend ac) (s.part (s.appCore ac).part).snap q.1 q.2) := by
  simp only [State.acBytes, appCore_setApp, part_setApp]
  rfl

/-- The first fault of an application core latches in AC.FAULT (R397). -/
theorem acFault_latches (cause info : Nat) (h : (s.appCore ac).w 0x020 = 0) :
    ((s.acFault ac (.fault cause info va)).appCore ac).w 0x020 = BitVec.ofNat 64 (2 ^ 63 + info / 256 % 16 * 256 + cause % 256) ∧
    ((s.acFault ac (.fault cause info va)).appCore ac).w 0x028 = va := by
  have hc : ¬((s.appCore ac).w 0x020).getLsbD 63 = true := by rw [h]; decide
  simp only [State.acFault, if_neg hc]
  show ((s.setApp ac _).appCore ac).w 0x020 = _ ∧ ((s.setApp ac _).appCore ac).w 0x028 = _
  rw [appCore_setApp, w_setW_ne _ _ (by decide), w_setW_same, w_setW_same]
  exact ⟨rfl, rfl⟩
theorem acFault_mem (x : Missed) : (s.acFault ac x).mem = s.mem := by
  unfold State.acFault
  split
  · rfl
  · dsimp only; split <;> rfl

include hac

/-- A load without a partition faults: it returns all ones, and AC.FAULT latches PERM, subcause 4 (log entry 61). -/
theorem acLoad_invalid (hv : (s.appCore ac).valid = false) :
    execAcLoad ac va n s = .next ((s.acFault ac (noPartFault va)).setAcOut (List.replicate n 255)) := by
  simp only [execAcLoad, if_neg (Nat.not_le.mpr hac), acXlate_invalid hv, noPartFault]
theorem acLoad_ok (hv : (s.appCore ac).valid = true)
    (hx : xlatePieces s.mem (s.acEnv ac) needR (piecesOf va n) (s.appCore ac).tlb = (.ok l, t))
    (hc : (s.part (s.appCore ac).part).closing = false) (hb : ∀ q ∈ l, s.memBad q.1 q.2 = false) :
    execAcLoad ac va n s = .next (((s.setApp ac { s.appCore ac with tlb := t }).corrAll l).setAcOut
      ((s.setApp ac { s.appCore ac with tlb := t }).acBytes ac l)) := by
  have hc' : ¬((s.setApp ac { s.appCore ac with tlb := t }).part
      ((s.setApp ac { s.appCore ac with tlb := t }).appCore ac).part).closing = true := by
    rw [appCore_setApp, part_setApp]
    exact Bool.not_eq_true _ ▸ hc
  have hb' : (s.setApp ac { s.appCore ac with tlb := t }).piecesBad va l = none := piecesBad_none va hb
  simp only [execAcLoad, if_neg (Nat.not_le.mpr hac), acXlate_ok hv hx, if_neg hc', hb']
/-- While the phase closes a load waits (R285). -/
theorem acLoad_waits (hv : (s.appCore ac).valid = true)
    (hx : xlatePieces s.mem (s.acEnv ac) needR (piecesOf va n) (s.appCore ac).tlb = (.ok l, t))
    (hc : (s.part (s.appCore ac).part).closing = true) : execAcLoad ac va n s = .next s := by
  have hc' : ((s.setApp ac { s.appCore ac with tlb := t }).part
      ((s.setApp ac { s.appCore ac with tlb := t }).appCore ac).part).closing = true := by
    rw [appCore_setApp, part_setApp]
    exact hc
  simp only [execAcLoad, if_neg (Nat.not_le.mpr hac), acXlate_ok hv hx, if_pos hc']
theorem acStore_ok (hv : (s.appCore ac).valid = true)
    (hx : xlatePieces s.mem (s.acEnv ac) needW (piecesOf va bs.length) (s.appCore ac).tlb = (.ok l, t)) :
    execAcStore ac va bs s = .next ((s.setApp ac { s.appCore ac with tlb := t }).plainStore (s.appCore ac).part 1 ac
      (pieceSegs s.mem (s.acEnv ac) needW (piecesOf va bs.length) (s.appCore ac).tlb) (placeBytes l bs)) := by
  simp only [execAcStore, if_neg (Nat.not_le.mpr hac), acXlate_ok hv hx, appCore_setApp]
  rfl
end

/-! ### The launch port (R400) -/

/-- A launch whose identifier is new joins the phase's launches, fresh. -/
theorem addLaunch_new {p : Part} {r : LRef} {rc : Record} {graph : W64} {held : Option (W64 × Nat × Nat)}
    (h : ∀ l ∈ p.launches, l.id ≠ r.1) : p.addLaunch r rc graph held = { p with launches := p.launches ++
      [⟨r.1, r.2, p.phase + 1, 0, rc, graph, false, none, 0, [], 0, false, [], 0, false, held, false⟩] } := by
  refine if_neg (fun hc => ?_)
  obtain ⟨l, hl, he⟩ := List.any_eq_true.mp hc
  simp only [Bool.and_eq_true, beq_iff_eq] at he
  exact h l hl (congrArg Prod.fst he.1)
/-- A new launch of no graph that no asserted line covers stands as it was made (R324, R334). -/
theorem newLaunch_new {s : State} {p : Nat} {r : LRef} {rc : Record} {held : Option (W64 × Nat × Nat)}
    (h : ∀ l ∈ (s.part p).launches, l.id ≠ r.1) (hj : (s.part p).abJob = false)
    (hp : (s.part p).abPhases.contains ((s.part p).phase + 1) = false) :
    s.newLaunch p r rc 0 held = s.upPart p (fun pt => pt.addLaunch r rc 0 held) := by
  have hf : (s.part p).launches.find? (fun l => l.ref == r) = none :=
    List.find?_eq_none.mpr (fun l hl he => h l hl (congrArg Prod.fst (eq_of_beq he)))
  have hp' : (s.part p).phase + 1 ∉ (s.part p).abPhases := by simpa using hp
  simp only [State.newLaunch, part_upPart_same, addLaunch_new h, Part.launch, List.find?_append, hf, Option.none_or]
  simp [Launch.ref, Part.lineOn, hj, hp']

/-- The state in which the port has read its record: its translations are kept and corrections counted. -/
def State.lpRead (s : State) (ac : Nat) (t : Tlb) (l : List (Nat × Nat)) : State :=
  (s.setApp ac { s.appCore ac with tlb := t }).corrAll l
/-- The record that the port reads, as the core's plain loads see it. -/
def State.lpRecord (s : State) (ac : Nat) (va : W64) (l : List (Nat × Nat)) : Record :=
  Sys2Proof.Machine.recordOf va (l.flatMap (fun q =>
    seenN (mget [] (s.part (s.appCore ac).part).acPend ac) (s.part (s.appCore ac).part).snap q.1 q.2))

section
variable {s : State} {ac : Nat} {l : List (Nat × Nat)} {t : Tlb}

theorem lpLaunch_go (hac : ac < 64) (hb : (s.appCore ac).busy 0x088 = false) :
    execLpLaunch ac s = .next (s.launchGo ac ((s.appCore ac).w 0x080)) := by
  have h : ¬(64 ≤ ac ∨ (s.appCore ac).busy 0x088 = true) := by simp [hac, hb]
  rw [execLpLaunch, State.launchPort, if_neg h]
theorem lpLaunch_busy (hb : (s.appCore ac).busy 0x088 = true) : execLpLaunch ac s = .next s := by
  rw [execLpLaunch, State.launchPort, if_pos (.inr hb)]

variable {va : W64}
theorem launchGo_invalid (hv : (s.appCore ac).valid = false) : s.launchGo ac va = s.lpEnd ac 0x11 4 := by
  simp only [State.launchGo, hv, Bool.not_false, if_true, causeCode]

variable (hv : (s.appCore ac).valid = true)
include hv
theorem launchGo_misaligned (ha : va.toNat % 64 ≠ 0) : s.launchGo ac va = s.lpEnd ac 0x03 0 := by
  simp only [State.launchGo, hv, Bool.not_true, Bool.false_eq_true, if_false, if_pos ha, causeCode]

variable (ha : va.toNat % 64 = 0)
include ha
/-- The launch waits on a held segment (R311). -/
theorem launchGo_hold (hx : (xlatePieces s.mem (s.acEnv ac) needR (piecesOf va 64) (s.appCore ac).tlb).1 = .error .hold) :
    s.launchGo ac va = s.lpHold ac va := by
  have hx' := acXlate_hold hv hx
  simp only [State.launchGo, hv, Bool.not_true, Bool.false_eq_true, if_false, if_neg (not_not_intro ha)]
  split
  · rfl
  · rename_i h; rw [h] at hx'; cases hx'
  · rename_i h; rw [h] at hx'; cases hx'

variable (hx : xlatePieces s.mem (s.acEnv ac) needR (piecesOf va 64) (s.appCore ac).tlb = (.ok l, t))
include hx
/-- The launch waits while the phase closes (R285). -/
theorem launchGo_closing (hc : (s.part (s.appCore ac).part).closing = true) : s.launchGo ac va = s.lpHold ac va := by
  simp only [State.launchGo, hv, Bool.not_true, Bool.false_eq_true, if_false, if_neg (not_not_intro ha), acXlate_ok hv hx, hc, if_true]

/-- Once its record is read, a launch is refused with the reason of R323, or made in the next phase. -/
theorem launchGo_reads (hc : (s.part (s.appCore ac).part).closing = false) (hb : ∀ q ∈ l, s.memBad q.1 q.2 = false) :
    let pt := s.part (s.appCore ac).part
    let made := mget 0 pt.acMade ac
    let rc := s.lpRecord ac va l
    let why := pt.refuse rc true made
    let id := launchId (pt.phase + 1) 0xFFF ac made
    s.launchGo ac va = if why ≠ 0 then (s.lpRead ac t l).lpEnd ac 0x38 why
      else (((((s.lpRead ac t l).setPart (s.appCore ac).part { pt with acMade := mset pt.acMade ac (made + 1) }).newLaunch
        (s.appCore ac).part (id, pt.phase % 2 ^ 16) rc 0 none).lpEnd ac 0 0).upApp ac (fun a => a.setW 0x090 id)) := by
  have hb' : (s.setApp ac { s.appCore ac with tlb := t }).piecesBad va l = none := piecesBad_none va hb
  simp only [State.launchGo, hv, Bool.not_true, Bool.false_eq_true, if_false, if_neg (not_not_intro ha), acXlate_ok hv hx, hc, hb',
    acBytes_corrAll, acBytes_setApp, part_corrAll, part_setApp, causeCode]
  rfl
end

/-- The launch that the port makes: its identifier in LP.ID, and CODE 0. -/
theorem lpMade_regs (u : State) (ac : Nat) (id : W64) :
    (((u.lpEnd ac 0 0).upApp ac (fun a => a.setW 0x090 id)).appCore ac).w 0x088 = 0 ∧
    (((u.lpEnd ac 0 0).upApp ac (fun a => a.setW 0x090 id)).appCore ac).w 0x090 = id := by
  simp only [State.lpEnd, State.upApp, appCore_setApp, w_setW_same, and_true]
  rw [w_setW_ne _ _ (by decide)]
  exact w_setW_same (u.appCore ac) 0x088 0
/-- A launch that waits shows BUSY and remembers its record; partitions and memory stay. -/
theorem lpHold_spec (s : State) (ac : Nat) (va : W64) :
    ((s.lpHold ac va).appCore ac).busy 0x088 = true ∧ ((s.lpHold ac va).appCore ac).lpWait = some va ∧
    (s.lpHold ac va).parts = s.parts ∧ (s.lpHold ac va).mem = s.mem := by
  rw [State.lpHold, State.upApp, appCore_setApp]
  exact ⟨busy_setW_busyWord (s.appCore ac) 0x088, rfl, rfl, rfl⟩
/-- A refused launch: its cause and reason in LP.CMD; partitions and memory stay. -/
theorem lpRefused_spec (s : State) (ac why : Nat) (t : Tlb) (l : List (Nat × Nat)) :
    let u := (s.lpRead ac t l).lpEnd ac 0x38 why
    (u.appCore ac).w 0x088 = BitVec.ofNat 64 (why * 256 + 0x38) ∧ u.parts = s.parts ∧ u.mem = s.mem := by
  intro u
  refine ⟨?_, corrAll_parts _ _, corrAll_mem _ _⟩
  simp only [u, State.lpEnd, State.upApp, appCore_setApp]
  exact w_setW_same ((s.lpRead ac t l).appCore ac) 0x088 _
/-- The partition that a launch at the port leaves when no line covers it and its identifier is new. -/
theorem lpMade_part {s : State} {ac made : Nat} {t : Tlb} {l : List (Nat × Nat)} {id : W64} {rc : Record} {born p : Nat}
    (hj : (s.part p).abJob = false) (hp : (s.part p).abPhases.contains ((s.part p).phase + 1) = false)
    (hn : ∀ l ∈ (s.part p).launches, l.id ≠ id) :
    let u := ((((s.lpRead ac t l).setPart p { s.part p with acMade := mset (s.part p).acMade ac made }).newLaunch p (id, born) rc 0
      none).lpEnd ac 0 0).upApp ac (fun a => a.setW 0x090 id)
    u.mem = s.mem ∧ u.part p = { (s.part p).addLaunch (id, born) rc 0 none with acMade := mset (s.part p).acMade ac made } := by
  intro u
  have hu : u = ((((s.lpRead ac t l).setPart p { s.part p with acMade := mset (s.part p).acMade ac made }).upPart p
      (fun pt => pt.addLaunch (id, born) rc 0 none)).lpEnd ac 0 0).upApp ac (fun a => a.setW 0x090 id) := by
    rw [← newLaunch_new]
    · rw [part_setPart_same]; exact hn
    · rw [part_setPart_same]; exact hj
    · rw [part_setPart_same]; exact hp
  rw [hu]
  refine ⟨corrAll_mem _ _, ?_⟩
  simp only [State.lpEnd, State.upApp, part_setApp, part_upPart_same, part_setPart_same]
  rw [addLaunch_new hn, addLaunch_new hn]

/-- What LP_LAUNCH does when its record has been read (R323, R324, R400). -/
theorem lpLaunch_reads {s : State} {ac : Nat} {l : List (Nat × Nat)} {t : Tlb} (hac : ac < 64) :
    let a := s.appCore ac
    let va := a.w 0x080
    let pt := s.part a.part
    a.busy 0x088 = false → a.valid = true → va.toNat % 64 = 0 →
    xlatePieces s.mem (s.acEnv ac) needR (piecesOf va 64) a.tlb = (.ok l, t) → pt.closing = false → (∀ q ∈ l, s.memBad q.1 q.2 = false) →
    let made := mget 0 pt.acMade ac
    let rc := s.lpRecord ac va l
    let why := pt.refuse rc true made
    let id := launchId (pt.phase + 1) 0xFFF ac made
    ∃ u, execLpLaunch ac s = .next u ∧
      (why ≠ 0 → (u.appCore ac).w 0x088 = BitVec.ofNat 64 (why * 256 + 0x38) ∧ u.parts = s.parts ∧ u.mem = s.mem) ∧
      (why = 0 → (u.appCore ac).w 0x088 = 0 ∧ (u.appCore ac).w 0x090 = id) ∧
      (why = 0 → pt.abJob = false → pt.abPhases.contains (pt.phase + 1) = false → (∀ l ∈ pt.launches, l.id ≠ id) → u.mem = s.mem ∧
        u.part a.part = { pt.addLaunch (id, pt.phase % 2 ^ 16) rc 0 none with acMade := mset pt.acMade ac (made + 1) }) := by
  intro a va pt hb hv ha hx hc hl made rc why id
  refine ⟨_, lpLaunch_go hac hb, ?_⟩
  rw [launchGo_reads hv ha hx hc hl]
  by_cases hw : why = 0
  · rw [if_neg (not_not_intro hw)]
    exact ⟨fun h => absurd hw h, fun _ => lpMade_regs _ _ _, fun _ hj hp hn => lpMade_part hj hp hn⟩
  · rw [if_pos hw]
    exact ⟨fun _ => lpRefused_spec s ac why t l, fun h => absurd h hw, fun h => absurd h hw⟩

/-! ### The core-access port (R401) -/

section
variable {s : State} {ac : Nat} (hac : ac < 64) (hb : (s.appCore ac).busy 0x0D8 = false)

/-- The core that CA.CORE names. -/
def State.caTarget (s : State) (ac : Nat) : Nat := ((s.appCore ac).w 0x0C0).toNat % 256
theorem caCore_foreign (h : ¬((s.appCore ac).valid = true ∧ s.partNo (s.caTarget ac) = (s.appCore ac).part)) :
    s.caCore ac = .error 2 := by
  refine if_pos ?_
  rw [bits_low]
  rw [not_and_or] at h
  exact h.imp (fun h => by simpa using h) id
theorem caCore_running (hm : (s.appCore ac).valid = true ∧ s.partNo (s.caTarget ac) = (s.appCore ac).part)
    (h : ¬((s.core (s.caTarget ac)).mode = .parked ∨ (s.core (s.caTarget ac)).mode = .halted)) : s.caCore ac = .error 1 := by
  have h1 : ¬((!(s.appCore ac).valid) = true ∨ s.partNo (s.caTarget ac) ≠ (s.appCore ac).part) := by simp [hm.1, hm.2]
  simp only [State.caCore, bits_low _ 7]
  exact (if_neg h1).trans (if_neg h)
theorem caCore_still (hm : (s.appCore ac).valid = true ∧ s.partNo (s.caTarget ac) = (s.appCore ac).part)
    (h : (s.core (s.caTarget ac)).mode = .parked ∨ (s.core (s.caTarget ac)).mode = .halted) : s.caCore ac = .ok (s.caTarget ac) := by
  have h1 : ¬((!(s.appCore ac).valid) = true ∨ s.partNo (s.caTarget ac) ≠ (s.appCore ac).part) := by simp [hm.1, hm.2]
  simp only [State.caCore, bits_low _ 7]
  exact (if_neg h1).trans (if_pos h)
/-- A write finds no item where a read finds none. -/
theorem caPut_eq_none {c : Nat} {it v : W64} (h : s.caItem c it = none) : s.caPut c it v = none := by
  unfold State.caItem at h
  unfold State.caPut
  dsimp only at h
  split at h <;> simp_all
theorem caPut_scalar {c : Nat} {it v : W64} (h : it.toNat / 2 ^ 61 = 0) :
    s.caPut c it v = some (s.setCore c ((s.core c).setS (BitVec.ofNat 6 (it.toNat % 64)) v)) := by
  unfold State.caPut
  rw [bits_high it 61 (by decide), h, bits_low it 5]
  rfl
theorem caItem_pad {c : Nat} {it : W64} (h : it.toNat / 2 ^ 61 = 3) :
    s.caItem c it = some (rd64 (s.core c).pad.mem (8 * (it.toNat % 2 ^ 19))) := by
  unfold State.caItem
  rw [bits_high it 61 (by decide), h, bits_low it 18]
  rfl
/-- CA.ITEM names the cycle counter of a core. -/
def namesCyc (it : W64) : Prop := it.toNat / 2 ^ 61 = 1 ∧ it.toNat % 2 ^ 14 = 0x010
theorem namesCyc_iff (it : W64) : (bits it 63 61 = 1 ∧ bits it 13 0 = 0x010) ↔ namesCyc it := by
  rw [bits_high it 61 (by decide), bits_low it 13, namesCyc]
/-- A core's CYC is an item. -/
theorem caItem_cyc {c : Nat} {it : W64} (h : namesCyc it) : s.caItem c it ≠ none := by
  obtain ⟨h1, h2⟩ := (namesCyc_iff it).mpr h
  unfold State.caItem
  rw [h1, h2]
  exact Option.some_ne_none _
/-- A port command is discarded while BUSY is 1. -/
theorem ca_discards (h : (s.appCore ac).busy 0x0D8 = true) : execCaRead ac s = .next s ∧ execCaWrite ac s = .next s := by
  have h' : 64 ≤ ac ∨ (s.appCore ac).busy 0x0D8 = true := .inr h
  simp only [execCaRead, execCaWrite, if_pos h', and_self]

/-- What a read of an item gives: the value and ST 0; the rest of memory and the scalars stay. -/
theorem caGive_spec (s : State) (ac : Nat) (v : W64) :
    ((s.caGive ac v).appCore ac).w 0x0D0 = v ∧ ((s.caGive ac v).appCore ac).w 0x0D8 = 0 ∧ (s.caGive ac v).mem = s.mem ∧
      (s.caGive ac v).cores = s.cores := by
  simp only [State.caGive, State.caEnd, State.upApp, appCore_setApp, setApp_setApp]
  have hne : (((s.appCore ac).setW 0x0D0 v).setW 0x0D8 0#64).w 0x0D0 = v := by rw [w_setW_ne _ _ (by decide), w_setW_same]
  exact ⟨hne, w_setW_same ((s.appCore ac).setW 0x0D0 v) 0x0D8 0, rfl, rfl⟩
theorem latchEnr_getS (s : State) (c : Nat) (r : Sreg) : ((s.latchEnr c).core c).getS r = (s.core c).getS r := by
  rw [State.latchEnr, core_upCore_same]; rfl
/-- Outside replay a read of CYC is live: it is logged in record mode and counted (R340, R342). -/
theorem caCyc_live {c : Nat} (h : (s.part (s.appCore ac).part).logMode ≤ 1) :
    s.caCyc ac c = (s.acLog (s.appCore ac).part ac 1 (BitVec.ofNat 64 (s.cycOf c))).caGive ac (BitVec.ofNat 64 (s.cycOf c)) := by
  have hm : ¬((s.part (s.appCore ac).part).logMode = 2 ∧ (!(s.part (s.appCore ac).part).logDiv) = true) := fun hm => by omega
  simp only [State.caCyc, State.acCyc, State.logAsk, if_neg hm]
/-- Until its turn in replay a read of CYC waits with BUSY set. -/
theorem caCyc_waits {c : Nat} (h : s.acCyc ac c = none) :
    s.caCyc ac c = s.setApp ac { (s.appCore ac).setW 0x0D8 busyWord with caWait := some c } := by
  simp only [State.caCyc, h, State.upApp]

include hac hb
theorem ca_free : ¬(64 ≤ ac ∨ (s.appCore ac).busy 0x0D8 = true) := by simp [hac, hb]
/-- A core that may not be accessed: ST says why. -/
theorem ca_refused {st : Nat} (hc : s.caCore ac = .error st) :
    execCaRead ac s = .next (s.caEnd ac st) ∧ execCaWrite ac s = .next (s.caEnd ac st) := by
  simp only [execCaRead, execCaWrite, if_neg (ca_free hac hb), hc, and_self]

variable {c : Nat} (hc : s.caCore ac = .ok c)
include hc
/-- No such item: ST 3. -/
theorem ca_noItem (h : s.caItem c ((s.appCore ac).w 0x0C8) = none) :
    execCaRead ac s = .next (s.caEnd ac 3) ∧ execCaWrite ac s = .next (s.caEnd ac 3) := by
  have hn : ¬(bits ((s.appCore ac).w 0x0C8) 63 61 = 1 ∧ bits ((s.appCore ac).w 0x0C8) 13 0 = 0x010) :=
    fun hn => caItem_cyc ((namesCyc_iff _).mp hn) h
  simp only [execCaRead, execCaWrite, if_neg (ca_free hac hb), hc, if_neg hn, h, caPut_eq_none h, and_self]
/-- A read of an item other than CYC gives its value with ST 0 and leaves memory and the core's scalars. -/
theorem caRead_item {v : W64} (hn : ¬namesCyc ((s.appCore ac).w 0x0C8)) (h : s.caItem c ((s.appCore ac).w 0x0C8) = some v) :
    ∃ u, execCaRead ac s = .next u ∧ (u.appCore ac).w 0x0D0 = v ∧ (u.appCore ac).w 0x0D8 = 0 ∧ u.mem = s.mem ∧
      ∀ r, (u.core c).getS r = (s.core c).getS r := by
  have hx : execCaRead ac s = .next ((if bits ((s.appCore ac).w 0x0C8) 63 61 = 1 ∧ bits ((s.appCore ac).w 0x0C8) 13 0 = 0x105 then
      s.latchEnr c else s).caGive ac v) := by
    simp only [execCaRead, if_neg (ca_free hac hb), hc, if_neg (mt (namesCyc_iff _).mp hn), h]
  refine ⟨_, hx, ?_⟩
  split
  · obtain ⟨hv, hst, hm, hk⟩ := caGive_spec (s.latchEnr c) ac v
    exact ⟨hv, hst, hm, fun r => by rw [State.core, hk]; exact latchEnr_getS s c r⟩
  · obtain ⟨hv, hst, hm, hk⟩ := caGive_spec s ac v
    exact ⟨hv, hst, hm, fun r => by rw [State.core, hk]; rfl⟩
theorem caRead_cyc (hn : namesCyc ((s.appCore ac).w 0x0C8)) : execCaRead ac s = .next (s.caCyc ac c) := by
  simp only [execCaRead, if_neg (ca_free hac hb), hc, if_pos ((namesCyc_iff _).mpr hn)]
/-- A read of CYC that waits for its turn shows BUSY and leaves the partitions. -/
theorem caRead_cyc_waits (hn : namesCyc ((s.appCore ac).w 0x0C8)) (h : s.acCyc ac c = none) : ∃ u, execCaRead ac s = .next u ∧
    (u.appCore ac).busy 0x0D8 = true ∧ (u.appCore ac).caWait = some c ∧ u.parts = s.parts := by
  refine ⟨_, (caRead_cyc hac hb hc hn).trans (congrArg _ (caCyc_waits h)), ?_⟩
  rw [appCore_setApp]
  exact ⟨busy_setW_busyWord (s.appCore ac) 0x0D8, rfl, rfl⟩
theorem caWrite_item {t : State} (h : s.caPut c ((s.appCore ac).w 0x0C8) ((s.appCore ac).w 0x0D0) = some t) :
    execCaWrite ac s = .next ((t.remeasured s).caEnd ac 0) := by
  simp only [execCaWrite, if_neg (ca_free hac hb), hc, h]
end

/-! ### The special-register port (R402) and writes from outside (R7) -/

/-- M(3) is extended by a change alone (R390). -/
theorem remeasured_same {s old : State} (h : s.config = old.config) : s.remeasured old = s := if_pos h

section
variable {s : State} {ac : Nat} (hac : ac < 64)
include hac

/-- An access without a partition, or of a register that the port has not: ST 3 (log entry 65). -/
theorem sr_refused (h : (s.appCore ac).valid = false ∨ srPortHas (((s.appCore ac).w 0x100).toNat % 2 ^ 14) = false) :
    execSrRead ac s = .next (s.srEnd ac 3) ∧ execSrWrite ac s = .next (s.srEnd ac 3) := by
  have h' : (!(s.appCore ac).valid) = true ∨ (!srPortHas (((s.appCore ac).w 0x100).toNat % 2 ^ 14)) = true := by simpa using h
  simp only [execSrRead, execSrWrite, bits_low _ 13, Nat.reduceAdd, if_neg (Nat.not_le.mpr hac), if_pos h', and_self]

variable (hv : (s.appCore ac).valid = true) (hp : srPortHas (((s.appCore ac).w 0x100).toNat % 2 ^ 14) = true)
include hv hp
theorem srRead_ok :
    let a := s.appCore ac
    let n := (a.w 0x100).toNat % 2 ^ 14
    let d := (a.w 0x100).toNat / 2 ^ 16 % 4
    execSrRead ac s = .next ((s.setApp ac (a.setW 0x108 (if srDie n then mget 0 (s.die d).slt (n - 0x280)
      else if n = 0x214 then BitVec.ofNat 64 (s.reserve d) else s.readPart a.part n))).srEnd ac 0) := by
  intro a n d
  have h' : ¬((!(s.appCore ac).valid) = true ∨ (!srPortHas (((s.appCore ac).w 0x100).toNat % 2 ^ 14)) = true) := by
    rw [hv, hp]; decide
  simp only [execSrRead, bits_low _ 13, Nat.reduceAdd, if_neg (Nat.not_le.mpr hac), if_neg h']
  rfl
theorem srWrite_ok {i : W64 × W64} (hi : srInfo (((s.appCore ac).w 0x100).toNat % 2 ^ 14) = some i) :
    let a := s.appCore ac
    let n := (a.w 0x100).toNat % 2 ^ 14
    let d := (a.w 0x100).toNat / 2 ^ 16 % 4
    execSrWrite ac s = .next ((State.remeasured (if i = (0, 0) then s else if srDie n then s.writeSlt d n (a.w 0x108)
      else s.writePart a.part n i (a.w 0x108)) s).srEnd ac 0) := by
  intro a n d
  have h' : ¬((!(s.appCore ac).valid) = true ∨ (!srPortHas (((s.appCore ac).w 0x100).toNat % 2 ^ 14)) = true) := by
    rw [hv, hp]; decide
  simp only [execSrWrite, bits_low _ 13, Nat.reduceAdd, if_neg (Nat.not_le.mpr hac), if_neg h', hi]
  rfl
end

/-- A write from outside of a register that no rule assigns or that is read-only throughout changes nothing. -/
theorem registerWrite_unwritable {s : State} {c n : Nat} {v : W64} (h : srInfo n = none ∨ srInfo n = some (0, 0)) :
    execRegisterWrite (.sr c n) v s = .next s := by
  rcases h with h | h
  · simp only [execRegisterWrite, h]
  · simp only [execRegisterWrite, h, if_true, remeasured_same rfl]
/-- A write from outside of a register of a core changes that register alone. -/
theorem registerWrite_core {s : State} {c n : Nat} {v : W64} {i : W64 × W64} (h : srInfo n = some i) (hi : i ≠ (0, 0))
    (hp : srPart n = false) (hd : srDie n = false) :
    execRegisterWrite (.sr c n) v s = .next (s.setCore c ((s.core c).setSr n (srWrite i ((s.core c).getSr n) v))) := by
  simp only [execRegisterWrite, h, if_neg hi, State.writeSr, hp, hd, Bool.false_eq_true, if_false]
  exact congrArg _ (remeasured_same rfl)
/-- A write of a window's register takes the register's RW bits (R398). -/
theorem acWrite_plain {s : State} {ac off : Nat} {v : W64} (hac : ac < 64) (ho : off % 8 = 0) (h : off < 0x200)
    (h1 : off ∉ [0x018, 0x020, 0x058, 0x088]) (hm : acMask off ≠ 0) :
    s.acWrite ac off v = s.upApp ac (fun a => a.setW off (v &&& acMask off)) := by
  simp only [List.mem_cons, List.not_mem_nil, or_false, not_or] at h1
  obtain ⟨h2, h3, h4, h5⟩ := h1
  have h6 : ¬(64 ≤ ac ∨ off % 8 ≠ 0) := by omega
  have h7 : ¬(0x2000 ≤ off ∧ off < 0x4000) := by omega
  have h8 : ¬(0x200 ≤ off ∧ off < 0xA00) := by omega
  simp only [State.acWrite, if_neg h6, if_neg h7, if_neg h8, if_neg h2, if_neg h3, if_neg h4, if_neg h5, if_neg hm]
theorem acWrite_tlbi {s : State} {ac : Nat} {v : W64} (hac : ac < 64) :
    s.acWrite ac 0x018 v = s.upApp ac (fun a => { a with tlb := [] }) := by
  have h : ¬(64 ≤ ac ∨ 0x018 % 8 ≠ 0) := by omega
  simp only [State.acWrite, if_neg h]
  rfl
theorem acWrite_launch {s : State} {ac : Nat} (hac : ac < 64) : s.acWrite ac 0x088 1 = s.launchPort ac := by
  have h : ¬(64 ≤ ac ∨ 0x088 % 8 ≠ 0) := by omega
  simp only [State.acWrite, if_neg h]
  rfl

end Sys2Proof.Machine
end

section
/-!
PROOFS. O60, from the lemmas on each port.
-/

namespace Sys2Proof.Machine
open Sys2Proof

/-- Settles O60: every access is followed to the lemma of its port: DMA and rings, port queues, plain stores and held writes, host
queues, the application cores' loads and stores, their launch, core-access and special-register ports, and writes from outside. -/
theorem portsOfTheIkilithDie : Obligations.PortsOfTheIkilithDie := by
  unfold Obligations.PortsOfTheIkilithDie
  refine ⟨?dma, inRing_iff, ?queues, ?stores, ?host, ?loads, ?launch, ?cores, ?special, ?outside, ?window⟩
  case dma =>
    intro s port rid va tag bs n
    exact ⟨fun h => requester_none h, fun p e hr => ⟨fun l hx hb => ⟨dmaWrite_plain hr hx hb, dmaWrite_ring hr hx⟩,
      fun x hx => dmaWrite_fault hr hx, fun l hx hb => dmaRead_ok hr hx hb, dmaRead_hold hr, fun t => cardDeliver_ok hr,
      fun x => cardDeliver_fault hr, fun tg pay t => portTransmit_full hr, portTransmit_empty hr⟩⟩
  case queues =>
    intro s e va tag bs pa d hq
    exact ⟨fun h => deliverTo_drop hq h, fun h l hs => deliverTo_slot hq h hs, fun h1 h2 h3 l hs hb =>
      ⟨consume_none hq h1 h2 h3 hs hb, fun hf hp => consume_full hq h1 h2 h3 hs hb hf hp⟩⟩
  case stores =>
    intro s p kind no segs bs
    refine ⟨plainStore_waits, plainStore_full, ?_, fun told => ⟨heldWrite_waits, ?_, ?_⟩⟩
    · intro h t hc
      rw [plainStore_lands h hc]
      obtain ⟨h1, h2⟩ := landed_pend (u := t) hc rfl
      exact ⟨h1, h2, (chargeAll_frame hc).1⟩
    · exact fun h hc => heldWrite_full h hc
    · intro h t hc
      obtain ⟨h1, h2⟩ := landed_pend (u := { t with mem := leaveAll t.mem (s.penv p true) segs }) hc rfl
      rw [heldWrite_lands h hc]
      exact ⟨by rw [upPart_mem, (chargeAll_frame hc).1], h1, h2⟩
  case host =>
    intro s q off bs v
    exact ⟨fun va h => ⟨hqStage_present h, fun hn t => hqPost_delivers h hn, fun hn pa d => hqPost_drops h hn⟩,
      fun va h => ⟨fun tg pay t => hqTxc_full h, hqTxc_empty h⟩, hq_absent, hqTxc_absent, fun n => ⟨hqRead_absent, fun va h =>
        ⟨fun pa d l len tg => hqRead_txi h, hqRead_txi_empty h, fun pa d l hq hs hb => hqRead_payload h hq hs hb⟩⟩⟩
  case loads =>
    intro s ac va n bs hac
    exact ⟨rfl, fun hv => ⟨_, acLoad_invalid hac hv, rfl, fun h => acFault_latches _ _ h, acFault_mem _⟩,
      fun hv l t hx hc hb => ⟨_, acLoad_ok hac hv hx hc hb, acBytes_setApp, corrAll_parts _ _, corrAll_mem _ _⟩,
      fun hv l t hx hc => acLoad_waits hac hv hx hc, fun hv l t hx => acStore_ok hac hv hx⟩
  case launch =>
    intro s ac hac
    exact ⟨lpLaunch_busy, fun hb hv => (lpLaunch_go hac hb).trans (congrArg _ (launchGo_invalid hv)),
      fun hb hv ha => (lpLaunch_go hac hb).trans (congrArg _ (launchGo_misaligned hv ha)),
      fun hb hv ha hx => ⟨_, (lpLaunch_go hac hb).trans (congrArg _ (launchGo_hold hv ha hx)), lpHold_spec s ac _⟩,
      fun hb hv ha l t hx => ⟨fun hc => ⟨_, (lpLaunch_go hac hb).trans (congrArg _ (launchGo_closing hv ha hx hc)), lpHold_spec s ac _⟩,
        fun hc hl => lpLaunch_reads hac hb hv ha hx hc hl⟩⟩
  case cores =>
    intro s ac hac
    exact ⟨ca_discards, fun hb => ⟨fun hm => ca_refused hac hb (caCore_foreign hm), fun hm h => ca_refused hac hb (caCore_running hm h),
      fun hm h hi => ca_noItem hac hb (caCore_still hm h) hi, fun hm h hn v hi => caRead_item hac hb (caCore_still hm h) hn hi,
      fun hm h h1 h2 hl => (caRead_cyc hac hb (caCore_still hm h) ⟨h1, h2⟩).trans (congrArg _ (caCyc_live hl)),
      fun hm h h1 h2 hl => caRead_cyc_waits hac hb (caCore_still hm h) ⟨h1, h2⟩ hl,
      fun hm h t hp => caWrite_item hac hb (caCore_still hm h) hp⟩, caPut_scalar, caItem_pad⟩
  case special =>
    intro s ac hac
    refine ⟨sr_refused hac, fun hv hp => ⟨srRead_ok hac hv hp, fun i hi h0 => ?_, fun hi => ?_⟩⟩
    · exact (srWrite_ok hac hv hp hi).trans (by rw [if_neg h0]; rfl)
    · exact (srWrite_ok hac hv hp hi).trans (by rw [if_pos rfl, remeasured_same rfl]; rfl)
  case outside =>
    intro s c n v
    exact ⟨registerWrite_unwritable, fun i hi h0 hp hd => ⟨_, registerWrite_core hi h0 hp hd, getSr_setSr_same _ _ _,
      fun j hj => getSr_setSr_ne _ _ hj⟩⟩
  case window =>
    intro s ac v hac
    refine ⟨rfl, rfl, rfl, rfl, congrArg _ (acWrite_tlbi hac), congrArg _ (acWrite_launch hac), ?_, ?_⟩
    · have hm : v &&& acMask 0x0D0 = v := BitVec.and_allOnes
      exact congrArg _ ((acWrite_plain hac rfl (by decide) (by decide) (by decide)).trans (by rw [hm]; rfl))
    · exact congrArg _ (acWrite_plain hac rfl (by decide) (by decide) (by decide))

end Sys2Proof.Machine
end

section
/-!
PROOFS. What waits, tokens and regions of the FE come to (O12, O25), and the state after reset (O7).
-/

namespace Sys2Proof.Machine
open Sys2Proof

/-! ### Tokens of an FE instruction (R24, R25) -/

@[simp] theorem corrects_eng (k : Core) (f : ProtArr → Bool) (lo n : Nat) : (k.corrects f lo n).eng = k.eng := by
  unfold Core.corrects; split <;> rfl
@[simp] theorem flushIf_tok (k : Core) (p : Due → Bool) (d : Dir) : (k.flushIf p).tok d = k.tok d := by
  simp [Core.tok, Core.flushIf, applyAll_eng]
@[simp] theorem tok_clearBad (k : Core) (f : ProtArr → Bool) (lo n : Nat) (d : Dir) : (k.clearBad f lo n).tok d = k.tok d := by
  simp [Core.tok]
theorem dirNo_inj {a b : Dir} (h : dirNo a = dirNo b) : a = b := by
  cases a <;> cases b <;> simp [dirNo] at h ⊢
@[simp] theorem tok_setTok_same (k : Core) (d : Dir) (l : List Nat) : (k.setTok d l).tok d = l := mget_mput_same _ _ _ _
theorem tok_setTok_ne (k : Core) {d e : Dir} (l : List Nat) (h : e ≠ d) : (k.setTok d l).tok e = k.tok e :=
  mget_mput_ne _ _ _ (fun x => h (dirNo_inj x))
@[simp] theorem tok_noteTaken (k : Core) (st : Strm) (t : Tok) (n : Nat) (d : Dir) : (k.noteTaken st t n).tok d = k.tok d := by
  unfold Core.noteTaken Core.tok
  dsimp only
  split <;> split <;> simp
/-- A signal whose queue has room joins its end. -/
theorem tok_signal_same {k : Core} {d : Dir} {n : Nat} (h : (k.tok d).length < 15) : (k.signal d n).tok d = k.tok d ++ [n] := by
  simp [Core.signal, h, Core.pushTok]
theorem tok_signal_ne (k : Core) {d e : Dir} (n : Nat) (h : e ≠ d) : (k.signal d n).tok e = k.tok e := by
  unfold Core.signal
  split
  · simp [Core.pushTok, tok_setTok_ne _ _ h]
  · rfl

/-- What an FE instruction that starts has found: the core that `feStart` gives, with PCFE behind it. -/
theorem feStart_of_feBegins {s : State} {i : Instr} {k : Core} {t : Nat} (h : s.feBegins i = some (k, t)) :
    ∃ k1, (s.core s.cur).feStart i = some (k1, t) ∧
      k = { (k1.skip i.size) with eng := { k1.eng with cyc := t + 1 } } := by
  unfold State.feBegins at h
  simp only [] at h
  split at h
  · split at h
    · cases h
    · rename_i k1 u hs
      split at h
      · cases h; exact ⟨k1, hs, rfl⟩
      · cases h
  · cases h
/-- An FE instruction whose waits were not spent starts when its tokens are there, and takes them. -/
theorem feBegins_takes {s : State} {i : Instr} {k : Core} {t : Nat} (h : s.feBegins i = some (k, t))
    (hs : (s.core s.cur).eng.satisfied = false) :
    (s.core s.cur).tokReady .fe (tokOf i) = true ∧ ∀ d, k.tok d = ((s.core s.cur).takeToks .fe (tokOf i)).1.tok d := by
  obtain ⟨k1, h1, rfl⟩ := feStart_of_feBegins h
  unfold Core.feStart at h1
  split at h1
  · cases h1
  · rename_i hr
    simp only [hs, Bool.false_or, Bool.or_eq_true, Bool.not_eq_true', not_or, Bool.not_eq_false] at hr
    refine ⟨hr.2, fun d => ?_⟩
    simp only [hs, Bool.false_eq_true, if_false, Option.some.injEq, Prod.mk.injEq] at h1
    obtain ⟨rfl, -⟩ := h1
    exact (flushIf_tok _ _ d).trans (tok_noteTaken _ _ _ _ d)

/-- NOP completes and leaves its core as it found it, but for its tokens (R130). -/
theorem nop_completes {s : State} {tok : Tok} {k : Core} {t : Nat} (h : s.feBegins (.nop tok) = some (k, t)) :
    exec (.nop tok) s = .next (s.setCore s.cur (k.feDone tok (t + 1))) :=
  (feRun_ok (body := fun _ s => .ok s) h rfl).trans (by rw [upCore_setCore]; rfl)

/-- Settles O12: NOP's body changes nothing; what it takes is `takeToks`, and what it pushes `signal`. -/
theorem nopOnlyMovesTokens : Obligations.NopOnlyMovesTokens := by
  unfold Obligations.NopOnlyMovesTokens
  refine ⟨by decide, fun s tok k t h => nop_completes h, fun s k t => ?_⟩
  dsimp only
  intro hs h hrun
  obtain ⟨hr, hk⟩ := feBegins_takes h hs
  have htake : k.tok .ldFe = ((s.core s.cur).tok .ldFe).tail := (hk .ldFe).trans (tok_setTok_same _ _ _)
  have hready : (s.core s.cur).tokReady .fe ⟨false, true, false, true⟩ = true := hr
  have hne : (s.core s.cur).tok .ldFe ≠ [] := by simpa [Core.tokReady, waitN] using hready
  refine ⟨hne, htake, fun hroom => ⟨_, nop_completes h, ?_⟩⟩
  rw [core_setCore_same, Core.feDone, if_pos hrun]
  exact ⟨tok_signal_same hroom, tok_signal_ne _ _ (by decide)⟩

/-! ### REGION (R41, R119) -/

/-- Setting STAT.REG sets bit 8 and keeps the others. -/
theorem getSr_setRegion (k : Core) (n : Bool) (j : Nat) :
    ((k.setRegion n).getSr 0x001).getLsbD j = if j = 8 then n else (k.getSr 0x001).getLsbD j := by
  unfold Core.setRegion
  rw [getSr_setSr_same]
  have h1 : (0x100#64).getLsbD j = decide (j = 8) := by
    rw [show (0x100#64) = BitVec.twoPow 64 8 from rfl, BitVec.getLsbD_twoPow]
    by_cases h : j = 8 <;> simp [h, eq_comm]
  by_cases hj : j = 8
  · subst hj; cases n <;> simp
  · cases n
    · rw [if_neg (by decide), BitVec.getLsbD_and, BitVec.getLsbD_not, h1]
      by_cases hj64 : j < 64
      · simp [hj, hj64]
      · simp [hj, hj64, BitVec.getLsbD_of_ge _ _ (Nat.le_of_not_lt hj64)]
    · simp [h1, hj]
@[simp] theorem setRegion_eng (k : Core) (n : Bool) : (k.setRegion n).eng = k.eng := rfl
@[simp] theorem flushAll_due (k : Core) : k.flushAll.eng.due = [] := by
  simp [Core.flushAll, Core.flushIf, applyAll_eng]

/-- Settles O25: the body of REGION waits while an engine has work, and else sets bit 8 of STAT. -/
theorem regionWaitsThenSwitches : Obligations.RegionWaitsThenSwitches := by
  unfold Obligations.RegionWaitsThenSwitches
  intro s tok n k t h
  refine ⟨fun hi => ?_, fun hi => ⟨(if n then k.flushAll else k).setRegion n, ?_, ?_, ?_, ?_, ?_⟩⟩
  · have hb : regionBody n t (s.setCore s.cur k) = .wait (s.setCore s.cur k) := by simp [regionBody, hi]
    exact (feRun_wait h hb).trans (by rw [upCore_setCore, State.feWaits])
  · have hb : regionBody n t (s.setCore s.cur k) = .ok (s.setCore s.cur ((if n then k.flushAll else k).setRegion n)) := by
      simp [regionBody, hi]
    exact (feRun_ok h hb).trans (by rw [upCore_setCore]; rfl)
  · rw [Core.setRegion, getSr_setSr_same]
  · exact (getSr_setRegion _ _ 8).trans (if_pos rfl)
  · cases n <;> simp
  · exact fun j hj => (getSr_setRegion _ _ j).trans (if_neg hj)

/-! ### Reset (R16, R389) -/

/-- Settles O7: every field of `State.reset` is the default of its map. -/
theorem resetLeavesTheMachine : Obligations.ResetLeavesTheMachine := by
  unfold Obligations.ResetLeavesTheMachine
  refine ⟨rfl, rfl, fun _ => rfl, fun c => ⟨rfl, rfl, fun r => ?_, fun _ => rfl, fun _ => rfl, rfl, rfl, fun _ => rfl,
    fun _ => rfl, rfl, rfl, fun _ => rfl⟩⟩
  exact ite_self _

end Sys2Proof.Machine
end

section
/-!
PROOFS. What the dispatcher's own words change (R259, R332, R342): counters, fault records and log entries leave every core but
its sleep, and every ended set, as they were.
-/

namespace Sys2Proof.Machine
open Sys2Proof

/-- t differs from s in nothing that runs: the core that moves, every core but for what it sleeps on, the clusters and every
partition's ended sets are those of s. -/
structure State.Booked (s t : State) : Prop where
  cur : t.cur = s.cur
  core : ∀ c, ∃ sl, t.core c = { s.core c with sleep := sl }
  clusters : t.clusters = s.clusters
  ended : ∀ p, (t.part p).ended = (s.part p).ended

namespace State.Booked

theorem refl (s : State) : s.Booked s := ⟨rfl, fun c => ⟨(s.core c).sleep, rfl⟩, rfl, fun _ => rfl⟩
theorem trans {s t u : State} (h : s.Booked t) (g : t.Booked u) : s.Booked u := by
  refine ⟨g.cur.trans h.cur, fun c => ?_, g.clusters.trans h.clusters, fun p => (g.ended p).trans (h.ended p)⟩
  obtain ⟨a, ha⟩ := h.core c
  obtain ⟨b, hb⟩ := g.core c
  exact ⟨b, by rw [hb, ha]⟩
/-- A state with the same cores, clusters and partitions. -/
theorem of_eq {s t : State} (h1 : t.cur = s.cur) (h2 : t.cores = s.cores) (h3 : t.clusters = s.clusters) (h4 : t.parts = s.parts) :
    s.Booked t :=
  ⟨h1, fun c => ⟨(s.core c).sleep, by simp [State.core, h2]⟩, h3, fun p => by simp [State.part, h4]⟩
theorem foldl {β : Type} {f : State → β → State} (l : List β) (h : ∀ (s : State), ∀ b ∈ l, s.Booked (f s b)) (s : State) :
    s.Booked (l.foldl f s) := by
  induction l generalizing s with
  | nil => exact refl s
  | cons b t ih => exact (h s b (by simp)).trans (ih (fun s x hx => h s x (by simp [hx])) _)

theorem run {s t : State} (h : s.Booked t) (c : Nat) : (t.core c).run = (s.core c).run := by
  obtain ⟨a, e⟩ := h.core c; rw [e]
theorem mode {s t : State} (h : s.Booked t) (c : Nat) : (t.core c).mode = (s.core c).mode := by
  obtain ⟨a, e⟩ := h.core c; rw [e]
theorem pend {s t : State} (h : s.Booked t) (c : Nat) : (t.core c).pend = (s.core c).pend := by
  obtain ⟨a, e⟩ := h.core c; rw [e]
theorem eng {s t : State} (h : s.Booked t) (c : Nat) : (t.core c).eng = (s.core c).eng := by
  obtain ⟨a, e⟩ := h.core c; rw [e]

end State.Booked

/-- Changing a partition but for its ended sets. -/
theorem booked_upPart (s : State) (p : Nat) {f : Part → Part} (h : ∀ x, (f x).ended = x.ended) : s.Booked (s.upPart p f) := by
  refine ⟨rfl, fun c => ⟨(s.core c).sleep, rfl⟩, rfl, fun q => ?_⟩
  by_cases e : q = p
  · subst e; rw [part_upPart_same, h]
  · rw [part_upPart_ne _ _ e]
theorem State.Booked.upPart {s t : State} {p : Nat} {f : Part → Part} (h : s.Booked t) (hf : ∀ x, (f x).ended = x.ended) :
    s.Booked (t.upPart p f) := h.trans (booked_upPart t p hf)
theorem booked_setPart {s : State} {p : Nat} {x : Part} (h : x.ended = (s.part p).ended) : s.Booked (s.setPart p x) := by
  refine ⟨rfl, fun c => ⟨(s.core c).sleep, rfl⟩, rfl, fun q => ?_⟩
  by_cases e : q = p
  · subst e; rw [part_setPart_same, h]
  · rw [part_setPart_ne _ _ e]
theorem mget_map_snd {α : Type} (d : α) (m : Map α) (f : Nat → α → α) (k : Nat) (hd : f k d = d) :
    mget d (m.map (fun x => (x.1, f x.1 x.2))) k = f k (mget d m k) := by
  induction m with
  | nil => exact hd.symm
  | cons x t ih =>
    obtain ⟨a, v⟩ := x
    by_cases h : a = k
    · subst h; simp [mget, mfind]
    · simpa [mget, mfind, h] using ih
theorem probe_eq (k : Core) (e : Env) (m n : Mem) : ∃ sl, k.probe e m n = { k with sleep := sl } := by
  unfold Core.probe
  split
  · exact ⟨_, rfl⟩
  · exact ⟨k.sleep, rfl⟩
theorem core_setMem (s : State) (m : Mem) (c : Nat) : (s.setMem m).core c = (s.core c).probe (s.env c) s.mem m :=
  mget_map_snd Core.reset s.cores (fun c k => k.probe (s.env c) s.mem m) c rfl
theorem booked_setMem (s : State) (m : Mem) : s.Booked (s.setMem m) := by
  refine ⟨rfl, fun c => ?_, rfl, fun _ => rfl⟩
  rw [core_setMem]
  exact probe_eq _ _ _ _
theorem booked_irq (s : State) (n : Nat) : s.Booked (s.irq n) := .of_eq rfl rfl rfl rfl
theorem booked_unrecorded (s : State) (p : Nat) : s.Booked (s.unrecorded p) := by
  unfold State.unrecorded
  split
  · exact .refl s
  · refine .trans ?_ (booked_irq _ _)
    exact booked_upPart s p (fun _ => rfl)
theorem booked_logLost (s : State) (p : Nat) : s.Booked (s.logLost p) := by
  unfold State.logLost
  split
  · exact .refl s
  · refine .trans ?_ (booked_irq _ _)
    exact booked_upPart s p (fun _ => rfl)
theorem booked_later (s : State) (p : Nat) (d : Duty) : s.Booked (s.later p d) := booked_upPart s p (fun _ => rfl)
theorem booked_tryRecord {s t : State} {p : Nat} {ds : List W64} {u : Option FaultRec} (h : s.tryRecord p ds u = some t) : s.Booked t := by
  unfold State.tryRecord at h
  simp only [] at h
  split at h
  · cases h; exact booked_unrecorded s p
  · split at h
    · cases h
    · cases h; exact booked_unrecorded s p
    · split at h
      · cases h; exact booked_unrecorded s p
      · split at h
        · cases h; exact booked_setMem _ _
        · split at h
          · cases h
          · cases h; exact booked_unrecorded s p
          · cases h; exact (booked_setMem _ _).upPart (fun _ => rfl)
theorem booked_getD {s d : State} {o : Option State} (h : ∀ t, o = some t → s.Booked t) (hd : s.Booked d) : s.Booked (o.getD d) := by
  cases o with
  | none => exact hd
  | some t => exact h t rfl
theorem booked_faultRecord (s : State) (p : Nat) (ds : List W64) (u : Option FaultRec) : s.Booked (s.faultRecord p ds u) :=
  booked_getD (fun _ h => booked_tryRecord h) (booked_later s p _)
theorem booked_bareRecord (s : State) (p cause : Nat) (a i l : W64) : s.Booked (s.bareRecord p cause a i l) :=
  booked_faultRecord s p _ none
theorem booked_charge {s t : State} {p line : Nat} {a : AgentKey} {b : Bool} (h : s.charge p line a b = some t) : s.Booked t := by
  unfold State.charge at h
  simp only [] at h
  split at h
  · cases h; exact .refl s
  · split at h
    · cases h; exact booked_setPart rfl
    · cases h
theorem booked_countCe (s : State) {w : ProtWord} (h : w.arr = .memory) : s.Booked (s.countCe w) := by
  unfold State.countCe
  rw [h]
  exact .of_eq rfl rfl rfl rfl
theorem memWord_memory {pa n : Nat} {w : ProtWord} (h : memWord pa n w = true) : w.arr = .memory := by
  simp only [memWord, Bool.and_eq_true, beq_iff_eq] at h
  exact h.1
theorem booked_corrMem (s : State) (pa n : Nat) : s.Booked (s.corrMem pa n) := by
  unfold State.corrMem State.correct
  split
  · exact .refl s
  · refine .trans ?_ (.foldl (f := State.countCe) (s.weak.filter (memWord pa n))
      (fun u w hw => booked_countCe u (memWord_memory (List.mem_filter.mp hw).2)) _)
    exact .of_eq rfl rfl rfl rfl
theorem booked_tryBump {s t : State} {p : Nat} {va l : W64} {op : CtrOp} (h : s.tryBump p va l op = some t) : s.Booked t := by
  unfold State.tryBump at h
  simp only [] at h
  split at h
  · cases h; exact .refl s
  · split at h
    · cases h
    · cases h; exact booked_bareRecord ..
    · split at h
      · cases h; exact booked_bareRecord ..
      · split at h
        · cases h; exact booked_bareRecord ..
        · split at h
          · cases h; exact booked_bareRecord ..
          · rename_i hc
            cases h
            exact ((booked_charge hc).trans (booked_corrMem _ _ _)).trans (booked_setMem _ _)
theorem booked_bump (s : State) (p : Nat) (va l : W64) (op : CtrOp) : s.Booked (s.bump p va l op) :=
  booked_getD (fun _ h => booked_tryBump h) (booked_later s p _)
theorem booked_ctr (s : State) (p : Nat) (l : Launch) (op : CtrOp) : s.Booked (s.ctr p l op) := booked_bump s p _ _ op
theorem booked_upLaunch (s : State) (p : Nat) (r : LRef) (f : Launch → Launch) : s.Booked (s.upPart p (fun pt => pt.upLaunch r f)) :=
  booked_upPart s p (fun _ => rfl)
theorem booked_launchEnd (s : State) (p : Nat) (r : LRef) : s.Booked (s.launchEnd p r) := by
  unfold State.launchEnd
  split
  · exact .refl s
  · split
    · exact ((booked_ctr s p _ _).trans (booked_bump _ _ _ _ _)).trans (booked_upLaunch _ _ _ _)
    · exact .refl s
theorem booked_addUndecl (s : State) (p c : Nat) (l : Launch) : s.Booked (s.addUndecl p c l) := by
  unfold State.addUndecl
  dsimp only
  split
  · exact .refl s
  · exact (booked_ctr s p _ _).trans (booked_upLaunch _ _ _ _)
theorem booked_closeDescs (s : State) (c keep : Nat) : s.Booked (s.closeDescs c keep) := booked_setMem s _
theorem booked_corrAll (s : State) (l : List (Nat × Nat)) : s.Booked (s.corrAll l) := by
  unfold State.corrAll
  split
  · exact .refl s
  · exact .foldl (f := fun u r => u.corrMem r.1 r.2) l (fun u r _ => booked_corrMem u r.1 r.2) s
theorem booked_corrVa (s : State) (e : Env) (n : Need) (va : W64) (m : Nat) : s.Booked (s.corrVa e n va m) := by
  unfold State.corrVa
  split
  · exact .refl s
  · split
    · exact booked_corrMem s _ _
    · exact .refl s
theorem booked_cancels (s : State) (p : Nat) (l : Launch) (n : Nat) : s.Booked (if n = 0 then s else s.ctr p l (.cancel n)) := by
  split
  · exact .refl s
  · exact booked_ctr ..
theorem booked_dropUnstarted (s : State) (p : Nat) (r : LRef) : s.Booked (s.dropUnstarted p r) := by
  unfold State.dropUnstarted
  split
  · exact .refl s
  · split
    · exact .refl s
    · refine .trans ?_ (booked_launchEnd _ _ _)
      exact .trans (booked_cancels ..) (booked_upLaunch _ _ _ _)

/-! ### The order log (R340 to R344) -/

theorem booked_tryLog {s t : State} {p : Nat} {va d0 d1 : W64} (h : s.tryLog p va d0 d1 = some t) : s.Booked t := by
  unfold State.tryLog at h
  split at h
  · cases h
  · cases h; exact booked_logLost s p
  · cases h; exact .of_eq rfl rfl rfl rfl
theorem booked_logWrite (s : State) (p kind lc : Nat) (v : W64) : s.Booked (s.logWrite p kind lc v) := by
  unfold State.logWrite
  dsimp only
  split
  · split
    · exact booked_setPart rfl
    · refine .trans ?_ (booked_getD (fun _ h => booked_tryLog h) (booked_later _ p _))
      refine booked_setPart ?_
      split <;> rfl
  · exact .refl s
theorem booked_logHead (s : State) (p n : Nat) : s.Booked (s.logHead p n).1 := by
  induction n generalizing s with
  | zero => exact .refl s
  | succ n ih =>
    have hd (u : State) : u.Booked (u.setPart p (u.part p).diverged) := booked_setPart rfl
    unfold State.logHead
    dsimp only
    split
    · exact .refl s
    · split
      · exact .refl s
      · exact (hd s).trans (booked_logLost _ p)
      · split
        · exact (hd s).trans (booked_logLost _ p)
        · rename_i x _ _
          split
          · exact booked_corrMem s _ _
          · refine .trans (.trans (booked_corrMem s x.pa 16) ?_) (ih _)
            exact booked_setPart ((booked_corrMem s _ _).ended p).symm
theorem booked_logAsk (s : State) (p kind lc : Nat) : s.Booked (s.logAsk p kind lc).1 := by
  unfold State.logAsk
  dsimp only
  split
  · have h := booked_logHead s p ((s.part p).logCap - (s.part p).pos)
    split
    · exact h
    · exact h
    · split
      · exact h.upPart (f := fun q => q.setPos (q.pos + 1)) (fun _ => rfl)
      · split
        · exact h.upPart (fun _ => rfl)
        · exact h
  · exact .refl s
theorem booked_acCount (s : State) (p i : Nat) : s.Booked (s.acCount p i) := booked_upPart s p (fun _ => rfl)
theorem booked_acLog (s : State) (p i kind : Nat) (v : W64) : s.Booked (s.acLog p i kind v) :=
  (booked_logWrite s p kind _ v).trans (booked_acCount _ p i)
theorem booked_tryDuty {s t : State} {p : Nat} {d : Duty} (h : s.tryDuty p d = some t) : s.Booked t := by
  cases d with
  | ctr va launch op => exact booked_tryBump h
  | record ds unit => exact booked_tryRecord h
  | log va d0 d1 => exact booked_tryLog h
theorem booked_tryDuties (s : State) (p : Nat) : s.Booked (s.tryDuties p) := by
  unfold State.tryDuties
  refine .trans ?_ (.foldl (f := fun u d => (u.tryDuty p d).getD (u.later p d)) _ (fun u d _ =>
    booked_getD (fun _ h => booked_tryDuty h) (booked_later u p d)) _)
  exact booked_upPart s p (fun _ => rfl)

end Sys2Proof.Machine
end

section
/-!
PROOFS. What a step does (O4): the core that moves is the one the schedule names, whatever the passing of time and the retries do.
-/

namespace Sys2Proof.Machine
open Sys2Proof

/-! ### The core that moves stays while time passes -/

theorem foldl_cur {β : Type} {f : State → β → State} (h : ∀ s b, (f s b).cur = s.cur) (l : List β) (s : State) :
    (l.foldl f s).cur = s.cur := foldl_keeps (g := State.cur) h l s
theorem boundary_cur (s : State) (d : Nat) : (s.boundary d).cur = s.cur := rfl
theorem setClock_cur (s : State) (d t : Nat) : (s.setClock d t).cur = s.cur := rfl
theorem latchPulses_cur (s : State) (d : Nat) : (s.latchPulses d).cur = s.cur := by
  unfold State.latchPulses
  refine foldl_cur (fun t kn => ?_) _ _
  split <;> rfl
theorem passDie_cur (n : Nat) (s : State) (d : Nat) : (s.passDie n d).cur = s.cur := by
  have h1 : (if (s.die d).cyc / 64 < ((s.die d).cyc + n) / 64 then s.boundary d else s).cur = s.cur := by
    split
    · exact boundary_cur s d
    · rfl
  unfold State.passDie
  dsimp only
  rw [setClock_cur]
  split
  · rw [latchPulses_cur, setClock_cur, h1]
  · exact h1
theorem reachSlot_cur (s : State) (q : Nat) : (s.reachSlot q).cur = s.cur := by
  unfold State.reachSlot
  dsimp only
  split
  · rfl
  · split
    · rfl
    · refine (foldl_cur ?_ _ _).trans rfl
      exact fun _ _ => rfl
theorem pass_cur (s : State) (n : Nat) : (s.pass n).cur = s.cur :=
  (reachSlot_cur _ _).trans (foldl_cur (passDie_cur n) _ _)

/-! ### It stays while what waits is tried again -/

theorem booked_writeMem (s : State) (pa : Nat) (bs : List Byte) : s.Booked (s.writeMem pa bs) :=
  (booked_setMem s _).trans (.of_eq rfl rfl rfl rfl)
theorem booked_setCell (s : State) (pa : Nat) (F : Int) (st : BitVec 4) : s.Booked (s.setCell pa F st) := booked_writeMem s pa _
/-- A bank's operation on its word changes memory and its bookkeeping alone (R296). -/
theorem booked_perform {s t : State} {r : BankReq} {v : W64} {f : Fl} (h : s.perform r = .ok (t, v, f)) : s.Booked t := by
  unfold State.perform at h
  dsimp only at h
  split at h
  · cases h
  · have hc := booked_corrMem s r.pa (bankBytes r.op r.ty)
    split at h
    · cases h
    · rename_i s1 hs
      have h1 : s.Booked s1 := by
        split at hs
        · exact hc.trans (booked_charge hs)
        · cases hs; exact hc
      split at h
      · cases h; exact h1.trans (booked_setCell ..)
      · cases h
        split
        · exact h1.trans (booked_setCell ..)
        · exact h1
      · cases h
        split
        · exact h1.trans (booked_writeMem ..)
        · exact h1
theorem booked_bankLog (s : State) (r : BankReq) (kind : Nat) (v : W64) : s.Booked (s.bankLog r kind v) := by
  unfold State.bankLog
  split
  · exact booked_logWrite ..
  · exact booked_acLog ..
theorem booked_acPerformed (s : State) (i : Nat) (r : BankReq) (x : Except Stop W64) : s.Booked (s.acPerformed i r x) := by
  unfold State.acPerformed
  dsimp only
  split <;> exact .of_eq rfl rfl rfl rfl
theorem bankStep_cur (s : State) (b : Nat) : (s.bankStep b).cur = s.cur := by
  unfold State.bankStep
  split
  · rfl
  · rename_i r rest _
    dsimp only
    have go (u : State) (x : Except Stop W64) : (if r.agent < 256 then u.upCore r.agent (fun k => k.markBank r.ser r.idx x)
        else u.acPerformed (r.agent - 256) r x).cur = u.cur := by
      split
      · rfl
      · exact (booked_acPerformed ..).cur
    split
    · exact go _ _
    · rename_i s1 v f hp
      have hs1 : s1.cur = s.cur := (booked_perform hp).cur
      have hs2 : (if r.agent < 256 then s1.upCore r.agent (fun k => k.flags f) else s1).cur = s.cur := by
        split <;> exact hs1
      rw [go]
      generalize (if r.agent < 256 then s1.upCore r.agent (fun k => k.flags f) else s1) = s2 at hs2 ⊢
      split
      · split
        · exact hs2
        · exact (booked_bankLog ..).cur.trans hs2
      · exact hs2
theorem drainBank_cur (s : State) (b n : Nat) : (s.drainBank b n).cur = s.cur := by
  induction n generalizing s with
  | zero => rfl
  | succ n ih => exact (ih _).trans (bankStep_cur s b)
theorem bpTurn_cur (s : State) (i p : Nat) (op : BOp) (clr : Bool) : (s.bpTurn i p op clr).1.cur = s.cur := by
  unfold State.bpTurn
  split
  · rfl
  · dsimp only
    split
    · exact ((booked_logAsk s p _ _).trans (booked_acCount _ p i)).cur
    · exact (booked_logAsk s p _ _).cur
theorem bankGo_cur (s : State) (i : Nat) (w : BpWait) : (s.bankGo i w).cur = s.cur := by
  unfold State.bankGo
  dsimp only
  split
  · rfl
  · split
    · rfl
    · split
      · rfl
      · split
        · rfl
        · split
          · rfl
          · rfl
          · split
            · exact bpTurn_cur ..
            · split
              · rfl
              · have hs {l : List (BEl × Nat)} {f : State → BEl × Nat → State} {u : State} (hf : ∀ s x, (f s x).cur = s.cur)
                    (hu : u.cur = s.cur) : (l.foldl f u).cur = s.cur := (foldl_cur hf l u).trans hu
                split
                · exact hs (fun _ _ => rfl) (bpTurn_cur ..)
                · exact (foldl_cur (fun u b => drainBank_cur u b _) _ _).trans (hs (fun _ _ => rfl) (bpTurn_cur ..))
theorem booked_newLaunch (s : State) (p : Nat) (r : LRef) (rc : Record) (g : W64) (h : Option (W64 × Nat × Nat)) :
    s.Booked (s.newLaunch p r rc g h) := by
  have h1 : s.Booked (s.upPart p (fun pt => pt.addLaunch r rc g h)) := by
    refine booked_upPart s p (fun x => ?_)
    unfold Part.addLaunch
    split <;> rfl
  unfold State.newLaunch
  dsimp only
  split
  · split
    · exact h1.trans (booked_dropUnstarted ..)
    · exact h1
  · exact h1
theorem booked_upApp (s : State) (i : Nat) (f : AppCore → AppCore) : s.Booked (s.upApp i f) := .of_eq rfl rfl rfl rfl
theorem booked_acXlate (s : State) (i : Nat) (need : Need) (va : W64) (n : Nat) : s.Booked (s.acXlate i need va n).2 := by
  unfold State.acXlate
  dsimp only
  split
  · exact .refl s
  · exact .of_eq rfl rfl rfl rfl
theorem booked_launchGo (s : State) (i : Nat) (va : W64) : s.Booked (s.launchGo i va) := by
  unfold State.launchGo
  dsimp only
  have hx := booked_acXlate s i needR va 64
  split
  · exact booked_upApp ..
  · split
    · exact booked_upApp ..
    · split
      · exact booked_upApp ..
      · rename_i he
        rw [he] at hx
        exact hx.trans (booked_upApp ..)
      · rename_i l s1 he
        rw [he] at hx
        split
        · exact booked_upApp ..
        · split
          · exact hx.trans (booked_upApp ..)
          · have hc := hx.trans (booked_corrAll s1 l)
            split
            · exact hc.trans (booked_upApp ..)
            · refine .trans (.trans (.trans (.trans hc ?_) (booked_newLaunch ..)) (booked_upApp ..)) (booked_upApp ..)
              exact booked_setPart rfl
theorem acCyc_cur {s : State} {i c : Nat} {r : State × W64} (h : s.acCyc i c = some r) : r.1.cur = s.cur := by
  have hl := booked_logAsk s (s.appCore i).part 1 (s.acLc (s.appCore i).part i)
  unfold State.acCyc at h
  dsimp only at h
  split at h
  · cases h
  · cases h; exact (hl.trans (booked_acCount ..)).cur
  · cases h; exact (hl.trans (booked_acLog ..)).cur
theorem caCyc_cur (s : State) (i c : Nat) : (s.caCyc i c).cur = s.cur := by
  unfold State.caCyc
  split
  · rfl
  · exact acCyc_cur ‹_›
theorem acRetry_cur (s : State) (i : Nat) : (s.acRetry i).cur = s.cur := by
  unfold State.acRetry
  dsimp only
  have h1 : (match (s.appCore i).bpWait with | some w => s.bankGo i w | none => s).cur = s.cur := by
    split
    · exact bankGo_cur ..
    · rfl
  have h2 (u : State) : (match (s.appCore i).lpWait with | some va => u.launchGo i va | none => u).cur = u.cur := by
    split
    · exact (booked_launchGo ..).cur
    · rfl
  have h := (h2 _).trans h1
  split
  · split
    · exact (caCyc_cur _ _ _).trans h
    · exact h
  · exact h
theorem retryAll_cur (s : State) : s.retryAll.cur = s.cur :=
  (foldl_cur acRetry_cur _ _).trans (foldl_cur (fun u p => (booked_tryDuties u p).cur) _ _)

/-- The core that moves is the one that the agenda names (log entry 2). -/
theorem moving_cur {s : State} {c : Nat} {t : List Act1} (h : s.agenda = .run c :: t) : s.moving.cur = c := by
  unfold State.moving State.onward
  rw [h]
  exact (retryAll_cur _).trans (pass_cur _ _)
/-- A running core that is awake and does not stop fetches (R20). -/
theorem feTodo_fetch {s : State} {c : Nat} (hm : (s.core c).mode = .running) (hs : (s.core c).sleep = .awake)
    (hh : (s.core c).halting = none) : s.feTodo c = .fetch c := by
  simp [State.feTodo, hm, hs, hh]
theorem codeRead_of_no_weak {s : State} (c : Nat) (h : s.weak = []) : s.codeRead c = s := by
  have hc (e : Env) (n : Need) (va : W64) (m : Nat) : s.corrVa e n va m = s := by simp [State.corrVa, h]
  unfold State.codeRead
  dsimp only
  rw [hc]
  split
  · rw [hc, ite_self]
  · rfl

/-- Settles O4: a step follows `todo`; where it fetches an instruction, it is exec of that instruction. -/
theorem stepRunsTheDecodedInstruction : Obligations.StepRunsTheDecodedInstruction := by
  unfold Obligations.StepRunsTheDecodedInstruction
  refine ⟨fun s c i ht hf => ⟨?_, codeRead_of_no_weak c⟩, fun s c t ha hm hs hh => ⟨?_, moving_cur ha⟩, fun s i t ha hi => ?_⟩
  · simp only [step, ht, State.fetchRun, hf]
  · simp only [State.todo, ha, feTodo_fetch hm hs hh]
  · simp only [step, State.todo, ha, hi, if_true]

end Sys2Proof.Machine
end

section
/-!
PROOFS. Scalar results (O8): the model's arithmetic in terms of the signed and unsigned values of its operands (R102 to R105).
-/

namespace Sys2Proof.Machine
open Sys2Proof

/-! ### The values of R102 and R103 -/

theorem ofInt_sub (a b : Int) : BitVec.ofInt 64 (a - b) = BitVec.ofInt 64 a - BitVec.ofInt 64 b := by
  rw [Int.sub_eq_add_neg, BitVec.ofInt_add, BitVec.ofInt_neg, ← BitVec.sub_eq_add_neg]
theorem add_eq_ofNat (x y : W64) : x + y = BitVec.ofNat 64 (x.toNat + y.toNat) := by
  apply BitVec.eq_of_toNat_eq; simp
theorem sub_eq_ofInt (x y : W64) : x - y = BitVec.ofInt 64 (x.toNat - y.toNat) := by
  have h (z : W64) : BitVec.ofInt 64 z.toNat = z := by simp
  rw [ofInt_sub, h, h]
theorem and_eq_ofNat (x y : W64) : x &&& y = BitVec.ofNat 64 (x.toNat &&& y.toNat) := by simp
theorem or_eq_ofNat (x y : W64) : x ||| y = BitVec.ofNat 64 (x.toNat ||| y.toNat) := by simp
theorem xor_eq_ofNat (x y : W64) : x ^^^ y = BitVec.ofNat 64 (x.toNat ^^^ y.toNat) := by simp
theorem shiftLeft_eq_ofNat (x : W64) (n : Nat) : x <<< n = BitVec.ofNat 64 (x.toNat * 2 ^ n) := by
  apply BitVec.eq_of_toNat_eq; simp [Nat.shiftLeft_eq]
theorem shiftRight_eq_ofNat (x : W64) (n : Nat) : x >>> n = BitVec.ofNat 64 (x.toNat / 2 ^ n) := by
  apply BitVec.eq_of_toNat_eq
  have : x.toNat / 2 ^ n < 2 ^ 64 := Nat.lt_of_le_of_lt (Nat.div_le_self _ _) x.isLt
  rw [BitVec.toNat_ushiftRight, Nat.shiftRight_eq_div_pow, BitVec.toNat_ofNat, Nat.mod_eq_of_lt this]
theorem bit01_eq_ite {b : Bool} {p : Prop} [Decidable p] (h : b = decide p) : bit01 b = if p then 1 else 0 := by
  simp [bit01, h]
theorem sle_min (x y : W64) : (if x.sle y then x else y) = BitVec.ofInt 64 (min x.toInt y.toInt) := by
  rw [BitVec.sle_eq_decide]
  by_cases h : x.toInt ≤ y.toInt
  · simp [h, min_eq_left h]
  · simp [h, min_eq_right (Int.le_of_not_le h)]
theorem sle_max (x y : W64) : (if x.sle y then y else x) = BitVec.ofInt 64 (max x.toInt y.toInt) := by
  rw [BitVec.sle_eq_decide]
  by_cases h : x.toInt ≤ y.toInt
  · simp [h, max_eq_right h]
  · simp [h, max_eq_left (Int.le_of_not_le h)]
theorem ule_min (x y : W64) : (if x.ule y then x else y) = BitVec.ofNat 64 (min x.toNat y.toNat) := by
  rw [BitVec.ule_eq_decide]
  by_cases h : x.toNat ≤ y.toNat
  · simp [h, min_eq_left h]
  · simp [h, min_eq_right (Nat.le_of_not_le h)]
theorem ule_max (x y : W64) : (if x.ule y then y else x) = BitVec.ofNat 64 (max x.toNat y.toNat) := by
  rw [BitVec.ule_eq_decide]
  by_cases h : x.toNat ≤ y.toNat
  · simp [h, max_eq_right h]
  · simp [h, max_eq_left (Nat.le_of_not_le h)]
theorem mul_eq_ofNat (x y : W64) : x * y = BitVec.ofNat 64 (x.toNat * y.toNat) := by
  apply BitVec.eq_of_toNat_eq; simp
/-- REM is what truncated division leaves (R103). -/
theorem remS_eq (x y : W64) : remS x y = if y = 0 then x else BitVec.ofInt 64 (x.toInt.tmod y.toInt) := by
  unfold remS divS
  split
  · rfl
  · rw [Int.tmod_def, ofInt_sub, BitVec.ofInt_mul]
    simp
theorem remN_eq (x y : W64) : remN x y = if y = 0 then x else BitVec.ofNat 64 (x.toNat % y.toNat) := by
  unfold remN divN
  split
  · rfl
  · have hm : x.toNat / y.toNat * y.toNat ≤ x.toNat := Nat.div_mul_le_self _ _
    rw [sub_eq_iff_eq_add]
    apply BitVec.eq_of_toNat_eq
    have h := Nat.mod_add_div x.toNat y.toNat
    simp only [BitVec.toNat_add, BitVec.toNat_mul, BitVec.toNat_ofNat, Nat.add_mod_mod, Nat.mod_add_mod, Nat.mul_mod_mod]
    rw [h, Nat.mod_eq_of_lt x.isLt]

/-! ### Counting bits (R102) -/

theorem clzN_of_zero (n : Nat) : clzN n 0 = n := by
  induction n with
  | zero => rfl
  | succ n ih => simp [clzN, ih]
theorem clzN_eq_log2 {n v : Nat} (h : v ≠ 0) (hv : v < 2 ^ n) : clzN n v = n - 1 - Nat.log2 v := by
  induction n with
  | zero => omega
  | succ n ih =>
    rw [clzN]
    by_cases hn : v < 2 ^ n
    · have hb : v.testBit n = false := Nat.testBit_lt_two_pow hn
      have hl : Nat.log2 v < n := (Nat.log2_lt h).mpr hn
      rw [hb, if_neg (by decide), ih hn]; omega
    · have hb : v.testBit n = true := Nat.testBit_of_two_pow_le_and_two_pow_add_one_gt (by omega) hv
      have h1 : n ≤ Nat.log2 v := (Nat.le_log2 h).mpr (by omega)
      have h2 : Nat.log2 v < n + 1 := (Nat.log2_lt h).mpr hv
      rw [hb, if_pos rfl]; omega
theorem clz_eq (x : W64) : clzN 64 x.toNat = if x = 0 then 64 else 63 - Nat.log2 x.toNat := by
  split
  · subst_vars; exact clzN_of_zero 64
  · exact clzN_eq_log2 (fun h => ‹¬x = 0› (BitVec.eq_of_toNat_eq h)) x.isLt
theorem ctzN_eq_find (n v : Nat) : ctzN n v = ((List.range n).find? (fun j => v.testBit j)).getD n := by
  induction n generalizing v with
  | zero => rfl
  | succ n ih =>
    rw [ctzN, List.range_succ_eq_map, List.find?_cons, List.find?_map]
    by_cases h : v % 2 = 1
    · simp [h]
    · have hs : (fun j => v.testBit j) ∘ Nat.succ = fun j => (v / 2).testBit j := by
        funext j; simp [Nat.testBit_add_one]
      rw [if_neg h, ih, hs]
      simp only [Nat.testBit_zero, h, decide_false]
      cases (List.range n).find? (fun j => (v / 2).testBit j) <;> rfl
theorem popN_eq_filter (n v : Nat) : popN n v = ((List.range n).filter (fun j => v.testBit j)).length := by
  induction n generalizing v with
  | zero => rfl
  | succ n ih =>
    have hs : (fun j => v.testBit j) ∘ Nat.succ = fun j => (v / 2).testBit j := by
      funext j; simp [Nat.testBit_add_one]
    rw [popN, List.range_succ_eq_map, List.filter_cons, List.filter_map, hs, ih]
    rcases Nat.mod_two_eq_zero_or_one v with h | h <;> simp [h]
    omega

/-! ### Immediates (R51, R104, R105) -/

theorem signExtend_eq_ofInt {w : Nat} (x : BitVec w) : x.signExtend 64 = BitVec.ofInt 64 x.toInt := rfl
theorem addi_eq (x : W64) (i : BitVec 8) : x + i.signExtend 64 = BitVec.ofInt 64 (x.toInt + i.toInt) := by
  rw [signExtend_eq_ofInt, BitVec.ofInt_add, BitVec.ofInt_toInt]
theorem shift_imm (i : BitVec 6) : (i.setWidth 64).toNat % 64 = i.toNat := by
  have := i.isLt
  simp; omega
theorem slti_eq (x : W64) (i : BitVec 8) : x.slt (i.signExtend 64) = decide (x.toInt < i.toInt) := by
  rw [BitVec.slt_eq_decide, BitVec.toInt_signExtend_of_le (by decide)]
theorem movhi_eq (h : BitVec 22) (x : W64) : (h ++ x.setWidth 42 : W64) = BitVec.ofNat 64 (h.toNat * 2 ^ 42 + x.toNat % 2 ^ 42) := by
  apply BitVec.eq_of_toNat_eq
  have hx : x.toNat % 2 ^ 42 < 2 ^ 42 := Nat.mod_lt _ (by decide)
  have hs : h.toNat * 2 ^ 42 + x.toNat % 2 ^ 42 < 2 ^ 64 := by have := h.isLt; omega
  rw [BitVec.toNat_append, BitVec.toNat_setWidth, BitVec.toNat_ofNat, Nat.mod_eq_of_lt hs, Nat.shiftLeft_eq, Nat.mul_comm,
    Nat.two_pow_add_eq_or_of_lt hx]

/-! ### The instructions -/

/-- An instruction whose only effect is a scalar result completes with it (R102). -/
theorem aluRun_completes {i : Instr} {d : Sreg} {f : Core → W64} {s : State} {k : Core} {t lat : Nat} {v : W64} {o : Out}
    (h : s.feBegins i = some (k, t)) (ho : o = aluRun i d f s) (hl : feLat i = lat) (hv : f k = v) :
    o = .next (s.setCore s.cur ((k.result t lat d v).feDone (tokOf i) (t + lat))) := by
  subst ho hv hl
  exact feRun_core h rfl

/-- Settles O8: each instruction is `aluRun` of its value. -/
theorem scalarResults : Obligations.ScalarResults := by
  unfold Obligations.ScalarResults
  intro s i k t lat d v h hv
  cases i
  case add => cases hv; exact aluRun_completes (o := execAdd _ _ _ _ s) h rfl rfl (add_eq_ofNat _ _)
  case sub => cases hv; exact aluRun_completes (o := execSub _ _ _ _ s) h rfl rfl (sub_eq_ofInt _ _)
  case and => cases hv; exact aluRun_completes (o := execAnd _ _ _ _ s) h rfl rfl (and_eq_ofNat _ _)
  case or => cases hv; exact aluRun_completes (o := execOr _ _ _ _ s) h rfl rfl (or_eq_ofNat _ _)
  case xor => cases hv; exact aluRun_completes (o := execXor _ _ _ _ s) h rfl rfl (xor_eq_ofNat _ _)
  case shl => cases hv; exact aluRun_completes (o := execShl _ _ _ _ s) h rfl rfl (shiftLeft_eq_ofNat _ _)
  case shr => cases hv; exact aluRun_completes (o := execShr _ _ _ _ s) h rfl rfl (shiftRight_eq_ofNat _ _)
  case sra => cases hv; exact aluRun_completes (o := execSra _ _ _ _ s) h rfl rfl rfl
  case slt => cases hv; exact aluRun_completes (o := execSlt _ _ _ _ s) h rfl rfl (bit01_eq_ite BitVec.slt_eq_decide)
  case sltn => cases hv; exact aluRun_completes (o := execSltn _ _ _ _ s) h rfl rfl (bit01_eq_ite BitVec.ult_eq_decide)
  case seq => cases hv; exact aluRun_completes (o := execSeq _ _ _ _ s) h rfl rfl (bit01_eq_ite (by rw [Bool.beq_eq_decide_eq]; exact decide_eq_decide.mpr BitVec.toNat_eq))
  case sel => cases hv; exact aluRun_completes (o := execSel _ _ _ _ s) h rfl rfl rfl
  case min => cases hv; exact aluRun_completes (o := execMin _ _ _ _ s) h rfl rfl (sle_min _ _)
  case max => cases hv; exact aluRun_completes (o := execMax _ _ _ _ s) h rfl rfl (sle_max _ _)
  case minn => cases hv; exact aluRun_completes (o := execMinn _ _ _ _ s) h rfl rfl (ule_min _ _)
  case maxn => cases hv; exact aluRun_completes (o := execMaxn _ _ _ _ s) h rfl rfl (ule_max _ _)
  case mul => cases hv; exact aluRun_completes (o := execMul _ _ _ _ s) h rfl rfl (mul_eq_ofNat _ _)
  case mulh => cases hv; exact aluRun_completes (o := execMulh _ _ _ _ s) h rfl rfl rfl
  case mulhn => cases hv; exact aluRun_completes (o := execMulhn _ _ _ _ s) h rfl rfl rfl
  case div => cases hv; exact aluRun_completes (o := execDiv _ _ _ _ s) h rfl rfl rfl
  case divn => cases hv; exact aluRun_completes (o := execDivn _ _ _ _ s) h rfl rfl rfl
  case rem => cases hv; exact aluRun_completes (o := execRem _ _ _ _ s) h rfl rfl (remS_eq _ _)
  case remn => cases hv; exact aluRun_completes (o := execRemn _ _ _ _ s) h rfl rfl (remN_eq _ _)
  case clz => cases hv; exact aluRun_completes (o := execClz _ _ _ s) h rfl rfl (congrArg _ (clz_eq _))
  case ctz => cases hv; exact aluRun_completes (o := execCtz _ _ _ s) h rfl rfl (congrArg _ (ctzN_eq_find 64 _))
  case popc => cases hv; exact aluRun_completes (o := execPopc _ _ _ s) h rfl rfl (congrArg _ (popN_eq_filter 64 _))
  case addi => cases hv; exact aluRun_completes (o := execAddi _ _ _ _ s) h rfl rfl (addi_eq _ _)
  case andi => cases hv; exact aluRun_completes (o := execAndi _ _ _ _ s) h rfl rfl rfl
  case ori => cases hv; exact aluRun_completes (o := execOri _ _ _ _ s) h rfl rfl rfl
  case xori => cases hv; exact aluRun_completes (o := execXori _ _ _ _ s) h rfl rfl rfl
  case shli => cases hv; exact aluRun_completes (o := execShli _ _ _ _ s) h rfl rfl (by rw [shlV, shift_imm, shiftLeft_eq_ofNat])
  case shri => cases hv; exact aluRun_completes (o := execShri _ _ _ _ s) h rfl rfl (by rw [shrV, shift_imm, shiftRight_eq_ofNat])
  case srai => cases hv; exact aluRun_completes (o := execSrai _ _ _ _ s) h rfl rfl (by rw [sraV, shift_imm])
  case slti => cases hv; exact aluRun_completes (o := execSlti _ _ _ _ s) h rfl rfl (bit01_eq_ite (slti_eq _ _))
  case movi => cases hv; exact aluRun_completes (o := execMovi _ _ _ _ s) h rfl rfl rfl
  case movhi => cases hv; exact aluRun_completes (o := execMovhi _ _ _ _ s) h rfl rfl (movhi_eq _ _)
  all_goals cases hv

end Sys2Proof.Machine
end

section
/-!
PROOFS. Scratchpad and handle accesses of the FE (O14, O15, O17): the checks of an access, the fields of a handle, and images.
-/

namespace Sys2Proof.Machine
open Sys2Proof

/-! ### A body that works on its core -/

/-- A body on the core that completes. -/
theorem feCore_completes {i : Instr} {f : Nat → Core → Res Core} {s : State} {k q : Core} {t : Nat} {o : Out}
    (h : s.feBegins i = some (k, t)) (ho : o = feRun i (feCore f s.cur) s) (hf : f t k = .ok q) :
    o = .next (s.setCore s.cur (q.feDone (tokOf i) (t + feLat i))) := ho.trans (feRun_core h hf)
/-- A body on the core that stops and gives its core back raises its cause, with PCFE at the instruction (R100, R245). -/
theorem feCore_stops {i : Instr} {f : Nat → Core → Res Core} {s : State} {k : Core} {t : Nat} {x : Stop} {o : Out}
    (h : s.feBegins i = some (k, t)) (ho : o = feRun i (feCore f s.cur) s) (hf : f t k = .stop x k) :
    o = .next (s.feTraps k x) := by
  have hb : feCore f s.cur t (s.setCore s.cur k) = .stop x (s.setCore s.cur k) := by simp [feCore, hf, Res.map]
  rw [ho, feRun_stop h hb, upCore_setCore, State.feTraps]

/-! ### The checks of an FE access of the scratchpad (R110, R225) -/

section
variable {k : Core} {a : W64} {n t : Nat} {go : Nat → Res Core}

theorem padAccess_open (h : k.padOpen a n = true) : padAccess k a n go = go a.toNat := by
  simp only [Core.padOpen, Bool.and_eq_true, decide_eq_true_eq, Bool.not_eq_true'] at h
  obtain ⟨⟨ha, hr⟩, ho⟩ := h
  have hs : padStop a n = none := by
    rw [padStop, if_neg (by simpa using ha), if_neg (by simp only [padSize]; omega)]
  simp [padAccess, hs, ho]
theorem padAccess_align (h : a.toNat % n ≠ 0) : padAccess k a n go = .stop ⟨.align, .fe, a, 0⟩ k := by
  simp [padAccess, padStop, h]
theorem padAccess_range (h : a.toNat % n = 0) (hr : padSize - n < a.toNat) :
    padAccess k a n go = .stop ⟨.handle, .fe, a, 0⟩ k := by
  simp [padAccess, padStop, h, hr]
theorem padOpen_of_padReadable (h : k.padReadable t a n = true) : k.padOpen a n = true := by
  simp only [Core.padReadable, Bool.and_eq_true] at h
  exact h.1.1
/-- A read that nothing stops gives the bytes as an instruction of its cycle finds them, and corrects what it reads (R37, R421). -/
theorem padReadAt_readable {next : Core → List Byte → Res Core} (h : k.padReadable t a n = true) :
    padReadAt k t a.toNat n next = next (k.corrPad [(a.toNat, n)]) (rdN (k.padAt t) a.toNat n) := by
  simp only [Core.padReadable, Bool.and_eq_true, Option.isNone_iff_eq_none] at h
  obtain ⟨⟨-, hb⟩, he⟩ := h
  simp [padReadAt, hb, he]

end

theorem padAddr_eq (k : Core) (a : Sreg) (imm : BitVec 8) : padAddr k a imm = k.getS a + BitVec.ofInt 64 (8 * imm.toInt) := by
  rw [padAddr, signExtend_eq_ofInt, Int.mul_comm, BitVec.ofInt_mul]; rfl
theorem imgAddr_eq (k : Core) (a : Sreg) (off : BitVec 8) : imgAddr k a off = k.getS a + BitVec.ofNat 64 (32 * off.toNat) := by
  have h : off.setWidth 64 * 32 = BitVec.ofNat 64 (32 * off.toNat) := by
    apply BitVec.eq_of_toNat_eq
    have := off.isLt
    simp; omega
  rw [imgAddr, h]

/-- Settles O14: an open address gives the access of LDS or STS, any other the trap of its check. -/
theorem scratchpadLoadsAndStores : Obligations.ScratchpadLoadsAndStores := by
  unfold Obligations.ScratchpadLoadsAndStores
  intro s tok d a imm k t x
  have hx : padAddr k a imm = x := padAddr_eq k a imm
  refine ⟨fun h => ⟨fun hr => ?_, fun ha => ?_, fun ha hr => ?_⟩, fun h => ⟨fun ho => ?_, fun ha => ?_, fun ha hr => ?_⟩⟩
  · exact feCore_completes (o := execLds tok d a imm s) h rfl
      (by rw [hx, padAccess_open (padOpen_of_padReadable hr), padReadAt_readable hr]; rfl)
  · exact feCore_stops (o := execLds tok d a imm s) h rfl (by rw [hx, padAccess_align ha])
  · exact feCore_stops (o := execLds tok d a imm s) h rfl (by rw [hx, padAccess_range ha hr])
  · exact feCore_completes (o := execSts tok d a imm s) h rfl (by rw [hx, padAccess_open ho])
  · exact feCore_stops (o := execSts tok d a imm s) h rfl (by rw [hx, padAccess_align ha])
  · exact feCore_stops (o := execSts tok d a imm s) h rfl (by rw [hx, padAccess_range ha hr])

/-! ### What an FE instruction's end leaves (R24, R25) -/

@[simp] theorem clearBad_r (k : Core) (f : ProtArr → Bool) (lo n : Nat) : (k.clearBad f lo n).r = k.r := by
  unfold Core.clearBad; split <;> rfl
@[simp] theorem corrects_r (k : Core) (f : ProtArr → Bool) (lo n : Nat) : (k.corrects f lo n).r = k.r := by
  unfold Core.corrects; split <;> rfl
@[simp] theorem signal_r (k : Core) (d : Dir) (n : Nat) : (k.signal d n).r = k.r := by
  unfold Core.signal Core.pushTok
  split
  · exact clearBad_r _ _ _ _
  · rfl
@[simp] theorem signals_r (k : Core) (st : Strm) (tok : Tok) (n : Nat) : (k.signals st tok n).r = k.r := by
  unfold Core.signals
  dsimp only
  split <;> split <;> simp
@[simp] theorem feDone_r (k : Core) (tok : Tok) (n : Nat) : (k.feDone tok n).r = k.r := by
  unfold Core.feDone
  split
  · exact signals_r _ _ _ _
  · rfl
@[simp] theorem getS_feDone (k : Core) (tok : Tok) (n : Nat) (r : Sreg) : (k.feDone tok n).getS r = k.getS r := by simp [Core.getS]
@[simp] theorem getH_feDone (k : Core) (tok : Tok) (n : Nat) (h : Hreg) : (k.feDone tok n).getH h = k.getH h := by simp [Core.getH]
@[simp] theorem getS_corrects (k : Core) (f : ProtArr → Bool) (lo n : Nat) (r : Sreg) : (k.corrects f lo n).getS r = k.getS r := by
  simp [Core.getS]
@[simp] theorem getH_corrects (k : Core) (f : ProtArr → Bool) (lo n : Nat) (h : Hreg) : (k.corrects f lo n).getH h = k.getH h := by
  simp [Core.getH]
@[simp] theorem getSpill_corrects (k : Core) (f : ProtArr → Bool) (lo n j : Nat) : (k.corrects f lo n).getSpill j = k.getSpill j := by
  simp [Core.getSpill]

/-- Reading a handle none of whose words is uncorrectable corrects it and goes on (R420, R421). -/
theorem handleRead_sound {k : Core} {h : Hreg} (go : Core → Res Core) (hb : (k.handleBad h).isNone = true) :
    handleRead k h go = go (k.corrects isHandle (4 * h.toNat) 4) := by
  rw [handleRead, Option.isNone_iff_eq_none.mp hb]
theorem spillRead_sound {k : Core} {n m : Nat} (go : Core → Res Core) (hb : (k.spillBad n m).isNone = true) :
    spillRead k n m go = go (k.corrects isSpill n m) := by
  rw [spillRead, Option.isNone_iff_eq_none.mp hb]

/-! ### Writes that fall due, one by one -/

/-- What no pending write of a list changes, and no wake of a WAITA, all of them leave. -/
theorem applyAll_keeps {β : Type} {g : Core → β} (hs : ∀ k sl, g { k with sleep := sl } = g k) {ds : List Due}
    (h : ∀ d ∈ ds, ∀ k : Core, g (k.apply d) = g k) (k : Core) : g (Core.applyAll ds k) = g k := by
  induction ds generalizing k with
  | nil => rfl
  | cons d t ih =>
    rw [Core.applyAll, ih (fun x hx => h x (by simp [hx]))]
    split
    · exact (hs _ _).trans (h d (by simp) k)
    · exact h d (by simp) k
/-- What no pending write that satisfies a test changes, making those writes leaves. -/
theorem flushIf_keeps {β : Type} {g : Core → β} (hs : ∀ k sl, g { k with sleep := sl } = g k)
    (he : ∀ k d, g { k with eng := { k.eng with due := d } } = g k) {k : Core} {p : Due → Bool}
    (h : ∀ d ∈ k.eng.due, p d = true → ∀ q : Core, g (q.apply d) = g q) : g (k.flushIf p) = g k := by
  rw [Core.flushIf, applyAll_keeps hs (fun d hd => h d (List.mem_filter.mp hd).1 (List.mem_filter.mp hd).2), he]
/-- A pending write of a handle leaves the scalars and the other handles. -/
theorem ofH_wr {h : Hreg} {n : Nat} {d : Due} (hp : Due.ofH h n d = true) : ∃ v, d.wr = .h h v := by
  unfold Due.ofH at hp
  split at hp
  · rename_i x v hw
    simp only [Bool.and_eq_true, beq_iff_eq] at hp
    exact ⟨v, by rw [hw, hp.1]⟩
  · cases hp
theorem ofS_wr {r : Sreg} {n : Nat} {d : Due} (hp : Due.ofS r n d = true) : ∃ v, d.wr = .s r v := by
  unfold Due.ofS at hp
  split at hp
  · rename_i x v hw
    simp only [Bool.and_eq_true, beq_iff_eq] at hp
    exact ⟨v, by rw [hw, hp.1]⟩
  · cases hp
theorem getS_flushIf_ofH (k : Core) (h : Hreg) (n : Nat) (r : Sreg) : (k.flushIf (Due.ofH h n)).getS r = k.getS r :=
  flushIf_keeps (g := fun q => q.getS r) (fun _ _ => rfl) (fun _ _ => rfl) (fun d _ hp q => by
    obtain ⟨v, hw⟩ := ofH_wr hp
    simp [Core.apply, hw])
theorem getH_flushIf_ofH (k : Core) {h g : Hreg} (n : Nat) (e : g ≠ h) : (k.flushIf (Due.ofH h n)).getH g = k.getH g :=
  flushIf_keeps (g := fun q => q.getH g) (fun _ _ => rfl) (fun _ _ => rfl) (fun d _ hp q => by
    obtain ⟨v, hw⟩ := ofH_wr hp
    simp [Core.apply, hw, getH_setH_ne _ _ e])

/-! ### Handle fields (R111, R112) -/

/-- The model's field of a selector is that of R111. -/
theorem hField_of_fieldSpec {n lo w : Nat} {sgn : Bool} (h : fieldSpec n = some (lo, w, sgn)) :
    hField n = (lo, w) ∧ hSigned n = sgn ∧ lo + w ≤ 256 ∧ (sgn = true → w = 16) := by
  unfold fieldSpec at h
  split at h <;> cases h <;> decide
theorem hBits_eq_extractLsb (h : W256) (lo w : Nat) : hBits h lo w = (h.extractLsb' lo w).toNat := by
  simp [hBits, Nat.shiftRight_eq_div_pow]
/-- Replacing a field: its bits are the low bits of the value, and every other bit stays. -/
theorem getLsbD_hPut {h : W256} {lo w v j : Nat} (hw : lo + w ≤ 256) (hj : j < 256) :
    (hPut h lo w v).getLsbD j = if lo ≤ j ∧ j < lo + w then v.testBit (j - lo) else h.getLsbD j := by
  have hb : h.toNat - hBits h lo w * 2 ^ lo + v % 2 ^ w * 2 ^ lo =
      2 ^ lo * (2 ^ w * (h.toNat / 2 ^ lo / 2 ^ w) + v % 2 ^ w) + h.toNat % 2 ^ lo := by
    have h1 := Nat.div_add_mod h.toNat (2 ^ lo)
    have h2 := Nat.div_add_mod (h.toNat / 2 ^ lo) (2 ^ w)
    have h3 : h.toNat = 2 ^ lo * (2 ^ w * (h.toNat / 2 ^ lo / 2 ^ w)) + 2 ^ lo * hBits h lo w + h.toNat % 2 ^ lo := by
      rw [hBits, ← Nat.mul_add, h2, h1]
    rw [Nat.mul_add, Nat.mul_comm (hBits h lo w), Nat.mul_comm (v % 2 ^ w)]
    omega
  rw [hPut, BitVec.getLsbD_ofNat, hb, Nat.testBit_two_pow_mul_add _ (Nat.mod_lt _ (Nat.two_pow_pos _)),
    Nat.testBit_two_pow_mul_add _ (Nat.mod_lt _ (Nat.two_pow_pos _))]
  simp only [hj, decide_true, Bool.true_and, Nat.testBit_mod_two_pow]
  by_cases h1 : j < lo
  · simp [h1, show ¬lo ≤ j by omega, BitVec.getLsbD]
  · by_cases h2 : j - lo < w
    · simp [h1, h2, show lo ≤ j ∧ j < lo + w by omega]
    · rw [if_neg h1, if_neg h2, if_neg (by omega), Nat.testBit_div_two_pow, Nat.testBit_div_two_pow,
        show j - lo - w + w + lo = j by omega]
      rfl
theorem sext_sixteen (v : BitVec 16) : sext 16 v.toNat = v.toInt := by
  have := v.isLt
  simp only [sext, BitVec.toInt_eq_toNat_cond, Nat.mod_eq_of_lt this]
  split <;> split <;> omega
theorem setField_r (k : Core) (h : Hreg) (f : Nat) (v : W64) :
    (k.setField h f v).r = { k.r with h := mput nullH k.r.h h.toNat (hSet (k.getH h) f v) } := by
  unfold Core.setField
  dsimp only
  split <;> simp
@[simp] theorem getS_setField (k : Core) (h : Hreg) (f : Nat) (v : W64) (r : Sreg) : (k.setField h f v).getS r = k.getS r := by
  simp [Core.getS, setField_r]
theorem getH_setField_same (k : Core) (h : Hreg) (f : Nat) (v : W64) : (k.setField h f v).getH h = hSet (k.getH h) f v := by
  simp [Core.getH, setField_r]
theorem getH_setField_ne (k : Core) {h g : Hreg} (f : Nat) (v : W64) (e : g ≠ h) : (k.setField h f v).getH g = k.getH g := by
  have hn : g.toNat ≠ h.toNat := fun x => e (BitVec.eq_of_toNat_eq x)
  simp [Core.getH, setField_r, mget_mput_ne _ _ _ hn]
/-- HGET of a field: by its sign for a stride, else by zero (R111). -/
theorem hGet_eq {h : W256} {n lo w : Nat} {sgn : Bool} (hf : fieldSpec n = some (lo, w, sgn)) :
    hGet h n = if sgn then BitVec.ofInt 64 (h.extractLsb' lo w).toInt else BitVec.ofNat 64 (h.extractLsb' lo w).toNat := by
  obtain ⟨h1, h2, -, h3⟩ := hField_of_fieldSpec hf
  simp only [hGet, h1, h2, hBits_eq_extractLsb]
  cases sgn with
  | false => rfl
  | true => obtain rfl := h3 rfl; simp only [if_true, sext_sixteen]

/-- Settles O15: HSET puts its field by `getLsbD_hPut`, HGET reads it by `hGet_eq`. -/
theorem handleFieldsSetAndGet : Obligations.HandleFieldsSetAndGet := by
  unfold Obligations.HandleFieldsSetAndGet
  intro s tok hd a f k t lo w sgn hf h
  obtain ⟨hfield, -, hw, -⟩ := hField_of_fieldSpec hf
  refine ⟨fun hb => ?_, fun hb hs => ?_⟩
  · refine ⟨_, feCore_completes (o := execHset tok hd a f s) hb rfl rfl, by rw [core_setCore_same], fun j hj => ?_, fun g hg => ?_,
      fun r => ?_⟩
    · rw [core_setCore_same, getH_feDone, getH_setField_same, hSet, hfield, getLsbD_hPut hw hj]
      rfl
    · rw [core_setCore_same, getH_feDone, getH_setField_ne _ _ _ hg, getH_flushIf_ofH _ _ hg]
    · rw [core_setCore_same, getS_feDone, getS_setField, getS_flushIf_ofH]
  · exact feCore_completes (o := execHget tok hd a f s) hb rfl (by rw [handleRead_sound _ hs, hGet_eq hf, getH_corrects])

/-! ### Handle images (R114) -/

/-- Four spill slots, lowest double first (R33). -/
theorem spillImage_eq (k : Core) (n : Nat) :
    spillImage k n = k.getSpill (n + 3) ++ k.getSpill (n + 2) ++ k.getSpill (n + 1) ++ k.getSpill n := by
  have app {m : Nat} (x : BitVec m) (y : W64) : (x ++ y).toNat = x.toNat * 2 ^ 64 + y.toNat := by
    rw [BitVec.toNat_append, Nat.shiftLeft_eq, Nat.mul_comm, ← Nat.two_pow_add_eq_or_of_lt y.isLt]
  apply BitVec.eq_of_toNat_eq
  have h0 := (k.getSpill n).isLt
  have h1 := (k.getSpill (n + 1)).isLt
  have h2 := (k.getSpill (n + 2)).isLt
  have h3 := (k.getSpill (n + 3)).isLt
  rw [spillImage, app, app, app, BitVec.toNat_ofNat, Nat.mod_eq_of_lt (by omega)]
  omega
theorem hBits_double (h : W256) (j : Nat) : BitVec.ofNat 64 (hBits h (64 * j) 64) = h.extractLsb' (64 * j) 64 := by
  rw [hBits_eq_extractLsb, BitVec.ofNat_toNat, BitVec.setWidth_eq]

/-- Settles O17: each form reads its image, with the checks of its access, and writes it. -/
theorem handleImagesMove : Obligations.HandleImagesMove := by
  unfold Obligations.HandleImagesMove
  intro s tok hd a off n k t h x m
  have hx : imgAddr k a off = x := imgAddr_eq k a off
  refine ⟨fun hb => ⟨fun hr => ?_, fun ha => ?_, fun ha hr => ?_⟩, fun hb => ⟨fun ho hs => ?_, fun ha => ?_, fun ha hr => ?_⟩,
    fun hb hs => ?_, fun hb hs => ?_⟩
  · exact feCore_completes (o := execHld tok hd a off s) hb rfl
      (by rw [hx, padAccess_open (padOpen_of_padReadable hr), padReadAt_readable hr])
  · exact feCore_stops (o := execHld tok hd a off s) hb rfl (by rw [hx, padAccess_align ha])
  · exact feCore_stops (o := execHld tok hd a off s) hb rfl (by rw [hx, padAccess_range ha hr])
  · exact feCore_completes (o := execHst tok hd a off s) hb rfl
      (by rw [hx, padAccess_open ho, handleRead_sound _ hs, getH_corrects])
  · exact feCore_stops (o := execHst tok hd a off s) hb rfl (by rw [hx, padAccess_align ha])
  · exact feCore_stops (o := execHst tok hd a off s) hb rfl (by rw [hx, padAccess_range ha hr])
  · exact feCore_completes (o := execHldSpill tok hd n s) hb rfl
      (by rw [spillRead_sound _ hs, spillImage_eq]; simp only [getSpill_corrects]; rfl)
  · exact feCore_completes (o := execHstSpill tok hd n s) hb rfl
      (by rw [handleRead_sound _ hs]; simp only [hBits_double, getH_corrects]; rfl)

end Sys2Proof.Machine
end

section
/-!
PROOFS. The speculation states at decode (O21), reads of special registers (O26), and the end of a unit (O33).
-/

namespace Sys2Proof.Machine
open Sys2Proof

/-! ### Causes of decoding by the speculation state (R348, R349) -/

/-- An instruction that is neither privileged nor refused by its register number, and whose handles raise nothing, raises at
decode what the speculation state makes of it. -/
theorem decodeStop_of_specFate {k : Core} {i : Instr} (hp : privileged i = false) (hs : srIllegal i = false)
    (hc : k.carryCheck i = none) :
    (k.specFate i = .illegal → k.decodeStop i 0 = some ⟨.illegal, .fe, 0, 0⟩) ∧
    (k.specFate i = .side → k.decodeStop i 0 = some (stopSide .fe i 0)) := by
  constructor <;> intro h <;> simp only [Core.decodeStop, hp, hs, hc, h, Bool.false_eq_true, false_and, if_false] <;> rfl
/-- Such an instruction, when a live core does not wait to decode it, is ILLEGAL where its fate is. -/
theorem raises_illegal {s : State} {i : Instr} {body : Nat → State → Res State} {o : Out} (ho : o = feRun i body s)
    (hl : (s.core s.cur).live = true) (hw : (s.core s.cur).decodeWaits i = false) (hp : privileged i = false)
    (hs : srIllegal i = false) (hc : (s.core s.cur).carryCheck i = none) (hf : (s.core s.cur).specFate i = .illegal) :
    o = .next (raise s.cur ⟨.illegal, .fe, 0, 0⟩ s) :=
  ho.trans (feRun_decodeStop hl hw ((decodeStop_of_specFate hp hs hc).1 hf))
/-- Such an instruction, when a live core does not wait to decode it, raises SPEC.SIDE where its fate is. -/
theorem raises_side {s : State} {i : Instr} {body : Nat → State → Res State} {o : Out} (ho : o = feRun i body s)
    (hl : (s.core s.cur).live = true) (hw : (s.core s.cur).decodeWaits i = false) (hp : privileged i = false)
    (hs : srIllegal i = false) (hc : (s.core s.cur).carryCheck i = none) (hf : (s.core s.cur).specFate i = .side) :
    o = .next (raise s.cur (stopSide .fe i 0) s) :=
  ho.trans (feRun_decodeStop hl hw ((decodeStop_of_specFate hp hs hc).2 hf))
/-- With no handler active, the closed state refuses the instructions that need an open region. -/
theorem specFate_closed {k : Core} {i : Instr} (ha : k.ha = false) (hst : k.spec.st = .closed) :
    k.specFate i = (match i with
      | .specGo .. => .illegal | .accept .. => .illegal | .specCommit .. => .illegal | .specAbort .. => .illegal
      | _ => .pass) := by
  unfold Core.specFate
  rw [ha, hst]
  rfl
/-- With no handler active, the body refuses SPEC.GO and stops what would have a side effect. -/
theorem specFate_body {k : Core} {i : Instr} (ha : k.ha = false) (hst : k.spec.st = .body) :
    k.specFate i = (match i with
      | .specGo .. => .illegal
      | _ => if bodySide i then .side else .pass) := by
  unfold Core.specFate
  rw [ha, hst]
  rfl
/-- With no handler active, the guess routine stops what R348 names. -/
theorem specFate_guessing {k : Core} {i : Instr} (ha : k.ha = false) (hst : k.spec.st = .guessing) :
    k.specFate i = if guessSide i then .side else .pass := by
  unfold Core.specFate
  rw [ha, hst]
  rfl
/-- A handler may not use the instructions of a region. -/
theorem specFate_handler {k : Core} {i : Instr} (ha : k.ha = true) (ho : specOwn i = true) : k.specFate i = .side := by
  unfold Core.specFate
  rw [if_pos ha, if_pos ho]
/-- SPEC.BEGIN is stopped by an active handler and in every state but the closed one. -/
theorem specFate_specBegin {k : Core} {tok : Tok} {hc hg : Hreg} {w : BitVec 3} {off : BitVec 28}
    (h : k.ha = true ∨ k.spec.st ≠ .closed) : k.specFate (.specBegin tok hc hg w off) = .side := by
  by_cases ha : k.ha = true
  · exact specFate_handler ha rfl
  · have hst := h.resolve_left ha
    simp only [Bool.not_eq_true] at ha
    cases e : k.spec.st with
    | closed => exact absurd e hst
    | guessing => exact (specFate_guessing ha e).trans (if_pos (Bool.or_true _))
    | body => exact specFate_body ha e
/-- What the check of its carry handles finds is raised by SPEC.BEGIN once no engine writes them. -/
theorem specBegin_carry {s : State} {tok : Tok} {hc hg : Hreg} {w : BitVec 3} {off : BitVec 28} {x : Stop}
    {body : Nat → State → Res State} {o : Out} (ho : o = feRun (.specBegin tok hc hg w off) body s)
    (hl : (s.core s.cur).live = true) (hw : (s.core s.cur).regWait (.specBegin tok hc hg w off) = false)
    (hx : (s.core s.cur).carryCheck (.specBegin tok hc hg w off) = some x) : o = .next (raise s.cur x s) := by
  refine ho.trans (feRun_decodeStop hl hw ?_)
  have hp : privileged (.specBegin tok hc hg w off) = false := rfl
  have hs : srIllegal (.specBegin tok hc hg w off) = false := rfl
  simp only [Core.decodeStop, hp, hs, hx, Bool.false_eq_true, false_and, if_false]
  rfl

/-- Settles O21: each instruction named raises at decode (`decodeStop_of_specFate`) what the speculation state makes of it, and
SPEC.BEGIN what its carry handles raise before that. -/
theorem speculationStateGates : Obligations.SpeculationStateGates := by
  unfold Obligations.SpeculationStateGates
  intro s tok d a hc hg w off lvl n
  dsimp only
  intro hl
  refine ⟨fun ha hst => ?_, fun ha hst => ?_, fun ha => ?_, fun hw => ?_⟩
  · exact ⟨raises_illegal (i := .specGo tok) (o := execSpecGo tok s) rfl hl rfl rfl rfl rfl (specFate_closed ha hst),
      raises_illegal (i := .specCommit tok) (o := execSpecCommit tok s) rfl hl rfl rfl rfl rfl (specFate_closed ha hst),
      raises_illegal (i := .specAbort tok) (o := execSpecAbort tok s) rfl hl rfl rfl rfl rfl (specFate_closed ha hst)⟩
  · exact ⟨raises_illegal (i := .specGo tok) (o := execSpecGo tok s) rfl hl rfl rfl rfl rfl (specFate_body ha hst),
      raises_side (i := .launch tok d a) (o := execLaunch tok d a s) rfl hl rfl rfl rfl rfl (specFate_body ha hst),
      raises_side (i := .cancel tok d a lvl) (o := execCancel tok d a lvl s) rfl hl rfl rfl rfl rfl (specFate_body ha hst),
      raises_side (i := .abort tok lvl) (o := execAbort tok lvl s) rfl hl rfl rfl rfl rfl (specFate_body ha hst),
      raises_side (i := .phase tok d) (o := execPhase tok d s) rfl hl rfl rfl rfl rfl (specFate_body ha hst),
      raises_side (i := .region tok n) (o := execRegion tok n s) rfl hl rfl rfl rfl rfl (specFate_body ha hst)⟩
  · exact ⟨raises_side (i := .specGo tok) (o := execSpecGo tok s) rfl hl rfl rfl rfl rfl (specFate_handler ha rfl),
      raises_side (i := .specCommit tok) (o := execSpecCommit tok s) rfl hl rfl rfl rfl rfl (specFate_handler ha rfl),
      raises_side (i := .specAbort tok) (o := execSpecAbort tok s) rfl hl rfl rfl rfl rfl (specFate_handler ha rfl)⟩
  · exact ⟨fun x hx => specBegin_carry (o := execSpecBegin tok hc hg w off s) rfl hl hw hx,
      fun hx h => raises_side (i := .specBegin tok ((s.core s.cur).ren hc) ((s.core s.cur).ren hg) w off)
        (o := execSpecBegin tok hc hg w off s) rfl hl hw rfl rfl hx (specFate_specBegin h)⟩

/-! ### MOVSR (R42, R116, R118, R386) -/

/-- MOVSR finds its register unreadable exactly when no rule assigns its number (R60, R61). -/
theorem srIllegal_movsr {tok : Tok} {d : Sreg} {n : BitVec 14} : srIllegal (.movsr tok d n) = true ↔ srInfo n.toNat = none :=
  Option.isNone_iff_eq_none
/-- MOVSR of a number that no rule assigns and that the unit may name raises ILLEGAL. -/
theorem movsr_illegal {s : State} {tok : Tok} {d : Sreg} {n : BitVec 14} (hl : (s.core s.cur).live = true)
    (hp : n.toNat < 0x200 ∨ (s.core s.cur).isPriv = true) (hi : srInfo n.toNat = none) :
    exec (.movsr tok d n) s = .next (raise s.cur ⟨.illegal, .fe, 0, 0⟩ s) := by
  have hpriv : ¬(privileged (.movsr tok d n) = true ∧ (!(s.core s.cur).isPriv) = true) := by
    rcases hp with h | h
    · simp [privileged, h]
    · simp [h]
  exact feRun_decodeStop hl rfl (by rw [Core.decodeStop, if_neg hpriv, if_pos (srIllegal_movsr.mpr hi)]; rfl)
/-- A rule assigns the register of a MOVSR that starts. -/
theorem srInfo_of_movsr_begins {s : State} {tok : Tok} {d : Sreg} {n : BitVec 14} {b : Core × Nat}
    (h : s.feBegins (.movsr tok d n) = some b) : srInfo n.toNat ≠ none := by
  intro hi
  have hd := decodeStop_of_feBegins h
  rw [Core.decodeStop, if_pos (srIllegal_movsr.mpr hi)] at hd
  split at hd <;> cases hd
/-- A MOVSR that starts and whose register an EX instruction may still write waits at its address (R42). -/
theorem movsr_waits {s : State} {tok : Tok} {d : Sreg} {n : BitVec 14} {k : Core} {t : Nat}
    (h : s.feBegins (.movsr tok d n) = some (k, t)) (hw : k.srWaits n.toNat = true) :
    exec (.movsr tok d n) s = .next (s.feWaits k) := by
  have hb : movsrBody d n.toNat s.pcNow t (s.setCore s.cur k) = .wait (s.setCore s.cur k) := by simp [movsrBody, hw]
  exact (feRun_wait h hb).trans (by rw [upCore_setCore, State.feWaits])
/-- A MOVSR whose body reads a value gives it to its destination and completes. -/
theorem movsr_gives {s u : State} {tok : Tok} {d : Sreg} {n : BitVec 14} {k : Core} {t : Nat} {v : W64}
    (h : s.feBegins (.movsr tok d n) = some (k, t))
    (hb : movsrBody d n.toNat s.pcNow t (s.setCore s.cur k) = .ok (u.upCore s.cur (fun q => q.result t 1 d v))) :
    exec (.movsr tok d n) s =
      .next ((u.upCore s.cur (fun q => q.result t 1 d v)).upCore s.cur (fun q => q.feDone tok (t + 1))) := feRun_ok h hb
/-- A MOVSR of any other register than CYC and ENR.LO reads it and changes nothing else. -/
theorem movsrBody_plain {s : State} {d : Sreg} {n : Nat} {pc : W64} (t : Nat) (hw : (s.core s.cur).srWaits n = false)
    (h1 : n ≠ 0x010) (h2 : n ≠ 0x105) :
    movsrBody d n pc t s = .ok (s.upCore s.cur (fun q => q.result t 1 d (s.readSr s.cur pc n))) := by
  simp only [movsrBody, hw, if_neg h1, if_neg h2, Bool.false_eq_true, if_false]
/-- Reading ENR.LO copies the high half of the energy counter into the core's shadow (R386). -/
theorem movsrBody_enrLo {s : State} {d : Sreg} {pc : W64} (t : Nat) (hw : (s.core s.cur).srWaits 0x105 = false) :
    movsrBody d 0x105 pc t s = .ok ((s.latchEnr s.cur).upCore s.cur
      (fun q => q.result t 1 d (BitVec.ofNat 64 (s.ik.energy % 2 ^ 32)))) := by
  have hr : s.readSr s.cur pc 0x105 = BitVec.ofNat 64 (s.ik.energy % 2 ^ 32) := rfl
  simp only [movsrBody, hw, hr, Bool.false_eq_true, if_false, if_true, Nat.reduceEqDiff]
/-- With the order log off, a read of CYC is live: it gives the clock and counts as one event (R118, R340). -/
theorem readCyc_live {s : State} {c t : Nat} (hm : (s.part (s.partNo c)).logMode = 0) :
    s.readCyc c t = some (s.setCore c (s.core c).countEvent, BitVec.ofNat 64 (max (s.cycOf c) t)) := by
  simp [State.readCyc, State.logAsk, State.logEvent, State.logWrite, hm]
/-- MOVSR of CYC with the order log off. -/
theorem movsrBody_cyc {s : State} {d : Sreg} {pc : W64} {t : Nat} (hw : (s.core s.cur).srWaits 0x010 = false)
    (hm : (s.part (s.partNo s.cur)).logMode = 0) :
    movsrBody d 0x010 pc t s = .ok ((s.setCore s.cur (s.core s.cur).countEvent).upCore s.cur
      (fun q => q.result t 1 d (BitVec.ofNat 64 (max (s.cycOf s.cur) t)))) := by
  simp only [movsrBody, hw, readCyc_live hm, Bool.false_eq_true, if_false, if_true]
/-- An event of an attempt adds one to its count; a core that runs nothing counts none. -/
theorem countEvent_eq (k : Core) : k.countEvent = { k with run := k.run.map (fun r => { r with events := r.events + 1 }) } := by
  cases h : k.run with
  | none => simp [Core.countEvent, Core.setEvents, h]
  | some r => simp [Core.countEvent, Core.setEvents, Core.events, h]

/-- Settles O26: decoding raises ILLEGAL by `movsr_illegal`; a MOVSR that starts waits by `movsr_waits` or gives what its body
reads, by `movsrBody_plain`, `movsrBody_enrLo` and `movsrBody_cyc`. -/
theorem specialRegistersAreRead : Obligations.SpecialRegistersAreRead := by
  unfold Obligations.SpecialRegistersAreRead
  intro s tok d n
  refine ⟨fun hl hp hi => movsr_illegal hl hp hi, fun k t h => ⟨srInfo_of_movsr_begins h, movsr_waits h, ?_, ?_, ?_⟩⟩
  · intro hw h1 h2
    exact movsr_gives h (movsrBody_plain (s := s.setCore s.cur k) t (by simpa using hw) h1 h2)
  · intro hn hw
    refine movsr_gives h ?_
    rw [hn]
    simpa [State.latchEnr] using movsrBody_enrLo (s := s.setCore s.cur k) (d := d) (pc := s.pcNow) t (by simpa using hw)
  · intro hn hw hm
    refine movsr_gives h ?_
    rw [hn]
    simpa [countEvent_eq, State.cycOf] using
      movsrBody_cyc (s := s.setCore s.cur k) (d := d) (pc := s.pcNow) (t := t) (by simpa using hw) (by simpa using hm)

/-! ### The end of a unit (R18, R131) -/

/-- Core c runs nothing, with an empty pending set, in mode m, and the sets that have ended in partition p are l. -/
def State.UnitOver (u : State) (c p : Nat) (m : Mode) (l : List EndedSet) : Prop :=
  (u.core c).run = none ∧ (u.core c).mode = m ∧ (u.core c).pend = [] ∧ (u.part p).ended = l
/-- Bookkeeping that changes nothing that runs leaves a unit that is over so. -/
theorem State.UnitOver.booked {u v : State} {c p : Nat} {m : Mode} {l : List EndedSet} (h : u.UnitOver c p m l)
    (hb : u.Booked v) : v.UnitOver c p m l := by
  obtain ⟨hr, hm, hp, he⟩ := h
  exact ⟨(hb.run c).trans hr, (hb.mode c).trans hm, (hb.pend c).trans hp, (hb.ended p).trans he⟩
/-- The end of an attempt frees its core and ends no pending set of itself. -/
theorem attemptEnd_over (s : State) (c p : Nat) (halt : Bool) :
    (s.attemptEnd c halt).UnitOver c p (if halt then .halted else .free) (s.part p).ended := by
  have hmem : s.Booked { s with mem := leaveAll s.mem (s.env c) (s.core c).entered } := .of_eq rfl rfl rfl rfl
  have hclose := hmem.trans (booked_closeDescs _ c 0)
  unfold State.attemptEnd
  dsimp only
  split
  · exact ⟨by simp [Core.freed], by simp [Core.freed], by simp [Core.freed], hclose.ended p⟩
  · rename_i l _
    have h := hclose.trans (booked_addUndecl _ (s.partNo c) c l)
    exact ⟨by simp [Core.freed], by simp [Core.freed], by simp [Core.freed], h.ended p⟩
/-- A unit that ends by DONE or HALT hands its pending set to the phase under its writer key. -/
theorem endUnit_over {s : State} {c : Nat} {r : Running} (halt : Bool) (hr : (s.core c).run = some r) :
    (s.endUnit c true halt).UnitOver c (s.partNo c) (if halt then .halted else .free)
      ((s.part (s.partNo c)).ended ++ [⟨r.key, (s.core c).pend⟩]) := by
  obtain ⟨hrun, hmode, hpend, hended⟩ := attemptEnd_over s c (s.partNo c) halt
  have h : ((s.attemptEnd c halt).upPart (s.partNo c) (fun pt =>
      { pt.handOn r.who with ended := pt.ended ++ [⟨r.key, (s.core c).pend⟩] })).UnitOver c (s.partNo c)
      (if halt then .halted else .free) ((s.part (s.partNo c)).ended ++ [⟨r.key, (s.core c).pend⟩]) :=
    ⟨hrun, hmode, hpend, by simp [hended]⟩
  unfold State.endUnit
  simp only [hr, if_true]
  split
  · exact h
  · exact h.booked (((booked_ctr _ _ _ _).trans (booked_upLaunch _ _ _ _)).trans (booked_launchEnd _ _ _))
/-- Dropping a region keeps what its core runs, its engines and its pending set, and every partition's ended sets. -/
theorem dropRegion_keeps (s : State) (c p : Nat) : ((s.dropRegion c).core c).run = (s.core c).run ∧
    ((s.dropRegion c).core c).eng = (s.core c).eng ∧ ((s.dropRegion c).core c).pend = (s.core c).pend ∧
    ((s.dropRegion c).part p).ended = (s.part p).ended ∧ (s.dropRegion c).partNo c = s.partNo c := by
  have h := booked_closeDescs s c 0
  refine ⟨?_, ?_, ?_, h.ended p, ?_⟩
  · simpa [State.dropRegion] using h.run c
  · simpa [State.dropRegion] using h.eng c
  · simpa [State.dropRegion] using h.pend c
  · have hparts : (s.dropRegion c).parts = s.parts := rfl
    simp only [State.partNo, State.partOfClu, hparts]

/-- With its engines empty the core ends its unit; else it drains (R18, R131). -/
theorem finishUnit_idle {s : State} {c : Nat} (halt : Bool) (hi : (s.core c).idle = true) :
    s.finishUnit c halt = s.endUnit c true halt := if_pos hi
theorem finishUnit_busy {s : State} {c : Nat} (halt : Bool) (hi : (s.core c).idle = false) :
    s.finishUnit c halt = s.upCore c (fun k => { k with mode := .drain halt }) := if_neg (by simp [hi])
/-- Completing an instruction that has ended its unit changes nothing: no unit is left to signal for. -/
theorem State.UnitOver.feDone {u : State} {c p : Nat} {m : Mode} {l : List EndedSet} (h : u.UnitOver c p m l) (tok : Tok) (n : Nat) :
    (u.upCore c (fun q => q.feDone tok n)).UnitOver c p m l := by
  obtain ⟨hr, hm, hp, he⟩ := h
  have hd : (u.core c).feDone tok n = u.core c := by simp [Core.feDone, hr]
  exact ⟨by rw [core_upCore_same, hd, hr], by rw [core_upCore_same, hd, hm], by rw [core_upCore_same, hd, hp], he⟩
/-- An FE instruction whose body ends the unit answers a state in which the unit is over. -/
theorem feRun_ends {s : State} {i : Instr} {body : Nat → State → Res State} {o : Out} {k : Core} {t c : Nat} {u : State} {p : Nat}
    {m : Mode} {l : List EndedSet} (h : s.feBegins i = some (k, t)) (ho : o = feRun i body s) (hc : c = s.cur)
    (hb : body t (s.setCore s.cur k) = .ok u) (hu : u.UnitOver c p m l) : ∃ v, o = .next v ∧ v.UnitOver c p m l := by
  subst hc
  exact ⟨_, ho.trans (feRun_ok h hb), hu.feDone _ _⟩
/-- DONE with empty engines: in the body of a region it first drops the region (R364). -/
theorem doneBody_ends {s : State} {r : Running} (n : Nat) (hr : (s.core s.cur).run = some r) (hi : (s.core s.cur).idle = true) :
    ∃ u, doneBody n s = .ok u ∧ u.UnitOver s.cur (s.partNo s.cur) .free
      ((s.part (s.partNo s.cur)).ended ++ [⟨r.key, (s.core s.cur).pend⟩]) := by
  by_cases hst : (s.core s.cur).spec.st = .body
  · obtain ⟨hrun, heng, hpend, hended, hp⟩ := dropRegion_keeps s s.cur (s.partNo s.cur)
    have hi' : ((s.dropRegion s.cur).core s.cur).idle = true := by rw [Core.idle, heng]; exact hi
    have h := endUnit_over (s := s.dropRegion s.cur) false (hrun.trans hr)
    rw [hp, hended, hpend] at h
    exact ⟨_, by simp only [doneBody, hst, hi, finishUnit_idle false hi', if_true], h⟩
  · exact ⟨_, by simp only [doneBody, hst, hi, finishUnit_idle false hi, if_true, if_false], endUnit_over false hr⟩
/-- The body of HALT. -/
def haltBody (_ : Nat) (s : State) : Res State :=
  if (s.core s.cur).idle then .ok (s.finishUnit s.cur true) else .wait (s.finishUnit s.cur true)

/-- Settles O33: DONE and HALT end the unit by `endUnit_over` when the engines are empty, and drain by `finishUnit_busy` when
they are not. -/
theorem doneAndHaltEndTheUnit : Obligations.DoneAndHaltEndTheUnit := by
  unfold Obligations.DoneAndHaltEndTheUnit
  intro s tok k t r hr
  have hr1 : ((s.setCore s.cur k).core s.cur).run = some r := by simpa using hr
  refine ⟨fun h => ⟨fun hi hst => ?_, fun hi hst => ?_, fun hi => ?_⟩, fun h => ⟨fun hi => ?_, fun hi => ?_⟩⟩
  · have hb : doneBody t (s.setCore s.cur k) = .wait (s.setCore s.cur { k with mode := .drain false }) := by
      simp [doneBody, hst, hi, finishUnit_busy]
    exact (feRun_wait h hb).trans (by rw [upCore_setCore])
  · have hb : doneBody t (s.setCore s.cur k) = .wait (s.setCore s.cur k) := by simp [doneBody, hst, hi]
    exact (feRun_wait h hb).trans (by rw [upCore_setCore, State.feWaits])
  · obtain ⟨u, hb, hu⟩ := doneBody_ends (s := s.setCore s.cur k) t hr1 (by simpa using hi)
    rw [setCore_cur, core_setCore_same] at hu
    exact feRun_ends (o := execDone tok s) h rfl rfl hb hu
  · have hb : haltBody t (s.setCore s.cur k) = .wait (s.setCore s.cur { k with mode := .drain true }) := by
      simp [haltBody, hi, finishUnit_busy]
    exact (feRun_wait h hb).trans (by rw [upCore_setCore])
  · have hb : haltBody t (s.setCore s.cur k) = .ok ((s.setCore s.cur k).endUnit s.cur true true) := by
      simp [haltBody, hi, finishUnit_idle]
    have hu := endUnit_over (s := s.setCore s.cur k) true hr1
    rw [core_setCore_same] at hu
    exact feRun_ends (o := execHalt tok s) h rfl rfl hb hu

end Sys2Proof.Machine
end

section
/-!
PROOFS. When a write is seen (O10): pending writes over the scratchpad, a store that becomes due, and a scalar result.
-/

namespace Sys2Proof.Machine
open Sys2Proof

/-! ### Sorted lists of granules -/

theorem mem_sins {l : List Nat} {k g : Nat} : g ∈ sins l k ↔ g ∈ l ∨ g = k := by
  induction l with
  | nil => simp [sins]
  | cons a t ih =>
    unfold sins
    split
    · simp only [List.mem_cons]; tauto
    · split
      · simp only [List.mem_cons]
        exact ⟨Or.inl, fun h => h.elim id (fun h => Or.inl (by omega))⟩
      · simp only [List.mem_cons, ih, or_assoc]
theorem mem_foldl_sins {l f : List Nat} {g : Nat} : g ∈ l.foldl sins f ↔ g ∈ f ∨ g ∈ l := by
  induction l generalizing f with
  | nil => simp
  | cons a t ih => simp only [List.foldl_cons, ih, mem_sins, List.mem_cons, or_assoc]
/-- The granules whose highest byte lies in a range. -/
theorem mem_granHigh {a n g : Nat} : g ∈ granHigh a n ↔ a ≤ 256 * g + 255 ∧ 256 * g + 255 < a + n := by
  simp only [granHigh, upto_eq_range, List.mem_filter, List.mem_map, List.mem_range, decide_eq_true_eq]
  refine ⟨fun h => h.2, fun h => ⟨⟨g - a / 256, ?_, ?_⟩, h⟩⟩ <;> omega

/-! ### Pending writes over the scratchpad (R37) -/

/-- A pending write over a memory, as an instruction that starts in cycle `now` sees it. -/
def Due.over (now : Nat) (m : Mem) (d : Due) : Mem := match d.wr with
  | .mem a bs => if d.due ≤ now then wrL m a bs else m
  | .nib a2 v => if d.due ≤ now then let e := elBytes m a2 1 v; wrL m e.1 e.2 else m
  | _ => m
theorem overlay_eq (m : Mem) (ds : List Due) (now : Nat) : overlay m ds now = ds.foldl (Due.over now) m := rfl
/-- A write that is not due yet is not seen. -/
theorem Due.over_late {now : Nat} {d : Due} (m : Mem) (h : now < d.due) : d.over now m = m := by
  unfold Due.over
  split
  · exact if_neg (by omega)
  · exact if_neg (by omega)
  · rfl
/-- Bytes written are read at their addresses, and what stood before elsewhere. -/
theorem rd_wrL_congr {m n : Mem} {x : Nat} (a : Nat) (bs : List Byte) (h : rd m x = rd n x) :
    rd (wrL m a bs) x = rd (wrL n a bs) x := by
  induction bs generalizing m n a with
  | nil => exact h
  | cons b t ih =>
    refine ih _ ?_
    by_cases e : x = a
    · subst e; rw [rd_wr_same, rd_wr_same]
    · rw [rd_wr_ne _ _ e, rd_wr_ne _ _ e, h]
/-- What a pending write leaves in a byte depends on what stood there alone. -/
theorem Due.over_congr {m n : Mem} {x : Nat} (now : Nat) (d : Due) (h : rd m x = rd n x) :
    rd (d.over now m) x = rd (d.over now n) x := by
  unfold Due.over
  split
  · split
    · exact rd_wrL_congr _ _ h
    · exact h
  · rename_i a2 v _
    split
    · by_cases e : x = a2 / 2
      · subst e
        simp only [elBytes, h]
        exact rd_wrL_congr _ _ h
      · have hx : x < a2 / 2 ∨ a2 / 2 + 1 ≤ x := by omega
        simp only [elBytes, if_true]
        rw [rd_wrL_out _ _ _ (by simpa using hx), rd_wrL_out _ _ _ (by simpa using hx), h]
    · exact h
  · exact h
theorem overlay_congr {m n : Mem} {x : Nat} (ds : List Due) (now : Nat) (h : rd m x = rd n x) :
    rd (overlay m ds now) x = rd (overlay n ds now) x := by
  simp only [overlay_eq]
  induction ds generalizing m n with
  | nil => exact h
  | cons d t ih => exact ih (d.over_congr now h)
/-- A write is inserted between those that are due no later and the rest. -/
theorem dueIns_split (d : Due) (ds : List Due) : ∃ l r, ds = l ++ r ∧ dueIns d ds = l ++ d :: r := by
  induction ds with
  | nil => exact ⟨[], [], rfl, rfl⟩
  | cons x t ih =>
    unfold dueIns
    split
    · exact ⟨[], x :: t, rfl, rfl⟩
    · obtain ⟨l, r, h1, h2⟩ := ih
      exact ⟨x :: l, r, by simp [h1], by simp [h2]⟩
/-- A write due last is inserted at the end. -/
theorem dueIns_last {d : Due} {ds : List Due} (h : ∀ x ∈ ds, x.due ≤ d.due) : dueIns d ds = ds ++ [d] := by
  induction ds with
  | nil => rfl
  | cons x t ih =>
    rw [dueIns, if_neg (by simpa using h x (by simp)), ih (fun y hy => h y (by simp [hy]))]
    rfl
/-- A pending write changes the bytes that an instruction reads at its own addresses alone. -/
theorem overlay_dueIns {d : Due} {x : Nat} (m : Mem) (ds : List Due) (now : Nat) (h : ∀ m, rd (d.over now m) x = rd m x) :
    rd (overlay m (dueIns d ds) now) x = rd (overlay m ds now) x := by
  obtain ⟨l, r, h1, h2⟩ := dueIns_split d ds
  rw [h2, h1, overlay_eq, overlay_eq, List.foldl_append, List.foldl_append, List.foldl_cons]
  exact overlay_congr r now (h _)
/-- A write that no instruction of the cycle sees may be left out. -/
theorem overlay_dueIns_late {d : Due} {now : Nat} (m : Mem) (ds : List Due) (h : now < d.due) :
    overlay m (dueIns d ds) now = overlay m ds now := by
  obtain ⟨l, r, h1, h2⟩ := dueIns_split d ds
  rw [h2, h1, overlay_eq, overlay_eq, List.foldl_append, List.foldl_append, List.foldl_cons, d.over_late _ h]

/-! ### A store that becomes due (R35, R37, R40) -/

@[simp] theorem watch_pad (k : Core) (a n : Nat) : (k.watch a n).pad = k.pad := by
  unfold Core.watch
  split
  · split <;> rfl
  · rfl
@[simp] theorem clearBad_pad (k : Core) (p : ProtArr → Bool) (a n : Nat) : (k.clearBad p a n).pad = k.pad := by
  unfold Core.clearBad
  split <;> rfl
theorem store_pad (k : Core) (b : Bool) (a : Nat) (bs : List Byte) :
    (k.store b a bs).pad = { k.pad with mem := wrL k.pad.mem a bs, full := k.fullBy b a bs.length } := by
  simp [Core.store]

/-- In an interlocked region a store is made at once. -/
theorem storeDue_interlocked {k : Core} (h : k.interlocked = true) (st : Strm) (n a : Nat) (bs : List Byte) :
    k.storeDue st n a bs = k.store true a bs := if_pos h
/-- In a static region a store is pending until it is due. -/
theorem storeDue_static {k : Core} (h : k.interlocked = false) (st : Strm) (n a : Nat) (bs : List Byte) :
    k.storeDue st n a bs = k.addDue ⟨n, st, .mem a bs⟩ := if_neg (by simp [h])
/-- A store leaves every byte outside it as every instruction would have read it. -/
theorem storeDue_out (k : Core) (st : Strm) (n a : Nat) (bs : List Byte) (now : Nat) {x : Nat} (hx : x < a ∨ a + bs.length ≤ x) :
    rd ((k.storeDue st n a bs).padAt now) x = rd (k.padAt now) x := by
  cases h : k.interlocked with
  | true =>
    rw [storeDue_interlocked h, Core.padAt, store_pad, store_eng]
    exact overlay_congr _ _ (rd_wrL_out _ _ _ hx)
  | false =>
    rw [storeDue_static h]
    refine overlay_dueIns _ _ _ (fun m => ?_)
    simp only [Due.over]
    split
    · exact rd_wrL_out _ _ _ hx
    · rfl
/-- The bytes of a store are read from the cycle they are due on, when no write is made after it. -/
theorem storeDue_seen {k : Core} (st : Strm) {n : Nat} (a : Nat) (bs : List Byte) {now : Nat}
    (hi : k.interlocked = true → k.eng.due = []) (hs : k.interlocked = false → ∀ x ∈ k.eng.due, x.due ≤ n) (hn : n ≤ now) :
    rdN ((k.storeDue st n a bs).padAt now) a bs.length = bs := by
  cases h : k.interlocked with
  | true =>
    rw [storeDue_interlocked h, Core.padAt, store_pad, store_eng, hi h]
    exact rdN_wrL _ _ _
  | false =>
    have hd : (k.storeDue st n a bs).eng.due = k.eng.due ++ [⟨n, st, .mem a bs⟩] := by
      rw [storeDue_static h]
      exact dueIns_last (hs h)
    rw [Core.padAt, hd, overlay_eq, List.foldl_append, List.foldl_cons, List.foldl_nil]
    simp only [Due.over, if_pos hn]
    exact rdN_wrL _ _ _

/-! ### A scalar result (R37, R40) -/

/-- A pending write of a scalar leaves the other scalars. -/
theorem getS_flushIf_ofS (k : Core) {d r : Sreg} (n : Nat) (h : r ≠ d) : (k.flushIf (Due.ofS d n)).getS r = k.getS r :=
  flushIf_keeps (g := fun q => q.getS r) (fun _ _ => rfl) (fun _ _ => rfl) (fun x _ hp q => by
    obtain ⟨v, hw⟩ := ofS_wr hp
    simp [Core.apply, hw, getS_setS_ne _ _ h])
/-- A result changes no scalar but its destination. -/
theorem getS_result_ne (k : Core) (t lat : Nat) {d r : Sreg} (v : W64) (h : r ≠ d) : (k.result t lat d v).getS r = k.getS r := by
  unfold Core.result
  split
  · exact getS_setS_ne _ _ h
  · split
    · rw [getS_setS_ne _ _ h, getS_flushIf_ofS _ _ h]
    · rfl
/-- A result is seen at once in an interlocked region, and everywhere with a latency of at most 1. -/
theorem getS_result_same {k : Core} {lat : Nat} (t : Nat) {d : Sreg} (v : W64) (hl : k.interlocked = true ∨ lat ≤ 1) (hd : d ≠ 0) :
    (k.result t lat d v).getS d = v := by
  unfold Core.result
  split
  · exact getS_setS_same _ _ hd
  · rename_i hi
    rw [if_pos (hl.resolve_left hi), getS_setS_same _ _ hd]
/-- In a static region a result of a longer latency is pending. -/
theorem result_static {k : Core} {lat : Nat} (t : Nat) (d : Sreg) (v : W64) (hi : k.interlocked = false) (hl : 1 < lat) :
    k.result t lat d v = k.addDue ⟨t + lat, .fe, .s d v⟩ := by
  rw [Core.result, if_neg (by simp [hi]), if_neg (by omega)]
/-- Before it is due, a pending scalar is not made. -/
theorem flush_early {k : Core} {n now : Nat} {d : Sreg} {v : W64} (h : k.eng.due = [⟨n, .fe, .s d v⟩]) (hn : now < n) :
    k.flush .fe now = k := by
  have hr : k.ripe .fe now ⟨n, .fe, .s d v⟩ = false := by simp only [Core.ripe, decide_eq_false_iff_not]; omega
  simp only [Core.flush, Core.flushIf, h, List.filter_cons, hr, List.filter_nil, Core.applyAll, Bool.not_false, Bool.false_eq_true,
    if_true, if_false]
  rw [← h]
/-- From the cycle on in which it is due, the FE finds it made. -/
theorem flush_made {k : Core} {n now : Nat} {d : Sreg} {v : W64} (h : k.eng.due = [⟨n, .fe, .s d v⟩]) (hn : n ≤ now) :
    k.flush .fe now = Core.setS { k with eng := { k.eng with due := [] } } d v := by
  have hr : k.ripe .fe now ⟨n, .fe, .s d v⟩ = true := by simp only [Core.ripe, decide_eq_true_eq, hn, and_self]
  simp [Core.flush, Core.flushIf, h, hr, Core.applyAll, Core.apply]
/-- A scalar result of the FE that is alone pending: its register keeps its value until the result is due, then reads as the
result; no other scalar changes. -/
theorem result_due {k : Core} {lat : Nat} (t : Nat) (d : Sreg) (v : W64) (hi : k.interlocked = false) (hl : 1 < lat)
    (hd : k.eng.due = []) :
    let q := k.result t lat d v
    (∀ now, now < t + lat → (q.flush .fe now).getS d = k.getS d) ∧
    (∀ now, t + lat ≤ now → d ≠ 0 → (q.flush .fe now).getS d = v) ∧
    (∀ now r, r ≠ d → (q.flush .fe now).getS r = k.getS r) := by
  have hq : (k.result t lat d v).eng.due = [⟨t + lat, .fe, .s d v⟩] := by
    rw [result_static t d v hi hl, Core.addDue, hd]
    rfl
  have hs : ∀ r, (k.result t lat d v).getS r = k.getS r := fun r => by rw [result_static t d v hi hl]; rfl
  refine ⟨fun now hn => ?_, fun now hn h0 => ?_, fun now r hr => ?_⟩
  · rw [flush_early hq hn, hs]
  · rw [flush_made hq hn, getS_setS_same _ _ h0]
  · rcases Nat.lt_or_ge now (t + lat) with hn | hn
    · rw [flush_early hq hn, hs]
    · rw [flush_made hq hn, getS_setS_ne _ _ hr]
      exact hs r

/-- Settles O10: a scalar result by `getS_result_same` and `result_due`, a store by `storeDue_seen`, `storeDue_out` and
`overlay_dueIns_late`. -/
theorem writesAreSeenWhenDue : Obligations.WritesAreSeenWhenDue := by
  unfold Obligations.WritesAreSeenWhenDue
  refine ⟨fun k t lat d v => ⟨fun r hr => getS_result_ne k t lat v hr, getS_zero _, getS_result_same t v, fun hi hl => ⟨?_, ?_⟩⟩,
    fun k st n a bs => ⟨fun hi hs now hn => storeDue_seen st a bs hi hs hn, fun hi now hn => ?_,
      fun now x hx => storeDue_out k st n a bs now hx, fun hi => ?_, fun hi g => ?_⟩⟩
  · rw [result_static t d v hi hl]
    rfl
  · exact result_due t d v hi hl
  · rw [storeDue_static hi]
    exact overlay_dueIns_late _ _ hn
  · rw [storeDue_static hi]
    rfl
  · rw [storeDue_interlocked hi, store_pad]
    simp only [Core.fullBy, if_true, mem_foldl_sins, mem_granHigh]

end Sys2Proof.Machine
end

section
/-!
PROOFS. The frame of the FE instructions that work on their core alone (O19): one relation between cores, a lemma for every
operation that such an instruction is made of.
-/

namespace Sys2Proof.Machine
open Sys2Proof

/-! ### The relation -/

/-- q is the core k but for the destinations d, PCFE, the token queues and latches, and what is due: no word becomes
uncorrectable or weak, and the words corrected are counted. -/
structure Core.Touches (d : Dest) (k q : Core) : Prop where
  shape : q = { k with
    r := { k.r with s := q.r.s, h := q.r.h, spill := q.r.spill, sr := q.r.sr, pc := q.r.pc }
    pad := { k.pad with mem := q.pad.mem, full := q.pad.full }
    eng := { k.eng with toks := q.eng.toks, latch := q.eng.latch, due := q.eng.due, satisfied := q.eng.satisfied, cyc := q.eng.cyc }
    bad := q.bad, weak := q.weak, ce := q.ce }
  count : q.ce + q.weak.length ≤ k.ce + k.weak.length
  scalars : ∀ r, r ∉ d.s → q.getS r = k.getS r
  handles : ∀ h, h ∉ d.h → q.getH h = k.getH h
  spills : ∀ n, n ∉ d.spill → q.getSpill n = k.getSpill n
  specials : ∀ n, n ∉ d.sr → q.getSr n = k.getSr n
  bytes : ∀ now a, a < d.pad.1 ∨ d.pad.1 + d.pad.2 ≤ a → rd (q.padAt now) a = rd (k.padAt now) a
  bads : ∀ w ∈ q.bad, w ∈ k.bad
  weaks : ∀ w ∈ q.weak, w ∈ k.weak

namespace Core.Touches
variable {d : Dest} {k q p : Core}

theorem trans (h : Core.Touches d k q) (g : Core.Touches d q p) : Core.Touches d k p where
  shape := g.shape.trans (by rw [h.shape])
  count := g.count.trans h.count
  scalars r hr := (g.scalars r hr).trans (h.scalars r hr)
  handles x hx := (g.handles x hx).trans (h.handles x hx)
  spills n hn := (g.spills n hn).trans (h.spills n hn)
  specials n hn := (g.specials n hn).trans (h.specials n hn)
  bytes now a ha := (g.bytes now a ha).trans (h.bytes now a ha)
  bads w hw := h.bads w (g.bads w hw)
  weaks w hw := h.weaks w (g.weaks w hw)
/-- Two cores that differ in PCFE, the tokens, the latches, SATISFIED and the FE's clock alone. -/
theorem clocks (d : Dest) (k : Core) (pc : W64) (toks : Map (List Nat)) (latch : Map Nat) (sat : Bool) (cyc : Nat) :
    Core.Touches d k { k with r := { k.r with pc := pc }, eng := { k.eng with toks := toks, latch := latch, satisfied := sat, cyc := cyc } } :=
  ⟨rfl, le_refl _, fun _ _ => rfl, fun _ _ => rfl, fun _ _ => rfl, fun _ _ => rfl, fun _ _ _ => rfl, fun _ h => h, fun _ h => h⟩
theorem refl (d : Dest) (k : Core) : Core.Touches d k k := clocks d k k.r.pc k.eng.toks k.eng.latch k.eng.satisfied k.eng.cyc
theorem sleep (h : Core.Touches d k q) : q.sleep = k.sleep := by rw [h.shape]
theorem interlocked (h : Core.Touches d k q) (hs : 1 ∉ d.sr) : q.interlocked = k.interlocked := by
  rw [Core.interlocked, h.specials 1 hs]
  rfl

end Core.Touches

/-! ### The operations -/

variable {d : Dest}

/-- Errors that a write covers are cleared (R420). -/
theorem touches_clearBad (k : Core) (f : ProtArr → Bool) (lo n : Nat) : Core.Touches d k (k.clearBad f lo n) := by
  unfold Core.clearBad
  split
  · exact .refl d k
  · exact ⟨rfl, Nat.add_le_add_left (List.length_filter_le _ _) _, fun _ _ => rfl, fun _ _ => rfl, fun _ _ => rfl, fun _ _ => rfl,
      fun _ _ _ => rfl, fun _ h => (List.mem_filter.mp h).1, fun _ h => (List.mem_filter.mp h).1⟩
/-- A read corrects the words it meets and counts them (R421). -/
theorem touches_corrects (k : Core) (f : ProtArr → Bool) (lo n : Nat) : Core.Touches d k (k.corrects f lo n) := by
  unfold Core.corrects
  split
  · exact .refl d k
  · refine ⟨rfl, ?_, fun _ _ => rfl, fun _ _ => rfl, fun _ _ => rfl, fun _ _ => rfl, fun _ _ _ => rfl, fun _ h => h,
      fun _ h => (List.mem_filter.mp h).1⟩
    have h := (List.length_eq_length_filter_add (l := k.weak) (wordIn f lo n)).ge
    dsimp only
    omega
theorem touches_corrPad (k : Core) (a n : Nat) : Core.Touches d k (k.corrPad [(a, n)]) := by
  unfold Core.corrPad
  split
  · exact .refl d k
  · exact touches_corrects _ _ _ _
theorem touches_setPc (k : Core) (pc : W64) : Core.Touches d k (k.setPc pc) :=
  .clocks d k pc k.eng.toks k.eng.latch k.eng.satisfied k.eng.cyc
theorem touches_jump (k : Core) (t : Nat) (dst : W64) : Core.Touches d k (k.jump t dst) :=
  .clocks d k dst k.eng.toks k.eng.latch k.eng.satisfied (t + 2)
theorem touches_setS (k : Core) {r : Sreg} (v : W64) (h : r ∈ d.s) : Core.Touches d k (k.setS r v) := by
  by_cases h0 : r = 0
  · rw [Core.setS, if_pos h0]
    exact .refl d k
  · have hs : ∀ x, x ∉ d.s → (k.setS r v).getS x = k.getS x := fun x hx => getS_setS_ne _ _ (fun e => hx (e ▸ h))
    rw [Core.setS, if_neg h0] at hs ⊢
    exact ⟨rfl, le_refl _, hs, fun _ _ => rfl, fun _ _ => rfl, fun _ _ => rfl, fun _ _ _ => rfl, fun _ h => h, fun _ h => h⟩
theorem touches_setSr (k : Core) {n : Nat} (v : W64) (h : n ∈ d.sr) : Core.Touches d k (k.setSr n v) :=
  ⟨rfl, le_refl _, fun _ _ => rfl, fun _ _ => rfl, fun _ _ => rfl, fun x hx => getSr_setSr_ne _ _ (fun e => hx (e ▸ h)),
    fun _ _ _ => rfl, fun _ h => h, fun _ h => h⟩
/-- Handles that agree outside the destinations. -/
theorem touches_handles (k : Core) {m : Map W256} (h : ∀ x : Hreg, x ∉ d.h → mget nullH m x.toNat = k.getH x) :
    Core.Touches d k { k with r := { k.r with h := m } } :=
  ⟨rfl, le_refl _, fun _ _ => rfl, h, fun _ _ => rfl, fun _ _ => rfl, fun _ _ _ => rfl, fun _ h => h, fun _ h => h⟩

theorem touches_setH (k : Core) {h : Hreg} (v : W256) (hh : h ∈ d.h) : Core.Touches d k (k.setH h v) :=
  (touches_handles k (fun x hx => mget_mput_ne _ _ _ (fun e => hx (BitVec.eq_of_toNat_eq e ▸ hh)))).trans (touches_clearBad _ _ _ _)
theorem touches_setField (k : Core) {h : Hreg} (f : Nat) (v : W64) (hh : h ∈ d.h) : Core.Touches d k (k.setField h f v) := by
  have h1 := touches_handles (d := d) k (m := mput nullH k.r.h h.toNat (hSet (k.getH h) f v))
    (fun x hx => mget_mput_ne _ _ _ (fun e => hx (BitVec.eq_of_toNat_eq e ▸ hh)))
  unfold Core.setField
  dsimp only
  split
  · exact h1.trans (touches_clearBad _ _ _ _)
  · exact h1
theorem touches_setSpill (k : Core) {n : Nat} (v : W64) (hn : n ∈ d.spill) : Core.Touches d k (k.setSpill n v) := by
  have h1 : Core.Touches d k { k with r := { k.r with spill := mput 0 k.r.spill n v } } :=
    ⟨rfl, le_refl _, fun _ _ => rfl, fun _ _ => rfl, fun x hx => mget_mput_ne _ _ _ (fun e => hx (e ▸ hn)), fun _ _ => rfl,
      fun _ _ _ => rfl, fun _ h => h, fun _ h => h⟩
  exact h1.trans (touches_clearBad _ _ _ _)
/-- Another list of pending writes that leaves the same bytes. -/
theorem touches_due (k : Core) {l : List Due} (h : ∀ now a, a < d.pad.1 ∨ d.pad.1 + d.pad.2 ≤ a →
    rd (overlay k.pad.mem l now) a = rd (overlay k.pad.mem k.eng.due now) a) :
    Core.Touches d k { k with eng := { k.eng with due := l } } :=
  ⟨rfl, le_refl _, fun _ _ => rfl, fun _ _ => rfl, fun _ _ => rfl, fun _ _ => rfl, h, fun _ h => h, fun _ h => h⟩
/-- The scratchpad with other bytes and other full granules. -/
theorem touches_mem (k : Core) {m : Mem} (full : List Nat) (h : ∀ a, a < d.pad.1 ∨ d.pad.1 + d.pad.2 ≤ a → rd m a = rd k.pad.mem a) :
    Core.Touches d k { k with pad := { k.pad with mem := m, full := full } } :=
  ⟨rfl, le_refl _, fun _ _ => rfl, fun _ _ => rfl, fun _ _ => rfl, fun _ _ => rfl, fun _ a ha => overlay_congr _ _ (h a ha),
    fun _ h => h, fun _ h => h⟩

/-! ### Results and stores (R37, R40) -/

/-- A pending write that stores no byte. -/
theorem over_of_register {x : Due} (now : Nat) (m : Mem) (h : (∃ r v, x.wr = .s r v) ∨ ∃ r v, x.wr = .h r v) : x.over now m = m := by
  rcases h with ⟨r, v, h⟩ | ⟨r, v, h⟩ <;> simp [Due.over, h]
/-- Pending writes of registers may be left out of what a read of the scratchpad sees. -/
theorem overlay_filter {p : Due → Bool} {l : List Due} (now : Nat) (m : Mem)
    (h : ∀ x ∈ l, p x = true → ∀ m, x.over now m = m) : overlay m (l.filter (fun x => !p x)) now = overlay m l now := by
  simp only [overlay_eq]
  induction l generalizing m with
  | nil => rfl
  | cons x t ih =>
    have ht := fun m => ih m (fun y hy => h y (by simp [hy]))
    cases hp : p x with
    | true => simp only [List.filter_cons, hp, Bool.not_true, Bool.false_eq_true, if_false, List.foldl_cons, h x (by simp) hp, ht]
    | false => simp only [List.filter_cons, hp, Bool.not_false, if_true, List.foldl_cons, ht]
/-- Making pending writes that write destinations alone. -/
theorem touches_applyAll {l : List Due} (h : ∀ x ∈ l, ∀ c : Core, Core.Touches d c (c.apply x)) (k : Core) :
    Core.Touches d k (Core.applyAll l k) := by
  induction l generalizing k with
  | nil => exact .refl d k
  | cons x t ih =>
    have hx := h x (by simp) k
    rw [Core.applyAll]
    refine .trans ?_ (ih (fun y hy => h y (by simp [hy])) _)
    split
    · rw [← hx.sleep]
      exact hx
    · exact hx
theorem touches_flushIf (k : Core) {p : Due → Bool}
    (hr : ∀ x, p x = true → (∃ r v, x.wr = .s r v) ∨ ∃ r v, x.wr = .h r v)
    (h : ∀ x, p x = true → ∀ c : Core, Core.Touches d c (c.apply x)) : Core.Touches d k (k.flushIf p) := by
  refine .trans (touches_due k (l := k.eng.due.filter (fun x => !p x)) (fun now a _ => ?_))
    (touches_applyAll (fun x hx => h x (List.mem_filter.mp hx).2) _)
  rw [overlay_filter now _ (fun x _ hp m => over_of_register now m (hr x hp))]
theorem touches_flushIf_ofS (k : Core) {r : Sreg} (n : Nat) (h : r ∈ d.s) : Core.Touches d k (k.flushIf (Due.ofS r n)) := by
  refine touches_flushIf k (fun x hx => ?_) (fun x hx c => ?_) <;> obtain ⟨v, hw⟩ := ofS_wr hx
  · exact .inl ⟨r, v, hw⟩
  · simpa [Core.apply, hw] using touches_setS c v h
theorem touches_flushIf_ofH (k : Core) {r : Hreg} (n : Nat) (h : r ∈ d.h) : Core.Touches d k (k.flushIf (Due.ofH r n)) := by
  refine touches_flushIf k (fun x hx => ?_) (fun x hx c => ?_) <;> obtain ⟨v, hw⟩ := ofH_wr hx
  · exact .inr ⟨r, v, hw⟩
  · simpa [Core.apply, hw] using touches_setH c v h
/-- A pending write of a register. -/
theorem touches_addDue (k : Core) {x : Due} (h : (∃ r v, x.wr = .s r v) ∨ ∃ r v, x.wr = .h r v) : Core.Touches d k (k.addDue x) :=
  touches_due k (fun now _ _ => overlay_dueIns _ _ now (fun m => by rw [over_of_register now m h]))
theorem touches_result (k : Core) (t lat : Nat) {r : Sreg} (v : W64) (h : r ∈ d.s) : Core.Touches d k (k.result t lat r v) := by
  unfold Core.result
  split
  · exact touches_setS k v h
  · split
    · exact (touches_flushIf_ofS k _ h).trans (touches_setS _ v h)
    · exact touches_addDue k (.inl ⟨r, v, rfl⟩)
theorem touches_resultH (k : Core) (t lat : Nat) {r : Hreg} (v : W256) (h : r ∈ d.h) : Core.Touches d k (k.resultH t lat r v) := by
  unfold Core.resultH
  split
  · exact touches_setH k v h
  · split
    · exact (touches_flushIf_ofH k _ h).trans (touches_setH _ v h)
    · exact touches_addDue k (.inr ⟨r, v, rfl⟩)
/-- A core whose FE does not sleep watches no word. -/
theorem watch_awake {k : Core} (h : k.sleep = .awake) (a n : Nat) : k.watch a n = k := by simp [Core.watch, h]
theorem touches_store {k : Core} (b : Bool) {a : Nat} {bs : List Byte} (hs : k.sleep = .awake) (h : d.pad = (a, bs.length)) :
    Core.Touches d k (k.store b a bs) := by
  unfold Core.store
  dsimp only
  rw [watch_awake (by exact hs)]
  refine .trans (touches_mem k _ (fun x hx => rd_wrL_out _ _ _ ?_)) (touches_clearBad _ _ _ _)
  simpa [h] using hx
theorem touches_storeDue {k : Core} (st : Strm) (n : Nat) {a : Nat} {bs : List Byte} (hs : k.sleep = .awake)
    (h : d.pad = (a, bs.length)) : Core.Touches d k (k.storeDue st n a bs) := by
  cases hi : k.interlocked with
  | true =>
    rw [storeDue_interlocked hi]
    exact touches_store true hs h
  | false =>
    have ho := fun now x hx => storeDue_out k st n a bs now (x := x) hx
    rw [storeDue_static hi] at ho ⊢
    exact touches_due k (fun now x hx => ho now x (by simpa [h] using hx))

/-! ### The start and the end of an FE instruction (R24 to R26) -/

theorem touches_signal (k : Core) (x : Dir) (n : Nat) : Core.Touches d k (k.signal x n) := by
  unfold Core.signal
  split
  · exact .trans (.clocks d k k.r.pc _ k.eng.latch k.eng.satisfied k.eng.cyc) (touches_clearBad _ _ _ _)
  · exact .clocks d k k.r.pc k.eng.toks _ k.eng.satisfied k.eng.cyc
theorem touches_signals (k : Core) (st : Strm) (tok : Tok) (n : Nat) : Core.Touches d k (k.signals st tok n) := by
  unfold Core.signals
  have h1 : Core.Touches d k (if tok.sp then k.signal (sigP st) n else k) := by
    split
    · exact touches_signal _ _ _
    · exact .refl d k
  dsimp only
  split
  · exact h1.trans (touches_signal _ _ _)
  · exact h1
theorem touches_feDone (k : Core) (tok : Tok) (n : Nat) : Core.Touches d k (k.feDone tok n) := by
  unfold Core.feDone
  split
  · exact .trans (.clocks d k k.r.pc k.eng.toks k.eng.latch false k.eng.cyc) (touches_signals _ _ _ _)
  · exact .refl d k

/-- An FE that does not sleep does not sleep once pending writes are made. -/
theorem apply_awake {k : Core} (x : Due) (h : k.sleep = .awake) : (k.apply x).sleep = .awake := by
  have hst : ∀ a bs, (k.storeWhen x.due a bs).sleep = .awake := fun a bs => by
    simp only [Core.storeWhen, h, Bool.false_eq_true, if_false]
    exact (touches_store (d := { pad := (a, bs.length) }) false h rfl).sleep.trans h
  unfold Core.apply
  split
  · exact (setS_sleep _ _ _).trans h
  · rename_i r v _
    exact (touches_setH (d := { h := [r] }) k v (by simp)).sleep.trans h
  · exact hst _ _
  · exact hst _ _
  · exact h
  · exact h
theorem applyAll_awake (l : List Due) {k : Core} (h : k.sleep = .awake) : (Core.applyAll l k).sleep = .awake := by
  induction l generalizing k with
  | nil => exact h
  | cons x t ih =>
    rw [Core.applyAll]
    refine ih ?_
    split
    · exact h
    · exact apply_awake x h

@[simp] theorem takeToks_sleep (k : Core) (st : Strm) (tok : Tok) : (k.takeToks st tok).1.sleep = k.sleep := by
  unfold Core.takeToks
  dsimp only
  split <;> split <;> rfl
@[simp] theorem corrects_sleep (k : Core) (f : ProtArr → Bool) (lo n : Nat) : (k.corrects f lo n).sleep = k.sleep :=
  (touches_corrects (d := {}) k f lo n).sleep
@[simp] theorem noteTaken_sleep (k : Core) (st : Strm) (tok : Tok) (n : Nat) : (k.noteTaken st tok n).sleep = k.sleep := by
  unfold Core.noteTaken
  dsimp only
  split <;> split <;> simp
/-- The tokens and the pending writes that a start takes leave the FE awake. -/
theorem feStart_awake {k k1 : Core} {i : Instr} {t : Nat} (h : k.feStart i = some (k1, t)) (hs : k.sleep = .awake) :
    k1.sleep = .awake := by
  unfold Core.feStart at h
  split at h
  · cases h
  · cases h
    refine applyAll_awake _ ?_
    cases e : k.eng.satisfied <;> simp [hs]
/-- An FE that starts an instruction does not sleep when the instruction finds its core. -/
theorem feBegins_awake {s : State} {i : Instr} {k : Core} {t : Nat} (h : s.feBegins i = some (k, t)) : k.sleep = .awake := by
  have hl : (s.core s.cur).sleep = .awake := by
    unfold State.feBegins at h
    simp only [] at h
    split at h
    · rename_i hl
      simp only [Bool.and_eq_true, Core.live, beq_iff_eq] at hl
      exact hl.1.1.1.2
    · cases h
  obtain ⟨k1, h1, rfl⟩ := feStart_of_feBegins h
  have hk := feStart_awake h1 hl
  exact hk

/-! ### Every instruction (R20, R28, R100, R101) -/

/-- A body on the core that completes and touches its destinations alone. -/
theorem touches_body {i : Instr} {f : Nat → Core → Res Core} {s : State} {k q : Core} {t : Nat} {o : Out}
    (h : s.feBegins i = some (k, t)) (ho : o = feRun i (feCore f s.cur) s) (hf : f t k = .ok q) (hq : Core.Touches d k q) :
    ∃ q, o = .next (s.setCore s.cur q) ∧ Core.Touches d k q :=
  ⟨_, feCore_completes h ho hf, hq.trans (touches_feDone _ _ _)⟩
/-- A conditional branch. -/
theorem touches_branch {i : Instr} {off : BitVec 13} {cond : Core → Bool} {s : State} {k : Core} {t : Nat} {o : Out}
    (h : s.feBegins i = some (k, t)) (ho : o = branchRun i off cond s) : ∃ q, o = .next (s.setCore s.cur q) ∧ Core.Touches d k q := by
  refine touches_body h ho rfl ?_
  split
  · exact touches_jump _ _ _
  · exact .refl d k
/-- A scalar instruction with a value of `aluSpec` (O8). -/
theorem touches_alu {s : State} {i : Instr} {k : Core} {t : Nat} {x : Nat × Sreg × W64} (h : s.feBegins i = some (k, t))
    (hx : aluSpec k i = some x) (hd : x.2.1 ∈ d.s) : ∃ q, exec i s = .next (s.setCore s.cur q) ∧ Core.Touches d k q :=
  ⟨_, scalarResults s i k t x.1 x.2.1 x.2.2 h hx, (touches_result _ _ _ _ hd).trans (touches_feDone _ _ _)⟩
/-- Every instruction that works on its core alone touches its destinations alone. -/
theorem touches_exec {s : State} {i : Instr} {k : Core} {t : Nat} (h : s.feBegins (s.named i) = some (k, t))
    (ha : feAllowed k t (s.named i) = true) :
    ∃ q, exec i s = .next (s.setCore s.cur q) ∧ Core.Touches (feDest k (s.named i)) k q := by
  cases i
  case add | sub | and | or | xor | shl | shr | sra | slt | sltn | seq | sel | min | max | minn | maxn | mul | mulh | mulhn
    | div | divn | rem | remn | clz | ctz | popc | addi | andi | ori | xori | shli | shri | srai | slti | movi | movhi =>
    exact touches_alu h rfl (List.mem_singleton.mpr rfl)
  case j =>
    refine touches_body (o := execJ _ _ s) h rfl rfl ?_
    exact touches_jump _ _ _
  case jl =>
    refine touches_body (o := execJl _ _ s) h rfl rfl (.trans (touches_result _ _ _ _ ?_) (touches_jump _ _ _))
    exact List.mem_singleton.mpr rfl
  case jr t a =>
    have hx : ¬(k.getS a).toNat % 4 ≠ 0 := not_not.mpr (of_decide_eq_true ha)
    refine touches_body (o := execJr t a s) h rfl (if_neg hx) ?_
    exact touches_jump _ _ _
  case bz => exact touches_branch (o := execBz _ _ _ s) h rfl
  case bnz => exact touches_branch (o := execBnz _ _ _ s) h rfl
  case bltz => exact touches_branch (o := execBltz _ _ _ s) h rfl
  case bgez => exact touches_branch (o := execBgez _ _ _ s) h rfl
  case loop tok a rot off =>
    refine touches_body (o := execLoop tok a rot off s) h rfl rfl ?_
    have h1 := touches_result (d := feDest k (.loop tok a rot off)) k t 1 (k.getS a - 1) (r := a) (List.mem_singleton.mpr rfl)
    have h2 : Core.Touches (feDest k (.loop tok a rot off)) k
        (if rot then (k.result t 1 a (k.getS a - 1)).rotate else k.result t 1 a (k.getS a - 1)) := by
      cases rot with
      | true => exact h1.trans (touches_setSr _ _ (List.mem_singleton.mpr rfl))
      | false => exact h1
    split
    · exact h2.trans (touches_jump _ _ _)
    · exact h2
  case nop tok => exact ⟨_, feRun_ok (body := fun _ s => .ok s) h rfl |>.trans (by rw [upCore_setCore]), touches_feDone _ _ _⟩
  case spill =>
    refine touches_body (o := execSpill _ _ _ s) h rfl rfl (touches_setSpill _ _ ?_)
    exact List.mem_singleton.mpr rfl
  case fill =>
    refine touches_body (o := execFill _ _ _ s) h rfl (spillRead_sound _ ha)
      ((touches_corrects _ _ _ _).trans (touches_result _ _ _ _ ?_))
    exact List.mem_singleton.mpr rfl
  case lds tok d a imm =>
    refine touches_body (o := execLds tok d a imm s) h rfl
      ((padAccess_open (padOpen_of_padReadable ha)).trans (padReadAt_readable ha))
      ((touches_corrPad _ _ _).trans (touches_result _ _ _ _ ?_))
    exact List.mem_singleton.mpr rfl
  case sts tok d a imm =>
    refine touches_body (o := execSts tok d a imm s) h rfl (padAccess_open ha) (touches_storeDue _ _ (feBegins_awake h) ?_)
    rfl
  case hset =>
    refine touches_body (o := execHset _ _ _ _ s) h rfl rfl
      ((touches_flushIf_ofH _ _ ?_).trans (touches_setField _ _ _ ?_)) <;> exact List.mem_singleton.mpr rfl
  case hget =>
    refine touches_body (o := execHget _ _ _ _ s) h rfl (handleRead_sound _ ha)
      ((touches_corrects _ _ _ _).trans (touches_result _ _ _ _ ?_))
    exact List.mem_singleton.mpr rfl
  case hmov =>
    refine touches_body (o := execHmov _ _ _ s) h rfl (handleRead_sound _ ha)
      ((touches_corrects _ _ _ _).trans (touches_resultH _ _ _ _ ?_))
    exact List.mem_singleton.mpr rfl
  case hld =>
    refine touches_body (o := execHld _ _ _ _ s) h rfl
      ((padAccess_open (padOpen_of_padReadable ha)).trans (padReadAt_readable ha))
      ((touches_corrPad _ _ _).trans (touches_resultH _ _ _ _ ?_))
    exact List.mem_singleton.mpr rfl
  case hldSpill =>
    refine touches_body (o := execHldSpill _ _ _ s) h rfl (spillRead_sound _ ha)
      ((touches_corrects _ _ _ _).trans (touches_resultH _ _ _ _ ?_))
    exact List.mem_singleton.mpr rfl
  case hst tok hd a off =>
    obtain ⟨ho, hb⟩ := Bool.and_eq_true_iff.mp ha
    have hc := touches_corrects (d := feDest k (s.named (.hst tok hd a off))) k isHandle (4 * ((s.core s.cur).ren hd).toNat) 4
    refine touches_body (o := execHst tok hd a off s) h rfl ((padAccess_open ho).trans (handleRead_sound _ hb))
      (hc.trans (touches_storeDue _ _ (hc.sleep.trans (feBegins_awake h)) ?_))
    rfl
  case hstSpill tok hd n =>
    have hslots : (feDest k (s.named (.hstSpill tok hd n))).spill =
        [4 * n.toNat, 4 * n.toNat + 1, 4 * n.toNat + 2, 4 * n.toNat + 3] := rfl
    refine touches_body (o := execHstSpill tok hd n s) h rfl (handleRead_sound _ ha) ?_
    refine (touches_corrects _ _ _ _).trans (.trans (touches_setSpill _ _ ?_) (.trans (touches_setSpill _ _ ?_)
      (.trans (touches_setSpill _ _ ?_) (touches_setSpill _ _ ?_)))) <;> simp [hslots]
  case hadv tok hd a dim =>
    obtain ⟨hb, hv⟩ := Bool.and_eq_true_iff.mp ha
    obtain ⟨v, hv⟩ := Option.isSome_iff_exists.mp hv
    refine touches_body (o := execHadv tok hd a dim s) h rfl
      ((handleRead_sound _ hb).trans (by simp only [getH_corrects, getS_corrects, hv]; rfl))
      ((touches_corrects _ _ _ _).trans (touches_resultH _ _ _ _ ?_))
    exact List.mem_singleton.mpr rfl
  all_goals exact absurd ha Bool.false_ne_true

/-- Settles O19: what such an instruction touches, by `touches_exec`. -/
theorem coreOnlyInstructionsFrame : Obligations.CoreOnlyInstructionsFrame := by
  unfold Obligations.CoreOnlyInstructionsFrame
  intro s i k t h ha
  obtain ⟨q, hq, ht⟩ := touches_exec h ha
  exact ⟨q, hq, fun _ => rfl, ht.shape, ht.count, ht.scalars, ht.handles, ht.spills, ht.specials, ht.bytes, ht.bads, ht.weaks⟩

end Sys2Proof.Machine
end

section
/-!
PROOFS. Routing (O37): every instruction of an engine is routed to its queue, with its operands as they stand.
-/

namespace Sys2Proof.Machine
open Sys2Proof

/-! ### The instructions of an engine -/

/-- The engine that an opcode byte names (R20). -/
def engCode (w : BitVec 8) : Option Eng :=
  match w.toNat / 64 with
  | 1 => some .ld | 2 => some .ex | 3 => some .st | _ => none
theorem engOf_of_opOf {i : Instr} {w : BitVec 8} {e : Option Eng} (hw : opOf i = w) (he : engCode w = e) : engOf i = e := by
  subst hw
  exact he
theorem exec_of_opOf {i : Instr} {w : BitVec 8} {s : State} (hw : opOf i = w) (h : exec i s = match engCode w with
      | some e => routed e i (feCheck i) s
      | none => exec i s) : exec i s = match engOf i with
      | some e => routed e i (feCheck i) s
      | none => exec i s := by
  subst hw
  exact h
/-- `exec` routes every instruction of an engine under its FE check (R22); the rest it runs itself. -/
theorem exec_eq_routed (i : Instr) (s : State) : exec i s = match engOf i with
    | some e => routed e i (feCheck i) s
    | none => exec i s := by
  cases i <;> (refine exec_of_opOf (w := _) (by dsimp only [opOf]) ?_; exact rfl)
theorem exec_routed {i : Instr} {e : Eng} (h : engOf i = some e) (s : State) : exec i s = routed e i (feCheck i) s := by
  rw [exec_eq_routed, h]
/-- Renaming its handles leaves an instruction's length. -/
theorem named_size (s : State) (i : Instr) : (s.named i).size = i.size := by
  cases i <;> rfl

/-! ### What routing leaves (R22, R37) -/

/-- Making a pending write leaves PCFE and the unit. -/
@[simp] theorem watch_run (k : Core) (a n : Nat) : (k.watch a n).run = k.run := by
  unfold Core.watch
  split
  · split <;> rfl
  · rfl
@[simp] theorem clearBad_run (k : Core) (f : ProtArr → Bool) (lo n : Nat) : (k.clearBad f lo n).run = k.run := by
  unfold Core.clearBad
  split <;> rfl
@[simp] theorem watch_r (k : Core) (a n : Nat) : (k.watch a n).r = k.r := by
  unfold Core.watch
  split
  · split <;> rfl
  · rfl
@[simp] theorem storeWhen_r (k : Core) (n a : Nat) (bs : List Byte) : (k.storeWhen n a bs).r = k.r := by
  unfold Core.storeWhen
  dsimp only
  split <;> split <;> simp [Core.store]
@[simp] theorem storeWhen_run (k : Core) (n a : Nat) (bs : List Byte) : (k.storeWhen n a bs).run = k.run := by
  unfold Core.storeWhen
  dsimp only
  split <;> split <;> simp [Core.store]
theorem apply_pc (k : Core) (d : Due) : (k.apply d).r.pc = k.r.pc := by
  unfold Core.apply
  split <;> simp [Core.setS, Core.setH, Core.orSr, Core.setSr]
  split <;> rfl
theorem apply_run (k : Core) (d : Due) : (k.apply d).run = k.run := by
  unfold Core.apply
  split <;> simp [Core.setS, Core.setH, Core.orSr, Core.setSr]
  split <;> rfl
theorem flush_pc (k : Core) (src : Strm) (t : Nat) : (k.flush src t).r.pc = k.r.pc :=
  flushIf_keeps (g := fun q => q.r.pc) (fun _ _ => rfl) (fun _ _ => rfl) (fun d _ _ q => apply_pc q d)
theorem flush_run (k : Core) (src : Strm) (t : Nat) : (k.flush src t).run = k.run :=
  flushIf_keeps (g := fun q => q.run) (fun _ _ => rfl) (fun _ _ => rfl) (fun d _ _ q => apply_run q d)
theorem flush_v (k : Core) (src : Strm) (t : Nat) : (k.flush src t).v = k.v :=
  flushIf_keeps (g := fun q => q.v) (fun _ _ => rfl) (fun _ _ => rfl) (fun d _ _ q => apply_v q d)
theorem flush_queue (k : Core) (src : Strm) (t : Nat) (e : Eng) : (k.flush src t).queue e = k.queue e :=
  flushIf_keeps (g := fun q => q.queue e) (fun _ _ => rfl) (fun _ _ => by cases e <;> rfl)
    (fun d _ _ q => by cases e <;> simp [Core.queue])
/-- With nothing pending, there is nothing to make. -/
theorem flush_none {k : Core} (h : k.eng.due = []) (src : Strm) (t : Nat) : k.flush src t = k := by
  simp only [Core.flush, Core.flushIf, h, List.filter_nil, Core.applyAll]
  rw [← h]

/-- Reading handle images corrects words alone. -/
theorem touches_imagesRead (k : Core) (i : Instr) (sv : List W64) (d : Dest) : Core.Touches d k (k.imagesRead i sv) := by
  have hf : ∀ (l : List Hreg) (q : Core), Core.Touches d q (l.foldl (fun k h => k.corrects isHandle (4 * h.toNat) 4) q) := by
    intro l
    induction l with
    | nil => exact fun q => .refl d q
    | cons h t ih => exact fun q => (touches_corrects q _ _ _).trans (ih _)
  unfold Core.imagesRead
  split
  · exact .refl d k
  · dsimp only
    split
    · exact (hf _ k).trans (touches_corrPad _ _ _)
    · exact hf _ k

/-- What touches its destinations alone leaves the queues, the unit and the vector state, and the holds of the schedule. -/
theorem Core.Touches.queue {d : Dest} {k q : Core} (h : Core.Touches d k q) (e : Eng) : q.queue e = k.queue e := by
  rw [h.shape]
  cases e <;> rfl
theorem Core.Touches.holds {d : Dest} {k q : Core} (h : Core.Touches d k q) (e : Eng) : q.holds e = k.holds e := by
  rw [h.shape]
  cases e <;> rfl
theorem Core.Touches.run {d : Dest} {k q : Core} (h : Core.Touches d k q) : q.run = k.run := by rw [h.shape]
theorem Core.Touches.v {d : Dest} {k q : Core} (h : Core.Touches d k q) : q.v = k.v := by rw [h.shape]
/-- Reading handle images leaves PCFE. -/
theorem imagesRead_r (k : Core) (i : Instr) (sv : List W64) : (k.imagesRead i sv).r = k.r := by
  have hf : ∀ (l : List Hreg) (q : Core), (l.foldl (fun k h => k.corrects isHandle (4 * h.toNat) 4) q).r = q.r := by
    intro l
    induction l with
    | nil => exact fun _ => rfl
    | cons h t ih => exact fun q => (ih _).trans (corrects_r _ _ _ _)
  unfold Core.imagesRead
  split
  · rfl
  · dsimp only
    split
    · rw [Core.corrPad]
      split
      · exact hf _ k
      · exact (corrects_r _ _ _ _).trans (hf _ k)
    · exact hf _ k
/-- The core with an entry at the end of a queue, as routing leaves it (R20, R22): PCFE behind the instruction, the FE's clock in
the cycle after, one more entry counted in the lanes it takes. -/
def Core.queued (k : Core) (e : Eng) (en : Entry) (n t : Nat) (room : Map Nat) : Core :=
  { ((k.setQueue e (k.queue e ++ [en])).skip n) with
    eng := { (k.setQueue e (k.queue e ++ [en])).eng with cyc := t + 1, satisfied := false }
    spec := { (k.setQueue e (k.queue e ++ [en])).spec with room := room } }
theorem queued_queue_same (k : Core) (e : Eng) (en : Entry) (n t : Nat) (room : Map Nat) :
    (k.queued e en n t room).queue e = k.queue e ++ [en] := by cases e <;> rfl
theorem queued_queue_ne (k : Core) {e e' : Eng} (en : Entry) (n t : Nat) (room : Map Nat) (h : e' ≠ e) :
    (k.queued e en n t room).queue e' = k.queue e' := by
  cases e <;> cases e' <;> trivial
theorem queued_pc (k : Core) (e : Eng) (en : Entry) (n t : Nat) (room : Map Nat) :
    (k.queued e en n t room).r.pc = k.r.pc + BitVec.ofNat 64 n := by cases e <;> rfl
theorem queued_run (k : Core) (e : Eng) (en : Entry) (n t : Nat) (room : Map Nat) : (k.queued e en n t room).run = k.run := by
  cases e <;> rfl
theorem queued_v (k : Core) (e : Eng) (en : Entry) (n t : Nat) (room : Map Nat) : (k.queued e en n t room).v = k.v := by
  cases e <;> rfl
/-- An instruction that is routed: its entry takes the operands as the core of that cycle gives them, at the end of its queue. -/
theorem routes_gives {e : Eng} {i : Instr} {chk : Nat → Entry → State → Option Stop} {s s1 : State} {en : Entry}
    (h : s.routes e i chk = some (en, s1)) :
    ∃ t hv lane room, let q := ((s.core s.cur).flush .fe t).imagesRead i ((sReads i).map ((s.core s.cur).flush .fe t).getS)
      en = { q.entryOf i t hv 15 with lane := lane } ∧ s1 = s.setCore s.cur (q.queued e en i.size t room) := by
  unfold State.routes at h
  simp only [] at h
  split at h
  · cases h
  · split at h
    · cases h
    · split at h
      · cases h
      · split at h
        · cases h
        · split at h
          · cases h
          · split at h
            · cases h
            · split at h
              · cases h
              · cases h
                exact ⟨_, _, _, _, rfl, rfl⟩
/-- An instruction that finds its queue not empty, or held back, is not at the head of a free queue. -/
theorem route_behind {e : Eng} {i : Instr} {chk : Nat → Entry → State → Option Stop} {s s1 : State} {en : Entry}
    (h : s.routes e i chk = some (en, s1)) (hb : (s.core s.cur).queue e ≠ [] ∨ (s.core s.cur).holds e = true) :
    route e i chk s = .next s1 := by
  rw [route_routes h]
  obtain ⟨t, hv, lane, room, -, rfl⟩ := routes_gives h
  have ht := touches_imagesRead ((s.core s.cur).flush .fe t) i ((sReads i).map ((s.core s.cur).flush .fe t).getS) {}
  refine if_neg (fun hq => ?_)
  rw [core_setCore_same, queued_queue_same, ht.queue, flush_queue, Core.queued, routed_holds, ht.holds, flush_holds] at hq
  rcases hb with hb | hb
  · exact hb (by simpa using hq.1)
  · simp [hb] at hq

/-- Settles O37: `exec_routed` and `route_behind` give the step, `routes_gives` the entry and the core. -/
theorem routedInstructionsJoinTheirQueue : Obligations.RoutedInstructionsJoinTheirQueue := by
  unfold Obligations.RoutedInstructionsJoinTheirQueue
  intro s i e en s1 he h hb
  obtain ⟨hmark, hwaited, hi⟩ := routes_fresh h
  have hstep : exec i s = .next s1 := (exec_routed he s).trans (route_behind h hb)
  obtain ⟨t, hv, lane, room, hen, hs1⟩ := routes_gives h
  have ht := touches_imagesRead ((s.core s.cur).flush .fe t) (s.named i)
    ((sReads (s.named i)).map ((s.core s.cur).flush .fe t).getS) {}
  have hr := imagesRead_r ((s.core s.cur).flush .fe t) (s.named i) ((sReads (s.named i)).map ((s.core s.cur).flush .fe t).getS)
  dsimp only
  refine ⟨hstep, ?_, fun e' h' => ?_, hi, ?_, hmark, hwaited, fun hd => ?_, ?_, ?_, ?_, ?_⟩
  · rw [hs1, core_setCore_same, queued_queue_same, ht.queue, flush_queue]
  · rw [hs1, core_setCore_same, queued_queue_ne _ _ _ _ _ h', ht.queue, flush_queue]
  · rw [hen, Core.entryOf, hr, flush_pc, State.pcNow]
  · rw [hen, Core.entryOf]
    refine List.map_congr_left (fun r _ => ?_)
    rw [Core.getS, hr, flush_none hd, Core.getS]
  · rw [hs1, core_setCore_same, queued_pc, hr, flush_pc, named_size, State.pcNow]
  · rw [hs1, core_setCore_same]
  · rw [hs1, core_setCore_same, queued_run, ht.run, flush_run]
  · rw [hs1, core_setCore_same, queued_v, ht.v, flush_v]

end Sys2Proof.Machine
end

section
/-!
PROOFS. Instructions that begin at their engine, and the repetitions of vector instructions (O40).
-/

namespace Sys2Proof.Machine
open Sys2Proof

/-! ### An instruction that begins (R20 to R25) -/

/-- What beginning comes to: the instruction was routed to its engine, and its entry starts at the head of the queue. -/
theorem begins_gives {s : State} {i : Instr} {b : Begun} (h : s.begins i = some b) :
    ∃ e en s1, engOf i = some e ∧ s.routes e (s.named i) (feCheck i) = some (en, s1) ∧ (s1.core s.cur).queue e = [en] ∧
      b = s1.starts s.cur e en := by
  unfold State.begins at h
  split at h
  · cases h
  · rename_i e he
    simp only [] at h
    split at h
    · cases h
    · rename_i en s1 hr
      split at h
      · cases h
      · rename_i hq
        split at h
        · cases h
          simp only [Bool.or_eq_true, decide_eq_true_eq, not_or, Decidable.not_not] at hq
          exact ⟨e, en, s1, he, hr, hq.1.1.1, rfl⟩
        · cases h
/-- An instruction of an engine that begins runs its body. -/
theorem exec_begins {s : State} {i : Instr} {b : Begun} (h : s.begins i = some b) :
    exec i s = b.done (bodyOf b.en.i b.c b.en b.t b.s) := by
  obtain ⟨e, en, s1, he, -⟩ := begins_gives h
  exact (exec_routed he s).trans (routed_begins he h)
/-- The entry of an instruction that begins has made no progress. -/
theorem begins_fresh {s : State} {i : Instr} {b : Begun} (h : s.begins i = some b) :
    b.en.i = s.named i ∧ b.en.mark = .fresh ∧ b.c = s.cur := by
  obtain ⟨e, en, s1, -, hr, -, rfl⟩ := begins_gives h
  obtain ⟨hm, -, hi⟩ := routes_fresh hr
  exact ⟨hi, hm, rfl⟩

/-! ### The FE of a core that routes is awake -/

theorem queued_sleep (k : Core) (e : Eng) (en : Entry) (n t : Nat) (room : Map Nat) :
    (k.queued e en n t room).sleep = k.sleep := by cases e <;> rfl
theorem setHead_sleep (k : Core) (e : Eng) (en : Entry) : (k.setHead e en).sleep = k.sleep := by cases e <;> rfl
theorem setEngAt_sleep (k : Core) (e : Eng) (t : Nat) : (k.setEngAt e t).sleep = k.sleep := by cases e <;> rfl
theorem flushIf_awake {k : Core} (p : Due → Bool) (h : k.sleep = .awake) : (k.flushIf p).sleep = .awake := applyAll_awake _ h
theorem opened_awake {k : Core} (e : Eng) (en : Entry) (t : Nat) (h : k.sleep = .awake) : (k.opened e en t).sleep = .awake := by
  have hc : ∀ (l : List Hreg) (q : Core), q.sleep = .awake →
      (l.foldl (fun k h => k.corrects isHandle (4 * h.toNat) 4) q).sleep = .awake := by
    intro l
    induction l with
    | nil => exact fun _ hq => hq
    | cons x t ih => exact fun q hq => ih _ ((corrects_sleep _ _ _ _).trans hq)
  unfold Core.opened
  refine hc _ _ ?_
  have h0 : (if en.waited then k else (k.takeToks (engStrm e) (tokOf en.i)).1.noteTaken (engStrm e) (tokOf en.i) t).sleep = .awake := by
    split
    · exact h
    · rw [noteTaken_sleep, takeToks_sleep, h]
  have h1 := flushIf_awake (fun d => match d.wr with
    | .h r _ => (hStreams en.i).contains r && decide (d.due ≤ t)
    | _ => false) (flushIf_awake ((((if en.waited then k else
      (k.takeToks (engStrm e) (tokOf en.i)).1.noteTaken (engStrm e) (tokOf en.i) t).setHead e
        { en with waited := true, weak := false }).setEngAt e t).ripe (engStrm e) t)
      ((setEngAt_sleep _ e t).trans ((setHead_sleep _ e { en with waited := true, weak := false }).trans h0)))
  split
  · exact h1
  · exact h1
/-- The core of an instruction that is routed is live. -/
theorem routes_live {e : Eng} {i : Instr} {chk : Nat → Entry → State → Option Stop} {s s1 : State} {en : Entry}
    (h : s.routes e i chk = some (en, s1)) : (s.core s.cur).live = true := by
  unfold State.routes at h
  simp only [] at h
  split at h
  · cases h
  · rename_i h1
    simp only [Bool.or_eq_true, Bool.not_eq_true', not_or, Bool.not_eq_false] at h1
    exact h1.1.1.1
theorem begins_awake {s : State} {i : Instr} {b : Begun} (h : s.begins i = some b) : b.core.sleep = .awake := by
  obtain ⟨e, en, s1, -, hr, -, rfl⟩ := begins_gives h
  have hl := routes_live hr
  obtain ⟨t, hv, lane, room, -, hs1⟩ := routes_gives hr
  have hs : (s.core s.cur).sleep = .awake := by
    simp only [Core.live, Bool.and_eq_true, beq_iff_eq] at hl
    exact hl.1.2
  have h1 : (s1.core s.cur).sleep = .awake := by
    rw [hs1, core_setCore_same, queued_sleep, (touches_imagesRead _ _ _ {}).sleep]
    exact flushIf_awake _ hs
  rw [Begun.core, State.starts, core_setCore_same]
  exact opened_awake _ _ _ h1

/-! ### The repetitions of a vector instruction (R147) -/

/-- The body of a vector instruction is the repetition that R133 to R168 give it. -/
theorem bodyOf_vecOp {en : Entry} {i : Instr} {rp : Rep} {lat : Nat} {rep : Option Mem → Core → Nat → VOut}
    (h : vecOp en i = some (rp, lat, rep)) (c t : Nat) (s : State) : bodyOf i c en t s = vecBody rp lat rep c en t s := by
  cases i <;> cases h <;> rfl

/-- A repetition that was the last completes the instruction, with the flags of all (R43, R147). -/
theorem vecBody_last {b : Begun} {rp : Rep} {lat n : Nat} {rep : Option Mem → Core → Nat → VOut} {g f : Fl} {seen : Option Mem}
    {k' : Core} {e : Bool} (hm : repsLeft b.en rp = (n, g, seen)) (hr : rep seen b.core b.t = .done k' e f)
    (hl : n ≤ 1 ∨ (rp = .xend ∧ e = true)) :
    b.done (vecBody rp lat rep b.c b.en b.t b.s) = .next (b.ends lat (k'.flagsAt (b.t + lat) (g ||| f))) := by
  have hc : (rp == Rep.xend && e || decide (n ≤ 1)) = true := by
    rcases hl with h | ⟨h1, h2⟩
    · simp [h]
    · simp [h1, h2]
  rw [Begun.core] at hr
  simp only [vecBody, hm, hr]
  rw [if_pos hc]
  rfl
/-- A repetition that was not the last leaves the rest in its entry, and the EX may start the next one cycle later (R37, R147). -/
theorem vecBody_more {b : Begun} {rp : Rep} {lat n : Nat} {rep : Option Mem → Core → Nat → VOut} {g f : Fl} {seen : Option Mem}
    {k' : Core} {e : Bool} (hm : repsLeft b.en rp = (n, g, seen)) (hr : rep seen b.core b.t = .done k' e f)
    (hn : 1 < n) (hl : ¬(rp = .xend ∧ e = true)) :
    b.done (vecBody rp lat rep b.c b.en b.t b.s) = .next (b.repeats (n - 1) (g ||| f) k') := by
  have hc : ¬(rp == Rep.xend && e || decide (n ≤ 1)) = true := by
    simp only [Bool.or_eq_true, Bool.and_eq_true, beq_iff_eq, decide_eq_true_eq]
    rintro (h | h)
    · exact hl h
    · omega
  rw [Begun.core] at hr
  simp only [vecBody, hm, hr]
  rw [if_neg hc]
  rfl
/-- An instruction that begins has all its repetitions to run. -/
theorem repsLeft_begins {s : State} {i : Instr} {b : Begun} (h : s.begins i = some b) (rp : Rep) :
    repsLeft b.en rp = (repCount rp, 0, none) := by
  rw [repsLeft, (begins_fresh h).2.1]
theorem repsLeft_reps {en : Entry} {n : Nat} {g : Fl} {seen : Option Mem} (h : en.mark = .reps n g seen) (rp : Rep) :
    repsLeft en rp = (n, g, seen) := by rw [repsLeft, h]
/-- The first repetition of a vector instruction that begins. -/
theorem exec_vector_begins {s : State} {i : Instr} {b : Begun} {rp : Rep} {lat : Nat} {rep : Option Mem → Core → Nat → VOut}
    {k' : Core} {e : Bool} {f : Fl} (h : s.begins i = some b) (hv : vecOp b.en (s.named i) = some (rp, lat, rep))
    (hr : rep none b.core b.t = .done k' e f) :
    (repCount rp ≤ 1 ∨ (rp = .xend ∧ e = true) → exec i s = .next (b.ends lat (k'.flagsAt (b.t + lat) f))) ∧
    (1 < repCount rp → ¬(rp = .xend ∧ e = true) → exec i s = .next (b.repeats (repCount rp - 1) f k')) := by
  have hm := repsLeft_begins h rp
  have hx : exec i s = b.done (vecBody rp lat rep b.c b.en b.t b.s) := by
    rw [exec_begins h, (begins_fresh h).1, bodyOf_vecOp hv]
  have h0 : (0 : Fl) ||| f = f := BitVec.zero_or
  refine ⟨fun hl => ?_, fun hn hl => ?_⟩
  · rw [hx, vecBody_last hm hr hl, h0]
  · rw [hx, vecBody_more hm hr hn hl, h0]
/-- A later repetition of a vector instruction. -/
theorem exec_vector_goes_on {x : State} {c : Nat} {b : Begun} {rp : Rep} {lat n : Nat} {rep : Option Mem → Core → Nat → VOut}
    {g f : Fl} {seen : Option Mem} {k' : Core} {e : Bool} (h : x.heads c .ex = some b) (hu : b.unheld = true)
    (hv : vecOp b.en b.en.i = some (rp, lat, rep)) (hm : b.en.mark = .reps n g seen) (hr : rep seen b.core b.t = .done k' e f) :
    (n ≤ 1 ∨ (rp = .xend ∧ e = true) → exec (.instrComplete c .ex) x = .next (b.ends lat (k'.flagsAt (b.t + lat) (g ||| f)))) ∧
    (1 < n → ¬(rp = .xend ∧ e = true) → exec (.instrComplete c .ex) x = .next (b.repeats (n - 1) (g ||| f) k')) := by
  have hx : exec (.instrComplete c .ex) x = b.done (vecBody rp lat rep b.c b.en b.t b.s) := by
    rw [show exec (.instrComplete c .ex) x = execInstrComplete c .ex x from rfl, instrComplete_heads h hu, bodyOf_vecOp hv]
  refine ⟨fun hl => ?_, fun hn hl => ?_⟩
  · rw [hx, vecBody_last (repsLeft_reps hm rp) hr hl]
  · rw [hx, vecBody_more (repsLeft_reps hm rp) hr hn hl]

/-! ### One repetition (R134, R135) -/

/-- A repetition that is opened, passes its checks and finds the granules it writes empty. -/
theorem vRep_done {c : Core} {now : Nat} {rs ws : List (Hreg × Nat)} {chk : VIn → Option Stop} {lanes : VIn → List Nat}
    {go : Core → VIn → Core × Fl} {i : VIn} (ho : vOpen c now none rs ws = .ok i) (hc : chk i = none)
    (hw : ∀ s ∈ i.l, (ws.any (fun r => r.1 == s.reg)) = true →
      (vTake c i rs).fetWrite s.h (s.h.spans ((lanes i).map s.h.along) ((lanes i).map (nth 0 s.ads))) = false) :
    ∃ sp, vRep c now none rs ws chk lanes go =
      .done (vClose ((go { vTake c i rs with sleep := .awake } i).1.sees (vTake c i rs).sleep sp) i.l (rs.head?.map (·.1))).1
        (vClose ((go { vTake c i rs with sleep := .awake } i).1.sees (vTake c i rs).sleep sp) i.l (rs.head?.map (·.1))).2
        (go { vTake c i rs with sleep := .awake } i).2 := by
  have hd : ¬((i.l.filter (fun s => ws.any (fun r => r.1 == s.reg))).any (fun s =>
      (vTake c i rs).fetWrite s.h (s.h.spans ((lanes i).map s.h.along) ((lanes i).map (nth 0 s.ads))))) = true := by
    rw [List.any_eq_true]
    rintro ⟨x, hx, hf⟩
    obtain ⟨hm, hr⟩ := List.mem_filter.mp hx
    rw [hw x hm hr] at hf
    exact Bool.false_ne_true hf
  refine ⟨if (vTake c i rs).interlocked then (i.l.filter (fun s => ws.any (fun r => r.1 == s.reg))).flatMap (fun s =>
    s.h.spans ((lanes i).map s.h.along) ((lanes i).map (nth 0 s.ads))) else [], ?_⟩
  simp only [vRep, ho, hc, Option.isSome_none, Bool.false_eq_true, if_false]
  rw [if_neg hd]
/-- The reads of a repetition change no vector state. -/
theorem touches_drain (k : Core) (h : HD) (sp : List (Nat × Nat)) (d : Dest) : Core.Touches d k (k.drain h sp) := by
  unfold Core.drain
  split
  · exact touches_mem k _ (fun _ _ => rfl)
  · exact .refl d k
theorem touches_corrPad_list (k : Core) (sp : List (Nat × Nat)) (d : Dest) : Core.Touches d k (k.corrPad sp) := by
  unfold Core.corrPad
  split
  · exact .refl d k
  · clear * -
    induction sp generalizing k with
    | nil => exact .refl d k
    | cons x t ih => exact (touches_corrects k _ _ _).trans (ih _)
theorem touches_vTake (c : Core) (i : VIn) (rs : List (Hreg × Nat)) (d : Dest) : Core.Touches d c (vTake c i rs) := by
  unfold vTake
  generalize i.l.filter _ = l
  induction l generalizing c with
  | nil => exact .refl d c
  | cons s t ih => exact ((touches_corrPad_list c _ d).trans (touches_drain _ _ _ d)).trans (ih _)
/-- Closing the streams changes their handles alone. -/
theorem touches_vClose (l : List Src) (first : Option Hreg) {d : Dest} (h : ∀ s ∈ l, s.reg ∈ d.h) (c : Core) :
    Core.Touches d c (vClose c l first).1 := by
  have hf : ∀ (l : List Src) (x : Core × Bool), (∀ s ∈ l, s.reg ∈ d.h) → Core.Touches d x.1 (l.foldl (fun (ce : Core × Bool) s =>
      (ce.1.setH s.reg (setIdx s.img (s.h.adv s.h.idx s.n).1), ce.2 || ((s.h.adv s.h.idx s.n).2 && first == some s.reg))) x).1 := by
    intro l
    induction l with
    | nil => exact fun x _ => .refl d x.1
    | cons s t ih =>
      intro x hx
      rw [List.foldl_cons]
      refine .trans (touches_setH x.1 (setIdx s.img (s.h.adv s.h.idx s.n).1) (hx s (by simp))) ?_
      exact ih (_, _) (fun y hy => hx y (by simp [hy]))
  exact hf l (c, false) h
theorem vClose_v (c : Core) (l : List Src) (first : Option Hreg) : (vClose c l first).1.v = c.v :=
  (touches_vClose l first (d := { h := l.map Src.reg }) (fun _ hs => List.mem_map_of_mem hs) c).v
theorem sees_v (k : Core) (sl : Sleep) (sp : List (Nat × Nat)) : (k.sees sl sp).v = k.v := by
  unfold Core.sees
  dsimp only
  split <;> simp

/-! ### VCMP (R54, R150) -/

/-- Lane j of a mask that is built lane by lane. -/
theorem getLsbD_mask (ks : List Nat) (m : W256) {j : Nat} (hj : j < 256) :
    (ks.foldl (fun m k => m ||| (1#256 <<< k)) m).getLsbD j = true ↔ m.getLsbD j = true ∨ j ∈ ks := by
  induction ks generalizing m with
  | nil => simp
  | cons k t ih =>
    have h1 : (1#256 <<< k).getLsbD j = decide (j = k) := by
      rw [BitVec.getLsbD_shiftLeft, BitVec.getLsbD_one]
      simp only [hj, decide_true, Bool.true_and]
      by_cases h : j = k
      · simp [h]
      · simp only [h, decide_false, Bool.and_eq_false_imp, Bool.not_eq_true', decide_eq_false_iff_not]
        intro h1 h2
        omega
    rw [List.foldl_cons, ih, BitVec.getLsbD_or, h1]
    simp only [Bool.or_eq_true, decide_eq_true_eq, List.mem_cons, or_assoc]
/-- One repetition of VCMP: CMK gets the active lanes whose comparison holds (R142, R150). -/
theorem repCmp_done {k : Core} {now : Nat} {ty : VTy} (un : Bool) (cc : Cond) {a c : Hreg} {v : VIn}
    (ho : vOpen k now none [(a, ty.lanes), (c, ty.lanes)] [] = .ok v) (hf : fmtStop ty v.l [a, c] [] = none) :
    ∃ k' e, repCmp k now none ty un cc a c = .done k' e 0 ∧ (∀ j, j < 256 → (k'.v.cmk.getLsbD j = true ↔
      j ∈ actives k true ty.lanes v.l ∧ condLane ty cc un (nth (.i 0) (lanesOf ty v.m (srcOf v.l a)) j)
        (nth (.i 0) (lanesOf ty v.m (srcOf v.l c)) j) = true)) := by
  obtain ⟨sp, h⟩ := vRep_done (chk := fun i => fmtStop ty i.l [a, c] []) (lanes := fun _ => []) (go := fun q i =>
    (q.setCmk ((actives k true ty.lanes i.l).filter (fun j => condLane ty cc un (nth (.i 0) (lanesOf ty i.m (srcOf i.l a)) j)
      (nth (.i 0) (lanesOf ty i.m (srcOf i.l c)) j))), 0)) ho hf (fun _ _ h => by simp at h)
  refine ⟨_, _, h, fun j hj => ?_⟩
  rw [vClose_v, sees_v, Core.setCmk, getLsbD_mask _ _ hj]
  simp

/-! ### Comparisons (R54) -/

/-- The number that a sign and a magnitude stand for. -/
def signed (s : Bool) (n : Nat) : Int := if s then -(n : Int) else n
theorem exLt_fin (sx sy : Bool) (nx ny dx dy : Nat) :
    exLt (.fin sx nx dx) (.fin sy ny dy) = decide (signed sx nx * dy < signed sy ny * dx) := by
  have h (s : Bool) (n d : Nat) : (if s then (-1 : Int) else 1) * (n * d : Nat) = signed s n * d := by
    cases s <;> simp [signed]
  simp only [exLt, h]
theorem exEq_fin (sx sy : Bool) (nx ny dx dy : Nat) :
    exEq (.fin sx nx dx) (.fin sy ny dy) = decide (signed sx nx * dy = signed sy ny * dx) := by
  rw [Bool.eq_iff_iff]
  simp only [exEq, exLt_fin, Bool.and_eq_true, Bool.not_eq_true', decide_eq_false_iff_not, decide_eq_true_eq]
  omega
/-- A comparison of two finite values in a floating type. -/
theorem condLane_fin {ty : VTy} (hf : ty.isFloat = true) (cc : Cond) (un sx sy : Bool) (nx ny dx dy : Nat) :
    condLane ty cc un (.f (.fin sx nx dx)) (.f (.fin sy ny dy)) = (match cc with
      | .eq => decide (signed sx nx * dy = signed sy ny * dx) | .ne => !decide (signed sx nx * dy = signed sy ny * dx)
      | .lt => decide (signed sx nx * dy < signed sy ny * dx) | .le => !decide (signed sy ny * dx < signed sx nx * dy)
      | .gt => decide (signed sy ny * dx < signed sx nx * dy) | .ge => !decide (signed sx nx * dy < signed sy ny * dx)
      | _ => false) := by
  have hx : exNan (.fin sx nx dx) = false := rfl
  have hy : exNan (.fin sy ny dy) = false := rfl
  simp only [condLane, hf, Lane.ex, hx, hy, exLt_fin, exEq_fin, Bool.or_self, Bool.false_eq_true, if_false, if_true]
    <;> cases cc <;> rfl
/-- A comparison with a NaN. -/
theorem condLane_nan {ty : VTy} (hf : ty.isFloat = true) (cc : Cond) (un : Bool) (x y : Lane)
    (h : (exNan (x.ex ty) || exNan (y.ex ty)) = true) : condLane ty cc un x y = (un || cc == .ne) := by
  simp only [condLane, hf, h, if_true]
/-- The bits of an integer type as R148 reads them. -/
theorem int_eq_sgnIn {ty : VTy} {x : Nat} (hf : ty.isFloat = false) (hx : x < 2 ^ ty.bitsN) : Lane.int ty (.i x) = sgnIn ty x := by
  cases ty <;> simp [VTy.isFloat] at hf <;>
    simp [VTy.bitsN, VTy.fmt, fmtBits, fmtHalf, Lane.int, decI, fmtNat, sgnIn, sext] at hx ⊢ <;> omega
/-- Two's-complement readings of patterns of one width are equal exactly when the patterns are. -/
theorem sgnIn_inj {ty : VTy} {x y : Nat} (hf : ty.isFloat = false) (hx : x < 2 ^ ty.bitsN) (hy : y < 2 ^ ty.bitsN) :
    sgnIn ty x = sgnIn ty y ↔ x = y := by
  cases ty <;> simp [VTy.isFloat] at hf <;>
    simp [VTy.bitsN, VTy.fmt, fmtBits, fmtHalf, sgnIn] at hx hy ⊢ <;> (try split) <;> (try split) <;> omega
/-- A comparison in an integer type. -/
theorem condLane_int {ty : VTy} (hf : ty.isFloat = false) (cc : Cond) (un : Bool) {x y : Nat} (hx : x < 2 ^ ty.bitsN)
    (hy : y < 2 ^ ty.bitsN) : condLane ty cc un (.i x) (.i y) = (match cc with
      | .eq => sgnIn ty x == sgnIn ty y | .ne => sgnIn ty x != sgnIn ty y | .lt => decide (sgnIn ty x < sgnIn ty y)
      | .le => decide (sgnIn ty x ≤ sgnIn ty y) | .gt => decide (sgnIn ty y < sgnIn ty x) | .ge => decide (sgnIn ty y ≤ sgnIn ty x)
      | .ltn => decide (x < y) | .len => decide (x ≤ y) | .gtn => decide (y < x) | .gen => decide (y ≤ x)
      | .any => (x &&& y) != 0 | .all => (x &&& y) == y) := by
  simp only [condLane, hf, int_eq_sgnIn hf hx, int_eq_sgnIn hf hy, Lane.bits, Bool.false_eq_true, if_false]
  cases cc <;> rfl

/-! ### VRED SUM (R96, R157, R158) -/

/-- A value that is w units of the cell. -/
theorem cellUnits_is {z : Ex} {w : Int} (h : z.is w (2 ^ 149)) : cellUnits z = w := by
  cases z with
  | nan => exact absurd h id
  | inf => exact absurd h id
  | fin s n d =>
    obtain ⟨hd, h⟩ := h
    have hq : (n * 2 ^ 149 : Nat) = w.natAbs * d := by
      have h1 := congrArg Int.natAbs h
      rw [Int.natAbs_mul, Int.natAbs_mul, Int.natAbs_natCast, Int.natAbs_natCast] at h1
      rw [← h1]
      cases s <;> simp
    have hu : (n * 2 ^ 149 / d : Nat) = w.natAbs := by rw [hq, Nat.mul_div_cancel _ hd]
    have hd' : (0 : Int) < d := by exact_mod_cast hd
    have hn : (0 : Int) ≤ n * (2 ^ 149 : Nat) := by positivity
    have hs : (if s then -(w.natAbs : Int) else w.natAbs) = w := by
      cases s with
      | false =>
        rw [if_neg Bool.false_ne_true] at h
        have := nonneg_of_mul_nonneg_left (h ▸ hn) hd'
        simp only [Bool.false_eq_true, if_false]
        omega
      | true =>
        rw [if_pos rfl, Int.neg_mul] at h
        have := nonpos_of_mul_nonpos_left (h ▸ Int.neg_nonpos_of_nonneg hn) hd'
        simp only [if_true]
        omega
    simp only [cellUnits, hu]
    exact hs
/-- A cell in range adds exactly (R96). -/
theorem xrAdd_exact {k : Core} {z : Ex} {w : Int} (h : z.is w (2 ^ 149)) (hr : (k.v.xrF + w).natAbs < 2 ^ 319) :
    (k.xrAdd z).v.xrF = k.v.xrF + w ∧ (k.xrAdd z).v.xrSt = k.v.xrSt := by
  have hs : sext 320 (intBits 320 (k.v.xrF + w)) = k.v.xrF + w := by
    simp only [sext, intBits]
    omega
  cases z with
  | nan => exact absurd h id
  | inf => exact absurd h id
  | fin s n d =>
    have hc := cellUnits_is h
    simp only [Core.xrAdd, cellAdd, hc, hs, if_true, and_self]

/-- Adding values one by one to a cell that stays in range. -/
theorem foldl_xrAdd_exact {z : Nat → Ex} {w : Nat → Int} {l : List Nat} {k : Core} (h : ∀ j ∈ l, (z j).is (w j) (2 ^ 149))
    (hr : k.v.xrF.natAbs + (l.map (fun j => (w j).natAbs)).sum < 2 ^ 319) :
    (l.foldl (fun k j => k.xrAdd (z j)) k).v.xrF = k.v.xrF + (l.map w).sum ∧
    (l.foldl (fun k j => k.xrAdd (z j)) k).v.xrSt = k.v.xrSt := by
  induction l generalizing k with
  | nil => exact ⟨by simp, rfl⟩
  | cons j t ih =>
    simp only [List.map_cons, List.sum_cons] at hr ⊢
    have hab := Int.natAbs_add_le k.v.xrF (w j)
    obtain ⟨h1, h2⟩ := xrAdd_exact (k := k) (h j (by simp)) (by omega)
    obtain ⟨h3, h4⟩ := ih (k := k.xrAdd (z j)) (fun x hx => h x (by simp [hx])) (by rw [h1]; omega)
    rw [List.foldl_cons]
    exact ⟨by rw [h3, h1, add_assoc], by rw [h4, h2]⟩
/-- One repetition of VRED SUM adds the exact sum of its active lanes to XR (R158). -/
theorem repSum_done {k : Core} {now : Nat} {ty : VTy} {a : Hreg} {v : VIn} {w : Nat → Int}
    (ho : vOpen k now none [(a, ty.lanes)] [] = .ok v) (hf : fmtStop ty v.l [a] [] = none)
    (hw : ∀ j ∈ actives k true ty.lanes v.l, ((nth (.i 0) (lanesOf ty v.m (srcOf v.l a)) j).ex ty).is (w j) (2 ^ 149))
    (hr : k.v.xrF.natAbs + ((actives k true ty.lanes v.l).map (fun j => (w j).natAbs)).sum < 2 ^ 319) :
    ∃ k' e, repSum k now none ty a = .done k' e 0 ∧ k'.v.xrF = k.v.xrF + ((actives k true ty.lanes v.l).map w).sum ∧
      k'.v.xrSt = k.v.xrSt := by
  obtain ⟨sp, h⟩ := vRep_done (chk := fun i => fmtStop ty i.l [a] []) (lanes := fun _ => []) (go := fun q i =>
    ((actives k true ty.lanes i.l).foldl (fun q j => q.xrAdd ((nth (.i 0) (lanesOf ty i.m (srcOf i.l a)) j).ex ty)) q, 0))
    ho hf (fun _ _ h => by simp at h)
  have hv := (touches_vTake k v [(a, ty.lanes)] {}).v
  obtain ⟨h1, h2⟩ := foldl_xrAdd_exact (k := { vTake k v [(a, ty.lanes)] with sleep := .awake }) hw (by
    dsimp only
    rw [hv]
    exact hr)
  refine ⟨_, _, h, ?_, ?_⟩
  · rw [vClose_v, sees_v, h1]
    dsimp only
    rw [hv]
  · rw [vClose_v, sees_v, h2]
    dsimp only
    rw [hv]

/-- Settles O40: a repetition that goes on by `exec_vector_begins` and `exec_vector_goes_on`, VCMP by `repCmp_done`, `condLane_fin`,
`condLane_nan` and `condLane_int`, VRED SUM by `repSum_done`. -/
theorem vectorInstructionsRunTheirRepetitions : Obligations.VectorInstructionsRunTheirRepetitions := by
  unfold Obligations.VectorInstructionsRunTheirRepetitions
  refine ⟨fun s i b rp lat rep k' e f h hv hr => ?_, fun x c b rp lat n rep g seen k' e f h hu hv hm hr =>
    exec_vector_goes_on h hu hv hm hr, fun k now ty un cc a c v ho hf => repCmp_done un cc ho hf,
    fun ty un cc sx sy nx ny dx dy hf hx hy => ?_, fun ty un x y hf hx hy => ?_,
    fun k now ty a v w ho hf hw hr => repSum_done ho hf hw hr⟩
  · obtain ⟨h1, h2⟩ := exec_vector_begins h hv hr
    refine ⟨fun hl => h1 (hl.imp_left (fun h => by rw [h]; rfl)), fun h0 hl => ?_⟩
    cases rp with
    | x1 => exact absurd rfl h0
    | x4 => exact h2 (by decide) hl
    | x16 => exact h2 (by decide) hl
    | xend => exact h2 (by decide) hl
  · have hn (z : Lane) : condLane ty cc un (.f .nan) z = (un || cc == .ne) := condLane_nan hf _ _ _ _ rfl
    refine ⟨?_, ?_, ?_, ?_, ?_, ?_, fun z => .inl (hn z), ?_, ?_, ?_⟩
    · simp [condLane_fin hf, signed]
    · simp [condLane_fin hf, signed]
    · simp [condLane_fin hf, signed]
    · simp [condLane_fin hf, signed]
    · simp [condLane_fin hf, signed]
    · simp [condLane_fin hf, signed]
    · simp [condLane, hf, Lane.ex, exNan, exLt]
    · simp [condLane, hf, Lane.ex, exNan, exLt]
    · rw [condLane_nan hf _ _ _ _ (by simp [Lane.ex, exNan])]
      simp
  · simp only [condLane_int hf _ un hx hy]
    simp [sgnIn_inj hf hx hy]

end Sys2Proof.Machine
end

section
/-!
PROOFS. The frame of vector instructions (O41): what one repetition leaves unchanged, operation by operation.
-/

namespace Sys2Proof.Machine
open Sys2Proof

/-! ### The relation -/

/-- q is the core k but for handles of R, the register 0x14A, the scratchpad, the vector state below the mask stack, the EX, what is
due, and words corrected or rewritten; the bytes at the addresses P are read as before. -/
structure Core.Streams (R : List Hreg) (P : Nat → Prop) (k q : Core) : Prop where
  shape : q = { k with
    r := { k.r with h := q.r.h, sr := q.r.sr }, pad := q.pad, v := q.v, eng := q.eng, bad := q.bad, weak := q.weak, ce := q.ce,
    sleep := q.sleep }
  handles : ∀ h, h ∉ R → q.getH h = k.getH h
  specials : ∀ m, m ≠ 0x14A → q.getSr m = k.getSr m
  ld : q.eng.ld = k.eng.ld
  st : q.eng.st = k.eng.st
  stack : q.v.stack = k.v.stack
  depth : q.v.depth = k.v.depth
  bytes : ∀ now a, P a → rd (q.padAt now) a = rd (k.padAt now) a

namespace Core.Streams
variable {R : List Hreg} {P : Nat → Prop} {k q p : Core}

theorem trans (h : Core.Streams R P k q) (g : Core.Streams R P q p) : Core.Streams R P k p where
  shape := g.shape.trans (by rw [h.shape])
  handles x hx := (g.handles x hx).trans (h.handles x hx)
  specials n hn := (g.specials n hn).trans (h.specials n hn)
  ld := g.ld.trans h.ld
  st := g.st.trans h.st
  stack := g.stack.trans h.stack
  depth := g.depth.trans h.depth
  bytes now a ha := (g.bytes now a ha).trans (h.bytes now a ha)
theorem refl (R : List Hreg) (P : Nat → Prop) (k : Core) : Core.Streams R P k k :=
  ⟨rfl, fun _ _ => rfl, fun _ _ => rfl, rfl, rfl, rfl, rfl, fun _ _ _ => rfl⟩
theorem foldl {β : Type} {f : Core → β → Core} (l : List β) (h : ∀ x ∈ l, ∀ c, Core.Streams R P c (f c x)) (k : Core) :
    Core.Streams R P k (l.foldl f k) := by
  induction l generalizing k with
  | nil => exact refl R P k
  | cons x t ih => exact (h x (by simp) k).trans (ih (fun y hy => h y (by simp [hy])) _)
/-- A fold that carries something besides the core. -/
theorem foldl_inv {β γ : Type} {g : Core × γ → β → Core × γ} {I : γ → Prop} {l : List β}
    (h : ∀ x ∈ l, ∀ w : Core × γ, I w.2 → Core.Streams R P w.1 (g w x).1 ∧ I (g w x).2) {w : Core × γ} (hw : I w.2) :
    Core.Streams R P w.1 (l.foldl g w).1 ∧ I (l.foldl g w).2 := by
  induction l generalizing w with
  | nil => exact ⟨refl R P w.1, hw⟩
  | cons x t ih =>
    obtain ⟨h1, h2⟩ := h x (by simp) w hw
    obtain ⟨h3, h4⟩ := ih (fun y hy => h y (by simp [hy])) h2
    exact ⟨h1.trans h3, h4⟩
theorem mono {P' : Nat → Prop} (h : Core.Streams R P k q) (hp : ∀ a, P' a → P a) : Core.Streams R P' k q :=
  { h with bytes := fun now a ha => h.bytes now a (hp a ha) }

end Core.Streams

variable {R : List Hreg} {P : Nat → Prop}

/-! ### Words, registers and vector state -/

/-- Words that are corrected, rewritten or counted, and an FE that wakes. -/
theorem streams_words (k : Core) (bad weak : List ProtWord) (ce : Nat) (sl : Sleep) :
    Core.Streams R P k { k with bad := bad, weak := weak, ce := ce, sleep := sl } :=
  ⟨rfl, fun _ _ => rfl, fun _ _ => rfl, rfl, rfl, rfl, rfl, fun _ _ _ => rfl⟩
theorem streams_sleep (k : Core) (sl : Sleep) : Core.Streams R P k { k with sleep := sl } := streams_words k k.bad k.weak k.ce sl
theorem streams_clearBad (k : Core) (f : ProtArr → Bool) (lo n : Nat) : Core.Streams R P k (k.clearBad f lo n) := by
  unfold Core.clearBad
  split
  · exact .refl R P k
  · exact streams_words k _ _ k.ce k.sleep
theorem streams_corrects (k : Core) (f : ProtArr → Bool) (lo n : Nat) : Core.Streams R P k (k.corrects f lo n) := by
  unfold Core.corrects
  split
  · exact .refl R P k
  · exact streams_words k k.bad _ _ k.sleep
theorem streams_corrPad (k : Core) (sp : List (Nat × Nat)) : Core.Streams R P k (k.corrPad sp) := by
  unfold Core.corrPad
  split
  · exact .refl R P k
  · exact .foldl sp (fun _ _ c => streams_corrects c _ _ _) k
theorem streams_watch (k : Core) (a n : Nat) : Core.Streams R P k (k.watch a n) := by
  unfold Core.watch
  split
  · split
    · exact streams_sleep k _
    · exact .refl R P k
  · exact .refl R P k
theorem streams_sees (k : Core) (sl : Sleep) (sp : List (Nat × Nat)) : Core.Streams R P k (k.sees sl sp) := by
  unfold Core.sees
  dsimp only
  split
  · exact (streams_sleep k sl).trans (streams_watch _ _ _)
  · exact streams_sleep k sl
theorem streams_setH (k : Core) {h : Hreg} (v : W256) (hh : h ∈ R) : Core.Streams R P k (k.setH h v) := by
  have h1 : Core.Streams R P k { k with r := { k.r with h := mput nullH k.r.h h.toNat v } } :=
    ⟨rfl, fun x hx => mget_mput_ne _ _ _ (fun e => hx (BitVec.eq_of_toNat_eq e ▸ hh)), fun _ _ => rfl, rfl, rfl, rfl, rfl,
      fun _ _ _ => rfl⟩
  exact h1.trans (streams_clearBad _ _ _ _)
theorem streams_setSr (k : Core) (v : W64) : Core.Streams R P k (k.setSr 0x14A v) :=
  ⟨rfl, fun _ _ => rfl, fun _ hm => getSr_setSr_ne _ _ hm, rfl, rfl, rfl, rfl, fun _ _ _ => rfl⟩
/-- Vector state with the same mask stack. -/
theorem streams_v (k : Core) {v : VecSt} (hs : v.stack = k.v.stack) (hd : v.depth = k.v.depth) :
    Core.Streams R P k { k with v := v } :=
  ⟨rfl, fun _ _ => rfl, fun _ _ => rfl, rfl, rfl, hs, hd, fun _ _ _ => rfl⟩
/-- Engines with the same LD and ST queues and the same writes pending. -/
theorem streams_eng (k : Core) {g : Engines} (hl : g.ld = k.eng.ld) (hs : g.st = k.eng.st) (hd : g.due = k.eng.due) :
    Core.Streams R P k { k with eng := g } :=
  ⟨rfl, fun _ _ => rfl, fun _ _ => rfl, hl, hs, rfl, rfl, fun _ _ _ => by simp only [Core.padAt, hd]⟩

/-! ### The scratchpad -/

/-- Bytes that change outside P alone. -/
theorem streams_mem (k : Core) {m : Mem} (full : List Nat) (tags : Map (BitVec 2)) (h : ∀ a, P a → rd m a = rd k.pad.mem a) :
    Core.Streams R P k { k with pad := ⟨m, full, tags⟩ } :=
  ⟨rfl, fun _ _ => rfl, fun _ _ => rfl, rfl, rfl, rfl, rfl, fun _ a ha => overlay_congr _ _ (h a ha)⟩
theorem streams_drain (k : Core) (h : HD) (sp : List (Nat × Nat)) : Core.Streams R P k (k.drain h sp) := by
  unfold Core.drain
  split
  · exact streams_mem k _ k.pad.tags (fun _ _ => rfl)
  · exact .refl R P k
theorem streams_tag (k : Core) (l a n : Nat) : Core.Streams R P k (k.tag l a n) := streams_mem k k.pad.full _ (fun _ _ => rfl)
theorem streams_store (k : Core) (b : Bool) (a : Nat) (bs : List Byte) (h : ∀ x, P x → x < a ∨ a + bs.length ≤ x) :
    Core.Streams R P k (k.store b a bs) :=
  ((streams_mem k (k.fullBy b a bs.length) k.pad.tags (fun x hx => rd_wrL_out _ _ _ (h x hx))).trans (streams_watch _ _ _)).trans
    (streams_clearBad _ _ _ _)
/-- A pending write that leaves the bytes of P. -/
theorem streams_addDue (k : Core) {x : Due} (h : ∀ now m a, P a → rd (x.over now m) a = rd m a) : Core.Streams R P k (k.addDue x) :=
  ⟨rfl, fun _ _ => rfl, fun _ _ => rfl, rfl, rfl, rfl, rfl, fun now a ha => overlay_dueIns _ _ now (fun m => h now m a ha)⟩
/-- Bytes that become due. -/
theorem over_mem_out {x : Due} {a : Nat} {bs : List Byte} (hw : x.wr = .mem a bs) (now : Nat) (m : Mem) {y : Nat}
    (h : y < a ∨ a + bs.length ≤ y) : rd (x.over now m) y = rd m y := by
  simp only [Due.over, hw]
  split
  · exact rd_wrL_out _ _ _ h
  · rfl
/-- The bytes of an element: its address and their number (R30). -/
theorem elBytes_span (m : Mem) (a half v : Nat) :
    (elBytes m a half v).1 = a / 2 ∧ (elBytes m a half v).2.length ≤ (a + half + 1) / 2 - a / 2 := by
  unfold elBytes
  split
  · subst half
    exact ⟨rfl, by simp only [List.length_singleton]; omega⟩
  · exact ⟨rfl, by rw [toLE_length]; omega⟩
/-- A half byte that becomes due. -/
theorem over_nib_out {x : Due} {a v : Nat} (hw : x.wr = .nib a v) (now : Nat) (m : Mem) {y : Nat}
    (h : y < a / 2 ∨ (a + 2) / 2 ≤ y) : rd (x.over now m) y = rd m y := by
  obtain ⟨h1, h2⟩ := elBytes_span m a 1 v
  simp only [Due.over, hw]
  split
  · exact rd_wrL_out _ _ _ (by rw [h1]; omega)
  · rfl
theorem streams_storeDue (k : Core) (src : Strm) (n a : Nat) (bs : List Byte) (h : ∀ x, P x → x < a ∨ a + bs.length ≤ x) :
    Core.Streams R P k (k.storeDue src n a bs) := by
  unfold Core.storeDue
  split
  · exact streams_store k _ _ _ h
  · exact streams_addDue k (fun now m x hx => over_mem_out rfl now m (h x hx))
theorem streams_putDue (k : Core) (src : Strm) (n a half v : Nat) (h : ∀ x, P x → x < a / 2 ∨ (a + half + 1) / 2 ≤ x) :
    Core.Streams R P k (k.putDue src n a half v) := by
  unfold Core.putDue
  split
  · obtain ⟨h1, h2⟩ := elBytes_span k.pad.mem a half v
    refine streams_store k _ _ _ (fun x hx => ?_)
    have := h x hx
    rw [h1]
    omega
  · refine streams_addDue k (fun now m x hx => ?_)
    have hp := h x hx
    split
    · subst half
      exact over_nib_out rfl now m hp
    · exact over_mem_out rfl now m (by rw [toLE_length]; omega)

/-! ### Elements of a stream -/

theorem nth_mem {α : Type} (d : α) {l : List α} {j : Nat} (h : j < l.length) : nth d l j ∈ l := by
  induction l generalizing j with
  | nil => simp at h
  | cons x t ih =>
    cases j with
    | zero => simp [nth]
    | succ j => exact List.mem_cons_of_mem _ (ih (by simpa using h))
/-- Writing elements of a stream leaves every byte outside the stream (R30). -/
theorem streams_writeEls (k : Core) (due : Nat) (s : Src) (vals : List (Nat × Nat)) (hv : ∀ x ∈ vals, x.1 < s.n)
    (hp : ∀ a, P a → s.clear a = true) : Core.Streams R P k (writeEls k due s vals) := by
  refine .foldl vals (fun x hx c => ?_) k
  refine .trans (streams_putDue c _ _ _ _ _ (fun a ha => ?_)) (streams_tag _ _ _ _)
  have h1 := List.all_eq_true.mp (hp a ha) _ (nth_mem 0 (hv x hx))
  simpa using h1
theorem streams_putLanes (k : Core) (due : Nat) (d : Src) (out : List (Nat × Nat × Fl)) (hv : ∀ x ∈ out, x.1 < d.n)
    (hp : ∀ a, P a → d.clear a = true) : Core.Streams R P k (putLanes k due d out).1 := by
  refine streams_writeEls k due d _ (fun x hx => ?_) hp
  obtain ⟨y, hy, rfl⟩ := List.mem_map.mp hx
  exact hv y hy

/-! ### Opened streams (R134) -/

theorem addrs_length {h : HD} {l : List (List Nat)} {as : List Nat} (ha : h.addrs l = .ok as) : as.length = l.length := by
  induction l generalizing as with
  | nil =>
    cases ha
    rfl
  | cons x t ih =>
    unfold HD.addrs at ha
    split at ha
    · cases ha
    · split at ha
      · cases ha
      · rename_i hl
        cases ha
        simp [ih hl]
/-- An extent of an image is at least 1 (R29). -/
theorem one_le_ext (v : W256) : 1 ≤ (HD.of v).e 0 := by
  simp only [HD.of, HD.e, List.map_cons, nth]
  split <;> omega
/-- A normalised cursor lies below its extent. -/
theorem norm_lt {h : HD} {ix : List Nat} (he : 1 ≤ h.e 0) (hn : h.norm = some ix) : nth 0 ix 0 < h.e 0 := by
  unfold HD.norm at hn
  split at hn
  · cases hn
  · split at hn
    · split at hn
      · cases hn
      · cases hn
        exact Nat.mod_lt _ he
    · rename_i hi
      cases hn
      simp only [List.any_cons, Bool.or_eq_true, decide_eq_true_eq, not_or] at hi
      exact Nat.lt_of_not_le hi.1
/-- A stream that opens is the one asked for, and delivers at least one element. -/
theorem openSrc_gives {c : Core} {r : Hreg} {L : Nat} {s : Src} (h : openSrc c r L = .ok s) :
    s.reg = r ∧ (1 ≤ L → 1 ≤ s.n) := by
  unfold openSrc at h
  simp only [] at h
  split at h
  · cases h
  · split at h
    · cases h
    · rename_i ix hn
      split at h
      · cases h
      · rename_i ads ha
        cases h
        have hlen := addrs_length ha
        have hlt : nth 0 ix 0 < (HD.of (c.getH r)).e 0 := norm_lt (one_le_ext _) hn
        refine ⟨rfl, fun hL => ?_⟩
        simp only [List.length_map, upto_eq_range, List.length_range] at hlen
        have he : ({ HD.of (c.getH r) with idx := ix } : HD).e 0 = (HD.of (c.getH r)).e 0 := rfl
        have hi : ({ HD.of (c.getH r) with idx := ix } : HD).i 0 = nth 0 ix 0 := rfl
        rw [he, hi] at hlen
        rw [Src.n, hlen]
        omega
/-- Streams that open: each is one of those asked for and delivers at least one element, and each one asked for is opened. -/
theorem openAll_gives {c : Core} {l : List (Hreg × Nat)} {o : List Src} (h : openAll c l = .ok o) :
    (∀ s ∈ o, ∃ x ∈ l, x.1 = s.reg ∧ (1 ≤ x.2 → 1 ≤ s.n)) ∧ ∀ x ∈ l, ∃ s ∈ o, s.reg = x.1 := by
  induction l generalizing o with
  | nil =>
    cases h
    simp
  | cons x t ih =>
    unfold openAll at h
    split at h
    · split at h <;> cases h
    · rename_i o' ho
      obtain ⟨h1, h2⟩ := ih ho
      have h1' : ∀ s ∈ o', ∃ y ∈ x :: t, y.1 = s.reg ∧ (1 ≤ y.2 → 1 ≤ s.n) := fun s hs =>
        have ⟨y, hy, hr⟩ := h1 s hs
        ⟨y, List.mem_cons_of_mem _ hy, hr⟩
      split at h
      · rename_i ha
        cases h
        refine ⟨h1', fun y hy => ?_⟩
        rcases List.mem_cons.mp hy with rfl | hy
        · obtain ⟨s, hs, hr⟩ := List.any_eq_true.mp ha
          exact ⟨s, hs, by simpa using hr⟩
        · exact h2 y hy
      · split at h
        · cases h
        · rename_i s hs
          cases h
          obtain ⟨hr, hn⟩ := openSrc_gives hs
          refine ⟨fun y hy => ?_, fun y hy => ?_⟩
          · rcases List.mem_cons.mp hy with rfl | hy
            · exact ⟨x, by simp, hr.symm, hn⟩
            · exact h1' y hy
          · rcases List.mem_cons.mp hy with rfl | hy
            · exact ⟨s, by simp, hr⟩
            · obtain ⟨z, hz, e⟩ := h2 y hy
              exact ⟨z, by simp [hz], e⟩
/-- What the opening of a repetition gives are streams that open. -/
theorem vOpen_gives {c : Core} {now : Nat} {seen : Option Mem} {rs ws : List (Hreg × Nat)} {v : VIn}
    (h : vOpen c now seen rs ws = .ok v) : openAll c (ws ++ rs) = .ok v.l := by
  unfold vOpen at h
  split at h
  · cases h
  · rename_i l ho
    split at h
    · cases h
      exact ho
    · simp only [] at h
      split at h
      · cases h
      · split at h
        · cases h
        · cases h
          exact ho
/-- A stream that was asked for is found by its handle. -/
theorem srcOf_mem {l : List Src} {r : Hreg} (h : ∃ s ∈ l, s.reg = r) : srcOf l r ∈ l ∧ (srcOf l r).reg = r := by
  obtain ⟨s, hs, hr⟩ := h
  unfold srcOf
  cases hf : l.find? (fun s => s.reg == r) with
  | none => exact absurd (List.find?_eq_none.mp hf s hs) (by simp [hr])
  | some x => exact ⟨List.mem_of_find?_eq_some hf, by simpa using List.find?_some hf⟩
/-- The stream of a handle that a repetition opens. -/
theorem vOpen_srcOf {c : Core} {now : Nat} {seen : Option Mem} {rs ws : List (Hreg × Nat)} {v : VIn} {r : Hreg}
    (h : vOpen c now seen rs ws = .ok v) (hr : ∃ L, (r, L) ∈ ws ++ rs) : srcOf v.l r ∈ v.l ∧ (srcOf v.l r).reg = r := by
  obtain ⟨L, hL⟩ := hr
  exact srcOf_mem ((openAll_gives (vOpen_gives h)).2 _ hL)
/-- Every stream of a repetition delivers at least one element when every vector length is at least 1. -/
theorem vOpen_one_le {c : Core} {now : Nat} {seen : Option Mem} {rs ws : List (Hreg × Nat)} {v : VIn}
    (h : vOpen c now seen rs ws = .ok v) (hL : ∀ x ∈ ws ++ rs, 1 ≤ x.2) {s : Src} (hs : s ∈ v.l) : 1 ≤ s.n := by
  obtain ⟨x, hx, -, hn⟩ := (openAll_gives (vOpen_gives h)).1 s hs
  exact hn (hL x hx)
/-- An active lane lies within every stream that takes part (R135). -/
theorem actives_lt {c : Core} {b : Bool} {L : Nat} {ss : List Src} {j : Nat} (hj : j ∈ actives c b L ss) {s : Src} (hs : s ∈ ss) :
    j < s.n := by
  have h := (List.mem_filter.mp hj).2
  simp only [Bool.and_eq_true, List.all_eq_true, decide_eq_true_eq] at h
  exact h.1 s hs

/-! ### One repetition -/

theorem streams_vTake (c : Core) (i : VIn) (rs : List (Hreg × Nat)) : Core.Streams R P c (vTake c i rs) :=
  .foldl _ (fun _ _ q => (streams_corrPad q _).trans (streams_drain _ _ _)) c
theorem streams_vClose (l : List Src) (first : Option Hreg) (h : ∀ s ∈ l, s.reg ∈ R) (c : Core) :
    Core.Streams R P c (vClose c l first).1 := by
  exact (Core.Streams.foldl_inv (I := fun _ => True) (fun s hs w _ => ⟨streams_setH w.1 _ (h s hs), trivial⟩) (w := (c, false)) trivial).1
/-- A repetition that goes on was opened and passed its checks; it leaves what its computation leaves. -/
theorem streams_vRep {c : Core} {now : Nat} {seen : Option Mem} {rs ws : List (Hreg × Nat)} {chk : VIn → Option Stop}
    {lanes : VIn → List Nat} {go : Core → VIn → Core × Fl} {k' : Core} {e : Bool} {f : Fl} {v : VIn}
    (ho : vOpen c now seen rs ws = .ok v) (h : vRep c now seen rs ws chk lanes go = .done k' e f) (hR : ∀ x ∈ ws ++ rs, x.1 ∈ R)
    (hg : chk v = none → ∀ q, Core.Streams R P q (go q v).1) : Core.Streams R P c k' := by
  have hreg : ∀ s ∈ v.l, s.reg ∈ R := fun s hs => by
    obtain ⟨x, hx, hr, -⟩ := (openAll_gives (vOpen_gives ho)).1 s hs
    exact hr ▸ hR x hx
  unfold vRep at h
  rw [ho] at h
  simp only [] at h
  split at h
  · cases h
  · rename_i hc
    have hk : Core.Streams R P c (if seen.isSome then c else vTake c v rs) := by
      split
      · exact .refl R P c
      · exact streams_vTake c v rs
    generalize (if seen.isSome then c else vTake c v rs) = k0 at h hk
    split at h
    · cases h
    · cases h
      exact (((hk.trans (streams_sleep _ _)).trans (hg hc _)).trans (streams_sees _ _ _)).trans (streams_vClose _ _ hreg _)

/-! ### What each instruction computes -/

/-- A body that opens its streams writes the stream of hd within its delivered elements. -/
theorem streams_perLane {c : Core} {now lat L : Nat} {seen : Option Mem} {hd : Hreg} {rs : List Hreg} {chk : VIn → Option Stop}
    {val : VIn → Nat → Nat × Fl} {k' : Core} {e : Bool} {f : Fl} {v : VIn}
    (ho : vOpen c now seen (rs.map (·, L)) [(hd, L)] = .ok v) (h : perLane c now lat seen L hd rs chk val = .done k' e f)
    (hR : ∀ x ∈ [(hd, L)] ++ rs.map (·, L), x.1 ∈ R) (hp : ∀ a, P a → (srcOf v.l hd).clear a = true) :
    Core.Streams R P c k' := by
  have hs := vOpen_srcOf ho (r := hd) ⟨L, by simp⟩
  refine streams_vRep ho h hR (fun _ q => streams_putLanes q _ _ _ (fun x hx => ?_) hp)
  obtain ⟨j, hj, rfl⟩ := List.mem_map.mp hx
  exact actives_lt hj hs.1
theorem streams_setCmk (k : Core) (ks : List Nat) : Core.Streams R P k (k.setCmk ks) := streams_v k rfl rfl
theorem streams_xrAdd (k : Core) (x : Ex) : Core.Streams R P k (k.xrAdd x) := streams_v k rfl rfl
/-- A quantised block: its mantissas and its scale word (R84, R154). -/
theorem streams_writeBlock (k : Core) (due : Nat) (s : Src) (ks : List Nat) (xs : List Ex) (hk : ∀ j ∈ ks, j < s.n)
    (hb : fmtBk s.h.fmt = true) (hp : ∀ a, P a → s.clearAll a = true) : Core.Streams R P k (writeBlock k due s ks xs).1 := by
  unfold writeBlock
  split
  · exact .refl R P k
  · rename_i j t
    have hj : j < s.n := hk j (by simp)
    refine .trans (streams_writeEls k due s _ (fun x hx => ?_) (fun a ha => ?_))
      (.trans (streams_storeDue _ _ _ _ _ (fun a ha => ?_)) (streams_tag _ _ _ _))
    · obtain ⟨i, hi, rfl⟩ := List.mem_map.mp hx
      exact hk _ (nth_mem 0 (by simpa [upto_eq_range] using hi))
    · exact (Bool.and_eq_true_iff.mp (hp a ha)).1
    · have h := (Bool.and_eq_true_iff.mp (hp a ha)).2
      rw [hb, Bool.not_true, Bool.false_or, List.all_eq_true] at h
      have h1 := h j (by simpa [upto_eq_range] using hj)
      rw [toLE_length]
      simpa using h1


section
variable {k k' : Core} {now : Nat} {seen : Option Mem} {ty : VTy} {d a c : Hreg} {e : Bool} {f : Fl} {v : VIn}

/-- VQNT writes elements, or blocks of mantissas with their scale words (R154). -/
theorem streams_repQnt (ho : vOpen k now seen [(a, ty.lanes), (c, ty.lanes)] [(d, ty.lanes)] = .ok v)
    (h : repQnt k now seen ty d a c = .done k' e f)
    (hR : ∀ x ∈ [(d, ty.lanes)] ++ [(a, ty.lanes), (c, ty.lanes)], x.1 ∈ R)
    (hp : ∀ x, P x → (srcOf v.l d).clearAll x = true) : Core.Streams R P k k' := by
  have hs := vOpen_srcOf ho (r := d) ⟨ty.lanes, by simp⟩
  have hact : ∀ j ∈ actives k true ty.lanes v.l, j < (srcOf v.l d).n := fun j hj => actives_lt hj hs.1
  refine streams_vRep ho h hR (fun _ q => ?_)
  simp only []
  split
  · rename_i hb
    refine (Core.Streams.foldl_inv (I := fun _ => True) (w := (q, (0 : Fl))) ?_ trivial).1
    exact fun b _ w _ => ⟨streams_writeBlock w.1 _ _ _ _ (fun j hj => hact j (List.mem_filter.mp hj).1) hb hp, trivial⟩
  · refine streams_putLanes q _ _ _ (fun x hx => ?_) (fun x hx => (Bool.and_eq_true_iff.mp (hp x hx)).1)
    obtain ⟨j, hj, rfl⟩ := List.mem_map.mp hx
    exact hact j hj
theorem one_le_lanes (ty : VTy) : 1 ≤ ty.lanes := by cases ty <;> decide
/-- VRED MAX and MIN write one element (R158). -/
theorem streams_repExt {op : VTy → List Lane → Lane × Fl} (ho : vOpen k now seen [(a, ty.lanes)] [(d, 1)] = .ok v)
    (h : repExt k now seen ty op d a = .done k' e f) (hR : ∀ x ∈ ([(d, 1)] ++ [(a, ty.lanes)] : List (Hreg × Nat)), x.1 ∈ R)
    (hp : ∀ x, P x → (srcOf v.l d).clear x = true) : Core.Streams R P k k' := by
  have hs := vOpen_srcOf ho (r := d) ⟨1, by simp⟩
  have h1 := vOpen_one_le ho (by simp [one_le_lanes]) hs.1
  unfold repExt at h
  dsimp only at h
  refine streams_vRep ho h hR (fun _ q => ?_)
  generalize (actives k true ty.lanes [srcOf v.l a]).map _ = l
  cases l with
  | nil => exact .refl R P q
  | cons x t =>
    refine streams_putLanes q _ _ _ (fun x hx => ?_) hp
    rw [List.mem_singleton.mp hx]
    exact h1
/-- VRED MAXI writes the elements that hd delivers and 0x14A (R163). -/
theorem streams_repMaxi (ho : vOpen k now seen [] [(d, 2)] = .ok v) (h : repMaxi k now seen d = .done k' e f)
    (hR : ∀ x ∈ ([(d, 2)] : List (Hreg × Nat)), x.1 ∈ R) (hp : ∀ x, P x → (srcOf v.l d).clear x = true) : Core.Streams R P k k' := by
  refine streams_vRep ho h hR (fun _ q => .trans (streams_writeEls q _ _ _ (fun x hx => ?_) hp)
    (.trans (streams_setSr _ _) (streams_v _ rfl rfl)))
  obtain ⟨j, hj, rfl⟩ := List.mem_map.mp hx
  simpa [upto_eq_range] using hj
/-- VXRD writes one element and clears XR (R159). -/
theorem streams_repXrd (ho : vOpen k now seen [] [(d, 1)] = .ok v) (h : repXrd k now seen ty d = .done k' e f)
    (hR : ∀ x ∈ ([(d, 1)] : List (Hreg × Nat)), x.1 ∈ R) (hp : ∀ x, P x → (srcOf v.l d).clear x = true) : Core.Streams R P k k' := by
  have hs := vOpen_srcOf ho (r := d) ⟨1, by simp⟩
  have h1 := vOpen_one_le ho (by simp) hs.1
  refine streams_vRep ho h hR (fun _ q => .trans (streams_writeEls q _ _ _ (fun x hx => ?_) hp) (streams_v _ rfl rfl))
  rw [List.mem_singleton.mp hx]
  exact h1
/-- VSCAN adds to XR lane by lane and writes each lane (R160). -/
theorem streams_repScan (ho : vOpen k now seen [(a, ty.lanes)] [(d, ty.lanes)] = .ok v)
    (h : repScan k now seen ty d a = .done k' e f) (hR : ∀ x ∈ [(d, ty.lanes)] ++ [(a, ty.lanes)], x.1 ∈ R)
    (hp : ∀ x, P x → (srcOf v.l d).clear x = true) : Core.Streams R P k k' := by
  have hs := vOpen_srcOf ho (r := d) ⟨ty.lanes, by simp⟩
  refine streams_vRep ho h hR (fun _ q => ?_)
  obtain ⟨h1, h2⟩ := Core.Streams.foldl_inv (R := R) (P := P) (I := fun l : List (Nat × Nat × Fl) => ∀ x ∈ l, x.1 < (srcOf v.l d).n)
    (g := fun (s : Core × List (Nat × Nat × Fl)) k =>
      let c1 := s.1.xrAdd ((nth (.i 0) (lanesOf ty v.m (srcOf v.l a)) k).ex ty)
      let x := c1.xrLane ty
      let w := writeLane ty (srcOf v.l d).h.fmt x.1
      (c1, s.2 ++ [(k, w.1, x.2 ||| w.2)])) (l := actives k true ty.lanes v.l) (fun j hj w hw => ⟨streams_xrAdd _ _, fun x hx => by
        rcases List.mem_append.mp hx with hx | hx
        · exact hw x hx
        · rw [List.mem_singleton.mp hx]
          exact actives_lt hj hs.1⟩) (w := (q, [])) (by simp)
  exact h1.trans (streams_putLanes _ _ _ _ h2 hp)
/-- VPERM writes the active lanes of its destination and its index stream (R164). -/
theorem streams_repPerm (ho : vOpen k now seen [(a, ty.lanes), (c, ty.lanes)] [(d, ty.lanes)] = .ok v)
    (h : repPerm k now seen ty d a c = .done k' e f)
    (hR : ∀ x ∈ [(d, ty.lanes)] ++ [(a, ty.lanes), (c, ty.lanes)], x.1 ∈ R)
    (hp : ∀ x, P x → (srcOf v.l d).clear x = true) : Core.Streams R P k k' := by
  refine streams_vRep ho h hR (fun _ q => streams_putLanes q _ _ _ (fun x hx => ?_) hp)
  obtain ⟨j, hj, rfl⟩ := List.mem_map.mp hx
  exact actives_lt hj (by simp)
/-- VEXPMAX writes one element (R168). -/
theorem streams_repExpMax (ho : vOpen k now seen [(a, ty.lanes)] [(d, 1)] = .ok v) (h : repExpMax k now seen ty d a = .done k' e f)
    (hR : ∀ x ∈ ([(d, 1)] ++ [(a, ty.lanes)] : List (Hreg × Nat)), x.1 ∈ R) (hp : ∀ x, P x → (srcOf v.l d).clear x = true) : Core.Streams R P k k' := by
  have hs := vOpen_srcOf ho (r := d) ⟨1, by simp⟩
  have h1 := vOpen_one_le ho (by simp [one_le_lanes]) hs.1
  refine streams_vRep ho h hR (fun _ q => streams_writeEls q _ _ _ (fun x hx => ?_) hp)
  rw [List.mem_singleton.mp hx]
  exact h1

end

/-- The streams of a vector instruction are handles that it uses as streams (R22). -/
theorem vecStreams_mem {i : Instr} {rs ws : List (Hreg × Nat)} (h : vecStreams i = some (rs, ws)) :
    ∀ x ∈ ws ++ rs, x.1 ∈ hStreams i := by
  cases i
  case vfma t d a c ty rp =>
    cases h
    intro x hx
    have h1 : x.1 ∈ [d, a, c, d] := List.mem_map_of_mem (f := Prod.fst) hx
    have h2 : x.1 ∈ [d, a, c] := by
      simp only [List.mem_cons, List.not_mem_nil, or_false] at h1 ⊢
      tauto
    exact h2
  all_goals cases h
  all_goals exact fun x hx => List.mem_map_of_mem (f := Prod.fst) hx

section
variable {R : List Hreg} {P : Nat → Prop} {k k' : Core} {now : Nat} {seen : Option Mem} {ty : VTy} {a : Hreg} {e : Bool} {f : Fl} {v : VIn}

/-- VCMP and VCLASS write CMK alone (R150, R152). -/
theorem streams_repCmp {un : Bool} {cc : Cond} {c : Hreg} (ho : vOpen k now seen [(a, ty.lanes), (c, ty.lanes)] [] = .ok v)
    (h : repCmp k now seen ty un cc a c = .done k' e f) (hR : ∀ x ∈ ([] : List (Hreg × Nat)) ++ [(a, ty.lanes), (c, ty.lanes)], x.1 ∈ R) :
    Core.Streams R P k k' := streams_vRep ho h hR (fun _ q => streams_setCmk q _)
theorem streams_repClass {cs : BitVec 5} (ho : vOpen k now seen [(a, ty.lanes)] [] = .ok v)
    (h : repClass k now seen ty cs a = .done k' e f) (hR : ∀ x ∈ ([] : List (Hreg × Nat)) ++ [(a, ty.lanes)], x.1 ∈ R) :
    Core.Streams R P k k' := streams_vRep ho h hR (fun _ q => streams_setCmk q _)
/-- VRED SUM adds to XR alone (R158). -/
theorem streams_repSum (ho : vOpen k now seen [(a, ty.lanes)] [] = .ok v) (h : repSum k now seen ty a = .done k' e f)
    (hR : ∀ x ∈ ([] : List (Hreg × Nat)) ++ [(a, ty.lanes)], x.1 ∈ R) : Core.Streams R P k k' :=
  streams_vRep ho h hR (fun _ q => .foldl _ (fun _ _ c => streams_xrAdd c _) q)
/-- VMAXI changes the running maxima alone (R162). -/
theorem streams_repMaxiUp (ho : vOpen k now seen [(a, 64)] [] = .ok v) (h : repMaxiUp k now seen a = .done k' e f)
    (hR : ∀ x ∈ ([] : List (Hreg × Nat)) ++ [(a, 64)], x.1 ∈ R) : Core.Streams R P k k' := by
  refine streams_vRep ho h hR (fun _ q => .foldl _ (fun j _ c => ?_) q)
  dsimp only
  split_ifs
  · exact streams_v c rfl rfl
  · exact .refl R P c

end

/-- An address outside a written stream, scale words included, is outside its elements. -/
theorem clear_of_clearAll {x : Src} {a : Nat} (h : x.clearAll a = true) : x.clear a = true := (Bool.and_eq_true_iff.mp h).1
/-- One repetition of a vector instruction changes its streams alone and writes the elements and scale words of those it writes. -/
theorem streams_vecOp {i : Instr} {en : Entry} {k k' : Core} {now lat : Nat} {rp : Rep} {rep : Option Mem → Core → Nat → VOut}
    {rs ws : List (Hreg × Nat)} {seen : Option Mem} {v : VIn} {e : Bool} {f : Fl} (hv : vecOp en i = some (rp, lat, rep))
    (hs : vecStreams i = some (rs, ws)) (ho : vOpen k now seen rs ws = .ok v) (h : rep seen k now = .done k' e f) :
    Core.Streams (hStreams i) (fun a => ∀ r ∈ ws, (srcOf v.l r.1).clearAll a = true) k k' := by
  have hR := vecStreams_mem hs
  cases i
  case vcmp => cases hv; cases hs; exact streams_repCmp ho h hR
  case vclass => cases hv; cases hs; exact streams_repClass ho h hR
  case vredSum => cases hv; cases hs; exact streams_repSum ho h hR
  case vmaxi => cases hv; cases hs; exact streams_repMaxiUp ho h hR
  case vqnt => cases hv; cases hs; exact streams_repQnt ho h hR (fun a hp => hp _ (List.mem_singleton.mpr rfl))
  case vredMax | vredMin => cases hv; cases hs; exact streams_repExt ho h hR (fun a hp => clear_of_clearAll (hp _ (List.mem_singleton.mpr rfl)))
  case vredMaxi => cases hv; cases hs; exact streams_repMaxi ho h hR (fun a hp => clear_of_clearAll (hp _ (List.mem_singleton.mpr rfl)))
  case vxrd => cases hv; cases hs; exact streams_repXrd ho h hR (fun a hp => clear_of_clearAll (hp _ (List.mem_singleton.mpr rfl)))
  case vscan => cases hv; cases hs; exact streams_repScan ho h hR (fun a hp => clear_of_clearAll (hp _ (List.mem_singleton.mpr rfl)))
  case vperm => cases hv; cases hs; exact streams_repPerm ho h hR (fun a hp => clear_of_clearAll (hp _ (List.mem_singleton.mpr rfl)))
  case vexpmax => cases hv; cases hs; exact streams_repExpMax ho h hR (fun a hp => clear_of_clearAll (hp _ (List.mem_singleton.mpr rfl)))
  all_goals cases hv
  all_goals cases hs
  all_goals exact streams_perLane ho h hR (fun a hp => clear_of_clearAll (hp _ (List.mem_singleton.mpr rfl)))
/-- A repetition that goes on was opened. -/
theorem vRep_opened {c : Core} {now : Nat} {seen : Option Mem} {rs ws : List (Hreg × Nat)} {chk : VIn → Option Stop}
    {lanes : VIn → List Nat} {go : Core → VIn → Core × Fl} {k' : Core} {e : Bool} {f : Fl}
    (h : vRep c now seen rs ws chk lanes go = .done k' e f) : ∃ v, vOpen c now seen rs ws = .ok v := by
  unfold vRep at h
  split at h
  · cases h
  · cases h
  · exact ⟨_, by assumption⟩
theorem repExt_opened {k k' : Core} {now : Nat} {seen : Option Mem} {ty : VTy} {op : VTy → List Lane → Lane × Fl} {d a : Hreg} {e : Bool}
    {f : Fl} (h : repExt k now seen ty op d a = .done k' e f) : ∃ v, vOpen k now seen [(a, ty.lanes)] [(d, 1)] = .ok v := by
  unfold repExt at h
  dsimp only at h
  exact vRep_opened h
theorem perLane_opened {c k' : Core} {now lat L : Nat} {seen : Option Mem} {hd : Hreg} {rs : List Hreg} {chk : VIn → Option Stop}
    {val : VIn → Nat → Nat × Fl} {e : Bool} {f : Fl} (h : perLane c now lat seen L hd rs chk val = .done k' e f) :
    ∃ v, vOpen c now seen (rs.map (·, L)) [(hd, L)] = .ok v := vRep_opened h
/-- A repetition of a vector instruction that goes on opened the streams of the instruction. -/
theorem vecOp_opened {i : Instr} {en : Entry} {k k' : Core} {now lat : Nat} {rp : Rep} {rep : Option Mem → Core → Nat → VOut}
    {seen : Option Mem} {e : Bool} {f : Fl} (hv : vecOp en i = some (rp, lat, rep)) (h : rep seen k now = .done k' e f) :
    ∃ rs ws v, vecStreams i = some (rs, ws) ∧ vOpen k now seen rs ws = .ok v := by
  have hx {rs ws : List (Hreg × Nat)} (hs : vecStreams i = some (rs, ws)) (ho : ∃ v, vOpen k now seen rs ws = .ok v) :
      ∃ rs ws v, vecStreams i = some (rs, ws) ∧ vOpen k now seen rs ws = .ok v := ⟨rs, ws, ho.choose, hs, ho.choose_spec⟩
  cases i
  case vredMax | vredMin => cases hv; exact hx rfl (repExt_opened h)
  case vcmp | vclass | vredSum | vmaxi | vqnt | vredMaxi | vxrd | vscan | vperm | vexpmax => cases hv; exact hx rfl (vRep_opened h)
  all_goals cases hv
  all_goals exact hx rfl (perLane_opened h)

/-! ### The end of a repetition -/

section
variable {R : List Hreg} {P : Nat → Prop}
theorem streams_setExQueue (k : Core) (l : List Entry) : Core.Streams R P k (k.setQueue .ex l) := streams_eng k rfl rfl rfl
theorem streams_setExAt (k : Core) (t : Nat) : Core.Streams R P k (k.setEngAt .ex t) := streams_eng k rfl rfl rfl
theorem streams_setBusy (k : Core) (i : Instr) (t : Nat) : Core.Streams R P k (k.setBusy i t) := by
  unfold Core.setBusy
  split
  · exact .refl R P k
  · exact streams_eng k rfl rfl rfl
theorem streams_exWrote (k : Core) (i : Instr) (t : Nat) : Core.Streams R P k (k.exWrote i t) := streams_v k rfl rfl
theorem streams_ranAt (k : Core) (e : Eng) (en : Entry) (f : Fin) : Core.Streams R P k (k.ranAt e en f) := streams_eng k rfl rfl rfl
theorem streams_signal (k : Core) (d : Dir) (t : Nat) : Core.Streams R P k (k.signal d t) := by
  unfold Core.signal
  split
  · exact .trans (q := k.setTok d (k.tok d ++ [t])) (streams_eng k rfl rfl rfl) (streams_clearBad _ _ _ _)
  · exact streams_eng k rfl rfl rfl
theorem streams_signals (k : Core) (st : Strm) (t : Tok) (n : Nat) : Core.Streams R P k (k.signals st t n) := by
  unfold Core.signals
  cases t.sp <;> cases t.sn
  · exact .refl R P k
  · exact streams_signal _ _ _
  · exact streams_signal _ _ _
  · exact (streams_signal _ _ _).trans (streams_signal _ _ _)
theorem streams_flagsAt (k : Core) (n : Nat) (f : Fl) : Core.Streams R P k (k.flagsAt n f) := by
  unfold Core.flagsAt
  split
  · exact .refl R P k
  · exact streams_addDue k (fun now m a _ => by simp [Due.over])
theorem streams_setMark (k : Core) (m : Mark) : Core.Streams R P k (match k.queue .ex with
    | [] => k | en :: _ => k.setHead .ex { en with mark := m }) := by
  split
  · exact .refl R P k
  · exact streams_setExQueue _ _
/-- A completion at the EX changes the core as an instruction of its streams may. -/
theorem streams_ends {b : Begun} (he : b.e = .ex) (lat : Nat) {k : Core} (h : Core.Streams R P b.core k) :
    b.ends lat k = b.s.setCore b.c ((b.ends lat k).core b.c) ∧ Core.Streams R P b.core ((b.ends lat k).core b.c) := by
  have hu : b.ends lat k = b.s.setCore b.c ((((((k.setQueue .ex (k.queue .ex).tail).setEngAt .ex (b.t + 1)).setBusy b.en.i (b.t + lat)).exWrote
      b.en.i (b.t + lat)).ranAt .ex b.en ⟨b.s.setCore b.c k, b.t + 1, b.t + lat⟩).signals (engStrm .ex) b.en.tok (b.t + lat)) := by
    rw [Begun.ends, finishHead, he, upCore_setCore]
  rw [hu, core_setCore_same]
  exact ⟨rfl, h.trans ((streams_setExQueue _ _).trans ((streams_setExAt _ _).trans ((streams_setBusy _ _ _).trans
    ((streams_exWrote _ _ _).trans ((streams_ranAt _ _ _ _).trans (streams_signals _ _ _ _))))))⟩
/-- So does the end of a repetition that is not the last. -/
theorem streams_repeats {b : Begun} (n : Nat) (f : Fl) {k : Core} (h : Core.Streams R P b.core k) :
    b.repeats n f k = b.s.setCore b.c ((b.repeats n f k).core b.c) ∧ Core.Streams R P b.core ((b.repeats n f k).core b.c) := by
  have hu : b.repeats n f k = b.s.setCore b.c ((match k.queue .ex with
      | [] => k | en :: _ => k.setHead .ex { en with mark := .reps n f none }).setEngAt .ex (b.t + 1)) := by
    rw [Begun.repeats, State.setMark, upCore_setCore, upCore_setCore]
      <;> cases k.queue .ex <;> rfl
  rw [hu, core_setCore_same]
  exact ⟨rfl, h.trans ((streams_setMark _ _).trans (streams_setExAt _ _))⟩

end

/-- Vector instructions are the EX's (R133). -/
theorem engOf_vecOp {i : Instr} {en : Entry} {x : Rep × Nat × (Option Mem → Core → Nat → VOut)} (h : vecOp en i = some x) :
    engOf i = some .ex := by
  cases i <;> cases h <;> exact engOf_of_opOf (w := _) (by dsimp only [opOf]) rfl
theorem engOf_named (s : State) (i : Instr) : engOf (s.named i) = engOf i := by cases i <;> rfl
theorem begins_engine {s : State} {i : Instr} {b : Begun} {en : Entry} {x : Rep × Nat × (Option Mem → Core → Nat → VOut)}
    (h : s.begins i = some b) (hv : vecOp en (s.named i) = some x) : b.e = .ex := by
  obtain ⟨e, en', s1, he, -, -, rfl⟩ := begins_gives h
  have h1 := engOf_vecOp hv
  rw [engOf_named, he] at h1
  exact Option.some.inj h1

/-- Settles O41: the handles, registers and bytes that one repetition leaves, and what its end or the count of those still to run adds. -/
theorem vectorInstructionsFrame : Obligations.VectorInstructionsFrame := by
  refine ⟨fun s i b rp lat rep k' e f hb hv hr => ?_, fun k now lat ty hd rs op v k' e f ho h at' a ha => ?_,
    fun i en k now lat rp rep rs ws v k' e f hv hs ho h at' a ha => (streams_vecOp hv hs ho h).bytes at' a ha⟩
  · obtain ⟨rs, ws, v, hs, ho⟩ := vecOp_opened hv hr
    have hk := (streams_vecOp hv hs ho hr).mono (P' := fun _ => False) (fun a ha => ha.elim)
    have hend : ∃ u, exec i s = .next u ∧ u = b.s.setCore b.c (u.core b.c) ∧
        Core.Streams (hStreams (s.named i)) (fun _ => False) b.core (u.core b.c) := by
      obtain ⟨h1, h2⟩ := exec_vector_begins hb hv hr
      by_cases hl : repCount rp ≤ 1 ∨ (rp = .xend ∧ e = true)
      · exact ⟨_, h1 hl, streams_ends (begins_engine hb hv) lat (hk.trans (streams_flagsAt _ _ _))⟩
      · rw [not_or, not_le] at hl
        exact ⟨_, h2 hl.1 hl.2, streams_repeats _ _ hk⟩
    obtain ⟨u, hx, hu, hq⟩ := hend
    exact ⟨u, hx, hu, fun a => by rw [hu]; rfl, hq.shape, hq.handles, hq.specials, hq.ld, hq.st, hq.stack, hq.depth⟩
  · have hR : ∀ x ∈ [(hd, ty.lanes)] ++ rs.map (·, ty.lanes), x.1 ∈ ([(hd, ty.lanes)] ++ rs.map (·, ty.lanes)).map Prod.fst :=
      fun x hx => List.mem_map_of_mem hx
    exact (streams_perLane (P := fun x => (srcOf v.l hd).clear x = true) ho h hR (fun _ hx => hx)).bytes at' a ha

end Sys2Proof.Machine
end

section
/-!
PROOFS. Lane-wise vector instructions (O39): one repetition at the EX, and what a lane computes from its operands.
-/

namespace Sys2Proof.Machine
open Sys2Proof

/-! ### A lane-wise repetition -/

theorem vecOp_of_laneOp {i : Instr} {o : LaneOp} (h : laneOp i = some o) (en : Entry) :
    vecOp en i = some (o.rp, o.lat, fun q k now => laneWise k now o.lat q o.ty o.hd o.src o.op) := by
  cases i <;> cases h <;> rfl
/-- A core whose FE is awake sees writes that are one in time without effect on its FE. -/
theorem sees_awake {q : Core} (h : q.sleep = .awake) (sp : List (Nat × Nat)) : q.sees .awake sp = q := by
  have hq : { q with sleep := .awake } = q := by rw [← h]
  rw [Core.sees, hq]
  split
  · exact watch_awake h _ _
  · rfl
theorem putDue_awake {k : Core} (src : Strm) (n a half v : Nat) (h : k.sleep = .awake) : (k.putDue src n a half v).sleep = .awake := by
  unfold Core.putDue
  split
  · exact (touches_store (d := { pad := (_, _) }) true h rfl).sleep.trans h
  · exact h
theorem writeEls_awake (due : Nat) (s : Src) (vals : List (Nat × Nat)) (k : Core) (h : k.sleep = .awake) :
    (writeEls k due s vals).sleep = .awake := by
  unfold writeEls
  induction vals generalizing k with
  | nil => exact h
  | cons x t ih => exact ih _ (putDue_awake _ _ _ _ _ h)
theorem vTake_awake {c : Core} (i : VIn) (rs : List (Hreg × Nat)) (h : c.sleep = .awake) : (vTake c i rs).sleep = .awake :=
  (touches_vTake c i rs {}).sleep.trans h
/-- A repetition that writes each active lane on its own, on a core whose FE is awake. -/
theorem perLane_done {c : Core} {now lat L : Nat} {hd : Hreg} {rs : List Hreg} {chk : VIn → Option Stop} {val : VIn → Nat → Nat × Fl}
    {v : VIn} (hs : c.sleep = .awake) (ho : vOpen c now none (rs.map (·, L)) [(hd, L)] = .ok v) (hf : chk v = none)
    (hw : ∀ x ∈ v.l, x.reg = hd → (vTake c v (rs.map (·, L))).fetWrite x.h
      (x.h.spans ((actives c true L v.l).map x.h.along) ((actives c true L v.l).map (nth 0 x.ads))) = false) :
    ∃ e, perLane c now lat none L hd rs chk val = .done
      (vClose (writeEls (vTake c v (rs.map (·, L))) (now + lat) (srcOf v.l hd)
        ((actives c true L v.l).map (fun j => (j, (val v j).1)))) v.l rs.head?).1 e
      ((actives c true L v.l).foldl (fun g j => g ||| (val v j).2) 0) := by
  obtain ⟨sp, h⟩ := vRep_done (lanes := fun i => actives c true L i.l) (go := fun k i =>
    putLanes k (now + lat) (srcOf i.l hd) ((actives c true L i.l).map (fun j => (j, val i j)))) ho hf (fun s hs hr =>
      hw s hs (by simpa using hr : hd = s.reg).symm)
  have hk := vTake_awake v (rs.map (·, L)) hs
  have hq : { vTake c v (rs.map (·, L)) with sleep := .awake } = vTake c v (rs.map (·, L)) := by rw [← hk]
  rw [hq, hk] at h
  dsimp only [putLanes] at h
  rw [sees_awake (writeEls_awake _ _ _ _ hk), List.map_map, List.foldl_map, List.head?_map, Option.map_map] at h
  have hh : Option.map (Prod.fst ∘ fun x => (x, L)) rs.head? = rs.head? := by cases rs <;> rfl
  exact ⟨_, h.trans (by rw [show (fun x : Hreg × Nat => x.1) = Prod.fst from rfl, hh]; rfl)⟩

theorem laneWise_done {c : Core} {now lat : Nat} {ty : VTy} {hd : Hreg} {rs : List Hreg} {op : List Lane → Lane × Fl} {v : VIn}
    (hs : c.sleep = .awake) (ho : vOpen c now none (rs.map (·, ty.lanes)) [(hd, ty.lanes)] = .ok v)
    (hf : fmtStop ty v.l rs [hd] = none)
    (hw : ∀ x ∈ v.l, x.reg = hd → (vTake c v (rs.map (·, ty.lanes))).fetWrite x.h
      (x.h.spans ((actives c true ty.lanes v.l).map x.h.along) ((actives c true ty.lanes v.l).map (nth 0 x.ads))) = false) :
    let lane (j : Nat) : Lane × Fl := op (rs.map (fun r => nth (.i 0) (lanesOf ty v.m (srcOf v.l r)) j))
    let wr (j : Nat) : Nat × Fl := writeLane ty (srcOf v.l hd).h.fmt (lane j).1
    ∃ e, laneWise c now lat none ty hd rs op = .done
      (vClose (writeEls (vTake c v (rs.map (·, ty.lanes))) (now + lat) (srcOf v.l hd)
        ((actives c true ty.lanes v.l).map (fun j => (j, (wr j).1)))) v.l rs.head?).1 e
      ((actives c true ty.lanes v.l).foldl (fun g j => g ||| ((lane j).2 ||| (wr j).2)) 0) :=
  perLane_done hs ho hf hw

/-! ### Integer types (R148, R149) -/

/-- An integer modulo 2^width as the bits of its remainder. -/
theorem intBits_eq {n b : Nat} {a : Int} (h : a ≡ b [ZMOD (2 ^ n : Nat)]) : intBits n a = b % 2 ^ n := by
  rw [intBits, show ((2 : Int) ^ n) = ((2 ^ n : Nat) : Int) by push_cast; rfl, h, ← Int.natCast_emod, Int.toNat_natCast]
theorem sgnIn_mod (ty : VTy) (x : Nat) : sgnIn ty x ≡ x [ZMOD (2 ^ ty.bitsN : Nat)] := by
  unfold sgnIn
  split
  · exact Int.ModEq.refl _
  · have h : ((2 ^ ty.bitsN : Nat) : Int) = 2 ^ ty.bitsN := by push_cast; rfl
    rw [h]
    exact Int.sub_emod_right _ _

section
variable {ty : VTy} {x y z : Nat} (hf : ty.isFloat = false) (hx : x < 2 ^ ty.bitsN) (hy : y < 2 ^ ty.bitsN) (hz : z < 2 ^ ty.bitsN)
include hf

theorem arith_int (g : Ex × Fl) (b : Int) : arith ty g b = (.i (intBits ty.bitsN b), 0) := by simp [arith, hf]
include hx
theorem opAbs_int : opAbs ty [.i x] = (.i ((sgnIn ty x).natAbs % 2 ^ ty.bitsN), 0) := by
  have h : Lane.int ty (l0 [.i x]) = sgnIn ty x := int_eq_sgnIn hf hx
  rw [opAbs, hf, h, intBits_eq (Int.ModEq.refl _)]
  rfl
theorem opNeg_int : opNeg ty [.i x] = (.i ((2 ^ ty.bitsN - x) % 2 ^ ty.bitsN), 0) := by
  have h : Lane.int ty (l0 [.i x]) = sgnIn ty x := int_eq_sgnIn hf hx
  have hm : -sgnIn ty x ≡ (2 ^ ty.bitsN - x : Nat) [ZMOD (2 ^ ty.bitsN : Nat)] := by
    rw [Nat.cast_sub hx.le]
    exact (sgnIn_mod ty x).neg.trans (by rw [Int.sub_eq_add_neg]; exact (Int.add_emod_left _ _).symm)
  rw [opNeg, hf, h, intBits_eq hm]
  rfl
theorem opSra_int (hn : ty ≠ .n32) (h8 : ty ≠ .n8) :
    opSra ty [.i x, .i y] = (.i ((sgnIn ty x / 2 ^ (y % ty.bitsN)) % (2 ^ ty.bitsN : Nat)).toNat, 0) := by
  have h : sext ty.bitsN x = sgnIn ty x := by
    rw [sext, Nat.mod_eq_of_lt hx, sgnIn]
    simp only [hn, h8, false_or]
  show (Lane.i (intBits ty.bitsN (sext ty.bitsN x / 2 ^ (y % ty.bitsN))), (0 : Fl)) = _
  rw [h, intBits]
  push_cast
  rfl
include hy
theorem opAdd_int : opAdd ty [.i x, .i y] = (.i ((x + y) % 2 ^ ty.bitsN), 0) := by
  have h : Lane.int ty (.i x) + Lane.int ty (.i y) ≡ (x + y : Nat) [ZMOD (2 ^ ty.bitsN : Nat)] := by
    rw [int_eq_sgnIn hf hx, int_eq_sgnIn hf hy, Nat.cast_add]
    exact (sgnIn_mod ty x).add (sgnIn_mod ty y)
  rw [opAdd, arith_int hf]
  exact congrArg (fun n => (Lane.i n, (0 : Fl))) (intBits_eq h)
theorem opSub_int : opSub ty [.i x, .i y] = (.i ((x + 2 ^ ty.bitsN - y) % 2 ^ ty.bitsN), 0) := by
  have h : Lane.int ty (.i x) - Lane.int ty (.i y) ≡ (x + 2 ^ ty.bitsN - y : Nat) [ZMOD (2 ^ ty.bitsN : Nat)] := by
    rw [int_eq_sgnIn hf hx, int_eq_sgnIn hf hy, Nat.cast_sub (by omega), Nat.cast_add]
    exact ((sgnIn_mod ty x).sub (sgnIn_mod ty y)).trans (by rw [add_sub_right_comm]; exact (Int.add_emod_right _ _).symm)
  rw [opSub, arith_int hf]
  exact congrArg (fun n => (Lane.i n, (0 : Fl))) (intBits_eq h)
theorem opMul_int : opMul ty [.i x, .i y] = (.i (x * y % 2 ^ ty.bitsN), 0) := by
  have h : Lane.int ty (.i x) * Lane.int ty (.i y) ≡ (x * y : Nat) [ZMOD (2 ^ ty.bitsN : Nat)] := by
    rw [int_eq_sgnIn hf hx, int_eq_sgnIn hf hy, Nat.cast_mul]
    exact (sgnIn_mod ty x).mul (sgnIn_mod ty y)
  rw [opMul, arith_int hf]
  exact congrArg (fun n => (Lane.i n, (0 : Fl))) (intBits_eq h)
theorem opMin_int : opMin ty [.i x, .i y] = (.i (if sgnIn ty y < sgnIn ty x then y else x), 0) := by
  show (if ty.isFloat = true then _ else (if Lane.int ty (.i y) < Lane.int ty (.i x) then Lane.i y else Lane.i x, (0 : Fl))) = _
  rw [hf, int_eq_sgnIn hf hx, int_eq_sgnIn hf hy, if_neg Bool.false_ne_true, apply_ite Lane.i]
theorem opMax_int : opMax ty [.i x, .i y] = (.i (if sgnIn ty x < sgnIn ty y then y else x), 0) := by
  show (if ty.isFloat = true then _ else (if Lane.int ty (.i x) < Lane.int ty (.i y) then Lane.i y else Lane.i x, (0 : Fl))) = _
  rw [hf, int_eq_sgnIn hf hx, int_eq_sgnIn hf hy, if_neg Bool.false_ne_true, apply_ite Lane.i]
include hz
theorem opFma_int : opFma ty [.i x, .i y, .i z] = (.i ((z + x * y) % 2 ^ ty.bitsN), 0) := by
  have h : Lane.int ty (.i z) + Lane.int ty (.i x) * Lane.int ty (.i y) ≡ (z + x * y : Nat) [ZMOD (2 ^ ty.bitsN : Nat)] := by
    rw [int_eq_sgnIn hf hx, int_eq_sgnIn hf hy, int_eq_sgnIn hf hz, Nat.cast_add, Nat.cast_mul]
    exact (sgnIn_mod ty z).add ((sgnIn_mod ty x).mul (sgnIn_mod ty y))
  rw [opFma, arith_int hf]
  exact congrArg (fun n => (Lane.i n, (0 : Fl))) (intBits_eq h)
end

/-! ### Floating types: finite operands (R148) -/

theorem arith_float {ty : VTy} (hf : ty.isFloat = true) (z : Ex) (f : Fl) (b : Int) : arith ty (z, f) b = laneRound ty z f := by
  simp [arith, hf, laneRound]
/-- The real number of a finite value of sign s. -/
theorem is_fin {s : Bool} {m e : Nat} {n : Int} {d : Nat} (he : 0 < e) (h : signed s m * d = n * e) : (Ex.fin s m e).is n d :=
  ⟨he, h⟩
/-- An exact sum (R79). -/
theorem exAdd_fin (sa sb : Bool) (na nb : Nat) {da db : Nat} (ha : 0 < da) (hb : 0 < db) :
    ∃ z, exAdd (.fin sa na da) (.fin sb nb db) = (z, 0) ∧ z.is (signed sa na * db + signed sb nb * da) (da * db) ∧
      (signed sa na * db + signed sb nb * da = 0 → z.neg = (sa && sb)) := by
  have hd : 0 < da * db := Nat.mul_pos ha hb
  simp only [exAdd]
  split_ifs with h1 h2 h3
  · subst h1
    refine ⟨_, rfl, is_fin hd ?_, fun _ => (Bool.and_self sa).symm⟩
    cases sa <;> simp only [signed, Bool.false_eq_true, if_true, if_false] <;> push_cast <;> ring
  · have h0 : signed sa na * db + signed sb nb * da = 0 := by
      have : (na * db : Int) = nb * da := by exact_mod_cast h2
      cases sa <;> cases sb <;> simp_all [signed]
    refine ⟨_, rfl, is_fin Nat.one_pos (by rw [h0]; simp [signed]), fun _ => ?_⟩
    cases sa <;> cases sb <;> simp_all [Ex.neg]
  · have h4 : ((na * db - nb * da : Nat) : Int) = na * db - nb * da := by rw [Nat.cast_sub h3.le]; push_cast; rfl
    have h5 : (nb * da : Int) < na * db := by exact_mod_cast h3
    have hs : signed sa (na * db - nb * da) = signed sa na * db + signed sb nb * da := by
      cases sa <;> cases sb <;> simp_all [signed] <;> ring
    refine ⟨_, rfl, is_fin hd (by rw [hs]), fun h => ?_⟩
    cases sa <;> cases sb <;> simp_all [signed] <;> omega
  · have h6 : na * db < nb * da := by omega
    have h4 : ((nb * da - na * db : Nat) : Int) = nb * da - na * db := by rw [Nat.cast_sub h6.le]; push_cast; rfl
    have h5 : (na * db : Int) < nb * da := by exact_mod_cast h6
    have hs : signed sb (nb * da - na * db) = signed sa na * db + signed sb nb * da := by
      cases sa <;> cases sb <;> simp_all [signed] <;> ring
    refine ⟨_, rfl, is_fin hd (by rw [hs]), fun h => ?_⟩
    cases sa <;> cases sb <;> simp_all [signed] <;> omega
theorem signed_not (s : Bool) (n : Nat) : signed (!s) n = -signed s n := by cases s <;> simp [signed]
theorem signed_mul (s t : Bool) (n m : Nat) : signed (s != t) (n * m) = signed s n * signed t m := by
  cases s <;> cases t <;> simp [signed]
/-- The order of VMIN and VMAX on finite values (R148). -/
theorem exLtZ_fin (sx sy : Bool) (nx ny dx dy : Nat) : exLtZ (.fin sx nx dx) (.fin sy ny dy) =
    decide (signed sx nx * dy < signed sy ny * dx ∨ (signed sx nx * dy = signed sy ny * dx ∧ sx = true ∧ sy = false)) := by
  rw [exLtZ, exLt_fin, exEq_fin, Bool.eq_iff_iff]
  simp [exSign, and_assoc]

section
variable {ty : VTy} (hf : ty.isFloat = true) (sa sb sd : Bool) (na nb nd : Nat) {da db dd : Nat} (ha : 0 < da) (hb : 0 < db) (hd : 0 < dd)
include hf

theorem opMul_fin : opMul ty [.f (.fin sa na da), .f (.fin sb nb db)] = laneRound ty (.fin (sa != sb) (na * nb) (da * db)) 0 :=
  arith_float hf _ _ _
theorem opDiv_fin : opDiv ty [.f (.fin sa na da), .f (.fin sb nb db)] =
    (if nb = 0 then (if na = 0 then laneRound ty .nan fNV else laneRound ty (.inf (sa != sb)) fDZ)
      else laneRound ty (.fin (sa != sb) (na * db) (da * nb)) 0) := by
  have h : opDiv ty [.f (.fin sa na da), .f (.fin sb nb db)] = arith ty (exDiv (.fin sa na da) (.fin sb nb db)) 0 := rfl
  rw [h, exDiv]
  split_ifs <;> exact arith_float hf _ _ _
theorem opMin_fin : opMin ty [.f (.fin sa na da), .f (.fin sb nb db)] =
    (if signed sb nb * da < signed sa na * db ∨ (signed sa na * db = signed sb nb * da ∧ sb = true ∧ sa = false) then .f (.fin sb nb db)
      else .f (.fin sa na da), 0) := by
  have h : opMin ty [.f (.fin sa na da), .f (.fin sb nb db)] =
      if ty.isFloat = true then (.f (if exLtZ (.fin sb nb db) (.fin sa na da) = true then .fin sb nb db else .fin sa na da), 0) else
        (if Lane.int ty (.f (.fin sb nb db)) < Lane.int ty (.f (.fin sa na da)) then .f (.fin sb nb db) else .f (.fin sa na da), 0) := rfl
  rw [h, if_pos hf, exLtZ_fin, apply_ite Lane.f]
  simp only [decide_eq_true_eq, eq_comm (a := signed sa na * (db : Int))]
theorem opMax_fin : opMax ty [.f (.fin sa na da), .f (.fin sb nb db)] =
    (if signed sa na * db < signed sb nb * da ∨ (signed sa na * db = signed sb nb * da ∧ sa = true ∧ sb = false) then .f (.fin sb nb db)
      else .f (.fin sa na da), 0) := by
  have h : opMax ty [.f (.fin sa na da), .f (.fin sb nb db)] =
      if ty.isFloat = true then (.f (if exLtZ (.fin sa na da) (.fin sb nb db) = true then .fin sb nb db else .fin sa na da), 0) else
        (if Lane.int ty (.f (.fin sa na da)) < Lane.int ty (.f (.fin sb nb db)) then .f (.fin sb nb db) else .f (.fin sa na da), 0) := rfl
  rw [h, if_pos hf, exLtZ_fin, apply_ite Lane.f]
  simp only [decide_eq_true_eq]
theorem opAbs_fin : opAbs ty [.f (.fin sa na da)] = (.f (.fin false na da), 0) := by
  rw [opAbs, if_pos hf]; rfl
theorem opNeg_fin : opNeg ty [.f (.fin sa na da)] = (.f (.fin (!sa) na da), 0) := by
  rw [opNeg, if_pos hf]; rfl
include ha hb
theorem opAdd_fin : ∃ z : Ex, z.is (signed sa na * db + signed sb nb * da) (da * db) ∧
    (signed sa na * db + signed sb nb * da = 0 → z.neg = (sa && sb)) ∧
    opAdd ty [.f (.fin sa na da), .f (.fin sb nb db)] = laneRound ty z 0 := by
  obtain ⟨z, hz, hi, hn⟩ := exAdd_fin sa sb na nb ha hb
  refine ⟨z, hi, hn, ?_⟩
  show arith ty (exAdd (.fin sa na da) (.fin sb nb db)) _ = _
  rw [hz, arith_float hf]
theorem opSub_fin : ∃ z : Ex, z.is (signed sa na * db - signed sb nb * da) (da * db) ∧
    (signed sa na * db - signed sb nb * da = 0 → z.neg = (sa && !sb)) ∧
    opSub ty [.f (.fin sa na da), .f (.fin sb nb db)] = laneRound ty z 0 := by
  obtain ⟨z, hz, hi, hn⟩ := exAdd_fin sa (!sb) na nb ha hb
  rw [signed_not, Int.neg_mul, ← Int.sub_eq_add_neg] at hi hn
  refine ⟨z, hi, hn, ?_⟩
  show arith ty (exAdd (.fin sa na da) (.fin (!sb) nb db)) _ = _
  rw [hz, arith_float hf]
include hd
theorem opFma_fin : ∃ z : Ex, z.is (signed sd nd * (da * db : Nat) + signed sa na * signed sb nb * dd) (dd * (da * db)) ∧
    (signed sd nd * (da * db : Nat) + signed sa na * signed sb nb * dd = 0 → z.neg = (sd && (sa != sb))) ∧
    opFma ty [.f (.fin sa na da), .f (.fin sb nb db), .f (.fin sd nd dd)] = laneRound ty z 0 := by
  obtain ⟨z, hz, hi, hn⟩ := exAdd_fin sd (sa != sb) nd (na * nb) hd (Nat.mul_pos ha hb)
  rw [signed_mul] at hi hn
  refine ⟨z, hi, hn, ?_⟩
  show arith ty (exAdd (.fin sd nd dd) (.fin (sa != sb) (na * nb) (da * db))) _ = _
  rw [hz, arith_float hf]
end

/-! ### Floating types: zeros, infinities and NaN (R78, R79, R148, R156) -/

theorem float_cases {ty : VTy} (hf : ty.isFloat = true) : ty = .f32 ∨ ty = .f16 ∨ ty = .b16 := by
  cases ty <;> simp_all [VTy.isFloat]
theorem laneRound_nan {ty : VTy} (hf : ty.isFloat = true) (f : Fl) : laneRound ty .nan f = (.f .nan, f) := by
  have h : ty.round .nan = (.nan, 0) := by rcases float_cases hf with rfl | rfl | rfl <;> rfl
  rw [laneRound, h]
  exact congrArg (Prod.mk _) BitVec.or_zero
theorem laneRound_inf {ty : VTy} (hf : ty.isFloat = true) (s : Bool) (f : Fl) : laneRound ty (.inf s) f = (.f (.inf s), f) := by
  have h : ty.round (.inf s) = (.inf s, 0) := by rcases float_cases hf with rfl | rfl | rfl <;> cases s <;> rfl
  rw [laneRound, h]
  exact congrArg (Prod.mk _) BitVec.or_zero

section
variable {ty : VTy} (hf : ty.isFloat = true)
include hf

/-- A lane that adds, multiplies or divides gives the exact operation's value rounded once. -/
theorem opAdd_f (x y : Ex) : opAdd ty [.f x, .f y] = laneRound ty (exAdd x y).1 (exAdd x y).2 := arith_float hf _ _ _
theorem opSub_f (x y : Ex) : opSub ty [.f x, .f y] = laneRound ty (exSub x y).1 (exSub x y).2 := arith_float hf _ _ _
theorem opMul_f (x y : Ex) : opMul ty [.f x, .f y] = laneRound ty (exMul x y).1 (exMul x y).2 := arith_float hf _ _ _
theorem opDiv_f (x y : Ex) : opDiv ty [.f x, .f y] = laneRound ty (exDiv x y).1 (exDiv x y).2 := arith_float hf _ _ _
theorem opFma_f (x y z : Ex) : opFma ty [.f x, .f y, .f z] = laneRound ty (exFma z x y).1 (exFma z x y).2 := arith_float hf _ _ _
omit hf in
/-- A NaN operand of an exact operation. -/
theorem ex_nan {x y : Ex} (z : Ex) (h : x = .nan ∨ y = .nan) :
    exAdd x y = (.nan, 0) ∧ exSub x y = (.nan, 0) ∧ exMul x y = (.nan, 0) ∧ exFma z x y = (.nan, 0) ∧ exDiv x y = (.nan, 0) ∧
      exMin x y = .nan ∧ exMax x y = .nan := by
  rcases h with rfl | rfl
  · cases z <;> exact ⟨rfl, rfl, rfl, rfl, rfl, rfl, rfl⟩
  · cases x <;> cases z <;> exact ⟨rfl, rfl, rfl, rfl, rfl, rfl, rfl⟩
theorem ops_nan {x y : Ex} (z : Ex) (h : x = .nan ∨ y = .nan) :
    opAdd ty [.f x, .f y] = (.f .nan, 0) ∧ opSub ty [.f x, .f y] = (.f .nan, 0) ∧ opMul ty [.f x, .f y] = (.f .nan, 0) ∧
      opFma ty [.f x, .f y, .f z] = (.f .nan, 0) ∧ opDiv ty [.f x, .f y] = (.f .nan, 0) ∧ opMin ty [.f x, .f y] = (.f .nan, 0) ∧
      opMax ty [.f x, .f y] = (.f .nan, 0) := by
  obtain ⟨h1, h2, h3, h4, h5, h6, h7⟩ := ex_nan z h
  refine ⟨by rw [opAdd_f hf, h1, laneRound_nan hf], by rw [opSub_f hf, h2, laneRound_nan hf],
    by rw [opMul_f hf, h3, laneRound_nan hf], by rw [opFma_f hf, h4, laneRound_nan hf], by rw [opDiv_f hf, h5, laneRound_nan hf],
    ?_, ?_⟩
  · rw [opMin, if_pos hf]
    exact congrArg (fun e => (Lane.f e, (0 : Fl))) h6
  · rw [opMax, if_pos hf]
    exact congrArg (fun e => (Lane.f e, (0 : Fl))) h7
theorem ops_inf (s : Bool) (n e : Nat) :
    opAdd ty [.f (.inf s), .f (.inf (!s))] = (.f .nan, fNV) ∧ opSub ty [.f (.inf s), .f (.inf s)] = (.f .nan, fNV) ∧
      opMul ty [.f (.inf s), .f (.fin false 0 e)] = (.f .nan, fNV) ∧ opDiv ty [.f (.inf s), .f (.inf true)] = (.f .nan, fNV) ∧
      opAdd ty [.f (.inf s), .f (.fin false n e)] = (.f (.inf s), 0) ∧
      opDiv ty [.f (.fin false n e), .f (.inf s)] = laneRound ty (.fin s 0 1) 0 := by
  have hs : exAdd (.inf s) (.inf (!s)) = (.nan, fNV) := by cases s <;> rfl
  have hd : exDiv (.fin false n e) (.inf s) = (.fin s 0 1, 0) := by cases s <;> rfl
  refine ⟨by rw [opAdd_f hf, hs, laneRound_nan hf], ?_, ?_, ?_, ?_, by rw [opDiv_f hf, hd]⟩
  · rw [opSub_f hf, show exSub (.inf s) (.inf s) = (.nan, fNV) from hs, laneRound_nan hf]
  · rw [opMul_f hf, show exMul (.inf s) (.fin false 0 e) = (.nan, fNV) from rfl, laneRound_nan hf]
  · rw [opDiv_f hf, show exDiv (.inf s) (.inf true) = (.nan, fNV) from rfl, laneRound_nan hf]
  · rw [opAdd_f hf, show exAdd (.inf s) (.fin false n e) = (.inf s, 0) from rfl, laneRound_inf hf]
end

/-! ### Roots, logarithms and powers (R156) -/

/-- The bit-by-bit search keeps r² ≤ n < (r + 2^fuel)². -/
theorem isqrt_go (n : Nat) : ∀ fuel r, r * r ≤ n → n < (r + 2 ^ fuel) * (r + 2 ^ fuel) →
    isqrt.go n fuel r * isqrt.go n fuel r ≤ n ∧ n < (isqrt.go n fuel r + 1) * (isqrt.go n fuel r + 1)
  | 0, r, h1, h2 => ⟨h1, h2⟩
  | fuel + 1, r, h1, h2 => by
    have h3 : r + 2 ^ fuel + 2 ^ fuel = r + 2 ^ (fuel + 1) := by ring
    unfold isqrt.go
    by_cases h : (r + 2 ^ fuel) * (r + 2 ^ fuel) ≤ n
    · simp only [h, if_true]
      exact isqrt_go n fuel _ h (by rw [h3]; exact h2)
    · simp only [h, if_false]
      exact isqrt_go n fuel _ h1 (not_le.mp h)
theorem isqrt_spec (n : Nat) : isqrt n * isqrt n ≤ n ∧ n < (isqrt n + 1) * (isqrt n + 1) := by
  refine isqrt_go n _ 0 (Nat.zero_le n) ?_
  have h1 : n < 2 ^ (Nat.log2 n + 1) := Nat.lt_log2_self
  refine h1.trans_le ?_
  rw [Nat.zero_add, ← pow_add]
  exact Nat.pow_le_pow_right (by decide) (by omega)
/-- A root by a rational on the same side of every value with 200 bits (log entry 5). -/
theorem sqrtQ_is (n : Nat) {e : Nat} (he : 0 < e) : ∃ r, r * r ≤ n * e * 2 ^ 400 ∧ n * e * 2 ^ 400 < (r + 1) * (r + 1) ∧
    (sqrtQ n e).is (if r * r = n * e * 2 ^ 400 then 2 * r else 2 * r + 1 : Nat) (2 * (e * 2 ^ 200)) := by
  obtain ⟨h1, h2⟩ := isqrt_spec (n * e * 2 ^ 400)
  refine ⟨_, h1, h2, ?_⟩
  rw [sqrtQ]
  generalize isqrt (n * e * 2 ^ 400) = r
  split_ifs
  · exact is_fin (by positivity) (by simp only [signed, Bool.false_eq_true, if_false]; push_cast; ring)
  · exact is_fin (by positivity) (by simp only [signed, Bool.false_eq_true, if_false]; push_cast; ring)
theorem log2_mul_pow {n : Nat} (m : Nat) (hn : 0 < n) : Nat.log2 (n * 2 ^ m) = Nat.log2 n + m := by
  rw [Nat.log2_eq_iff (by positivity)]
  refine ⟨?_, ?_⟩
  · rw [pow_add]
    exact Nat.mul_le_mul_right _ (Nat.log2_self_le hn.ne')
  · rw [Nat.add_right_comm, pow_add]
    exact Nat.mul_lt_mul_of_pos_right Nat.lt_log2_self (by positivity)
theorem ilog2_pow {e : Nat} (m : Nat) (he : 0 < e) : ilog2 (e * 2 ^ m) e = m := by
  have h2 : ((Nat.log2 e + m : Nat) : Int) - Nat.log2 e = m := by omega
  simp only [ilog2, log2_mul_pow m he, h2]
  simp
theorem ilog2_inv {n : Nat} (m : Nat) (hn : 0 < n) : ilog2 n (n * 2 ^ m) = -(m : Int) := by
  have h2 : (Nat.log2 n : Int) - ((Nat.log2 n + m : Nat) : Int) = -(m : Int) := by omega
  simp only [ilog2, log2_mul_pow m hn, h2, neg_neg, Int.toNat_natCast]
  by_cases h : (0 : Int) ≤ -(m : Int)
  · have h0 : m = 0 := by omega
    subst h0
    simp
  · have h0 : m ≠ 0 := by
      rintro rfl
      exact h le_rfl
    simp [h, h0]
/-- The logarithm of a power of two (R156). -/
theorem exLog2_pow {e : Nat} (m : Nat) (he : 0 < e) : exLog2 (.fin false (e * 2 ^ m) e) = (.fin false m 1, 0) := by
  have h0 : e * 2 ^ m ≠ 0 := by positivity
  have hm : e * 2 ^ m * 2 ^ fixP / (e * 2 ^ m) = 2 ^ fixP := Nat.mul_div_cancel_left _ (by positivity)
  have hx : exInt (m : Int) = .fin false m 1 := by simp [exInt]
  simp only [exLog2, h0, if_false, ilog2_pow m he, Int.natCast_nonneg, if_true, Int.toNat_natCast, hm, hx, Bool.false_eq_true]
theorem exLog2_inv {n : Nat} (m : Nat) (hn : 0 < n) : exLog2 (.fin false n (n * 2 ^ m)) = (.fin (decide (0 < m)) m 1, 0) := by
  cases m with
  | zero => simpa using exLog2_pow 0 hn
  | succ m =>
    have hlt : ¬(0 : Int) ≤ -((m + 1 : Nat) : Int) := by omega
    have hm : n * 2 ^ (fixP + (m + 1)) / (n * 2 ^ (m + 1)) = 2 ^ fixP := by
      rw [pow_add, ← Nat.mul_assoc, Nat.mul_right_comm]
      exact Nat.mul_div_cancel_left _ (by positivity)
    have hx : exInt (-((m + 1 : Nat) : Int)) = .fin true (m + 1) 1 := by
      rw [exInt, Int.natAbs_neg, Int.natAbs_natCast, decide_eq_true (by omega)]
    simp only [exLog2, hn.ne', if_false, ilog2_inv (m + 1) hn, hlt, neg_neg, Int.toNat_natCast, hm, hx, Bool.false_eq_true, if_true,
      Nat.succ_pos, decide_true]
/-- Two to an integer power (R156). -/
theorem exExp2_int {e : Nat} (s : Bool) {m : Nat} (he : 0 < e) (hm : m < 2000) :
    exExp2 (.fin s (e * m) e) = scale2 false 1 (if s then -(m : Int) else m) := by
  simp only [exExp2, Nat.mul_mod_right, Nat.mul_div_cancel_left m he, if_true, if_neg (not_le.mpr hm)]
theorem scale2_is (s : Bool) (m : Nat) :
    if s then (scale2 false 1 (if s then -(m : Int) else m)).is 1 (2 ^ m) else (scale2 false 1 (if s then -(m : Int) else m)).is (2 ^ m) 1 := by
  cases s with
  | false =>
    simp only [Bool.false_eq_true, if_false, scale2, Int.natCast_nonneg, if_true, Int.toNat_natCast]
    exact is_fin Nat.one_pos (by simp [signed])
  | true =>
    simp only [if_true, scale2, neg_neg, Int.toNat_natCast]
    split_ifs with h
    · have h0 : m = 0 := by omega
      subst h0
      exact is_fin Nat.one_pos (by simp [signed])
    · exact is_fin (by positivity) (by simp [signed])

section
variable {ty : VTy} (hf : ty.isFloat = true) (tok : Tok) (d a : Hreg) (rp : Rep)
include hf

/-- A special function's lane on an operand whose exact value and flags are known. -/
theorem fn_lane {i : Instr} {g : Ex → Ex × Fl} {x z : Ex} {f : Fl}
    (hi : (laneOp i).map (fun o => o.op [.f x]) = some (arith ty (g x) 0)) (hg : g x = (z, f)) :
    (laneOp i).map (fun o => o.op [.f x]) = some (laneRound ty z f) := by
  rw [hi, hg, arith_float hf]
theorem vrcp_fin (s : Bool) (n e : Nat) : (laneOp (.vrcp tok d a ty rp)).map (fun o => o.op [.f (.fin s n e)]) =
    some (if n = 0 then (.f (.inf s), fDZ) else laneRound ty (.fin s e n) 0) := by
  by_cases h : n = 0
  · rw [if_pos h, ← laneRound_inf hf]
    exact fn_lane hf (g := exRcp) rfl (by rw [exRcp, exDiv, if_pos h, if_neg Nat.one_ne_zero, Bool.false_bne])
  · rw [if_neg h]
    exact fn_lane hf (g := exRcp) rfl (by rw [exRcp, exDiv, if_neg h, Bool.false_bne, Nat.one_mul, Nat.one_mul])
theorem vlog2_pow {e : Nat} (m : Nat) (he : 0 < e) : (laneOp (.vlog2 tok d a ty rp)).map (fun o => o.op [.f (.fin false (e * 2 ^ m) e)]) =
    some (laneRound ty (.fin false m 1) 0) := fn_lane hf (g := exLog2) rfl (exLog2_pow m he)
theorem vlog2_inv {n : Nat} (m : Nat) (hn : 0 < n) : (laneOp (.vlog2 tok d a ty rp)).map (fun o => o.op [.f (.fin false n (n * 2 ^ m))]) =
    some (laneRound ty (.fin (decide (0 < m)) m 1) 0) := fn_lane hf (g := exLog2) rfl (exLog2_inv m hn)
theorem vexp2_int (s : Bool) {e m : Nat} (he : 0 < e) (hm : m < 2000) :
    (laneOp (.vexp2 tok d a ty rp)).map (fun o => o.op [.f (.fin s (e * m) e)]) =
      some (laneRound ty (scale2 false 1 (if s then -(m : Int) else m)) 0) :=
  fn_lane hf (g := fun x => (exExp2 x, 0)) rfl (by rw [exExp2_int s he hm])
/-- The special functions of a NaN. -/
theorem fn_nan : ∀ i ∈ [Instr.vrcp tok d a ty rp, .vsqrt tok d a ty rp, .vrsq tok d a ty rp, .vlog2 tok d a ty rp, .vexp2 tok d a ty rp,
    .vtanh tok d a ty rp], (laneOp i).map (fun o => o.op [.f .nan]) = some (.f .nan, 0) := by
  have h : ∀ i ∈ [Instr.vrcp tok d a ty rp, .vsqrt tok d a ty rp, .vrsq tok d a ty rp, .vlog2 tok d a ty rp, .vexp2 tok d a ty rp,
      .vtanh tok d a ty rp], (laneOp i).map (fun o => o.op [.f .nan]) = some (arith ty (.nan, 0) 0) := by
    simp only [List.forall_mem_cons, List.not_mem_nil, false_implies, implies_true, and_true]
    exact ⟨rfl, rfl, rfl, rfl, rfl, rfl⟩
  intro i hi
  rw [h i hi, arith_float hf, laneRound_nan hf]
/-- VSQRT and VRSQ of a finite value (R156). -/
theorem vsqrt_fin (s : Bool) (n e : Nat) : (laneOp (.vsqrt tok d a ty rp)).map (fun o => o.op [.f (.fin s n e)]) =
    some (if n = 0 then laneRound ty (.fin s 0 1) 0 else if s then (.f .nan, fNV) else laneRound ty (sqrtQ n e) 0) := by
  rw [← laneRound_nan hf]
  refine (fn_lane hf (g := exSqrt) rfl rfl).trans (congrArg some ?_)
  show laneRound ty (exSqrt (.fin s n e)).1 (exSqrt (.fin s n e)).2 = _
  simp only [exSqrt]
  split_ifs <;> rfl
theorem vrsq_fin (s : Bool) (n e : Nat) : (laneOp (.vrsq tok d a ty rp)).map (fun o => o.op [.f (.fin s n e)]) =
    some (if n = 0 then (.f (.inf s), fDZ) else if s then (.f .nan, fNV) else laneRound ty (sqrtQ e n) 0) := by
  rw [← laneRound_nan hf, ← laneRound_inf hf]
  refine (fn_lane hf (g := exRsqrt) rfl rfl).trans (congrArg some ?_)
  show laneRound ty (exRsqrt (.fin s n e)).1 (exRsqrt (.fin s n e)).2 = _
  simp only [exRsqrt]
  split_ifs <;> rfl
/-- VLOG2 of zero and of a negative value (R156). -/
theorem vlog2_zero (s : Bool) (e : Nat) : (laneOp (.vlog2 tok d a ty rp)).map (fun o => o.op [.f (.fin s 0 e)]) = some (.f (.inf true), fDZ) := by
  rw [← laneRound_inf hf]
  exact fn_lane hf (g := exLog2) rfl (by simp [exLog2])
theorem vlog2_neg {n : Nat} (e : Nat) (hn : n ≠ 0) : (laneOp (.vlog2 tok d a ty rp)).map (fun o => o.op [.f (.fin true n e)]) =
    some (.f .nan, fNV) := by
  rw [← laneRound_nan hf]
  exact fn_lane hf (g := exLog2) rfl (by simp [exLog2, hn])
theorem vtanh_zero (s : Bool) (e : Nat) : (laneOp (.vtanh tok d a ty rp)).map (fun o => o.op [.f (.fin s 0 e)]) =
    some (laneRound ty (.fin s 0 1) 0) := fn_lane hf (g := fun x => (exTanh x, 0)) rfl (by simp [exTanh])
/-- The special functions of the infinities (R156). -/
theorem fn_inf (s : Bool) :
    let fn (i : Instr) : Option (Lane × Fl) := (laneOp i).map (fun o => o.op [.f (.inf s)])
    let bad : Lane × Fl := (.f .nan, fNV)
    fn (.vrcp tok d a ty rp) = some (laneRound ty (.fin s 0 1) 0) ∧
    fn (.vsqrt tok d a ty rp) = some (if s then bad else (.f (.inf false), 0)) ∧
    fn (.vrsq tok d a ty rp) = some (if s then bad else laneRound ty (.fin false 0 1) 0) ∧
    fn (.vlog2 tok d a ty rp) = some (if s then bad else (.f (.inf false), 0)) ∧
    fn (.vexp2 tok d a ty rp) = some (if s then laneRound ty (.fin false 0 1) 0 else (.f (.inf false), 0)) ∧
    fn (.vtanh tok d a ty rp) = some (laneRound ty (.fin s 1 1) 0) := by
  intro fn bad
  have hb : bad = laneRound ty .nan fNV := (laneRound_nan hf _).symm
  rw [hb, ← laneRound_inf hf]
  cases s
  · exact ⟨fn_lane hf (g := exRcp) rfl rfl, fn_lane hf (g := exSqrt) rfl rfl, fn_lane hf (g := exRsqrt) rfl rfl,
      fn_lane hf (g := exLog2) rfl rfl, fn_lane hf (g := fun x => (exExp2 x, 0)) rfl rfl, fn_lane hf (g := fun x => (exTanh x, 0)) rfl rfl⟩
  · exact ⟨fn_lane hf (g := exRcp) rfl rfl, fn_lane hf (g := exSqrt) rfl rfl, fn_lane hf (g := exRsqrt) rfl rfl,
      fn_lane hf (g := exLog2) rfl rfl, fn_lane hf (g := fun x => (exExp2 x, 0)) rfl rfl, fn_lane hf (g := fun x => (exTanh x, 0)) rfl rfl⟩

end

/-- Settles O39: one repetition by its streams, then a lane's result by the type and the exact operations. -/
theorem laneWiseVectorResults : Obligations.LaneWiseVectorResults := by
  refine ⟨fun s i b o v hb ho hx hv hc hw => ?_, fun ty x y z tok d a c rp hf hx hy hz => ?_,
    fun ty sa sb sd na nb nd da db dd hf ha hb hd => ?_, fun ty x y z s n e hf => ⟨ops_nan hf z, ops_inf hf s n e⟩,
    fun ty tok d a rp s n e hf he => ?_⟩
  · obtain ⟨e, h⟩ := laneWise_done (begins_awake hb) hv hc hw
    exact (exec_vector_begins hb (vecOp_of_laneOp ho b.en) h).1 (.inl (by rw [hx]; decide))
  · exact ⟨congrArg Prod.fst (opAdd_int hf hx hy), congrArg Prod.fst (opSub_int hf hx hy), congrArg Prod.fst (opMul_int hf hx hy),
      congrArg Prod.fst (opFma_int hf hx hy hz), opMin_int hf hx hy, opMax_int hf hx hy, opAbs_int hf hx, opNeg_int hf hx, rfl, rfl, rfl,
      rfl, rfl, opSra_int hf hx⟩
  · refine ⟨opAdd_fin hf sa sb na nb ha hb, opSub_fin hf sa sb na nb ha hb, opMul_fin hf sa sb na nb,
      opFma_fin hf sa sb sd na nb nd ha hb hd, ?_, opMin_fin hf sa sb na nb, opMax_fin hf sa sb na nb, opAbs_fin hf sa na,
      opNeg_fin hf sa na⟩
    rw [opDiv_fin hf, laneRound_nan hf, laneRound_inf hf]
  · refine ⟨vrcp_fin hf tok d a rp s n e, ⟨_, vsqrt_fin hf tok d a rp s n e, fun h => if_pos h, fun h hs => ?_, fun h hs => ?_⟩,
      ⟨_, vrsq_fin hf tok d a rp s n e, fun h => if_pos h, fun h hs => ?_, fun h hs => ?_⟩, fun h => ?_, fun h hs => ?_,
      fun m hs hn => ⟨fun h => ?_, fun h => ?_⟩, fun m hm h => ⟨_, ?_, scale2_is s m⟩, fun h => ?_, ?_⟩
    · rw [if_neg h, if_pos hs]
    · obtain ⟨r, h1, h2, h3⟩ := sqrtQ_is n he
      exact ⟨_, r, h1, h2, h3, by rw [if_neg h, hs]; rfl⟩
    · rw [if_neg h, if_pos hs]
    · obtain ⟨r, h1, h2, h3⟩ := sqrtQ_is e (Nat.pos_of_ne_zero h)
      exact ⟨_, r, h1, h2, h3, by rw [if_neg h, hs]; rfl⟩
    · subst h; exact vlog2_zero hf tok d a rp s e
    · subst hs; exact vlog2_neg hf tok d a rp e h
    · subst hs h; exact vlog2_pow hf tok d a rp m he
    · subst hs h; exact vlog2_inv hf tok d a rp m (Nat.pos_of_ne_zero hn)
    · subst h; exact vexp2_int hf tok d a rp s he hm
    · subst h; exact vtanh_zero hf tok d a rp s e
    · obtain ⟨h1, h2, h3, h4, h5, h6⟩ := fn_inf hf tok d a rp s
      exact ⟨h1, h2, h3, h4, h5, h6, fn_nan hf tok d a rp⟩

end Sys2Proof.Machine
end

section
/-!
PROOFS. The dispatcher (O53): the choice of a queue, a unit and a core, the start of a unit, count-driven launches and the end of a
drained unit.
-/

namespace Sys2Proof.Machine
open Sys2Proof

/-! ### The choice of a queue, a unit and a core (R329 to R331) -/

/-- The least element of a list by rank. -/
theorem leastBy_some {f : Nat → Nat} {l : List Nat} {b : Nat} (h : leastBy f l = some b) : b ∈ l ∧ ∀ x ∈ l, f b ≤ f x := by
  induction l generalizing b with
  | nil => cases h
  | cons a t ih =>
    unfold leastBy at h
    split at h
    · rename_i y hy
      obtain ⟨hm, hl⟩ := ih hy
      split_ifs at h with hc
      · cases h
        exact ⟨by simp, fun x hx => (List.mem_cons.mp hx).elim (fun e => e ▸ le_rfl) (fun hx => hc.trans (hl x hx))⟩
      · cases h
        exact ⟨by simp [hm], fun x hx => (List.mem_cons.mp hx).elim (fun e => e ▸ (not_le.mp hc).le) (fun hx => hl x hx)⟩
    · rename_i hn
      cases h
      refine ⟨by simp, fun x hx => ?_⟩
      cases t with
      | nil => rw [List.mem_singleton.mp hx]
      | cons y t =>
        unfold leastBy at hn
        split at hn
        · split_ifs at hn
        · cases hn
theorem leastBy_none {f : Nat → Nat} {l : List Nat} (h : leastBy f l = none) : l = [] := by
  cases l with
  | nil => rfl
  | cons a t =>
    unfold leastBy at h
    split at h
    · split_ifs at h
    · cases h
theorem le_foldl_max (l : List Nat) (n : Nat) : n ≤ l.foldl max n ∧ ∀ x ∈ l, x ≤ l.foldl max n := by
  induction l generalizing n with
  | nil => simp
  | cons a t ih =>
    obtain ⟨h1, h2⟩ := ih (max n a)
    exact ⟨(le_max_left _ _).trans h1, fun x hx => (List.mem_cons.mp hx).elim (fun e => by rw [e]; exact (le_max_right n a).trans h1) (h2 x)⟩
/-- SelectQueue: a ready queue of the highest priority, and the partition with a pointer moved on (R330). -/
theorem selectQueue_gives {pt pt' : Part} {q : Nat} (h : pt.selectQueue = some (q, pt')) :
    (q < 16 ∧ pt.ready q = true ∧ ∀ q', q' < 16 → pt.ready q' = true → pt.pri q' ≤ pt.pri q) ∧ pt' = { pt with rrp := pt'.rrp } := by
  unfold Part.selectQueue at h
  simp only [] at h
  split_ifs at h
  split at h
  · rename_i x hx
    cases h
    have hq := List.find?_some hx
    simp only [Bool.and_eq_true, List.contains_iff_mem, List.mem_filter, beq_iff_eq, upto_eq_range, List.mem_range] at hq
    refine ⟨⟨hq.1.1, hq.1.2, fun q' h1 h2 => ?_⟩, rfl⟩
    rw [hq.2]
    refine (le_foldl_max _ 0).2 _ (List.mem_map_of_mem (List.mem_filter.mpr ⟨?_, h2⟩))
    simpa [upto_eq_range] using h1
  · cases h
/-- The next unit of a launch: the lowest one that is ready again, else the next new one (R329). -/
theorem takeUnit_new {l : Launch} (h : ∀ x ∈ l.requeue, x.ready = false) : l.takeUnit.1 = (l.next, 0) := by
  have h0 : (l.requeue.filter (·.ready)).map (·.unit) = [] := by
    rw [List.map_eq_nil_iff, List.filter_eq_nil_iff]
    exact fun x hx => by simp [h x hx]
  rw [Launch.takeUnit, h0]
  rfl
theorem takeUnit_again {l : Launch} (h : ∃ x ∈ l.requeue, x.ready = true) :
    (∃ x ∈ l.requeue, x.ready = true ∧ x.unit = l.takeUnit.1.1) ∧ ∀ x ∈ l.requeue, x.ready = true → l.takeUnit.1.1 ≤ x.unit := by
  unfold Launch.takeUnit
  split
  · rename_i u hu
    obtain ⟨hm, hl⟩ := leastBy_some hu
    obtain ⟨x, hx, e⟩ := List.mem_map.mp hm
    obtain ⟨h1, h2⟩ := List.mem_filter.mp hx
    exact ⟨⟨x, h1, h2, e⟩, fun y h3 h4 => hl _ (List.mem_map_of_mem (List.mem_filter.mpr ⟨h3, h4⟩))⟩
  · rename_i hn
    obtain ⟨x, h1, h2⟩ := h
    exact absurd h2 (List.filter_eq_nil_iff.mp (List.map_eq_nil_iff.mp (leastBy_none hn)) x h1)
/-- A unit is placed on a free core in service whose cluster is not gated (R331). -/
theorem place_core {s : State} {p c : Nat} {l : Launch} (h : s.place p l = .core c) :
    c ∈ s.freeCores p ∧ (s.clu (c / 4)).gated = false := by
  have hc : ∀ x ∈ (if l.undecl = 0 then s.freeCores p else
      let calm := (s.freeCores p).filter (fun c => !s.activeDecl (c / 4)); if calm = [] then s.freeCores p else calm),
      x ∈ s.freeCores p := by
    intro x hx
    dsimp only at hx
    split_ifs at hx
    · exact hx
    · exact hx
    · exact (List.mem_filter.mp hx).1
  unfold State.place at h
  dsimp only at h hc
  generalize (if l.undecl = 0 then s.freeCores p else _) = cand at h hc
  split_ifs at h
  · split at h
    · rename_i x hx
      split_ifs at h with hg
      cases h
      refine ⟨hc _ ?_, by simpa using hg⟩
      rcases Option.or_eq_some_iff.mp (Option.orElse_eq_or.symm.trans hx) with hx | ⟨-, hx⟩
      · exact (List.mem_filter.mp (List.mem_of_find?_eq_some hx)).1
      · exact (List.mem_filter.mp (List.mem_of_mem_head? hx)).1
    · cases h
  · split at h
    · rename_i x hx
      cases h
      obtain ⟨h1, h2⟩ := List.mem_filter.mp (leastBy_some hx).1
      exact ⟨hc _ h1, by simpa using h2⟩
    · split at h <;> cases h
theorem freeCore_gives {s : State} {c : Nat} (h : s.freeCore c = true) : (s.core c).run = none ∧
    ((s.core c).mode = .free ∨ (s.core c).mode = .halted) ∧ s.ik.retired.contains (c / 4) = false := by
  simp only [State.freeCore, Bool.and_eq_true, Bool.or_eq_true, beq_iff_eq, Option.isNone_iff_eq_none, Bool.not_eq_true'] at h
  obtain ⟨⟨hm, hr⟩, ht⟩ := h
  exact ⟨hr, hm, ht⟩

/-! ### The start of a unit (R16, R328) -/

/-- The argument block is read of memory under the translation of its partition. -/
theorem argBytes_congr {s t : State} {p : Nat} {l : Launch} (hm : t.mem = s.mem) (hb : t.badMem = s.badMem)
    (hs : (t.part p).snap = (s.part p).snap)
    (he : t.penv p l.rc.priv = s.penv p l.rc.priv) (n k : Nat) : t.argBytes p l n k = s.argBytes p l n k := by
  induction n generalizing k with
  | zero => rfl
  | succ n ih => simp only [State.argBytes, State.memBad, hm, hb, hs, he, ih] <;> rfl
/-- A block that can be read meets no held segment. -/
theorem argBytes_translate {s : State} {p : Nat} {l : Launch} {n k : Nat} {bs : List Byte} (h : s.argBytes p l n k = .ok bs) :
    ∀ j, j < n → ∃ x, (translate s.mem (s.penv p l.rc.priv) [] [] (l.rc.w 1 + BitVec.ofNat 64 (64 * (k + j))) needR).1 = .ok x := by
  induction n generalizing k bs with
  | zero => exact fun j hj => absurd hj (Nat.not_lt_zero j)
  | succ n ih =>
    unfold State.argBytes at h
    dsimp only at h
    split at h
    · cases h
    · cases h
    · cases h
    · rename_i x hx
      split_ifs at h
      split at h
      · cases h
      · rename_i bs' hb
        rintro (_ | j) hj
        · exact ⟨x, hx⟩
        · have := ih hb j (by omega)
          rwa [Nat.add_right_comm, Nat.add_assoc] at this
theorem argsHeld_of_argBytes {s : State} {p : Nat} {l : Launch} {bs : List Byte} (h : s.argBytes p l (l.rc.alen / 64) 0 = .ok bs) :
    s.argsHeld p l = false := by
  rw [State.argsHeld, List.any_eq_false]
  intro j hj
  obtain ⟨x, hx⟩ := argBytes_translate h j (by simpa [upto_eq_range] using hj)
  rw [Nat.zero_add] at hx
  rw [hx]
  exact Bool.false_ne_true
theorem countCe_cores (s : State) (w : ProtWord) : (s.countCe w).cores = s.cores := by
  unfold State.countCe
  split <;> rfl
theorem correct_cores (s : State) (p : ProtWord → Bool) : (s.correct p).cores = s.cores := by
  unfold State.correct
  split
  · rfl
  · exact foldl_keeps (g := State.cores) countCe_cores _ _
/-- Reading the argument block corrects words of memory alone. -/
theorem corrArgs_frame (s : State) (p : Nat) (l : Launch) : (s.corrArgs p l).cores = s.cores ∧ (s.corrArgs p l).mem = s.mem := by
  have h : ∀ (u : State) (e : Env) (n : Need) (va : W64) (m : Nat), (u.corrVa e n va m).cores = u.cores ∧ (u.corrVa e n va m).mem = u.mem := by
    intro u e n va m
    unfold State.corrVa
    split
    · exact ⟨rfl, rfl⟩
    · split
      · exact ⟨correct_cores _ _, (correct_frame _ _).2.1⟩
      · exact ⟨rfl, rfl⟩
  unfold State.corrArgs
  split
  · exact ⟨rfl, rfl⟩
  · exact ⟨foldl_keeps (g := State.cores) (fun a _ => (h a _ _ _ _).1) _ _, foldl_keeps (g := State.mem) (fun a _ => (h a _ _ _ _).2) _ _⟩

/-! What the core is at the start of a unit. -/

section
variable (k : Core) (l : Launch) (u att ph : Nat) (job : W64)
theorem started_unit : (k.started l u att ph job).getSr 0x040 = BitVec.ofNat 64 u := by
  simp [Core.started, Core.getSr, upto_eq_range, List.range_succ, srReset, mget_mput_same, mget_mput_ne]
theorem started_index {d : Nat} (h : d < 5) : (k.started l u att ph job).getSr (0x041 + d) = BitVec.ofNat 64 (nth 0 (l.ix u) d) := by
  interval_cases d <;> simp [Core.started, Core.getSr, upto_eq_range, List.range_succ, srReset, mget_mput_same, mget_mput_ne]
theorem started_launch : (k.started l u att ph job).getSr 0x046 = l.id := by
  simp [Core.started, Core.getSr, srReset, mget_mput_same, mget_mput_ne]
theorem started_phase : (k.started l u att ph job).getSr 0x047 = BitVec.ofNat 64 ph := by
  simp [Core.started, Core.getSr, srReset, mget_mput_same, mget_mput_ne]
theorem started_job : (k.started l u att ph job).getSr 0x049 = job := by
  simp [Core.started, Core.getSr, srReset, mget_mput_same, mget_mput_ne]
end

/-! ### DISPATCH (R330) -/

/-- The translation of a partition does not depend on its launches and its pointers. -/
theorem penv_setPart {s : State} {p : Nat} {x : Part}
    (hx : x = { s.part p with rrp := x.rrp, spp := x.spp, launches := x.launches }) (priv : Bool) :
    (s.setPart p x).penv p priv = s.penv p priv := by
  unfold State.penv
  rw [part_setPart_same, hx]
  rfl
/-- A unit starts on a core once its argument block has been read. -/
theorem startUnit_ok {s : State} {p c : Nat} {l : Launch} {bs : List Byte} (u att : Nat)
    (h : s.argBytes p l (l.rc.alen / 64) 0 = .ok bs) :
    s.startUnit p c l u att = (s.corrArgs p l).setCore c
      (((s.core c).started l u att (s.part p).phase (s.part p).job).store false l.rc.adst bs) := by
  unfold State.startUnit
  rw [h]
/-- The start of a unit in a partition whose launches and pointers have changed. -/
theorem startUnit_setPart {s : State} {p c : Nat} {l : Launch} {bs : List Byte} {x : Part} (u att : Nat)
    (hx : x = { s.part p with rrp := x.rrp, spp := x.spp, launches := x.launches })
    (h : s.argBytes p l (l.rc.alen / 64) 0 = .ok bs) : ∃ v : State, (s.setPart p x).startUnit p c l u att =
      v.setCore c (((s.core c).started l u att x.phase x.job).store false l.rc.adst bs) ∧ v.cores = s.cores ∧ v.mem = s.mem := by
  have hb : (s.setPart p x).argBytes p l (l.rc.alen / 64) 0 = .ok bs :=
    (argBytes_congr (s := s) (setPart_mem s p x) (setPart_badMem s p x)
      ((congrArg Part.snap (part_setPart_same s p x)).trans (by rw [hx])) (penv_setPart hx _) _ _).trans h
  obtain ⟨h1, h2⟩ := corrArgs_frame (s.setPart p x) p l
  refine ⟨_, (startUnit_ok u att hb).trans ?_, h1, h2⟩
  rw [part_setPart_same, core_setPart]
theorem dispatch_none {s : State} {p : Nat} (h : let s1 := s.setPart p (s.part p).fillQueues
    (s1.part p).closing = true ∨ s1.freeCores p = [] ∨ (s1.part p).selectQueue = none) : s.dispatch p = s := by
  have hs : s.upPart p Part.fillQueues = s.setPart p (s.part p).fillQueues := rfl
  simp only [] at h
  unfold State.dispatch
  simp only [hs]
  split_ifs with hc
  · rfl
  · rw [not_or] at hc
    rw [(h.resolve_left hc.1).resolve_left hc.2]

section
variable {s s1 : State} {p q : Nat} {pt : Part} {l : Launch} (hs : s1 = s.setPart p (s.part p).fillQueues)
  (hc : (s1.part p).closing = false) (hf : s1.freeCores p ≠ []) (hq : (s1.part p).selectQueue = some (q, pt))
  (hl : pt.headLaunch q = some l)
include hs hc hf hq hl

/-- DISPATCH with a queue ready, an open phase and a free core. -/
theorem dispatch_scope (hi : pt.inScope l l.takeUnit.1.1 = true) : s.dispatch p =
    ((s1.setPart p (pt.upLaunch l.ref (fun _ => { l.takeUnit.2 with running := l.running }))).ctr p l (.cancel 1)).launchEnd p l.ref := by
  have h1 : s.upPart p Part.fillQueues = s1 := hs.symm
  have h2 : ¬((s1.part p).closing = true ∨ s1.freeCores p = []) := by simp [hc, hf]
  unfold State.dispatch
  simp only [h1, hq, hl, upPart_setPart, hi, if_true, if_neg h2]
theorem dispatch_wake {k : Nat} (hi : pt.inScope l l.takeUnit.1.1 = false) (hp : s1.place p l = .wake k) : s.dispatch p = s1.wake k := by
  have h1 : s.upPart p Part.fillQueues = s1 := hs.symm
  have h2 : ¬((s1.part p).closing = true ∨ s1.freeCores p = []) := by simp [hc, hf]
  unfold State.dispatch
  simp only [h1, hq, hl, hi, hp, Bool.false_eq_true, if_false, if_neg h2]
theorem dispatch_start {c : Nat} (hi : pt.inScope l l.takeUnit.1.1 = false) (hp : s1.place p l = .core c)
    (ha : s1.argsHeld p l = false) : s.dispatch p =
      (s1.setPart p ({ pt with spp := if (pt.getSr 0x230).getLsbD 0 then (c + 1) % 256 else pt.spp }.upLaunch l.ref
        (fun _ => l.takeUnit.2))).startUnit p c l l.takeUnit.1.1 l.takeUnit.1.2 := by
  have h1 : s.upPart p Part.fillQueues = s1 := hs.symm
  have h2 : ¬((s1.part p).closing = true ∨ s1.freeCores p = []) := by simp [hc, hf]
  unfold State.dispatch
  simp only [h1, hq, hl, hi, hp, ha, upPart_setPart, Bool.false_eq_true, if_false, if_neg h2]
/-- The unit of a launch that no abort line covers runs on the core chosen, with its argument block in the scratchpad. -/
theorem dispatch_core {c : Nat} {bs : List Byte} (hi : pt.inScope l l.takeUnit.1.1 = false) (hp : s1.place p l = .core c)
    (hb : s1.argBytes p l (l.rc.alen / 64) 0 = .ok bs) : ∃ v : State, s.dispatch p = v.setCore c
      (((s.core c).started l l.takeUnit.1.1 l.takeUnit.1.2 pt.phase pt.job).store false l.rc.adst bs) ∧ v.cores = s.cores ∧ v.mem = s.mem := by
  rw [dispatch_start hs hc hf hq hl hi hp (argsHeld_of_argBytes hb)]
  subst hs
  exact startUnit_setPart _ _ (by rw [(selectQueue_gives hq).2]; rfl) hb

end

/-! ### COUNT_READ (R327) and UNIT_END (R18) -/

section
variable {s s1 : State} {p q : Nat} (hs : s1 = s.setPart p (s.part p).fillQueues)
include hs

theorem countRead_none (h : (s1.part p).headLaunch q = none ∨ (s1.part p).closing = true) : s.countRead p q = s := by
  have h1 : s.upPart p Part.fillQueues = s1 := hs.symm
  unfold State.countRead
  simp only [h1]
  split
  · rfl
  · rename_i l hl
    have hc : (s1.part p).closing = true := h.resolve_left (by rw [hl]; exact Option.some_ne_none l)
    rw [if_pos (.inr hc)]
theorem countRead_drops {l : Launch} (hl : (s1.part p).headLaunch q = some l) (ht : l.total = none) (hc : (s1.part p).closing = false)
    (ha : (s1.part p).lineOn l = true) : s.countRead p q = s1.dropUnstarted p l.ref := by
  have h1 : s.upPart p Part.fillQueues = s1 := hs.symm
  unfold State.countRead
  simp [h1, hl, ht, hc, ha]
theorem countRead_reads {l : Launch} {ts : List Nat} (hl : (s1.part p).headLaunch q = some l) (ht : l.total = none)
    (hc : (s1.part p).closing = false) (ha : (s1.part p).lineOn l = false) (he : s1.entryTiles p l l.rc.nent 0 = .ok ts)
    (hn : ts.foldl (· + ·) 0 * l.rc.perTile ≤ 2 ^ 24) : s.countRead p q =
      ((s1.corrCells p l).upPart p (fun x => x.upLaunch l.ref (fun y => { y with tiles := some ts }))).launchEnd p l.ref := by
  have h1 : s.upPart p Part.fillQueues = s1 := hs.symm
  have hk : s1.counts p l = .ok ts := by rw [State.counts, he]; exact if_neg (not_lt.mpr hn)
  unfold State.countRead
  simp [h1, hl, ht, hc, ha, hk]
end

/-- The queues of a core are empty when its unit has ended. -/
theorem attemptEnd_queue (s : State) (c : Nat) (halt : Bool) (e : Eng) : ((s.attemptEnd c halt).core c).queue e = [] := by
  unfold State.attemptEnd
  dsimp only
  rw [core_upCore_same]
  cases e <;> rfl
theorem queue_of_eng {k q : Core} (h : q.eng = k.eng) (e : Eng) : q.queue e = k.queue e := by
  cases e <;> simp only [Core.queue, h]
theorem endUnit_queue {s : State} {c : Nat} {r : Running} (halt : Bool) (hr : (s.core c).run = some r) (e : Eng) :
    ((s.endUnit c true halt).core c).queue e = [] := by
  have h (f : Part → Part) : (((s.attemptEnd c halt).upPart (s.partNo c) f).core c).queue e = [] := attemptEnd_queue s c halt e
  unfold State.endUnit
  simp only [hr, if_true]
  split
  · exact h _
  · exact (queue_of_eng ((((booked_ctr _ _ _ _).trans (booked_upLaunch _ _ _ _)).trans (booked_launchEnd _ _ _)).eng c) e).trans (h _)

/-- Settles O53: what the dispatcher chooses, then what it does with it. -/
theorem dispatcherStartsUnits : Obligations.DispatcherStartsUnits := by
  refine ⟨fun s p q pt l hc hf hq hl => ⟨fun hi => ⟨fun c bs hp hb => ?_, fun k hp hw => ?_⟩, fun hi =>
      congrArg Host.Outcome.next (dispatch_scope rfl hc hf hq hl hi)⟩,
    fun s p h => congrArg Host.Outcome.next (dispatch_none h), fun pt pt' q h => (selectQueue_gives h).1, fun l => ⟨takeUnit_new, takeUnit_again⟩,
    fun s p c l h => ?_,
    fun s p q => ⟨fun l ts hl ht hc ha he hn => congrArg Host.Outcome.next (countRead_reads rfl hl ht hc ha he hn),
      fun l hl ht hc ha => congrArg Host.Outcome.next (countRead_drops rfl hl ht hc ha), fun h => congrArg Host.Outcome.next (countRead_none rfl h)⟩,
    fun s c halt => ⟨fun hm hi hh r hr => ?_, fun hm h => ?_, fun h => ?_⟩⟩
  · obtain ⟨v, hv, hcores, hmem⟩ := dispatch_core rfl hc hf hq hl hi hp hb
    have hk := touches_store (d := { pad := (l.rc.adst, bs.length) }) (k := (s.core c).started l l.takeUnit.1.1 l.takeUnit.1.2 pt.phase pt.job)
      false (a := l.rc.adst) (bs := bs) rfl rfl
    refine ⟨_, congrArg Host.Outcome.next hv, ?_⟩
    rw [core_setCore_same]
    refine ⟨by rw [hk.shape]; rfl, by rw [hk.shape]; rfl, by rw [hk.shape]; rfl, ?_, fun r => (hk.scalars r (by simp)).trans (ite_self _),
      fun h => (hk.handles h (by simp)).trans rfl, fun e => ?_, (hk.specials _ (by simp)).trans (started_unit _ _ _ _ _ _),
      fun d hd => (hk.specials _ (by simp)).trans (started_index _ _ _ _ _ _ hd), (hk.specials _ (by simp)).trans (started_launch _ _ _ _ _ _),
      (hk.specials _ (by simp)).trans (started_phase _ _ _ _ _ _), (hk.specials _ (by simp)).trans (started_job _ _ _ _ _ _),
      ?_, fun a ha => ?_, fun e he => ?_, hmem⟩
    · rw [Core.store, clearBad_r, watch_r]; rfl
    · rw [hk.shape]; cases e <;> rfl
    · rw [store_pad]; exact rdN_wrL _ _ _
    · rw [store_pad]; exact rd_wrL_out _ _ _ ha
    · rw [core_setCore_ne _ _ he, State.core, hcores]; rfl
  · rw [show exec (.dispatch p) s = .next (s.dispatch p) from rfl, dispatch_wake rfl hc hf hq hl hi hp, State.wake, hw]
    rfl
  · obtain ⟨h1, h2⟩ := place_core h
    obtain ⟨h3, h4⟩ := List.mem_filter.mp h1
    obtain ⟨h5, h6, h7⟩ := freeCore_gives h4
    exact ⟨h3, h5, h6, h7, h2⟩
  · obtain ⟨hrun, hmode, -, hend⟩ := endUnit_over halt hr
    refine ⟨s.endUnit c true halt, ?_, hrun, hmode, endUnit_queue halt hr, hend⟩
    show Host.Outcome.next _ = _
    rw [hm]
    simp [hi, hh]
  · show Host.Outcome.next _ = _
    rw [hm]
    rcases h with h | h
    · simp [h]
    · simp [Option.isNone_iff_eq_none, h]
  · show Host.Outcome.next _ = _
    split
    · exact absurd (by assumption) (h _)
    · rfl

end Sys2Proof.Machine
end

section
/-!
PROOFS. Latches, leases, failures and resets (O56): the drain of a latch writes its token queue's word whole.
-/

namespace Sys2Proof.Machine
open Sys2Proof

/-- A core that holds a signal of FE→LD in its latch while the word of that token queue is uncorrectable. -/
def latchedBad : Core :=
  { Core.reset with eng := { Engines.reset with latch := [(dirNo .feLd, 5)] }, bad := [⟨.tokens 0, dirNo .feLd⟩] }
/-- The push of the signal clears the error of that word (R420). -/
theorem latchedBad_drained : (latchedBad.drainLatch .feLd).bad = [] := by decide

/-- Refutes O56: the push of a held signal writes the word of its token queue, so an error that the word holds is cleared (R420,
log entry 31), and the core does not only change in its tokens, its latches and its clocks. -/
theorem not_latchesLeasesFailuresAndResets : ¬ Obligations.LatchesLeasesFailuresAndResets := by
  intro h
  have hk : (State.reset.setCore 0 latchedBad).core 0 = latchedBad := core_setCore_same _ _ _
  obtain ⟨q, hx, -, -, -, hq⟩ := (h.1 (State.reset.setCore 0 latchedBad) 0 .feLd).1 5 (by rw [hk]; rfl) (by rw [hk]; decide)
  have hd : exec (.signalLatchDrain 0 .feLd) (State.reset.setCore 0 latchedBad) =
      .next ((State.reset.setCore 0 latchedBad).upCore 0 (fun k => k.drainLatch .feLd)) := rfl
  have hc := congrArg (fun x : State => x.core 0) (Host.Outcome.next.inj (hd.symm.trans hx))
  simp only [core_upCore_same, core_setCore_same] at hc
  have hb : q.bad = latchedBad.bad := by rw [hq, hk]
  rw [← hc, latchedBad_drained] at hb
  exact absurd hb (by decide)

end Sys2Proof.Machine
end

section
/-!
PROOFS. Engine events (O57): a bank's operation in a state whose partition map is out of order.
-/

namespace Sys2Proof.Machine
open Sys2Proof

/-- Partition 0 records its events at virtual 0x600: four nodes in segment 1 map the page at virtual 0 to segment 0, in the Crock. -/
def recorder : Part :=
  { ((((({ Part.reset with clusters := [0] }.setSr 0x222 0x1000000).setSr 0x223 2).setSr 0x250 0x600).setSr 0x251 8)) with logMode := 1 }
/-- The segment table and the nodes. -/
def recorderMem : Mem :=
  let node (m : Mem) (a n : Nat) : Mem := wrL m a (toLE 8 (2 ^ 63 + 2 ^ 32 + n))
  let seg0 := toLE 8 (2 ^ 63 + 2 * 2 ^ 60 + 0x20000000000) ++ toLE 8 2 ++ toLE 16 0
  let seg1 := toLE 8 (2 ^ 63 + 0x2000000) ++ toLE 8 1 ++ toLE 16 0
  wrL (node (node (node (wrL [] 0x1000000 (seg0 ++ seg1)) 0x2000000 1) 0x2001000 2) 0x2002000 3) 0x2003000
    (toLE 8 (2 ^ 63 + 2 ^ 62 + 2 ^ 60 + 2 ^ 59 + 2 ^ 58))
/-- A BFAA of core 0 to the word at the Crock's 0x400, sent for partition 0. -/
def fetchAdd : BankReq := ⟨0, 0, 0, 1, 0, 0x20000000400, 0x400, .faa, .d, false, 1, 0, none⟩
/-- Cluster 0 is listed by partition 5 and, behind it, by the recording partition 0; BFAA waits at its bank. -/
def outOfOrder : State :=
  { State.reset with
    cores := [(0, { Core.reset with mode := .running, run := some ⟨0, 0, 0, 0, 0, true, true, 0, 0, false, false, none⟩ }.setSr 0x221 0x100000000)]
    parts := [(5, { Part.reset with clusters := [0] }), (0, recorder)]
    mem := recorderMem
    fifos := [(bankOf 0x20000000400, [fetchAdd])] }
/-- The bank that performs it. -/
def faaBank : Nat := bankOf 0x20000000400
/-- The charge of the line lists partition 0 in front, so that the operation's event is logged for it (R301, R342). -/
theorem outOfOrder_logs : rd outOfOrder.mem 0x20000000607 = 0 ∧ rd (outOfOrder.bankStep faaBank).mem 0x20000000607 = 3 := by
  decide +kernel

/-- Refutes O57: where the partition map lists a cluster's partition behind another one of a higher number, the charge of a bank's
operation changes which partition is the core's, and the operation writes that partition's order log in memory. -/
theorem not_engineEventsRunTheirHead : ¬ Obligations.EngineEventsRunTheirHead := by
  intro h
  obtain ⟨-, -, -, -, -, hbank, -⟩ := h
  obtain ⟨u, hx, -, -, hmem, -, -⟩ := (hbank outOfOrder faaBank).2 fetchAdd [] (by decide) (by decide) rfl rfl
    (by decide) (by decide +kernel) (by decide +kernel)
  have hu : outOfOrder.bankStep faaBank = u := Host.Outcome.next.inj hx
  have hold := hmem 0x20000000607 (.inr (.inr (by decide)))
  rw [← hu, outOfOrder_logs.1, outOfOrder_logs.2] at hold
  exact absurd hold (by decide)

end Sys2Proof.Machine
end

section
/-!
PROOFS. The epilogue in a block-scaled format (O43): a store that is still pending when an interlocked MEPI writes.
-/

namespace Sys2Proof.Machine
open Sys2Proof

/-- The flags of MX.STAT that become due read nothing of the scratchpad. -/
theorem streams_mxFlagsAt {R : List Hreg} {P : Nat → Prop} (k : Core) (n : Nat) (f : BitVec 4) : Core.Streams R P k (k.mxFlagsAt n f) := by
  unfold Core.mxFlagsAt
  split
  · exact .refl R P k
  · exact streams_addDue k (fun now m a _ => by simp [Due.over])
/-- A tile is no part of the scratchpad. -/
theorem setTile_padAt (k : Core) (acc : BitVec 1) (tl : Tile) (now : Nat) : (k.setTile acc tl).padAt now = k.padAt now := by
  unfold Core.setTile
  split <;> rfl
/-- A completion at the EX leaves every byte of the scratchpad to be read as its body left it. -/
theorem finishHead_reads (c : Nat) (en : Entry) (s : State) (k : Core) (t n now a : Nat) :
    rd (((finishHead c .ex en ⟨s.setCore c k, t, n⟩).core c).padAt now) a = rd (k.padAt now) a := by
  rw [finishHead, core_upCore_same, core_setCore_same]
  exact (((streams_setExQueue (R := []) (P := fun _ => True) _ _).trans ((streams_setExAt _ _).trans ((streams_setBusy _ _ _).trans
    ((streams_exWrote _ _ _).trans ((streams_ranAt _ _ _ _).trans (streams_signals _ _ _ _)))))).bytes now a trivial)

/-- An interlocked core whose EX has a byte pending for 0x5000, due in cycle 10; h0 is a row of 64 elements of BK8 at 0x5000. -/
def pendingByte : State :=
  { State.reset with cores := [(0, (({ Core.reset with
      mode := .running, run := some ⟨0, 0, 0, 0, 0, true, true, 0, 0, false, false, none⟩
      eng := { Engines.reset with due := [⟨10, .ex, .mem 0x5000 [0x55]⟩] } }.setS 1 1).setH 0
    (BitVec.ofNat 256 (0x5000 + 0x10 * 2 ^ 24 + 64 * 2 ^ 32 + 2 ^ 44 + 2 ^ 56 + 2 ^ 68 + 2 ^ 80 + 2 ^ 92 + 64 * 2 ^ 108 + 8 * 2 ^ 240))))] }
/-- MEPI of element (0, 0) of tile 0, which is 0, through h0. -/
def epiOfZero : Instr := .mepi {} 0 0 .identity none 1 1 none false

/-- What R85 makes of the value that MEPI reads from an element 0. -/
def epiBlock (b : Begun) : Nat × List Int × Fl :=
  quantBlock 0x10 [(epiVal (b.core.tile 0) none none .identity (val32 ((b.core.getSr 0x086).setWidth 32))
    (val32 ((b.core.getSr 0x087).setWidth 32)) 0 0).1]
/-- The epilogue begins in cycle 1 with what the block-scaled clause asks of it, and its mantissa is 0. -/
theorem epiOfZero_begins : (pendingByte.begins epiOfZero).any (fun b => decide (b.c = 0 ∧ b.e = .ex ∧ b.en.s 0 = 1 ∧ b.en.s 1 = 1 ∧
    (HD.of (b.en.h 0)).fmt = 0x10 ∧ (HD.of (b.en.h 0)).i 0 = 0 ∧ (HD.of (b.en.h 0)).scaleAddr ((HD.of (b.en.h 0)).at 0 0) = 0x5200 ∧
    tileStart b.core 0 false b.t = .ok 1 ∧ matAddrs ((pendingByte.core pendingByte.cur).ren 0) (HD.of (b.en.h 0))
      ((HD.of (b.en.h 0)).region 1 1) = .ok [0xA000] ∧
    (b.core.tile 0).checkFail 1 1 = none ∧ (epiBlock b).2.1 = [0])) = true := by decide
/-- In cycle 14, in which the epilogue's result is due, the byte of the element reads as the store that was pending. -/
theorem epiOfZero_overwritten :
    (match exec epiOfZero pendingByte with | .next u => rd ((u.core 0).padAt 14) 0x5000 | _ => 0) = 0x55 := by decide

/-- Refutes O43: an interlocked MEPI writes its elements at once, and a write of the EX that is still pending lands over them
before its end. -/
theorem not_matrixMultiplyAndEpilogue : ¬ Obligations.MatrixMultiplyAndEpilogue := by
  intro h
  obtain ⟨b, hb, hp⟩ := Option.any_eq_true _ _ |>.mp epiOfZero_begins
  obtain ⟨hc, he, hm, hn, hf, hi, hs, ht, ha, hx, hq⟩ := of_decide_eq_true hp
  obtain ⟨-, hepi, -⟩ := h pendingByte {} 0 0 0 0 0 1 1 0 .identity none none false false false 0 b
  obtain ⟨-, hbk⟩ := hepi hb 1 [0xA000] [] ht (by rw [hm, hn]; exact ha) (by rw [hm, hn]; exact hx) rfl
  obtain ⟨k1, q, tl, ⟨hexec, -⟩, -, hread⟩ := hbk (by rw [hf]; rfl) (by rw [hi])
  rw [hm, hn] at hread
  change List.Pairwise _ [(0xA000, (HD.of (b.en.h 0)).half), (2 * (HD.of (b.en.h 0)).scaleAddr ((HD.of (b.en.h 0)).at 0 0), 4)] → _ at hread
  have hhalf : (HD.of (b.en.h 0)).half = 2 := by rw [HD.half, hf]; rfl
  have hel := (hread (by rw [hs, hhalf]; decide) 0 (by decide)).1 0 (by decide)
  have hseen := epiOfZero_overwritten
  rw [show exec epiOfZero pendingByte = _ from hexec, hc, he] at hseen
  dsimp only at hseen
  rw [finishHead_reads, setTile_padAt, (streams_mxFlagsAt (R := []) (P := fun _ => True) _ _ _).bytes _ _ trivial,
    (streams_flagsAt (R := []) (P := fun _ => True) _ _ _).bytes _ _ trivial] at hseen
  rw [hhalf] at hel
  have hmant : intBits (fmtBits (HD.of (b.en.h 0)).fmt) (nth 0 (quantBlock (HD.of (b.en.h 0)).fmt [(epiVal (b.core.tile 0) none none .identity
      (val32 ((b.core.getSr 0x086).setWidth 32)) (val32 ((b.core.getSr 0x087).setWidth 32)) 0 0).1]).2.1 0) = 0 := by
    rw [hf, show (quantBlock 0x10 _).2.1 = [0] from hq]; rfl
  have hzero := hel.trans hmant
  change leNat [rd (k1.padAt 14) 0x5000] = 0 at hzero
  change rd (k1.padAt 14) 0x5000 = 0x55 at hseen
  rw [hseen] at hzero
  exact absurd hzero (by decide)

end Sys2Proof.Machine
end

section
/-!
PROOFS. Bank operations on streams (O50): what a bank operation runs when it begins.
-/

namespace Sys2Proof.Machine
open Sys2Proof

/-- Renaming handles leaves a bank operation's form. -/
theorem bankForm_named (s : State) (i : Instr) : bankForm (s.named i) = bankForm i := by cases i <;> rfl
/-- The body of a bank operation. -/
theorem bodyOf_bankForm {i : Instr} {f : BForm} (h : bankForm i = some f) : bodyOf i = bankBody f := by
  cases i <;> cases h <;> rfl
/-- Bank operations are the ST engine's (R293). -/
theorem engOf_bankForm {i : Instr} {f : BForm} (h : bankForm i = some f) : engOf i = some .st := by
  cases i <;> cases h <;> exact engOf_of_opOf (w := _) (by dsimp only [opOf]) rfl
/-- An instruction begins at its engine. -/
theorem begins_at {s : State} {i : Instr} {b : Begun} {e : Eng} (h : s.begins i = some b) (he : engOf i = some e) : b.e = e := by
  obtain ⟨e', en, s1, h1, -, -, rfl⟩ := begins_gives h
  exact Option.some.inj (h1.symm.trans he)
/-- A tile that can be read at once is read, and the instruction goes on with its values. -/
theorem tileRun_reads {b : Begun} {h : HD} {bk : Bool} {vals : List (Nat × Nat)} {ix : List (List Nat × Nat)} {x : CSt}
    (hr : b.reads h bk ix = some (vals, x)) (gone : Stop → CSt → Res Fin) (go : List (Nat × Nat) → CSt → Res Fin) :
    tileRun b.e b.c b.t h bk ix gone go b.copy0 = go vals x := by
  unfold Begun.reads at hr
  split at hr
  · cases hr
  · rename_i ho
    split at hr
    · rename_i y hy
      obtain ⟨rfl, rfl⟩ := Prod.mk.inj (Option.some.inj hr)
      have ho' : b.copy0.s.onePart = false := Bool.eq_false_of_not_eq_true ho
      unfold tileRun actRun
      rw [ho']
      simp only [Bool.false_eq_true, if_false]
      rw [show (List.drop b.copy0.m.n ((b.copy0.s.core b.c).takes h bk ix)) = b.core.takes h bk ix from rfl, hy]
    · cases hr

/-- The state in which a bank operation that has been performed leaves its segments, returns its values and writes its flag word. -/
def Begun.bankEnds (b : Begun) (f : BForm) (lc : Nat) (s2 : State) (rets : Map W64) (segs : List Nat) : State :=
  let s3 := match bankKind f.op f.clr with
    | some kind => if f.stream = true ∧ (s2.part (s2.partNo b.c)).logMode = 1
      then rets.zipIdx.foldl (fun s e => s.logAt b.c kind (lc + e.2) e.1.2) s2 else s2
    | none => s2
  (((⟨s3, { segs := segs }⟩ : CSt).leave b.c).s.upCore b.c (bankReturn f b.t (HD.of (b.en.h 0)) rets)).ownFlag b.c b.t b.en
/-- An operation none of whose elements has failed ends there (R296). -/
theorem bankFinish_done (b : Begun) (f : BForm) (lc : Nat) (s2 : State) (rets : Map W64) (segs : List Nat) :
    bankFinish f b.c { b.en with lc := lc } b.t rets [] segs s2 = .ok (finAt b.t (b.bankEnds f lc s2 rets segs)) := by
  unfold bankFinish Begun.bankEnds
  cases bankKind f.op f.clr with
  | none => rfl
  | some kind => by_cases h : f.stream = true ∧ (s2.part (s2.partNo b.c)).logMode = 1 <;> simp [h] <;> rfl
/-- Elements that are translated, sent and performed at once end their operation, unless it is held back or an older command has not
completed. -/
theorem bankGo_banked {b : Begun} {f : BForm} {els : List BEl} {x0 x : CSt} {l : List (BEl × Nat)} {s2 : State} {rets : Map W64}
    {segs : List Nat} (hw : b.words f = some (els, x0)) (hl : x0.s.lagBanks = false) (hp : b.placed f = some (x, l))
    (hb : b.banked f = some (s2, rets, [], segs)) : bankGo f b.c b.en b.t els [] [] [] x0 =
      if bankHeld f (s2.core b.c) (HD.of (b.en.h 0)) rets = false ∧ b.first s2 = true then
        .ok (finAt b.t (b.bankEnds f (x.s.core b.c).events s2 rets segs))
      else .wait (finAt b.t (s2.upCore b.c (fun k => k.flyHead b.t))) := by
  have hx : bankXlate f b.c (x0.s.core b.c).isPriv els x0 [] = .ok (x, l) := by
    rw [Begun.placed, hw] at hp
    simp only [Option.bind_some] at hp
    split at hp
    · rename_i r hr
      rw [hr, Option.some.inj hp]
    · cases hp
  rw [Begun.banked, hp] at hb
  simp only [Option.bind_some] at hb
  unfold bankGo
  rw [hx]
  simp only [List.isEmpty_nil, Bool.and_self, if_true, hl, Bool.false_eq_true, if_false]
  split at hb
  · rename_i r f' sg hm
    obtain ⟨rfl, rfl, rfl, rfl⟩ := by simpa using hb
    rw [hm]
    simp only [bankFinish_done, Begun.first]
    have swap (held late : Bool) (p q : Res Fin) :
        (if (held || late) = true then p else q) = if held = false ∧ (!late) = true then q else p := by
      cases held <;> cases late <;> rfl
    exact swap _ _ _ _
  · cases hb

end Sys2Proof.Machine
end

section
/-!
PROOFS. Bank operations on streams (O50): reading the tile and translating the words change BUSY counts alone.
-/

namespace Sys2Proof.Machine
open Sys2Proof

/-! ### BUSY (R312) -/

/-- Byte i of a little-endian number. -/
theorem toLE_getElem? (n v i : Nat) (h : i < n) : (toLE n v)[i]? = some (BitVec.ofNat 8 (v / 256 ^ i)) := by
  induction n generalizing v i with
  | zero => omega
  | succ n ih =>
    cases i with
    | zero => simp [toLE]
    | succ i => rw [toLE, List.getElem?_cons_succ, ih _ _ (by omega), Nat.div_div_eq_div_mul, Nat.pow_succ']
theorem rdN_getElem? (m : Mem) (a n i : Nat) (h : i < n) : (rdN m a n)[i]? = some (rd m (a + i)) := by
  induction n generalizing a i with
  | zero => omega
  | succ n ih =>
    cases i with
    | zero => rfl
    | succ i => rw [rdN, List.getElem?_cons_succ, ih _ _ (by omega), Nat.add_right_comm, Nat.add_assoc]
@[simp] theorem rdN_length (m : Mem) (a n : Nat) : (rdN m a n).length = n := by
  induction n generalizing a with
  | zero => rfl
  | succ n ih => rw [rdN, List.length_cons, ih]
/-- The bytes of a number are those it was read from. -/
theorem toLE_leNat (l : List Byte) : toLE l.length (leNat l) = l := by
  induction l with
  | nil => rfl
  | cons x t ih =>
    have h1 : (x.toNat + 256 * leNat t) / 256 = leNat t := by have := x.isLt; omega
    rw [List.length_cons, toLE, leNat, h1, ih]
    congr 1
    apply BitVec.eq_of_toNat_eq
    rw [BitVec.toNat_ofNat]
    have := x.isLt
    omega
theorem leNat_lt (l : List Byte) : leNat l < 256 ^ l.length := by
  induction l with
  | nil => decide
  | cons x t ih => rw [leNat, List.length_cons, Nat.pow_succ]; have := x.isLt; omega
/-- A byte of a double in memory. -/
theorem rd_of_rd64 (m : Mem) (a i : Nat) (h : i < 8) : rd m (a + i) = BitVec.ofNat 8 ((rd64 m a).toNat / 256 ^ i) := by
  have hl : leNat (rdN m a 8) < 2 ^ 64 := by simpa using leNat_lt (rdN m a 8)
  have h1 := toLE_leNat (rdN m a 8)
  rw [rdN_length] at h1
  have h2 := toLE_getElem? 8 (leNat (rdN m a 8)) i h
  rw [h1, rdN_getElem? m a 8 i h] at h2
  rw [Option.some.inj h2, rd64, BitVec.toNat_ofNat, Nat.mod_eq_of_lt hl]
/-- Bits 31:0 of a double may be replaced without its upper half. -/
theorem putBits_low (v : W64) (x : Nat) : (putBits v 31 0 x).toNat / 2 ^ 32 = v.toNat / 2 ^ 32 := by
  have := v.isLt
  simp only [putBits, bits, BitVec.toNat_ofNat]
  omega
/-- Counting a transfer in BUSY changes the four bytes of BUSY alone. -/
theorem rd_addBusy_out (m : Mem) (e : Env) (sg d : Nat) {a : Nat} (h : a < segAddr e sg + 16 ∨ segAddr e sg + 20 ≤ a) :
    rd (addBusy m e sg d) a = rd m a := by
  unfold addBusy
  by_cases hi : segAddr e sg + 20 ≤ a ∧ a < segAddr e sg + 24
  · obtain ⟨i, rfl⟩ : ∃ i, a = segAddr e sg + 16 + i := ⟨a - (segAddr e sg + 16), by omega⟩
    have h4 : 4 ≤ i := by omega
    rw [rd_of_rd64 _ _ i (by omega), rd_of_rd64 m _ i (by omega), rd64_wr64]
    obtain ⟨j, rfl⟩ : ∃ j, i = 4 + j := ⟨i - 4, by omega⟩
    rw [Nat.pow_add, ← Nat.div_div_eq_div_mul, ← Nat.div_div_eq_div_mul]
    exact congrArg (fun z => BitVec.ofNat 8 (z / 256 ^ j)) (putBits_low _ _)
  · exact rd_wrL_out _ _ _ (by rw [toLE_length]; omega)
theorem rd_addBusy (m : Mem) {e : Env} {sg : Nat} (d : Nat) {a : Nat} (hs : sg < e.segn) (h : e.busyByte a = false) :
    rd (addBusy m e sg d) a = rd m a := by
  refine rd_addBusy_out m e sg d ?_
  simp only [Env.busyByte, List.any_eq_false, List.mem_range, decide_eq_true_eq] at h
  have := h sg hs
  omega
/-- Segments that a transfer has entered are listed in the table. -/
def segsIn (e : Env) (segs : List Nat) : Prop := ∀ x ∈ segs, x % 65536 < e.segn
theorem rd_leaveAll {e : Env} {segs : List Nat} (hs : segsIn e segs) (m : Mem) {a : Nat} (h : e.busyByte a = false) :
    rd (leaveAll m e segs) a = rd m a := by
  unfold leaveAll
  induction segs generalizing m with
  | nil => rfl
  | cons x t ih =>
    rw [List.foldl_cons, ih (fun y hy => hs y (List.mem_cons_of_mem _ hy)), rd_addBusy m _ (hs x List.mem_cons_self) h]
theorem rd_enter {m : Mem} {e : Env} {segs : List Nat} {x : Xlated} (hx : x.seg < e.segn) {a : Nat} (h : e.busyByte a = false) :
    rd (enter m e segs x).1 a = rd m a := by
  unfold enter
  split
  · rfl
  · exact rd_addBusy m 1 hx h
theorem segsIn_enter {m : Mem} {e : Env} {segs : List Nat} {x : Xlated} (hs : segsIn e segs) (hx : x.seg < e.segn) (h16 : x.seg < 65536) :
    segsIn e (enter m e segs x).2 := by
  unfold enter
  split
  · exact hs
  · intro y hy
    rcases List.mem_append.1 hy with hy | hy
    · exact hs y hy
    · have : y = latchOf x.seg x.ent := by simpa using hy
      have : y % 65536 = x.seg := by rw [this, latchOf]; omega
      omega
/-- A translated address lies in a segment of the table. -/
theorem translate_seg {m : Mem} {e : Env} {t : Tlb} {segs : List Nat} {va : W64} {need : Need} {x : Xlated}
    (h : (translate m e t segs va need).1 = .ok x) : x.seg < e.segn ∧ x.seg < 65536 := by
  unfold translate at h
  split at h
  · cases h
  dsimp only at h
  split at h
  · cases h
  split at h
  · cases h
  rename_i lf _ _ _ _
  dsimp only at h
  cases hc : segCheck m e segs lf va.toNat with
  | error y => rw [hc] at h; cases h
  | ok y =>
    have hy : y = x := by
      rw [hc] at h
      simp only [Except.bind, geoCheck] at h
      split at h <;> cases h
      rfl
    subst hy
    unfold segCheck at hc
    dsimp only at hc
    have hb : bits lf.1 47 32 < 65536 := Nat.mod_lt _ (by decide)
    split at hc
    · cases hc
    rename_i hle
    iterate 6
      split at hc
      · cases hc
    cases hc
    exact ⟨by simpa using hle, hb⟩

/-! ### Reading and translating -/

/-- u is s but for the scratchpad and the bookkeeping of core c, and BUSY counts. -/
structure State.Near (c : Nat) (s u : State) : Prop where
  parts : u.parts = s.parts
  fifos : u.fifos = s.fifos
  lag : u.lagBanks = s.lagBanks
  run : (u.core c).run = (s.core c).run
  specials : ∀ n, n ≠ 0x14A → (u.core c).getSr n = (s.core c).getSr n
  queue : (u.core c).eng.st = (s.core c).eng.st
  bytes : ∀ a, (s.env c).busyByte a = false → rd u.mem a = rd s.mem a
/-- What a core's accesses translate under rests on its unit, two of its registers and its partition. -/
theorem env_of {s u : State} {c : Nat} (hn : u.partNo c = s.partNo c) (ht : (u.part (s.partNo c)).sr = (s.part (s.partNo c)).sr)
    (hr : (u.core c).isPriv = (s.core c).isPriv) (h0 : (u.core c).getSr 0x220 = (s.core c).getSr 0x220)
    (h1 : (u.core c).getSr 0x221 = (s.core c).getSr 0x221) : u.env c = s.env c := by
  simp only [State.env, hn, Part.segt, Part.segn, Part.getSr, ht, hr, h0, h1]

namespace State.Near
variable {c : Nat} {s t u : State}

theorem env (h : State.Near c s u) : u.env c = s.env c :=
  env_of (by simp [State.partNo, State.partOfClu, h.parts]) (by simp [State.part, h.parts])
    (by rw [Core.isPriv, h.run, Core.isPriv]) (h.specials _ (by decide))
    (h.specials _ (by decide))
theorem refl (c : Nat) (s : State) : State.Near c s s := ⟨rfl, rfl, rfl, rfl, fun _ _ => rfl, rfl, fun _ _ => rfl⟩
theorem trans (h : State.Near c s t) (g : State.Near c t u) : State.Near c s u where
  parts := g.parts.trans h.parts
  fifos := g.fifos.trans h.fifos
  lag := g.lag.trans h.lag
  run := g.run.trans h.run
  specials n hn := (g.specials n hn).trans (h.specials n hn)
  queue := g.queue.trans h.queue
  bytes a ha := (g.bytes a (by rw [h.env]; exact ha)).trans (h.bytes a ha)

end State.Near

/-- Changing the core as a stream's instruction may keeps the rest. -/
theorem near_setCore {R : List Hreg} {P : Nat → Prop} {c : Nat} {s : State} {k : Core} (h : Core.Streams R P (s.core c) k) :
    State.Near c s (s.setCore c k) where
  parts := rfl
  fifos := rfl
  lag := rfl
  run := by rw [core_setCore_same, h.shape]
  specials n hn := by rw [core_setCore_same, h.specials n hn]
  queue := by rw [core_setCore_same, h.st]
  bytes _ _ := rfl
/-- So does installing translations, -/
theorem near_tlb (c : Nat) (s : State) (t : Tlb) : State.Near c s (s.setCore c { s.core c with tlb := t }) where
  parts := rfl
  fifos := rfl
  lag := rfl
  run := by rw [core_setCore_same]
  specials n _ := by rw [core_setCore_same]; rfl
  queue := by rw [core_setCore_same]
  bytes _ _ := rfl
/-- and counting in BUSY. -/
theorem near_mem (c : Nat) (s : State) (m : Mem) (h : ∀ a, (s.env c).busyByte a = false → rd m a = rd s.mem a) :
    State.Near c s { s with mem := m } := ⟨rfl, rfl, rfl, rfl, fun _ _ => rfl, rfl, h⟩
/-- Reading one granule of a source. -/
theorem near_takeVisit {c t : Nat} {src : Strm} {h : HD} {part : Option (W64 × Nat)} {x y : CSt} {jv : Nat × Visit}
    (hx : takeVisit c t src h part x jv = .ok y) : State.Near c x.s y.s ∧ y.m.segs = x.m.segs := by
  unfold takeVisit at hx
  dsimp only at hx
  split at hx
  · cases hx
  split at hx
  · cases hx
  cases hx
  exact ⟨near_setCore (R := []) (P := fun _ => True) ((streams_corrPad _ _).trans (streams_drain _ _ _)), rfl⟩
theorem near_takes {c t : Nat} {src : Strm} {h : HD} {part : Option (W64 × Nat)} (l : List (Nat × Visit)) {x y : CSt}
    (hx : copyLoop (takeVisit c t src h part) l x = .ok y) : State.Near c x.s y.s ∧ y.m.segs = x.m.segs := by
  induction l generalizing x with
  | nil => cases hx; exact ⟨.refl c _, rfl⟩
  | cons jv l ih =>
    unfold copyLoop at hx
    split at hx
    · rename_i z hz
      obtain ⟨h1, h2⟩ := near_takeVisit hz
      obtain ⟨h3, h4⟩ := ih hx
      exact ⟨h1.trans h3, h4.trans h2⟩
    all_goals cases hx
/-- Reading a tile. -/
theorem near_reads {b : Begun} {h : HD} {bk : Bool} {vals : List (Nat × Nat)} {ix : List (List Nat × Nat)} {x : CSt}
    (hr : b.reads h bk ix = some (vals, x)) : State.Near b.c b.s x.s ∧ x.m.segs = [] := by
  unfold Begun.reads at hr
  split at hr
  · cases hr
  split at hr
  · rename_i y hy
    obtain ⟨-, rfl⟩ := Prod.mk.inj (Option.some.inj hr)
    exact near_takes _ hy
  · cases hr
/-- Translating one access. -/
theorem near_xlate {c : Nat} {x y : CSt} {va : W64} {need : Need} {ord : Nat} {src : Strm} {tr : Xlated}
    (h : x.xlate c va need ord src = (.ok y, some tr)) (hs : segsIn (x.s.env c) x.m.segs) :
    State.Near c x.s y.s ∧ segsIn (y.s.env c) y.m.segs := by
  unfold CSt.xlate at h
  dsimp only at h
  split at h
  · cases h
  · cases h
  · cases h
  · cases h
  · rename_i t ht
    obtain ⟨hy, -⟩ := Prod.mk.inj h
    cases hy
    obtain ⟨hn, h16⟩ := translate_seg ht
    have h1 := near_tlb c x.s (translate x.s.mem (x.s.env c) (x.s.core c).tlb x.m.segs va need).2
    have h2 := h1.trans (near_mem c _ (enter x.s.mem (x.s.env c) x.m.segs t).1 (fun a ha => by rw [h1.env] at ha; exact rd_enter hn ha))
    exact ⟨h2, fun y hy => lt_of_lt_of_eq (segsIn_enter hs hn h16 y hy) (congrArg Env.segn h2.env).symm⟩
/-- Translating the elements of a bank operation, in their order. -/
theorem near_bankXlate {f : BForm} {c : Nat} {priv : Bool} (els : List BEl) {x y : CSt} {l m : List (BEl × Nat)}
    (h : bankXlate f c priv els x l = .ok (y, m)) (hs : segsIn (x.s.env c) x.m.segs) :
    State.Near c x.s y.s ∧ segsIn (y.s.env c) y.m.segs ∧ m.map (·.1) = l.map (·.1) ++ els := by
  induction els generalizing x l with
  | nil => cases h; exact ⟨.refl c _, hs, by simp⟩
  | cons e t ih =>
    unfold bankXlate at h
    split at h
    · rename_i z tr hz
      split at h
      · cases h
      · obtain ⟨h1, h2⟩ := near_xlate hz hs
        obtain ⟨h3, h4, h5⟩ := ih h h2
        exact ⟨h1.trans h3, h4, by rw [h5]; simp⟩
    all_goals cases h
/-- The elements of a bank operation that have been placed. -/
theorem near_placed {b : Begun} {f : BForm} {x : CSt} {l : List (BEl × Nat)} (h : b.placed f = some (x, l)) :
    ∃ els x0, b.words f = some (els, x0) ∧ State.Near b.c b.s x0.s ∧ State.Near b.c b.s x.s ∧ segsIn (b.s.env b.c) x.m.segs ∧
      l.map (·.1) = els := by
  unfold Begun.placed at h
  obtain ⟨⟨els, x0⟩, hw, h⟩ := Option.bind_eq_some_iff.1 h
  have hw' := hw
  unfold Begun.words at hw'
  obtain ⟨⟨vals, x1⟩, hr, he⟩ := Option.map_eq_some_iff.1 hw'
  cases he
  obtain ⟨h1, hs1⟩ := near_reads hr
  split at h
  · rename_i r hx
    cases h
    obtain ⟨h2, h3, h4⟩ := near_bankXlate _ hx (by rw [hs1]; intro y hy; cases hy)
    exact ⟨_, _, hw, h1, h1.trans h2, by rw [← (h1.trans h2).env]; exact h3, by simpa using h4⟩
  · cases h

end Sys2Proof.Machine
end

section
/-!
PROOFS. Bank operations on streams (O50): what a bank's performing of one operation keeps and writes.
-/

namespace Sys2Proof.Machine
open Sys2Proof

/-! ### The partition, its log and the translation of a core stay -/

/-- Core c keeps its partition, whether that logs, and what its accesses translate under. -/
structure State.Kept (c : Nat) (s u : State) : Prop where
  env : u.env c = s.env c
  partNo : u.partNo c = s.partNo c
  log : (u.part (s.partNo c)).logMode = (s.part (s.partNo c)).logMode

namespace State.Kept
variable {c : Nat} {s t u : State}

theorem refl (c : Nat) (s : State) : State.Kept c s s := ⟨rfl, rfl, rfl⟩
theorem trans (h : State.Kept c s t) (g : State.Kept c t u) : State.Kept c s u :=
  ⟨g.env.trans h.env, g.partNo.trans h.partNo, by have := g.log; rw [h.partNo] at this; exact this.trans h.log⟩
/-- Nothing is logged in the partition of the core. -/
theorem quiet (h : State.Kept c s t) (h0 : (s.part (s.partNo c)).logMode = 0) : (t.part (t.partNo c)).logMode = 0 := by
  rw [h.partNo, h.log, h0]

end State.Kept

theorem kept_near {c : Nat} {s u : State} (h : State.Near c s u) : State.Kept c s u :=
  ⟨h.env, by simp [State.partNo, State.partOfClu, h.parts], by simp [State.part, h.parts]⟩
theorem kept_cores {c : Nat} {s u : State} (hp : u.parts = s.parts) (hr : (u.core c).isPriv = (s.core c).isPriv)
    (h : ∀ n, n ≠ 0x001 → (u.core c).getSr n = (s.core c).getSr n) : State.Kept c s u := by
  have hn : u.partNo c = s.partNo c := by simp [State.partNo, State.partOfClu, hp]
  exact ⟨env_of hn (by simp [State.part, hp]) hr (h _ (by decide)) (h _ (by decide)), hn, by simp [State.part, hp]⟩
/-- The first partition of a map that has cluster k; d when none does. -/
def ownerIn (l : Map Part) (k d : Nat) : Nat := ((l.find? (fun q => q.2.clusters.contains k)).map (·.1)).getD d
theorem ownerIn_cons (i : Nat) (y : Part) (t : Map Part) (k d : Nat) :
    ownerIn ((i, y) :: t) k d = if y.clusters.contains k = true then i else ownerIn t k d := by
  unfold ownerIn
  rw [List.find?_cons]
  cases y.clusters.contains k <;> rfl
/-- The owner of a cluster stays when its owner's entry changes but keeps its clusters, wherever the map lists it. -/
theorem ownerIn_mset {k d p : Nat} {x : Part} (l : Map Part) (hx : x.clusters = (mget Part.reset l p).clusters)
    (h : ownerIn l k d = p) : ownerIn (mset l p x) k d = p := by
  induction l with
  | nil => rw [mset, ownerIn_cons, hx]; exact h
  | cons a t ih =>
    obtain ⟨i, y⟩ := a
    rw [mset]
    split
    · rw [ownerIn_cons, h, ite_self]
    rw [ownerIn_cons] at h
    split
    · rename_i hi
      subst hi
      rw [ownerIn_cons, hx, show mget Part.reset ((i, y) :: t) i = y by simp [mget, mfind]]
      exact h
    · rename_i hi
      rw [ownerIn_cons]
      split at h
      · exact absurd h hi
      · rename_i hc
        rw [if_neg hc]
        exact ih (by rw [hx]; simp [mget, mfind, hi]) h
/-- Charges and counts of a core's own partition leave it. -/
theorem kept_setPart {c : Nat} {s : State} {x : Part} (hc : x.clusters = (s.part (s.partNo c)).clusters)
    (hs : x.sr = (s.part (s.partNo c)).sr) (hl : x.logMode = (s.part (s.partNo c)).logMode) :
    State.Kept c s (s.setPart (s.partNo c) x) := by
  have hn : (s.setPart (s.partNo c) x).partNo c = s.partNo c := ownerIn_mset s.parts hc rfl
  exact ⟨env_of hn (by rw [part_setPart_same, hs]) rfl rfl rfl, hn, by rw [part_setPart_same, hl]⟩
theorem kept_charge {c line : Nat} {s t : State} {a : AgentKey} {b : Bool} (h : s.charge (s.partNo c) line a b = some t) :
    State.Kept c s t := by
  unfold State.charge at h
  dsimp only at h
  split at h
  · cases h; exact .refl c _
  split at h
  · cases h; exact kept_setPart rfl rfl rfl
  · cases h
theorem kept_corrMem (c : Nat) (s : State) (pa n : Nat) : State.Kept c s (s.corrMem pa n) := by
  obtain ⟨sl, h⟩ := (booked_corrMem s pa n).core c
  exact kept_cores (correct_frame s _).1 (by rw [h]; rfl) (fun m _ => by rw [h]; rfl)
theorem kept_writeMem (c : Nat) (s : State) (pa : Nat) (bs : List Byte) : State.Kept c s (s.writeMem pa bs) := by
  obtain ⟨sl, h⟩ := (booked_writeMem s pa bs).core c
  exact kept_cores rfl (by rw [h]; rfl) (fun m _ => by rw [h]; rfl)
/-- A flag of STAT translates nothing. -/
theorem kept_flags (c : Nat) (s : State) (f : Fl) : State.Kept c s (s.upCore c (fun k => k.flags f)) := by
  refine kept_cores rfl ?_ (fun n hn => ?_)
  · rw [core_upCore_same]; unfold Core.flags; split <;> rfl
  · rw [core_upCore_same]
    unfold Core.flags
    split
    · rfl
    · exact getSr_setSr_ne _ _ hn
theorem kept_markBank (c : Nat) (s : State) (ser i : Nat) (x : Except Stop W64) :
    State.Kept c s (s.upCore c (fun k => k.markBank ser i x)) :=
  kept_cores rfl (by rw [core_upCore_same]; rfl) (fun n _ => by rw [core_upCore_same]; rfl)

/-! ### One operation performed (R280, R296) -/

theorem rdN_congr {m n : Mem} {a k : Nat} (h : ∀ j, j < k → rd m (a + j) = rd n (a + j)) : rdN m a k = rdN n a k := by
  refine List.ext_getElem? (fun i => ?_)
  by_cases hi : i < k
  · rw [rdN_getElem? _ _ _ _ hi, rdN_getElem? _ _ _ _ hi, h i hi]
  · rw [List.getElem?_eq_none (by simpa using hi), List.getElem?_eq_none (by simpa using hi)]
/-- The bytes of a word, by its type, are those it was read from. -/
theorem toLE_bankWord (s : State) (pa : Nat) (op : BOp) (ty : BTy) (h : op.cell = false) :
    toLE (bankBytes op ty) (byTy ty (s.bankWord pa (bankBytes op ty))).toNat = rdN s.mem pa (bankBytes op ty) := by
  have hl := toLE_leNat (rdN s.mem pa (bankBytes op ty))
  have hlt := leNat_lt (rdN s.mem pa (bankBytes op ty))
  rw [rdN_length] at hl hlt
  have hv : (byTy ty (s.bankWord pa (bankBytes op ty))).toNat = leNat (rdN s.mem pa (bankBytes op ty)) := by
    unfold State.bankWord byTy
    by_cases ht : ty = .d
    · have hn : bankBytes op ty = 8 := by simp [bankBytes, h, ht]
      rw [hn] at hlt ⊢
      rw [if_pos ht, BitVec.toNat_ofNat]
      omega
    · have hn : bankBytes op ty = 4 := by simp [bankBytes, h, ht]
      rw [hn] at hlt ⊢
      rw [if_neg ht, BitVec.toNat_setWidth, BitVec.toNat_setWidth, BitVec.toNat_ofNat]
      omega
  rw [hv, hl]

/-- A bank has performed r, which has returned v: nothing but its word has changed in memory, and its word is as R297 has it. -/
structure BankReq.Done (c : Nat) (s t : State) (r : BankReq) (v : W64) : Prop where
  kept : State.Kept c s t
  fifos : t.fifos = s.fifos
  frame : ∀ a, (bankWrites r.op r.clr = false ∨ a < r.pa ∨ r.pa + bankBytes r.op r.ty ≤ a) → rd t.mem a = rd s.mem a
  word : r.op.cell = false → r.logged = none → (bankWrites r.op r.clr = true → rdN t.mem r.pa (bankBytes r.op r.ty) =
      toLE (bankBytes r.op r.ty) (bankNew r.op r.ty (s.bankWord r.pa (bankBytes r.op r.ty)) r.x r.e).toNat) ∧
    v = byTy r.ty (s.bankWord r.pa (bankBytes r.op r.ty))
theorem correct_fifos (s : State) (p : ProtWord → Bool) : (s.correct p).fifos = s.fifos := by
  unfold State.correct
  split
  · rfl
  · refine foldl_keeps (g := State.fifos) (fun a b => ?_) _ _
    unfold State.countCe
    split <;> rfl
theorem charge_frame {s t : State} {p line : Nat} {a : AgentKey} {b : Bool} (h : s.charge p line a b = some t) :
    t.fifos = s.fifos ∧ t.mem = s.mem := by
  unfold State.charge at h
  dsimp only at h
  split at h
  · cases h; exact ⟨rfl, rfl⟩
  split at h
  · cases h; exact ⟨rfl, rfl⟩
  · cases h
/-- A cell is written in its 48 bytes. -/
theorem rd_setCell_out (s : State) (pa : Nat) (F : Int) (st : BitVec 4) {a : Nat} (h : a < pa ∨ pa + 48 ≤ a) :
    rd (s.setCell pa F st).mem a = rd s.mem a :=
  rd_wrL_out _ _ _ (by simpa using h)
theorem perform_done {c : Nat} {s t : State} {r : BankReq} {v : W64} {f : Fl} (hp : s.perform r = .ok (t, v, f))
    (hc : r.part = s.partNo c) : r.Done c s t v := by
  unfold State.perform at hp
  dsimp only at hp
  split at hp
  · cases hp
  split at hp
  · cases hp
  rename_i s1 hs
  have hcorr := kept_corrMem c s r.pa (bankBytes r.op r.ty)
  have hpre : State.Kept c s s1 ∧ s1.fifos = s.fifos ∧ s1.mem = s.mem := by
    split at hs
    · rw [hc, ← hcorr.partNo] at hs
      obtain ⟨h1, h2⟩ := charge_frame hs
      exact ⟨hcorr.trans (kept_charge hs), h1.trans (correct_fifos _ _), h2.trans (correct_frame _ _).2.1⟩
    · cases hs
      exact ⟨hcorr, correct_fifos _ _, (correct_frame _ _).2.1⟩
  obtain ⟨hk, hf, hm⟩ := hpre
  have hword : s1.bankWord = s.bankWord := by unfold State.bankWord; rw [hm]
  split at hp
  · rename_i hop
    cases hp
    refine ⟨hk.trans (kept_writeMem ..), hf, fun a ha => ?_, fun h => by rw [hop] at h; cases h⟩
    rw [rd_setCell_out, hm]
    rcases ha with ha | ha
    · rw [hop] at ha; cases ha
    · simpa [hop, bankBytes, BOp.cell] using ha
  · rename_i hop
    cases hp
    split
    · refine ⟨hk.trans (kept_writeMem ..), hf, fun a ha => ?_, fun h => by rw [hop] at h; cases h⟩
      rename_i hclr
      rw [rd_setCell_out, hm]
      rcases ha with ha | ha
      · rw [hop, hclr] at ha; cases ha
      · simpa [hop, bankBytes, BOp.cell] using ha
    · exact ⟨hk, hf, fun a _ => by rw [hm], fun h => by rw [hop] at h; cases h⟩
  · cases hp
    have hcur : ∀ {w : W64}, r.logged = none → r.logged.getD (BitVec.ofNat 64 (leNat (rdN s1.mem r.pa (bankBytes r.op r.ty)))) = w →
        s.bankWord r.pa (bankBytes r.op r.ty) = w := fun hl hw => by rw [← hw, hl, ← hword]; rfl
    generalize r.logged.getD (BitVec.ofNat 64 (leNat (rdN s1.mem r.pa (bankBytes r.op r.ty)))) = old at hcur ⊢
    split
    · rename_i hw
      refine ⟨hk.trans (kept_writeMem ..), hf, fun a ha => ?_, fun _ hl => ⟨fun _ => ?_, by rw [hcur hl rfl]⟩⟩
      · rcases ha with ha | ha
        · simp [ha] at hw
        · exact (rd_wrL_out _ _ _ (by rwa [toLE_length])).trans (by rw [hm])
      · rw [hcur hl rfl]
        have := rdN_wrL s1.mem r.pa (toLE (bankBytes r.op r.ty) (bankNew r.op r.ty old r.x r.e).toNat)
        rwa [toLE_length] at this
    · rename_i hw
      refine ⟨hk, hf, fun a _ => by rw [hm], fun hcell hl => ⟨fun hwr => ?_, by rw [hcur hl rfl]⟩⟩
      obtain ⟨hop, hne⟩ : r.op = .cas ∧ byTy r.ty old ≠ byTy r.ty r.e := by simpa [hwr] using hw
      have hnew : bankNew r.op r.ty old r.x r.e = byTy r.ty old := by rw [hop]; simp [bankNew, hne]
      rw [hcur hl rfl, hnew, hm, ← hcur hl rfl, toLE_bankWord s r.pa r.op r.ty hcell]

end Sys2Proof.Machine
end

section
/-!
PROOFS. Bank operations on streams (O50): a bank performs the operations of one entry, whose words are its own.
-/

namespace Sys2Proof.Machine
open Sys2Proof

/-! ### The head of a bank's FIFO -/

/-- An operation of a core whose partition logs nothing: the bank performs it, or not, and the core's entry takes what has come of it. -/
theorem bankStep_near {s : State} {B c : Nat} {r : BankReq} {rest : List BankReq} (hq : mget [] s.fifos B = r :: rest)
    (hag : r.agent = c) (ha : c < 256) (hp : r.part = s.partNo c) (hl : r.logged = none) (h0 : (s.part (s.partNo c)).logMode = 0) :
    ∃ (x : Except Stop W64) (t : State), s.bankStep B = t.upCore c (fun k => k.markBank r.ser r.idx x) ∧
      State.Kept c s t ∧ t.fifos = mput [] s.fifos B rest ∧ (t.core c).eng = (s.core c).eng ∧
      ∀ v, x = .ok v → r.Done c { s with fifos := mput [] s.fifos B rest } t v := by
  subst hag
  unfold State.bankStep
  rw [hq]
  dsimp only
  split
  · rename_i y _
    exact ⟨.error y, { s with fifos := mput [] s.fifos B rest }, by rw [if_pos ha], ⟨rfl, rfl, rfl⟩, rfl, rfl, fun v hv => by cases hv⟩
  · rename_i s1 v fl hs
    have hd := perform_done (c := r.agent) hs hp
    have heng := (booked_perform hs).eng r.agent
    have hq2 := ((hd.kept.trans (kept_flags r.agent s1 fl)).quiet h0)
    refine ⟨.ok v, s1.upCore r.agent (fun k => k.flags fl), ?_, ?_, hd.fifos, ?_, fun w hw => ?_⟩
    · rw [if_pos ha, if_pos ha]
      congr 1
      split
      · split
        · rfl
        · rw [State.bankLog, if_pos ha, State.logAt, State.logWrite, if_neg (by rw [hq2]; simp)]
      · rfl
    · have := hd.kept.trans (kept_flags r.agent s1 fl)
      exact ⟨this.env, this.partNo, this.log⟩
    · rw [core_upCore_same]
      refine Eq.trans ?_ heng
      unfold Core.flags
      split <;> rfl
    · cases hw
      exact ⟨hd.kept.trans (kept_flags r.agent s1 fl), hd.fifos, hd.frame, hd.word⟩

/-- An operation that is not a core's leaves the entries of every core. -/
theorem bankStep_far {s : State} {B c : Nat} {r : BankReq} {rest : List BankReq} (hq : mget [] s.fifos B = r :: rest)
    (hag : r.agent = c) (ha : 256 ≤ c) (hp : r.part = s.partNo c) (h0 : (s.part (s.partNo c)).logMode = 0) :
    State.Kept c s (s.bankStep B) ∧ (s.bankStep B).fifos = mput [] s.fifos B rest ∧
      ((s.bankStep B).core c).eng = (s.core c).eng := by
  subst hag
  have hn : ¬r.agent < 256 := by omega
  have far (u : State) (x : Except Stop W64) : State.Kept r.agent u (u.acPerformed (r.agent - 256) r x) ∧
      (u.acPerformed (r.agent - 256) r x).fifos = u.fifos ∧
      ((u.acPerformed (r.agent - 256) r x).core r.agent).eng = (u.core r.agent).eng := by
    have hb := booked_acPerformed u (r.agent - 256) r x
    have hparts : (u.acPerformed (r.agent - 256) r x).parts = u.parts ∧ (u.acPerformed (r.agent - 256) r x).fifos = u.fifos := by
      unfold State.acPerformed
      dsimp only
      split <;> exact ⟨rfl, rfl⟩
    obtain ⟨sl, hcore⟩ := hb.core r.agent
    exact ⟨kept_cores hparts.1 (by rw [hcore]; rfl) (fun m _ => by rw [hcore]; rfl), hparts.2, hb.eng _⟩
  unfold State.bankStep
  rw [hq]
  dsimp only
  split
  · rw [if_neg hn]
    obtain ⟨h1, h2, h3⟩ := far { s with fifos := mput [] s.fifos B rest } (.error _)
    exact ⟨⟨h1.env, h1.partNo, h1.log⟩, h2, h3⟩
  · rename_i s1 v fl hs
    have hd := perform_done (c := r.agent) hs hp
    have heng := (booked_perform hs).eng r.agent
    rw [if_neg hn, if_neg hn]
    have hlog : ∀ kind, State.Kept r.agent s1 (s1.bankLog r kind v) ∧ (s1.bankLog r kind v).fifos = s1.fifos ∧
        ((s1.bankLog r kind v).core r.agent).eng = (s1.core r.agent).eng := by
      intro kind
      have hpart : r.part = s1.partNo r.agent := hp.trans hd.kept.partNo.symm
      rw [State.bankLog, if_neg hn, State.acLog, State.logWrite, hpart, if_neg (by rw [hd.kept.quiet h0]; simp)]
      exact ⟨kept_setPart rfl rfl rfl, rfl, rfl⟩
    have hs3 : ∀ s3 : State, State.Kept r.agent s1 s3 ∧ s3.fifos = s1.fifos ∧ (s3.core r.agent).eng = (s1.core r.agent).eng →
        State.Kept r.agent s (s3.acPerformed (r.agent - 256) r (.ok v)) ∧
        (s3.acPerformed (r.agent - 256) r (.ok v)).fifos = mput [] s.fifos B rest ∧
        ((s3.acPerformed (r.agent - 256) r (.ok v)).core r.agent).eng = (s.core r.agent).eng := by
      intro s3 ⟨k1, f1, e1⟩
      obtain ⟨k2, f2, e2⟩ := far s3 (.ok v)
      have := hd.kept.trans (k1.trans k2)
      exact ⟨⟨this.env, this.partNo, this.log⟩, f2.trans (f1.trans hd.fifos), e2.trans (e1.trans heng)⟩
    refine hs3 _ ?_
    split
    · split
      · exact ⟨.refl _ _, rfl, rfl⟩
      · exact hlog _
    · exact ⟨.refl _ _, rfl, rfl⟩

/-! ### The requests of one entry -/

/-- r asks the bank for the element q of the entry routed in cycle ser. -/
structure BankReq.asks (r : BankReq) (f : BForm) (c p ser : Nat) (e : W64) (q : BEl × Nat) : Prop where
  agent : r.agent = c
  part : r.part = p
  idx : r.idx = q.1.1
  ser : r.ser = ser
  pa : r.pa = q.2
  op : r.op = f.op
  ty : r.ty = f.ty
  clr : r.clr = f.clr
  x : r.x = q.1.2.2
  e : r.e = e
  logged : r.logged = none
/-- The FIFOs of the banks of l hold requests of the elements of l that are among pend, each once. -/
def State.asked (s : State) (f : BForm) (c p ser : Nat) (e : W64) (l : List (BEl × Nat)) (pend : List BEl) : Prop :=
  ∀ q ∈ l, ((mget [] s.fifos (bankOf q.2)).map (·.idx)).Nodup ∧ ∀ r ∈ mget [] s.fifos (bankOf q.2),
    ∃ o ∈ l, bankOf o.2 = bankOf q.2 ∧ o.1 ∈ pend ∧ r.asks f c p ser e o
/-- When the head of a FIFO is taken, what is left asks for the other elements. -/
theorem asked_rest {s u : State} {f : BForm} {c p ser B : Nat} {e : W64} {l : List (BEl × Nat)} {pend : List BEl} {r : BankReq}
    {rest : List BankReq} (hq : mget [] s.fifos B = r :: rest) (hu : u.fifos = mput [] s.fifos B rest)
    (hnd : (l.map (fun q => q.1.1)).Nodup) (h : s.asked f c p ser e l pend) {o : BEl × Nat} (ho : o ∈ l) (hB : bankOf o.2 = B)
    (hr : r.asks f c p ser e o) : u.asked f c p ser e l (pend.filter (fun x => x.1 ≠ o.1.1)) := by
  intro q hql
  obtain ⟨hn, ha⟩ := h q hql
  rw [hu]
  by_cases hb : bankOf q.2 = B
  · rw [hb] at hn ha ⊢
    rw [hq] at hn ha
    rw [mget_mput_same]
    obtain ⟨hnot, hn'⟩ := List.nodup_cons.1 hn
    refine ⟨hn', fun r2 hr2 => ?_⟩
    obtain ⟨o2, h1, h2, h3, h4⟩ := ha r2 (List.mem_cons_of_mem _ hr2)
    refine ⟨o2, h1, h2, List.mem_filter.2 ⟨h3, ?_⟩, h4⟩
    have hne : o2.1.1 ≠ o.1.1 := fun heq => hnot (List.mem_map.2 ⟨_, hr2, h4.idx.trans (heq.trans hr.idx.symm)⟩)
    simpa using hne
  · rw [mget_mput_ne _ _ _ hb]
    refine ⟨hn, fun r2 hr2 => ?_⟩
    obtain ⟨o2, h1, h2, h3, h4⟩ := ha r2 hr2
    refine ⟨o2, h1, h2, List.mem_filter.2 ⟨h3, ?_⟩, h4⟩
    have hne : o2.1.1 ≠ o.1.1 := fun heq => hb (by rw [← h2, List.inj_on_of_nodup_map hnd h1 ho heq, hB])
    simpa using hne

/-! ### An operation while its banks perform it -/

/-- The entry at the head of the ST queue, routed in cycle ser, carries the mark m. -/
def Core.carries (k : Core) (ser : Nat) (m : Mark) : Prop := ∃ en t, k.eng.st = en :: t ∧ en.routed = ser ∧ en.mark = m
theorem carries_of_eng {k q : Core} {ser : Nat} {m : Mark} (h : q.eng = k.eng) (hk : k.carries ser m) : q.carries ser m := by
  unfold Core.carries; rw [h]; exact hk
/-- What comes of an element is noted in the mark. -/
theorem carries_markBank {k : Core} {ser : Nat} {m : Mark} (i : Nat) (x : Except Stop W64) (h : k.carries ser m) :
    (k.markBank ser i x).carries ser (markElem m i x) := by
  obtain ⟨en, t, hst, hr, rfl⟩ := h
  have hm : (k.markBank ser i x).eng.st = k.eng.st.map (fun y => if y.routed = ser then { y with mark := markElem y.mark i x } else y) := rfl
  rw [hst, List.map_cons, if_pos hr] at hm
  exact ⟨_, _, hm, hr, rfl⟩
/-- An element of the operation has failed. -/
def Mark.failed (m : Mark) : Prop := ∃ u p rets fails segs, m = .bank u p rets fails segs ∧ fails ≠ []
theorem failed_markElem {m : Mark} (i : Nat) (x : Except Stop W64) (h : m.failed) : (markElem m i x).failed := by
  obtain ⟨u, p, rets, fails, segs, rfl, hf⟩ := h
  cases x with
  | ok v => exact ⟨_, _, _, _, _, rfl, hf⟩
  | error y => exact ⟨_, _, _, _, _, rfl, by simp [hf]⟩

/-- The elements l of the entry routed in cycle ser, of which those of pend have not been performed, started from the state s0: the banks hold the
requests of pend, the words of pend are as in s0, the others hold their new values and have returned their old ones. -/
structure Performing (f : BForm) (c ser : Nat) (e : W64) (segs : List Nat) (l : List (BEl × Nat)) (s0 s : State) (pend : List BEl)
    (rets : Map W64) : Prop where
  kept : State.Kept c s0 s
  carries : (s.core c).carries ser (.bank [] pend rets [] segs)
  asked : s.asked f c (s0.partNo c) ser e l pend
  out : ∀ a, (s0.env c).busyByte a = false → (bankWrites f.op f.clr = false ∨ ∀ q ∈ l, a < q.2 ∨ q.2 + bankBytes f.op f.ty ≤ a) →
    rd s.mem a = rd s0.mem a
  word : ∀ q ∈ l, (∀ o ∈ l, o = q ∨ o.2 + bankBytes f.op f.ty ≤ q.2 ∨ q.2 + bankBytes f.op f.ty ≤ o.2) →
    (∀ j, j < bankBytes f.op f.ty → (s0.env c).busyByte (q.2 + j) = false) → f.op.cell = false →
    (q.1 ∈ pend → rdN s.mem q.2 (bankBytes f.op f.ty) = rdN s0.mem q.2 (bankBytes f.op f.ty)) ∧
    (q.1 ∉ pend → (bankWrites f.op f.clr = true → rdN s.mem q.2 (bankBytes f.op f.ty) = toLE (bankBytes f.op f.ty)
        (bankNew f.op f.ty (s0.bankWord q.2 (bankBytes f.op f.ty)) q.1.2.2 e).toNat) ∧
      mfind rets q.1.1 = some (byTy f.ty (s0.bankWord q.2 (bankBytes f.op f.ty))))
/-- The operation is being performed, or an element of it has failed. -/
def Goes (f : BForm) (c ser : Nat) (e : W64) (segs : List Nat) (l : List (BEl × Nat)) (s0 s : State) : Prop :=
  (∃ pend rets, Performing f c ser e segs l s0 s pend rets) ∨
    State.Kept c s0 s ∧ (∃ pend, s.asked f c (s0.partNo c) ser e l pend) ∧ ∃ m, (s.core c).carries ser m ∧ m.failed

section
variable {f : BForm} {c ser : Nat} {e : W64} {segs : List Nat} {l : List (BEl × Nat)} {s0 s : State}

/-- The head of a bank of l is performed: an element o of l, which leaves those that wait. -/
theorem asked_bankStep (hc : c < 256) (h0 : (s0.part (s0.partNo c)).logMode = 0) (hnd : (l.map (fun q => q.1.1)).Nodup)
    {q0 : BEl × Nat} (hq0 : q0 ∈ l) (hk : State.Kept c s0 s) {pend : List BEl} (ha : s.asked f c (s0.partNo c) ser e l pend) :
    s.bankStep (bankOf q0.2) = s ∨ ∃ o ∈ l, ∃ x : Except Stop W64, o.1 ∈ pend ∧ State.Kept c s0 (s.bankStep (bankOf q0.2)) ∧
      (s.bankStep (bankOf q0.2)).asked f c (s0.partNo c) ser e l (pend.filter (fun y => y.1 ≠ o.1.1)) ∧
      (∀ m, (s.core c).carries ser m → ((s.bankStep (bankOf q0.2)).core c).carries ser (markElem m o.1.1 x)) ∧
      ∀ v, x = .ok v →
        (∀ a, (bankWrites f.op f.clr = false ∨ a < o.2 ∨ o.2 + bankBytes f.op f.ty ≤ a) →
          rd (s.bankStep (bankOf q0.2)).mem a = rd s.mem a) ∧
        (f.op.cell = false → (bankWrites f.op f.clr = true → rdN (s.bankStep (bankOf q0.2)).mem o.2 (bankBytes f.op f.ty) =
            toLE (bankBytes f.op f.ty) (bankNew f.op f.ty (s.bankWord o.2 (bankBytes f.op f.ty)) o.1.2.2 e).toNat) ∧
          v = byTy f.ty (s.bankWord o.2 (bankBytes f.op f.ty))) := by
  cases hq : mget [] s.fifos (bankOf q0.2) with
  | nil => exact .inl (by unfold State.bankStep; rw [hq])
  | cons r rest =>
    obtain ⟨o, ho, hob, hop, hr⟩ := (ha q0 hq0).2 r (by rw [hq]; exact List.mem_cons_self)
    obtain ⟨x, t, hstep, hkt, hft, het, hx⟩ := bankStep_near hq hr.agent hc (hr.part.trans hk.partNo.symm) hr.logged (hk.quiet h0)
    rw [hr.ser, hr.idx] at hstep
    rw [hstep]
    refine .inr ⟨o, ho, x, hop, hk.trans (hkt.trans (kept_markBank ..)), asked_rest hq hft hnd ha ho hob hr, fun m hm => ?_, fun v hv => ?_⟩
    · rw [core_upCore_same]
      exact carries_markBank _ _ (carries_of_eng het hm)
    · have hd := hx v hv
      have hframe := hd.frame
      have hword := hd.word
      rw [hr.op, hr.clr, hr.ty, hr.pa] at hframe hword
      rw [hr.x, hr.e] at hword
      exact ⟨hframe, fun h => hword h hr.logged⟩
/-- One operation performed. -/
theorem goes_bankStep (hc : c < 256) (h0 : (s0.part (s0.partNo c)).logMode = 0) (hnd : (l.map (fun q => q.1.1)).Nodup)
    {q0 : BEl × Nat} (hq0 : q0 ∈ l) (h : Goes f c ser e segs l s0 s) : Goes f c ser e segs l s0 (s.bankStep (bankOf q0.2)) := by
  rcases h with ⟨pend, rets, hp⟩ | ⟨hk, ⟨pend, ha⟩, m, hm, hf⟩
  · rcases asked_bankStep hc h0 hnd hq0 hp.kept hp.asked with hs | ⟨o, ho, x, hop, hk', ha', hcar, hx⟩
    · rw [hs]; exact .inl ⟨pend, rets, hp⟩
    generalize s.bankStep (bankOf q0.2) = u at hk' ha' hcar hx ⊢
    cases x with
    | error y =>
      refine .inr ⟨hk', ⟨_, ha'⟩, _, hcar _ hp.carries, _, _, _, _, _, rfl, ?_⟩
      have : o.1 ∈ pend.filter (fun z => z.1 = o.1.1) := List.mem_filter.2 ⟨hop, by simp⟩
      intro hnil
      rw [List.nil_append, List.map_eq_nil_iff] at hnil
      rw [hnil] at this
      cases this
    | ok v =>
      obtain ⟨hframe, hword⟩ := hx v rfl
      refine .inl ⟨_, _, hk', hcar _ hp.carries, ha', fun a hb hout => ?_, fun q hq hiso hbusy hcell => ?_⟩
      · rw [hframe a (hout.imp_right (fun h => h o ho)), hp.out a hb hout]
      · obtain ⟨hin, hnot⟩ := hp.word q hq hiso hbusy hcell
        by_cases hqo : q = o
        · subst hqo
          refine ⟨fun hm => absurd (List.mem_filter.1 hm).2 (by simp), fun _ => ?_⟩
          obtain ⟨hw, rfl⟩ := hword hcell
          rw [show s.bankWord q.2 (bankBytes f.op f.ty) = s0.bankWord q.2 (bankBytes f.op f.ty) by
            unfold State.bankWord; rw [hin hop]] at hw ⊢
          exact ⟨hw, mfind_mset_same _ _ _⟩
        · have hne : q.1.1 ≠ o.1.1 := fun heq => hqo (List.inj_on_of_nodup_map hnd hq ho heq)
          have hsame : rdN u.mem q.2 (bankBytes f.op f.ty) = rdN s.mem q.2 (bankBytes f.op f.ty) :=
            rdN_congr (fun j hj => hframe _ (.inr (by rcases hiso o ho with h | h | h <;> [exact absurd h.symm hqo; omega; omega])))
          rw [hsame]
          refine ⟨fun hm => hin (List.mem_filter.1 hm).1, fun hm => ?_⟩
          rw [mfind_mset_ne _ _ hne]
          exact hnot (fun hp => hm (List.mem_filter.2 ⟨hp, by simpa using hne⟩))
  · rcases asked_bankStep hc h0 hnd hq0 hk ha with hs | ⟨o, -, x, -, hk', ha', hcar, -⟩
    · rw [hs]; exact .inr ⟨hk, ⟨pend, ha⟩, m, hm, hf⟩
    · exact .inr ⟨hk', ⟨_, ha'⟩, _, hcar m hm, failed_markElem _ _ hf⟩
/-- Banks of l drained. -/
theorem goes_drainBank (hc : c < 256) (h0 : (s0.part (s0.partNo c)).logMode = 0) (hnd : (l.map (fun q => q.1.1)).Nodup)
    {q0 : BEl × Nat} (hq0 : q0 ∈ l) (n : Nat) (h : Goes f c ser e segs l s0 s) : Goes f c ser e segs l s0 (s.drainBank (bankOf q0.2) n) := by
  induction n generalizing s with
  | zero => exact h
  | succ n ih => exact ih (goes_bankStep hc h0 hnd hq0 h)
/-- Every bank to which the operation has been sent performs what stands in its FIFO. -/
theorem goes_drains (hc : c < 256) (h0 : (s0.part (s0.partNo c)).logMode = 0) (hnd : (l.map (fun q => q.1.1)).Nodup) (bs : List Nat)
    (hb : ∀ b ∈ bs, ∃ q ∈ l, bankOf q.2 = b) (h : Goes f c ser e segs l s0 s) :
    Goes f c ser e segs l s0 (bs.foldl (fun s b => s.drainBank b (mget [] s.fifos b).length) s) := by
  induction bs generalizing s with
  | nil => exact h
  | cons b t ih =>
    obtain ⟨q, hq, rfl⟩ := hb b List.mem_cons_self
    exact ih (fun b' hb' => hb b' (List.mem_cons_of_mem _ hb')) (goes_drainBank hc h0 hnd hq _ h)
end

end Sys2Proof.Machine
end

section
/-!
PROOFS. Bank operations on streams (O50): the elements are sent, and their banks perform them.
-/

namespace Sys2Proof.Machine
open Sys2Proof

/-! ### The entry that begins stands at the head of its queue -/

theorem takeToks_st (k : Core) (st : Strm) (t : Tok) : (k.takeToks st t).1.eng.st = k.eng.st := by
  unfold Core.takeToks
  dsimp only
  split <;> split <;> rfl
theorem noteTaken_st (k : Core) (st : Strm) (t : Tok) (n : Nat) : (k.noteTaken st t n).eng.st = k.eng.st := by
  unfold Core.noteTaken
  dsimp only
  split <;> split <;> simp only [corrects_eng]
theorem opened_st (k : Core) (en : Entry) (t : Nat) :
    (k.opened .st en t).eng.st = { en with waited := true, weak := false } :: k.eng.st.tail := by
  have hflush (q : Core) (p : Due → Bool) : (q.flushIf p).eng.st = q.eng.st := by simp only [Core.flushIf, applyAll_eng]
  unfold Core.opened
  dsimp only
  rw [foldl_keeps (g := fun k : Core => k.eng.st) (fun a b => by simp only [corrects_eng])]
  have h0 : (if en.waited then k else (k.takeToks (engStrm .st) (tokOf en.i)).1.noteTaken (engStrm .st) (tokOf en.i) t).eng.st = k.eng.st := by
    split
    · rfl
    · rw [noteTaken_st, takeToks_st]
  generalize (if en.waited then k else (k.takeToks (engStrm .st) (tokOf en.i)).1.noteTaken (engStrm .st) (tokOf en.i) t) = k0 at h0 ⊢
  have h1 : (((k0.setHead .st { en with waited := true, weak := false }).setEngAt .st t).flush (engStrm .st) t |>.flushH (hStreams en.i) t).eng.st =
      { en with waited := true, weak := false } :: k.eng.st.tail := by
    rw [Core.flushH, hflush, Core.flush, hflush, ← h0]
    rfl
  split <;> exact h1
/-- The queue of an instruction that begins at the ST engine. -/
theorem begins_st {s : State} {i : Instr} {b : Begun} (h : s.begins i = some b) (he : engOf i = some .st) :
    ∃ t, b.core.eng.st = b.en :: t := by
  obtain ⟨e, en, s1, h1, -, -, rfl⟩ := begins_gives h
  obtain rfl : e = .st := Option.some.inj (h1.symm.trans he)
  exact ⟨_, by rw [Begun.core, State.starts]; dsimp only; rw [core_setCore_same, opened_st]⟩

/-! ### Sending (R296) -/

theorem kept_countEvent (c : Nat) (s : State) : State.Kept c s (s.upCore c Core.countEvent) := by
  refine kept_cores rfl ?_ (fun n _ => by rw [core_upCore_same]; rfl)
  rw [core_upCore_same, Core.isPriv, Core.isPriv, Core.countEvent, Core.setEvents]
  cases (s.core c).run <;> rfl
/-- Where nothing is logged, the next element is sent as it is. -/
theorem bankSend_cons {f : BForm} {c ser : Nat} {e : W64} {s : State} (h0 : (s.part (s.partNo c)).logMode = 0) (q : BEl × Nat)
    (t : List (BEl × Nat)) (sent : List BEl) : bankSend f c ser e (q :: t) s sent =
      let r := bankSend f c ser e t ((if (bankKind f.op f.clr).isSome then s.upCore c Core.countEvent else s).send
        ⟨c, s.partNo c, q.1.1, ser, (s.core c).events, q.2, q.1.2.1, f.op, f.ty, f.clr, q.1.2.2, e, none⟩) (sent ++ [q.1])
      (r.1, r.2.1, r.2.2.1, bankOf q.2 :: r.2.2.2) := by
  rw [bankSend]
  cases bankKind f.op f.clr with
  | none => rfl
  | some kind =>
    have hask : s.logAsk (s.partNo c) kind (s.core c).lcNext = (s, .live) := by simp [State.logAsk, h0]
    dsimp only
    rw [hask]
/-- A request that joins its bank's FIFO behind those of the elements sent before. -/
theorem asked_send {f : BForm} {c p ser : Nat} {e : W64} {l d t : List (BEl × Nat)} {s u : State} {q : BEl × Nat} {r : BankReq}
    (hl : l = d ++ q :: t) (hnd : (l.map (fun q => q.1.1)).Nodup) (ha : s.asked f c p ser e l (d.map (·.1))) (hr : r.asks f c p ser e q)
    (hu : u.fifos = mset s.fifos (bankOf q.2) (mget [] s.fifos (bankOf q.2) ++ [r])) :
    u.asked f c p ser e l ((d ++ [q]).map (·.1)) := by
  have hq : q ∈ l := by rw [hl]; simp
  have more {x : BEl} (hx : x ∈ d.map (·.1)) : x ∈ (d ++ [q]).map (·.1) := by rw [List.map_append]; exact List.mem_append_left _ hx
  have fresh {x : BEl} (hx : x ∈ d.map (·.1)) : x.1 ≠ q.1.1 := by
    obtain ⟨o, ho, rfl⟩ := List.mem_map.1 hx
    rw [hl, List.map_append, List.map_cons] at hnd
    exact (List.nodup_append.1 hnd).2.2 _ (List.mem_map.2 ⟨o, ho, rfl⟩) _ List.mem_cons_self
  intro q2 hq2
  obtain ⟨hn, hold⟩ := ha q2 hq2
  rw [hu]
  by_cases hb : bankOf q2.2 = bankOf q.2
  · rw [hb] at hn hold ⊢
    rw [mget_mset_same]
    refine ⟨?_, fun r2 hr2 => ?_⟩
    · rw [List.map_append, List.map_cons, List.map_nil]
      refine List.Nodup.append hn (List.nodup_singleton _) (List.disjoint_singleton.2 (fun hm => ?_))
      obtain ⟨r3, h3, hidx⟩ := List.mem_map.1 hm
      obtain ⟨o, -, -, ho, ho'⟩ := hold r3 h3
      exact fresh ho (by rw [← ho'.idx, hidx, hr.idx])
    · rcases List.mem_append.1 hr2 with h2 | h2
      · obtain ⟨o, h1, h3, h4, h5⟩ := hold r2 h2
        exact ⟨o, h1, h3, more h4, h5⟩
      · rw [List.mem_singleton.1 h2]
        exact ⟨q, hq, rfl, by simp, hr⟩
  · rw [mget_mset_ne _ _ _ hb]
    refine ⟨hn, fun r2 hr2 => ?_⟩
    obtain ⟨o, h1, h3, h4, h5⟩ := hold r2 hr2
    exact ⟨o, h1, h3, more h4, h5⟩
/-- Where nothing is logged, every element is sent to its bank, and waits there with those sent before. -/
theorem bankSend_gives {f : BForm} {c ser : Nat} {e : W64} {l : List (BEl × Nat)} {s0 : State}
    (h0 : (s0.part (s0.partNo c)).logMode = 0) (hnd : (l.map (fun q => q.1.1)).Nodup) (t : List (BEl × Nat)) {d : List (BEl × Nat)} {s : State}
    (hl : l = d ++ t) (hk : State.Kept c s0 s) (ha : s.asked f c (s0.partNo c) ser e l (d.map (·.1))) :
    ∃ u, bankSend f c ser e t s (d.map (·.1)) = (u, l.map (·.1), [], t.map (fun q => bankOf q.2)) ∧ State.Kept c s0 u ∧
      u.asked f c (s0.partNo c) ser e l (l.map (·.1)) ∧ (u.core c).eng = (s.core c).eng ∧ u.mem = s.mem := by
  induction t generalizing d s with
  | nil =>
    rw [List.append_nil] at hl
    subst hl
    exact ⟨s, rfl, hk, ha, rfl, rfl⟩
  | cons q t ih =>
    obtain ⟨s1, hs1, hk1, hf1, he1, hm1⟩ : ∃ s1, s1 = (if (bankKind f.op f.clr).isSome then s.upCore c Core.countEvent else s) ∧
        State.Kept c s s1 ∧ s1.fifos = s.fifos ∧ (s1.core c).eng = (s.core c).eng ∧ s1.mem = s.mem := by
      refine ⟨_, rfl, ?_⟩
      split
      · exact ⟨kept_countEvent c s, rfl, by rw [core_upCore_same]; rfl, rfl⟩
      · exact ⟨.refl c s, rfl, rfl, rfl⟩
    obtain ⟨r, hreq⟩ : ∃ r : BankReq, r =
        ⟨c, s.partNo c, q.1.1, ser, (s.core c).events, q.2, q.1.2.1, f.op, f.ty, f.clr, q.1.2.2, e, none⟩ := ⟨_, rfl⟩
    have hr : r.asks f c (s0.partNo c) ser e q := by rw [hreq]; exact ⟨rfl, hk.partNo, rfl, rfl, rfl, rfl, rfl, rfl, rfl, rfl, rfl⟩
    obtain ⟨u, h1, h2, h3, h4, h5⟩ := ih (d := d ++ [q]) (s := s1.send r) (by rw [hl]; simp) ((hk.trans hk1).trans ⟨rfl, rfl, rfl⟩)
      (asked_send hl hnd ha hr (by rw [State.send, ← hf1, hr.pa]))
    refine ⟨u, ?_, h2, h3, h4.trans he1, h5.trans hm1⟩
    rw [bankSend_cons (hk.quiet h0), ← hs1, ← hreq, ← List.map_singleton (f := Prod.fst), ← List.map_append, h1]
    rfl

/-! ### The elements of an operation differ in their places -/

theorem nodup_upto (n : Nat) : (upto n).Nodup := by rw [upto_eq_range]; exact List.nodup_range
theorem nodup_streamEls (op : BOp) (ty : BTy) (sh : Nat) (h : HD) (a b : W64) (vals : List (Nat × Nat)) :
    ((streamEls op ty sh h a b vals).map (·.1)).Nodup := by
  refine List.Nodup.sublist ?_ (nodup_upto (h.total - h.pos))
  unfold streamEls
  generalize upto (h.total - h.pos) = js
  induction js with
  | nil => exact List.Sublist.refl []
  | cons j t ih =>
    rw [List.filterMap_cons]
    dsimp only at ih ⊢
    split
    · rename_i hn
      exact ih.cons j
    · rename_i el hel
      have : el.1 = j := by
        split at hel
        · cases hel
        · cases hel; rfl
      rw [List.map_cons, this]
      exact ih.cons_cons j
theorem nodup_bankEls (f : BForm) (en : Entry) (vals : List (Nat × Nat)) : ((bankEls f en vals).map (·.1)).Nodup := by
  unfold bankEls
  split
  · exact nodup_streamEls ..
  · unfold scalarEls
    split
    · rw [List.map_map]
      exact (List.map_id (upto (en.s 1).toNat)).symm ▸ nodup_upto _
    · exact List.nodup_singleton _
theorem nodup_placed {b : Begun} {f : BForm} {x : CSt} {l : List (BEl × Nat)} (h : b.placed f = some (x, l)) :
    (l.map (fun q => q.1.1)).Nodup := by
  obtain ⟨els, x0, hw, -, -, -, hl⟩ := near_placed h
  unfold Begun.words at hw
  obtain ⟨⟨vals, x1⟩, -, he⟩ := Option.map_eq_some_iff.1 hw
  obtain ⟨rfl, -⟩ := Prod.mk.inj he
  have := nodup_bankEls f b.en vals
  rwa [← hl, List.map_map] at this

/-! ### Performing all of them -/

section
variable {f : BForm} {c ser : Nat} {e : W64} {l : List (BEl × Nat)} {s0 : State}

/-- The queues and entries g of a core beyond the package's 256 stay while banks perform what it has sent. -/
def Unheard (f : BForm) (c ser : Nat) (e : W64) (l : List (BEl × Nat)) (s0 : State) (g : Engines) (s : State) : Prop :=
  State.Kept c s0 s ∧ (∃ pend, s.asked f c (s0.partNo c) ser e l pend) ∧ (s.core c).eng = g
theorem unheard_bankStep {g : Engines} {s : State} (hc : 256 ≤ c) (h0 : (s0.part (s0.partNo c)).logMode = 0)
    (hnd : (l.map (fun q => q.1.1)).Nodup) {q0 : BEl × Nat} (hq0 : q0 ∈ l) (h : Unheard f c ser e l s0 g s) :
    Unheard f c ser e l s0 g (s.bankStep (bankOf q0.2)) := by
  obtain ⟨hk, ⟨pend, ha⟩, he⟩ := h
  cases hq : mget [] s.fifos (bankOf q0.2) with
  | nil => rw [show s.bankStep (bankOf q0.2) = s by unfold State.bankStep; rw [hq]]; exact ⟨hk, ⟨pend, ha⟩, he⟩
  | cons r rest =>
    obtain ⟨o, ho, hob, -, hr⟩ := (ha q0 hq0).2 r (by rw [hq]; exact List.mem_cons_self)
    obtain ⟨h1, h2, h3⟩ := bankStep_far hq hr.agent hc (hr.part.trans hk.partNo.symm) (hk.quiet h0)
    exact ⟨hk.trans h1, ⟨_, asked_rest hq h2 hnd ha ho hob hr⟩, h3.trans he⟩
theorem unheard_drains {g : Engines} (hc : 256 ≤ c) (h0 : (s0.part (s0.partNo c)).logMode = 0) (hnd : (l.map (fun q => q.1.1)).Nodup)
    (bs : List Nat) (hb : ∀ b ∈ bs, ∃ q ∈ l, bankOf q.2 = b) {s : State} (h : Unheard f c ser e l s0 g s) :
    Unheard f c ser e l s0 g (bs.foldl (fun s b => s.drainBank b (mget [] s.fifos b).length) s) := by
  have drain {q : BEl × Nat} (hq : q ∈ l) (n : Nat) {s : State} (h : Unheard f c ser e l s0 g s) :
      Unheard f c ser e l s0 g (s.drainBank (bankOf q.2) n) := by
    induction n generalizing s with
    | zero => exact h
    | succ n ih => exact ih (unheard_bankStep hc h0 hnd hq h)
  induction bs generalizing s with
  | nil => exact h
  | cons b t ih =>
    obtain ⟨q, hq, rfl⟩ := hb b List.mem_cons_self
    exact ih (fun b' hb' => hb b' (List.mem_cons_of_mem _ hb')) (drain hq _ h)

end

/-- The mark of the entry at the head of the ST queue. -/
theorem setMark_head {u : State} {c : Nat} {en : Entry} {t : List Entry} (m : Mark) (h : (u.core c).eng.st = en :: t) :
    (u.setMark c .st m).core c = { u.core c with eng := { (u.core c).eng with st := { en with mark := m } :: t } } := by
  rw [State.setMark, core_upCore_same, show (u.core c).queue .st = en :: t from h]
  simp only [Core.setHead, Core.setQueue, Core.queue, h, List.tail_cons]
/-- An operation that has been sent, with its entry at the head of the ST queue, is being performed. -/
theorem performing_sent {f : BForm} {c : Nat} {e : W64} {segs : List Nat} {l : List (BEl × Nat)} {s0 x : State} {en : Entry} {t : List Entry}
    (h0 : (s0.part (s0.partNo c)).logMode = 0) (hnd : (l.map (fun q => q.1.1)).Nodup) (hn : State.Near c s0 x)
    (hst : (s0.core c).eng.st = en :: t) (hF : ∀ q ∈ l, mget [] s0.fifos (bankOf q.2) = []) :
    ∃ u, bankSend f c en.routed e l (x.markLc c) [] = (u, l.map (·.1), [], l.map (fun q => bankOf q.2)) ∧
      Performing f c en.routed e segs l s0 (u.setMark c .st (.bank [] (l.map (·.1)) [] [] segs)) (l.map (·.1)) [] := by
  have hq : (x.core c).eng.st = en :: t := hn.queue.trans hst
  have hmark : ((x.markLc c).core c).eng.st = { en with lc := (x.core c).events } :: t := by
    rw [State.markLc, core_upCore_same, hq]
    simp only [Core.setHead, Core.setQueue, Core.queue, hq, List.tail_cons]
  have hk : State.Kept c s0 (x.markLc c) := (kept_near hn).trans (kept_cores rfl
    (by rw [State.markLc, core_upCore_same, hq]; rfl) (fun m _ => by rw [State.markLc, core_upCore_same, hq]; rfl))
  obtain ⟨u, h1, h2, h3, h4, h5⟩ := bankSend_gives (f := f) (c := c) (ser := en.routed) (e := e) h0 hnd l (d := []) (s := x.markLc c) rfl hk
    (fun q hql => by
      rw [show (x.markLc c).fifos = s0.fifos from hn.fifos, hF q hql]
      exact ⟨List.nodup_nil, fun r hr => by cases hr⟩)
  refine ⟨u, h1, ?_⟩
  have hu : (u.core c).eng.st = { en with lc := (x.core c).events } :: t := by rw [h4, hmark]
  have hmem : u.mem = x.mem := h5
  have hhead := setMark_head (.bank [] (l.map (·.1)) [] [] segs) hu
  refine ⟨h2.trans (kept_cores rfl (by rw [hhead]; rfl) (fun m _ => by rw [hhead]; rfl)), ?_, h3, fun a ha _ => ?_,
    fun q hql _ hb _ => ⟨fun _ => ?_, fun hno => ?_⟩⟩
  · rw [hhead]
    exact ⟨_, t, rfl, rfl, rfl⟩
  · exact (congrArg (fun m => rd m a) hmem).trans (hn.bytes a ha)
  · exact rdN_congr (fun j hj => (congrArg (fun m => rd m (q.2 + j)) hmem).trans (hn.bytes _ (hb j hj)))
  · exact absurd (List.mem_map.2 ⟨q, hql, rfl⟩) hno

/-- When an operation's elements have all been performed and none has failed, its words hold their new values. -/
theorem banked_performed {s : State} {i : Instr} {f : BForm} {b : Begun} {x : CSt} {l : List (BEl × Nat)} {s2 : State} {rets : Map W64}
    {segs : List Nat} (hb : s.begins i = some b) (hi : bankForm i = some f) (hp : b.placed f = some (x, l))
    (hk : b.banked f = some (s2, rets, [], segs)) (hF : ∀ q ∈ l, mget [] b.s.fifos (bankOf q.2) = [])
    (h0 : (b.s.part (b.s.partNo b.c)).logMode = 0) :
    Performing f b.c b.en.routed (b.en.s 2) segs l b.s s2 [] rets ∧ segsIn (b.s.env b.c) segs := by
  obtain ⟨t, hst⟩ := begins_st hb (engOf_bankForm hi)
  obtain ⟨els, x0, -, -, hn, hsegs, -⟩ := near_placed hp
  have hnd := nodup_placed hp
  obtain ⟨u, hsend, hperf⟩ := performing_sent (f := f) (e := b.en.s 2) (segs := x.m.segs) h0 hnd hn hst hF
  rw [Begun.banked, hp] at hk
  simp only [Option.bind_some, hsend] at hk
  generalize u.setMark b.c .st (.bank [] (l.map (·.1)) [] [] x.m.segs) = s1 at hk hperf
  have hbs : ∀ n ∈ l.map (fun q => bankOf q.2), ∃ q ∈ l, bankOf q.2 = n := fun n hm => by
    obtain ⟨q, hq, rfl⟩ := List.mem_map.1 hm
    exact ⟨q, hq, rfl⟩
  have hgoes : Goes f b.c b.en.routed (b.en.s 2) x.m.segs l b.s
      ((l.map (fun q => bankOf q.2)).foldl (fun s b => s.drainBank b (mget [] s.fifos b).length) s1) := by
    by_cases hc : b.c < 256
    · exact goes_drains hc h0 hnd _ hbs (.inl ⟨_, _, hperf⟩)
    cases l with
    | nil => exact .inl ⟨_, _, hperf⟩
    | cons q t' =>
      obtain ⟨-, -, he⟩ := unheard_drains (by omega) h0 hnd _ hbs ⟨hperf.kept, ⟨_, hperf.asked⟩, rfl⟩
      obtain ⟨en, t2, h1, -, h3⟩ := carries_of_eng he hperf.carries
      rw [h1, List.head?_cons, Option.map_some, Option.getD_some, h3] at hk
      cases hk
  generalize (l.map (fun q => bankOf q.2)).foldl (fun s b => s.drainBank b (mget [] s.fifos b).length) s1 = v at hk hgoes
  split at hk
  · rename_i rets' fails' segs' hm
    obtain ⟨rfl, rfl, rfl, rfl⟩ : v = s2 ∧ rets' = rets ∧ fails' = [] ∧ segs' = segs := by simpa using hk
    rcases hgoes with ⟨pend, r, hg⟩ | ⟨-, -, m, ⟨en, t', h1, -, h3⟩, hf⟩
    · obtain ⟨en, t', h1, -, h3⟩ := hg.carries
      rw [h1, List.head?_cons, Option.map_some, Option.getD_some, h3] at hm
      cases hm
      exact ⟨hg, hsegs⟩
    · rw [h1, List.head?_cons, Option.map_some, Option.getD_some, h3] at hm
      obtain ⟨_, _, _, _, _, h4, h5⟩ := hf
      rw [h4] at hm
      cases hm
      exact absurd rfl h5
  · cases hk

end Sys2Proof.Machine
end

section
/-!
PROOFS. Bank operations on streams (O50): the operation that begins, and its elements.
-/

namespace Sys2Proof.Machine
open Sys2Proof

/-- The body of a bank operation that begins and passes its checks reads its tile and goes on with its elements. -/
theorem bankBody_begins {s : State} {i : Instr} {f : BForm} {b : Begun} {els : List BEl} {x0 : CSt} (hb : s.begins i = some b)
    (hi : bankForm i = some f) (hs : bankStart f b.en = none) (hw : b.words f = some (els, x0)) :
    bodyOf b.en.i b.c b.en b.t b.s = bankGo f b.c b.en b.t els [] [] [] x0 := by
  obtain ⟨hen, hmark, -⟩ := begins_fresh hb
  have he := begins_at hb (engOf_bankForm hi)
  unfold Begun.words at hw
  obtain ⟨⟨vals, x1⟩, hr, hw'⟩ := Option.map_eq_some_iff.1 hw
  obtain ⟨rfl, rfl⟩ := Prod.mk.inj hw'
  have hrun : bankRun f b.c b.en b.t b.s = tileRun .st b.c b.t (HD.of (b.en.h 0)) false (bankReads f (HD.of (b.en.h 0)))
      (CSt.gone .st b.c b.t) (fun vals x => bankGo f b.c b.en b.t (bankEls f b.en vals) [] [] [] x) b.copy0 := by
    unfold bankRun Entry.moving
    rw [hmark]
    rfl
  rw [hen, bodyOf_bankForm ((bankForm_named s i).trans hi), bankBody, hs]
  dsimp only
  rw [hrun, ← he, tileRun_reads hr]
/-- What a bank operation comes to when all of it is performed at once. -/
theorem exec_banked {s : State} {i : Instr} {f : BForm} {b : Begun} {x : CSt} {l : List (BEl × Nat)} {s2 : State} {rets : Map W64}
    {segs : List Nat} (hb : s.begins i = some b) (hi : bankForm i = some f) (hs : bankStart f b.en = none) (hl : b.s.lagBanks = false)
    (hp : b.placed f = some (x, l)) (hk : b.banked f = some (s2, rets, [], segs)) :
    exec i s = .next (if bankHeld f (s2.core b.c) (HD.of (b.en.h 0)) rets = false ∧ b.first s2 = true then
      finishHead b.c b.e b.en (finAt b.t (b.bankEnds f (x.s.core b.c).events s2 rets segs))
      else s2.upCore b.c (fun k => k.flyHead b.t)) := by
  obtain ⟨els, x0, hw, hn, -⟩ := near_placed hp
  rw [exec_begins hb, bankBody_begins hb hi hs hw, bankGo_banked hw (hn.lag.trans hl) hp hk]
  split <;> rfl
/-- Where nothing is logged, an operation that ends leaves memory but for the BUSY counts of its segments. -/
theorem bankEnds_mem (b : Begun) (f : BForm) (lc : Nat) {s2 : State} (rets : Map W64) (segs : List Nat)
    (h0 : (s2.part (s2.partNo b.c)).logMode = 0) :
    (b.bankEnds f lc s2 rets segs).mem = leaveAll s2.mem (s2.env b.c) segs := by
  have hflag (u : State) : (u.ownFlag b.c b.t b.en).mem = u.mem := by unfold State.ownFlag; split <;> rfl
  unfold Begun.bankEnds
  dsimp only
  rw [hflag, upCore_mem]
  cases bankKind f.op f.clr with
  | none => rfl
  | some kind => simp [h0, CSt.leave]
/-- What an element of a stream works with (R294, R297 to R299). -/
theorem bankOperand_gives (op : BOp) (ty : BTy) (f v : Nat) (x : W64) : bankOperand op ty f v x =
    if op = .maxi then BitVec.ofNat 64 (v % 2 ^ 32 + x.toNat % 2 ^ 32 * 2 ^ 32)
    else if op = .hist then BitVec.ofNat 64 (x.toNat % 2 ^ 32)
    else if op = .xadd then (rne32 (decElem f v)).1.setWidth 64
    else if f = 6 ∧ ty = .d then BitVec.ofInt 64 (sext 32 v) else BitVec.ofNat 64 (v % 2 ^ 32) := by
  have hlow : bits x 31 0 = x.toNat % 2 ^ 32 := by simp [bits]
  unfold bankOperand
  rw [hlow]
  cases op <;> rfl
/-- The elements of a stream: one for each place, except where BHIST's element names no bin. -/
theorem mem_streamEls {op : BOp} {ty : BTy} {sh : Nat} {h : HD} {a x : W64} {vals : List (Nat × Nat)} {el : BEl} :
    el ∈ streamEls op ty sh h a x vals ↔ ∃ j, j < h.total - h.pos ∧ ¬(op = .hist ∧ (nth (0, 0) vals j).1 = 0xFFFFFFFF) ∧
      el = (j, if op = .hist then a + BitVec.ofNat 64 (8 * 2 ^ sh * (nth (0, 0) vals j).1) else a + BitVec.ofNat 64 (bankSize op ty * j),
        bankOperand op ty h.fmt (nth (0, 0) vals j).1 x) := by
  simp only [streamEls, List.mem_filterMap, upto_eq_range, List.mem_range]
  constructor
  · rintro ⟨j, hj, he⟩
    split at he
    · cases he
    · rename_i hn
      exact ⟨j, hj, hn, (Option.some.inj he).symm⟩
  · rintro ⟨j, hj, hn, rfl⟩
    exact ⟨j, hj, if_neg hn⟩

/-- Settles O50: the run that begins reads, translates, sends and performs its elements; an invariant of the banks' steps gives the words. -/
theorem bankOperationsOnStreams : Obligations.BankOperationsOnStreams := by
  refine ⟨fun s i f b x l s2 rets segs hb hi hs hl hp hk => ⟨?_, fun hF h0 hbusy => ?_⟩,
    fun op ty sh h a x vals => ⟨fun el hel => ?_, fun j hj hn => ?_⟩⟩
  · exact exec_banked hb hi hs hl hp hk
  · obtain ⟨hperf, hsegs⟩ := banked_performed hb hi hp hk hF h0
    have hmem := bankEnds_mem b f (x.s.core b.c).events rets segs (hperf.kept.quiet h0)
    have hu {a : Nat} (ha : (b.s.env b.c).busyByte a = false) :
        rd (b.bankEnds f (x.s.core b.c).events s2 rets segs).mem a = rd s2.mem a := by
      rw [hmem, hperf.kept.env]
      exact rd_leaveAll hsegs _ ha
    refine ⟨fun a ha hout => ⟨(hu ha).trans (hperf.out a ha hout), hperf.out a ha hout⟩, fun l1 q l2 hlq hiso hcell => ?_⟩
    have hq : q ∈ l := by rw [hlq]; simp
    have hiso' : ∀ o ∈ l, o = q ∨ o.2 + bankBytes f.op f.ty ≤ q.2 ∨ q.2 + bankBytes f.op f.ty ≤ o.2 := fun o ho => by
      rw [hlq, List.mem_append, List.mem_cons] at ho
      rcases ho with ho | ho | ho
      · exact .inr (hiso o (List.mem_append_left _ ho))
      · exact .inl ho
      · exact .inr (hiso o (List.mem_append_right _ ho))
    obtain ⟨hnew, hret⟩ := (hperf.word q hq hiso' (hbusy q hq) hcell).2 List.not_mem_nil
    exact ⟨fun hw => ⟨hnew hw, rdN_congr (fun j hj => hu (hbusy q hq j hj))⟩, hret⟩
  · obtain ⟨j, hj, hn, rfl⟩ := mem_streamEls.1 hel
    exact ⟨hj, bankOperand_gives .., fun ho => if_neg ho, fun ho => ⟨fun he => hn ⟨ho, he⟩, if_pos ho⟩⟩
  · exact ⟨_, mem_streamEls.2 ⟨j, hj, fun ⟨ho, he⟩ => hn ho he, rfl⟩, rfl⟩

end Sys2Proof.Machine
end

section
/-!
PROOFS. Encoding and decoding (O1, O2, O3, and the words of O5): `decode` accepts exactly the words of the well-formed instructions.
-/

namespace Sys2Proof.Laws.Fields

/-- The opcode map reads every instruction back from its words: the law of each constructor, in the order of the syntax. -/
theorem statement (i : Instr) : Statement i :=
  Instr.casesOn (motive := Statement) i
    add sub and or xor shl shr sra slt sltn seq sel min max minn maxn mul mulh mulhn div divn rem remn clz ctz popc addi andi
    ori xori shli shri srai slti movi movhi j jl jr bz bnz bltz bgez loop spill fill lds sts hset hget hmov hld hldSpill hst
    hstSpill hadv movsr movrs region waita poll abort phase done launch cancel trap brk eret nop halt pwrDecl pwrAcq pwrRel
    specBegin specGo specCommit specAbort tlbi vadd vsub vmul vfma vdiv vmin vmax vabs vneg vand vor vxor vshl vshr vsra vcmp
    vsel vmov vcvt vqnt vdqnt vlog2 vexp2 vrcp vrsq vsqrt vtanh vclass vredSum vredMax vredMin vredMaxi vxrd vscan vperm
    vbcast viota vrng vexpmax vmaxi mpush minv mpop mset mget vskip mlease mrel mancScan mancLoad mancColumn mclr mma mepi
    mtopk rdacc mstatTile mstatRowanc mstatDesc mstatColanc relax relaxB rdahr wrahr accept ldT ldX ldGr ldG ldGt ldSp ldNet
    pref linkRecv stT stPart stX stApp stAppQuery stRmt stMc stNet linkSend linkRed migr badd baddStream band bandStream bor
    borStream bxor bxorStream bmin bminStream bmax bmaxStream bminn bminnStream bmaxn bmaxnStream bfmin bfminStream bfmax
    bfmaxStream bmaxi bmaxiStream bxadd bxaddStream bxrd bxrdStream bfaa bfaaStream bcas bld bldStream bst bstStream bhist
    bhistStream bpfx baxpy baxpyStream waitaWake decodeFault instrComplete signalLatchDrain leaseGrant bankPerform
    remoteDeliver dispatch countRead unitEnd phaseClosing phaseClose clusterWake slotBoundary declAdmit declActivate declLapse
    undeclThrottleEnd sagHoldEnd collOffer collMissing packageReset linkSlotBoundary relaxIteration tableWalk load land
    copyComplete bankSend tlbiMark migrMove coreStop pkRelease pkFail preemptAbort partitionSwap swapContext jobStart phaseAdv
    registerWrite enrLoRead clusterGate sagEvent thermalRead energyUpdate collRecord report meas ident rwrite rboot
    smbSetPointer smbBlockWrite smbBlockRead smbCommand smbStatus dmaWrite dmaRead cardDeliver portTransmit hqStage hqPost
    hqTxc acLoad acStore acTlbi bpBadd bpBand bpBor bpBxor bpBmin bpBmax bpBminn bpBmaxn bpBfmin bpBfmax bpBmaxi bpBxadd
    bpBxrd bpBfaa bpBcas bpBld bpBst bpBhist bpBpfx bpBaxpy lpLaunch caRead caWrite srRead srWrite linkSendSlot linkHop
    linkArrive linkRedCombine scrub storedBitFailure partitionCreation coreReset

end Sys2Proof.Laws.Fields

namespace Sys2Proof

/-! ### What `decode` accepts (R48, R60) -/

/-- `decode` answers an instruction exactly when it is the one that the opcode map reads, well formed, and its words are those
given. -/
theorem decode_eq_some_iff {w0 w1 : BitVec 32} {i : Instr} : decode w0 w1 = some i ↔
    fieldsOf w0 w1 = some i ∧ i.wf = true ∧ encode0 i = w0 ∧ ∀ x, encode1 i = some x → x = w1 := by
  unfold decode
  cases hf : fieldsOf w0 w1 with
  | none => simp
  | some j =>
    simp only [Option.ite_none_right_eq_some, Bool.and_eq_true, beq_iff_eq, Option.all_eq_true, Option.some.injEq]
    constructor
    · rintro ⟨⟨⟨hw, h0⟩, h1⟩, rfl⟩
      exact ⟨rfl, hw, h0, h1⟩
    · rintro ⟨rfl, hw, h0, h1⟩
      exact ⟨⟨⟨hw, h0⟩, h1⟩, rfl⟩

/-! ### The opcode map names no event (R56 to R59) -/

theorem fieldsFE_names_no_event (op : Nat) (t : Tok) (b : BitVec 20) (x : BitVec 28) :
    (fieldsFE op t b x).all (fun i => !i.isEvent) = true := by
  unfold fieldsFE
  repeat' split
  all_goals rfl
theorem fieldsLD_names_no_event (op : Nat) (t : Tok) (b : BitVec 20) (x : BitVec 28) :
    (fieldsLD op t b x).all (fun i => !i.isEvent) = true := by
  unfold fieldsLD
  repeat' split
  all_goals rfl
theorem fieldsEX_names_no_event (op : Nat) (t : Tok) (b : BitVec 20) (x : BitVec 28) :
    (fieldsEX op t b x).all (fun i => !i.isEvent) = true := by
  unfold fieldsEX
  repeat' split
  all_goals rfl
theorem fieldsST_names_no_event (op : Nat) (t : Tok) (b : BitVec 20) (x : BitVec 28) :
    (fieldsST op t b x).all (fun i => !i.isEvent) = true := by
  unfold fieldsST
  repeat' split
  all_goals rfl
/-- What the opcode map reads is an instruction and no event. -/
theorem isEvent_of_fieldsOf {w0 w1 : BitVec 32} {i : Instr} (h : fieldsOf w0 w1 = some i) : i.isEvent = false := by
  have hall : (fieldsOf w0 w1).all (fun i => !i.isEvent) = true := by
    unfold fieldsOf
    dsimp only
    split
    · exact fieldsFE_names_no_event ..
    · exact fieldsLD_names_no_event ..
    · exact fieldsEX_names_no_event ..
    · exact fieldsST_names_no_event ..
  simpa [h] using hall

/-! ### Unassigned opcodes (R56 to R60) -/

section
variable {op : Nat} (t : Tok) (b : BitVec 20) (x : BitVec 28)

theorem fieldsFE_unassigned (h : op = 0x07 ∨ 0x3B ≤ op) (hop : op < 64) : fieldsFE op t b x = none := by
  obtain rfl | h := h
  · rfl
  · interval_cases op <;> rfl
theorem fieldsLD_unassigned (h : 0x09 ≤ op) (hop : op < 64) : fieldsLD op t b x = none := by
  interval_cases op <;> rfl
theorem fieldsEX_unassigned (h : op = 0x25 ∨ 0x3A ≤ op) (hop : op < 64) : fieldsEX op t b x = none := by
  obtain rfl | h := h
  · rfl
  · interval_cases op <;> rfl
theorem fieldsST_unassigned (h : (0x0A ≤ op ∧ op ≤ 0x0F) ∨ 0x24 ≤ op) (hop : op < 64) : fieldsST op t b x = none := by
  obtain ⟨h, h'⟩ | h := h
  · interval_cases op <;> rfl
  · interval_cases op <;> rfl
end
/-- The opcode map reads nothing from a word of an unassigned opcode (R56 to R60). -/
theorem fieldsOf_unassigned {w0 : BitVec 32} (h : wideOf w0 = none) (w1 : BitVec 32) : fieldsOf w0 w1 = none := by
  have hop : (fld 20 6 w0).toNat < 64 := (fld 20 6 w0).isLt
  unfold fieldsOf
  unfold wideOf at h
  dsimp only at h ⊢
  split
  case h_1 hq =>
    rw [hq] at h
    exact fieldsFE_unassigned _ _ _ (by simpa [or_iff_not_imp_left] using h) hop
  case h_2 hq =>
    rw [hq] at h
    exact fieldsLD_unassigned _ _ _ (Nat.lt_of_not_le (by simpa using h)) hop
  case h_3 hq =>
    rw [hq] at h
    exact fieldsEX_unassigned _ _ _ (by simpa [or_iff_not_imp_left] using h) hop
  case h_4 h0 h1 h2 =>
    split at h
    case h_4 =>
      refine fieldsST_unassigned _ _ _ ?_ hop
      split at h
      · cases h
      · omega
    all_goals contradiction
/-- A word of an unassigned opcode decodes to nothing, whatever follows it (R60). -/
theorem decode_unassigned {w0 : BitVec 32} (h : wideOf w0 = none) (w1 : BitVec 32) : decode w0 w1 = none := by
  rw [decode, fieldsOf_unassigned h]

/-! ### The obligations -/

/-- Settles O1: each word is decoded by evaluation. -/
theorem decodeSpecWords : Obligations.DecodeSpecWords := by
  unfold Obligations.DecodeSpecWords
  decide
/-- Settles O2: the opcode map reads the instruction back (`Fields.statement`), and its words are those given. -/
theorem decodeInvertsEncode : Obligations.DecodeInvertsEncode := by
  unfold Obligations.DecodeInvertsEncode
  intro i hi hw w1 h1
  exact decode_eq_some_iff.mpr ⟨Laws.Fields.statement i hi hw w1 h1, hw, rfl, fun x hx => (h1 x hx).symm⟩
/-- Settles O3: what `decode` checks of the instruction that the opcode map reads, which is no event. -/
theorem decodeAcceptsOnlyEncodings : Obligations.DecodeAcceptsOnlyEncodings := by
  unfold Obligations.DecodeAcceptsOnlyEncodings
  intro w0 w1 i h
  obtain ⟨hf, hw, h0, h1⟩ := decode_eq_some_iff.mp h
  exact ⟨isEvent_of_fieldsOf hf, hw, h0, h1⟩

end Sys2Proof
end

section
/-!
PROOFS. What the FE does with the words it reads (O5, O11, O20, O28): a fetch that fails, transfers of control, privileged
instructions, and WAITA.
-/

namespace Sys2Proof.Machine
open Sys2Proof

/-! ### A fetch that fails (R60) -/

/-- A fetched word of an unassigned opcode is ILLEGAL. -/
theorem fetch_unassigned {s : State} {c : Nat} {w0 : BitVec 32}
    (hw : (s.fetchWord c (s.core c).itlb (s.core c).r.pc).1 = .word w0) (h : wideOf w0 = none) :
    (s.fetch c).1 = .stop ⟨.illegal, .fe, 0, 0⟩ := by
  simp only [State.fetch, hw, h]
  rfl
/-- A failing fetch of a live core raises its cause. -/
theorem decodeFault_raises {s : State} {c : Nat} {x : Stop} (hl : (s.core c).live = true) (hx : (s.fetch c).1 = .stop x) :
    exec (.decodeFault c) s = .next (raise c x ((s.codeRead c).upCore c (fun k => k.withItlb (s.fetch c).2))) := by
  show execDecodeFault c s = _
  simp only [execDecodeFault, hl, hx, Bool.not_true, Bool.false_eq_true, if_false]

/-! ### Transfers of control (R62, R106 to R108) -/

/-- The target of a relative transfer as an integer sum (R51). -/
theorem target_eq {w : Nat} (pc : W64) (off : BitVec w) : target pc off = BitVec.ofInt 64 (pc.toNat + 4 * off.toInt) := by
  rw [target, signExtend_eq_ofInt, BitVec.ofInt_add, BitVec.ofInt_natCast, BitVec.ofNat_toNat, BitVec.setWidth_eq,
    BitVec.ofInt_mul, BitVec.mul_comm]
  rfl
/-- A counter goes down by one in 64 bits. -/
theorem sub_one_eq (x : W64) : x - 1 = BitVec.ofInt 64 (x.toNat - 1) := by
  rw [Int.sub_eq_add_neg, BitVec.ofInt_add, BitVec.ofInt_natCast, BitVec.ofNat_toNat, BitVec.setWidth_eq, BitVec.sub_eq_add_neg]
  rfl
/-- A scalar result changes no special register. -/
theorem getSr_result (k : Core) (t lat : Nat) (d : Sreg) (v : W64) (n : Nat) : (k.result t lat d v).getSr n = k.getSr n :=
  (touches_result (d := { s := [d] }) k t lat v (List.mem_singleton.mpr rfl)).specials n List.not_mem_nil
/-- LOOP's rotation moves HRB.BASE on in four bits, whatever its counter becomes (R108). -/
theorem rotate_result (k : Core) (t lat : Nat) (d : Sreg) (v : W64) : (k.result t lat d v).rotate =
    (k.result t lat d v).setSr 0x00A (putBits (k.getSr 0x00A) 3 0 ((bits (k.getSr 0x00A) 3 0 + 1) % 16)) := by
  simp [Core.rotate, putBits, getSr_result]
/-- A branch that starts goes to its target when its condition holds of the core, and on behind itself when not (R107). -/
theorem branch_completes {i : Instr} {off : BitVec 13} {cond : Core → Bool} {s : State} {k : Core} {t : Nat} {o : Out}
    (h : s.feBegins i = some (k, t)) (ho : o = branchRun i off cond s) :
    o = .next (s.setCore s.cur ((if cond k then k.jump t (target s.pcNow off) else k).feDone (tokOf i) (t + feLat i))) :=
  feCore_completes h ho rfl
/-- JR to a multiple of 4 goes there (R106). -/
theorem jr_completes {s : State} {tok : Tok} {a : Sreg} {k : Core} {t : Nat} (h : s.feBegins (.jr tok a) = some (k, t))
    (ha : (k.getS a).toNat % 4 = 0) : exec (.jr tok a) s = .next (s.setCore s.cur ((k.jump t (k.getS a)).feDone tok (t + 1))) :=
  feCore_completes (o := execJr tok a s) h rfl (if_neg (not_not.mpr ha))
/-- JR to any other value raises ALIGN, and the jump is not taken (R62). -/
theorem jr_traps {s : State} {tok : Tok} {a : Sreg} {k : Core} {t : Nat} (h : s.feBegins (.jr tok a) = some (k, t))
    (ha : (k.getS a).toNat % 4 ≠ 0) : exec (.jr tok a) s = .next (s.feTraps k ⟨.align, .fe, k.getS a, 0⟩) :=
  feCore_stops (o := execJr tok a s) h rfl (if_pos ha)

/-! ### Privilege (R60, R61) -/

/-- A privileged instruction of a unit without privilege has the cause PRIV at decode. -/
theorem decodeStop_priv {k : Core} {i : Instr} (hp : privileged i = true) (hk : k.isPriv = false) (addr : W64) :
    k.decodeStop i addr = some ⟨.priv, .fe, 0, 0⟩ :=
  if_pos ⟨hp, by rw [hk]; rfl⟩
/-- An FE instruction that is privileged traps in a unit without privilege. -/
theorem feRun_priv {i : Instr} {body : Nat → State → Res State} {s : State} {o : Out} (ho : o = feRun i body s)
    (hl : (s.core s.cur).live = true) (hk : (s.core s.cur).isPriv = false) (hp : privileged i = true)
    (hw : (s.core s.cur).decodeWaits i = false) : o = .next (raise s.cur ⟨.priv, .fe, 0, 0⟩ s) :=
  ho.trans (feRun_decodeStop hl hw (decodeStop_priv hp hk 0))
/-- A routed instruction that is privileged traps in a unit without privilege before it is routed. -/
theorem routed_priv {e : Eng} {i : Instr} {chk : Nat → Entry → State → Option Stop} {s : State} {o : Out}
    (ho : o = routed e i chk s) (hl : (s.core s.cur).live = true) (hk : (s.core s.cur).isPriv = false)
    (hp : privileged (s.named i) = true) :
    o = .next (raise s.cur ⟨.priv, .fe, 0, 0⟩ s) := by
  have hp' : privileged (mapH (s.core s.cur).ren i) = true := hp
  simp only [ho, routed, route, hl, hk, hp', Bool.not_true, Bool.not_false, Bool.false_eq_true, if_false, and_self, if_true]
  rfl

/-! ### WAITA (R120) -/

section
variable {s s1 : State} {k : Core} {tok : Tok} {d a v u : Sreg} {cond : Cond} {t pa : Nat} {pad : Bool}

/-- The body of a WAITA at an address that is no multiple of 8 stops before it reads. -/
theorem waitaBody_misaligned (ha : (k.getS a).toNat % 8 ≠ 0) :
    waitaBody tok d a v u cond t (s.setCore s.cur k) = .stop ⟨.align, .fe, k.getS a, 0⟩ (s.setCore s.cur k) := by
  simp [waitaBody, waitaPlace, ha]
/-- The body of a WAITA without a limit that can read its word: the condition is looked at first, then the abort lines. -/
theorem waitaBody_reads (hp : waitaPlace (s.setCore s.cur k) s.cur (k.getS a) = .ok (s1, pad, pa))
    (he : pad = true → (k.earlyPad .fe false t (k.getS a).toNat 8).isNone = true) (hu : k.getS u = 0) :
    waitaBody tok d a v u cond t (s.setCore s.cur k) =
      if condInt cond (s1.waitaWord s.cur t (k.getS a) pad pa) (k.getS v) then .ok (s1.upCore s.cur (fun q => q.result t 1 d 0))
      else if s1.abrt s.cur ≠ 0 then .ok (s1.upCore s.cur (fun q => q.result t 1 d 2))
      else .wait (s1.upCore s.cur (fun q => { q with
        sleep := .waita tok d (k.getS a) pad pa (k.getS v) cond 0 t false false })) := by
  have hearly : (if pad then k.earlyPad .fe false t (k.getS a).toNat 8 else none) = none := by
    cases pad with
    | true => exact Option.isNone_iff_eq_none.mp (he rfl)
    | false => rfl
  simp only [waitaBody, setCore_cur, core_setCore_same, hp, hearly, hu, State.waitaTurn, State.waitaLog, if_true]

end

/-! ### The obligations -/

/-- Settles O5: an unassigned word decodes to nothing and is ILLEGAL when fetched; a failing fetch raises through DECODE_FAULT. -/
theorem fetchFailureRaisesItsCause : Obligations.FetchFailureRaisesItsCause := by
  unfold Obligations.FetchFailureRaisesItsCause
  refine ⟨fun w0 w1 h => decode_unassigned h w1, fun s c w0 hw h => fetch_unassigned hw h,
    fun s c x hl hx => decodeFault_raises hl hx, fun s c x ht hx hl => ?_⟩
  simp only [step, ht, State.fetchRun, hx]
  exact decodeFault_raises hl hx
/-- Settles O11: each transfer is a body on its core (`feCore_completes`, `branch_completes`), with its target as an integer sum
(`target_eq`) and LOOP's counter and rotation by `sub_one_eq` and `rotate_result`. -/
theorem transfersOfControl : Obligations.TransfersOfControl := by
  unfold Obligations.TransfersOfControl
  intro s tok a off off20 rot k t
  dsimp only
  simp only [← target_eq, ← sub_one_eq]
  refine ⟨fun h => feCore_completes (o := execJ tok off20 s) h rfl rfl,
    fun h => feCore_completes (o := execJl tok off20 s) h rfl rfl,
    fun h => ⟨jr_completes h, jr_traps h⟩, fun h => ?_, fun h => ?_, fun h => ?_, fun h => ?_, fun h => ?_⟩
  · refine (branch_completes (o := execBz tok a off s) h rfl).trans ?_
    simp only [beq_iff_eq]; rfl
  · refine (branch_completes (o := execBnz tok a off s) h rfl).trans ?_
    simp only [bne_iff_ne, ne_eq, ite_not]; rfl
  · refine (branch_completes (o := execBltz tok a off s) h rfl).trans ?_
    simp only [BitVec.slt_iff_toInt_lt]; rfl
  · refine (branch_completes (o := execBgez tok a off s) h rfl).trans ?_
    simp only [BitVec.slt_eq_decide, Bool.not_eq_true', decide_eq_false_iff_not, not_lt]; rfl
  · refine (feCore_completes (o := execLoop tok a rot off s) h rfl rfl).trans ?_
    simp only [rotate_result, ite_not]; rfl
/-- Settles O20: PRIV is the first cause of decoding (`feRun_priv`), and of routing for MIGR (`routed_priv`). -/
theorem privilegedInstructionsTrap : Obligations.PrivilegedInstructionsTrap := by
  unfold Obligations.PrivilegedInstructionsTrap
  intro s tok d a b fa fv n scope hl hk
  refine ⟨feRun_priv (o := execHalt tok s) rfl hl hk rfl rfl, feRun_priv (o := execTlbi tok a b scope s) rfl hl hk rfl rfl,
    routed_priv (o := execMigr tok a b fa fv s) rfl hl hk rfl, fun hn => ⟨?_, ?_⟩⟩
  · exact feRun_priv (o := execMovsr tok d n s) rfl hl hk (decide_eq_true hn) rfl
  · exact feRun_priv (o := execMovrs tok d n s) rfl hl hk (decide_eq_true hn) rfl
/-- Settles O28: the body stops (`waitaBody_misaligned`) or ends in one of the three ways of `waitaBody_reads`. -/
theorem waitaReturnsOrSleeps : Obligations.WaitaReturnsOrSleeps := by
  unfold Obligations.WaitaReturnsOrSleeps
  intro s tok d a v u cond k t h
  refine ⟨fun ha => (feRun_stop h (waitaBody_misaligned ha)).trans (by rw [upCore_setCore, State.feTraps]),
    fun s1 pad pa hp he hu => ?_⟩
  have hb := waitaBody_reads (tok := tok) (d := d) (v := v) (cond := cond) hp he hu
  refine ⟨fun hm => ?_, fun hm ha => ?_, fun hm ha => ?_⟩
  · exact feRun_ok h (hb.trans (if_pos hm))
  · exact feRun_ok h (hb.trans (by rw [hm, if_neg Bool.false_ne_true, if_pos ha]))
  · exact feRun_wait h (hb.trans (by rw [hm, if_neg Bool.false_ne_true, if_neg (not_not.mpr ha)]))

end Sys2Proof.Machine
end

section
/-!
PROOFS. Scalar bank operations (O49): a load of a bank by a core that the package does not have, whose answer goes to an application core.
-/

namespace Sys2Proof.Machine
open Sys2Proof

theorem scalarEls_single {op : BOp} (h : op ≠ .pfx) (x y : W64) : scalarEls op x y = [(0, x, y)] := by
  unfold scalarEls
  split
  · exact absurd rfl h
  · rfl
/-- A scalar form of one word reads no tile: it begins with its one element and the copy as it was (R294). -/
theorem words_scalar {b : Begun} {f : BForm} (hs : f.stream = false) (hp : f.op ≠ .pfx) (h1 : b.s.onePart = false) :
    b.words f = some ([(0, b.en.s 0, b.en.s 1)], b.copy0) := by
  have hnone : bankReads f (HD.of (b.en.h 0)) = [] := by simp [bankReads, hs]
  have hread : b.reads (HD.of (b.en.h 0)) false [] = some ([], b.copy0) := by
    rw [Begun.reads, h1, if_neg Bool.false_ne_true]; rfl
  have hels : bankEls f b.en [] = [(0, b.en.s 0, b.en.s 1)] := by simp [bankEls, hs, scalarEls_single hp]
  simp only [Begun.words, hnone, hread, Option.map_some, hels]

/-- A privileged core that runs a unit, with 0x400 in s10 and 1 in s9; its translations start at the nodes of `recorderMem`. -/
def loader : Core :=
  (({ Core.reset with mode := .running, run := some ⟨0, 0, 0, 0, 0, true, true, 0, 0, false, false, none⟩ }.setS 9 1).setS 10 0x400).setSr
    0x221 0x100000000
/-- It stands at number 256, one beyond the package's cores, in cluster 64 of partition 0, which logs nothing; the Crock's word at virtual
0x400 is 0. -/
def beyondCores : State :=
  { State.reset with
    cur := 256, cores := [(256, loader)], parts := [(0, { recorder with clusters := [64], logMode := 0 })], mem := recorderMem }
/-- BLD of the word at s10 to s9. -/
def loadWord : Instr := .bld {} 10 9 0 0 .d
/-- Where a begun operation's word lies, when it translates with R. -/
def Begun.wordAt (b : Begun) : Option Xlated :=
  match b.copy0.xlate b.c (b.en.s 0) needR 0 .st with
  | (.ok _, some tr) => some tr
  | _ => none
theorem xlate_of_wordAt {b : Begun} {tr : Xlated} (h : b.wordAt = some tr) :
    ∃ y, b.copy0.xlate b.c (b.en.s 0) needR 0 .st = (.ok y, some tr) := by
  unfold Begun.wordAt at h
  split at h
  · rename_i y tr' hx
    exact ⟨y, by rw [hx, Option.some.inj h]⟩
  · cases h

/-- The load begins, no older command is there, and its word meets what O49 asks: it is aligned, translates to the Crock's 0x400, which
holds 0, and no operation, count or error is in its way. -/
theorem loadWord_begins : (beyondCores.begins loadWord).any (fun b => b.wordAt.any (fun tr =>
    decide (b.c = 256 ∧ b.s.onePart = false ∧ b.first b.s = true ∧ b.en.s 0 = 0x400 ∧ tr.ent.home = 2 ∧ b.s.lagBanks = false ∧
      mget [] b.s.fifos (bankOf tr.pa) = [] ∧ (b.s.part (b.s.partNo b.c)).logMode = 0 ∧ b.s.memBad tr.pa 8 = false ∧
      b.s.reserve (dieOf (tr.pa / 64 * 64)) < 2 ^ 24 ∧ (∀ j, j < 8 → (b.s.env b.c).busyByte (tr.pa + j) = false) ∧
      b.s.bankWord tr.pa 8 = 0))) = true := by decide +kernel
/-- Its bank answers agent 256 as application core 0, so s9 keeps its 1. -/
theorem loadWord_unanswered :
    (match exec loadWord beyondCores with | .next u => (u.core 256).getS 9 | _ => 0) = 1 := by decide +kernel

/-- Refutes O49: the state may run a core of number 256, which banks take for an application core, and BLD's result scalar then never
takes the word (R280, R296). -/
theorem not_bankOperationsOnOneWord : ¬ Obligations.BankOperationsOnOneWord := by
  intro h
  obtain ⟨b, hb, hp⟩ := Option.any_eq_true _ _ |>.mp loadWord_begins
  obtain ⟨tr, htr, hd⟩ := Option.any_eq_true _ _ |>.mp hp
  obtain ⟨hc, hone, hfirst, ha, hhome, hlag, hfifo, hlog, hbad, hres, hbusy, hzero⟩ := of_decide_eq_true hd
  obtain ⟨y, hx⟩ := xlate_of_wordAt htr
  obtain ⟨hall, -⟩ := h
  obtain ⟨u, hu, -, -, -, -, hret, -⟩ := (hall beyondCores loadWord ⟨.bld, .d, false, 0, false, 9⟩ b hb rfl rfl).2
    (by rw [ha]; decide) (0, b.en.s 0, b.en.s 1) b.copy0 y tr (words_scalar rfl (by decide) hone) hx (.inl hhome) hlag hfifo hlog
    hbad hres hbusy
  have hgives : (u.core b.c).getS 9 = bankGives .bld .d (b.s.bankWord tr.pa 8) := hret hfirst rfl (by decide)
  have hkeeps := loadWord_unanswered
  rw [hu] at hkeeps
  rw [hc, hzero] at hgives
  exact absurd (hkeeps.symm.trans hgives) (by decide)

end Sys2Proof.Machine
end
